-- ==== Sys2Proof/Word.lean ====
section
/-! DEFINITION. Words of the KT4100: bytes, 16-, 32-, 64- and 256-bit words, and tables kept as lists of
key and value pairs. -/

namespace Sys2Proof

/-- A byte. -/
abbrev Byte := BitVec 8

/-- A 16-bit word (TAIL16 planes, BF16 codes). -/
abbrev W16 := BitVec 16

/-- A 32-bit word: an index register, a slot word, an FP32 encoding (R64, R166). -/
abbrev Word := BitVec 32

/-- A 64-bit word: an instruction word (R79), a state word, a binary64 encoding (R240). -/
abbrev W64 := BitVec 64

/-- A mask register (R64). -/
abbrev Mask := BitVec 256

/-- A sparse table by key; keys strictly rise where an operation keeps it so. -/
abbrev Table (α : Type) := List (Nat × α)

end Sys2Proof
end

