-- ==== Sys2Proof/Types.lean ====
section
/-! DEFINITION. The plain data that commands carry and the state holds: core instructions and their fields
(R79 to R89), the content of a score (R27 to R29), frames (R405, R406, R428) and command bodies (R461, R466). -/

namespace Sys2Proof

/-! ## Numbers -/

/-- A number as the arithmetic sees it: `fin neg m e` is (−1)^neg · m · 2^e, so `fin neg 0 e` is a signed zero. -/
inductive Num
  | nan
  | inf (neg : Bool)
  | fin (neg : Bool) (m : Nat) (e : Int)
  deriving DecidableEq, Repr, Inhabited

/-- A binary format (R197): exponent and mantissa widths, bias, magnitude code of the largest finite value, magnitude
codes of ±∞ and of the NaN the device writes, where the format has them. -/
structure FpFmt where
  ew : Nat
  mw : Nat
  bias : Int
  maxFin : Nat
  infCode : Option Nat
  nanCode : Option Nat
  deriving DecidableEq, Repr, Inhabited

/-! ## Core instructions -/

/-- Beat-wait mode (R80). -/
inductive BW | none | bt | bc | bs
  deriving DecidableEq, Repr, Inhabited

/-- The bits common to every instruction: beat-wait mode and predicate (R79, R75). -/
structure Ctl where
  bw : BW := .none
  pinv : Bool := false
  pm : Nat := 0
  deriving DecidableEq, Repr, Inhabited

/-- A core named by partition and relative position; `ghost` names the ghost score's core there (R31, R70). -/
structure CoreRef where
  part : Nat
  ghost : Bool := false
  row : Nat
  col : Nat
  deriving DecidableEq, Repr, Inhabited

/-- A count or bound given in the word or by an index register (R84, R86). -/
inductive Opnd
  | imm (n : Nat)
  | reg (x : Nat)
  deriving DecidableEq, Repr, Inhabited

/-- The right operand of `m.cmp` (R86). -/
inductive CmpRhs
  | reg (x : Nat)
  | imm (v : W16)
  deriving DecidableEq, Repr, Inhabited

/-- Fields of `ml` (R87). -/
structure MlF where
  wfmt : Nat
  blk : Nat
  lanes : Nat
  xa : Nat
  trow : Nat
  cpl : Nat
  ck : Nat
  spl : Bool
  deriving DecidableEq, Repr, Inhabited

/-- Fields of `mm` (R87). -/
structure MmF where
  shape : Nat
  afmt : Nat
  bank : Bool
  zero : Bool
  mrow : Nat
  depth : Nat
  xa : Nat
  aline : Nat
  astr : Nat
  deriving DecidableEq, Repr, Inhabited

/-- Fields of `md` (R87). -/
structure MdF where
  dfmt : Nat
  bank : Bool
  mrow : Nat
  xa : Nat
  dline : Nat
  lanes : Nat
  dstr : Nat
  deriving DecidableEq, Repr, Inhabited

/-- Fields of `mc` (R87). -/
structure McF where
  bank : Bool
  mrow : Nat
  dir : Nat
  lanes : Nat
  deriving DecidableEq, Repr, Inhabited

/-- Fields of `vld` and `vst` (R88). -/
structure VmF where
  slot : Nat
  vl : Nat
  fmt : Nat
  xa : Nat
  line : Nat
  deriving DecidableEq, Repr, Inhabited

/-- Fields of `roll` (R88). -/
structure RollF where
  rd : Nat
  sa : Nat
  sb : Nat
  sc : Nat
  sd : Nat
  se : Nat
  vl : Nat
  mv : Nat
  deriving DecidableEq, Repr, Inhabited

/-- Fields of `vperm` (R88). -/
structure VpermF where
  src : Nat
  idx : Nat
  dst : Nat
  vl : Nat
  deriving DecidableEq, Repr, Inhabited

/-- Fields of `send` (R89): destination kind 0 core (relative row, column) or 1 link route. -/
structure SendF where
  dk : Nat
  dest : Nat
  xa : Nat
  sline : Nat
  len : Nat
  deriving DecidableEq, Repr, Inhabited

/-- Fields of `recv` (R89). -/
structure RecvF where
  sk : Nat
  src : Nat
  xa : Nat
  dline : Nat
  len : Nat
  bsrc : Bool
  xb : Nat
  deriving DecidableEq, Repr, Inhabited

/-- One core instruction without its control bits (R82). -/
inductive CoreInsn
  | nop
  | loop (xc : Nat) (count : Opnd) (body : Nat)
  | waitBeat (target : Nat) (rel : Bool)
  | rest (win : Nat)
  | finish
  | xOp (xd xa xb fn : Nat)
  | xOpi (xd xa fn : Nat) (imm : Word)
  | xSet (xd : Nat) (imm : Word)
  | xGet (xd src : Nat)
  | mCmp (md xa : Nat) (rhs : CmpRhs) (cc : Nat)
  | mRange (md : Nat) (lo hi : Opnd)
  | mLogic (md ma mb fn : Nat)
  | ml (f : MlF)
  | mm (f : MmF)
  | md (f : MdF)
  | mc (f : McF)
  | vld (f : VmF)
  | vst (f : VmF)
  | roll (f : RollF)
  | vperm (f : VpermF)
  | vflag (xd : Nat) (clr : Bool)
  | send (f : SendF)
  | recv (f : RecvF)
  | dma (desc xo : Nat)
  | dmaWait (cnt : Nat)
  deriving DecidableEq, Repr, Inhabited

/-- An instruction of a program: control bits and operation (R79). -/
structure CoreOp where
  ctl : Ctl := {}
  insn : CoreInsn
  deriving DecidableEq, Repr, Inhabited

/-! ## Content of a score -/

/-- One stage of a roll (R179). -/
structure Stage where
  opc : Nat
  sub : Nat
  x : Nat
  y : Nat
  z : Nat
  grp : Nat
  imm : Word
  deriving DecidableEq, Repr, Inhabited

/-- A roll descriptor (R178): `outD`, `outE` name the stage and whether the output rounds to BF16. -/
structure Roll where
  stages : List Stage
  viewA : Nat
  viewB : Nat
  viewC : Nat
  outD : Option (Nat × Bool)
  outE : Option (Nat × Bool)
  deriving DecidableEq, Repr, Inhabited

/-- A DMA descriptor (R95). -/
structure Desc where
  memAddr : Nat
  memStride : Nat
  rowBytes : Nat
  rows : Nat
  coreLine : Nat
  coreStride : Nat
  layout : Nat
  toMem : Bool
  fmt : Nat
  queue : Nat
  counter : Nat
  xshift : Nat
  deriving DecidableEq, Repr, Inhabited

/-- What a score gives one core: program, roll table, DMA plan, router flags (R599, R600) and the bytes of its score
region (R69). -/
structure CoreProg where
  insns : List CoreOp
  rolls : List Roll := []
  plan : List Desc := []
  chainHead : Bool := true
  colFirst : Bool := false
  image : List Byte := []
  deriving DecidableEq, Repr, Inhabited

/-- A rest window (R55). -/
structure RestWin where
  first : Nat
  stop : Nat
  row0 : Nat
  row1 : Nat
  col0 : Nat
  col1 : Nat
  localBase : Nat
  localSize : Nat
  deepBase : Nat
  deepSize : Nat
  yieldLimit : Nat
  deriving DecidableEq, Repr, Inhabited

/-- A binding of a scaled tensor (R208). -/
structure Bind where
  row : Nat
  col : Nat
  first : Nat
  lines : Nat
  sline : Option Nat
  deriving DecidableEq, Repr, Inhabited

/-- A scaled tensor (R207). -/
structure Tensor where
  fmt : Nat
  headroom : Nat
  perBlock : Bool
  initHist : List Word
  binds : List Bind
  deriving DecidableEq, Repr, Inhabited

/-- A route entry (R414); `ranks` is its rank table, none for delivery on the sending device (R415). -/
structure Route where
  kind : Nat
  hand : Nat
  target : Nat
  ranks : Option (List Nat)
  prio : Nat
  deriving DecidableEq, Repr, Inhabited

/-- A source-list entry of a reduction (R148). -/
inductive Source
  | chain (col beat : Nat)
  | route (r : Nat)
  deriving DecidableEq, Repr, Inhabited

/-- A reduction descriptor (R147). -/
structure Reduction where
  elements : Nat
  mode : Nat
  out : Nat
  tensor : Nat
  dest : Nat
  sources : List Source
  deriving DecidableEq, Repr, Inhabited

/-- A gather descriptor (R325). -/
structure Gather where
  shard : Nat
  check : Option Nat
  region : Nat
  beat : Nat
  offset : Nat
  bytes : Nat
  route : Option Nat
  mask : Nat
  dest : Nat
  deriving DecidableEq, Repr, Inhabited

/-- A parameter group (R245). -/
structure Group where
  cg : Word
  cm : Word
  b1 : Word
  b2 : Word
  eta : Word
  lambda : Word
  eps : Word
  clip : Word
  phi : Nat
  psi : Nat
  phiSrc : Bool
  mstate : Nat
  wstate : Nat
  shardMode : Nat
  gmax : Word
  sched : Nat
  warm : Nat
  decay : Nat
  etaMin : Word
  factor : Word
  deriving DecidableEq, Repr, Inhabited

/-- A tensor entry (R246). -/
structure Entry where
  wBase : Nat
  tBase : Nat
  mBase : Nat
  alt : Nat
  elements : Nat
  rFirst : Nat
  red : Nat
  group : Nat
  shard : Nat
  norm : Option Nat
  deriving DecidableEq, Repr, Inhabited

/-- A region as `PLACEMENT` declares it (R293). -/
structure PlaceReg where
  base : Nat
  size : Nat
  alt : Nat
  kind : Nat
  large : Bool
  fixed : Bool
  shard : Option Nat
  deriving DecidableEq, Repr, Inhabited

/-- A promotion entry (R309). -/
structure Promo where
  addr : Nat
  pages : Nat
  target : Nat
  lead : Nat
  hold : Nat
  period : Nat
  phase : Nat
  deriving DecidableEq, Repr, Inhabited

/-- A shard entry (R318). -/
structure ShardEnt where
  owner : Nat
  keeper : Option Nat
  stage : Nat
  policy : Nat
  bytes : Nat
  deriving DecidableEq, Repr, Inhabited

/-- The content of a loaded score (R27 to R29). -/
structure Score where
  ghost : Bool := false
  strict : Bool := false
  lookahead : Bool := false
  permFaults : Bool := false
  anchored : Bool := false
  rows : Nat
  cols : Nat
  beats : Nat
  replicas : Nat := 1
  bars : Nat := 0
  yieldSteps : Nat := 0
  baseDigest : List Byte := []
  cores : List CoreProg
  inputBeat : Nat := 0
  exchangeBeat : Nat := 0
  updateBeat : Nat := 0
  drainBeat : Nat := 0
  rests : List RestWin := []
  tensors : List Tensor := []
  hasLinks : Bool := false
  routes : List Route := []
  reductions : List Reduction := []
  gathers : List Gather := []
  groups : Option (List Group) := none
  entries : List Entry := []
  regions : List PlaceReg := []
  promos : List Promo := []
  shards : List ShardEnt := []
  dp : Nat := 1
  pp : Nat := 1
  sp : Nat := 1
  verify : Nat := 64
  deriving DecidableEq, Repr, Inhabited

/-! ## Frames -/

/-- A message or a contribution's payload with its tag (R33, R90): `srcRank`, `srcRow`, `srcCol` name the
sender, `dstRow`, `dstCol` the receiving core, `route` the link route it travels on, `held` the port credits (port, units) that a message
from another rank holds while it waits (R412). -/
structure Msg where
  slot : Nat
  bar : Nat
  beat : Nat
  run : Nat
  prov : Bool
  route : Option Nat
  srcRank : Nat
  srcRow : Nat
  srcCol : Nat
  dstRow : Nat
  dstCol : Nat
  seq : Nat
  lines : Nat
  data : List Byte
  held : List (Nat × Nat) := []
  deriving DecidableEq, Repr, Inhabited

/-- A chain stream (R143). -/
structure ChainStream where
  slot : Nat
  bar : Nat
  beat : Nat
  run : Nat
  row : Nat
  col : Nat
  toLink : Bool
  rows : List Nat
  lanes : Nat
  pairs : List (Word × Word)
  deriving DecidableEq, Repr, Inhabited

/-- A Grerdo job frame (R405, R406); `tagOk`, `crcOk`, `resvOk` say whether its GCM tag, hop CRC and reserved
fields pass, `corrected` and `uncorr` count codewords that the FEC corrected in it or could not, `sent` is when it last left
its port, `ctr` the frame counter of its nonce (R419), and `opened` says that its tag has passed at its rank. -/
structure GlFrame where
  dstDev : Nat
  cls : Nat
  lseq : Nat
  ftype : Nat
  prov : Bool
  last : Bool
  run : Nat
  src : Nat
  dst : Nat
  job : Nat
  epoch : Nat
  bar : Nat
  beat : Nat
  route : Nat
  fseq : Nat
  payload : List Byte
  tagOk : Bool := true
  crcOk : Bool := true
  resvOk : Bool := true
  keyGen : Nat := 0
  ctr : Nat := 0
  corrected : Nat := 0
  uncorr : Nat := 0
  sent : Nat := 0
  opened : Bool := false
  deriving DecidableEq, Repr, Inhabited

/-- A port-state record (R408). -/
structure PortRec where
  dev : Nat
  port : Nat
  up : Bool
  gen : Nat
  deriving DecidableEq, Repr, Inhabited

/-- A Grerdo control frame (R408): acknowledged `LSEQ` per class 0 to 6, credits of the data and the collective
pool, port-state records; whether its CRC passes, and codewords of it that the FEC corrected or could not (R400). -/
structure GlCtl where
  acks : List (Option Nat)
  dataCredits : Nat
  collCredits : Nat
  recs : List PortRec
  crcOk : Bool := true
  corrected : Nat := 0
  uncorr : Nat := 0
  deriving DecidableEq, Repr, Inhabited

/-- A received Mbaing frame (R428); `gcmOk`, `resvOk` and `sumOk` say whether its GCM tag, its reserved values and its UDP checksum
pass; `encap`, `udpPort` and `vid` are its encapsulation, UDP destination port and VLAN ID, if it is tagged (R426, R427). -/
structure MbFrame where
  ftype : Nat
  cls : Nat
  first : Bool
  last : Bool
  session : Nat
  hs : Bool
  len : Nat
  seq : Nat
  assoc : Nat
  ctr : Nat
  ref : Nat
  srcAddr : Nat
  payload : List Byte
  gcmOk : Bool := true
  resvOk : Bool := true
  sumOk : Bool := true
  encap : Nat := 0
  udpPort : Nat := 0
  vid : Option Nat := none
  deriving DecidableEq, Repr, Inhabited

/-! ## Commands -/

/-- A window range (R463). -/
structure Range where
  off : Nat
  len : Nat
  deriving DecidableEq, Repr, Inhabited

/-- The header of a command and the frames that carried it (R461, R462). `win` says how its window reads are answered:
0 within the command's own step, 1 by later `WDATA` frames, 2 once they have arrived (R438). -/
structure Hdr where
  sess : Nat
  ref : Nat
  context : Nat
  cls : Nat := 0
  cver : Nat := 1
  resvOk : Bool := true
  body : Nat := 0
  carried : Nat := 0
  win : Nat := 0
  deriving DecidableEq, Repr, Inhabited

/-- A slot descriptor of a job's slot list (R351). -/
structure SlotDesc where
  window : Nat
  wsize : Nat
  sclass : Nat
  site : Nat
  fmt : Nat
  limit : Nat
  deriving DecidableEq, Repr, Inhabited

/-- A generation block with its row plan (R373). -/
structure GenBlock where
  rows : Nat
  chunk : Nat
  kvPages : Nat
  pageBytes : Nat
  kvBase : Nat
  rowBase : Nat
  plan : List (Option Nat)
  deriving DecidableEq, Repr, Inhabited

/-- A training-list entry: adaptation and the shards that hold its state (R363). -/
structure TrainEnt where
  adapt : Nat
  shards : List Nat
  deriving DecidableEq, Repr, Inhabited

/-- A checkpoint part (R477). -/
structure CkptPart where
  kind : Nat
  index : Nat
  data : List Byte
  deriving DecidableEq, Repr, Inhabited

/-- A checkpoint (R477); `digestOk` says whether the bytes restored meet the header's digest. -/
structure Ckpt where
  rank : Nat
  job : Nat
  ident : Nat
  bar : Nat
  replicas : Nat
  owner : Nat
  scoreDigest : List Byte
  baseDigest : List Byte
  parts : List CkptPart
  digestOk : Bool := true
  deriving DecidableEq, Repr, Inhabited

/-- Where `JOB.START` restores from (R477). -/
inductive RestoreSrc
  | none
  | store (ident : Nat)
  | window (r : Range) (c : Option Ckpt)
  deriving DecidableEq, Repr, Inhabited

/-- Body of `JOB.START` (R466); slot list, generation block and training list are what the window ranges `lists` hold. -/
structure StartF where
  slot : Nat
  job : Nat
  rank : Nat
  rankMap : List (Nat × List Byte) := []
  origin : Option (Nat × Nat) := none
  timeoutMs : Nat := 0
  shadowK : Nat := 10
  shadowT : Nat := 12
  shadowEn : Bool := true
  hold : List Nat := [0, 0, 0]
  report : Nat := 0
  restore : RestoreSrc := .none
  slotList : List SlotDesc := []
  gen : Option GenBlock := none
  training : List TrainEnt := []
  lists : List Range := []
  shortLists : Bool := false
  reservedBad : Bool := false
  deriving DecidableEq, Repr, Inhabited

/-- A registry entry's fields as `ADAPT.REGISTER` carries them (R348). -/
structure AdaptF where
  kind : Nat
  fmt : Nat
  planes : Nat
  site : Nat
  rank : Nat
  dIn : Nat
  dOut : Nat
  alpha : Word
  layers : List Nat
  bytes : Nat
  tier : Nat
  deriving DecidableEq, Repr, Inhabited

/-- The body image of `REQ.SUBMIT` (R467). -/
structure ReqF where
  slot : Nat
  aslot : Option Nat
  session : Nat
  maxNew : Nat
  temp : Word
  topP : Word
  penalty : Word
  topK : Nat
  pwin : Nat
  prio : Nat
  stop : Nat
  key : W64
  abar : Option Nat
  ptok : Nat
  prompt : List Nat
  inline : Bool := true
  win : Range := ⟨0, 0⟩
  zeroOk : Bool := true
  deriving DecidableEq, Repr, Inhabited

/-- Tenant quotas (R368). -/
structure Quotas where
  reg : Nat := 0
  hot : Nat := 0
  kv : Nat := 0
  lp : Nat := 0
  fl : Nat := 0
  req : Nat := 0
  sess : Nat := 0
  parts : Nat := 0
  prin : Nat := 0
  deriving DecidableEq, Repr, Inhabited

/-- One layer record of a base manifest (R499). -/
structure LayerRec where
  siteClass : List Nat
  opens : List Nat
  expertClass : List Nat
  deriving DecidableEq, Repr, Inhabited

/-- A base manifest (R499); `sigKey` is the key its signature verifies under, if any. -/
structure Manifest where
  layers : List LayerRec
  extents : List (Nat × Nat)
  mapDigests : List (List Byte)
  mappings : Nat
  digest : List Byte
  sigKey : Option (List Byte)
  resvOk : Bool := true
  deriving DecidableEq, Repr, Inhabited

/-- Settings block (R525), a default selected by 0 left as 0. -/
structure Settings where
  ethMode : Nat := 0
  encap : Nat := 0
  jumbo : Bool := false
  vlanOn : Bool := false
  macSet : Bool := false
  isoOff : Bool := false
  ptpDomain : Nat := 0
  vlan : Nat := 0
  udpPort : Nat := 0
  mac : Nat := 0
  ip : Nat := 0
  retxUs : Nat := 0
  creditKib : Nat := 0
  idleS : Nat := 0
  lingerS : Nat := 0
  windowMs : Nat := 0
  levelIn : Nat := 8192
  levelOut : Nat := 16384
  hotGib : Nat := 0
  kvGib : Nat := 0
  stageGib : Nat := 0
  scrubH : Nat := 0
  capMinW : Nat := 0
  capMaxW : Nat := 0
  capW : Nat := 0
  retuneH : Nat := 0
  batonPref : Nat := 0
  ckptGib : Nat := 0
  deriving DecidableEq, Repr, Inhabited

/-- Where a port leads, or that it is unused (R524 TOPOLOGY). -/
structure TopoEnt where
  peerDev : Nat := 0
  peerPort : Nat := 0
  unused : Bool := false
  deriving DecidableEq, Repr, Inhabited

/-- A setup image (R524); `sigKey` is the key its signature verifies under, if any, `resvOk` whether every
reserved byte is zero. `routes` are the routing table's 4-byte entries that list a port (14 R402). -/
structure SetupImage where
  deviceId : Nat := 0
  serial : Nat := 0
  setupKeys : List (List Byte) := []
  hostKeys : List (List Byte) := []
  baseKeys : List (List Byte) := []
  settings : Settings := {}
  topology : List TopoEnt := []
  routes : Table Nat := []
  quotas : Quotas := {}
  ageBase : List Nat := []
  digest : List Byte := []
  sigKey : Option (List Byte) := none
  resvOk : Bool := true
  deriving DecidableEq, Repr, Inhabited

/-- A firmware image (R528); `sigOk` is whether Exeapex's signature verifies. -/
structure FwImage where
  version : Nat := 0
  digest : List Byte := []
  sigOk : Bool := true
  deriving DecidableEq, Repr, Inhabited

/-- A vote record (R276). -/
structure Vote where
  bar : Nat
  job : Nat
  epoch : Nat
  score : List Byte
  mode : Bool
  finite : Bool
  ovf : Bool
  cause : Nat
  voters : Nat
  ovfTensor : Nat
  nonfin : Nat
  overs : Nat
  deriving DecidableEq, Repr, Inhabited

/-- Norm partials of one tensor entry, binary64 words (R254). -/
structure Partials where
  w2 : W64 := 0
  w2Old : W64 := 0
  g2 : W64 := 0
  d2 : W64 := 0
  deriving DecidableEq, Repr, Inhabited

/-- The gathered outcome block (R276): outcome, new digest per shard, partials and held flag per tensor entry. -/
structure OutBlock where
  outcomes : Table Nat := []
  digests : Table (List Byte) := []
  partials : Table (Partials × Bool) := []
  deriving DecidableEq, Repr, Inhabited

/-- A shard version (R321). -/
structure Version where
  bar : Nat := 0
  digest : List Byte := []
  deriving DecidableEq, Repr, Inhabited

/-- A replica-comparison record (R334). -/
structure CmpRec where
  bar : Nat
  epoch : Nat
  base : List Byte
  hist : List Byte
  score : List Byte
  versions : List Byte
  deriving DecidableEq, Repr, Inhabited

/-- A request of a job as a table copy carries it, every field of its entry (R337, R378), with its prompt store. -/
structure TabReq where
  id : Nat
  owner : Nat
  f : ReqF
  adapt : Option Nat := none
  live : Bool := false
  why : Nat := 0
  pos : Nat
  pend : Nat
  abar : Option Nat := none
  row : Option Nat := none
  sess : Nat := 0
  tokens : List Nat
  deriving DecidableEq, Repr, Inhabited

/-- A session of a job as a table copy carries it, every field of its entry but the count of its pages (R337, R380). -/
structure TabSess where
  sid : Nat
  owner : Nat
  held : Bool := false
  tokens : Nat
  dir : Nat := 0
  maxPages : Nat
  req : Option Nat := none
  last : Nat := 0
  deriving DecidableEq, Repr, Inhabited

/-- The job tables that a spare copies from the lowest surviving rank (R337); `ok` says whether every table meets its
digest. -/
structure JobTables where
  start : StartF
  owner : Nat
  score : List Byte
  epoch : Nat := 0
  nextBar : Nat
  members : List (Nat × Nat × List Byte) := []
  lost : List Nat := []
  versions : List Version := []
  numeric : List Byte := []
  reqs : List TabReq := []
  sess : List TabSess := []
  ok : Bool := true
  deriving DecidableEq, Repr, Inhabited

/-- What the module meets in a start (R530): trained lanes and peers, Ethernet lanes, sensors, the lowest
voltages and derated tempos its silicon gives, repair resources, whether each image still verifies, whether each
hand confirms, the duration. -/
structure StartObs where
  lanes : List Nat := []
  peers : List (Nat × Nat) := []
  eth01 : Bool := true
  eth23 : Bool := true
  sensors0 : List Nat := []
  sensors1 : List Nat := []
  volts0 : List Nat := []
  volts1 : List Nat := []
  repair : List Nat := []
  selfTestOk : Bool := true
  stagedFwOk : Bool := true
  activeFwOk : Bool := true
  confirm0 : Bool := true
  confirm1 : Bool := true
  ms : Nat := 38000
  deriving DecidableEq, Repr, Inhabited

end Sys2Proof
end

