-- ==== Sys2Proof/Syntax.lean ====
section
/-! DEFINITION. The commands of the KT4100: one constructor for each row of spec/opcode_table.json, in its order. An
operand names the unit that takes the step and what the step brings from outside the model (a frame, a reading, the
host's bytes). -/

namespace Sys2Proof

/-- The steps of the part (95, opcode_table.json). -/
inductive Instr
  -- core steps (03)
  | nop (c : CoreRef) (k : Ctl)
  | loop (c : CoreRef) (k : Ctl) (xc : Nat) (count : Opnd) (body : Nat)
  | waitBeat (c : CoreRef) (k : Ctl) (target : Nat) (rel : Bool)
  | rest (c : CoreRef) (k : Ctl) (win : Nat)
  | finish (c : CoreRef) (k : Ctl)
  | xOp (c : CoreRef) (k : Ctl) (xd xa xb fn : Nat)
  | xOpi (c : CoreRef) (k : Ctl) (xd xa fn : Nat) (imm : Word)
  | xSet (c : CoreRef) (k : Ctl) (xd : Nat) (imm : Word)
  | xGet (c : CoreRef) (k : Ctl) (xd src : Nat)
  | mCmp (c : CoreRef) (k : Ctl) (md xa : Nat) (rhs : CmpRhs) (cc : Nat)
  | mRange (c : CoreRef) (k : Ctl) (md : Nat) (lo hi : Opnd)
  | mLogic (c : CoreRef) (k : Ctl) (md ma mb fn : Nat)
  | ml (c : CoreRef) (k : Ctl) (f : MlF) (ecc : Bool)
  | mm (c : CoreRef) (k : Ctl) (f : MmF) (ecc : Bool)
  | mmCompletionToken (c : CoreRef)
  | md (c : CoreRef) (k : Ctl) (f : MdF) (ecc : Bool)
  | mc (c : CoreRef) (k : Ctl) (f : McF) (ecc : Bool)
  | chainStreamArrival (ix : Nat)
  | vld (c : CoreRef) (k : Ctl) (f : VmF) (ecc : Bool)
  | vst (c : CoreRef) (k : Ctl) (f : VmF) (ecc : Bool)
  | roll (c : CoreRef) (k : Ctl) (f : RollF) (ecc : Bool)
  | vperm (c : CoreRef) (k : Ctl) (f : VpermF) (ecc : Bool)
  | vflag (c : CoreRef) (k : Ctl) (xd : Nat) (clr : Bool)
  | send (c : CoreRef) (k : Ctl) (f : SendF) (ecc : Bool)
  | recv (c : CoreRef) (k : Ctl) (f : RecvF) (ecc : Bool)
  | messageArrival (ix : Nat) (ecc : Bool)
  | ghostPause (part : Nat)
  | ghostSaveDone (part : Nat)
  | dma (c : CoreRef) (k : Ctl) (desc xo : Nat)
  | dmaComplete (c : CoreRef) (ix : Nat) (err : Bool)
  | dmaWait (c : CoreRef) (k : Ctl) (cnt : Nat)
  | partitionScrubDone (part : Nat)
  | shadowCheckDone (c : CoreRef)
  -- link interface and update engine (05, 08, 11, 13)
  | chainIntake (ix : Nat)
  | routeContribution (ix : Nat)
  | gradientIntake (slot : Nat) (red : Nat)
  | updateElement (slot : Nat) (entry : Nat) (err : Bool)
  | outcomeReport (ix : Nat)
  | shardFetchArrival (slot : Nat) (shard : Nat) (version : Version) (bytes : List Byte)
  | gatherArrival (slot : Nat) (gather : Nat) (version : Version) (bytes : List Byte)
  -- bars (09)
  | handDrained (slot : Nat) (hand : Nat)
  | barWordsCombined (slot : Nat) (others : List (Nat × Bool))
  | voteEnter (slot : Nat)
  | downbeatVerdict (slot : Nat) (others : List Vote) (block : OutBlock)
  | barOpen (slot : Nat)
  | lookaheadOpen (slot : Nat)
  | barTimeout (slot t : Nat)
  | verdictQueryReply (slot : Nat) (member : Nat) (verdict : Option (Nat × Nat)) (block : OutBlock)
  | replicaComparison (slot : Nat) (recs : List (Nat × CmpRec))
  | samplerDraw (ix : Nat)
  -- memory engines (10, 17, 20)
  | promotionComplete (page : Nat) (err : Bool)
  | demotionComplete (page : Nat)
  | pageZeroingDone (page : Nat)
  | baseScrubRead (mapping : Nat) (err : Bool)
  | baseReloadDone (mapping : Nat) (unread : List Nat) (peer : Option (List Byte))
  | pageRecoveryDone (page : Nat) (found : Option (List Byte))
  | reencryptPage (page : Nat) (err : Bool)
  -- Grerdo ports (14)
  | glPortTraining (port : Nat) (lanes : Nat) (peerDev peerPort : Nat)
  | glFrameReceive (port : Nat) (f : GlFrame)
  | glControlFrame (port : Nat) (f : GlCtl)
  | glControlSendTimer (port : Nat)
  | glClassRewind (port : Nat) (cls : Nat)
  | glPortDown (port : Nat)
  -- host port (15)
  | ethLinkTraining (l01 l23 : Bool)
  | arpRequest (ip : Nat)
  | assoc (src : Nat) (nonce : List Byte)
  | openStep1 (f : MbFrame) (key xkey nonce : List Byte) (contexts : List Nat) (window : Nat)
  | openStep3 (f : MbFrame) (sigOk : Bool)
  | cmdFrame (f : MbFrame)
  | ackFrame (f : MbFrame) (next : List Nat)
  | ackSendTimer
  | wdataFrame (f : MbFrame)
  | closeFrame (f : MbFrame)
  | retransmitTimeout (cls t : Nat)
  | outboundFrameSend
  | noticePacketClose (sess t : Nat)
  | sessionIdleTimeout (sess t : Nat)
  | lingerExpiry (ix t : Nat)
  | windowTimeout (sess ref t : Nat)
  | parkedItemResume (cls : Nat)
  | ptpSync (domain : Nat) (time : Nat) (t : Nat)
  | ptpHoldover (t : Nat)
  -- host commands (16 R466)
  | stateRead (h : Hdr) (words : List (Nat × Nat))
  | deviceReset (h : Hdr) (confirm : List Byte)
  | portLevel (h : Hdr) (queue kib : Nat)
  | baseLoad (h : Hdr) (man image : Range) (golden : Nat) (m : Manifest) (bytes : List Byte)
  | pwrCap (h : Hdr) (watts : Nat)
  | scoreLoad (h : Hdr) (slot : Nat) (r : Range) (file : List Byte)
  | scoreUnload (h : Hdr) (slot : Nat)
  | jobStart (h : Hdr) (f : StartF)
  | jobStop (h : Hdr) (slot mode after : Nat) (ckpt : Bool)
  | jobBind (h : Hdr) (slot part : Nat)
  | jobAdmit (h : Hdr) (slot rank epoch device : Nat) (ident : List Byte) (tables : Option JobTables)
  | jobReshard (h : Hdr) (old new : Nat) (forced : Bool) (map : List (Nat × Nat × List Byte)) (tables : Option JobTables)
  | jobNorms (h : Hdr) (slot first count : Nat) (r : Range)
  | jobCheckpoint (h : Hdr) (slot : Nat) (dest : Option Range)
  | jobInput (h : Hdr) (slot bar addr : Nat) (r : Range) (bytes : List Byte)
  | adaptRegister (h : Hdr) (f : AdaptF) (r : Range) (bytes : List Byte)
  | adaptQuery (h : Hdr) (id : Nat)
  | adaptRead (h : Hdr) (id : Nat) (r : Range)
  | adaptUnregister (h : Hdr) (id : Nat)
  | adaptClaim (h : Hdr) (slot aslot id prio : Nat) (cbar : Option Nat)
  | adaptRelease (h : Hdr) (slot aslot : Nat) (cbar : Option Nat)
  | adaptRevoke (h : Hdr) (id : Nat)
  | adaptGrant (h : Hdr) (id : Nat) (add : Bool) (context : Nat)
  | adaptProbe (h : Hdr) (id slot aslot items : Nat) (tol : Word) (set refs : Range) (ref : List Word) (setBytes : List Byte)
  | reqSubmit (h : Hdr) (f : ReqF)
  | reqCancel (h : Hdr) (id : Nat)
  | sessOpen (h : Hdr) (maxPages : Nat)
  | sessClose (h : Hdr) (sid : Nat)
  | tenantOpen (h : Hdr) (context : Nat) (key : List Byte)
  | tenantQuota (h : Hdr) (context mask : Nat) (q : Quotas)
  | tenantClose (h : Hdr) (context : Nat)
  | attestReport (h : Hdr) (nonce : List Byte) (view : Nat) (r : Range)
  | keyRotate (h : Hdr) (target cls : Nat)
  | configStage (h : Hdr) (r : Range) (image : SetupImage)
  | fwStage (h : Hdr) (r : Range) (image : FwImage)
  | prinKey (h : Hdr) (retire : Bool) (key : List Byte)
  | logRead (h : Hdr) (first count : Nat) (r : Range)
  | sealReturn (h : Hdr) (confirm : List Byte)
  -- start, power and faults (17 to 21)
  | powerUpStart (obs : StartObs)
  | resetNAssert
  | pwrOkFall
  | inputPowerLoss
  | thermalComparatorTrip (hand : Nat)
  | refclkLoss (eth : Bool) (lost : Bool)
  | batonConfirm (hand : Nat) (ok : Bool) (t : Nat)
  | timekeeperResetTimeout (t : Nat)
  | handFault (hand : Nat) (cause : Nat) (t : Nat)
  | handRestartDone (hand : Nat) (obs : StartObs)
  | hubSelfRestart (t : Nat)
  | powerControlWindow (t : Nat) (mean hand0 hand1 volts10mV : Nat)
  | junctionTemperatureSample (hand sensor temp16 : Nat) (t : Nat)
  | monitorPeriodicSample (block inst value : Nat) (t : Nat)
  | retuneInterval (hand : Nat) (t : Nat)
  | ageingMeasurementDone (hand : Nat) (obs : StartObs)
  | logStageFlush
  | logSignatureTimer
  | verdictRunEntryClose (slot : Nat)
  | ethLinkDown
  | nonMbaingFrame
  | tempoChangeComplete (hand : Nat) (t : Nat)
  | makerUnseal (responseOk : Bool)
  deriving DecidableEq, Repr, Inhabited

end Sys2Proof
end

