-- ==== Sys2Proof/WellFormed.lean ====
section
/-! DEFINITION. Well-formed commands: every operand fits the field that carries it (03 R79 to R89, 15 R428, 16 R461).
The meanings do not rest on it; statements that need an operand in its range say so through it. -/

namespace Sys2Proof

/-- The control bits of an instruction word (R79). -/
def Ctl.wf (k : Ctl) : Bool := decide (k.pm < 8)

/-- A core that the grid of a partition can have (R47, R51). -/
def CoreRef.wf (c : CoreRef) : Bool := decide (c.part < 64) && decide (c.row < 16) && decide (c.col < 64)

/-- A count or bound: an immediate below the field's all-ones value, or a register (R102). -/
def Opnd.wf (top : Nat) : Opnd → Bool
  | .imm n => decide (n ≤ top)
  | .reg x => decide (x < 32)

/-- A core instruction whose fields lie in their widths and name no reserved value (R84 to R89, R102). -/
def CoreInsn.wf : CoreInsn → Bool
  | .nop => true
  | .loop xc count body => decide (0 < xc) && decide (xc < 32) && count.wf 1048574 && decide (1 ≤ body) &&
      decide (body ≤ 16382)
  | .waitBeat target _ => decide (target < 65536)
  | .rest win => decide (win < 64)
  | .finish => true
  | .xOp xd xa xb fn => decide (0 < xd) && decide (xd < 32) && decide (xa < 32) && decide (xb < 32) && decide (fn ≤ 12)
  | .xOpi xd xa fn _ => decide (0 < xd) && decide (xd < 32) && decide (xa < 32) && decide (fn ≤ 12)
  | .xSet xd _ => decide (0 < xd) && decide (xd < 32)
  | .xGet xd src => decide (0 < xd) && decide (xd < 32) && decide (src ≤ 10)
  | .mCmp d xa rhs cc => decide (0 < d) && decide (d < 8) && decide (xa < 32) && decide (cc ≤ 5) &&
      (match rhs with
        | .reg x => decide (x < 32)
        | .imm _ => true)
  | .mRange d lo hi => decide (0 < d) && decide (d < 8) && lo.wf 256 && hi.wf 256
  | .mLogic d ma mb fn => decide (0 < d) && decide (d < 8) && decide (ma < 8) && decide (mb < 8) && decide (fn ≤ 4)
  | .ml f => decide (1 ≤ f.wfmt) && decide (f.wfmt ≤ 8) && decide (f.blk < 4) && decide (f.lanes ≤ 128) &&
      decide (f.xa < 32) && decide (f.trow < 4096) && decide (f.cpl ≤ 1022) && decide (f.ck ≤ f.cpl)
  | .mm f => decide (f.shape ≤ 5) && decide (1 ≤ f.afmt) && decide (f.afmt ≤ 8) && decide (f.mrow < 8) &&
      decide (f.depth ≤ 512) && decide (f.xa < 32) && decide (f.aline < 65536) && decide (f.astr ≤ 254)
  | .md f => decide (f.dfmt ≤ 2) && decide (f.mrow < 8) && decide (f.xa < 32) && decide (f.dline < 65536) &&
      decide (f.lanes ≤ 128) && decide (f.dstr ≤ 254)
  | .mc f => decide (f.mrow < 8) && decide (f.dir ≤ 1) && decide (f.lanes ≤ 128)
  | .vld f => decide (f.slot < 64) && decide (f.vl ≤ 256) && decide (f.fmt ≤ 9) && decide (f.xa < 32) &&
      decide (f.line < 65536)
  | .vst f => decide (f.slot < 64) && decide (f.vl ≤ 256) && decide (f.fmt ≤ 9) && decide (f.xa < 32) &&
      decide (f.line < 65536)
  | .roll f => decide (f.rd < 256) && decide (f.sa < 64) && decide (f.sb < 64) && decide (f.sc < 64) &&
      decide (f.sd < 64) && decide (f.se < 64) && decide (f.vl ≤ 256) && decide (f.mv < 8)
  | .vperm f => decide (f.src < 64) && decide (f.idx < 64) && decide (f.dst < 64) && decide (f.vl ≤ 256)
  | .vflag xd _ => decide (xd < 32)
  | .send f => decide (f.dk ≤ 1) && decide (f.dest < 1024) && decide (f.xa < 32) && decide (f.sline < 65536) &&
      decide (f.len ≤ 256)
  | .recv f => decide (f.sk ≤ 1) && decide (f.src < 1024) && decide (f.xa < 32) && decide (f.dline < 65536) &&
      decide (f.len ≤ 256) && decide (f.xb < 32)
  | .dma desc xo => decide (desc < 4096) && decide (xo < 32)
  | .dmaWait cnt => decide (cnt < 16)

/-- The control bits, core and instruction of a core step; none for the other commands. -/
def Instr.coreStep : Instr → Option (CoreRef × Ctl × CoreInsn)
  | .nop c k => some (c, k, .nop)
  | .loop c k xc count body => some (c, k, .loop xc count body)
  | .waitBeat c k t r => some (c, k, .waitBeat t r)
  | .rest c k w => some (c, k, .rest w)
  | .finish c k => some (c, k, .finish)
  | .xOp c k xd xa xb fn => some (c, k, .xOp xd xa xb fn)
  | .xOpi c k xd xa fn imm => some (c, k, .xOpi xd xa fn imm)
  | .xSet c k xd imm => some (c, k, .xSet xd imm)
  | .xGet c k xd src => some (c, k, .xGet xd src)
  | .mCmp c k d xa rhs cc => some (c, k, .mCmp d xa rhs cc)
  | .mRange c k d lo hi => some (c, k, .mRange d lo hi)
  | .mLogic c k d ma mb fn => some (c, k, .mLogic d ma mb fn)
  | .ml c k f _ => some (c, k, .ml f)
  | .mm c k f _ => some (c, k, .mm f)
  | .md c k f _ => some (c, k, .md f)
  | .mc c k f _ => some (c, k, .mc f)
  | .vld c k f _ => some (c, k, .vld f)
  | .vst c k f _ => some (c, k, .vst f)
  | .roll c k f _ => some (c, k, .roll f)
  | .vperm c k f _ => some (c, k, .vperm f)
  | .vflag c k xd clr => some (c, k, .vflag xd clr)
  | .send c k f _ => some (c, k, .send f)
  | .recv c k f _ => some (c, k, .recv f)
  | .dma c k d xo => some (c, k, .dma d xo)
  | .dmaWait c k n => some (c, k, .dmaWait n)
  | _ => none

/-- A command header names a session, tag and class that a frame can carry (R428, R461). -/
def Hdr.wf (h : Hdr) : Bool := decide (h.sess < 4096) && decide (h.cls < 8) && decide (h.context < 4096)

/-- The header of a host command; none for the other commands. -/
def Instr.header : Instr → Option Hdr
  | .stateRead h _ => some h
  | .deviceReset h _ => some h
  | .portLevel h _ _ => some h
  | .baseLoad h _ _ _ _ _ => some h
  | .pwrCap h _ => some h
  | .scoreLoad h _ _ _ => some h
  | .scoreUnload h _ => some h
  | .jobStart h _ => some h
  | .jobStop h _ _ _ _ => some h
  | .jobBind h _ _ => some h
  | .jobAdmit h _ _ _ _ _ _ => some h
  | .jobReshard h _ _ _ _ _ => some h
  | .jobNorms h _ _ _ _ => some h
  | .jobCheckpoint h _ _ => some h
  | .jobInput h _ _ _ _ _ => some h
  | .adaptRegister h _ _ _ => some h
  | .adaptQuery h _ => some h
  | .adaptRead h _ _ => some h
  | .adaptUnregister h _ => some h
  | .adaptClaim h _ _ _ _ _ => some h
  | .adaptRelease h _ _ _ => some h
  | .adaptRevoke h _ => some h
  | .adaptGrant h _ _ _ => some h
  | .adaptProbe h _ _ _ _ _ _ _ _ _ => some h
  | .reqSubmit h _ => some h
  | .reqCancel h _ => some h
  | .sessOpen h _ => some h
  | .sessClose h _ => some h
  | .tenantOpen h _ _ => some h
  | .tenantQuota h _ _ _ => some h
  | .tenantClose h _ => some h
  | .attestReport h _ _ _ => some h
  | .keyRotate h _ _ => some h
  | .configStage h _ _ => some h
  | .fwStage h _ _ => some h
  | .prinKey h _ _ => some h
  | .logRead h _ _ _ => some h
  | .sealReturn h _ => some h
  | _ => none

/-- A well-formed command. -/
def Instr.wf (i : Instr) : Bool :=
  (match i.coreStep with
    | some (c, k, op) => c.wf && k.wf && op.wf
    | none => true) &&
  match i.header with
  | some h => h.wf
  | none => true

end Sys2Proof
end

