-- ==== Sys2Proof/Decode.lean ====
section
/-! DEFINITION. spec/opcode_table.json gives none of its rows any bits, so no word spells a command. The encodings of
core instructions (03 R79 to R89) are read by the score load, in Sys2Proof/Machine/ScoreCode.lean. -/

namespace Sys2Proof

/-- The command that a word of the opcode table spells: none, since the table gives no row bits. -/
def decodeTableWord (_nbits _w : Nat) : Option Instr := none

end Sys2Proof
end

