-- ==== Sys2Proof/Config.lean ====
section
/-! DEFINITION. The free values: what the manual leaves open has no body here, so no proof can see what it is. A claim
holds whatever they are. -/

namespace Sys2Proof.Config

/-- The bits a module gives for e^x (`false`) or 2^x (`true`); R175 bounds them to 2 ulp. -/
opaque expBits : Bool → Word → Word

/-- The bits for ln x (`false`) or log2 x (`true`); R175 bounds them to 2 ulp, or absolutely near 1. -/
opaque logBits : Bool → Word → Word

/-- The bits for 1/x; R175 bounds them to 1 ulp. -/
opaque recipBits : Word → Word

/-- The bits for 1/√x; R175 bounds them to 1 ulp. -/
opaque rsqrtBits : Word → Word

/-- The bits for tanh x; R175 bounds them to 2 ulp. -/
opaque tanhBits : Word → Word

/-- The binary64 bits of e^x in the token sampler; R386 bounds them to 1 ulp. -/
opaque expBits64 : W64 → W64

/-- Byte i of the n-th free byte string of a length, its second argument: nonces, keys, salts and generated numbers of the security core
(R433, R435, R488, R507). -/
opaque freeByte : Nat → Nat → Nat → Byte

/-- The n-th free byte string of a length. -/
def freeBytes (n len : Nat) : List Byte := (List.range len).map (freeByte n len)

/-- The n-th free number (R433 association numbers, internal details of a cause, R506 command-specific details). -/
opaque freeNat : Nat → Nat

/-- What an accumulator entry holds that a rest window left dead (R60), by free number, bank and entry. -/
opaque deadBank : Nat → Bool → Nat → Word × Word

/-- The 256-bit secret of a generation of a memory key, by context (none the device's) and generation (17 R489). -/
opaque memSecret : Option Nat → Nat → List Byte

/-- AES-256-XTS of a line under a key pair and tweak (17 R492, R493): another standard's function, which the manual
names. -/
opaque xts : List Byte → Nat → List Byte → List Byte

/-- The MAC of a node of the version tree, by level, index and children (17 R493: the manual gives no layout). -/
opaque nodeMac : Nat → Nat → List (List Byte) → List Byte

end Sys2Proof.Config
end

