-- ==== Sys2Proof/Machine/Bits.lean ====
section
/-! DEFINITION. Bits, bytes and byte order: little-endian words of memory and payloads (00 Notation). -/

namespace Sys2Proof

/-- Bits `hi` to `lo` of `w`. -/
def bitsOf (w hi lo : Nat) : Nat := (w >>> lo) % 2 ^ (hi + 1 - lo)

/-- Bit `i` of `w`. -/
def bitOf (w i : Nat) : Bool := (w >>> i) % 2 == 1

/-- ⌈a / b⌉. -/
def ceilDiv (a b : Nat) : Nat := (a + b - 1) / b

/-- `a` saturated at `m`. -/
def satAt (m a : Nat) : Nat := min m a

/-- The number of a Bool. -/
def bit (b : Bool) : Nat := if b then 1 else 0

/-- The `n` low bytes of `v`, lowest first. -/
def leBytes : Nat → Nat → List Byte
  | 0, _ => []
  | n + 1, v => BitVec.ofNat 8 v :: leBytes n (v / 256)

/-- The number whose little-endian bytes are given. -/
def leNat : List Byte → Nat
  | [] => 0
  | b :: bs => b.toNat + 256 * leNat bs

/-- The `n` low bytes of `v`, highest first (Mbaing and Grerdo headers). -/
def beBytes (n v : Nat) : List Byte := (leBytes n v).reverse

/-- The FP32 words at consecutive 4-byte places of a byte string; bytes after the last whole word are ignored. -/
def wordsOf (n : Nat) (bs : List Byte) : List Word :=
  (List.range n).map fun j => BitVec.ofNat 32 (leNat ((bs.drop (4 * j)).take 4))

/-- Element `k` of width `w` bits of a packed little-endian bit stream (R199). -/
def packedGet (bs : List Byte) (w k : Nat) : Nat :=
  let first := k * w / 8
  (leNat ((bs.drop first).take 4) >>> (k * w % 8)) % 2 ^ w

/-- The number whose bits are `n` packed elements of `w` bits (R199). -/
def packNat (w : Nat) : List Nat → Nat
  | [] => 0
  | c :: cs => c % 2 ^ w + 2 ^ w * packNat w cs

/-- Sum of a list of numbers. -/
def sumNat (l : List Nat) : Nat := l.foldl (· + ·) 0

/-- A signed 32-bit reading of a word (R602). -/
def sint (w : Word) : Int := w.toInt

/-- ⌈log2 n⌉ of n ≥ 1. -/
def ceilLog2 (n : Nat) : Nat := if n ≤ 1 then 0 else Nat.log2 (n - 1) + 1

/-- A list with the element at `i` replaced. -/
def setAt {α : Type} (l : List α) (i : Nat) (a : α) : List α := l.set i a

end Sys2Proof
end

