-- ==== Sys2Proof/Machine/Float.lean ====
section
/-! DEFINITION. Number formats, rounding and the FP32 operations of 05 R135 to R139, 06 R175 to R177 and
07 R197 to R204. Every operation computes exactly on `Num` and rounds once. -/

namespace Sys2Proof

/-! ## Formats (R197) -/

def fmtFp32 : FpFmt := ⟨8, 23, 127, 0x7F7FFFFF, some 0x7F800000, some 0x7FC00000⟩
def fmtBf16 : FpFmt := ⟨8, 7, 127, 0x7F7F, some 0x7F80, some 0x7FC0⟩
def fmtE4m3 : FpFmt := ⟨4, 3, 7, 0x7E, none, some 0x7F⟩
def fmtE5m2 : FpFmt := ⟨5, 2, 15, 0x7B, some 0x7C, some 0x7F⟩
def fmtE3m2 : FpFmt := ⟨3, 2, 3, 0x1F, none, none⟩
def fmtE2m3 : FpFmt := ⟨2, 3, 1, 0x1F, none, none⟩
def fmtE2m1 : FpFmt := ⟨2, 1, 1, 0x7, none, none⟩
def fmtF64 : FpFmt := ⟨11, 52, 1023, 0x7FEFFFFFFFFFFFFF, some 0x7FF0000000000000, some 0x7FF8000000000000⟩

/-- The element format of a format code (R195); FP32 for a code without one. -/
def fmtOfCode : Nat → FpFmt
  | 1 => fmtBf16
  | 2 => fmtE4m3
  | 3 => fmtE5m2
  | 4 => fmtE4m3
  | 5 => fmtE5m2
  | 6 => fmtE3m2
  | 7 => fmtE2m3
  | 8 => fmtE2m1
  | _ => fmtFp32

/-- Element bits of a format code (R195). -/
def fmtBits : Nat → Nat
  | 0 => 32
  | 1 => 16
  | 9 => 16
  | 6 => 6
  | 7 => 6
  | 8 => 4
  | _ => 8

/-- MX formats carry E8M0 block scales (R195). -/
def fmtIsMx (c : Nat) : Bool := 4 ≤ c && c ≤ 8

/-- Per-tensor FP8 formats (R195). -/
def fmtIsFp8 (c : Nat) : Bool := c == 2 || c == 3

/-- The width of an encoding of the format. -/
def FpFmt.width (f : FpFmt) : Nat := 1 + f.ew + f.mw

/-- The value an encoding stands for (R197). -/
def FpFmt.decode (f : FpFmt) (code : Nat) : Num :=
  let mag := code % 2 ^ (f.ew + f.mw)
  let neg := (code / 2 ^ (f.ew + f.mw)) % 2 == 1
  if mag ≤ f.maxFin then
    let ex := mag / 2 ^ f.mw
    if ex = 0 then .fin neg mag (1 - f.bias - f.mw)
    else .fin neg (mag % 2 ^ f.mw + 2 ^ f.mw) (ex - f.bias - f.mw)
  else if f.infCode = some mag then .inf neg else .nan

/-- `m` · 2^`e` in units of 2^`q`, rounded to nearest, ties to even. -/
def rneUnits (m : Nat) (e q : Int) : Nat :=
  if q ≤ e then m * 2 ^ (e - q).toNat
  else
    let k := (q - e).toNat
    let n := m / 2 ^ k
    let r := m % 2 ^ k
    let half := 2 ^ k
    if 2 * r > half || (2 * r == half && n % 2 == 1) then n + 1 else n

/-- `m` · 2^`e` in units of 2^`q`, rounded toward zero. -/
def rtzUnits (m : Nat) (e q : Int) : Nat :=
  if q ≤ e then m * 2 ^ (e - q).toNat else m / 2 ^ (q - e).toNat

/-- The exponent of the last place at `m` · 2^`e` in the format, subnormals included. -/
def FpFmt.quantum (f : FpFmt) (m : Nat) (e : Int) : Int :=
  max ((Nat.log2 m : Int) + e - f.mw) (1 - f.bias - f.mw)

/-- The magnitude code of `m` · 2^`e` rounded to nearest, ties to even, as if the exponent range had no top (R203). -/
def FpFmt.roundMag (f : FpFmt) (m : Nat) (e : Int) : Nat :=
  if m = 0 then 0
  else
    let q := f.quantum m e
    rneUnits m e q + (q - (1 - f.bias - f.mw)).toNat * 2 ^ f.mw

/-- The magnitude code of `m` · 2^`e` rounded toward zero, at most the largest finite value. -/
def FpFmt.truncMag (f : FpFmt) (m : Nat) (e : Int) : Nat :=
  if m = 0 then 0
  else
    let q := f.quantum m e
    min f.maxFin (rtzUnits m e q + (q - (1 - f.bias - f.mw)).toNat * 2 ^ f.mw)

/-- An encoding from a sign and a magnitude code. -/
def FpFmt.pack (f : FpFmt) (neg : Bool) (mag : Nat) : Nat := mag + bit neg * 2 ^ (f.ew + f.mw)

/-- IEEE 754 rounding of an exact number: nearest-even, overflow to ±∞ (R136, R203). -/
def FpFmt.round (f : FpFmt) : Num → Nat
  | .nan => f.nanCode.getD 0
  | .inf neg => f.pack neg (f.infCode.getD f.maxFin)
  | .fin neg m e =>
    let c := f.roundMag m e
    f.pack neg (if c ≤ f.maxFin then c else f.infCode.getD f.maxFin)

/-- Conversion to a narrow format (R202, R203): saturates, and says whether it did. A format without infinity writes
its NaN for ±∞; one without NaN gives code 0, and the caller deals with the block (R202). -/
def FpFmt.convert (f : FpFmt) : Num → Nat × Bool
  | .nan => (f.nanCode.getD 0, false)
  | .inf neg =>
    match f.infCode with
    | some c => (f.pack neg c, false)
    | none => (f.nanCode.getD 0, false)
  | .fin neg m e =>
    let c := f.roundMag m e
    if c ≤ f.maxFin then (f.pack neg c, false) else (f.pack neg f.maxFin, true)

/-! ## Exact arithmetic -/

/-- The signed mantissa of a finite number. -/
def signed (neg : Bool) (m : Nat) : Int := if neg then -(m : Int) else m

/-- Multiplication by 2^k. -/
def Num.scale (k : Int) : Num → Num
  | .fin n m e => .fin n m (e + k)
  | x => x

def Num.neg : Num → Num
  | .fin n m e => .fin (!n) m e
  | .inf n => .inf (!n)
  | .nan => .nan

def Num.abs : Num → Num
  | .fin _ m e => .fin false m e
  | .inf _ => .inf false
  | .nan => .nan

def Num.isFin : Num → Bool
  | .fin _ _ _ => true
  | _ => false

def Num.isNan : Num → Bool
  | .nan => true
  | _ => false

def Num.isZero : Num → Bool
  | .fin _ 0 _ => true
  | _ => false

def Num.isNeg : Num → Bool
  | .fin n _ _ => n
  | .inf n => n
  | .nan => false

/-- The exact sum; an exact zero is −0 only when both terms are −0 (IEEE 754, nearest-even). -/
def Num.add : Num → Num → Num
  | .nan, _ => .nan
  | _, .nan => .nan
  | .inf a, .inf b => if a = b then .inf a else .nan
  | .inf a, _ => .inf a
  | _, .inf b => .inf b
  | .fin n1 m1 e1, .fin n2 m2 e2 =>
    let e := min e1 e2
    let v := signed n1 (m1 * 2 ^ (e1 - e).toNat) + signed n2 (m2 * 2 ^ (e2 - e).toNat)
    if v = 0 then .fin (n1 && n2 && m1 == 0 && m2 == 0) 0 e else .fin (v < 0) v.natAbs e

/-- The exact product. -/
def Num.mul : Num → Num → Num
  | .nan, _ => .nan
  | _, .nan => .nan
  | .inf a, .inf b => .inf (a != b)
  | .inf a, .fin b m _ => if m = 0 then .nan else .inf (a != b)
  | .fin a m _, .inf b => if m = 0 then .nan else .inf (a != b)
  | .fin n1 m1 e1, .fin n2 m2 e2 => .fin (n1 != n2) (m1 * m2) (e1 + e2)

/-- Integer square root by bits. -/
def isqrtAux : Nat → Nat → Nat → Nat
  | 0, _, r => r
  | k + 1, n, r =>
    let t := r + 2 ^ k
    if t * t ≤ n then isqrtAux k n t else isqrtAux k n r

/-- ⌊√n⌋. -/
def isqrt (n : Nat) : Nat := isqrtAux (Nat.log2 n / 2 + 1) n 0

/-- The quotient with 140 bits and a sticky last bit, so that one later rounding is exact. -/
def Num.div : Num → Num → Num
  | .nan, _ => .nan
  | _, .nan => .nan
  | .inf _, .inf _ => .nan
  | .inf a, .fin b _ _ => .inf (a != b)
  | .fin a _ _, .inf b => .fin (a != b) 0 0
  | .fin n1 m1 e1, .fin n2 m2 e2 =>
    if m2 = 0 then (if m1 = 0 then .nan else .inf (n1 != n2))
    else if m1 = 0 then .fin (n1 != n2) 0 0
    else
      let k := 140 + Nat.log2 m2
      let a := m1 * 2 ^ k
      .fin (n1 != n2) (2 * (a / m2) + bit (a % m2 != 0)) (e1 - e2 - k - 1)

/-- The square root with more than 140 bits and a sticky last bit; √−0 is −0. -/
def Num.sqrt : Num → Num
  | .nan => .nan
  | .inf n => if n then .nan else .inf false
  | .fin n m e =>
    if m = 0 then .fin n 0 0
    else if n then .nan
    else
      let k : Nat := 280 + (if (e % 2) = 0 then 0 else 1)
      let a := m * 2 ^ k
      let r := isqrt a
      .fin false (2 * r + bit (r * r != a)) ((e - k) / 2 - 1)

/-- Exact comparison of finite numbers: `a < b` (zeros equal). -/
def Num.ltFin : Num → Num → Bool
  | .fin n1 m1 e1, .fin n2 m2 e2 =>
    let e := min e1 e2
    signed n1 (m1 * 2 ^ (e1 - e).toNat) < signed n2 (m2 * 2 ^ (e2 - e).toNat)
  | _, _ => false

/-- `a < b` with infinities; false where either is NaN. -/
def Num.lt : Num → Num → Bool
  | .nan, _ => false
  | _, .nan => false
  | .inf a, .inf b => a && !b
  | .inf a, _ => a
  | _, .inf b => !b
  | a, b => Num.ltFin a b

/-- `a = b` as numbers; false where either is NaN. -/
def Num.eqv (a b : Num) : Bool := !a.isNan && !b.isNan && !Num.lt a b && !Num.lt b a

/-- A finite number from an integer and an exponent. -/
def Num.ofInt (v : Int) (e : Int) : Num := .fin (v < 0) v.natAbs e

/-- The exact sum of a list of numbers. -/
def Num.sum (l : List Num) : Num := l.foldl Num.add (.fin false 0 0)

/-! ## FP32 words -/

def num32 (w : Word) : Num := fmtFp32.decode w.toNat

def round32 (x : Num) : Word := BitVec.ofNat 32 (fmtFp32.round x)

def nan32 : Word := 0x7FC00000#32

def finite32 (w : Word) : Bool := (num32 w).isFin

def isNan32 (w : Word) : Bool := (num32 w).isNan

def add32 (a b : Word) : Word := round32 ((num32 a).add (num32 b))

def neg32 (a : Word) : Word := a ^^^ 0x80000000#32

def abs32 (a : Word) : Word := a &&& 0x7FFFFFFF#32

def sub32 (a b : Word) : Word := round32 ((num32 a).add (num32 b).neg)

def mul32 (a b : Word) : Word := round32 ((num32 a).mul (num32 b))

/-- The value of a finite non-negative power 2^k as FP32 (R210, R213). -/
def pow2w (k : Int) : Word := round32 (.fin false 1 k)

/-! ## Pairs (R135, R136) -/

/-- Exact sum of two FP32 values (R136). -/
def twoSum (a b : Word) : Word × Word :=
  let s := add32 a b
  let bb := sub32 s a
  let t := add32 (sub32 a (sub32 s bb)) (sub32 b bb)
  if finite32 s && finite32 t then (s, t) else (s, 0)

/-- Renormalisation, valid where |a| ≥ |b| or a = 0 (R136). -/
def fastTwoSum (a b : Word) : Word × Word :=
  let s := add32 a b
  let t := sub32 b (sub32 s a)
  if finite32 s && finite32 t then (s, t) else (s, 0)

/-- The only pair addition in the device (R136). -/
def pairAdd (p q : Word × Word) : Word × Word :=
  let st := twoSum p.1 q.1
  let t := add32 st.2 (add32 p.2 q.2)
  let ve := fastTwoSum st.1 t
  if finite32 ve.1 then ve else (ve.1, 0)

/-- The real number a pair stands for (R135). -/
def pairNum (p : Word × Word) : Num := (num32 p.1).add (num32 p.2)

/-- A number as a pair: rounded to FP32, and the remainder rounded to FP32 (R137, R158). -/
def toPair (x : Num) : Word × Word :=
  let v := round32 x
  if finite32 v then (v, round32 (x.add (num32 v).neg)) else (v, 0)

/-- A pair rounded once to FP32 (R150, R185). -/
def pairWord (p : Word × Word) : Word := if finite32 p.1 then round32 (pairNum p) else p.1

/-- A pair rounded once to BF16, saturating (R131, R150, R202), and whether it saturated. -/
def pairBf16 (p : Word × Word) : Nat × Bool :=
  if finite32 p.1 then fmtBf16.convert (pairNum p) else fmtBf16.convert (num32 p.1)

/-- The word that holds a BF16 code (R166). -/
def bf16Word (c : Nat) : Word := BitVec.ofNat 32 (c * 65536)

/-! ## Decoding elements -/

/-- The E8M0 scale of a byte: 2^(S−127), or NaN (R198). -/
def scaleOf (s : Byte) : Option Int := if s = 0xFF#8 then none else some ((s.toNat : Int) - 127)

/-- An element of a format code, without block scale. -/
def elemNum (code : Nat) (bits : Nat) : Num := (fmtOfCode code).decode bits

/-- An MX element with its block scale (R200). -/
def mxNum (code bits : Nat) (scale : Byte) : Num :=
  match scaleOf scale with
  | none => .nan
  | some k => (elemNum code bits).scale k

/-! ## FP32 word from an integer and back -/

/-- Conversion of a number to a 32-bit integer, nearest-even or toward zero (R175, R176); whether it was beyond. -/
def toInt32 (rtz : Bool) : Num → Word × Bool
  | .nan => (0, false)
  | .inf neg => (if neg then 0x80000000#32 else 0x7FFFFFFF#32, true)
  | .fin neg m e =>
    let n := if rtz then rtzUnits m e 0 else rneUnits m e 0
    if neg then
      if n ≤ 2 ^ 31 then (BitVec.ofInt 32 (-(n : Int)), false) else (0x80000000#32, true)
    else if n < 2 ^ 31 then (BitVec.ofNat 32 n, false) else (0x7FFFFFFF#32, true)

def ofInt32 (w : Word) : Word := round32 (Num.ofInt w.toInt 0)

/-- The largest exponent s with m · 2^s ≤ f, for numbers m, f above zero (R212, R214). -/
def largestShift (m f : Num) : Int :=
  match m, f with
  | .fin _ mm me, .fin _ fm fe =>
    let guess := ((Nat.log2 fm : Int) + fe) - ((Nat.log2 mm : Int) + me)
    if Num.ltFin (.fin false fm fe) (.fin false mm (me + guess)) then guess - 1 else guess
  | _, _ => 0

/-- ⌈log2 x⌉ of a finite positive number (R153). -/
def ceilLog2Num : Num → Int
  | .fin _ m e => if m = 0 then -126 else (ceilLog2 m : Int) + e
  | _ => 0

end Sys2Proof
end

