-- ==== Sys2Proof/Machine/Approx.lean ====
section
/-! DEFINITION. The operations of R175 that are bounded, not correctly rounded. The exact value is computed to far
more bits than FP32 has; the device's bits are a free value that R175's bound admits. -/

namespace Sys2Proof

/-- Fractional bits of the fixed-point values below. -/
def fixBits : Nat := 260

/-- A number in fixed point, truncated below the last place. -/
def toFix : Num → Int
  | .fin n m e => if 0 ≤ e + fixBits then signed n (m * 2 ^ (e + fixBits).toNat)
    else signed n (m / 2 ^ (-(e + fixBits)).toNat)
  | _ => 0

def ofFix (v : Int) : Num := Num.ofInt v (-(fixBits : Int))

def fixMul (a b : Int) : Int := a * b / 2 ^ fixBits

/-- Σ over the next `k` odd powers of t/(2i+1), with `p` the current power and `t2` the square. -/
def atanhSeries : Nat → Nat → Int → Int → Int
  | 0, _, _, _ => 0
  | k + 1, i, p, t2 => p / (2 * i + 1) + atanhSeries k (i + 1) (fixMul p t2) t2

/-- atanh of a fixed-point t, |t| ≤ 1/3. -/
def atanhFix (t : Int) : Int := atanhSeries 90 0 t (fixMul t t)

/-- ln 2. -/
def ln2Fix : Int := 2 * atanhFix (2 ^ fixBits / 3)

/-- Σ of the next `k` terms of the exponential series, with `p` the current term. -/
def expSeries : Nat → Nat → Int → Int → Int
  | 0, _, p, _ => p
  | k + 1, i, p, r => p + expSeries k (i + 1) (fixMul p r / (i + 1)) r

/-- e^x of a fixed-point x with |x| ≤ 2^10, as an exact-looking number. -/
def expFix (x : Int) : Num :=
  let k := (2 * x + ln2Fix) / (2 * ln2Fix)
  (ofFix (expSeries 60 0 (2 ^ fixBits) (x - k * ln2Fix))).scale k

/-- ln of a positive finite number, in fixed point. -/
def lnFix : Num → Int
  | .fin _ m e =>
    let l := Nat.log2 m
    let z : Int := (m : Int) * 2 ^ fixBits / 2 ^ l
    -- z in [1, 2); above 3/2 it is halved
    let big := 2 * z > 3 * 2 ^ fixBits
    let z' := if big then z / 2 else z
    let k : Int := l + e + (if big then 1 else 0)
    2 * atanhFix ((z' - 2 ^ fixBits) * 2 ^ fixBits / (z' + 2 ^ fixBits)) + k * ln2Fix
  | _ => 0

/-- `n` ulps at the exact result `y`: the spacing of FP32 values there, subnormal spacing included (R175). -/
def ulps (n : Nat) : Num → Num
  | .fin _ m e => .fin false n (if m = 0 then -149 else fmtFp32.quantum m e)
  | _ => .fin false 0 0

/-- The device's bits where they lie within `bound` of the exact result `y`, else `y` rounded: every admitted
value, and no other, is some device's (R175). -/
def within (bits : Word) (y bound : Num) : Word :=
  let r := round32 y
  if !finite32 r then r
  else if finite32 bits && !bound.lt ((num32 bits).add y.neg).abs then bits else r

/-- e^x or 2^x of a finite x. -/
def expApprox (two : Bool) (x : Word) : Word :=
  let n := num32 x
  let big : Num := .fin false 1 10
  let y : Num :=
    if n.isZero then .fin false 1 0
    else if big.lt n.abs then (if n.isNeg then .fin false 0 0 else .fin false 1 1024)
    else if two then expFix (fixMul (toFix n) ln2Fix) else expFix (toFix n)
  within (Config.expBits two x) y (ulps 2 y)

/-- ln x or log2 x of a finite x > 0. -/
def logApprox (two : Bool) (x : Word) : Word :=
  let n := num32 x
  let l := lnFix n
  let y := ofFix (if two then l * 2 ^ fixBits / ln2Fix else l)
  let near := !n.lt (.fin false 15 (-4)) && !(Num.fin false 17 (-4)).lt n
  within (Config.logBits two x) y (if near then .fin false 1 (-24) else ulps 2 y)

/-- 1/x of a finite x ≠ 0. -/
def recipApprox (x : Word) : Word :=
  let y := (Num.fin false 1 0).div (num32 x)
  within (Config.recipBits x) y (ulps 1 y)

/-- 1/√x of a finite x > 0. -/
def rsqrtApprox (x : Word) : Word :=
  let y := (Num.fin false 1 0).div (num32 x).sqrt
  within (Config.rsqrtBits x) y (ulps 1 y)

/-- tanh x of a finite x. -/
def tanhApprox (x : Word) : Word :=
  let n := num32 x
  if n.isZero then x
  else
    let y : Num :=
      if (Num.fin false 1 6).lt n.abs then .fin n.isNeg 1 0
      else
        let a := expFix (2 * toFix n)
        (a.add (.fin true 1 0)).div (a.add (.fin false 1 0))
    within (Config.tanhBits x) y (ulps 2 y)

end Sys2Proof
end

