-- ==== Sys2Proof/Machine/Shake.lean ====
section
/-! DEFINITION. SHAKE256 and the cSHAKE256 and KMAC256 built on it, of FIPS 202 and SP 800-185: the digest of every
score, shard, base, image and log entry (02 R27, R30, 11 R321, 17 R486) and the MAC of every HBM line (17 R493). The
functions themselves are other standards'; the manual names them. The 1,600 bits stand as five planes `y`, each of
five 64-bit lanes `x`; the constants are computed from the standard's own recurrences. -/

namespace Sys2Proof

/-- The five planes of Keccak's state. -/
abbrev Planes := List (List Nat)

/-- A 64-bit lane turned `n` places towards its high end. -/
def turnLane (n lane : Nat) : Nat :=
  let s := n % 64
  (lane <<< s) % 2 ^ 64 + lane >>> (64 - s)

/-- A plane seen from lane `k` on. -/
def turnPlane (k : Nat) (p : List Nat) : List Nat := p.drop k ++ p.take k

/-- ρ's offset of lane (x, y): the walk (x, y) → (y, 2x + 3y) from (1, 0) meets it after `t` steps, and turns it by
(t + 1)(t + 2)/2. -/
def rhoSeek (x y : Nat) : Nat → Nat → Nat → Nat → Nat
  | 0, _, _, _ => 0
  | k + 1, t, u, v => if (u, v) = (x, y) then (t + 1) * (t + 2) / 2 else rhoSeek x y k (t + 1) v ((2 * u + 3 * v) % 5)

/-- The offsets of ρ, plane by plane. -/
def rhoOffsets : Planes := (List.range 5).map fun y => (List.range 5).map fun x => rhoSeek x y 24 0 1 0

/-- The register of ι's constants: one step is a multiplication by X modulo X⁸ + X⁶ + X⁵ + X⁴ + 1. -/
def iotaNext (r : Nat) : Nat := if r < 128 then 2 * r else (2 * r) ^^^ 0x171

/-- A round's constant, whose bit 2ʲ - 1 is the register's output after `j` steps, and the register after seven. -/
def iotaLane (r : Nat) : Nat × Nat :=
  (List.range 7).foldl (fun (w, q) j => (w + q % 2 * 2 ^ (2 ^ j - 1), iotaNext q)) (0, r)

/-- The constants of the rounds that follow register value `r`. -/
def iotaLanes : Nat → Nat → List Nat
  | 0, _ => []
  | k + 1, r => (iotaLane r).1 :: iotaLanes k (iotaLane r).2

/-- θ: every lane takes the parity of the column before it and of the turned column after it. -/
def theta (a : Planes) : Planes :=
  let par := a.foldl (List.zipWith (· ^^^ ·)) (List.replicate 5 0)
  let mix := List.zipWith (· ^^^ ·) (turnPlane 4 par) ((turnPlane 1 par).map (turnLane 1))
  a.map (List.zipWith (· ^^^ ·) mix)

/-- π: plane `v` takes from plane `y` its lane y + 3v, as its own lane `y`. -/
def piPlanes (a : Planes) : Planes :=
  (List.range 5).map fun v => a.mapIdx fun y p => p.getD ((y + 3 * v) % 5) 0

/-- χ within one plane. -/
def chi (p : List Nat) : List Nat :=
  List.zipWith (· ^^^ ·) p
    (List.zipWith (fun u w => (2 ^ 64 - 1 - u) &&& w) (turnPlane 1 p) (turnPlane 2 p))

/-- A round with ι's constant `c`. -/
def keccakStep (a : Planes) (c : Nat) : Planes :=
  let b := (piPlanes (List.zipWith (List.zipWith turnLane) rhoOffsets (theta a))).map chi
  b.mapIdx fun y p => if y = 0 then p.mapIdx fun x l => if x = 0 then l ^^^ c else l else p

/-- The permutation Keccak-f[1600]. -/
def permute (a : Planes) : Planes := (iotaLanes 24 1).foldl keccakStep a

/-- A block of at most 136 bytes joined to the state: lane (x, y) takes bytes 8(5y + x) on. -/
def joinBlock (a : Planes) (blk : List Byte) : Planes :=
  a.mapIdx fun y p => p.mapIdx fun x l => l ^^^ leNat ((blk.drop (40 * y + 8 * x)).take 8)

/-- The message in `n` whole blocks, each joined and permuted. -/
def soak : Nat → Planes → List Byte → Planes
  | 0, a, _ => a
  | n + 1, a, bs => soak n (permute (joinBlock a (bs.take 136))) (bs.drop 136)

/-- The message closed with the domain bits of `tag` and filled to whole blocks; the last byte carries the top bit. -/
def closeMsg (tag : Nat) (bs : List Byte) : List Byte :=
  let gap := 136 - bs.length % 136
  let tail := (List.range gap).map fun i =>
    BitVec.ofNat 8 ((if i = 0 then tag else 0) + if i + 1 = gap then 0x80 else 0)
  bs ++ tail

/-- The sponge of capacity 512 with at most 136 bytes of output. -/
def sponge (tag outLen : Nat) (bs : List Byte) : List Byte :=
  let msg := closeMsg tag bs
  let a := soak (msg.length / 136) (List.replicate 5 (List.replicate 5 0)) msg
  (((a.flatMap id).take 17).flatMap (leBytes 8)).take outLen

/-- SHAKE256. -/
def shake256 (outLen : Nat) (bs : List Byte) : List Byte := sponge 0x1F outLen bs

/-- A 64-byte digest (R27, R30). -/
def digest64 (bs : List Byte) : List Byte := shake256 64 bs

/-- A number in its fewest big-endian bytes, at least one (SP 800-185). -/
def plainBytes (n : Nat) : List Byte := beBytes (max 1 (ceilDiv (ceilLog2 (n + 1)) 8)) n

/-- A byte string with its bit length in front (SP 800-185). -/
def withLength (bs : List Byte) : List Byte :=
  let l := plainBytes (8 * bs.length)
  BitVec.ofNat 8 l.length :: (l ++ bs)

/-- A byte string filled with zeros to whole blocks, the block size in front (SP 800-185). -/
def wholeBlocks (bs : List Byte) : List Byte :=
  let b := 1#8 :: 136#8 :: bs
  b ++ List.replicate (136 * ceilDiv b.length 136 - b.length) 0#8

/-- KMAC256 with `outLen` bytes of output, at most 136, under key `k` and customisation string `cust` (R493). -/
def kmac256 (k : List Byte) (cust : String) (outLen : Nat) (bs : List Byte) : List Byte :=
  let text (s : String) := withLength (s.toList.map fun c => BitVec.ofNat 8 c.toNat)
  let n := plainBytes (8 * outLen)
  sponge 0x04 outLen
    (wholeBlocks (text "KMAC" ++ text cust) ++ wholeBlocks (withLength k) ++ bs ++ n ++ [BitVec.ofNat 8 n.length])

end Sys2Proof
end

