-- ==== Sys2Proof/Machine/State.lean ====
section
/-! DEFINITION. The state of the device: everything the manual gives the machine, as plain data, and the state right
after reset. Structures follow the chapters: cores (02, 03), runs and jobs (05, 07 to 09, 16), memory (10),
adaptations and tenants (12), requests (13), links (14), host port (15), security and log (17), start (18), power and
monitors (19), faults (20), pins (21). -/

namespace Sys2Proof.Machine

/-- Why a step stops the model: the machine stops nowhere. -/
inductive Fault
  /-- Raised by a command that names a core, slot, hand, port, partition or class the device does not have: there is
  no such step. Safe. -/
  | noSuchUnit
  deriving DecidableEq, Repr, Inhabited

/-- Why a command has no meaning. -/
inductive Refusal
  /-- Raised by no command of this model: every row has its meaning. Safe. -/
  | notModelled (mnemonic : String)
  deriving DecidableEq, Repr, Inhabited

/-! ## Cores (03, 04, 06) -/

/-- One open loop (R76): first instruction of the body, the one after it, iterations in all, the current one, and the
index register. -/
structure LoopFrame where
  start : Nat
  stop : Nat
  count : Nat
  iter : Nat
  xc : Nat
  deriving DecidableEq, Repr, Inhabited

/-- A queued descriptor (R98 to R100): its memory address with the `XO` offset, its beat and whether its run looks
ahead. -/
structure DmaItem where
  desc : Desc
  mem : Nat
  beat : Nat
  look : Bool
  deriving DecidableEq, Repr, Inhabited

/-- A `recv` that waits for its message (R92). -/
structure RecvItem where
  route : Option Nat
  row : Nat
  col : Nat
  want : Nat
  line : Nat
  len : Nat
  beat : Nat
  deriving DecidableEq, Repr, Inhabited

/-- An `mc` that waits for the stream from above (R142). -/
structure McItem where
  f : McF
  rows : List Nat
  beat : Nat
  deriving DecidableEq, Repr, Inhabited

/-- An `mm` in flight (R128): the activation lines it holds, and what enters the bank at its completion token. -/
structure MmItem where
  f : MmF
  beat : Nat
  lines : List (Nat × Nat)
  cells : Table (Word × Word)
  deriving DecidableEq, Repr, Inhabited

/-- The shadow buffer (R230): the issue's own sums and its live operands in K order, per element. -/
structure ShadowBuf where
  bar : Nat
  n : Nat
  els : List ((Word × Word) × List (Num × Num))
  deriving DecidableEq, Repr, Inhabited

/-- One lane store (R109, R110): format, block size, elements, element codes and block scales. -/
structure LaneStore where
  wfmt : Nat
  blk : Nat
  elems : Nat
  codes : List Nat
  scales : List Byte
  deriving DecidableEq, Repr, Inhabited

/-- The registers of a core (R64, R72): sequencer, index and mask registers, counters, flags, operand cache, matrix
unit and what is in flight. `bankFree` names the free contents of banks that a rest window left dead (R60); `heldA`,
`heldB` say that a bank holds products that nothing has drained (R39); `mcOut` keeps the beat and bank of each `mc` whose
stream the port below has not taken yet (05 R146). -/
structure CoreCtx where
  live : Bool := false
  pc : Nat := 0
  beat : Nat := 0
  ended : Bool := false
  waitFor : Option Nat := none
  loops : List LoopFrame := []
  x : Vector Word 32 := Vector.replicate 32 0
  m : Vector Mask 8 := Vector.replicate 8 0
  ctrs : Vector Nat 16 := Vector.replicate 16 0
  flags : Word := 0
  slots : Table (List Word) := []
  lanes : Table LaneStore := []
  lanesN : Option Nat := none
  bankA : Table (Word × Word) := []
  bankB : Table (Word × Word) := []
  shapeA : Nat := 0
  shapeB : Nat := 0
  bankFree : Option Nat := none
  heldA : Bool := false
  heldB : Bool := false
  mmNow : Option MmItem := none
  mmCount : Nat := 0
  dmas : List DmaItem := []
  recvs : List RecvItem := []
  chains : List McItem := []
  mcOut : List (Nat × Bool) := []
  sent : Table Nat := []
  shadow : Option ShadowBuf := none
  deriving DecidableEq, Repr, Inhabited

/-- A core position (R64): SRAM of both stores, inbox, chain buffer, the registers in use and the two save areas
of a rest window (R57); `rest` is the window a primary rests in. -/
structure Core where
  sram : List Host.Cell := []
  inbox : List Msg := []
  chainBuf : List ChainStream := []
  ctx : CoreCtx := {}
  savedPrimary : CoreCtx := {}
  savedGhost : CoreCtx := {}
  ghostOn : Bool := false
  rest : Option Nat := none
  pausing : Bool := false
  deriving DecidableEq, Repr, Inhabited

/-! ## Partitions, runs and jobs (02, 05, 07, 08, 09) -/

/-- Partition states (R51). -/
inductive PartState
  | free | loading | running | resting | quiescing | scrubbing | faulted
  deriving DecidableEq, Repr, Inhabited

/-- A partition (R47, R51); `fault` is the code of R52 it met. -/
structure Part where
  state : PartState := .free
  primary : Option Nat := none
  ghost : Option Nat := none
  row : Nat := 0
  col : Nat := 0
  rows : Nat := 1
  cols : Nat := 1
  owner : Nat := 0
  drops : Nat := 0
  fault : Option Nat := none
  claim : Option Nat := none
  deriving DecidableEq, Repr, Inhabited

/-- A contribution that reached a reduction (R605): the source-list entry, sending rank, beat, and either pairs or
exact integers with a flag word. -/
structure Contrib where
  entry : Nat
  rank : Nat
  beat : Nat
  pairs : List (Word × Word)
  ints : List Int
  flags : Nat
  leaf : Bool
  deriving DecidableEq, Repr, Inhabited

/-- A reduction of one bar run (R150 to R156). -/
structure RedState where
  taken : List (Nat × Nat) := []
  acc : List (Word × Word) := []
  ints : List Int := []
  flags : Nat := 0
  held : List Contrib := []
  partials : Table (List Byte) := []
  beat : Nat := 0
  delivered : Bool := false
  deriving DecidableEq, Repr, Inhabited

/-- One tensor entry's pass in a bar run (R249, R254). -/
structure EntryPass where
  next : Nat := 0
  second : Bool := false
  done : Bool := false
  nonfin : Bool := false
  parts : Partials := {}
  digest : List Byte := []
  held : Bool := false
  deriving DecidableEq, Repr, Inhabited

/-- Where a job's holding area of a tier (0 HBM, 1 LPDDR, 2 flash) keeps an entry's gradient (R255, R257): byte ranges
of the area, in order. -/
structure HeldGrad where
  entry : Nat
  tier : Nat
  spans : List (Nat × Nat)
  deriving DecidableEq, Repr, Inhabited

/-- A notice record (R453, R454). -/
structure Notice where
  code : Nat
  scope : Nat
  subject : Nat
  bar : Nat
  time : Nat
  detail : List Byte
  deriving DecidableEq, Repr, Inhabited

/-- A sampler result of a bar run (R384, R386): row, request, position, token or none when the request ends with no
candidate, end reason or 0. -/
structure Draw where
  row : Nat
  req : Nat
  position : Nat
  token : Option Nat
  reason : Nat
  deriving DecidableEq, Repr, Inhabited

/-- An admission of a request to a row (R382). -/
structure Admit where
  row : Nat
  req : Nat
  deriving DecidableEq, Repr, Inhabited

/-- What a row feeds in a bar (R375). -/
structure RowFeed where
  req : Nat
  n : Nat
  p : Nat
  sample : Bool
  stalled : Bool := false
  deriving DecidableEq, Repr, Inhabited

/-- One run of a bar (R273): its mode, its place in the phases, and everything it computed that is provisional
(R264). `closes` are close frames taken (route, rank, beat), `closeSent` the beats of those sent (R603); `pausedAt` and
`pausedNs` keep a paused ghost's time off its timer (R61); `admits`, `lates` and `kvNew` are its admissions, the requests
whose `ABAR` it found past, and the session pages that it added (13 R382, R384). -/
structure Run where
  bar : Nat
  run : Nat
  strict : Bool
  look : Bool
  opened : Nat := 0
  pausedAt : Option Nat := none
  pausedNs : Nat := 0
  partBeat : Nat := 0
  beatTime : Nat := 0
  drained0 : Bool := false
  drained1 : Bool := false
  combined : Option (List (Nat × Bool)) := none
  voted : Option Vote := none
  query : Bool := false
  replies : List Nat := []
  cause : Nat := 0
  cold : Nat := 0
  sigma : List Int := []
  q : List Int := []
  bmax : Table Nat := []
  ovf : List Nat := []
  reds : Table RedState := []
  intake : Table (List Word) := []
  intakeFlags : Table Nat := []
  passes : Table EntryPass := []
  outcomes : Table Nat := []
  digests : Table (List Byte) := []
  keeperGot : List Nat := []
  waiting : List (Nat × Nat × Nat) := []
  areas : List HeldGrad := []
  pins : List Nat := []
  etas : Table (W64 × W64) := []
  gathers : Table Version := []
  gatherSent : List Nat := []
  inputDone : Bool := false
  closes : List (Nat × Nat × Nat) := []
  closeSent : Table Nat := []
  heldMons : List (Nat × Nat) := []
  heldNotices : List Notice := []
  shadowSel : Nat := 0
  shadowMis : Nat := 0
  shadowDrop : Nat := 0
  shadowTold : Bool := false
  sats : Nat := 0
  heldEntries : Nat := 0
  feeds : Table RowFeed := []
  admits : List Admit := []
  lates : List Nat := []
  kvNew : List (Nat × Nat) := []
  draws : List Draw := []
  stalls : Nat := 0
  deriving DecidableEq, Repr, Inhabited

/-- Job states of a slot (R473). -/
inductive JobState
  | empty | loading | loaded | starting | running | awaiting | admitting | resharding | stopping | faulted | unbound
  deriving DecidableEq, Repr, Inhabited

/-- Who waits for an answer: the session, tag, class, context and opcode of an accepted command, and when it was
accepted. -/
structure Wait where
  sess : Nat
  ref : Nat
  cls : Nat
  context : Nat
  opcode : Nat
  since : Nat
  prin : List Byte := []
  deriving DecidableEq, Repr, Inhabited

/-- A pending claim (R354, R358); `ctx` is the context that it is made in, `denied` marks one whose grant is gone (R372),
`lost` one whose entry has been in training since (R359). -/
structure Claim where
  w : Wait
  aslot : Nat
  adapt : Nat
  prio : Nat
  cbar : Option Nat
  ctx : Nat := 0
  denied : Bool := false
  lost : Bool := false
  deriving DecidableEq, Repr, Inhabited

/-- A pending or applied release (R361); `eff` is bar B once applied. -/
structure Release where
  w : Option Wait
  aslot : Nat
  adapt : Nat
  cbar : Option Nat
  force : Bool := false
  eff : Option Nat := none
  deriving DecidableEq, Repr, Inhabited

/-- A stop that waits (R475). -/
structure Stop where
  w : Wait
  mode : Nat
  after : Nat
  ckpt : Bool
  deriving DecidableEq, Repr, Inhabited

/-- A checkpoint that waits for a verdict (R476). -/
structure CkptWait where
  w : Wait
  dest : Option Range
  deriving DecidableEq, Repr, Inhabited

/-- A bar input kept until its bar's verdict (R466); its command waits until it is first written. -/
structure InputWait where
  w : Option Wait
  bar : Nat
  addr : Nat
  bytes : List Byte
  written : Bool := false
  deriving DecidableEq, Repr, Inhabited

/-- A probe that runs (R366). -/
structure Probe where
  w : Wait
  adapt : Nat
  aslot : Nat
  items : Nat
  tol : Word
  ref : List Word
  setDigest : List Byte
  refDigest : List Byte
  deriving DecidableEq, Repr, Inhabited

/-- A binding of an adaptation slot (R356, R357): the adaptation that a bar reads from `since` on. -/
structure Binding where
  adapt : Option Nat
  since : Nat
  deriving DecidableEq, Repr, Inhabited

/-- An admission that runs (R337): the rank filled, whether this device is the spare, shards still to fetch and those
marked for the checkpoint, whether the job tables failed their check (order 2), and whether this device has reported. -/
structure Admission where
  w : Wait
  rank : Nat
  spare : Bool
  fetch : List Nat := []
  marked : List Nat := []
  bad : Bool := false
  told : Bool := false
  deriving DecidableEq, Repr, Inhabited

/-- A re-shard that runs (R340 to R342): the new score's slot, the new rank map, whether the permutation has begun, shards
still to fetch, whether the checkpoint is a source, whether a fetch failed, whether this device has reported, and its rank
and the members under the old layout; `fresh` says that the device is new to the job. -/
structure Reshard where
  w : Wait
  new : Nat
  map : List (Nat × Nat × List Byte) := []
  moving : Bool := false
  fetch : List Nat := []
  restore : Bool := false
  bad : Bool := false
  told : Bool := false
  fresh : Bool := false
  was : Nat := 0
  wasMembers : Table (Nat × List Byte) := []
  deriving DecidableEq, Repr, Inhabited

/-- A norm record (R256). -/
structure NormRec where
  w2 : W64 := 0
  g2 : W64 := 0
  d2 : W64 := 0
  shards : Nat := 0
  skipped : Nat := 0
  clipped : Nat := 0
  flags : Nat := 0
  deriving DecidableEq, Repr, Inhabited

/-- History state of one scaled tensor (R214, R224). -/
structure Hist where
  hist : List Word
  mark : Nat := 0
  work : List Word := []
  wmark : Nat := 0
  refill : List Word := []
  rmark : Nat := 0
  deriving DecidableEq, Repr, Inhabited

/-- A shard of the version table (R269, R321): current index and version; `look` is the index p of R301. -/
structure ShardVer where
  cur : Nat := 0
  look : Nat := 0
  ver : Version := {}
  deriving DecidableEq, Repr, Inhabited

/-- A completion of a command that took effect at a downbeat, until its release beat (R470). -/
structure HeldCpl where
  w : Wait
  status : Nat
  result : List Byte
  deriving DecidableEq, Repr, Inhabited

/-- A record of a job collective that has reached this rank and waits to be combined (14 R416): its code, the bar and run it
concerns, the rank it comes from, whether it is whole, and its bytes. -/
structure CollRec where
  code : Nat
  bar : Nat
  run : Nat
  src : Nat
  whole : Bool := true
  bytes : List Byte := []
  deriving DecidableEq, Repr, Inhabited

/-- A job (R473): start parameters, committed tables and what waits for a downbeat. `inputBar` is the newest bar of which a
run has reached its input beat (R485). `ending` is the status and the checkpoint flag of an end that waits for a hand in
reset, and `ckptHeld` says that checkpoints of the last verdict wait for one (01 R24); `shadowTold` is the last bar of which
a `SHADOW_MISMATCH` was raised (07 R231); `keeperDue` are kept shards whose copy of a strict bar is fetched once the bar has
its verdict (09 R281). -/
structure Job where
  f : StartF
  owner : Nat
  w : Wait
  rank : Nat
  epoch : Nat := 0
  members : Table (Nat × List Byte) := []
  lost : List Nat := []
  part : Option Nat := none
  restored : Nat := 0
  nextBar : Nat := 0
  cur : Option Run := none
  ahead : Option Run := none
  runs : Nat := 0
  runsNext : Nat := 0
  done : Option Nat := none
  last : Nat := 0
  lastCause : Nat := 0
  aborts : Nat := 0
  strictNext : Bool := true
  ovfRuns : Nat := 0
  hists : List Hist := []
  cold : Nat := 16
  skips : Nat := 0
  lastTensor : Option Nat := none
  lastBar : Nat := 0
  shadowSel : Nat := 0
  shadowMis : Nat := 0
  shadowDrop : Nat := 0
  shadowTimes : List Nat := []
  shadowTold : Option Nat := none
  shards : Table ShardVer := []
  keeperDue : List Nat := []
  regionCur : Table Nat := []
  norms : Table NormRec := []
  claims : List Claim := []
  releases : List Release := []
  bindings : Table (List Binding) := []
  stops : List Stop := []
  ckpts : List CkptWait := []
  inputs : List InputWait := []
  inputBar : Option Nat := none
  probes : List Probe := []
  admission : Option Admission := none
  reshard : Option Reshard := none
  keyGen : Nat := 0
  linkKey : List Byte := []
  frameCtr : Nat := 0
  coll : List CollRec := []
  oldKeys : List Nat := []
  keyAsk : Bool := false
  keyWaits : List Wait := []
  ending : Option (Nat × Bool) := none
  ckptHeld : Bool := false
  holdTold : Option Nat := none
  fault : Option Nat := none
  compare : Option Nat := none
  abortNext : Bool := false
  startWait : Bool := false
  keyed : Bool := true
  restore : Option Ckpt := none
  stalls : Nat := 0
  rowReq : Table Nat := []
  heldCpls : List HeldCpl := []
  frameDrops : Nat := 0
  frameDups : Nat := 0
  deriving DecidableEq, Repr, Inhabited

/-- A score slot (R32, R473). -/
structure Slot where
  state : JobState := .empty
  score : Option Score := none
  digest : List Byte := []
  owner : Nat := 0
  job : Option Job := none
  deriving DecidableEq, Repr, Inhabited

/-! ## Memory (10) -/

/-- What a page descriptor adds to its region (R298): the pool (0 hot cache, 1 key/value, 2 staging) and frame where
the page rests when promoted, `MOVE`, pins, `DIRTY`, `POISON`, its own key generation, last use and holds (R309, R310:
of a job in a slot, until it stands at the bar given), times of poisoning (R572). `VALID`, `LARGE`, `READONLY`, `BASE` and
`OWNER` follow from the region. The 32 descriptors of a 2 MiB mapping are one record, kept at its first page. -/
structure PageDesc where
  pool : Option Nat := none
  frame : Nat := 0
  move : Nat := 0
  pin : Nat := 0
  dirty : Bool := false
  poison : Bool := false
  kgen : Option Nat := none
  lastUse : Nat := 0
  holds : Table Nat := []
  poisonTimes : List Nat := []
  deriving DecidableEq, Repr, Inhabited

/-- A region (R293): `slot` none for a region the hub owns; `index` is its position in `PLACEMENT`; `window` marks
ranges reserved without pages (R320, R351, R374); `reserved` those of shards held elsewhere. -/
structure Region where
  base : Nat
  size : Nat
  alt : Nat := 0
  kind : Nat
  large : Bool := false
  fixed : Bool := false
  owner : Nat := 0
  shard : Option Nat := none
  slot : Option Nat := none
  index : Option Nat := none
  window : Option Nat := none
  kvRow : Option Nat := none
  reserved : Bool := false
  rowBlocks : Bool := false
  kgen : Nat := 0
  ckpt : Option Nat := none
  deriving DecidableEq, Repr, Inhabited

/-- A pool (R307). -/
structure Pool where
  base : Nat := 0
  frames : Nat := 0
  used : List Nat := []
  waits : Nat := 0
  told : Option Nat := none
  deriving DecidableEq, Repr, Inhabited

/-- The version of a page that rests in LPDDR or flash (17 R493): its major counter, the writes since that every line
had, and by line those that it had besides; a line's minor counter is the sum of the two. -/
structure PageVer where
  major : Nat := 0
  whole : Nat := 0
  lines : Table Nat := []
  deriving DecidableEq, Repr, Inhabited

/-- A promotion request (R308): class 1 to 3, page, pool (0 hot, 1 key/value, 2 staging), the holds that it brings
(R309), and whether it has been counted as a wait for a full pool (R313). -/
structure PromoReq where
  cls : Nat
  page : Nat
  pool : Nat
  holds : Table Nat := []
  waited : Bool := false
  deriving DecidableEq, Repr, Inhabited

/-- The loaded base (R303, R364): manifest, golden copies, the digests the last scrub computed, the mappings being
reloaded, the mapping whose turn it is in the scrub and when its pass began (R304). -/
structure Base where
  man : Manifest
  prev : Option Manifest := none
  lpGolden : Option Nat := none
  golden : List (List Byte) := []
  scrub : Table (List Byte) := []
  reloading : List Nat := []
  failed : List Nat := []
  scrubAt : Nat := 0
  scrubSince : Nat := 0
  deriving DecidableEq, Repr, Inhabited

/-! ## Adaptations, tenants, requests (12, 13) -/

/-- Entry states of the registry (R347). -/
inductive AdState
  | free | loading | ready | training | stale | probing | invalid | revoking
  deriving DecidableEq, Repr, Inhabited

/-- A registry entry (R347); `loadRef` is the session and tag of the registration that a loading entry belongs to. -/
structure Adapt where
  owner : Nat
  f : AdaptF
  state : AdState
  pins : Nat := 0
  bound : Nat := 0
  grantees : List Nat := []
  home : Nat := 0
  baseDigest : List Byte := []
  digest : List Byte := []
  registered : Nat := 0
  trainSlot : Option Nat := none
  revokeWaits : List Wait := []
  loadRef : Option (Nat × Nat) := none
  deriving DecidableEq, Repr, Inhabited

/-- Context states (R368). -/
inductive TenState
  | closed | opened | closing
  deriving DecidableEq, Repr, Inhabited

/-- A tenant context (R368, R371, 17 R488, 19 R554). -/
structure Tenant where
  state : TenState := .closed
  quotas : Quotas := {}
  hotPinned : Nat := 0
  lpUsed : Nat := 0
  flUsed : Nat := 0
  partUsed : Nat := 0
  refusals : Nat := 0
  keys : List (List Byte) := []
  key : List Byte := []
  keyGen : Nat := 0
  oldGen : Option Nat := none
  rotWaits : List Wait := []
  closeWaits : List Wait := []
  closeRanges : List (Nat × Nat) := []
  refQuota : Nat := 0
  refDenied : Nat := 0
  refState : Nat := 0
  refOther : Nat := 0
  deriving DecidableEq, Repr, Inhabited

/-- Request states (R378). -/
inductive ReqState
  | queued | live | ended
  deriving DecidableEq, Repr, Inhabited

/-- A request-table entry in use (R378) with its prompt (R379); `why` is an end reason whose boundary has not come,
`recs` counts records written. -/
structure Request where
  owner : Nat
  f : ReqF
  state : ReqState
  adapt : Option Nat
  pos : Nat
  pend : Nat
  why : Nat := 0
  reason : Nat := 0
  row : Option Nat := none
  abar : Option Nat := none
  sess : Nat
  prin : List Byte := []
  told : Bool := false
  tokens : List Nat := []
  deriving DecidableEq, Repr, Inhabited

/-- Session states (R380). -/
inductive SesState
  | opened | held | closing
  deriving DecidableEq, Repr, Inhabited

/-- A session entry in use (R380); `pages` are the page numbers of its key/value pages. -/
structure GenSess where
  owner : Nat
  state : SesState
  tokens : Nat := 0
  dir : Nat
  pages : List Nat := []
  maxPages : Nat
  pageBytes : Nat := 65536
  req : Option Nat := none
  last : Nat := 0
  closeWait : Option Wait := none
  deriving DecidableEq, Repr, Inhabited

/-- A 32-byte token record that waits for its release beat (R393, R394). -/
structure TokenRec where
  slot : Nat
  sess : Nat
  prin : List Byte
  req : Nat
  reason : Nat
  flags : Nat
  bar : Nat
  position : Nat
  token : Nat
  abar : Nat
  deriving DecidableEq, Repr, Inhabited

/-! ## Links (14) -/

/-- One peal class of a Grerdo port, sending side (R410): frames sent or waiting and not acknowledged, how many of
them have been read since the last rewind and how many were sent at all, their first `LSEQ`, and rewinds since the last
acknowledgement. -/
structure GlClass where
  frames : List GlFrame := []
  read : Nat := 0
  sent : Nat := 0
  lseq : Nat := 0
  tries : Nat := 0
  deriving DecidableEq, Repr, Inhabited

/-- A Grerdo port (R399 to R411, R422). -/
structure Port where
  state : Nat := 0
  lanes : Nat := 0
  peerDev : Nat := 0
  peerPort : Nat := 0
  uncorr : Nat := 0
  rewinds : Nat := 0
  downs : Nat := 0
  classes : Table GlClass := []
  rxSeq : Table Nat := []
  dataCredits : Nat := 0
  collCredits : Nat := 0
  rxData : Nat := 0
  rxColl : Nat := 0
  gen : Nat := 0
  discards : Nat := 0
  ctlOwed : List PortRec := []
  ctlSent : Nat := 0
  unused : Bool := false
  corrected : Nat := 0
  deriving DecidableEq, Repr, Inhabited

/-! ## Host port (15, 16) -/

/-- A principal session (R434 to R438): phase 1 after step 2, 2 open. -/
structure Session where
  phase : Nat
  prin : List Byte
  contexts : List Nat
  window : Nat
  credit : Nat
  used : Nat := 0
  ctrIn : Nat := 0
  ctrOut : Nat := 0
  keys : List Byte := []
  xkey : List Byte := []
  transcript : List Byte := []
  reply : List Byte := []
  control : Bool := false
  last : Nat := 0
  deriving DecidableEq, Repr, Inhabited

/-- An item of a peal queue (R443): an inbound frame with the principal it came from, or an outbound packet with its
sequence, counter and, record by record, what is kept when its session closes. -/
structure PealItem where
  sess : Nat
  ftype : Nat
  ref : Nat
  first : Bool := true
  last : Bool := true
  seq : Nat := 0
  ctr : Nat := 0
  payload : List Byte := []
  opened : Bool := false
  finalReqs : List Nat := []
  keep : List (List Byte) := []
  prin : List Byte := []
  contexts : List Nat := []
  control : Bool := false
  since : Nat := 0
  deriving DecidableEq, Repr, Inhabited

/-- One class of a peal queue (R443, R446, R452); positions count from the head. `sent` counts the items from the head on
that have been read at least once. -/
structure PealClass where
  items : List PealItem := []
  mark : Nat := 0
  read : Nat := 0
  sent : Nat := 0
  parked : Bool := false
  deriving DecidableEq, Repr, Inhabited

/-- A Mbaing queue (R443, R450, R459). -/
structure Peal where
  classes : Table PealClass := []
  levelKib : Nat := 0
  crossings : Nat := 0
  above : Bool := false
  stalled : Bool := false
  lastFill : Option Nat := none
  deriving DecidableEq, Repr, Inhabited

/-- A window read or write under way (R438): the command it serves and the bytes still to come. -/
structure WinRead where
  sess : Nat
  ref : Nat
  left : Nat
  since : Nat
  cmd : Instr
  deriving DecidableEq, Repr, Inhabited

/-- A command whose `LAST` frame has not come (R462). -/
structure Partial where
  sess : Nat
  cls : Nat
  ref : Nat
  bytes : Nat
  deriving DecidableEq, Repr, Inhabited

/-- Records kept for a closed session (R437), each with class, frame type, `REF` and bytes. `prin` is the principal
they are for; none for a notice that had no open recipient, which goes to the controlling host and, with `context`,
to principals of that context (R455); `told` are the principals that have had it. -/
structure Linger where
  prin : Option (List Byte)
  context : Option Nat := none
  told : List (List Byte) := []
  recs : List (Nat × Nat × Nat × List Byte)
  expires : Nat
  deriving DecidableEq, Repr, Inhabited

/-! ## Security, log, start, power (17 to 21) -/

/-- A change-log entry (R505). -/
structure LogEntry where
  index : Nat
  time : Nat
  kind : Nat
  origin : Nat := 1
  cause : Nat := 0
  context : Nat := 0
  opcode : Nat := 0
  prin : List Byte := []
  status : Nat := 0
  slot : Nat := 0xFF
  count : Nat := 1
  bar : Nat := 0
  prev : List Byte
  detail : List Byte := []
  deriving DecidableEq, Repr, Inhabited

/-- A verdict-run entry still open (R507). -/
structure VerdictRun where
  first : Nat
  count : Nat
  strict : Bool
  since : Nat
  deriving DecidableEq, Repr, Inhabited

/-- A run of refusals that share one entry (R484). -/
structure RefuseRun where
  prin : List Byte
  code : Nat
  opcode : Nat
  context : Nat
  detail : Nat
  since : Nat
  count : Nat
  deriving DecidableEq, Repr, Inhabited

/-- Hand modes (18, 20). -/
inductive HandMode
  | running | resetting
  deriving DecidableEq, Repr, Inhabited

/-- Fault counters of a block (R576). -/
structure Flt where
  corrected : Nat := 0
  uncorr : Nat := 0
  repairLeft : Nat := 0
  resets : Nat := 0
  lastClass : Nat := 0
  service : List Nat := []
  deriving DecidableEq, Repr, Inhabited

/-- A hand (R548, R562, R575, R262); `rowMap` gives the physical row of each logical row and `powered` the physical core
positions whose deep SRAM has power (01 R10 to R12), `bankLanes` by physical position the physical lane of each logical
lane where fuses mark any (04 R105), all as the fuses were last applied; `holdsMs` counts holds since the monitor of R551 last sampled; `changing` is the tempo that the rail is leaving, whose matched delays still count
(R540), `retuning` an ageing measurement under way, `toldMargin` and `toldMap` the last `RETUNE_MARGIN` (R561). -/
structure Hand where
  mode : HandMode := .running
  rowMap : List Nat := []
  powered : List Nat := []
  bankLanes : Table (List Nat) := []
  confirmed : Bool := false
  since : Nat := 0
  lastFault : Option Nat := none
  faultCause : Nat := 0
  stuck : Bool := false
  tempo : Nat := 0
  ceil : Nat := 7
  pace : Nat := 0
  derated : Nat := 0
  railMv : Nat := 0
  stepPs : Nat := 0
  changes : Nat := 0
  hotC : Nat := 0
  temps : Table Nat := []
  changing : Option Nat := none
  volts : List Nat := []
  margin : Nat := 0x64
  worst : Nat := 0
  worstSensor : Nat := 0
  retunes : Nat := 0
  low : Bool := false
  lastRetune : Nat := 0
  sensors : List Nat := []
  retuning : Bool := false
  toldMargin : Option Nat := none
  toldMap : Nat := 0
  holdEntries : Nat := 0
  holdEvents : Nat := 0
  holdsMs : Nat := 0
  intakeFull : Nat := 0
  intakeHeld : Bool := false
  flt : Flt := {}
  deriving DecidableEq, Repr, Inhabited

/-- Power control (R541 to R548): `wins` are the last ten windows' mean input power, `wins0` and `wins1` each hand's, in units
of 100 mW, `buds0` and `buds1` the budgets of R544; `nextCaps` are caps that wait for the end of the window. -/
structure Power where
  capW : Nat := 960
  p1 : Nat := 0
  hand0W : Nat := 0
  hand1W : Nat := 0
  inputDv : Nat := 0
  overs : Nat := 0
  nextCaps : List (Nat × Wait) := []
  hold : Nat := 0
  last : Nat := 0
  wins : List Nat := []
  wins0 : List Nat := []
  wins1 : List Nat := []
  buds0 : List Nat := []
  buds1 : List Nat := []
  deriving DecidableEq, Repr, Inhabited

/-- The hub timebase (R457, R460). -/
structure Ptp where
  now : Nat := 0
  state : Nat := 0
  offset : Int := 0
  holdFrom : Nat := 0
  syncs : Nat := 0
  stepTold : Bool := false
  slew : Int := 0
  lastSync : Nat := 0
  deriving DecidableEq, Repr, Inhabited

/-- A monitor instance (R549). -/
structure Monitor where
  min : Nat := 0xFFFFFFFF
  max : Nat := 0
  count : Nat := 0
  sum : Nat := 0
  bins : Table Nat := []
  deriving DecidableEq, Repr, Inhabited

/-- Device states (R471). -/
inductive DevState
  | starting | ready | baseLoading | held | sealing | sealed
  deriving DecidableEq, Repr, Inhabited

/-- A boot record (R523). -/
structure BootRec where
  seq : Nat := 0
  fw : Nat := 0
  cfg : Nat := 0
  fwStaged : Bool := false
  cfgStaged : Bool := false
  ok : Bool := true
  deriving DecidableEq, Repr, Inhabited

/-- The setup NOR (R522, R523). -/
structure Nor where
  setup0 : Option SetupImage := none
  setup1 : Option SetupImage := none
  fw0 : Option FwImage := none
  fw1 : Option FwImage := none
  bootA : BootRec := {}
  bootB : BootRec := {}
  deriving DecidableEq, Repr, Inhabited

/-- The fuses of one hand (01 R11, R13, 04 R105): the physical row fused out, 16 when none is, and by core position (physical
row × 32 + column) the physical lanes that are marked as failed. -/
structure HandFuses where
  spareRow : Nat := 16
  badLanes : Table (List Nat) := []
  deriving DecidableEq, Repr, Inhabited

/-- The device as a whole (R471, R472, 17, 18, 21). -/
structure Dev where
  fuses : HandFuses × HandFuses := ({}, {})
  state : DevState := .starting
  baton : Nat := 0
  batonCopies : Nat × Nat := (0, 0)
  batonValid : Bool := false
  startReason : Nat := 0
  starting : Bool := true
  stopped : Bool := false
  refusals : Nat := 0
  pwrOk : Bool := true
  resetN : Bool := true
  faultN : Bool := false
  thermN : Bool := false
  prsntN : Bool := true
  thermLatch : Bool := false
  refGl : Bool := true
  refEth : Bool := true
  sealCounter : Nat := 0
  hubRestarts : List Nat := []
  ident : Nat := 0x4100A2000C120400
  idKey : List Byte := List.replicate 57 0
  agreeKey : List Byte := List.replicate 56 0
  endorse : List Byte := List.replicate 114 0
  fwMinVersion : Nat := 0
  fusedMac : Nat := 0
  cfgOutcome : Nat := 0
  fwOutcome : Nat := 0
  sealWait : Option Wait := none
  flt : Flt := {}
  deriving DecidableEq, Repr, Inhabited

/-- A flow of one run of a bar (R412): the traffic of a rank on a route or of a collective, the frames sent and the next
`FSEQ` expected. -/
structure Flow where
  src : Nat
  slot : Nat
  cls : Nat
  bar : Nat
  run : Nat
  sent : Nat := 0
  expect : Nat := 0
  waits : List (Nat × GlFrame) := []
  deriving DecidableEq, Repr, Inhabited

/-- The whole machine: the device, and the model's own `pending` queue and `free` counter. -/
structure State where
  pending : List Instr := []
  free : Nat := 0
  dev : Dev := {}
  hands : Hand × Hand := ({}, {})
  pwr : Power := {}
  ptp : Ptp := {}
  nor : Nor := {}
  anchor : Option (List (List Byte)) := none
  setup : SetupImage := {}
  cores : Table Core := []
  parts : Table Part := []
  slots : Table Slot := []
  net : List Msg := []
  streams : List ChainStream := []
  mem : List Host.Cell := []
  pages : Table PageDesc := []
  versions : Table PageVer := []
  verRoot : List Byte := []
  regions : List Region := []
  zeroing : List (Nat × Nat) := []
  hot : Pool := {}
  kv : Pool := {}
  staging : Pool := {}
  promoQ : List PromoReq := []
  base : Option Base := none
  ckpts : List Ckpt := []
  nextCkpt : Nat := 1
  tenants : Table Tenant := []
  devKeyGen : Nat := 0
  devOldGen : Option Nat := none
  devRotWaits : List Wait := []
  registry : Table Adapt := []
  reqs : Table Request := []
  sess : Table GenSess := []
  tokens : List TokenRec := []
  ports : Table Port := []
  flows : List Flow := []
  peerPorts : List PortRec := []
  linkWait : List (Nat × GlFrame) := []
  ethState : Nat := 0
  ethDiscards : Nat := 0
  ethAuthFail : Nat := 0
  ethRewinds : Nat := 0
  assocNum : Option (Nat × Nat) := none
  inq : Peal := {}
  outq : Peal := {}
  inSeq : Table Nat := []
  outSeq : Table Nat := []
  outStall : List (Nat × PealItem) := []
  ackOwed : Nat := 0
  ackDup : Bool := false
  sessions : Table Session := []
  linger : List Linger := []
  lingerDropped : Nat := 0
  winReads : List WinRead := []
  cmdParts : List Partial := []
  accepted : List Wait := []
  replies : List (Nat × List Byte) := []
  log : List LogEntry := []
  logStaged : Nat := 0
  logUnsigned : Nat := 0
  logSince : Option Nat := none
  verdictRuns : Table VerdictRun := []
  refuseRuns : List RefuseRun := []
  mons : Table Monitor := []
  deriving DecidableEq, Repr, Inhabited

/-- The default setup image of the model's module (18 R525: every setting 0 selects its default). -/
def defaultSetup : SetupImage :=
  { setupKeys := [List.replicate 57 1], hostKeys := [List.replicate 57 2], digest := List.replicate 64 0,
    sigKey := some (List.replicate 57 1) }

/-- The machine right after reset (18 R519, R521): Starting, nothing volatile kept, every register at the value the
manual gives or the log names. -/
def State.reset : State :=
  { nor := { setup0 := some defaultSetup, fw0 := some {} }, setup := defaultSetup,
    log := [{ index := 0, time := 0, kind := 5,
              prev := digest64 ("KT4100-LOG".toList.map (fun c => BitVec.ofNat 8 c.toNat) ++
                List.replicate 57 0) }],
    inq := { levelKib := 8192 }, outq := { levelKib := 16384 },
    pwr := { capW := 960 } }

/-! ## What a core step sees -/

/-- The unit a core step runs in: partition number and record, slot number and record, score, job, run, core key and
record, registers, program. -/
structure Env where
  pid : Nat
  part : Part
  slot : Nat
  score : Score
  job : Job
  run : Run
  ghost : Bool
  win : RestWin
  row : Nat
  col : Nat
  key : Nat
  core : Core
  ctx : CoreCtx
  prog : CoreProg
  deriving DecidableEq, Repr, Inhabited

/-- How the body of a core instruction ends: done, waiting on an interlock, or a partition fault with its code
(R52). -/
inductive Act
  | ok (s : State)
  | wait
  | fault (code : Nat)
  deriving DecidableEq, Repr, Inhabited

end Sys2Proof.Machine
end

