-- ==== Sys2Proof/Machine/Ops.lean ====
section
/-! DEFINITION. The named operations over tables, memory and registers: sparse tables, byte memory in canonical form
(10 R289), core SRAM by line (03 R66 to R71), index and mask registers (R64, R75), the status codes (R483). -/

namespace Sys2Proof

/-! ## Tables -/

/-- The value at a key. -/
def Table.get {α : Type} (t : Table α) (k : Nat) : Option α :=
  (t.find? fun p => p.1 == k).map (·.2)

/-- The value at a key set; keys stay in rising order. -/
def Table.put {α : Type} : Table α → Nat → α → Table α
  | [], k, v => [(k, v)]
  | (k', v') :: r, k, v =>
    if k < k' then (k, v) :: (k', v') :: r
    else if k = k' then (k, v) :: r
    else (k', v') :: Table.put r k v

/-- A key removed. -/
def Table.del {α : Type} (t : Table α) (k : Nat) : Table α := t.filter fun p => !(p.1 == k)

/-- The value at a key, or a default. -/
def Table.getD {α : Type} (t : Table α) (k : Nat) (d : α) : α := (t.get k).getD d

/-- The value at a key changed, if there is one. -/
def Table.upd {α : Type} (t : Table α) (k : Nat) (f : α → α) : Table α :=
  match t.get k with
  | some v => t.put k (f v)
  | none => t

/-- The lowest key below a bound that the table does not hold. -/
def Table.lowestFree {α : Type} (t : Table α) (bound : Nat) : Option Nat :=
  (List.range bound).find? fun k => (t.get k).isNone

/-! ## Byte memory -/

namespace Mem

/-- The byte at an address; an unlisted byte reads 0 (18 R521: tiers are zeroed at a start; [7] for core SRAM). -/
def read (m : List Host.Cell) (a : Nat) : Byte :=
  match m.find? fun p => p.1 == a with
  | some p => p.2
  | none => 0

/-- A byte written: a zero is not listed. -/
def write : List Host.Cell → Nat → Byte → List Host.Cell
  | [], a, v => if v = 0 then [] else [(a, v)]
  | (b, w) :: r, a, v =>
    if a < b then (if v = 0 then (b, w) :: r else (a, v) :: (b, w) :: r)
    else if a = b then (if v = 0 then r else (a, v) :: r)
    else (b, w) :: write r a v

/-- `n` bytes from an address on. -/
def readN (m : List Host.Cell) (a : Nat) : Nat → List Byte
  | 0 => []
  | n + 1 => read m a :: readN m (a + 1) n

/-- Bytes written from an address on. -/
def writeN (m : List Host.Cell) (a : Nat) : List Byte → List Host.Cell
  | [] => m
  | b :: bs => writeN (write m a b) (a + 1) bs

/-- A range of bytes set to zero. -/
def clear (m : List Host.Cell) (a n : Nat) : List Host.Cell :=
  m.filter fun p => !(decide (a ≤ p.1) && decide (p.1 < a + n))

/-- A little-endian number of `n` bytes. -/
def readLe (m : List Host.Cell) (a n : Nat) : Nat := leNat (readN m a n)

/-- A little-endian number of `n` bytes written. -/
def writeLe (m : List Host.Cell) (a n v : Nat) : List Host.Cell := writeN m a (leBytes n v)

/-- The canonical form: addresses strictly rise and no byte listed is 0. -/
def wf : List Host.Cell → Bool
  | [] => true
  | [p] => p.2 != 0
  | p :: q :: r => p.2 != 0 && decide (p.1 < q.1) && wf (q :: r)

end Mem

namespace Machine

/-! ## Status codes (R483, R567) -/

def cOk : Nat := 0x00
def cCancelled : Nat := 0x01
def cNoCandidate : Nat := 0x02
def cBadCommand : Nat := 0x10
def cFieldRange : Nat := 0x11
def cBounds : Nat := 0x12
def cScoreInvalid : Nat := 0x13
def cShapeMismatch : Nat := 0x14
def cSignatureInvalid : Nat := 0x15
def cDenied : Nat := 0x20
def cStateConflict : Nat := 0x30
def cHeld : Nat := 0x31
def cSealed : Nat := 0x32
def cSlotBusy : Nat := 0x33
def cAdapterRevoked : Nat := 0x34
def cRegionBusy : Nat := 0x35
def cNoPartition : Nat := 0x36
def cQuotaExceeded : Nat := 0x40
def cTableFull : Nat := 0x41
def cRegistryFull : Nat := 0x42
def cHostTimeout : Nat := 0x50
def cEdgeFilter : Nat := 0x60
def cBeatOrphan : Nat := 0x61
def cPermRange : Nat := 0x62
def cPoisoned : Nat := 0x63
def cVersionFault : Nat := 0x64
def cNumericRunaway : Nat := 0x65
def cGhostEvicted : Nat := 0x66
def cMemoryError : Nat := 0x80
def cHandFault : Nat := 0x81
def cDataLost : Nat := 0x82

/-! ## Free values -/

/-- The next free number (the model's own counter). -/
def nextFree (s : State) : Nat × State := (s.free, { s with free := s.free + 1 })

/-- The hub timebase at a step that names its time: it never runs backward (15 R457). -/
def atTime (t : Nat) (s : State) : State := { s with ptp := { s.ptp with now := max s.ptp.now t } }

/-! ## Cores and registers -/

/-- The record of a core position. -/
def getCore (s : State) (key : Nat) : Core := s.cores.getD key {}

def modCore (key : Nat) (f : Core → Core) (s : State) : State :=
  { s with cores := s.cores.put key (f (getCore s key)) }

/-- The registers of a score on a core: in use, or in its save area (R57). -/
def ctxOf (c : Core) (ghost : Bool) : CoreCtx :=
  if c.ghostOn = ghost then c.ctx else if ghost then c.savedGhost else c.savedPrimary

def setCtx (c : Core) (ghost : Bool) (x : CoreCtx) : Core :=
  if c.ghostOn = ghost then { c with ctx := x }
  else if ghost then { c with savedGhost := x } else { c with savedPrimary := x }

def modCtx (key : Nat) (ghost : Bool) (f : CoreCtx → CoreCtx) (s : State) : State :=
  modCore key (fun c => setCtx c ghost (f (ctxOf c ghost))) s

/-- An index register; x0 reads zero (R64). -/
def xRead (c : CoreCtx) (i : Nat) : Word := if i = 0 then 0 else c.x[i]?.getD 0

/-- An index register written; a write to x0 is ignored (R64). -/
def xWrite (c : CoreCtx) (i : Nat) (w : Word) : CoreCtx :=
  if i = 0 then c else { c with x := c.x.setIfInBounds i w }

/-- A mask register; m0 reads all ones (R64). -/
def mRead (c : CoreCtx) (i : Nat) : Mask := if i = 0 then BitVec.allOnes 256 else c.m[i]?.getD 0

/-- A mask register written; m0 keeps all ones (R64). -/
def mWrite (c : CoreCtx) (i : Nat) (w : Mask) : CoreCtx :=
  if i = 0 then c else { c with m := c.m.setIfInBounds i w }

/-- Bit 0 of the predicate register, XOR the invert bit (R75). -/
def predHolds (c : CoreCtx) (k : Ctl) : Bool := (mRead c k.pm).getLsbD 0 != k.pinv

/-- Word `j` of an operand-cache slot; a word that nothing wrote is +0 (R165). -/
def slotWord (c : CoreCtx) (slot j : Nat) : Word := ((c.slots.getD slot []).getD j 0)

/-- The first words of a slot replaced where the list gives one (R167). -/
def slotWrite (c : CoreCtx) (slot : Nat) (ws : List (Option Word)) : CoreCtx :=
  let old := c.slots.getD slot []
  let new := (List.range (max old.length ws.length)).map fun j =>
    match (ws.getD j none) with
    | some w => w
    | none => old.getD j 0
  { c with slots := c.slots.put slot new }

/-! ## Core SRAM (R66, R69 to R71) -/

/-- Lines of a core's score region, rounded up to 64 KiB (R69). -/
def scoreRegionLines (p : CoreProg) : Nat :=
  let prog := p.insns.length * 8
  let rolls := ceilDiv prog 64 * 64 + p.rolls.length * 64
  let plan := ceilDiv rolls 32 * 32 + p.plan.length * 32
  ceilDiv plan 65536 * 1024

/-- A resting core of the primary's windows (R55). -/
def inRest (e : Env) : Bool :=
  !e.ghost && !e.score.rests.isEmpty &&
    decide (e.win.row0 ≤ e.row) && decide (e.row ≤ e.win.row1) &&
    decide (e.win.col0 ≤ e.col) && decide (e.col ≤ e.win.col1)

/-- Two line ranges share a line; a range of no lines shares none. -/
def overlaps (a b : Nat × Nat) : Bool :=
  decide (0 < a.2) && decide (0 < b.2) && decide (a.1 < b.1 + b.2) && decide (b.1 < a.1 + a.2)

/-- The physical line behind a score's line: a ghost's lie in its regions, above the save areas (R70). -/
def physLine (e : Env) (first : Nat) : Nat :=
  if !e.ghost then first
  else if first < 0x4000 then first + e.win.localBase / 64
  else first + (e.win.deepBase + 136 * 1024) / 64

/-- The first physical line of a range that passes R71 (and R58, R70), or none. -/
def chkLines (e : Env) (wr : Bool) (first n : Nat) : Option Nat :=
  let localTop := if e.ghost then e.win.localSize / 64 else 0x4000
  let deepTop := if e.ghost then 0x8000 + (e.win.deepSize - 136 * 1024) / 64 else 0x10000
  let region := scoreRegionLines e.prog
  let denied := inRest e &&
    (overlaps (first, n) (e.win.localBase / 64, e.win.localSize / 64) ||
     overlaps (first, n) (0x8000 + e.win.deepBase / 64, e.win.deepSize / 64))
  if n = 0 then some (physLine e first)
  else if denied then none
  else if first < 0x4000 then
    if first + n ≤ localTop && (!wr || region ≤ first) then some (physLine e first) else none
  else if first < 0x8000 then none
  else if first + n ≤ deepTop then some (physLine e first)
  else none

/-- A line address formed with an index register, exact and signed (R602). -/
def lineSum (base : Nat) (x : Word) (extra : Nat) : Option Nat :=
  let v : Int := (base : Int) + sint x + extra
  if v < 0 then none else if v < 0x10000 then some v.toNat else none

/-- Bytes of a core's SRAM from a physical line on. -/
def sramBytes (c : Core) (line off n : Nat) : List Byte := Mem.readN c.sram (line * 64 + off) n

def sramWrite (c : Core) (line off : Nat) (bs : List Byte) : Core :=
  { c with sram := Mem.writeN c.sram (line * 64 + off) bs }

/-! ## Slots, jobs, runs -/

def getSlot (s : State) (i : Nat) : Slot := s.slots.getD i {}

def modSlot (i : Nat) (f : Slot → Slot) (s : State) : State :=
  { s with slots := s.slots.put i (f (getSlot s i)) }

def getJob (s : State) (i : Nat) : Option Job := (getSlot s i).job

def modJob (i : Nat) (f : Job → Job) (s : State) : State :=
  modSlot i (fun sl => { sl with job := sl.job.map f }) s

/-- The run the cores of a job are in: the look-ahead run once it is open (R282). -/
def Job.now (j : Job) : Option Run := match j.ahead with
  | some r => some r
  | none => j.cur

/-- The newest run changed. -/
def modNow (i : Nat) (f : Run → Run) (s : State) : State :=
  modJob i (fun j => match j.ahead with
    | some r => { j with ahead := some (f r) }
    | none => { j with cur := j.cur.map f }) s

/-- The run of a bar of a job, in either place. -/
def Job.runOf (j : Job) (bar run : Nat) : Option Run :=
  match j.cur, j.ahead with
  | some r, a => if r.bar = bar && r.run = run then some r else a.filter fun q => q.bar = bar && q.run = run
  | none, a => a.filter fun q => q.bar = bar && q.run = run

/-- The run of a bar of a job changed. -/
def modRun (i bar run : Nat) (f : Run → Run) (s : State) : State :=
  let g (r : Run) := if r.bar = bar && r.run = run then f r else r
  modJob i (fun j => { j with cur := j.cur.map g, ahead := j.ahead.map g }) s

def getPart (s : State) (p : Nat) : Part := s.parts.getD p {}

def modPart (p : Nat) (f : Part → Part) (s : State) : State :=
  { s with parts := s.parts.put p (f (getPart s p)) }

def getHand (s : State) (h : Nat) : Hand := if h = 0 then s.hands.1 else s.hands.2

def modHand (h : Nat) (f : Hand → Hand) (s : State) : State :=
  { s with hands := if h = 0 then (f s.hands.1, s.hands.2) else (s.hands.1, f s.hands.2) }

/-- The hand of a global column (02 Partitions). -/
def handOfCol (col : Nat) : Nat := if col < 32 then 0 else 1

/-- A score trains when it has a `COEFFICIENTS` section (R278). -/
def scoreTrains (sc : Score) : Bool := sc.groups.isSome

/-- The physical key of a relative core of a slot's score on a partition (R31, R70). -/
def coreKey (p : Part) (ghost : Bool) (w : RestWin) (row col : Nat) : Nat :=
  let r := p.row + (if ghost then w.row0 else 0) + row
  let c := p.col + (if ghost then w.col0 else 0) + col
  r * 64 + c

/-- The rest windows' shared rectangle and regions (R55), of the primary score of a partition. -/
def partWin (s : State) (p : Part) : RestWin :=
  match p.primary.bind fun i => (getSlot s i).score with
  | some sc => sc.rests.headD ⟨0, 0, 0, 0, 0, 0, 0, 0, 0, 0, 0⟩
  | none => ⟨0, 0, 0, 0, 0, 0, 0, 0, 0, 0, 0⟩

/-- All relative positions of a score, row-major (R598). -/
def positions (sc : Score) : List (Nat × Nat) :=
  (List.range sc.rows).flatMap fun r => (List.range sc.cols).map fun c => (r, c)

/-- Physical keys of every core of a slot's score on its partition, with their relative positions. -/
def jobCores (s : State) (p : Part) (ghost : Bool) (sc : Score) : List (Nat × Nat × Nat) :=
  (positions sc).map fun rc => (coreKey p ghost (partWin s p) rc.1 rc.2, rc.1, rc.2)

/-- The partition and role (ghost or primary) of a slot, if it runs on one. -/
def slotPart (s : State) (slot : Nat) : Option (Nat × Bool) :=
  match s.parts.find? fun p => p.2.primary == some slot || p.2.ghost == some slot with
  | some p => some (p.1, p.2.ghost == some slot)
  | none => none

/-- A core's beat as the partition beat counts it: an ended core stands at `BEATS` − 1 (R84). -/
def coreBeat (beats : Nat) (c : CoreCtx) : Nat := if c.ended then beats - 1 else c.beat

/-- The partition beat of a slot (R38, R80): the lowest beat of its cores, resting cores left out. -/
def partBeatOf (s : State) (p : Part) (ghost : Bool) (sc : Score) : Nat :=
  let bs := (jobCores s p ghost sc).filterMap fun k =>
    let c := getCore s k.1
    if !ghost && c.rest.isSome then none else some (coreBeat sc.beats (ctxOf c ghost))
  match bs with
  | [] => 0
  | b :: r => r.foldl min b

/-- Every core of a slot's score has executed `end`. -/
def allEnded (s : State) (p : Part) (ghost : Bool) (sc : Score) : Bool :=
  (jobCores s p ghost sc).all fun k => (ctxOf (getCore s k.1) ghost).ended

end Machine

end Sys2Proof
end

