-- ==== Sys2Proof/Machine/Flags.lean ====
section
/-! DEFINITION. The sticky flags of the vector engine (06 R191, R192) and the flag computation of every operation of a
roll stage, a load and a store (R175, R176, R202). A result comes with the flags it sets, as a number whose bits are
R191's. -/

namespace Sys2Proof.Machine

/-! ## The flag word (R191) -/

def fPermRange : Nat := 1
def fInvalid : Nat := 2
def fDivZero : Nat := 4
def fOverflow : Nat := 8
def fSat : Nat := 16
def fNonfinIn : Nat := 32

/-- A flag where a condition holds. -/
def flagIf (b : Bool) (f : Nat) : Nat := if b then f else 0

/-- Flags joined to the sticky word: each stays set (R191). -/
def CoreCtx.raise (f : Nat) (c : CoreCtx) : CoreCtx := { c with flags := c.flags ||| BitVec.ofNat 32 f }

/-- The flags of many elements. -/
def orAll (l : List Nat) : Nat := l.foldl (· ||| ·) 0

/-! ## Results with their flags -/

/-- A NaN as the vector engine writes it (R177). -/
def canon (w : Word) : Word := if isNan32 w then nan32 else w

/-- The result of a rounded operation: `INVALID` for a NaN from operands without one, `OVERFLOW` for an infinity from
finite operands (R176). -/
def rounded (ops : List Num) (y : Num) : Word × Nat :=
  let r := round32 y
  (r, flagIf (isNan32 r && !ops.any Num.isNan) fInvalid |||
      flagIf (!finite32 r && !isNan32 r && ops.all Num.isFin) fOverflow)

/-- The FMA family (R181 opcode 0). -/
def fmaOp (sub : Nat) (x y z : Word) : Word × Nat :=
  let a := num32 x
  let b := num32 y
  let c := num32 z
  match sub with
  | 0 => rounded [a, b, c] ((a.mul b).add c)
  | 1 => rounded [a, b, c] ((a.mul b).add c.neg)
  | 2 => rounded [a, b, c] ((a.mul b).neg.add c)
  | 3 => rounded [a, b] (a.mul b)
  | 4 => rounded [a, b] (a.add b)
  | _ => rounded [a, b] (a.add b.neg)

/-- The order of minimum and maximum: −0 is below +0 (R175). -/
def belowOrd (x y : Word) : Bool :=
  let a := num32 x
  let b := num32 y
  Num.lt a b || (a.isZero && b.isZero && a.isNeg && !b.isNeg)

/-- Minimum or maximum of two words; a NaN operand gives NaN (R176). -/
def minMax (wantMax : Bool) (x y : Word) : Word :=
  if isNan32 x || isNan32 y then nan32
  else if belowOrd x y == wantMax then y else x

/-- Min/max opcode (R181 opcode 1). -/
def minMaxOp (sub : Nat) (x y : Word) : Word × Nat :=
  match sub with
  | 0 => (minMax false x y, 0)
  | 1 => (minMax true x y, 0)
  | 2 => (canon (abs32 x), 0)
  | 3 => (canon (neg32 x), 0)
  | _ => (canon x, 0)

/-- The conditions of compare-select (R181 opcode 2); a NaN operand makes all false but `ne` (R176). -/
def condHolds (sub : Nat) (x y : Word) : Bool :=
  let a := num32 x
  let b := num32 y
  match sub with
  | 0 => Num.eqv a b
  | 1 => !Num.eqv a b
  | 2 => Num.lt a b
  | 3 => Num.lt a b || Num.eqv a b
  | 4 => Num.lt b a
  | _ => Num.lt b a || Num.eqv a b

/-- A conversion to a narrow format held as FP32 (R176, R181 opcode 3, R202). -/
def narrowOp (f : FpFmt) (x : Word) : Word × Nat :=
  match num32 x with
  | .nan => (nan32, 0)
  | .inf _ => if f.infCode.isSome then (x, 0) else (nan32, fInvalid)
  | y =>
    let c := f.convert y
    (round32 (f.decode c.1), flagIf c.2 fSat)

/-- Convert opcode (R181 opcode 3). -/
def convertOp (sub : Nat) (x : Word) : Word × Nat :=
  match sub with
  | 0 => narrowOp fmtBf16 x
  | 1 => narrowOp fmtE4m3 x
  | 2 => narrowOp fmtE5m2 x
  | 3 => narrowOp fmtE3m2 x
  | 4 => narrowOp fmtE2m3 x
  | 5 => narrowOp fmtE2m1 x
  | 8 => (ofInt32 x, 0)
  | _ =>
    let r := toInt32 (sub == 7) (num32 x)
    (r.1, flagIf (isNan32 x) fInvalid ||| flagIf r.2 fSat)

/-- `OVERFLOW` of a result from a finite operand. -/
def withOverflow (r : Word) : Word × Nat := (r, flagIf (!finite32 r) fOverflow)

/-- Exponential (R181 opcode 4). -/
def expOp (two : Bool) (x : Word) : Word × Nat :=
  match num32 x with
  | .nan => (nan32, 0)
  | .inf neg => (if neg then 0 else x, 0)
  | _ => withOverflow (expApprox two x)

/-- Logarithm (R181 opcode 5). -/
def logOp (two : Bool) (x : Word) : Word × Nat :=
  match num32 x with
  | .nan => (nan32, 0)
  | .inf neg => if neg then (nan32, fInvalid) else (x, 0)
  | .fin neg m _ =>
    if m = 0 then (0xFF800000#32, fDivZero)
    else if neg then (nan32, fInvalid) else (logApprox two x, 0)

/-- Reciprocal (R181 opcode 6). -/
def recipOp (x : Word) : Word × Nat :=
  match num32 x with
  | .nan => (nan32, 0)
  | .inf neg => (if neg then 0x80000000#32 else 0, 0)
  | .fin neg m _ =>
    if m = 0 then (if neg then 0xFF800000#32 else 0x7F800000#32, fDivZero) else withOverflow (recipApprox x)

/-- Reciprocal square root (R181 opcode 7). -/
def rsqrtOp (x : Word) : Word × Nat :=
  match num32 x with
  | .nan => (nan32, 0)
  | .inf neg => if neg then (nan32, fInvalid) else (0, 0)
  | .fin neg m _ =>
    if m = 0 then (if neg then 0xFF800000#32 else 0x7F800000#32, fDivZero)
    else if neg then (nan32, fInvalid) else (rsqrtApprox x, 0)

/-- Hyperbolic tangent (R181 opcode 8). -/
def tanhOp (x : Word) : Word × Nat :=
  match num32 x with
  | .nan => (nan32, 0)
  | .inf neg => (if neg then 0xBF800000#32 else 0x3F800000#32, 0)
  | _ => (tanhApprox x, 0)

/-! ## Partial reduce (R184, R185) -/

/-- One addition of the tree with its flags: a NaN from operands without one, an infinity from finite ones. -/
def nodeFlags (p q r : Word × Word) : Nat :=
  flagIf (isNan32 r.1 && !isNan32 p.1 && !isNan32 q.1) fInvalid |||
    flagIf (!finite32 r.1 && finite32 p.1 && finite32 q.1) fOverflow

/-- One level of the tree over adjacent results. -/
def pairLevel (first : Bool) : List ((Word × Word) × Nat) → List ((Word × Word) × Nat)
  | (p, a) :: (q, b) :: r =>
    let s := if first then twoSum p.1 q.1 else pairAdd p q
    (s, a ||| b ||| nodeFlags p q s) :: pairLevel first r
  | l => l

/-- The levels of the tree above the first. -/
def pairTree : Nat → List ((Word × Word) × Nat) → List ((Word × Word) × Nat)
  | 0, l => l
  | n + 1, l => pairTree n (pairLevel false l)

/-- The sum of a group of 2^`grp` words, rounded once to FP32 (R185). -/
def groupSum (grp : Nat) (l : List Word) : Word × Nat :=
  match pairTree (grp - 1) (pairLevel true (l.map fun w => ((w, 0), 0))) with
  | (p, f) :: _ =>
    let r := pairWord p
    (canon r, f ||| flagIf (finite32 p.1 && !finite32 r) fOverflow)
  | [] => (0, 0)

/-- The largest or smallest element of a group. -/
def groupExt (wantMax : Bool) (l : List Word) : Word :=
  l.foldl (minMax wantMax) (if wantMax then 0xFF800000#32 else 0x7F800000#32)

/-- A partial reduce over the live elements; dead elements give the identity (R184). -/
def reduceOp (sub grp : Nat) (live : List Bool) (xs : List Word) : List (Word × Nat) :=
  let g := 2 ^ grp
  let ident : Word := match sub with
    | 0 => 0
    | 1 => 0xFF800000#32
    | _ => 0x7F800000#32
  let at_ (j : Nat) : Word := if live.getD j false then xs.getD j ident else ident
  let groups := (List.range (ceilDiv xs.length g)).map fun i =>
    let els := (List.range g).map fun k => at_ (i * g + k)
    if sub = 0 then groupSum grp els else (groupExt (sub == 1) els, 0)
  (List.range xs.length).map fun j => groups.getD (j / g) (0, 0)

/-! ## Stores to narrow formats (R202, R212) -/

/-- One word converted to a format with a power-of-two scale, and its flags (R202, R171). -/
def storeElem (f : FpFmt) (scale : Int) (w : Word) : Nat × Nat :=
  match num32 w with
  | .inf n =>
    let c := f.convert (.inf n)
    (c.1, flagIf f.infCode.isNone fInvalid)
  | y =>
    let c := f.convert (y.scale scale)
    (c.1, flagIf c.2 fSat)

/-- `NONFIN_IN` of a word read from a slot. -/
def nonfinIn (w : Word) : Nat := flagIf (!finite32 w) fNonfinIn

end Sys2Proof.Machine
end

