-- ==== Sys2Proof/Machine/Peal.lean ====
section
/-! DEFINITION. Peal queues (15 R443 to R452), packets (R444), notices (R453 to R455, 20 R566) and the records that
leave by the host port (R464, 13 R393). -/

namespace Sys2Proof.Machine

/-! ## Settings in force (18 R525): 0 selects the default -/

def jumbo (s : State) : Bool := s.setup.settings.jumbo

/-- The largest payload of a frame (R431). -/
def maxPayload (s : State) : Nat := if jumbo s then 8192 else 1376

def orDefault (v d : Nat) : Nat := if v = 0 then d else v

/-- The linger time in nanoseconds (R437). -/
def lingerNs (s : State) : Nat := orDefault s.setup.settings.lingerS 300 * 1000000000

/-! ## Classes and queues -/

def Peal.cls (q : Peal) (c : Nat) : PealClass := q.classes.getD c {}

def Peal.setCls (q : Peal) (c : Nat) (p : PealClass) : Peal := { q with classes := q.classes.put c p }

/-- The bytes of an item: a frame's header, payload and tag (R428). -/
def PealItem.size (i : PealItem) : Nat := 48 + i.payload.length

/-- Bytes from head to tail of one class. -/
def PealClass.fill (c : PealClass) : Nat := sumNat (c.items.map PealItem.size)

/-- Bytes from head to tail over all classes (R450). -/
def Peal.fill (q : Peal) : Nat := sumNat (q.classes.map fun p => p.2.fill)

/-- An item of the class can be read (R445). -/
def PealClass.ready (c : PealClass) : Bool :=
  !c.parked && match c.items[c.read]? with
    | some i => !i.opened
    | none => false

/-- The highest class with a ready item (R445). -/
def Peal.highest (q : Peal) : Option Nat := [7, 6, 5, 4, 3, 2, 1, 0].find? fun c => (q.cls c).ready

/-- Mark: the mark moves to the read position (R446). -/
def PealClass.doMark (c : PealClass) : PealClass := { c with mark := c.read }

/-- Rewind: the read position moves to the mark (R446). -/
def PealClass.rewind (c : PealClass) : PealClass := { c with read := c.mark }

/-- The engine sends the item at the read position, at a time (R441, R445). -/
def PealClass.sendNext (now : Nat) (c : PealClass) : PealClass :=
  { c with items := c.items.modify c.read (fun i => { i with since := now }), read := c.read + 1, sent := max c.sent (c.read + 1) }

/-- Release of the first `n` items, as far as they have been read or sent (R447). -/
def PealClass.release (c : PealClass) (n : Nat) : PealClass :=
  { c with items := c.items.drop n, mark := c.mark - n, read := c.read - n, sent := c.sent - n }

/-- Space for an item: `cap` bytes, of which 256 KiB are for class 7 (R443). -/
def Peal.hasSpace (q : Peal) (cap c size : Nat) : Bool :=
  decide (q.fill + size ≤ (if c = 7 then cap else cap - 262144))

/-- The fill level watched after a change of fill (R450): `above`, crossings, and whether a notice is due. -/
def Peal.watch (q : Peal) (now before : Nat) : Peal × Bool :=
  let level := q.levelKib * 1024
  let f := q.fill
  if before ≤ level && level < f then
    let due := match q.lastFill with
      | none => true
      | some t => decide (t + 100000 ≤ now)
    ({ q with above := true, crossings := satAt 0xFFFF (q.crossings + 1),
              lastFill := if due then some now else q.lastFill }, due)
  else if f ≤ level then ({ q with above := false }, false)
  else ({ q with above := true }, false)

/-! ## Outbound packets (R444) -/

def outCap : Nat := 16 * 1024 * 1024
def inCap : Nat := 8 * 1024 * 1024

/-- Closing fills `LEN`, `SEQ` and `CTR` (R444, R439, R430). -/
def closeItem (c : Nat) (i : PealItem) (s : State) : PealItem × State :=
  let seq := s.outSeq.getD c 0
  let ctr := ((s.sessions.get i.sess).map (·.ctrOut)).getD 0
  ({ i with opened := false, seq := seq, ctr := ctr },
   { s with outSeq := s.outSeq.put c ((seq + 1) % 2 ^ 32),
            sessions := s.sessions.upd i.sess fun x => { x with ctrOut := x.ctrOut + 1 } })

/-- The open packet of a class closed, if there is one. -/
def closeOpen (c : Nat) (s : State) : State :=
  let k := s.outq.cls c
  match k.items.getLast? with
  | some i =>
    if i.opened then
      let r := closeItem c i s
      { r.2 with outq := r.2.outq.setCls c { k with items := k.items.dropLast ++ [r.1] } }
    else s
  | none => s

/-- An item joins the tail of an outbound class, or its writer stalls for space (R444, R448). -/
def outAppend0 (c : Nat) (i : PealItem) (s : State) : State :=
  let s := closeOpen c s
  if s.outStall.any (fun p => p.1 == c) || !s.outq.hasSpace outCap c i.size then
    { s with outStall := s.outStall ++ [(c, i)] }
  else
    let r := if i.opened then (i, s) else closeItem c i s
    let k := r.2.outq.cls c
    { r.2 with outq := r.2.outq.setCls c { k with items := k.items ++ [r.1] } }

/-- A record appended to the class's open packet of the same session, type and tag, or to a new one that stays open;
a packet that is full closes (R444, R453). -/
def outRecord0 (c sess ftype ref : Nat) (rec : List Byte) (reqs : List Nat) (s : State) : State :=
  let fresh : PealItem := { sess, ftype, ref, payload := rec, opened := true, keep := [rec], finalReqs := reqs,
                            since := s.ptp.now }
  let k := s.outq.cls c
  match k.items.getLast? with
  | some i =>
    if i.opened && i.sess == sess && i.ftype == ftype && i.ref == ref &&
        decide (i.payload.length + rec.length ≤ maxPayload s) then
      let i' := { i with payload := i.payload ++ rec, keep := i.keep ++ [rec], finalReqs := i.finalReqs ++ reqs }
      let s := { s with outq := s.outq.setCls c { k with items := k.items.dropLast ++ [i'] } }
      if maxPayload s < i'.payload.length + rec.length then closeOpen c s else s
    else outAppend0 c fresh s
  | none => outAppend0 c fresh s

/-! ## Notices -/

/-- The class of a notice code (R454, R566). -/
def noticeClass (code : Nat) : Nat :=
  if code = 1 || code = 2 || code = 0x82 || code = 0x84 then 7 else 6

/-- The 64 bytes of a notice (R453). -/
def Notice.bytes (n : Notice) : List Byte :=
  leBytes 2 n.code ++ leBytes 1 n.scope ++ leBytes 1 0 ++ leBytes 2 n.subject ++ leBytes 2 0 ++
    leBytes 8 n.bar ++ leBytes 8 n.time ++ (n.detail ++ List.replicate 40 0).take 40

/-- The tenant context a notice's subject belongs to, for scopes 1, 2 and 4 (R455). -/
def noticeOwner (s : State) (n : Notice) : Option Nat :=
  if n.scope = 1 then some (getSlot s n.subject).owner
  else if n.scope = 2 then some (getPart s n.subject).owner
  else if n.scope = 4 then some n.subject
  else none

/-- The open sessions a notice goes to (R455). -/
def noticeSessions (s : State) (owner : Option Nat) : List Nat :=
  (s.sessions.filter fun p => p.2.phase == 2 &&
    (p.2.control || match owner with
      | some c => p.2.contexts.contains c
      | none => false)).map (·.1)

/-- A notice joins the `NOTICE` packet of each recipient, or is kept (R453, R455); `put` is the writer it goes by. -/
def noticeBy (put : Nat → Nat → Nat → Nat → List Byte → List Nat → State → State) (n : Notice) (s : State) : State :=
  let owner := noticeOwner s n
  match noticeSessions s owner with
  | [] => { s with linger := s.linger ++
      [{ prin := none, context := owner, recs := [(noticeClass n.code, 5, 0, n.bytes)],
         expires := s.ptp.now + lingerNs s }] }
  | l => l.foldl (fun s i => put (noticeClass n.code) i 5 0 n.bytes [] s) s

/-! ## Fill levels (R450) -/

/-- The `QUEUE_FILL` notice of a queue, 0 inbound and 1 outbound. -/
def fillNotice (q : Nat) (s : State) : State :=
  noticeBy outRecord0 ⟨0x10, 0, 0, 0, s.ptp.now, leBytes 1 q⟩ s

/-- The fill of the outbound queue is watched after a write, and `QUEUE_FILL` raised when due. -/
def watchOut (before : Nat) (s : State) : State :=
  let q := s.outq.watch s.ptp.now before
  let s := { s with outq := q.1 }
  if q.2 then fillNotice 1 s else s

/-- The fill of the inbound queue is watched after a write. -/
def watchIn (before : Nat) (s : State) : State :=
  let q := s.inq.watch s.ptp.now before
  let s := { s with inq := q.1 }
  if q.2 then fillNotice 0 s else s

/-- An item joins an outbound class (R444). -/
def outAppend (c : Nat) (i : PealItem) (s : State) : State := watchOut s.outq.fill (outAppend0 c i s)

/-- A record joins an outbound class (R444). -/
def outRecord (c sess ftype ref : Nat) (rec : List Byte) (reqs : List Nat) (s : State) : State :=
  watchOut s.outq.fill (outRecord0 c sess ftype ref rec reqs s)

/-- Writers that stalled go on while there is space (R448). -/
def outDrain : Nat → State → State
  | 0, s => s
  | n + 1, s =>
    match s.outStall with
    | [] => s
    | (c, i) :: r =>
      if s.outq.hasSpace outCap c i.size then outDrain n (outAppend c i { s with outStall := r }) else s

/-- A notice leaves (R453, R455). -/
def raiseNotice (n : Notice) (s : State) : State := noticeBy outRecord n s

/-- A notice of now. -/
def notice (code scope subject bar : Nat) (detail : List Byte) (s : State) : State :=
  raiseNotice ⟨code, scope, subject, bar, s.ptp.now, detail⟩ s

/-! ## Completion records (R464) -/

/-- The 16-byte header and result of a completion. -/
def cplBytes (opcode status kind detail : Nat) (result : List Byte) : List Byte :=
  leBytes 2 opcode ++ leBytes 1 status ++ leBytes 1 kind ++ leBytes 4 result.length ++ leBytes 8 detail ++ result

/-- A completion record leaves in a `CPL` frame of its own that echoes the tag (R464); for a closed session it is
kept (R437). -/
def sendCpl (sess cls ref opcode status kind detail : Nat) (prin result : List Byte) (s : State) : State :=
  let rec_ := cplBytes opcode status kind detail result
  match s.sessions.get sess with
  | some x =>
    if x.phase = 2 && x.prin = prin then
      outAppend cls { sess, ftype := 4, ref, payload := rec_, keep := [rec_] } s
    else { s with linger := s.linger ++
      [{ prin := some prin, recs := [(cls, 4, ref, rec_)], expires := s.ptp.now + lingerNs s }] }
  | none => { s with linger := s.linger ++
      [{ prin := some prin, recs := [(cls, 4, ref, rec_)], expires := s.ptp.now + lingerNs s }] }

end Sys2Proof.Machine
end

