-- ==== Sys2Proof/Machine/Log.lean ====
section
/-! DEFINITION. The change log (17 R505 to R509), monitors (19 R549 to R553), fault counters and their notices
(20 R565, R576, R577). -/

namespace Sys2Proof.Machine

/-! ## Change log -/

/-- First bytes of the digest of a principal's key (R505 `PRINCIPAL`). -/
def prinTag (key : List Byte) : List Byte := if key.isEmpty then [] else shake256 8 key

/-- A byte string cut or zero-filled to a length. -/
def fitTo (n : Nat) (bs : List Byte) : List Byte := (bs ++ List.replicate n 0).take n

/-- The 256 bytes of an entry (R505). -/
def LogEntry.bytes (e : LogEntry) : List Byte :=
  leBytes 8 e.index ++ leBytes 8 e.time ++ leBytes 2 e.kind ++ leBytes 1 e.origin ++ leBytes 1 e.cause ++
    leBytes 2 e.context ++ leBytes 2 e.opcode ++ fitTo 8 e.prin ++ leBytes 1 e.status ++ leBytes 1 e.slot ++
    leBytes 2 e.count ++ leBytes 4 0 ++ leBytes 8 e.bar ++ fitTo 64 e.prev ++ fitTo 144 e.detail

/-- The chain value of an entry (R505). -/
def LogEntry.chain (e : LogEntry) : List Byte := digest64 e.bytes

/-- The number of the next entry. -/
def logNext (s : State) : Nat := match s.log.getLast? with
  | some e => e.index + 1
  | none => 0

/-- Entries of a 1 GiB segment and of the whole area (R505, R509). -/
def logSegment : Nat := 4194304
def logArea : Nat := 1073741824

/-- An entry as it stands is appended: it enters the staging region (R508); its `PREV` is the chain value before. -/
def logPush (e : LogEntry) (s : State) : State :=
  let prev := match s.log.getLast? with
    | some p => p.chain
    | none => []
  { s with log := s.log ++ [{ e with index := logNext s, time := s.ptp.now, prev := prev }],
           logStaged := s.logStaged + 1,
           logUnsigned := if e.kind = 4 then 0 else s.logUnsigned + 1,
           logSince := if e.kind = 4 then none else s.logSince <|> some s.ptp.now }

/-- When the area is full its oldest segment goes, and a truncation entry follows (R509). -/
def logTruncate (s : State) : State :=
  if logArea ≤ s.log.length then
    let kept := s.log.drop logSegment
    let d := match kept.head? with
      | some e => leBytes 8 e.index ++ e.chain
      | none => []
    logPush { index := 0, time := 0, kind := 8, prev := [], detail := d } { s with log := kept }
  else s

/-- An entry appended (R505). -/
def logAdd (e : LogEntry) (s : State) : State := logPush e (logTruncate s)

/-- A change that a command made (R484, R506 kind 1). -/
def logChange (w : Wait) (slot bar : Nat) (detail : List Byte) (s : State) : State :=
  logAdd { index := 0, time := 0, kind := 1, origin := 0, context := w.context, opcode := w.opcode,
           prin := prinTag w.prin, slot, bar, prev := [], detail } s

/-- An internal event with its cause (R506 kind 6). -/
def logInternal (cause status slot context bar : Nat) (detail : List Byte) (s : State) : State :=
  logAdd { index := 0, time := 0, kind := 6, origin := 1, cause, context, status, slot, bar, prev := [], detail } s

/-- A signature entry (R508): its Ed448 signature is made by the security core, whose key the model leaves out. -/
def logSign (s : State) : State :=
  let r := nextFree s
  logAdd { index := 0, time := 0, kind := 4, prev := [], detail := Config.freeBytes r.1 114 } r.2

/-- A digest of tenant-private content as the log holds it: SHAKE256(digest ‖ r), 32 bytes, then r (R507). -/
def saltedDigest (d : List Byte) (s : State) : List Byte × State :=
  let f := nextFree s
  let r := Config.freeBytes f.1 16
  (shake256 32 (d ++ r) ++ r, f.2)

/-- The entry of a run of refusals (R484, R506 kind 2). -/
def refusalEntry (r : RefuseRun) : LogEntry :=
  { index := 0, time := 0, kind := 2, origin := 0, context := r.context, opcode := r.opcode, prin := prinTag r.prin,
    status := r.code, count := satAt 0xFFFF r.count, prev := [], detail := leBytes 8 r.detail }

/-- Refusals of one principal with one code within a second share an entry, written when the second is over
(R484). -/
def logRefusals (s : State) : State :=
  let due := s.refuseRuns.filter fun r => decide (r.since + 1000000000 ≤ s.ptp.now)
  let s := { s with refuseRuns := s.refuseRuns.filter fun r => !decide (r.since + 1000000000 ≤ s.ptp.now) }
  due.foldl (fun s r => logAdd (refusalEntry r) s) s

/-- A refusal joins its run or starts one (R484). -/
def logRefuse (prin : List Byte) (opcode context code detail : Nat) (s : State) : State :=
  let s := logRefusals s
  if s.refuseRuns.any fun r => r.prin == prin && r.code == code then
    { s with refuseRuns := s.refuseRuns.map fun r =>
        if r.prin == prin && r.code == code then { r with count := r.count + 1 } else r }
  else { s with refuseRuns := s.refuseRuns ++ [⟨prin, code, opcode, context, detail, s.ptp.now, 1⟩] }

/-- The verdict-run entry of a slot closes (R507). -/
def logCloseRun (slot : Nat) (s : State) : State :=
  match s.verdictRuns.get slot with
  | some v =>
    let sl := getSlot s slot
    logAdd { index := 0, time := 0, kind := 3, context := sl.owner, slot, count := v.count, bar := v.first, prev := [],
             detail := leBytes 8 (v.first + v.count - 1) ++ leBytes 1 1 ++ leBytes 1 (bit v.strict) ++ leBytes 1 0 ++
               leBytes 3 0 ++ leBytes 2 0xFFFF ++ sl.digest.take 16 }
      { s with verdictRuns := s.verdictRuns.del slot }
  | none => s

/-- A verdict of a bar is logged (R507): commits of one mode share an entry of at most 1,024 bars and one second;
every other verdict has its own. -/
def logVerdict (slot bar verdict : Nat) (strict : Bool) (cause tensor : Nat) (s : State) : State :=
  if verdict = 1 && cause = 0 then
    let s := match s.verdictRuns.get slot with
      | some v => if v.strict = strict && v.count < 1024 && v.first + v.count = bar &&
          decide (s.ptp.now < v.since + 1000000000) then s else logCloseRun slot s
      | none => s
    match s.verdictRuns.get slot with
    | some v => { s with verdictRuns := s.verdictRuns.put slot { v with count := v.count + 1 } }
    | none => { s with verdictRuns := s.verdictRuns.put slot ⟨bar, 1, strict, s.ptp.now⟩ }
  else
    let s := logCloseRun slot s
    let sl := getSlot s slot
    logAdd { index := 0, time := 0, kind := 3, cause := if verdict = 4 then 3 else 0, context := sl.owner, slot, bar,
             prev := [],
             detail := leBytes 8 bar ++ leBytes 1 verdict ++ leBytes 1 (bit strict) ++ leBytes 1 cause ++
               leBytes 3 0 ++ leBytes 2 tensor ++ sl.digest.take 16 } s

/-! ## Monitors -/

/-- The kind of a monitor instance, 0 for a reserved one (R551); block 0 and 1 hands, 2 hub. -/
def monKind (block inst : Nat) : Nat :=
  if block < 2 then
    if inst < 64 then (if block = 0 then 2 else 13)
    else if inst < 128 then (if block = 0 then 3 else 13)
    else if inst < 160 then 1
    else if inst < 176 then 7
    else if inst = 176 then 8
    else if inst = 177 then 10
    else if inst < 184 then 5
    else if inst < 193 then 4
    else if inst < 202 then 13
    else if inst = 202 then 12
    else if inst = 203 then 13
    else if 224 ≤ inst && inst < 256 then 11
    else 0
  else if block = 2 then [10, 9, 7, 5, 6, 15, 16, 14, 17, 17].getD inst 0
  else 0

/-- `BASE` of a kind (R550). -/
def monBase (kind : Nat) : Nat :=
  [0, 200000, 1, 1, 16, 32, 1, 16, 256, 2048, 64, 64, 0, 1, 16, 1, 1, 1].getD kind 0

/-- Bins per octave of a kind, 0 for a linear one (R550). -/
def monQ (kind : Nat) : Nat := [0, 8, 2, 2, 4, 8, 4, 8, 32, 32, 8, 4, 0, 2, 0, 2, 2, 4].getD kind 0

/-- The bin of a sample (R549): x lies at or above the i-th threshold when x^Q ≥ `BASE`^Q · 2^i. -/
def monBin (kind x : Nat) : Nat :=
  let b := monBase kind
  let q := monQ kind
  if q = 0 then min 63 (x - b)
  else if x < b then 0
  else min 63 (1 + ((List.range 63).filter fun i => decide (b ^ q * 2 ^ (i + 1) ≤ x ^ q)).length)

/-- One sample taken (R549). -/
def Monitor.sample (kind x : Nat) (m : Monitor) : Monitor :=
  let x := satAt 0xFFFFFFFF x
  let b := monBin kind x
  { min := Nat.min m.min x, max := Nat.max m.max x, count := satAt 0xFFFFFFFFFFFFFFFF (m.count + 1),
    sum := satAt 0xFFFFFFFFFFFFFFFF (m.sum + x),
    bins := m.bins.put b (satAt 0xFFFFFFFF (m.bins.getD b 0 + 1)) }

/-- A sample entered in an instance; a reserved one takes none (R551). -/
def monSample (block inst x : Nat) (s : State) : State :=
  let k := monKind block inst
  if k = 0 then s
  else { s with mons := s.mons.put (block * 256 + inst) ((s.mons.getD (block * 256 + inst) {}).sample k x) }

/-- The four monitors of a partition clear when it is allocated (R552). -/
def monClearPart (p : Nat) (s : State) : State :=
  { s with mons := (((s.mons.del p).del (64 + p)).del (256 + p)).del (256 + 64 + p) }

/-! ## Fault counters (R564, R565, R576) -/

def modFlt (block : Nat) (f : Flt → Flt) (s : State) : State :=
  if block < 2 then modHand block (fun h => { h with flt := f h.flt }) s
  else { s with dev := { s.dev with flt := f s.dev.flt } }

/-- A fault of a class adds to the counters of its block: class 1 is counted only (R565). -/
def fltCount (block cls : Nat) (s : State) : State :=
  modFlt block (fun f =>
    if cls = 1 then { f with corrected := satAt 0xFFFF (f.corrected + 1), lastClass := 1 }
    else { f with uncorr := satAt 0xFFF (f.uncorr + 1), lastClass := cls }) s

/-- A cause of `SERVICE_DUE` holds; it raises the notice once per start (R577). -/
def serviceDue (block cause detail : Nat) (s : State) : State :=
  let told := s.hands.1.flt.service ++ s.hands.2.flt.service ++ s.dev.flt.service
  let s' := modFlt block (fun f => { f with service := if f.service.contains cause then f.service
    else f.service ++ [cause] }) s
  if told.contains cause then s'
  else notice 0x85 0 0 0 (leBytes 1 cause ++ leBytes 1 block ++ leBytes 2 detail) s'

/-- The notice `MEM_ERROR` (R566): store code, class, address or core. -/
def memError (store cls place : Nat) (s : State) : State :=
  notice 0x80 0 0 0 (leBytes 1 store ++ leBytes 1 cls ++ leBytes 6 0 ++ leBytes 8 place) s

end Sys2Proof.Machine
end

