-- ==== Sys2Proof/Machine/Mem.lean ====
section
/-! DEFINITION. Device addresses, regions, access checks, buffer pairs, windows and pages (10 R289 to R302, R308 to
R313, 12 R352, 13 R374 to R376), and the poisoning of a page (20 R570). -/

namespace Sys2Proof.Machine

/-! ## Addresses (R289, R290) -/

def tierOf (a : Nat) : Nat := a / 2 ^ 52
def offsetOf (a : Nat) : Nat := a % 2 ^ 52

def tierLimit : Nat → Nat
  | 0 => 0x400000
  | 1 => 0x9000000000
  | 2 => 0xE000000000
  | 3 => 0x60000000000
  | _ => 0

def pageBytes : Nat := 65536

/-- The number of a page: tier and offset in 64 KiB units (R468). -/
def pageNo (a : Nat) : Nat := tierOf a * 2 ^ 28 + offsetOf a / pageBytes

/-- The device address of a page. -/
def pageAddr (n : Nat) : Nat := n / 2 ^ 28 * 2 ^ 52 + n % 2 ^ 28 * pageBytes

/-- Pages that a byte range touches: the first and how many. -/
def pageSpan (a len : Nat) : List Nat :=
  if len = 0 then []
  else (List.range (offsetOf (a + len - 1) / pageBytes - offsetOf a / pageBytes + 1)).map (pageNo a + ·)

/-- The stack's hand of a tier-1 address; the hub has the other tiers (R292, R576). -/
def pageBlock (n : Nat) : Nat :=
  if n / 2 ^ 28 = 1 then (if pageAddr n % 2 ^ 52 < 0x4800000000 then 0 else 1) else 2

/-! ## Regions -/

/-- Regions that the device holds at most (R295). -/
def maxRegions : Nat := 262144

/-- The end of a region's range: both buffers and the gap of kinds 1 and 2 (R295). -/
def Region.stop (r : Region) : Nat := r.base + (if r.alt = 0 then r.size else r.alt + r.size)

def Region.holds (r : Region) (a len : Nat) : Bool := decide (r.base ≤ a) && decide (a + len ≤ r.stop)

def Region.meets (r : Region) (a stop : Nat) : Bool := decide (r.base < stop) && decide (a < r.stop)

/-- The region that a whole range lies in (R299 check 3); a range reserved without pages holds nothing (R320). -/
def regionAt (s : State) (a len : Nat) : Option Region :=
  s.regions.find? fun r => r.holds a len && !r.reserved

/-- The adaptation a slot's window shows to a bar (R357): the newest binding in force at it. -/
def boundAt (j : Job) (aslot bar : Nat) : Option Nat :=
  ((j.bindings.getD aslot []).filter fun b => decide (b.since ≤ bar)).getLast?.bind (·.adapt)

/-- Registry binds a region to the job (R299 check 4, R353). -/
def boundRegion (s : State) (j : Job) (bar : Nat) (r : Region) : Bool :=
  j.bindings.any fun p => match boundAt j p.1 bar with
    | some id => match s.registry.get id with
      | some ad => ad.home == r.base
      | none => false
    | none => false

/-- Some tensor entry of the score belongs to the shard, so the update engine updates it (R253, R263). -/
def engineShard (sc : Score) (shard : Nat) : Bool := sc.entries.any fun e => e.shard == shard

/-- The checks of R299 for a core's access in a bar of a slot's job: the region, or none where a check fails. -/
def coreAccess (s : State) (slot bar : Nat) (wr : Bool) (a len : Nat) : Option Region :=
  match getJob s slot, (getSlot s slot).score with
  | some j, some sc =>
    let t := tierOf a
    if t = 0 || 3 < t || tierLimit t < offsetOf a + len then none
    else match regionAt s a len with
      | none => none
      | some r =>
        let mine := (r.owner == j.owner && r.slot == some slot) || r.kind == 4 || boundRegion s j bar r
        let kindOk := r.kind != 3 && r.kind != 5
        let wrOk := !wr || (r.kind != 4 && r.window.isNone && !r.rowBlocks &&
          !(r.kind == 2 && match r.shard with
            | some sh => engineShard sc sh
            | none => false))
        let bufOk := !(r.kind == 1 || r.kind == 2) || decide (a + len ≤ r.base + r.size)
        if mine && kindOk && wrOk && bufOk then some r else none
  | _, _ => none

/-- The buffer a core's access to a kind-1 or kind-2 region takes in a run (R301). -/
def bufferOf (j : Job) (r : Region) (look wr : Bool) : Nat :=
  let c := if r.kind = 2 then ((r.shard.bind fun sh => j.shards.get sh).map (·.cur)).getD 0
    else j.regionCur.getD (r.index.getD 0) 0
  if wr then 1 - c
  else if look then
    (if r.kind = 2 then ((r.shard.bind fun sh => j.shards.get sh).map (·.look)).getD 0 else 1 - c)
  else c

/-- Where a byte of a core's access lies (R301): buffer 0 at its address, buffer 1 `ALT` further on. -/
def resolveAddr (j : Job) (r : Region) (look wr : Bool) (a : Nat) : Nat :=
  if r.kind = 1 || r.kind = 2 then a + bufferOf j r look wr * r.alt else a

/-- Where the checkpoint store begins: the top of tier 3, of the size that the setup image gives (R476). -/
def ckptStore (s : State) : Nat × Nat :=
  let g := s.setup.settings.ckptGib
  let size := (if g = 0xFFFF then 0 else orDefault g 512) * 2 ^ 30
  (3 * 2 ^ 52 + tierLimit 3 - size, size)

/-- A range keeps clear of the checkpoint store. -/
def outsideStore (s : State) (a size : Nat) : Bool :=
  let st := ckptStore s
  decide (st.2 = 0) || decide (a + size ≤ st.1) || decide (st.1 + st.2 ≤ a)

/-! ## Windows -/

/-- Byte `x` of a slot window in a bar (R352). -/
def windowByte (s : State) (j : Job) (aslot bar x : Nat) : Byte :=
  match (boundAt j aslot bar).bind fun id => s.registry.get id with
  | none => 0
  | some ad =>
    if x < 64 then
      ((leBytes 4 0x3F800000 ++ leBytes 4 ad.f.alpha.toNat ++ leBytes 4 ad.f.rank ++ leBytes 4 ad.f.kind).getD x 0)
    else if x < 64 + ad.f.bytes then Mem.read s.mem (ad.home + (x - 64)) else 0

/-- The device address behind a byte of a row's key/value window, if its session has that page (R376). -/
def kvAddr (s : State) (run : Run) (row x : Nat) : Option Nat :=
  match (run.feeds.get row).bind fun f => s.reqs.get f.req with
  | none => none
  | some q => match s.sess.get q.f.session with
    | none => none
    | some g => match g.pages[x / g.pageBytes]? with
      | some p => some (p + x % g.pageBytes)
      | none => none

/-- The byte ranges behind a range of a row's key/value window, page by page; pages that its session lacks give none. -/
def kvRanges (s : State) (run : Run) (row x len : Nat) : List (Nat × Nat) :=
  match ((run.feeds.get row).bind fun f => s.reqs.get f.req).bind fun q => s.sess.get q.f.session with
  | none => []
  | some g =>
    let k0 := x / g.pageBytes
    if len = 0 then []
    else (List.range ((x + len - 1) / g.pageBytes - k0 + 1)).filterMap fun i =>
      let lo := max x ((k0 + i) * g.pageBytes)
      let hi := min (x + len) ((k0 + i + 1) * g.pageBytes)
      (g.pages[k0 + i]?).map fun p => (p + (lo - (k0 + i) * g.pageBytes), hi - lo)

/-- A byte that a core of a slot reads in a run (R301, R352, R376). -/
def readCoreByte (s : State) (j : Job) (run : Run) (r : Region) (a : Nat) : Byte :=
  match r.window, r.kvRow with
  | some w, _ => windowByte s j w run.bar (a - r.base)
  | none, some row => match kvAddr s run row (a - r.base) with
    | some p => Mem.read s.mem p
    | none => 0
  | none, none => Mem.read s.mem (resolveAddr j r run.look false a)

/-- Bytes that a core of a slot writes in a run; a row's window beyond its session discards them (R376). -/
def writeCoreByte (s : State) (j : Job) (run : Run) (r : Region) (a : Nat) (v : Byte) (m : List Host.Cell) :
    List Host.Cell :=
  match r.kvRow with
  | some row => match kvAddr s run row (a - r.base) with
    | some p => Mem.write m p v
    | none => m
  | none => Mem.write m (resolveAddr j r run.look true a) v

/-! ## Pages -/

/-- The region of a page. -/
def pageRegion (s : State) (n : Nat) : Option Region := regionAt s (pageAddr n) 1

/-- The page at which a page's descriptor is kept: the first of its 2 MiB mapping, or itself (R298). -/
def pageUnit (s : State) (n : Nat) : Nat :=
  match pageRegion s n with
  | some r => if r.large then n / 32 * 32 else n
  | none => n

/-- The pages that move as one with a page: 32 in a 2 MiB mapping (R298). -/
def pageGroup (s : State) (n : Nat) : List Nat :=
  match pageRegion s n with
  | some r => if r.large then (List.range 32).map (n / 32 * 32 + ·) else [n]
  | none => [n]

/-- The descriptors behind a list of pages, each once. -/
def pageUnits (s : State) (l : List Nat) : List Nat := (l.map (pageUnit s)).eraseDups

def getPage (s : State) (n : Nat) : PageDesc := s.pages.getD (pageUnit s n) {}

def modPage (n : Nat) (f : PageDesc → PageDesc) (s : State) : State :=
  { s with pages := s.pages.put (pageUnit s n) (f (getPage s n)) }

/-- Every descriptor behind a list of pages is changed once. -/
def modPages (l : List Nat) (f : PageDesc → PageDesc) (s : State) : State :=
  (pageUnits s l).foldl (fun s n => modPage n f s) s

/-- A pin holds the page where it rests: a move away is cancelled (R258, R311, R360). -/
def PageDesc.pinned (d : PageDesc) : PageDesc := { d with pin := d.pin + 1, move := if d.move = 2 then 0 else d.move }

/-- The byte ranges that an access of a core really reaches: the resolved ones (R301, R376), and of a slot window those
behind its contents, not its header or the zeros after them (R352). -/
def touchedRanges (s : State) (j : Job) (run : Run) (r : Region) (wr : Bool) (a len : Nat) : List (Nat × Nat) :=
  match r.window, r.kvRow with
  | some w, _ => match (boundAt j w run.bar).bind fun id => s.registry.get id with
    | some ad =>
      let x := max (a - r.base) 64
      let stop := min (a - r.base + len) (64 + ad.f.bytes)
      [(ad.home + (x - 64), stop - x)]
    | none => []
  | none, some row => kvRanges s run row (a - r.base) len
  | none, none => [(resolveAddr j r run.look wr a, len)]

/-- The pages that an access of a core really touches. -/
def touchedPages (s : State) (j : Job) (run : Run) (r : Region) (wr : Bool) (a len : Nat) : List Nat :=
  (touchedRanges s j run r wr a len).flatMap fun p => pageSpan p.1 p.2

/-- A use of pages now; a write to a promoted page makes it dirty and cancels its demotion (R310, R311). -/
def usePages (wr : Bool) (l : List Nat) (s : State) : State :=
  let l := pageUnits s l
  { s with pages := s.pages.map fun p =>
      if l.contains p.1 then (p.1, { p.2 with
        lastUse := s.ptp.now, dirty := p.2.dirty || (wr && p.2.pool.isSome),
        move := if wr && p.2.move = 2 then 0 else p.2.move }) else p }

/-- A page of a session that a request holds is pinned while it is resident (13 R381). -/
def inHeldSession (s : State) (n : Nat) : Bool := s.sess.any fun p =>
  p.2.state == .held && p.2.pages.any fun a => decide (pageNo a ≤ n) && decide (n < pageNo a + p.2.pageBytes / pageBytes)

/-- `PIN` (R298): an adaptation, a pass or a row pins the page, or a held session whose page is resident. -/
def isPinned (s : State) (n : Nat) : Bool :=
  (getPage s n).pin != 0 || ((getPage s n).pool.isSome && (pageGroup s n).any (inHeldSession s))

/-- Every hold of R309 has expired: the job of its slot stands at the bar given or later. -/
def holdsOver (s : State) (t : Table Nat) : Bool := t.all fun h => match getJob s h.1 with
  | some j => decide (h.2 ≤ j.nextBar)
  | none => true

/-- Of two sets of holds, each slot's longer one. -/
def joinHolds (a b : Table Nat) : Table Nat := b.foldl (fun t h => t.put h.1 (max h.2 (t.getD h.1 0))) a

/-- A page of an alternate buffer is never demoted (09 R267). -/
def inAlternate (s : State) (n : Nat) : Bool :=
  match pageRegion s n with
  | none => false
  | some r => match r.slot.bind (getJob s) with
    | none => false
    | some j =>
      let a := r.base + bufferOf j r false true * r.alt
      (r.kind == 1 || r.kind == 2) &&
        (pageGroup s n).any fun p => decide (a < pageAddr p + pageBytes) && decide (pageAddr p < a + r.size)

/-- A promoted page may leave its pool: no pin, no hold, no alternate buffer (R310). -/
def mayLeave (s : State) (n : Nat) : Bool :=
  !isPinned s n && holdsOver s (getPage s n).holds && !inAlternate s n

/-- A demoted or discarded copy gives up its frames (R310). -/
def freeFrame (n : Nat) (s : State) : State :=
  let d := getPage s n
  let l := pageGroup s n
  let drop (p : Pool) : Pool :=
    { p with used := p.used.filter fun f => !(decide (d.frame ≤ f) && decide (f < d.frame + l.length)) }
  let s := match d.pool with
    | some 0 => { s with hot := drop s.hot }
    | some 1 => { s with kv := drop s.kv }
    | some _ => { s with staging := drop s.staging }
    | none => s
  modPage n (fun d => { d with pool := none, frame := 0, dirty := false, move := 0 }) s

/-- Bytes of a base mapping (R303). -/
def mappingBytes : Nat := 2097152

/-- The address of a base mapping: mappings count in extent order (17 R499). -/
def mappingAddr : List (Nat × Nat) → Nat → Option Nat
  | [], _ => none
  | (a, n) :: l, i => if i < n then some (a + i * mappingBytes) else mappingAddr l (i - n)

/-- The base mapping that holds a byte. -/
def mappingOf : List (Nat × Nat) → Nat → Option Nat
  | [], _ => none
  | (a, n) :: l, x => if a ≤ x && x < a + n * mappingBytes then some ((x - a) / mappingBytes)
    else (mappingOf l x).map (n + ·)

/-- A base mapping is poisoned and begins to reload (R305). -/
def poisonMapping (m : Nat) (s : State) : State :=
  match s.base with
  | none => s
  | some b => match mappingAddr b.man.extents m with
    | none => s
    | some a =>
      let s := modPage (pageNo a) (fun d => { d with poison := true, move := 3 }) s
      { s with base := some { b with reloading := b.reloading.filter (· != m) ++ [m], failed := b.failed.filter (· != m) } }

/-- What the second poisoning of a frame within 30 days does (20 R572). -/
def repairFrame (n : Nat) (s : State) : State :=
  let b := pageBlock n
  let left := (if b < 2 then (getHand s b).flt else s.dev.flt).repairLeft - 1
  let s := modFlt b (fun f => { f with repairLeft := left }) s
  let s := notice 0x81 0 0 0 (leBytes 8 (pageAddr n) ++ leBytes 1 3) s
  if left = 0 then serviceDue b 1 0 s else s

/-- A page is poisoned (20 R570): counters, `MEM_ERROR` with its store code, the log; a base mapping begins to reload
(R305), and the frame's second poisoning within 30 days repairs it (R572). -/
def poisonPage (n : Nat) (s : State) : State :=
  let t := n / 2 ^ 28
  let s := fltCount (pageBlock n) 3 s
  let s := memError (t + 4) 3 (pageAddr n) s
  let s := logInternal 3 0 0xFF 0 0 (leBytes 8 (pageAddr n)) s
  let d := getPage s n
  let recent := d.poisonTimes.filter fun x => decide (s.ptp.now < x + 30 * 86400000000000)
  let s := modPage n (fun d => { d with poison := true, poisonTimes := recent ++ [s.ptp.now] }) s
  let s := match s.base.bind fun b => mappingOf b.man.extents (pageAddr n) with
    | some m => poisonMapping m s
    | none => s
  if recent.isEmpty then s else repairFrame n s

/-- Pages now poisoned of a block (R576). -/
def poisonedCount (s : State) (block : Nat) : Nat :=
  sumNat ((s.pages.filter fun p => p.2.poison && pageBlock p.1 == block).map fun p => (pageGroup s p.1).length)

/-- A page is being zeroed (R297). -/
def isZeroing (s : State) (n : Nat) : Bool := s.zeroing.any fun z => decide (z.1 ≤ n) && decide (n < z.1 + z.2)

/-- Pages of a range join the zeroing list. -/
def zeroRange (a stop : Nat) (s : State) : State :=
  { s with zeroing := s.zeroing ++ [(pageNo a, ceilDiv (stop - a) pageBytes)] }

/-- One page leaves the zeroing list. -/
def zeroedPage (n : Nat) (z : List (Nat × Nat)) : List (Nat × Nat) :=
  z.flatMap fun r =>
    if r.1 ≤ n && n < r.1 + r.2 then
      (if r.1 < n then [(r.1, n - r.1)] else []) ++ (if n + 1 < r.1 + r.2 then [(n + 1, r.1 + r.2 - n - 1)] else [])
    else [r]

/-- Descriptors of a region that has gone: its moves end, its promoted copies are discarded, and what a mapping's one
descriptor says of poison each of its pages says now (R297, R311). -/
def dropDescs (r : Region) (s : State) : State :=
  let inside (n : Nat) : Bool := decide (r.base ≤ pageAddr n) && decide (pageAddr n < r.stop)
  let mine := (s.pages.filter fun p => inside p.1).map (·.1)
  let s := { s with promoQ := s.promoQ.filter fun q => !inside q.page }
  let s := mine.foldl (fun s n => modPage n (fun d => { d with pin := 0, move := 0, holds := [] }) (freeFrame n s)) s
  if !r.large then s
  else { s with pages := s.pages.foldl (fun (t : Table PageDesc) p =>
      if inside p.1 then (List.range 32).foldl (fun t i => t.put (p.1 / 32 * 32 + i) p.2) t else t.put p.1 p.2) [] }

/-- A region is released (R297): promoted copies are discarded, its pages join zeroing, and the release is logged. -/
def releaseRegion (r : Region) (s : State) : State :=
  let gone (s : State) : State := { s with regions := s.regions.filter (· != r) }
  if r.reserved || r.window.isSome || r.kvRow.isSome then gone s
  else
    let s := zeroRange r.base r.stop (gone (dropDescs r s))
    logInternal 0 0 (r.slot.getD 0xFF) r.owner 0 (leBytes 8 r.base ++ leBytes 8 r.size) s

/-- The regions of a slot's job are released (R297); its plan holds no page any more. -/
def releaseJobRegions (slot : Nat) (s : State) : State :=
  let s := { s with pages := s.pages.map fun (p : Nat × PageDesc) => (p.1, { p.2 with holds := p.2.holds.del slot }),
                    promoQ := s.promoQ.map fun (q : PromoReq) => { q with holds := q.holds.del slot } }
  (s.regions.filter fun (r : Region) => r.slot == some slot).foldl (fun s r => releaseRegion r s) s

/-! ## Pools and promotion -/

def getPool (s : State) : Nat → Pool
  | 0 => s.hot
  | 1 => s.kv
  | _ => s.staging

def setPool (s : State) (i : Nat) (p : Pool) : State :=
  if i = 0 then { s with hot := p } else if i = 1 then { s with kv := p } else { s with staging := p }

/-- The lowest free frame of a pool, or of `n` aligned ones that lie together for a 2 MiB mapping. -/
def freeFramesOf (n : Nat) (p : Pool) : Option Nat :=
  ((List.range (p.used.length + 1)).map (n * ·)).find? fun f =>
    decide (f + n ≤ p.frames) && !p.used.any fun u => decide (f ≤ u) && decide (u < f + n)

def freeFrameOf (p : Pool) : Option Nat := freeFramesOf 1 p

/-- A page lies in a region that is never promoted: every access reaches its home (R293 `FLAGS` bit 1). -/
def staysHome (s : State) (n : Nat) : Bool := match pageRegion s n with
  | some r => r.fixed
  | none => false

/-- A promotion is asked for (R308): a page that rests in the pool, or in a faster one, keeps its place and takes the
holds; one asked for before takes the better class, as a request that arises now, and both holds (R309). A request
cancels a demotion (R311). A range without pages (R320) and a region that is never promoted (R293) take none. -/
def askPromotion (q : PromoReq) (s : State) : State :=
  let u := pageUnit s q.page
  let d := getPage s q.page
  let still (s : State) : State := modPage u (fun d => { d with move := if d.move = 2 then 0 else d.move }) s
  if (pageRegion s q.page).isNone || staysHome s q.page then s
  else if d.pool == some q.pool || (q.pool == 2 && d.pool.isSome) then
    still (modPage u (fun d => { d with holds := joinHolds d.holds q.holds }) s)
  else match s.promoQ.find? fun p => p.page == u && p.pool == q.pool with
    | some p =>
      let h := joinHolds p.holds q.holds
      if q.cls < p.cls then still { s with promoQ := s.promoQ.erase p ++ [{ q with page := u, holds := h }] }
      else still { s with promoQ := s.promoQ.map fun x => if x = p then { x with holds := h } else x }
    | none => modPage u (fun d => { d with move := 1 }) { s with promoQ := s.promoQ ++ [{ q with page := u }] }

/-- The request that is served next into a pool: class first, then order of arrival (R308). -/
def nextPromotion (s : State) (pool : Nat) : Option PromoReq :=
  ([1, 2, 3].filterMap fun c => s.promoQ.find? fun q => q.cls == c && q.pool == pool).head?

/-- A page rests in HBM: a tier-1 home, or a promoted copy in the hot cache or the key/value pool (R234). -/
def inHbm (s : State) (n : Nat) : Bool :=
  n / 2 ^ 28 == 1 || match (getPage s n).pool with
    | some 2 => false
    | some _ => true
    | none => false

/-- The update engine reaches a page at once: it rests in HBM, or its region is never promoted (08 R257, R293). -/
def inReach (s : State) (n : Nat) : Bool := inHbm s n || staysHome s n

/-- The place of a page is in a stack of a hand that is in reset. -/
def placeAsleep (s : State) (n : Nat) : Bool :=
  decide (pageBlock n < 2) && (getHand s (pageBlock n)).mode == .resetting

/-- A page rests in a stack of a hand that is in reset: every access to it waits (01 R24, 20 R575). -/
def asleep (s : State) (n : Nat) : Bool :=
  placeAsleep s (match (getPage s n).pool with
    | some i => pageNo (getPool s i).base + (getPage s n).frame
    | none => n)

end Sys2Proof.Machine
end

