-- ==== Sys2Proof/Machine/Contain.lean ====
section
/-! DEFINITION. Completions of accepted commands (16 R464, R465, R484), the discarding of runs and the abort of a bar
(09 R272, R283, R286), partition faults and their containment (02 R52, R63, 20 R573), freeing a partition. -/

namespace Sys2Proof.Machine

/-! ## Completions -/

/-- The command that an inbound item belongs to has been read whole and has completed (15 R452). -/
def itemDone (s : State) (k : PealClass) (i : PealItem) : Bool :=
  ((k.items.take k.read).any fun j => j.sess == i.sess && j.ref == i.ref && j.last) &&
    !s.accepted.any fun a => a.sess == i.sess && a.ref == i.ref

/-- The bytes that a session's items no longer hold. -/
def giveCredit (gone : List PealItem) (t : Table Session) : Table Session :=
  t.map fun p =>
    let n := sumNat ((gone.filter fun i => i.sess == p.1 && i.prin == p.2.prin).map PealItem.size)
    (p.1, { p.2 with used := p.2.used - n })

/-- Items of completed commands at the head of each inbound class are released (15 R447, R452). -/
def settleInq (s : State) : State :=
  (List.range 8).foldl (fun s c =>
    let k := s.inq.cls c
    let gone := (k.items.take k.read).takeWhile (itemDone s k)
    if gone.isEmpty then s
    else { s with inq := ((s.inq.setCls c (k.release gone.length)).watch s.ptp.now s.inq.fill).1,
                  sessions := giveCredit gone s.sessions }) s

/-- The final completion of an accepted command (R465): it leaves the list of R469, and its latency is sampled
(R550). -/
def complete (w : Wait) (status detail : Nat) (result : List Byte) (s : State) : State :=
  let s := { s with accepted := s.accepted.filter fun a => !(a.sess == w.sess && a.ref == w.ref) }
  let s := settleInq (monSample 2 6 ((s.ptp.now - w.since) / 1000) s)
  sendCpl w.sess w.cls w.ref w.opcode status 0 detail w.prin result s

def noDetail : Nat := 0xFFFFFFFFFFFFFFFF

/-- The hub's refusal counters of a context (19 R554 `MON.REFUSE`). -/
def Tenant.countRefusal (code : Nat) (t : Tenant) : Tenant :=
  let t := if code = cQuotaExceeded then
      { t with refQuota := satAt 0xFFFF (t.refQuota + 1), refusals := satAt 0xFFF (t.refusals + 1) } else t
  if code = cQuotaExceeded then t
  else if code = cDenied then { t with refDenied := satAt 0xFFFF (t.refDenied + 1) }
  else if 0x30 ≤ code && code ≤ 0x36 then { t with refState := satAt 0xFFFF (t.refState + 1) }
  else { t with refOther := satAt 0xFFFF (t.refOther + 1) }

/-- What a refusal counts: the device's and the context's counters, the monitor and the log entry (R484). -/
def countRefuse (w : Wait) (code detail : Nat) (s : State) : State :=
  let s := { s with dev := { s.dev with refusals := satAt 0xFFFF (s.dev.refusals + 1) } }
  let s := { s with tenants := s.tenants.put w.context ((s.tenants.getD w.context {}).countRefusal code) }
  let s := monSample 2 7 code s
  logRefuse w.prin w.opcode w.context code detail s

/-- A refusal: the completion with its code (R484). -/
def refuse (w : Wait) (code detail : Nat) (s : State) : State :=
  complete w code detail [] (countRefuse w code detail s)

/-- A code of 16 R481, with which a command is refused (R483, R484). -/
def refusalCode (status : Nat) : Bool := decide (0x10 ≤ status) && decide (status < 0x50)

/-- An accepted command completes later without a result; with a code of R481 it is a refusal, counted and logged (R484). -/
def endWith (w : Wait) (status : Nat) (s : State) : State :=
  if refusalCode status then refuse w status noDetail s else complete w status noDetail [] s

/-- A completion of `JOB.START` that is not final (R465): started, bar or evicted. -/
def sendEarly (w : Wait) (status kind : Nat) (result : List Byte) (s : State) : State :=
  sendCpl w.sess w.cls w.ref w.opcode status kind 0 w.prin result s

/-! ## Runs discarded -/

/-- Every core of a slot stops: what it holds in flight is discarded (R52, R283). -/
def stopCores (slot : Nat) (s : State) : State :=
  match slotPart s slot, (getSlot s slot).score with
  | some (p, ghost), some sc =>
    (jobCores s (getPart s p) ghost sc).foldl (fun s k =>
      modCtx k.1 ghost (fun c => { c with live := false, waitFor := none, mmNow := none, dmas := [], recvs := [],
                                          chains := [], mcOut := [], shadow := none }) s) s
  | _, _ => s

def getPort (s : State) (p : Nat) : Port := s.ports.getD p {}

def modPort (p : Nat) (f : Port → Port) (s : State) : State := { s with ports := s.ports.put p (f (getPort s p)) }

/-- Credit units of a job frame: headers, ciphertext, tag and CRC in 256-byte units (R405 to R407, R411). -/
def frameUnits (f : GlFrame) : Nat := ceilDiv (8 + 32 + f.payload.length + 16 + 4) 256

/-- A frame left a port's buffer: its units go back to the peer with the next control frame (14 R411). -/
def returnUnits (coll : Bool) (l : List (Nat × Nat)) (s : State) : State :=
  l.foldl (fun s h => modPort h.1 (fun p =>
    if coll then { p with rxColl := p.rxColl + h.2 } else { p with rxData := p.rxData + h.2 }) s) s

/-- Traffic of a slot in the fabric, inboxes and chain buffers is discarded (R52, R283). -/
def dropTraffic (slot : Nat) (keep : Nat × Nat → Bool) (s : State) : State :=
  let gone (sl bar run : Nat) := sl == slot && !keep (bar, run)
  let s := returnUnits false ((s.net.filter fun m => gone m.slot m.bar m.run).flatMap (·.held)) s
  { s with net := s.net.filter fun m => !gone m.slot m.bar m.run,
           streams := s.streams.filter fun m => !gone m.slot m.bar m.run,
           cores := s.cores.map fun p => (p.1, { p.2 with
             inbox := p.2.inbox.filter (fun m => !gone m.slot m.bar m.run),
             chainBuf := p.2.chainBuf.filter fun m => !gone m.slot m.bar m.run }) }

def modTenant (c : Nat) (f : Tenant → Tenant) (s : State) : State :=
  { s with tenants := s.tenants.put c (f (s.tenants.getD c {})) }

/-- A session that a request held is open again (R380, R381). -/
def letSession (req : Nat) (s : State) : State :=
  { s with sess := s.sess.map fun p => if p.2.req == some req then
      (p.1, { p.2 with req := none, state := if p.2.state = .held then .opened else p.2.state }) else p }

/-- Requests that a discarded run admitted return to the queue, those whose `ABAR` it found past wait again, and the session pages
that it added are released (09 R272, 13 R382, R384 order 6, R479). -/
def unadmit (r : Run) (slot : Nat) (s : State) : State :=
  let s := r.admits.foldl (fun s a =>
    let s := letSession a.req { s with reqs := s.reqs.upd a.req fun q =>
      if q.state = .live then { q with state := .queued, row := none, abar := none } else q }
    modJob slot (fun j => { j with rowReq := j.rowReq.del a.row }) s) s
  let s := { s with reqs := s.reqs.map fun p => if r.lates.contains p.1 && p.2.why = 7 then (p.1, { p.2 with why := 0 }) else p }
  r.kvNew.foldl (fun s p => match s.sess.get p.1, s.regions.find? fun q => q.base == p.2 with
    | some g, some q =>
      let s := modTenant g.owner (fun t => { t with lpUsed := t.lpUsed - g.pageBytes }) (releaseRegion q s)
      { s with sess := s.sess.put p.1 { g with pages := g.pages.filter (· != p.2) } }
    | _, _ => s) s

/-- Pins that an open bar holds for its passes or rows are let go (R258, R377). -/
def unpinPages (pins : List Nat) (s : State) : State :=
  { s with pages := s.pages.map fun p => (p.1, { p.2 with pin := p.2.pin - (pins.filter (· == p.1)).length }) }

/-- Frames that leave their port buffers undelivered give their units back, each to its class's pool (14 R411). -/
def returnFrames (l : List (Nat × GlFrame)) (s : State) : State :=
  returnUnits true ((l.filter fun f => f.2.cls == 6).map fun f => (f.1, frameUnits f.2))
    (returnUnits false ((l.filter fun f => f.2.cls != 6).map fun f => (f.1, frameUnits f.2)) s)

/-- Frames of a run of a bar that have not left the ports, wait for delivery or stand in flow state are discarded, and
records of its collectives with them (14 R417). DEDUCED: a frame that has been sent stays until it is acknowledged, since its
class's `LSEQ` series goes on (14 R410), and collective frames stay, since they carry the verdict itself. -/
def dropFrames (slot bar run : Nat) (s : State) : State :=
  match getJob s slot with
  | none => s
  | some j =>
    let mine (f : GlFrame) := f.ftype != 1 && f.job == j.f.job && f.dst != f.src && f.bar == bar && f.run == run % 256
    let ours (f : Flow) := f.slot == slot && f.bar == bar && f.run == run % 256
    let gone := (s.linkWait.filter fun f => mine f.2) ++ (s.flows.filter ours).flatMap (·.waits)
    let s := modJob slot (fun j => { j with
      coll := j.coll.filter fun c => !(decide (c.code ≤ 3) && c.bar == bar && c.run == run % 256) }) (returnFrames gone s)
    { s with linkWait := s.linkWait.filter (fun f => !mine f.2),
             flows := s.flows.filter (fun f => !ours f),
             ports := s.ports.map fun p => (p.1, { p.2 with classes := p.2.classes.map fun c =>
               (c.1, { c.2 with
                 frames := c.2.frames.take c.2.sent ++ (c.2.frames.drop c.2.sent).filter (fun f => !mine f) }) }) }

/-- Every frame of a job that waits at this device is let go, its units returned. -/
def dropWaiting (slot job : Nat) (s : State) : State :=
  let gone := (s.linkWait.filter fun f => f.2.job == job) ++ (s.flows.filter fun f => f.slot == slot).flatMap (·.waits)
  { returnFrames gone s with
    flows := s.flows.filter (fun f => f.slot != slot), linkWait := s.linkWait.filter fun f => f.2.job != job }

/-- What a discarded run held: pins, admissions and session pages, entries in holding areas, frames. -/
def discardRun (slot : Nat) (r : Run) (s : State) : State :=
  let s := unadmit r slot (unpinPages r.pins s)
  let s := r.waiting.foldl (fun s w =>
    modHand w.2.2 (fun h => { h with holdEntries := h.holdEntries - 1 }) s) s
  dropFrames slot r.bar r.run s

/-- The look-ahead run of a slot is discarded whole (R283): its commands, messages and admissions. -/
def dropLook (slot : Nat) (s : State) : State :=
  match (getJob s slot).bind (·.ahead) with
  | none => s
  | some r =>
    let s := stopCores slot s
    let s := discardRun slot r (dropTraffic slot (fun br => br != (r.bar, r.run)) s)
    modJob slot (fun j => { j with
      ahead := none, shards := j.shards.map fun p => (p.1, { p.2 with look := p.2.cur }),
      inputs := j.inputs.map fun i => if i.bar = r.bar then { i with written := false } else i }) s

/-- Both runs of a slot are discarded. -/
def dropRuns (slot : Nat) (s : State) : State :=
  let s := dropLook slot s
  match (getJob s slot).bind (·.cur) with
  | none => s
  | some r =>
    let s := stopCores slot s
    let s := discardRun slot r (dropTraffic slot (fun _ => false) s)
    modJob slot (fun j => { j with cur := none, inputs := j.inputs.map fun i => { i with written := false } }) s

/-- The duration of a bar is sampled at each verdict (19 R550 kind 3). -/
def sampleBar (slot opened : Nat) (s : State) : State :=
  match slotPart s slot with
  | some (p, false) => monSample 0 (64 + p) ((s.ptp.now - opened) / 1000) s
  | _ => s

/-- The fault block of a slot: the hand of its partition's origin, or the hub (R564, R565). -/
def slotBlock (s : State) (slot : Nat) : Nat :=
  match slotPart s slot with
  | some p => handOfCol (getPart s p.1).col
  | none => 2

/-- A look-ahead run of the next bar that another device may have opened before an abort counts as a run of that bar on every
device, so that its number follows from the verdicts alone, and its frames are discarded (14 R417). DEDUCED: it may have been
opened wherever the score and the open bar's mode allow it and no combined word shows an overflow (R282). -/
def dropUnseen (slot : Nat) (r : Run) (seen : Bool) (s : State) : State :=
  match getJob s slot, (getSlot s slot).score with
  | some j, some sc =>
    if sc.replicas = 1 || !sc.lookahead || sc.strict || r.strict || seen || (r.combined.map (·.any (·.2))).getD false then s
    else modJob slot (fun j => { j with runsNext := j.runsNext + 1 }) (dropFrames slot (r.bar + 1) j.runsNext s)
  | _, _ => s

/-- The bar of a slot aborts with a cause (R272, R277): the provisional state and any look-ahead run go, committed
state stays, and the re-run is strict after cause 1 or 3 (R281). -/
def abortBar (slot cause : Nat) (s : State) : State :=
  match (getJob s slot).bind (·.cur) with
  | none => s
  | some r =>
    let s := sampleBar slot r.opened s
    let s := if cause = 1 || cause = 2 || cause = 4 then fltCount (slotBlock s slot) 2 s else s
    let s := logVerdict slot r.bar 4 r.strict cause 0xFFFF s
    let s := dropUnseen slot r ((getJob s slot).bind (·.ahead)).isSome (dropRuns slot s)
    modJob slot (fun j => { j with
      nextBar := r.bar, last := 4, lastCause := cause, aborts := satAt 0x3FFF (j.aborts + 1),
      strictNext := j.strictNext || cause == 1 || cause == 3, abortNext := false }) s

/-! ## Ghosts that lose their partition (R63) -/

/-- The ghost of a partition is evicted: its open bar aborts with the cause given and its job becomes Unbound; `JOB.START` gets an evicted
completion (R63, R465). -/
def evictGhost (p cause : Nat) (s : State) : State :=
  match (getPart s p).ghost with
  | none => s
  | some g =>
    let s := abortBar g cause s
    let s := dropRuns g s
    let s := modPart p (fun q => { q with ghost := none }) s
    match getJob s g with
    | none => s
    | some j =>
      let s := modSlot g (fun sl => { sl with state := if sl.state = .running || sl.state = .stopping then .unbound else sl.state }) s
      let s := modJob g (fun j => { j with part := none }) s
      sendEarly j.w cGhostEvicted 3 (leBytes 5 (j.done.getD 0xFFFFFFFFFF) ++ leBytes 1 p ++ leBytes 2 0) s

/-! ## Partition faults -/

/-- The class and block of a partition fault: the hand of the partition's origin (R564). -/
def partBlock (s : State) (p : Nat) : Nat := handOfCol (getPart s p).col

/-- A partition (or the ghost on it) faults with a code (R52, R573): its bar aborts with cause 3, the job enters
Faulted, the partition enters scrubbing; the notice, counters and log entry of R565 and R566 follow. -/
def partFault (p : Nat) (ghost : Bool) (code row col : Nat) (s : State) : State :=
  let part := getPart s p
  match (if ghost then part.ghost else part.primary) with
  | none => s
  | some slot =>
    let bar := (((getJob s slot).bind Job.now).map (·.bar)).getD 0
    let s := fltCount (handOfCol part.col) 4 s
    let s := notice 0x83 2 p bar (leBytes 1 code ++ leBytes 1 slot ++ leBytes 1 row ++ leBytes 1 col ++ leBytes 8 bar) s
    let s := logInternal 3 code slot part.owner bar (leBytes 1 p ++ leBytes 1 code) s
    let s := abortBar slot 3 s
    let s := stopCores slot s
    let s := modJob slot (fun j => { j with fault := some code }) s
    let s := modSlot slot (fun sl => { sl with state := .faulted }) s
    if ghost then
      -- the ghost regions are scrubbed and the primary goes on (R63)
      let w := partWin s part
      (match (getSlot s slot).score with
        | some sc => (jobCores s part true sc).foldl (fun s k => modCore k.1 (fun c =>
            let c := { c with sram := Mem.clear (Mem.clear c.sram w.localBase w.localSize)
                                        (0x200000 + w.deepBase) w.deepSize,
                              inbox := c.inbox.filter (fun m => m.slot != slot) }
            if c.ghostOn then { c with ctx := { c.ctx with live := false } } else { c with savedGhost := {} }) s) s
        | none => s)
    else
      let s := evictGhost p 3 s
      modPart p (fun q => { q with state := .scrubbing, fault := some code }) s

end Sys2Proof.Machine
end

