-- ==== Sys2Proof/Machine/Lines.lean ====
section
/-! DEFINITION. The protection of memory lines (17 R489 to R493): tweak, MAC, page versions and their integrity tree; and the
shared operation through which every engine and core writes the tiers, which advances the versions. -/

namespace Sys2Proof.Machine

/-! ## Page versions and their tree (R493) -/

/-- The 7-bit minor counter of a line. -/
def PageVer.minor (v : PageVer) (line : Nat) : Nat := v.whole + v.lines.getD line 0

/-- The major counter advances and the page is encrypted whole, every line at minor 0. -/
def PageVer.renew (v : PageVer) : PageVer := { major := (v.major + 1) % 2 ^ 56 }

/-- A line of a page is written: its minor counter advances, or would wrap. -/
def PageVer.step (v : PageVer) (line : Nat) : PageVer :=
  if v.minor line = 127 then v.renew else { v with lines := v.lines.put line (v.lines.getD line 0 + 1) }

/-- Every line of a page is written: each minor counter advances, or one would wrap. -/
def PageVer.stepAll (v : PageVer) : PageVer :=
  if v.whole = 127 || v.lines.any (fun p => decide (127 ≤ v.whole + p.2)) then v.renew else { v with whole := v.whole + 1 }

/-- One level of the 8-ary tree: each node that has a child, with its MAC over its eight children. -/
def treeLevel (level : Nat) (t : Table (List Byte)) : Table (List Byte) :=
  ((t.map fun p => p.1 / 8).eraseDups).map fun k =>
    (k, Config.nodeMac level k ((List.range 8).map fun i => t.getD (8 * k + i) []))

/-- The root over the major counters of all pages: page numbers have 30 bits (16 R468), so ten levels. -/
def treeRoot (t : Table PageVer) : List Byte :=
  let leaves := (t.filter fun p => p.2.major != 0).map fun p => (p.1, leBytes 7 p.2.major)
  ((List.range 10).foldl (fun t l => treeLevel l t) leaves).getD 0 []

/-- New versions stand, and the security core's root follows their major counters. -/
def setVersions (t : Table PageVer) (s : State) : State :=
  { s with versions := t, verRoot := if t.map (fun p => (p.1, p.2.major)) = s.versions.map fun p => (p.1, p.2.major)
                                     then s.verRoot else treeRoot t }

/-- Line numbers, by home address, that a byte range touches. -/
def lineSpan (a len : Nat) : List Nat :=
  if len = 0 then [] else (List.range ((a + len - 1) / 64 - a / 64 + 1)).map (a / 64 + ·)

/-- A page rests in LPDDR or flash, where its lines carry versions (R492). -/
def versioned (s : State) (n : Nat) : Bool := !inHbm s n

/-- The ranges given have been written: each of their lines that rests in LPDDR or flash advances. -/
def stepLines (l : List (Nat × Nat)) (s : State) : State :=
  let lines := (l.flatMap fun r => lineSpan r.1 r.2).filter fun x => versioned s (pageNo (64 * x))
  if lines.isEmpty then s
  else setVersions (lines.foldl (fun t x =>
    t.put (pageNo (64 * x)) ((t.getD (pageNo (64 * x)) {}).step (x % 1024))) s.versions) s

/-- Whole pages have been written where they rest. -/
def stepPages (l : List Nat) (s : State) : State :=
  let l := l.filter (versioned s)
  if l.isEmpty then s else setVersions (l.foldl (fun t n => t.put n (t.getD n {}).stepAll) s.versions) s

/-! ## Writing the tiers -/

/-- Pages that byte ranges touch. -/
def rangePages (l : List (Nat × Nat)) : List Nat := l.flatMap fun r => pageSpan r.1 r.2

/-- The tiers hold `m`, which differs from what they held only within the ranges: versions advance, and promoted copies
differ from their homes (R310). -/
def writeTiers (l : List (Nat × Nat)) (m : List Host.Cell) (s : State) : State :=
  usePages true (rangePages l) (stepLines l { s with mem := m })

/-- Bytes written from an address on. -/
def storeAt (a : Nat) (bs : List Byte) (s : State) : State := writeTiers [(a, bs.length)] (Mem.writeN s.mem a bs) s

/-- Bytes laid over ranges in order. -/
def layBytes : List (Nat × Nat) → List Byte → List Host.Cell → List Host.Cell
  | [], _, m => m
  | r :: l, bs, m => layBytes l (bs.drop r.2) (Mem.writeN m r.1 (bs.take r.2))

/-- Bytes laid over ranges of the tiers in order. -/
def storeLaid (l : List (Nat × Nat)) (bs : List Byte) (s : State) : State := writeTiers l (layBytes l bs s.mem) s

/-- Bytes written that a page's copy and its home both hold: nothing becomes dirty. -/
def storeBoth (a : Nat) (bs : List Byte) (s : State) : State :=
  stepLines [(a, bs.length)] { s with mem := Mem.writeN s.mem a bs }

/-! ## A line's protection (R489, R493) -/

/-- The context whose memory key protects a region, none for the device memory key (R490). -/
def keyContext (s : State) (r : Region) : Option Nat :=
  if r.kind == 4 || r.kind == 5 || s.registry.any fun p => p.2.home == r.base then none else some r.owner

/-- The generation under which a page is encrypted. -/
def pageGen (s : State) (r : Region) (n : Nat) : Nat := ((getPage s n).kgen).getD r.kgen

/-- The key pair and the MAC key of a generation (R489): the first 96 bytes of SHAKE256 over its secret. -/
def memKeys (k : Option Nat) (gen : Nat) : List Byte × List Byte :=
  let b := shake256 96 (Config.memSecret k gen ++ "KT4100-MEM".toList.map fun c => BitVec.ofNat 8 c.toNat)
  (b.take 64, b.drop 64)

/-- The XTS tweak of a line: its home device address divided by 64. -/
def lineTweak (a : Nat) : Nat := a / 64

/-- The ciphertext of the line at a home address. -/
def lineCipher (s : State) (r : Region) (a : Nat) : List Byte :=
  Config.xts (memKeys (keyContext s r) (pageGen s r (pageNo a))).1 (lineTweak a) (Mem.readN s.mem (a / 64 * 64) 64)

/-- The MAC of the line at a home address: over tweak, `KGEN`, in LPDDR and flash the page's version, and ciphertext. -/
def lineMac (s : State) (a : Nat) : List Byte :=
  match pageRegion s (pageNo a) with
  | none => []
  | some r =>
    let n := pageNo a
    let g := pageGen s r n
    let v := s.versions.getD n {}
    kmac256 (memKeys (keyContext s r) g).2 "KT4100-LINE" 8
      (leBytes 8 (lineTweak a) ++ leBytes 1 (g % 16) ++
        (if versioned s n then leBytes 7 v.major ++ leBytes 1 (v.minor (a / 64 % 1024)) else []) ++
        lineCipher s r a)

end Sys2Proof.Machine
end

