-- ==== Sys2Proof/Machine/Unit.lean ====
section
/-! DEFINITION. The unit in which a core step runs: partition, slot, score, job, run and core (02 R31, R47, R70). -/

namespace Sys2Proof.Machine

/-- The unit that a core reference names, if its score runs there and the core executes it (R31, R70, R59). -/
def envOf (s : State) (c : CoreRef) : Option Env :=
  let part := getPart s c.part
  match if c.ghost then part.ghost else part.primary with
  | none => none
  | some slot =>
    match (getSlot s slot).score, getJob s slot with
    | some sc, some j => match j.now with
      | some run =>
        if c.row < sc.rows && c.col < sc.cols then
          let w := partWin s part
          let key := coreKey part c.ghost w c.row c.col
          let core := getCore s key
          match sc.cores[c.row * sc.cols + c.col]? with
          | some prog => some { pid := c.part, part, slot, score := sc, job := j, run, ghost := c.ghost, win := w,
                                row := c.row, col := c.col, key, core, ctx := ctxOf core c.ghost, prog }
          | none => none
        else none
      | none => none
    | _, _ => none

/-- The unit of a core of a slot's score at a relative position. -/
def envAt (s : State) (slot row col : Nat) : Option Env :=
  match slotPart s slot with
  | some (p, ghost) => envOf s ⟨p, ghost, row, col⟩
  | none => none

end Sys2Proof.Machine
end

