-- ==== Sys2Proof/Machine/Links.lean ====
section
/-! DEFINITION. Link routes and the sending side of Grerdo ports (14 R403, R405 to R412, R414, R415, R603; 11 R330). -/

namespace Sys2Proof.Machine

/-! ## Routes -/

/-- The next rank of a ring: sequence position q + 1 mod `SP`, same data index and stage (R315, R330). -/
def ringNext (sc : Score) (rank : Nat) : Nat := rank / sc.sp * sc.sp + (rank % sc.sp + 1) % sc.sp

/-- The rank before it in the ring. -/
def ringPrev (sc : Score) (rank : Nat) : Nat := rank / sc.sp * sc.sp + (rank % sc.sp + sc.sp - 1) % sc.sp

/-- The destination rank of a route when a rank sends; none where it does not use the route (R415). -/
def routeDest (sc : Score) (r : Route) (rank : Nat) : Option Nat :=
  if r.kind = 1 then some (ringNext sc rank)
  else if r.kind = 0 || r.kind = 2 then
    match r.ranks with
    | none => some rank
    | some l => match l[rank]? with
      | some d => if d = 0xFFFF then none else some d
      | none => none
  else some rank

/-- The ranks that send to a rank on a route, ascending (R605). -/
def routeSources (sc : Score) (r : Route) (rank : Nat) : List Nat :=
  (List.range sc.replicas).filter fun q => routeDest sc r q == some rank

/-- The relative row and column that a route's `TARGET` names (R414). -/
def routeCore (r : Route) : Nat × Nat := (r.target / 64 % 16, r.target % 64)

/-- Cores of a score whose programs hold a `send` on a route (R603). -/
def routeSenders (sc : Score) (route : Nat) : List (Nat × Nat) :=
  (positions sc).filter fun rc => match sc.cores[rc.1 * sc.cols + rc.2]? with
    | some p => p.insns.any fun o => match o.insn with
      | .send f => f.dk == 1 && f.dest == route
      | _ => false
    | none => false

/-- A core of this rank has no further message with a beat's tag: its beat has passed it, or it has ended (R603). -/
def senderPast (s : State) (slot : Nat) (beat : Nat) (rc : Nat × Nat) : Bool :=
  match envAt s slot rc.1 rc.2 with
  | some e => e.ctx.ended || decide (beat < e.ctx.beat)
  | none => true

def lexBefore (a b : Nat × Nat) : Bool := decide (a.1 < b.1) || (a.1 == b.1 && decide (a.2 < b.2))

/-- Two messages carry one tag of one run on one route. -/
def sameTag (a b : Msg) : Bool :=
  a.slot == b.slot && a.bar == b.bar && a.run == b.run && a.beat == b.beat && a.route == b.route

/-- Messages of lower beats of a rank on a route into a reduction come first (R605): none waits, and where the rank is this
one no core can still send one. Another rank's link interface sends them in this order. DEDUCED: the concatenation of a
rank's messages runs in ascending beat, and within a tag in the order of R603. -/
def lowerBeats (s : State) (sc : Score) (rank : Nat) (m : Msg) (route : Nat) : Bool :=
  !s.net.any (fun q => q.slot == m.slot && q.bar == m.bar && q.run == m.run && q.route == m.route &&
      q.srcRank == m.srcRank && decide (q.beat < m.beat)) &&
    (m.srcRank != rank || (routeSenders sc route).all fun rc => match envAt s m.slot rc.1 rc.2 with
      | some e => e.ctx.ended || decide (m.beat ≤ e.ctx.beat)
      | none => true)

/-- A message of this rank comes next on its route: no sending core of this rank before its sender can still send with
its tag, and nothing that precedes it waits in the mesh (R603); on a route into a reduction, beat by beat (R605). -/
def localNext (s : State) (sc : Score) (m : Msg) : Bool :=
  match m.route with
  | none => true
  | some r =>
    ((sc.routes[r]?).map (·.kind) != some 2 || lowerBeats s sc m.srcRank m r) &&
    (((routeSenders sc r).filter fun rc => lexBefore rc (m.srcRow, m.srcCol)).all (senderPast s m.slot m.beat)) &&
      !s.net.any fun q => sameTag q m && q.srcRank == m.srcRank &&
        (lexBefore (q.srcRow, q.srcCol) (m.srcRow, m.srcCol) ||
          (q.srcRow == m.srcRow && q.srcCol == m.srcCol && decide (q.seq < m.seq)))

/-! ## Ports -/

def Port.isUp (p : Port) : Bool := decide (2 ≤ p.state) && decide (p.state ≤ 4)

def poolUnits (cls : Nat) : Nat := if cls = 6 then 1024 else 3072

/-- The four next-hop fields of a routing-table entry, in field order (R402). -/
def hopFields (e : Nat) : List Nat := [e / 2 ^ 27 % 32, e / 2 ^ 22 % 32, e / 2 ^ 17 % 32, e / 2 ^ 12 % 32]

/-- The next-hop ports toward a device (R402, R403); an ID without an entry lists none. -/
def hopsTo (s : State) (dev : Nat) : List Nat :=
  ((s.setup.routes.get dev).map hopFields).getD [] |>.filter (· != 0x1F)

/-- The port of a flow toward a device (R403): from its index on, cyclically, the first that is up. -/
def flowPort (s : State) (dev job src route : Nat) : Option Nat :=
  let l := hopsTo s dev
  if l.isEmpty then none
  else
    let i := (job + 1024 * src + route) % l.length
    (l.drop i ++ l.take i).find? fun p => (getPort s p).isUp

/-- A port sends from its highest class with a frame and credit (R410, R411). -/
def portPump (now : Nat) : Nat → Port → Port
  | 0, p => p
  | n + 1, p =>
    let ready (c : Nat) : Bool :=
      match ((p.classes.getD c {}).frames)[(p.classes.getD c {}).read]? with
      | some f => decide (frameUnits f ≤ (if c = 6 then p.collCredits else p.dataCredits))
      | none => false
    if !p.isUp then p
    else match [6, 5, 4, 3, 2, 1, 0].find? ready with
      | none => p
      | some c =>
        let k := p.classes.getD c {}
        match k.frames[k.read]? with
        | none => p
        | some f => portPump now n { p with
            classes := p.classes.put c { k with read := k.read + 1, sent := max k.sent (k.read + 1), frames := k.frames.set k.read { f with sent := now } },
            dataCredits := if c = 6 then p.dataCredits else p.dataCredits - frameUnits f,
            collCredits := if c = 6 then p.collCredits - frameUnits f else p.collCredits }

/-- Frames in a port's classes. -/
def Port.load (p : Port) : Nat := sumNat (p.classes.map fun c => c.2.frames.length)

/-- A frame enters the peal queue of its flow's port (R410); with no listed port up it is discarded and counted
(R403). -/
def linkEnqueue (f : GlFrame) (s : State) : State :=
  match flowPort s f.dstDev f.job f.src f.route with
  | none =>
    let p := (hopsTo s f.dstDev).headD 0
    modPort p (fun q => { q with discards := q.discards + 1 }) s
  | some p => modPort p (fun q =>
      let k := q.classes.getD f.cls {}
      let q := { q with classes := q.classes.put f.cls { k with frames := k.frames ++ [f] } }
      portPump s.ptp.now (q.load + 1) q) s

/-- The flow of a rank and route in a run of a slot's bar (R412). -/
def getFlow (s : State) (slot src route bar run : Nat) : Flow :=
  (s.flows.find? fun f => f.slot == slot && f.src == src && f.cls == route && f.bar == bar && f.run == run % 256).getD
    { src, slot, cls := route, bar, run := run % 256 }

/-- A flow that lost a frame delivers nothing more in its run (R412): no sequence number reaches this. -/
def flowBroken : Nat := 2 ^ 32

def setFlow (f : Flow) (s : State) : State :=
  { s with flows := s.flows.filter (fun g => !(g.slot == f.slot && g.src == f.src && g.cls == f.cls && g.bar == f.bar &&
      g.run == f.run)) ++ [f] }

/-- A frame of a job leaves this device: it is encrypted under the next frame counter of the link key (R419). -/
def sendFrame (slot : Nat) (f : GlFrame) (s : State) : State :=
  let c := ((getJob s slot).map (·.frameCtr)).getD 0
  linkEnqueue { f with ctr := c } (modJob slot (fun j => { j with frameCtr := j.frameCtr + 1 }) s)

/-- A message cut into payloads of at most 4,096 bytes; an empty one is one empty payload (R407). -/
def cutPayload (bs : List Byte) : List (List Byte) :=
  if bs.isEmpty then [[]]
  else (List.range (ceilDiv bs.length 4096)).map fun i => (bs.drop (i * 4096)).take 4096

/-- A message leaves for another rank as job frames of its route's class (R406, R407, R418). -/
def linkSendMsg (j : Job) (rt : Route) (dst : Nat) (route : Nat) (m : Msg) (s : State) : State :=
  match j.members.get dst with
  | none => s
  | some dev =>
    let cuts := cutPayload m.data
    let fl := getFlow s m.slot j.rank route m.bar m.run
    let frames := (List.range cuts.length).map fun i =>
      ({ dstDev := dev.1, cls := rt.prio, lseq := 0, ftype := 0, prov := m.prov, last := i + 1 == cuts.length,
         run := m.run % 256, src := j.rank, dst, job := j.f.job, epoch := j.epoch, bar := m.bar, beat := m.beat,
         route, fseq := fl.sent + i, payload := cuts.getD i [], keyGen := j.keyGen } : GlFrame)
    let s := setFlow { fl with sent := fl.sent + cuts.length } s
    frames.foldl (fun s f => sendFrame m.slot f s) s

/-- Messages of link routes to other ranks that are next in order leave the mesh (R603). -/
def linkFlush : Nat → Nat → State → State
  | 0, _, s => s
  | n + 1, slot, s =>
    match getJob s slot, (getSlot s slot).score with
    | some j, some sc =>
      let out := s.net.find? fun m => m.slot == slot && m.srcRank == j.rank && match m.route with
        | some r => match sc.routes[r]? with
          | some rt => match routeDest sc rt j.rank with
            | some d => d != j.rank && localNext s sc m
            | none => false
          | none => false
        | none => false
      match out with
      | none => s
      | some m => match m.route with
        | none => s
        | some r => match sc.routes[r]? with
          | none => s
          | some rt =>
            linkFlush n slot (linkSendMsg j rt ((routeDest sc rt j.rank).getD 0) r m { s with net := s.net.erase m })
    | _, _ => s

/-- A route of kind 0 or 2 whose rank table maps two or more ranks to one destination (R603). -/
def needsClose (sc : Score) (r : Route) : Bool :=
  (r.kind == 0 || r.kind == 2) && r.ranks.isSome &&
    (List.range sc.replicas).any fun d => decide (2 ≤ (routeSources sc r d).length)

/-- Close frames are sent when the lowest beat of a route's sending cores has risen (R603); a run's end closes at every
beat. -/
def sendCloses (slot : Nat) (s : State) : State :=
  match getJob s slot, (getSlot s slot).score with
  | some j, some sc => match j.now with
    | none => s
    | some run =>
      (List.range sc.routes.length).foldl (fun s i =>
        match sc.routes[i]? with
        | none => s
        | some rt =>
          if !needsClose sc rt then s
          else match routeDest sc rt j.rank with
            | none => s
            | some d => if d = j.rank then s
              else
                let beats := (routeSenders sc i).map fun rc => match envAt s slot rc.1 rc.2 with
                  | some e => if e.ctx.ended then sc.beats else e.ctx.beat
                  | none => 0
                let low := beats.foldl min sc.beats
                let told := match Table.get run.closeSent i with
                  | some b => b + 1
                  | none => 0
                if low ≤ told then s
                else
                  let fl := getFlow s slot j.rank i run.bar run.run
                  match j.members.get d with
                  | none => s
                  | some dev =>
                    let s := setFlow { fl with sent := fl.sent + 1 } s
                    let s := modNow slot (fun r => { r with closeSent := r.closeSent.put i (low - 1) }) s
                    sendFrame slot {
                      dstDev := dev.1, cls := rt.prio, lseq := 0, ftype := 2, prov := run.look, last := true,
                      run := run.run % 256, src := j.rank, dst := d, job := j.f.job, epoch := j.epoch,
                      bar := run.bar, beat := low - 1, route := i, fseq := fl.sent, payload := [],
                      keyGen := j.keyGen } s) s
  | _, _ => s

/-- What a link interface does once a core's beat, its `end` or a message makes it possible. -/
def linkService (slot : Nat) (s : State) : State := sendCloses slot (linkFlush (s.net.length + 1) slot s)

/-- A frame of a run's traffic is still unacknowledged by its first hop (R39, R410). -/
def framesOut (s : State) (job bar run : Nat) : Bool :=
  s.ports.any fun p => p.2.classes.any fun c => c.2.frames.any fun f =>
    f.ftype != 1 && f.job == job && f.bar == bar && f.run == run % 256

end Sys2Proof.Machine
end

