-- ==== Sys2Proof/Machine/Collect.lean ====
section
/-! DEFINITION. The job collectives (14 R416): the tree of ranks, records that travel up and down it in class 6, and the key
frames that travel point to point (17 R491). -/

namespace Sys2Proof.Machine

/-! ## Key frames (17 R491) -/

/-- A collective frame of this rank to another that travels point to point, code 7 or 8 (R416). -/
def keyFrame (j : Job) (dev dst code : Nat) (payload : List Byte) : GlFrame :=
  { dstDev := dev, cls := 6, lseq := 0, ftype := 1, prov := false, last := true, run := 0, src := j.rank, dst,
    job := j.f.job, epoch := j.epoch, bar := 0, beat := 0, route := 0xFC00 + code, fseq := 0, payload,
    keyGen := j.keyGen }

/-- The bytes of an endorsement: identity word, two public keys and their signature (R487). -/
def endorsementBytes : Nat := 235

/-- The link key under the wrap key, with this device's endorsement, goes to a member (R491); the wrap key's frame counter
starts at 0 (R419). -/
def sendKeyTo (slot dst : Nat) (s : State) : State :=
  match getJob s slot with
  | none => s
  | some j => match j.members.get dst with
    | none => s
    | some d =>
      let r := nextFree s
      linkEnqueue (keyFrame j d.1 dst 8 (Config.freeBytes r.1 (32 + endorsementBytes))) r.2

/-- The drawing member reaches every other member: a direct peer's endorsement it has from training, any other's it asks
for (R491). -/
def sendKeys (slot : Nat) (s : State) : State :=
  match getJob s slot with
  | none => s
  | some j => (j.members.filter fun m => m.1 != j.rank && !j.lost.contains m.1).foldl (fun s m =>
      if s.ports.any fun p => p.2.isUp && p.2.peerDev == m.2.1 then sendKeyTo slot m.1 s
      else linkEnqueue (keyFrame j m.2.1 m.1 7 []) s) s

/-- A fresh link key, whose frames count from 0 (R419): a member that draws it holds it at once, any other waits for it. -/
def freshKey (slot : Nat) (draws : Bool) (s : State) : State :=
  let r := nextFree s
  modJob slot (fun j => { j with
    keyGen := if draws then j.keyGen + 1 else j.keyGen, oldKeys := [], frameCtr := 0, keyed := draws,
    linkKey := if draws then Config.freeBytes r.1 32 else [] }) r.2

/-- The link key of a code-8 frame is here (R491). -/
def takeKey (slot : Nat) (f : GlFrame) (s : State) : State :=
  let r := nextFree s
  modJob slot (fun j => { j with
    keyed := true, keyGen := f.keyGen, frameCtr := 0, linkKey := Config.freeBytes r.1 32 }) r.2

/-! ## The tree -/

/-- The rank above a rank. -/
def treeParent (r : Nat) : Nat := (r - 1) / 8

/-- A rank and the ranks above it, to the root. -/
def treePath : Nat → Nat → List Nat
  | 0, r => [r]
  | n + 1, r => if r = 0 then [0] else r :: treePath n (treeParent r)

/-- The lowest rank above a rank that is not lost; a lost member's subtree hangs from its own parent. -/
def upRank (lost : List Nat) (r : Nat) : Option Nat :=
  if r = 0 then none else (treePath 4 (treeParent r)).find? fun p => !lost.contains p

/-- The ranks of a tree of n that a rank combines: its children, and those that hang from it for lost ones. -/
def downRanks (n : Nat) (lost : List Nat) (r : Nat) : List Nat :=
  (List.range n).filter fun c => !lost.contains c && upRank lost c == some r

/-- The ranks of the subtree of a rank, ascending. -/
def subtree (n : Nat) (lost : List Nat) (r : Nat) : List Nat :=
  (List.range n).filter fun c => !lost.contains c && (treePath 4 c).contains r

/-- The neighbour that leads from a rank to another. -/
def towards (n : Nat) (lost : List Nat) (r t : Nat) : Option Nat :=
  match (downRanks n lost r).find? fun c => (treePath 4 t).contains c with
  | some c => some c
  | none => upRank lost r

/-! ## Records -/

/-- The 64 bytes of a vote (09 R276). -/
def voteBytes (v : Vote) : List Byte :=
  leBytes 8 v.bar ++ leBytes 4 v.job ++ leBytes 4 v.epoch ++ fitTo 16 v.score ++ leBytes 1 (bit v.mode) ++
    leBytes 1 (bit v.finite + 2 * bit v.ovf) ++ leBytes 1 v.cause ++ leBytes 1 0 ++ leBytes 2 v.voters ++
    leBytes 2 v.ovfTensor ++ leBytes 4 v.nonfin ++ leBytes 4 v.overs ++ List.replicate 16 0

/-- A vote read from its 64 bytes. -/
def readVote (b : List Byte) : Vote :=
  let at_ (o n : Nat) := leNat ((b.drop o).take n)
  { bar := at_ 0 8, job := at_ 8 4, epoch := at_ 12 4, score := (b.drop 16).take 16, mode := bitOf (at_ 0x20 1) 0,
    finite := bitOf (at_ 0x21 1) 0, ovf := bitOf (at_ 0x21 1) 1, cause := at_ 0x22 1, voters := at_ 0x24 2,
    ovfTensor := at_ 0x26 2, nonfin := at_ 0x28 4, overs := at_ 0x2C 4 }

/-- Two vote records combined (09 R276); two different values of an equal field set `CAUSE` to 4. -/
def combineVote (a b : Vote) : Vote :=
  let same := a.bar == b.bar && a.job == b.job && a.epoch == b.epoch && a.score == b.score && a.mode == b.mode &&
    a.ovf == b.ovf
  { a with finite := a.finite && b.finite, ovf := a.ovf || b.ovf,
           cause := max (max a.cause b.cause) (if same then 0 else 4), voters := a.voters + b.voters,
           ovfTensor := min a.ovfTensor b.ovfTensor, nonfin := satAt 0xFFFFFFFF (a.nonfin + b.nonfin),
           overs := satAt 0xFFFFFFFF (a.overs + b.overs) }

/-- A bar word: magnitude bits below the overflow flag (07 R216). -/
def barWordBytes (w : Nat × Bool) : List Byte := leBytes 4 (w.1 % 2 ^ 31 + if w.2 then 2 ^ 31 else 0)

/-- Two lists of bar words combined, maximum and OR (07 R216). -/
def combineBarWords (a b : List Byte) : List Byte :=
  (List.range (a.length / 4)).flatMap fun i =>
    let x := leNat ((a.drop (4 * i)).take 4)
    let y := leNat ((b.drop (4 * i)).take 4)
    barWordBytes (max (x % 2 ^ 31) (y % 2 ^ 31), bitOf x 31 || bitOf y 31)

/-- The bytes that a rank contributes to a gathered block: its shards' outcomes and norm partials (09 R276), its comparison
record (11 R334), or its report, one byte (DESIGN CHOICE: the manual gives the report of 11 R342 and R338 no layout). -/
def blockBytes (sc : Score) (code rank : Nat) : Nat :=
  if code = 3 then
    (sc.shards.filter fun e => e.owner == rank).length +
      32 * (sc.entries.filter fun t => t.norm.isSome && ((sc.shards[t.shard]?).map (·.owner)) == some rank).length
  else if code = 4 then 96 else 1

/-- A gathered block of some ranks cut into one piece for each. -/
def cutBlock (len : Nat → Nat) : List Nat → List Byte → List (Nat × List Byte)
  | [], _ => []
  | r :: rs, b => (r, b.take (len r)) :: cutBlock len rs (b.drop (len r))

/-- Records of a rank and of the ranks below it combined: words and votes field by field, gathered blocks concatenated in
rank order (R416). -/
def combineColl (sc : Score) (n : Nat) (lost : List Nat) (code rank : Nat) (own : List Byte) (parts : List (Nat × List Byte)) :
    List Byte :=
  if code = 1 then parts.foldl (fun a p => combineBarWords a p.2) own
  else if code = 2 then voteBytes (parts.foldl (fun a p => combineVote a (readVote p.2)) (readVote own))
  else
    let all := (rank, own) :: parts.flatMap fun p => cutBlock (blockBytes sc code) (subtree n lost p.1) p.2
    (List.range n).flatMap fun r => (all.find? fun p => p.1 == r).elim [] (·.2)

/-! ## Travelling -/

/-- A collective record leaves for a rank as class-6 frames of its flow, with `PROV` 0 (R406, R416, R418). -/
def collSend (slot code bar run dst : Nat) (bytes : List Byte) (s : State) : State :=
  match getJob s slot with
  | none => s
  | some j => match j.members.get dst with
    | none => s
    | some dev =>
      let cuts := cutPayload bytes
      let fl := getFlow s slot j.rank (0xFC00 + code) bar run
      let s := setFlow { fl with sent := fl.sent + cuts.length } s
      (List.range cuts.length).foldl (fun s i => sendFrame slot {
        dstDev := dev.1, cls := 6, lseq := 0, ftype := 1, prov := false, last := i + 1 == cuts.length, run := run % 256,
        src := j.rank, dst, job := j.f.job, epoch := j.epoch, bar, beat := 0, route := 0xFC00 + code, fseq := fl.sent + i,
        payload := cuts.getD i [], keyGen := j.keyGen } s) s

/-- The ranks of a job's collectives: those of its rank map, which during a re-shard names the ranks of both layouts (11
R342). -/
def treeSize (j : Job) : Nat := j.members.foldl (fun n m => max n (m.1 + 1)) 0

/-- Lost ranks that a collective does without: a verdict query does (R416). DESIGN CHOICE: so do reports, since a spare may be
admitted while another rank is lost. -/
def collLost (j : Job) (code : Nat) : List Nat := if code = 5 || code = 6 then j.lost else []

/-- The source under which the result of a report collective is kept; no rank is as high. -/
def collResult : Nat := 0x10000

/-- What the root's result brings at a rank: it goes on to the ranks below, and a report's result is kept. -/
def collDown (slot code bar run : Nat) (bytes : List Byte) (s : State) : State :=
  match getJob s slot with
  | some j =>
    let s := if code = 6 then modJob slot (fun j => { j with coll := j.coll ++ [⟨6, bar, run % 256, collResult, true, bytes⟩] }) s else s
    (downRanks (treeSize j) (collLost j code) j.rank).foldl (fun s c => collSend slot code bar run c bytes s) s
  | none => s

/-- A rank's own record and those of every rank below are here: they are combined and go up, or at the root down (R416). -/
def pumpColl (slot code bar run : Nat) (s : State) : State :=
  match getJob s slot, (getSlot s slot).score with
  | some j, some sc =>
    let n := treeSize j
    let lost := collLost j code
    let of_ (r : Nat) : Option CollRec := j.coll.find? fun c => c.code == code && c.bar == bar && c.run == run % 256 &&
      c.src == r && c.whole
    let below := downRanks n lost j.rank
    match of_ j.rank with
    | none => s
    | some own =>
      if !below.all fun r => (of_ r).isSome then s
      else
        let bytes := combineColl sc n lost code j.rank own.bytes (below.map fun r => (r, (of_ r).elim [] (·.bytes)))
        let s := modJob slot (fun j => { j with
          coll := j.coll.filter fun c => !(c.code == code && c.bar == bar && c.run == run % 256) }) s
        match upRank lost j.rank with
        | some p => collSend slot code bar run p bytes s
        | none => collDown slot code bar run bytes s
  | _, _ => s

/-- This rank contributes its record to a collective (R416). -/
def contribColl (slot code bar run : Nat) (bytes : List Byte) (s : State) : State :=
  pumpColl slot code bar run (modJob slot (fun j => { j with
    coll := j.coll ++ [⟨code, bar, run % 256, j.rank, true, bytes⟩] }) s)

/-- A record whose frames are all here: one from below is combined, one from above goes on down (R416). -/
def collWhole (slot : Nat) (c : CollRec) (s : State) : State :=
  match getJob s slot with
  | some j =>
    if (downRanks (treeSize j) (collLost j c.code) j.rank).contains c.src then pumpColl slot c.code c.bar c.run s
    else collDown slot c.code c.bar c.run c.bytes (modJob slot (fun j => { j with coll := j.coll.filter (· != c) }) s)
  | none => s

/-- Collective frames that a rank takes come from the ranks next to it in the tree. -/
def collNeighbour (j : Job) (code src : Nat) : Bool :=
  let lost := collLost j code
  (downRanks (treeSize j) lost j.rank).contains src || upRank lost j.rank == some src

/-- A collective frame of codes 1 to 4 and 6 at its rank, in `FSEQ` order (R409, R412, R416). -/
def collFrame (slot : Nat) (f : GlFrame) (s : State) : State :=
  let fl := getFlow s slot f.src f.route f.bar f.run
  let code := f.route - 0xFC00
  if fl.expect = flowBroken then s
  else if f.fseq < fl.expect then modJob slot (fun j => { j with frameDups := j.frameDups + 1 }) s
  else if fl.expect < f.fseq then setFlow { fl with expect := flowBroken } s
  else match getJob s slot with
    | none => s
    | some j =>
      let part (c : CollRec) : Bool := c.code == code && c.bar == f.bar && c.run == f.run && c.src == f.src && !c.whole
      let rec_ : CollRec := { code, bar := f.bar, run := f.run, src := f.src, whole := f.last,
                              bytes := ((j.coll.find? part).elim [] (·.bytes)) ++ f.payload }
      let s := modJob slot (fun j => { j with coll := j.coll.filter (fun c => !part c) ++ [rec_] })
        (setFlow { fl with expect := f.fseq + 1 } s)
      if f.last then collWhole slot rec_ s else s

/-! ## The verdict query (09 R285) -/

/-- The member that asks sends its query to its neighbours in the tree (R416): its rank and the bar. -/
def askQuery (slot bar : Nat) (s : State) : State :=
  match getJob s slot with
  | some j =>
    (downRanks (treeSize j) j.lost j.rank ++ (upRank j.lost j.rank).toList).foldl
      (fun s r => collSend slot 5 bar 0 r (leBytes 2 j.rank ++ leBytes 2 0xFFFF) s) s
  | none => s

/-- The verdict that a member has formed on a bar, 0 for none, with its cause. -/
def formedVerdict (j : Job) (bar : Nat) : Nat × Nat :=
  if j.done == some bar then (j.last, 0)
  else if j.nextBar == bar && (j.last == 3 || j.last == 4) && j.runs != 0 && j.cur.isNone then (j.last, j.lastCause)
  else (0, 0)

/-- A code-5 frame: a query goes on to the other neighbours and is answered; an answer goes on toward the member that asks,
where `VERDICT_QUERY_REPLY` brings it (R285, R416). -/
def queryFrame (slot : Nat) (f : GlFrame) (s : State) : State :=
  match getJob s slot with
  | some j =>
    let asker := leNat (f.payload.take 2)
    let next (r : Nat) (bytes : List Byte) (s : State) : State := match towards (treeSize j) j.lost j.rank r with
      | some t => collSend slot 5 f.bar 0 t bytes s
      | none => s
    if leNat ((f.payload.drop 2).take 2) = 0xFFFF then
      let others := (downRanks (treeSize j) j.lost j.rank ++ (upRank j.lost j.rank).toList).filter (· != f.src)
      let s := others.foldl (fun s r => collSend slot 5 f.bar 0 r f.payload s) s
      let v := formedVerdict j f.bar
      next asker (leBytes 2 asker ++ leBytes 2 j.rank ++ leBytes 1 v.1 ++ leBytes 1 v.2) s
    else if asker = j.rank then s
    else next asker f.payload s
  | none => s

end Sys2Proof.Machine
end

