-- ==== Sys2Proof/Machine/Votes.lean ====
section
/-! DEFINITION. This device's part of a verdict (09 R275, R276): its vote and its outcomes, which enter their collectives; and the
partition faults, with which it leaves a job of several devices (20 R573). -/

namespace Sys2Proof.Machine

def getPass (r : Run) (e : Nat) : EntryPass := r.passes.getD e {}

/-- The lowest tensor whose flag is set, or 0xFFFF (R276 `OVF_TENSOR`). -/
def lowestOvf (ws : List (Nat × Bool)) : Nat :=
  ((List.range ws.length).find? fun i => (ws.getD i (0, false)).2).getD 0xFFFF

/-! ## Votes (R275, R276) -/

/-- This device's vote (R276). -/
def ownVote (sc : Score) (digest : List Byte) (j : Job) (r : Run) (cause : Nat) : Vote :=
  let outs := (List.range sc.shards.length).filterMap fun i => match sc.shards[i]? with
    | some e => if e.owner = j.rank then some (r.outcomes.getD i 0) else none
    | none => none
  let ws := r.combined.getD []
  { bar := r.bar, job := j.f.job, epoch := j.epoch, score := digest.take 16, mode := r.strict,
    finite := outs.all (· ≤ 1), ovf := ws.any (·.2), cause, voters := 1, ovfTensor := lowestOvf ws,
    nonfin := (outs.filter (· == 3)).length, overs := (outs.filter (· == 2)).length }

/-- What this rank contributes to the outcome block's bytes: outcomes of its shards, then its norm partials (R276). -/
def ownOutcomes (sc : Score) (j : Job) (r : Run) : List Byte :=
  let mine (i : Nat) : Bool := ((sc.shards[i]?).map (·.owner)) == some j.rank
  ((List.range sc.shards.length).filter mine).flatMap (fun i => leBytes 1 (r.outcomes.getD i 0)) ++
    (List.range sc.entries.length).flatMap fun i => match sc.entries[i]? with
      | some t => if t.norm.isSome && mine t.shard then
          let p := (getPass r i).parts
          leBytes 8 p.w2.toNat ++ leBytes 8 p.w2Old.toNat ++ leBytes 8 p.g2.toNat ++ leBytes 8 p.d2.toNat else []
      | none => []

/-- The device's vote and its part of the outcome block enter their collectives (R275, R276, 14 R416). -/
def enterVote (slot : Nat) (sc : Score) (j : Job) (r : Run) (cause : Nat) (s : State) : State :=
  let v := ownVote sc (getSlot s slot).digest j r cause
  contribColl slot 3 r.bar r.run (ownOutcomes sc j r) (contribColl slot 2 r.bar r.run (voteBytes v)
    (modJob slot (fun j => { j with cur := j.cur.map fun r => { r with voted := some v } }) s))

/-! ## Causes that abort at once (R277) -/

/-- A job of several devices enters its vote on the open bar with an abort cause, unless its vote is in (R277). -/
def voteCause (slot cause : Nat) (s : State) : State :=
  match getJob s slot, (getSlot s slot).score with
  | some j, some sc => match j.cur with
    | some r => if sc.replicas != 1 && r.voted.isNone then enterVote slot sc j r cause s else s
    | none => s
  | _, _ => s

/-- A forced stop aborts the open bar with cause 5 (R277, R286). -/
def abortForced (slot : Nat) (s : State) : State := abortBar slot 5 (voteCause slot 5 s)

/-- A partition, or the ghost on it, faults with a code at a core: its device enters its vote with cause 3, and the fault is
contained (R52, 20 R573). -/
def faultPart (p : Nat) (ghost : Bool) (code row col : Nat) (s : State) : State :=
  let part := getPart s p
  partFault p ghost code row col (match if ghost then part.ghost else part.primary with
    | some slot => voteCause slot 3 s
    | none => s)

/-- A core store meets an uncorrectable error (20 R568): the partition faults with `MEMORY_ERROR`. -/
def coreError (p : Nat) (ghost : Bool) (store key row col : Nat) (s : State) : State :=
  faultPart p ghost cMemoryError row col (memError store 4 key s)

end Sys2Proof.Machine
end

