-- ==== Sys2Proof/Machine/Seq.lean ====
section
/-! DEFINITION. Beats and the sequencer: what an advance of the partition beat brings about (02 R38, R59, 11 R325,
13 R394, 16 R466), when a core instruction may issue (03 R73, R75, R79, R80) and how it retires (R76, R80, R81). -/

namespace Sys2Proof.Machine

/-! ## What a partition beat brings about -/

/-- Token records of a slot enter the outbound queue in ascending request ID (R394), and so do completions of commands
that took effect at the downbeat (16 R470); a closed session's are kept. -/
def releaseTokens (slot : Nat) (s : State) : State :=
  let mine := (s.tokens.filter fun t => t.slot == slot).mergeSort fun a b => decide (a.req ≤ b.req)
  let s := { s with tokens := s.tokens.filter fun t => t.slot != slot }
  let s := mine.foldl (fun s t =>
    let rec_ := leBytes 4 t.req ++ leBytes 1 t.reason ++ leBytes 1 t.flags ++ leBytes 2 0 ++ leBytes 8 t.bar ++
      leBytes 4 t.position ++ leBytes 4 t.token ++ leBytes 5 t.abar ++ leBytes 3 0
    let keep (s : State) : State := { s with linger := s.linger ++
      [{ prin := some t.prin, recs := [(3, 4, 0, rec_)], expires := s.ptp.now + lingerNs s }] }
    match s.sessions.get t.sess with
    | some x =>
      if x.phase = 2 && x.prin = t.prin then outRecord 3 t.sess 4 0 rec_ (if bitOf t.flags 2 then [t.req] else []) s
      else keep s
    | none => keep s) s
  let s := if mine.isEmpty then s else closeOpen 3 s
  let held := ((getJob s slot).map (·.heldCpls)).getD []
  held.foldl (fun s h => complete h.w h.status (if h.status = cOk then 0 else noDetail) h.result s)
    (modJob slot (fun j => { j with heldCpls := [] }) s)

/-- Bar inputs are written at the bar's input beat, and again at every re-run's; a command completes when its input
is first written (R466, R601). An input of a look-ahead run to a buffered region waits for the verdict before (10 R301),
one to a stack of a hand in reset for the restart (01 R24). -/
def writeInputs (slot : Nat) (s : State) : State :=
  match getJob s slot with
  | none => s
  | some j => match j.now with
    | none => s
    | some run =>
      let held (i : InputWait) : Bool := match regionAt s i.addr i.bytes.length with
        | some r => (run.look && (r.kind == 1 || r.kind == 2)) ||
            (pageSpan (resolveAddr j r run.look true i.addr) i.bytes.length).any (asleep s)
        | none => false
      let due := j.inputs.filter fun i => i.bar == run.bar && !i.written && !held i
      let s := due.foldl (fun s i =>
        let s := match regionAt s i.addr i.bytes.length with
          | some r => storeAt (resolveAddr j r run.look true i.addr) i.bytes s
          | none => s
        match i.w with
        | some w => logChange w slot i.bar (leBytes 8 i.addr) (complete w cOk 0 [] s)
        | none => s) s
      let mark (i : InputWait) : InputWait := if due.contains i then { i with written := true, w := none } else i
      modJob slot (fun j => { j with inputs := j.inputs.map mark }) s

/-! ## Ghosts (R59, R61) -/

/-- Pending shadow checks that are dropped count in the run they belong to: the open one, or one that has committed or
been skipped (07 R230, R232, R233). -/
def dropChecks (slot n : Nat) (s : State) : State :=
  match (getJob s slot).bind (·.cur) with
  | some _ => modNow slot (fun r => { r with shadowDrop := r.shadowDrop + n }) s
  | none => modJob slot (fun j => { j with shadowDrop := satAt 0xFFFF (j.shadowDrop + n) }) s

/-- The cores that a partition's ghost runs on. -/
def ghostCores (s : State) (p : Part) : List Core :=
  match p.ghost.bind fun g => (getSlot s g).score with
  | some sc => (jobCores s p true sc).map fun k => getCore s k.1
  | none => []

/-- A ghost score is paused: it is bound, and it runs on no core (R38, R59). -/
def ghostPaused (s : State) (i : Nat) : Bool :=
  match slotPart s i with
  | some (p, true) => !(ghostCores s (getPart s p)).any fun c => c.ghostOn && !c.pausing
  | _ => false

/-- The beat that a core of a ghost has begun: a paused one stands before its next. -/
def begunBeat (c : Core) : Nat := if c.pausing then c.ctx.beat - 1 else c.ctx.beat

/-- A ghost's timer runs only while the ghost does (R61). -/
def tickGhost (p : Nat) (s : State) : State :=
  match (getPart s p).ghost with
  | none => s
  | some g =>
    let off := ghostPaused s g
    let f (r : Run) : Run :=
      if off then { r with pausedAt := r.pausedAt <|> some s.ptp.now }
      else match r.pausedAt with
        | some t => { r with pausedAt := none, pausedNs := r.pausedNs + (s.ptp.now - t) }
        | none => r
    modJob g (fun j => { j with cur := j.cur.map f, ahead := j.ahead.map f }) s

/-- Registers of a score that is put away or taken up again: lane stores hold no slice (R113), a pending shadow check
is dropped (07 R232). -/
def CoreCtx.resumed (c : CoreCtx) : CoreCtx := { c with lanes := [], lanesN := none, shadow := none }

/-- A ghost resumes on a resting core (R59 order 3): the primary's registers are put away. -/
def Core.takeGhost (c : Core) : Core :=
  if c.ghostOn || c.rest.isNone || c.pausing then c
  else { c with savedPrimary := { c.ctx with shadow := none }, ctx := c.savedGhost.resumed, ghostOn := true }

/-- A ghost whose bar opens runs at once on the cores that rest (R59 orders 3 and 4), unless a claim has been raised. -/
def startGhost (p : Nat) (s : State) : State :=
  let part := getPart s p
  if part.claim.isSome then s
  else match part.ghost.bind fun g => (getSlot s g).score with
    | some sc => (jobCores s part true sc).foldl (fun s k => modCore k.1 Core.takeGhost s) s
    | none => s

/-- The rest window the cores of a partition rest in. -/
def restingWin (s : State) (part : Part) (sc : Score) : Option Nat :=
  (jobCores s part false sc).findSome? fun k => (getCore s k.1).rest

/-- A claim is raised on the rest window in progress (R59 order 5): the partition beat of the non-resting cores has
reached `END_BEAT`, or `END_BEAT` is `BEATS` and every non-resting core has ended. -/
def checkClaim (p : Nat) (s : State) : State :=
  let part := getPart s p
  match part.primary.bind fun i => (getSlot s i).score with
  | none => s
  | some sc => match restingWin s part sc with
    | none => s
    | some wi => match sc.rests[wi]? with
      | none => s
      | some w =>
        let others := (jobCores s part false sc).filter fun k => (getCore s k.1).rest.isNone
        let ended := others.all fun k => (getCore s k.1).ctx.ended
        if decide (w.stop ≤ partBeatOf s part false sc) && !others.isEmpty || (w.stop == sc.beats && ended) then
          modPart p (fun q => { q with claim := some wi }) s
        else s

/-- What reaching a beat brings about in the newest run of a slot: inputs (R601) and gathers (R325). -/
def atBeat (slot pb : Nat) (s : State) : State :=
  match getJob s slot, (getSlot s slot).score with
  | some j, some sc => match j.now with
    | none => s
    | some run =>
      let s := if sc.inputBeat ≤ pb && !run.inputDone then
        writeInputs slot (modJob slot (fun j => { j with inputBar := some run.bar })
          (modNow slot (fun r => { r with inputDone := true }) s)) else s
      let due := (List.range sc.gathers.length).filter fun i =>
        match sc.gathers[i]? with
        | some g => decide (g.beat ≤ pb) && !run.gatherSent.contains i
        | none => false
      modNow slot (fun r => { r with gatherSent := r.gatherSent ++ due }) s
  | _, _ => s

/-- After a core's beat moved: the partition beat follows, its duration is sampled (19 R550 kind 2), and what it
brings about happens; the link interface sends what has become next in its order (14 R603). -/
def afterBeat (slot : Nat) (s : State) : State :=
  let s := linkService slot s
  match slotPart s slot, (getSlot s slot).score, (getJob s slot).bind Job.now with
  | some (p, ghost), some sc, some run =>
    let pb := partBeatOf s (getPart s p) ghost sc
    if pb ≤ run.partBeat then s
    else
      let s := if ghost then s else monSample 0 p (s.ptp.now - run.beatTime) s
      let s := modNow slot (fun r => { r with partBeat := pb, beatTime := s.ptp.now }) s
      let s := releaseTokens slot s
      let s := atBeat slot pb s
      if ghost then s else checkClaim p s
  | _, _, _ => s

/-! ## Retiring an instruction -/

/-- Something the core issued in its current beat is incomplete (R74, R80). -/
def busyInBeat (c : CoreCtx) : Bool :=
  (match c.mmNow with
    | some m => m.beat == c.beat
    | none => false) ||
  c.dmas.any (fun d => d.beat == c.beat) || c.recvs.any (fun r => r.beat == c.beat) ||
  c.chains.any (fun m => m.beat == c.beat) || c.mcOut.any fun m => m.1 == c.beat

/-- The partition of a step faults at its core (R52); a message that leaves the partition counts in its drops (R49,
R51). -/
def faultAt (e : Env) (code : Nat) (s : State) : State :=
  let s := if code = cEdgeFilter then modPart e.pid (fun p => { p with drops := satAt 0xFFF (p.drops + 1) }) s else s
  faultPart e.pid e.ghost code e.row e.col s

/-- The beat advances to a target; beyond `BEATS` − 1 the partition faults with `BOUNDS` (R81). Once a claim is raised a ghost
pauses where its beat ends (R59 order 6). DEDUCED: the ghost's current beat is the highest that one of its cores has begun,
so that no core waits for a message of a beat that another has paused before. -/
def advanceBeat (e : Env) (target : Nat) (s : State) : State :=
  if e.score.beats ≤ target then faultAt e cBounds s
  else
    let begun := (ctxOf (getCore s e.key) e.ghost).beat
    let last := e.ghost && (getPart s e.pid).claim.isSome && (ghostCores s (getPart s e.pid)).all fun c =>
      !c.ghostOn || c.ctx.ended || !c.ctx.live || decide (begunBeat c ≤ begun)
    let s := modCtx e.key e.ghost (fun c => { c with beat := target, waitFor := none }) s
    let s := if last then modCore e.key (fun c => { c with pausing := true }) s else s
    afterBeat e.slot s

/-- A pending advance takes place once everything issued in the beat has completed (R80). -/
def settle (e : Env) (s : State) : State :=
  let c := ctxOf (getCore s e.key) e.ghost
  match c.waitFor with
  | some t => if busyInBeat c then s else advanceBeat e t s
  | none => s

/-- The loop ends at an instruction address (R76): the next iteration starts, or the loop closes. -/
def loopBack : Nat → CoreCtx → CoreCtx
  | 0, c => c
  | n + 1, c =>
    match c.loops with
    | f :: r =>
      if f.stop = c.pc then
        if f.iter + 1 < f.count then
          xWrite { c with pc := f.start, loops := { f with iter := f.iter + 1 } :: r } f.xc
            (BitVec.ofNat 32 (f.iter + 1))
        else loopBack n { c with loops := r }
      else c
    | [] => c

/-- The next instruction after `pc` (R76). -/
def stepPc (c : CoreCtx) : CoreCtx := loopBack 5 { c with pc := c.pc + 1 }

/-- The beat-wait mode applied as the instruction retires (R80): `target` is given by a `wait.beat` that takes
effect. -/
def applyBw (e : Env) (k : Ctl) (target : Option Nat) (s : State) : State :=
  let beat := (ctxOf (getCore s e.key) e.ghost).beat
  match k.bw with
  | .none => s
  | .bt => advanceBeat e (beat + 1) s
  | _ => settle e (modCtx e.key e.ghost (fun c => { c with waitFor := some (target.getD (beat + 1)) }) s)

/-! ## Issue -/

/-- The partition lets its cores issue (R51, R52). -/
def partRuns (p : Part) : Bool := p.state == .running || p.state == .resting

/-- The core would issue this instruction next (R73, R80): it executes this score, its program's next word is the
instruction, no advance is pending, and a `.bs` finds the partition beat at or past the core's beat. -/
def issues (s : State) (e : Env) (op : CoreOp) : Bool :=
  partRuns e.part && e.core.ghostOn == e.ghost && (e.ghost || e.core.rest.isNone) && e.ctx.live && !e.ctx.ended &&
    !(e.ghost && e.core.pausing) && e.ctx.waitFor.isNone &&
    decide (e.prog.insns[e.ctx.pc]? = some op) &&
    (op.ctl.bw != .bs || decide (e.ctx.beat ≤ partBeatOf s e.part e.ghost e.score))

/-- A core that the device does not have (R10, R47). -/
def noCore (c : CoreRef) : Bool := decide (64 ≤ c.part) || decide (16 ≤ c.row) || decide (64 ≤ c.col)

/-- A core step: what stands in the body happens when the instruction issues with a true predicate; a false one leaves
only the beat-wait mode (R75). While the instruction cannot issue nothing changes. -/
def issue (c : CoreRef) (k : Ctl) (insn : CoreInsn) (target : Env → Option Nat) (body : Env → State → Act)
    (s : State) : Host.Outcome State Fault Refusal :=
  if noCore c then .fault .noSuchUnit
  else match envOf s c with
    | none => .next s
    | some e =>
      if !issues s e ⟨k, insn⟩ then .next s
      else if !predHolds e.ctx k then
        .next (applyBw e k none (modCtx e.key e.ghost stepPc s))
      else match body e s with
        | .wait => .next s
        | .fault code => .next (faultAt e code s)
        | .ok s' => .next (applyBw e k (target e) s')

/-- A body that only changes the registers, then steps the program counter. -/
def regBody (f : CoreCtx → CoreCtx) (e : Env) (s : State) : Act :=
  .ok (modCtx e.key e.ghost (fun c => stepPc (f c)) s)

/-- Messages of the bar that no core will consume any more (R40): they wait at a core that waits for none. -/
def orphans (s : State) (e : Env) : Bool :=
  (jobCores s e.part e.ghost e.score).any fun k =>
    (ctxOf (getCore s k.1) e.ghost).recvs.isEmpty &&
      (getCore s k.1).inbox.any fun m => m.slot == e.slot && m.bar == e.run.bar && m.run == e.run.run

/-! ## Interlocks (R73) -/

/-- The lines of a rotated tile's cells: whole rows of the full lane groups, and the cells of the last lanes (R96). -/
def tileCells (line lanes chunks : Nat) : List (Nat × Nat) :=
  let full := lanes / 16
  let rest := (List.range (lanes % 16)).flatMap fun i => (List.range chunks).map fun k =>
    (line + (full * chunks + k) * 16 + (i + k) % 16, 1)
  if full = 0 then rest else (line, full * chunks * 16) :: rest

/-- Core line ranges of a descriptor (R96): rows of a linear layout, or the rows of a tile. DEDUCED: a transposed tile has as
many chunks for each lane as its K extent `ROWS` fills, since `ROW_BYTES` is its lanes. DESIGN CHOICE: where `ROW_BYTES` is no
multiple of the element size the lanes are rounded down, and the bytes beyond the last whole element do not move. -/
def descLines (d : Desc) : List (Nat × Nat) :=
  if d.rows = 0 || d.rowBytes = 0 then []
  else if d.layout = 0 then
    (List.range d.rows).map fun r => (d.coreLine + r * d.coreStride, ceilDiv d.rowBytes 64)
  else if d.layout = 2 then
    let es := fmtBits d.fmt / 8
    let lanes := d.rowBytes / es
    let chunks := ceilDiv d.rows (64 / es)
    tileCells d.coreLine lanes chunks
  else if d.layout = 1 then tileCells d.coreLine d.rows (ceilDiv d.rowBytes 64)
  else tileCells d.coreLine d.rows 1

/-- Core lines of the memory side of a descriptor that copies within the core's own SRAM (R94). -/
def memSideLines (d : DmaItem) : List (Nat × Nat) :=
  if tierOf d.mem != 0 then []
  else (List.range d.desc.rows).map fun r =>
    let a := d.mem + r * d.desc.memStride
    (a / 64, ceilDiv (a % 64 + d.desc.rowBytes) 64)

/-- Lines that incomplete instructions write (R73). -/
def busyWrites (c : CoreCtx) : List (Nat × Nat) :=
  c.dmas.flatMap (fun d => if d.desc.toMem then memSideLines d else descLines d.desc) ++
    c.recvs.map fun r => (r.line, r.len)

/-- Lines that incomplete instructions read (R73). -/
def busyReads (c : CoreCtx) : List (Nat × Nat) :=
  c.dmas.flatMap (fun d => if d.desc.toMem then descLines d.desc else memSideLines d) ++
    (match c.mmNow with
      | some m => m.lines
      | none => [])

def anyOverlap (a b : List (Nat × Nat)) : Bool := a.any fun x => b.any fun y => overlaps x y

/-- The interlock of R73 lets an instruction that reads and writes these line ranges issue. -/
def linesFree (c : CoreCtx) (rd wr : List (Nat × Nat)) : Bool :=
  !anyOverlap rd (busyWrites c) && !anyOverlap wr (busyWrites c) && !anyOverlap wr (busyReads c)

/-- A transfer that writes the core's SRAM: into its lines, or to a tier-0 address of its own (R73, R94). -/
def DmaItem.writesSram (d : DmaItem) : Bool := !d.desc.toMem || tierOf d.mem == 0

/-- Fewer than 32 SRAM writes are incomplete (R73). DESIGN CHOICE: the manual does not say whether a `recv` of `LEN` 0 counts
among them; it does, as any `recv` that waits. -/
def writeRoom (c : CoreCtx) : Bool := decide ((c.dmas.filter DmaItem.writesSram).length + c.recvs.length < 32)

end Sys2Proof.Machine
end

