-- ==== Sys2Proof/Machine/Operands.lean ====
section
/-! DEFINITION. The operand forms: shapes and token rows of the matrix unit (04 R107, R114, R117, R125), rotated tiles
(03 R96), activation rows (04 R122), vectors in SRAM (06 R170, R171), bindings (07 R208, R211). -/

namespace Sys2Proof.Machine

/-! ## Lines of the program's own addresses -/

/-- A line range at a field plus an index register, with R602 and R71: the logical first line and the physical one. -/
def operandLines (e : Env) (wr : Bool) (base x extra n : Nat) : Option (Nat × Nat) :=
  match lineSum base (xRead e.ctx x) extra with
  | none => none
  | some l => (chkLines e wr l n).map fun p => (l, p)

/-- The lines that a field plus an index register names, checked or not: those an instruction waits for before its checks
(R73, R134). -/
def fieldLines (e : Env) (base x n : Nat) : List (Nat × Nat) :=
  match lineSum base (xRead e.ctx x) 0 with
  | none => []
  | some l => [(physLine e l, n)]

/-- Lines of the rows of a matrix operand, checked or not: row t stands `t · stride` lines behind the sum of its field
(R122, R131). -/
def fieldRows (e : Env) (base x stride n : Nat) (rows : List Nat) : List (Nat × Nat) :=
  match lineSum base (xRead e.ctx x) 0 with
  | none => []
  | some l => rows.map fun t => (physLine e (l + t * stride), n)

/-- Rows of a matrix operand with their physical lines; none where the field's sum fails R602 or a row fails R71. -/
def operandRows (e : Env) (wr : Bool) (base x stride n : Nat) (rows : List Nat) : Option (List (Nat × Nat)) :=
  match rows.isEmpty, lineSum base (xRead e.ctx x) 0 with
  | true, _ => some []
  | false, none => none
  | false, some l => rows.foldr (fun t acc =>
      match acc, chkLines e wr (l + t * stride) n with
      | some r, some p => some ((t, p) :: r)
      | _, _ => none) (some [])

/-! ## Shapes (R114) -/

def shapeL (sh : Nat) : Nat := [128, 128, 128, 64, 32, 16].getD sh 128
def shapeT (sh : Nat) : Nat := [32, 16, 8, 32, 64, 64].getD sh 32

/-- The token rows that are live: below T, with their bit set (R117). -/
def liveRows (c : CoreCtx) (mrow t : Nat) : List Nat :=
  (List.range t).filter fun r => mrow == 0 || (mRead c mrow).getLsbD r

/-- Where feature `lane` of token row `t` is held: lane and entry as one key (R125). -/
def bankKey (sh lane t : Nat) : Nat :=
  if t < 32 then lane * 32 + t else (lane + shapeL sh) * 32 + (t - 32)

/-- A bank of a core. -/
def bankOf (c : CoreCtx) (b : Bool) : Table (Word × Word) := if b then c.bankB else c.bankA

/-- The shape a bank records (R126). -/
def bankShape (c : CoreCtx) (b : Bool) : Nat := if b then c.shapeB else c.shapeA

/-- An entry of a bank: zero until written in the bar (R126), free after a rest (R60). -/
def bankRead (c : CoreCtx) (b : Bool) (key : Nat) : Word × Word :=
  match (bankOf c b).get key with
  | some p => p
  | none => match c.bankFree with
    | some n => Config.deadBank n b key
    | none => (0, 0)

/-- Entries written, and the shape recorded with them (R126, R127). -/
def bankWrite (c : CoreCtx) (b : Bool) (sh : Nat) (cells : Table (Word × Word)) : CoreCtx :=
  let t := cells.foldl (fun t p => t.put p.1 p.2) (bankOf c b)
  if b then { c with bankB := t, shapeB := sh, heldB := c.heldB || !cells.isEmpty }
  else { c with bankA := t, shapeA := sh, heldA := c.heldA || !cells.isEmpty }

/-- A bank has been drained (R39). -/
def bankDrained (b : Bool) (c : CoreCtx) : CoreCtx := if b then { c with heldB := false } else { c with heldA := false }

/-! ## Products (R107, R204) -/

/-- Products per lane-step. -/
def laneP (wf af : Nat) : Nat :=
  if wf = 1 || af = 1 then 8 else if wf = 8 && af = 8 then 32 else 16

/-- The block size a store recorded (R87). -/
def blockSize (blk : Nat) : Nat := 16 * 2 ^ blk

/-- Element k of a lane store, with its block scale (R200). -/
def LaneStore.elem (st : LaneStore) (k : Nat) : Num :=
  let c := st.codes.getD k 0
  if fmtIsMx st.wfmt then mxNum st.wfmt c (st.scales.getD (k / blockSize st.blk) 0) else elemNum st.wfmt c

/-- Elements of an activation row of `depth` elements read from its bytes: element lines, then for an MX format the
scale line (R122, R123). -/
def activation (fmt blk depth : Nat) (bytes : List Byte) : List Num :=
  let w := fmtBits fmt
  let le := ceilDiv (depth * w) 512
  (List.range depth).map fun k =>
    let c := packedGet bytes w k
    if fmtIsMx fmt then mxNum fmt c (bytes.getD (le * 64 + k / blockSize blk) 0) else elemNum fmt c

/-- Lines of one activation row (R122): element lines and the scale line. -/
def rowLines (fmt depth : Nat) : Nat := ceilDiv (depth * fmtBits fmt) 512 + (if fmtIsMx fmt then 1 else 0)

/-- The step sums of one lane and row in order of K: exact, or by the tree of BF16 products (R137, R138); positions at
or beyond `DEPTH` hold nothing (R121). -/
def stepSums (wf af blk : Nat) (prods : List (Num × Num)) : List (Word × Word) :=
  let p := laneP wf af
  let steps := ceilDiv prods.length p
  if p = 8 then
    (List.range steps).map fun i =>
      let w (j : Nat) : Word := match prods[i * 8 + j]? with
        | some q => round32 (q.1.mul q.2)
        | none => 0
      let a (j : Nat) := twoSum (w (2 * j)) (w (2 * j + 1))
      pairAdd (pairAdd (a 0) (a 1)) (pairAdd (a 2) (a 3))
  else
    let u := if p = 32 && blockSize blk = 16 then 16 else p
    (List.range (steps * (p / u))).map fun i =>
      toPair (Num.sum (((prods.drop (i * u)).take u).map fun q => q.1.mul q.2))

/-- Step sums added into an entry: the first replaces it where `ZERO` is 1 (R127, R139). -/
def enterSums (zero : Bool) (old : Word × Word) (l : List (Word × Word)) : Word × Word :=
  match zero, l with
  | true, f :: r => r.foldl pairAdd f
  | _, l => l.foldl pairAdd old

/-! ## Rotated tiles (R96) -/

/-- Rows of a tile from a row on, each checked whole against R71 and in the store where row `t` starts (R134);
the physical line of bank 0 of each. -/
def tileRows (e : Env) (t : Int) (rows : List Nat) : Option (List (Nat × Nat)) :=
  rows.foldr (fun (r : Nat) acc =>
    match acc with
    | none => none
    | some l =>
      let v := t + (r : Int)
      if v < 0 || 0x1000 ≤ v || t < 0 then none
      else if decide (v < 0x800) != decide (t < 0x800) then none
      else (chkLines e false (v.toNat * 16) 16).map fun p => (r, p) :: l) (some [])

/-- The physical lines of a tile's rows, checked or not (R73, R134). -/
def fieldTile (e : Env) (t : Int) (rows : List Nat) : List (Nat × Nat) :=
  rows.map fun r => (r, physLine e (t.toNat * 16 + r * 16))

/-- The physical line that a tile row number was found at. -/
def rowLine (l : List (Nat × Nat)) (r : Nat) : Nat := Table.getD l r 0

/-! ## Vectors in SRAM (R170, R171) -/

/-- Lines of a vector: element lines, and a scale line of an MX format. -/
def vecLines (fmt vl : Nat) : Nat := rowLines fmt vl

/-- One element of a vector as a slot word, and its flags (R170, R201). -/
def loadElem (fmt : Nat) (bytes : List Byte) (vl k : Nat) : Word × Nat :=
  let w := fmtBits fmt
  if fmt = 0 then (BitVec.ofNat 32 (leNat ((bytes.drop (4 * k)).take 4)), 0)
  else
    let c := packedGet bytes w k
    if fmt = 1 then (bf16Word c, 0)
    else if fmt = 9 then (BitVec.ofNat 32 c, 0)
    else if fmtIsMx fmt then
      let y := mxNum fmt c (bytes.getD (ceilDiv (vl * w) 512 * 64 + k / 32) 0)
      let r := round32 y
      (r, flagIf (y.isFin && !finite32 r) fOverflow)
    else (round32 (elemNum fmt c), 0)

/-- The bytes of packed elements laid over the bytes that were there: bits beyond the last element stay (R171). -/
def overlay (w : Nat) (codes : List Nat) (old : List Byte) : List Byte :=
  let n := codes.length * w
  let bytes := ceilDiv n 8
  let o := leNat (old.take bytes)
  leBytes bytes (packNat w codes + o / 2 ^ n * 2 ^ n)

/-! ## Bindings (R208, R211) -/

/-- The tensor whose bound range on this core holds a line: index, tensor, binding. -/
def tensorAt (e : Env) (line : Nat) : Option (Nat × Tensor × Bind) :=
  (List.range e.score.tensors.length).findSome? fun i =>
    match e.score.tensors[i]? with
    | some t => (t.binds.find? fun b => b.row == e.row && b.col == e.col && decide (b.first ≤ line) &&
        decide (line < b.first + b.lines)).map fun b => (i, t, b)
    | none => none

/-- A run's scale of a tensor (R214). -/
def sigmaOf (r : Run) (i : Nat) : Int := r.sigma.getD i 0

/-- A bar maximum met, as magnitude bits (R215). -/
def Run.sawMax (i bits : Nat) (r : Run) : Run :=
  { r with bmax := r.bmax.put i (max (r.bmax.getD i 0) bits) }

/-- A tensor overflows (R218). -/
def Run.overflowed (i : Nat) (r : Run) : Run :=
  { r with ovf := if r.ovf.contains i then r.ovf else r.ovf ++ [i] }

end Sys2Proof.Machine
end

