-- ==== Sys2Proof/Machine/Matrix.lean ====
section
/-! DEFINITION. The matrix unit (04 R104 to R134), column chains (05 R141 to R146) and the shadow check
(07 R229 to R232). -/

namespace Sys2Proof.Machine

/-- A store of the core meets an uncorrectable error as the instruction runs (20 R568). -/
def eccFault (e : Env) (store : Nat) (s : State) : State := coreError e.pid e.ghost store e.key e.row e.col s

/-- An instruction that reads and writes no line, slot, lane store or bank entry: a count of it is zero (R102), or no row is
live (R119, R132, 05 R145). -/
def touchesNone (e : Env) : CoreInsn → Bool
  | .ml f => f.lanes == 0 || f.ck == f.cpl
  | .mm f => f.depth == 0 || (liveRows e.ctx f.mrow (shapeT f.shape)).isEmpty
  | .md f => f.lanes == 0 || (liveRows e.ctx f.mrow (shapeT (bankShape e.ctx f.bank))).isEmpty
  | .mc f => f.lanes == 0 || (liveRows e.ctx f.mrow (shapeT (bankShape e.ctx f.bank))).isEmpty
  | .send f => f.len == 0
  | .recv f => f.len == 0
  | .vld f => f.vl == 0
  | .vst f => f.vl == 0
  | .roll f => f.vl == 0
  | .vperm f => f.vl == 0
  | _ => false

/-- An instruction body that may meet an uncorrectable error in a store of R568 when it would run: one that fails a check
reads no line (R71), and one that touches none meets no error. -/
def withEcc (c : CoreRef) (k : Ctl) (insn : CoreInsn) (ecc : Bool) (store : Nat) (body : Env → State → Act)
    (s : State) : Host.Outcome State Fault Refusal :=
  match ecc, envOf s c with
  | true, some e =>
    if noCore c || !issues s e ⟨k, insn⟩ || !predHolds e.ctx k || touchesNone e insn then
      issue c k insn (fun _ => none) body s
    else match body e s with
      | .wait => .next s
      | .fault code => .next (faultAt e code s)
      | .ok _ => .next (eccFault e store s)
  | _, _ => issue c k insn (fun _ => none) body s

/-! ## `ml` (R109 to R113) -/

/-- Chunks per load at most (R109). -/
def chunkMax (wf : Nat) : Nat := if wf = 6 || wf = 7 then 6 else 4

/-- Lane i's slice read from its tile (R110). -/
def laneSlice (core : Core) (f : MlF) (n : Nat) (lines : List (Nat × Nat)) (i : Nat) : LaneStore :=
  let w := fmtBits f.wfmt
  let g := ceilDiv f.lanes 16
  let bytes := (List.range n).flatMap fun k =>
    sramBytes core (rowLine lines (i / 16 * f.cpl + f.ck + k) + (i + f.ck + k) % 16) 0 64
  let elems := n * 512 / w
  let b := blockSize f.blk
  let first := f.ck * 512 / w / b
  { wfmt := f.wfmt, blk := f.blk, elems, codes := (List.range elems).map (packedGet bytes w),
    scales := if f.spl then
      sramBytes core (rowLine lines (g * f.cpl + i / 16) + i % 16) first (ceilDiv elems b) else [] }

/-- The lines an `ml` reads, lane by lane: its chunks and its scale line (R110). -/
def mlCells (f : MlF) (n : Nat) (lines : List (Nat × Nat)) : List (Nat × Nat) :=
  (List.range f.lanes).flatMap fun i =>
    ((List.range n).map fun k => (rowLine lines (i / 16 * f.cpl + f.ck + k) + (i + f.ck + k) % 16, 1)) ++
      (if f.spl then [(rowLine lines (ceilDiv f.lanes 16 * f.cpl + i / 16) + i % 16, 1)] else [])

/-- Chunks that an `ml` loads (R109). -/
def mlChunks (f : MlF) : Nat := min (chunkMax f.wfmt) (f.cpl - f.ck)

/-- The tile rows an `ml` reads: its chunks in each lane group, and the groups' scale rows (R110). -/
def mlRows (f : MlF) : List Nat :=
  let g := ceilDiv f.lanes 16
  ((List.range g).flatMap fun q => (List.range (mlChunks f)).map fun j => q * f.cpl + f.ck + j) ++
    (if f.spl then (List.range g).map fun q => g * f.cpl + q else [])

/-- `ml` (R110): the lane stores of lanes 0 to `LANES` − 1 are loaded, the others hold no slice. -/
def execMl (c : CoreRef) (k : Ctl) (f : MlF) (ecc : Bool) (s : State) : Host.Outcome State Fault Refusal :=
  withEcc c k (.ml f) ecc 1 (fun e s =>
    if f.lanes = 0 || f.ck = f.cpl then regBody id e s
    else if e.ctx.mmNow.isSome then .wait
    else
      let n := mlChunks f
      let t := (f.trow : Int) + sint (xRead e.ctx f.xa)
      if !linesFree e.ctx (mlCells f n (fieldTile e t (mlRows f))) [] then .wait
      else match tileRows e t (mlRows f) with
        | none => .fault cBounds
        | some lines =>
          let stores := (List.range f.lanes).map fun i => (i, laneSlice e.core f n lines i)
          regBody (fun c => { c with lanes := stores, lanesN := some f.lanes }) e s) s

/-! ## `mm` (R114 to R129, R134, R137 to R139) -/

/-- The mixing function of R229. -/
def mix64 (z : W64) : W64 :=
  let z := (z ^^^ (z >>> 30)) * 0xBF58476D1CE4E5B9#64
  let z := (z ^^^ (z >>> 27)) * 0x94D049BB133111EB#64
  z ^^^ (z >>> 31)

/-- The issue is selected for a shadow check (R229). -/
def shadowPick (bar row col n k : Nat) : Bool :=
  let key := mix64 (BitVec.ofNat 64 bar) ^^^ (BitVec.ofNat 64 row <<< 44) ^^^ (BitVec.ofNat 64 col <<< 36) ^^^
    BitVec.ofNat 64 n
  (mix64 key).toNat % 2 ^ k == 0

/-- Lines from one activation row of an `mm` to the next (R122). -/
def mmStride (f : MmF) : Nat := if f.astr = 0 then rowLines f.afmt f.depth else f.astr

/-- The live activation rows of an `mm`: row, physical line and lines; none where a line fails its check (R122,
R134). -/
def mmRows (e : Env) (f : MmF) (rows : List Nat) : Option (List (Nat × Nat × Nat)) :=
  let n := rowLines f.afmt f.depth
  (operandRows e false f.aline f.xa (mmStride f) n rows).map fun l => l.map fun p => (p.1, p.2, n)

/-- The products of one live row and lane within `DEPTH` (R121, R123). -/
def mmProducts (st : LaneStore) (act : List Num) (depth : Nat) : List (Num × Num) :=
  (List.range depth).map fun j => (st.elem j, act.getD j (.fin false 0 0))

/-- What an issue brings to its bank, and its own sums with their operands (R127, R230). -/
def mmCells (e : Env) (f : MmF) (rows : List (Nat × Nat × Nat)) :
    List (Nat × (Word × Word) × (Word × Word) × List (Num × Num)) :=
  let computing := e.ctx.lanes.filter fun p => decide (p.1 < shapeL f.shape) && decide (0 < p.2.elems)
  rows.flatMap fun r =>
    match e.ctx.lanes.head? with
    | none => []
    | some l0 =>
      let act := activation f.afmt l0.2.blk f.depth (sramBytes e.core r.2.1 0 (r.2.2 * 64))
      computing.map fun p =>
        let key := bankKey f.shape p.1 r.1
        let prods := mmProducts p.2 act f.depth
        let sums := stepSums p.2.wfmt f.afmt p.2.blk prods
        (key, enterSums f.zero (bankRead e.ctx f.bank key) sums, enterSums true (0, 0) sums, prods)

/-- `mm` (R114 to R128): it issues once its lines, lane stores and bank are free; its sums enter the bank at its
completion token. DESIGN CHOICE: an `mm` with no live row is a no-op (R119) even where `DEPTH` exceeds what a lane store
holds, since the second row of R134 does not say whether it asks for a live row. -/
def execMm (c : CoreRef) (k : Ctl) (f : MmF) (ecc : Bool) (s : State) : Host.Outcome State Fault Refusal :=
  withEcc c k (.mm f) ecc 1 (fun e s =>
    let rows := liveRows e.ctx f.mrow (shapeT f.shape)
    if e.ctx.mmNow.isSome || e.ctx.chains.any (fun m => m.f.bank == f.bank) || e.ctx.mcOut.any (·.2 == f.bank) ||
        (f.depth != 0 && !linesFree e.ctx (fieldRows e f.aline f.xa (mmStride f) (rowLines f.afmt f.depth) rows) []) then .wait
    else if rows.isEmpty || f.depth = 0 then regBody (fun c => { c with mmCount := c.mmCount + 1 }) e s
    else
      let n := e.ctx.lanesN.getD 0
      let short := (List.range (min (shapeL f.shape) n)).any fun i =>
        match e.ctx.lanes.get i with
        | some st => decide (st.elems < f.depth)
        | none => true
      if n = 0 || short then .fault cBounds
      else match mmRows e f rows with
        | none => .fault cBounds
        | some lines =>
          let rd := lines.map fun l => (l.2.1, l.2.2)
          let cells := mmCells e f lines
          let pick := e.job.f.shadowEn &&
            shadowPick e.run.bar e.row e.col e.ctx.mmCount e.job.f.shadowK
          let s := if pick then modNow e.slot (fun r => { r with
              shadowSel := r.shadowSel + 1, shadowDrop := r.shadowDrop + bit e.ctx.shadow.isSome }) s else s
          regBody (fun c => { c with
            mmCount := c.mmCount + 1,
            mmNow := some ⟨f, c.beat, rd, cells.map fun x => (x.1, x.2.1)⟩,
            shadow := if pick && c.shadow.isNone then
              some ⟨e.run.bar, c.mmCount, cells.map fun x => (x.2.2.1, x.2.2.2)⟩ else c.shadow }) e s) s

/-- A completion on a core: the unit whose step it is, whether or not the core executes its score now. -/
def onCore (c : CoreRef) (f : Env → State → State) (s : State) : Host.Outcome State Fault Refusal :=
  if noCore c then .fault .noSuchUnit
  else match envOf s c with
    | none => .next s
    | some e => .next (f e s)

/-- `MM_COMPLETION_TOKEN` (R129): the sums of the `mm` in flight are in the bank, whose shape it records. -/
def execMmCompletionToken (c : CoreRef) (s : State) : Host.Outcome State Fault Refusal :=
  onCore c (fun e s =>
    match e.ctx.mmNow with
    | none => s
    | some m => settle e (modCtx e.key e.ghost (fun c =>
        { bankWrite c m.f.bank m.f.shape m.cells with mmNow := none }) s)) s

/-! ## `md` (R130 to R132) -/

/-- The bytes of one drained row, and how many features saturated (R131). -/
def drainRow (c : CoreCtx) (f : MdF) (t : Nat) : List Byte × Nat :=
  let sh := bankShape c f.bank
  let cells := (List.range f.lanes).map fun n => bankRead c f.bank (bankKey sh n t)
  match f.dfmt with
  | 0 => (cells.flatMap fun p => leBytes 4 p.1.toNat, 0)
  | 1 => (cells.flatMap fun p => leBytes 4 p.1.toNat ++ leBytes 4 p.2.toNat, 0)
  | _ => (cells.flatMap fun p => leBytes 2 (pairBf16 p).1, (cells.filter fun p => (pairBf16 p).2).length)

/-- Bytes of a drained element (R131). -/
def drainWidth (dfmt : Nat) : Nat := [4, 8, 2].getD dfmt 4

/-- Lines of one drained row (R131). -/
def mdLines (f : MdF) : Nat := ceilDiv (f.lanes * drainWidth f.dfmt) 64

/-- Lines from one drained row to the next (R131). -/
def mdStride (f : MdF) : Nat := if f.dstr = 0 then mdLines f else f.dstr

/-- Destination lines of the live rows of an `md` (R131, R134). -/
def mdRows (e : Env) (f : MdF) (rows : List Nat) : Option (List (Nat × Nat)) :=
  operandRows e true f.dline f.xa (mdStride f) (mdLines f) rows

/-- `md` (R130 to R132): the live rows of a bank are written to core SRAM; the bank's entries stay, and it counts as
drained (02 R39). DESIGN CHOICE: where `DSTR` is below a row's lines the rows overlap, and the manual does not say whose bytes
stay; rows are written in ascending order, and the last one's do. -/
def execMd (c : CoreRef) (k : Ctl) (f : MdF) (ecc : Bool) (s : State) : Host.Outcome State Fault Refusal :=
  withEcc c k (.md f) ecc 2 (fun e s =>
    let busy := match e.ctx.mmNow with
      | some m => m.f.bank == f.bank
      | none => false
    let rows := liveRows e.ctx f.mrow (shapeT (bankShape e.ctx f.bank))
    if busy then .wait
    else if f.lanes = 0 then regBody id e s
    else if !linesFree e.ctx [] (fieldRows e f.dline f.xa (mdStride f) (mdLines f) rows) || !writeRoom e.ctx then .wait
    else if shapeL (bankShape e.ctx f.bank) < f.lanes then .fault cBounds
    else match mdRows e f rows with
      | none => .fault cBounds
      | some lines =>
        let out := lines.map fun l => (l.2, drainRow e.ctx f l.1)
        let s := modCore e.key (fun core => out.foldl (fun core o => sramWrite core o.1 0 o.2.1) core) s
        let s := modNow e.slot (fun r => { r with sats := r.sats + sumNat (out.map fun o => o.2.2) }) s
        regBody (bankDrained f.bank) e s) s

/-! ## `mc` and column chains (R133, R141 to R146) -/

/-- The core at a relative position heads a chain (R141). -/
def isHead (e : Env) (row : Nat) : Bool :=
  row == 0 || match e.score.cores[row * e.score.cols + e.col]? with
    | some p => p.chainHead
    | none => true

/-- The pairs an `mc` passes on: incoming first, then its own bank (R142). -/
def chainPairs (c : CoreCtx) (f : McF) (rows : List Nat) (incoming : List (Word × Word)) : List (Word × Word) :=
  let sh := bankShape c f.bank
  (List.range (rows.length * f.lanes)).map fun j =>
    pairAdd (incoming.getD j (0, 0)) (bankRead c f.bank (bankKey sh (j % f.lanes) (rows.getD (j / f.lanes) 0)))

/-- A stream sent on by an `mc` (R143), which is complete once the port below has taken all of it (R146). -/
def chainSend (e : Env) (m : McItem) (incoming : List (Word × Word)) (s : State) : State :=
  let c := ctxOf (getCore s e.key) e.ghost
  let s := if m.f.lanes = 0 then s else modCtx e.key e.ghost (bankDrained m.f.bank) s
  let s := modCtx e.key e.ghost (fun c => { c with mcOut := c.mcOut ++ [(m.beat, m.f.bank)] }) s
  { s with streams := s.streams ++
    [{ slot := e.slot, bar := e.run.bar, beat := m.beat, run := e.run.run, row := e.row, col := e.col,
       toLink := m.f.dir == 1, rows := if m.f.lanes = 0 then [] else m.rows, lanes := m.f.lanes,
       pairs := chainPairs c m.f m.rows incoming }] }

/-- The waiting `mc` instructions of a core take the streams that carry their beat, first issued first (R143); a
stream of another shape faults the partition. -/
def chainMatch : Nat → Env → State → State
  | 0, _, s => s
  | n + 1, e, s =>
    let core := getCore s e.key
    let c := ctxOf core e.ghost
    let mine (st : ChainStream) (m : McItem) :=
      st.slot == e.slot && st.bar == e.run.bar && st.run == e.run.run && st.col == e.col &&
        st.row + 1 == e.row && st.beat == m.beat
    match c.chains.find? fun m => core.chainBuf.any fun st => mine st m with
    | none => settle e s
    | some m =>
      match core.chainBuf.find? fun st => mine st m with
      | none => s
      | some st =>
        let s := modCore e.key (fun core => { core with chainBuf := core.chainBuf.erase st }) s
        let s := modCtx e.key e.ghost (fun c => { c with chains := c.chains.erase m }) s
        let rows := if m.f.lanes = 0 then [] else m.rows
        let empty := rows.isEmpty && st.rows.isEmpty
        if empty || (st.rows = rows && st.lanes = m.f.lanes) then chainMatch n e (chainSend e m st.pairs s)
        else faultAt e cBounds s

/-- `mc` (R133, R142 to R145): a head sends its bank; another core adds its bank to the stream from above. -/
def execMc (c : CoreRef) (k : Ctl) (f : McF) (ecc : Bool) (s : State) : Host.Outcome State Fault Refusal :=
  withEcc c k (.mc f) ecc 2 (fun e s =>
    let rows := liveRows e.ctx f.mrow (shapeT (bankShape e.ctx f.bank))
    let busy := match e.ctx.mmNow with
      | some m => m.f.bank == f.bank
      | none => false
    let below := e.row + 1
    if busy then .wait
    else if shapeL (bankShape e.ctx f.bank) < f.lanes then .fault cBounds
    else if f.dir = 1 && (below < e.score.rows || !e.score.anchored) then .fault cBounds
    else if f.dir = 0 && (e.score.rows ≤ below || isHead e below) then .fault cBounds
    else
      let m : McItem := ⟨f, rows, e.ctx.beat⟩
      let s := modCtx e.key e.ghost stepPc s
      if isHead e e.row then .ok (chainSend e m [] s)
      else
        let s := modCtx e.key e.ghost (fun c => { c with chains := c.chains ++ [m] }) s
        .ok (chainMatch (e.ctx.chains.length + 1) e s)) s

/-- The oldest `mc` of a stream's sender completes: the port below has taken its stream (R74, R146). -/
def chainTaken (st : ChainStream) (s : State) : State :=
  match envAt s st.slot st.row st.col with
  | none => s
  | some e => settle e (modCtx e.key e.ghost (fun c => { c with mcOut := c.mcOut.drop 1 }) s)

/-- A stream comes next from its sender: no earlier one of it is still in transit (R143). -/
def chainNext (s : State) (ix : Nat) (st : ChainStream) : Bool :=
  !(s.streams.take ix).any fun q => q.slot == st.slot && q.row == st.row && q.col == st.col

/-- The chain port of a core takes a stream: an `mc` waits for it and takes its rows as they come, or the four rows that
the port buffers for the slot have room for it (R146). -/
def chainRoom (e : Env) (st : ChainStream) : Bool :=
  e.ctx.chains.any (fun m => m.beat == st.beat) ||
    decide (sumNat ((e.core.chainBuf.filter (·.slot == st.slot)).map (·.rows.length)) + st.rows.length ≤ 4)

/-- `CHAIN_STREAM_ARRIVAL`: the stream numbered among those in transit reaches the core below its sender; streams of
one sender keep their order, and one that finds the port's buffer full stalls its `mc` (R143, R146). -/
def execChainStreamArrival (ix : Nat) (s : State) : Host.Outcome State Fault Refusal :=
  match s.streams[ix]? with
  | none => .next s
  | some st =>
    if st.toLink || !chainNext s ix st then .next s
    else match envAt s st.slot (st.row + 1) st.col with
      | none => .next (chainTaken st { s with streams := s.streams.eraseIdx ix })
      | some e =>
        if !chainRoom e st then .next s
        else
          let s := chainTaken st { s with streams := s.streams.eraseIdx ix }
          let s := modCore e.key (fun core => { core with chainBuf := core.chainBuf ++ [st] }) s
          .next (chainMatch (e.ctx.chains.length + 1) e s)

/-! ## Shadow check (R230 to R232) -/

/-- One element's comparison: none for d = 0, else ⌊−log2 d⌋ and whether d exceeds 2^−T (R231). -/
def shadowElem (t : Nat) (el : (Word × Word) × List (Num × Num)) : Option (Int × Bool) :=
  let prods := el.2.map fun p => round32 (p.1.mul p.2)
  let rs := prods.foldl add32 0
  let ru := pairWord el.1
  if finite32 rs && finite32 ru then
    let diff := ((num32 rs).add (num32 ru).neg).abs
    let total := Num.sum (prods.map fun p => (num32 p).abs)
    if diff.isZero then none
    else if total.isZero then some (0, true)
    else some (largestShift diff total, total.lt (diff.scale t))
  else if canon rs = canon ru then none else some (0, true)

/-- What the checks of a run found, counted at the run's verdict of commit or skip (R232, R233): samples, notices, the job's
counts; the third notice of a core within 24 h is a reason for service. -/
def countChecks (slot : Nat) (r : Run) (s : State) : State :=
  let s := r.heldMons.foldl (fun s m => monSample (m.1 / 256) (m.1 % 256) m.2 s) s
  let s := r.heldNotices.foldl (fun s n => raiseNotice n s) s
  let keys := r.heldNotices.map fun n => ((n.detail.getD 0 0).toNat) * 64 + (n.detail.getD 1 0).toNat
  let s := modJob slot (fun j => { j with
    shadowSel := satAt 0xFFFF (j.shadowSel + r.shadowSel), shadowMis := satAt 0xFFFF (j.shadowMis + r.shadowMis),
    shadowDrop := satAt 0xFFFF (j.shadowDrop + r.shadowDrop),
    shadowTold := if r.shadowTold then some r.bar else j.shadowTold,
    shadowTimes := (j.shadowTimes.filter fun t => decide (s.ptp.now < t / 1024 + 86400000000000)) ++
      keys.map fun k => s.ptp.now * 1024 + k % 1024 }) s
  match getJob s slot with
  | none => s
  | some j => keys.foldl (fun s k =>
      if 3 ≤ (j.shadowTimes.filter fun t => t % 1024 == k % 1024).length then serviceDue (slotBlock s slot) 2 k s else s) s

/-- What one check found joins a run: its sample, and a mismatch with at most one notice of the bar (R231). -/
def Run.checked (bad : Bool) (mon : Nat × Nat) (n : Notice) (r : Run) : Run :=
  { r with shadowMis := r.shadowMis + bit bad, heldMons := r.heldMons ++ [mon], shadowTold := r.shadowTold || bad,
           heldNotices := if bad && !r.shadowTold then r.heldNotices ++ [n] else r.heldNotices }

/-- `SHADOW_CHECK_DONE` (R230, R231): the issue in the buffer has been recomputed; what it found is held until the
verdict, and counts at once where the bar has been committed or skipped. While its run looks ahead it waits (R232). -/
def execShadowCheckDone (c : CoreRef) (s : State) : Host.Outcome State Fault Refusal :=
  if noCore c then .fault .noSuchUnit
  else
    let part := getPart s c.part
    match if c.ghost then part.ghost else part.primary with
    | none => .next s
    | some slot =>
      let key := coreKey part c.ghost (partWin s part) c.row c.col
      match getJob s slot, (ctxOf (getCore s key) c.ghost).shadow with
      | some j, some b =>
        if j.ahead.isSome then .next s
        else
          let found := b.els.filterMap (shadowElem j.f.shadowT)
          let k := (found.map (·.1)).foldl min 62
          let bad := found.any (·.2)
          let mon := (handOfCol (key % 64) * 256 + 202, if found.isEmpty then 63 else (max 0 k).toNat)
          let detail := leBytes 1 c.row ++ leBytes 1 c.col ++ leBytes 4 b.n ++ leBytes 2 (((-k) % 65536).toNat)
          let n : Notice := ⟨0x30, 2, c.part, b.bar, s.ptp.now, detail⟩
          let s := modCtx key c.ghost (fun c => { c with shadow := none }) s
          match j.cur with
          | some _ => .next (modNow slot (Run.checked bad mon n) s)
          | none =>
            let late : Run := { bar := b.bar, run := 0, strict := false, look := false, shadowTold := j.shadowTold == some b.bar }
            .next (countChecks slot (late.checked bad mon n) s)
      | _, _ => .next s

end Sys2Proof.Machine
end

