-- ==== Sys2Proof/Machine/Vector.lean ====
section
/-! DEFINITION. The vector engine (06 R164 to R194) and the stores of scaled tensors (07 R211, R212, R215, R218). -/

namespace Sys2Proof.Machine

/-! ## `vld` (R170, R173) -/

/-- `vld` (R170): VL elements become words 0 to VL − 1 of a slot. DESIGN CHOICE: the manual does not say whether an instruction of
count zero forms its address sum (R102, R602); `vld`, `vst`, `ml`, `mm` and `md` do not, while a `send` or `recv` of `LEN` 0, which
carries a tag, and a descriptor of no bytes do, and fault where the sum does. -/
def execVld (c : CoreRef) (k : Ctl) (f : VmF) (ecc : Bool) (s : State) : Host.Outcome State Fault Refusal :=
  withEcc c k (.vld f) ecc 1 (fun e s =>
    if f.vl = 0 then regBody id e s
    else
      let n := vecLines f.fmt f.vl
      if !linesFree e.ctx (fieldLines e f.line f.xa n) [] then .wait
      else match operandLines e false f.line f.xa 0 n with
        | none => .fault cBounds
        | some p =>
          let bytes := sramBytes e.core p.2 0 (n * 64)
          let els := (List.range f.vl).map (loadElem f.fmt bytes f.vl)
          regBody (fun c => (slotWrite c f.slot (els.map fun x => some x.1)).raise (orAll (els.map (·.2)))) e s) s

/-! ## `vst` (R171, R211, R212) -/

/-- Block scale exponent X of a block (R212): per block, or bounded by the tensor's scale. -/
def blockX (f : FpFmt) (native : Option Int) (ws : List Word) : Int :=
  let a := ws.foldl (fun a w => if finite32 w && (a < (abs32 w).toNat) then (abs32 w).toNat else a) 0
  let own : Int := if a = 0 then -127
    else max (-127) (-(largestShift (num32 (BitVec.ofNat 32 a)) (f.decode f.maxFin)))
  match native with
  | some sigma => min own (-sigma)
  | none => own

/-- One block of 32 converted: codes, scale byte, flags (R202, R212). A NaN, or an infinity the format cannot hold,
makes the block NaN in the formats without NaN. -/
def storeBlock (f : FpFmt) (native : Option Int) (ws : List Word) : List Nat × Byte × Nat :=
  let x := blockX f native ws
  let els := ws.map (storeElem f (-x))
  let flags := orAll (els.map (·.2))
  if f.nanCode.isNone && ws.any (fun w => !finite32 w) then
    (ws.map fun _ => 0, 0xFF, flags)
  else (els.map (·.1), BitVec.ofInt 8 (x + 127), flags)

/-- The blocks of a vector. -/
def blocksOf (ws : List Word) : List (List Word) :=
  (List.range (ceilDiv ws.length 32)).map fun b => (ws.drop (b * 32)).take 32

/-- How a `vst` takes its scale (R211): per-tensor σ, native σ, or neither. -/
structure VstScale where
  tensor : Option Nat := none
  sigma : Int := 0
  native : Option Int := none
  deriving DecidableEq, Repr, Inhabited

/-- The scale of a `vst`'s format at a bound range (R211, R224). -/
def vstScale (e : Env) (fmt : Nat) : Option (Nat × Tensor × Bind) → VstScale
  | none => {}
  | some (i, t, _) =>
    if t.fmt = 0 || fmt < 2 || fmt = 9 then {}
    else if fmt ≤ 3 then { tensor := some i, sigma := sigmaOf e.run i }
    else { tensor := some i, native := if t.perBlock || e.run.cold != 0 then none else some (sigmaOf e.run i) }

/-- What a `vst` writes: packed codes, scale bytes, flags. -/
def vstCodes (fmt : Nat) (sc : VstScale) (ws : List Word) : List Nat × List Byte × Nat :=
  if fmt = 0 then (ws.map BitVec.toNat, [], orAll (ws.map nonfinIn))
  else if fmt = 9 then (ws.map fun w => w.toNat % 65536, [], 0)
  else if fmtIsMx fmt then
    let bs := (blocksOf ws).map (storeBlock (fmtOfCode fmt) sc.native)
    (bs.flatMap (·.1), bs.map (·.2.1), orAll (bs.map (·.2.2)) ||| orAll (ws.map nonfinIn))
  else
    let els := ws.map (storeElem (fmtOfCode fmt) sc.sigma)
    (els.map (·.1), [], orAll (els.map (·.2)) ||| orAll (ws.map nonfinIn))

/-- `vst` (R171, R173, R211, R212): words 0 to VL − 1 of a slot go to core SRAM; what a scaled tensor's range takes
counts toward its bar maximum, and its saturation is an overflow (R215, R218). -/
def execVst (c : CoreRef) (k : Ctl) (f : VmF) (ecc : Bool) (s : State) : Host.Outcome State Fault Refusal :=
  withEcc c k (.vst f) ecc 2 (fun e s =>
    if f.vl = 0 then regBody id e s
    else
      let n := vecLines f.fmt f.vl
      if !linesFree e.ctx [] (fieldLines e f.line f.xa n) || !writeRoom e.ctx then .wait
      else match operandLines e true f.line f.xa 0 n with
      | none => .fault cBounds
      | some p =>
        let bound := tensorAt e p.1
        let past := match bound with
          | some (_, _, b) => decide (b.first + b.lines < p.1 + n)
          | none => false
        if past then .fault cBounds
        else
          let ws := (List.range f.vl).map (slotWord e.ctx f.slot)
          let sc := vstScale e f.fmt bound
          let out := vstCodes f.fmt sc ws
          let w := fmtBits f.fmt
          let old := sramBytes e.core p.2 0 (n * 64)
          let le := ceilDiv (f.vl * w) 512
          let s := modCore e.key (fun core =>
            sramWrite (sramWrite core p.2 0 (overlay w out.1 old)) (p.2 + le) 0 out.2.1) s
          let s := match sc.tensor with
            | none => s
            | some i =>
              let m := ws.foldl (fun a x => if finite32 x then max a (abs32 x).toNat else a) 0
              let sat := out.2.2 / fSat % 2 == 1
              modNow e.slot (fun r => let r := r.sawMax i m
                if sat then r.overflowed i else r) s
          regBody (CoreCtx.raise out.2.2) e s) s

/-! ## `roll` (R178 to R187) -/

/-- The view of an input word (R178). -/
def viewWord (v : Nat) (w : Word) : Word := if v = 1 then w &&& 0xFFFF0000#32 else w

/-- The inputs of a roll as its stages see them. -/
structure RollIn where
  a : List Word
  b : List Word
  c : List Word
  deriving DecidableEq, Repr, Inhabited

/-- The operand a selector names at element j (R180). -/
def rollOperand (inp : RollIn) (st : Stage) (done : List (List Word)) (sel j : Nat) : Word :=
  match sel with
  | 0 => inp.a.getD j 0
  | 1 => inp.b.getD j 0
  | 2 => inp.c.getD j 0
  | 3 => st.imm
  | 12 => 0
  | 13 => 0x3F800000#32
  | n => (done.getD (n - 4) []).getD j 0

/-- The selectors an operation uses (R181). -/
def stageUses (st : Stage) : List Nat :=
  match st.opc with
  | 0 => if st.sub ≤ 2 then [st.x, st.y, st.z] else [st.x, st.y]
  | 1 => if st.sub ≤ 1 then [st.x, st.y] else [st.x]
  | 2 => [st.x, st.y, st.z]
  | _ => [st.x]

/-- An element-wise stage at one element (R175, R176). -/
def stageElem (st : Stage) (x y z : Word) : Word × Nat :=
  match st.opc with
  | 0 => fmaOp st.sub x y z
  | 1 => minMaxOp st.sub x y
  | 2 => (canon (if condHolds st.sub x y then z else st.imm), 0)
  | 3 => convertOp st.sub x
  | 4 => expOp (st.sub == 1) x
  | 5 => logOp (st.sub == 1) x
  | 6 => recipOp x
  | 7 => rsqrtOp x
  | _ => tanhOp x

/-- A stage reads a word of a slot as a number (R176 `NONFIN_IN`): an integer word is none. -/
def readsNumber (st : Stage) : Bool := !(st.opc == 3 && st.sub == 8)

/-- One stage over all elements below VL (R183, R184). -/
def rollStage (inp : RollIn) (live : List Bool) (vl : Nat) (done : List (List Word)) (st : Stage) :
    List (Word × Nat) :=
  let opnd := rollOperand inp st done
  let fromSlots (j : Nat) : Nat := if readsNumber st then
    orAll (((stageUses st).filter (· < 3)).map fun sel => nonfinIn (opnd sel j)) else 0
  if st.opc = 9 then
    let r := reduceOp st.sub st.grp live ((List.range vl).map (opnd st.x))
    (List.range vl).map fun j => let q := r.getD j (0, 0)
      (q.1, q.2 ||| fromSlots j)
  else (List.range vl).map fun j =>
    let q := stageElem st (opnd st.x j) (opnd st.y j) (opnd st.z j)
    (q.1, q.2 ||| fromSlots j)

/-- All stages in order: results per stage, and the flags of the live elements (R183, R192). -/
def rollStages (inp : RollIn) (live : List Bool) (vl : Nat) :
    List Stage → List (List Word) → Nat → List (List Word) × Nat
  | [], done, fl => (done, fl)
  | st :: r, done, fl =>
    let out := rollStage inp live vl done st
    let f := orAll ((List.range vl).map fun j => if live.getD j false then (out.getD j (0, 0)).2 else 0)
    rollStages inp live vl r (done ++ [out.map (·.1)]) (fl ||| f)

/-- An output of a roll: the words of its live elements, and their flags (R178, R183). -/
def rollOut (res : List (List Word)) (live : List Bool) (o : Nat × Bool) : List (Option Word) × Nat :=
  let ws := res.getD o.1 []
  let els := (List.range ws.length).map fun j =>
    if live.getD j false then
      (if o.2 then
        let w := ws.getD j 0
        let c := fmtBf16.convert (num32 w)
        (some (bf16Word c.1), flagIf c.2 fSat)
      else (some (ws.getD j 0), 0))
    else (none, 0)
  (els.map (·.1), orAll (els.map (·.2)))

/-- `roll` (R183): every input is read before any output is written (R169). -/
def execRoll (c : CoreRef) (k : Ctl) (f : RollF) (ecc : Bool) (s : State) : Host.Outcome State Fault Refusal :=
  withEcc c k (.roll f) ecc 2 (fun e s =>
    match e.prog.rolls[f.rd]? with
    | none => regBody id e s
    | some r =>
      let live := (List.range f.vl).map fun j => (mRead e.ctx f.mv).getLsbD j
      let input (v slot : Nat) := (List.range f.vl).map fun j => viewWord v (slotWord e.ctx slot j)
      let inp : RollIn := ⟨input r.viewA f.sa, input r.viewB f.sb, input r.viewC f.sc⟩
      let res := rollStages inp live f.vl r.stages [] 0
      let put (o : Option (Nat × Bool)) (slot : Nat) (c : CoreCtx) : CoreCtx :=
        match o with
        | none => c
        | some q => let w := rollOut res.1 live q
          (slotWrite c slot w.1).raise w.2
      regBody (fun c => (put r.outE f.se (put r.outD f.sd c)).raise res.2) e s) s

/-! ## `vperm`, `vflag` (R188, R189, R193) -/

/-- `vperm` (R188): each word of the index slot names a source word, or gives +0 and the flag; a score may make an
index out of range a fault (R189). -/
def execVperm (c : CoreRef) (k : Ctl) (f : VpermF) (ecc : Bool) (s : State) : Host.Outcome State Fault Refusal :=
  withEcc c k (.vperm f) ecc 2 (fun e s =>
    let ixs := (List.range f.vl).map fun j => sint (slotWord e.ctx f.idx j)
    let outside := ixs.any fun i => i < 0 || (f.vl : Int) ≤ i
    if outside && e.score.permFaults then .fault cPermRange
    else
      let ws := ixs.map fun i => some (if i < 0 || (f.vl : Int) ≤ i then 0 else slotWord e.ctx f.src i.toNat)
      regBody (fun c => (slotWrite c f.dst ws).raise (flagIf outside fPermRange)) e s) s

/-- `vflag` (R193): the flags go to an index register, and are cleared where asked. -/
def execVflag (c : CoreRef) (k : Ctl) (xd : Nat) (clr : Bool) (s : State) : Host.Outcome State Fault Refusal :=
  issue c k (.vflag xd clr) (fun _ => none) (regBody fun c =>
    let c' := xWrite c xd c.flags
    if clr then { c' with flags := 0 } else c') s

end Sys2Proof.Machine
end

