-- ==== Sys2Proof/Machine/Transfer.lean ====
section
/-! DEFINITION. Messages (02 R33 to R36, R40, R49, 03 R90 to R93, 14 R603), the DMA engine (03 R94 to R100, 10 R299,
R301, R311, R312, 09 R267, 20 R570) and the scrub of a partition (02 R53). -/

namespace Sys2Proof.Machine

/-! ## Sources of a reduction and its holding buffer (05 R148, R151) -/

/-- The contributions of a reduction in source-list order: list entry and sending rank (R148, R605). -/
def redSequence (sc : Score) (rank : Nat) (d : Reduction) : List (Nat × Nat) :=
  (List.range d.sources.length).flatMap fun (i : Nat) => match d.sources[i]? with
    | some (Source.chain _ _) => [(i, rank)]
    | some (Source.route r) => (match sc.routes[r]? with
      | some rt => (routeSources sc rt rank).map fun q => (i, q)
      | none => [])
    | none => []

/-- The reduction whose `DEST` is a route (R149). -/
def feeder (sc : Score) (route : Nat) : Option Reduction := sc.reductions.find? fun d => d.dest == route

/-- The reduction and list entry that take a chain intake (R149). -/
def chainTaker (sc : Score) (col beat : Nat) : Option (Nat × Nat) :=
  (List.range sc.reductions.length).findSome? fun i => match sc.reductions[i]? with
    | some d => (List.range d.sources.length).findSome? fun k =>
        if d.sources[k]? = some (.chain col beat) then some (i, k) else none
    | none => none

/-- The list entry of a reduction that names a route. -/
def routeEntry (d : Reduction) (route : Nat) : Option Nat :=
  (List.range d.sources.length).find? fun k => decide (d.sources[k]? = some (.route route))

/-- The first column of a slot's cores: its partition's, and for a ghost its rest rectangle's in it (02 R55, R70). -/
def firstCol (s : State) (slot : Nat) : Nat := match slotPart s slot with
  | some (p, ghost) => (getPart s p).col + (if ghost then (partWin s (getPart s p)).col0 else 0)
  | none => 0

/-- The hand whose link interface runs a reduction of a slot's score (R606). -/
def redHand (s : State) (slot : Nat) (sc : Score) (d : Reduction) : Nat :=
  match d.sources.findSome? fun x => match x with
    | .chain c _ => some (handOfCol (firstCol s slot + c))
    | .route _ => none with
  | some h => h
  | none => match d.sources.findSome? fun x => match x with
      | .route r => (sc.routes[r]?).map (·.hand)
      | .chain _ _ => none with
    | some h => h
    | none => 0

def getRed (r : Run) (i : Nat) : RedState := r.reds.getD i {}

/-- The contribution that a reduction adds next (R150). -/
def redTurn (seq : List (Nat × Nat)) (x : RedState) : Option (Nat × Nat) := seq[x.taken.length]?

/-- Bytes of a reduction's contributions that have arrived before their turn (R151). -/
def redEarly (seq : List (Nat × Nat)) (x : RedState) : Nat :=
  sumNat (x.held.map fun c => 8 * c.pairs.length) +
    sumNat (x.partials.map fun p => if redTurn seq x = some (p.1 / 1024, p.1 % 1024) then 0 else p.2.length)

/-- Bytes in the holding buffer of a hand's link interface (R151). -/
def holdBytes (s : State) (hand : Nat) : Nat :=
  sumNat (s.slots.map fun p => match p.2.job, p.2.score with
    | some j, some sc => match j.now with
      | some run => sumNat ((List.range sc.reductions.length).map fun i => match sc.reductions[i]? with
        | some d => if d.mode = 2 || redHand s p.1 sc d != hand then 0 else redEarly (redSequence sc j.rank d) (getRed run i)
        | none => 0)
      | none => 0
    | _, _ => 0)

/-- A link interface takes bytes of a contribution: in exact mode, in its turn, or while the 4 MiB of the holding buffer have
room (R151, R155). -/
def mayTake (s : State) (slot : Nat) (sc : Score) (j : Job) (run : Run) (i : Nat) (d : Reduction) (c : Nat × Nat)
    (bytes : Nat) : Bool :=
  let x := getRed run i
  let seq := redSequence sc j.rank d
  d.mode == 2 || x.delivered || x.taken.contains c || redTurn seq x == some c ||
    decide (holdBytes s (redHand s slot sc d) + bytes ≤ 4194304)

/-- A core has send credit for a link route: the reduction on this device that the route leads into takes its message (R151). -/
def sendCredit (s : State) (e : Env) (route : Nat) : Bool :=
  match e.score.routes[route]? with
  | none => true
  | some rt =>
    if rt.kind != 2 || routeDest e.score rt e.job.rank != some e.job.rank then true
    else match e.score.reductions[rt.target]? with
      | none => true
      | some d => match routeEntry d route with
        | none => true
        | some k => mayTake s e.slot e.score e.job e.run rt.target d (k, e.job.rank) 0

/-! ## Inbox credit (R91) -/

def msgFlits (lines : Nat) : Nat := ceilDiv lines 2

/-- Credit for a message in its slot's pool of a router's inbox: data space and tag entries, those still on their way
to it counted (R90, R91). -/
def inboxCredit (s : State) (key slot row col : Nat) (ghost : Bool) (lines : Nat) : Bool :=
  let here := (getCore s key).inbox.filter (·.slot == slot)
  let coming := s.net.filter fun m => m.slot == slot && m.route.isNone && m.dstRow == row && m.dstCol == col
  let used := sumNat ((here ++ coming).map fun m => msgFlits m.lines)
  decide (used + msgFlits lines ≤ (if ghost then 128 else 384)) &&
    decide (here.length + coming.length < (if ghost then 64 else 192))

/-! ## `send` (R90, R93) -/

/-- The counter of messages a core sent to one destination with one tag (R90). -/
def sentKey (dk dest beat : Nat) : Nat := (dk * 1024 + dest) * 65536 + beat

/-- `send` (R90, R93, R49, R415): `LEN` lines leave as one message, to a core or onto a link route. -/
def execSend (c : CoreRef) (k : Ctl) (f : SendF) (ecc : Bool) (s : State) : Host.Outcome State Fault Refusal :=
  withEcc c k (.send f) ecc 1 (fun e s =>
    if !linesFree e.ctx (fieldLines e f.sline f.xa f.len) [] then .wait
    else match operandLines e false f.sline f.xa 0 f.len with
    | none => .fault cBounds
    | some p =>
      let key := sentKey f.dk f.dest e.ctx.beat
      let n := e.ctx.sent.getD key 0
      let row := f.dest / 64
      let col := f.dest % 64
      let m : Msg := { slot := e.slot, bar := e.run.bar, beat := e.ctx.beat, run := e.run.run, prov := e.run.look,
                       route := if f.dk = 1 then some f.dest else none, srcRank := e.job.rank, srcRow := e.row,
                       srcCol := e.col, dstRow := row, dstCol := col, seq := n % 65536, lines := f.len,
                       data := sramBytes e.core p.2 0 (f.len * 64) }
      let go (s : State) : Act := regBody (fun c => { c with sent := c.sent.put key (n + 1) }) e
        { s with net := s.net ++ [m] }
      if f.dk = 0 then
        if e.score.rows ≤ row || e.score.cols ≤ col then .fault cEdgeFilter
        else
          let dst := coreKey e.part e.ghost e.win row col
          if inboxCredit s dst e.slot row col e.ghost f.len then go s else .wait
      else match (e.score.routes[f.dest]?).bind fun r => routeDest e.score r e.job.rank with
        | none => .fault cBounds
        | some _ =>
          if !sendCredit s e f.dest then .wait
          else match go s with
            | .ok s => .ok (linkService e.slot s)
            | a => a) s

/-! ## `recv` and arrivals (R34, R90, R92, R603) -/

/-- A message answers a `recv` (R34). -/
def answers (e : Env) (r : RecvItem) (m : Msg) : Bool :=
  m.slot == e.slot && m.bar == e.run.bar && m.run == e.run.run && m.beat == r.want && m.route == r.route &&
    (r.route.isSome || (m.srcRow == r.row && m.srcCol == r.col))

/-- The sequence number lies before another, modulo 65,536 (R90). -/
def seqBefore (a b : Nat) : Bool := a != b && (b + 65536 - a) % 65536 < 32768

/-- A message of a core is delivered once no earlier one of its source and tag is still to come (R90). -/
def inTurn (s : State) (row col : Nat) (inbox : List Msg) (m : Msg) : Bool :=
  m.route.isSome || !(inbox ++ s.net).any fun q => sameTag q m && q.srcRow == m.srcRow && q.srcCol == m.srcCol &&
    q.dstRow == row && q.dstCol == col && seqBefore q.seq m.seq

/-- Waiting `recv` instructions take their messages in issue order; a length that differs faults (R92). -/
def recvMatch : Nat → Env → State → State
  | 0, _, s => s
  | n + 1, e, s =>
    let core := getCore s e.key
    let c := ctxOf core e.ghost
    let pick (r : RecvItem) := core.inbox.find? fun m => answers e r m && inTurn s e.row e.col core.inbox m
    match c.recvs.find? fun r => (pick r).isSome with
    | none => settle e s
    | some r => match pick r with
      | none => s
      | some m =>
        let s := modCore e.key (fun core => { core with inbox := core.inbox.erase m }) s
        let s := modCtx e.key e.ghost (fun c => { c with recvs := c.recvs.erase r }) s
        if m.lines != r.len then faultAt e cBounds s
        else recvMatch n e (modCore e.key (fun core => sramWrite core r.line 0 m.data) s)

/-- `recv` (R92): it waits for its message, and later instructions go on. -/
def execRecv (c : CoreRef) (k : Ctl) (f : RecvF) (ecc : Bool) (s : State) : Host.Outcome State Fault Refusal :=
  withEcc c k (.recv f) ecc 1 (fun e s =>
    if !linesFree e.ctx [] (fieldLines e f.dline f.xa f.len) || !writeRoom e.ctx then .wait
    else match operandLines e true f.dline f.xa 0 f.len with
      | none => .fault cBounds
      | some p =>
        let r : RecvItem := ⟨if f.sk = 1 then some f.src else none, f.src / 64, f.src % 64,
          if f.bsrc then (xRead e.ctx f.xb).toNat else e.ctx.beat, p.2, f.len, e.ctx.beat⟩
        let s := modCtx e.key e.ghost (fun c => stepPc { c with recvs := c.recvs ++ [r] }) s
        .ok (recvMatch (e.ctx.recvs.length + 1) e s)) s

/-- A rank has no further message with a tag on a route (R603): for this rank its senders are past it, for another a
close frame says so. -/
def rankDone (s : State) (sc : Score) (j : Job) (run : Run) (slot route beat rank : Nat) : Bool :=
  if rank = j.rank then (routeSenders sc route).all (senderPast s slot beat)
  else run.closes.any fun c => c.1 == route && c.2.1 == rank && decide (beat ≤ c.2.2)

/-- A message on a route is next in the order of R603 at its receiver. -/
def routeTurn (s : State) (sc : Score) (j : Job) (run : Run) (route : Nat) (m : Msg) : Bool :=
  match sc.routes[route]? with
  | none => false
  | some rt =>
    ((routeSources sc rt j.rank).filter (· < m.srcRank)).all (rankDone s sc j run m.slot route m.beat) &&
      !s.net.any (fun q => sameTag q m && (decide (q.srcRank < m.srcRank) ||
        (q.srcRank == m.srcRank && m.srcRank != j.rank && decide (q.seq < m.seq)))) &&
      (m.srcRank != j.rank || localNext s sc m)

/-- A message of the primary raises a claim where it reaches a resting core at or after the window's end (R59). -/
def arrivalClaim (e : Env) (m : Msg) (s : State) : State :=
  if e.ghost then s
  else match (getCore s e.key).rest with
    | none => s
    | some wi => match e.score.rests[wi]? with
      | some w => if w.stop ≤ m.beat then modPart e.pid (fun p => { p with claim := some wi }) s else s
      | none => s

/-- A message enters an inbox; it is taken, waits, or is an orphan (R35, R40). -/
def deliver (e : Env) (m : Msg) (s : State) : State :=
  let s := modCore e.key (fun core => { core with inbox := core.inbox ++ [m] }) s
  let s := recvMatch (e.ctx.recvs.length + 1) e (arrivalClaim e m s)
  if allEnded s e.part e.ghost e.score && orphans s e && partRuns (getPart s e.pid) then faultAt e cBeatOrphan s else s

/-- `MESSAGE_ARRIVAL`: a message in the fabric reaches its router, from a core or from a link route of kind 0 or 1
in the order of R603 (R90, R93). -/
def execMessageArrival (ix : Nat) (ecc : Bool) (s : State) : Host.Outcome State Fault Refusal :=
  match s.net[ix]? with
  | none => .next s
  | some m =>
    match getJob s m.slot, (getSlot s m.slot).score with
    | some j, some sc =>
      let dst : Option (Nat × Nat) := match m.route with
        | none => some (m.dstRow, m.dstCol)
        | some r => match sc.routes[r]?, j.runOf m.bar m.run with
          | some rt, some run =>
            if (rt.kind = 0 || rt.kind = 1) && routeDest sc rt m.srcRank == some j.rank &&
                routeTurn s sc j run r m then some (routeCore rt) else none
          | _, _ => none
      match dst with
      | none => .next s
      | some d => match envAt s m.slot d.1 d.2 with
        | none => .next s
        | some e =>
          let s' := returnUnits false m.held { s with net := s.net.eraseIdx ix }
          if m.route.isSome && !inboxCredit s' e.key m.slot d.1 d.2 e.ghost m.lines then .next s
          else if ecc then .next (eccFault e 1 s') else .next (deliver e m s')
    | _, _ => .next s

/-! ## DMA (R94 to R100) -/

/-- The memory rows of a descriptor: address and length (R95). -/
def dmaRows (d : DmaItem) : List (Nat × Nat) :=
  if d.desc.rowBytes = 0 then []
  else (List.range d.desc.rows).map fun r => (d.mem + r * d.desc.memStride, d.desc.rowBytes)

/-- The first memory byte with the `XO` offset, exact and signed (R602). -/
def dmaAddr (d : Desc) (x : Word) : Option Nat :=
  let v : Int := (d.memAddr : Int) + sint x * 2 ^ d.xshift
  if v < 0 || 2 ^ 56 ≤ v then none else some v.toNat

/-- All line ranges of one side pass R71 and lie in the store of the first; the shift to physical lines. -/
def checkRanges (e : Env) (wr : Bool) (l : List (Nat × Nat)) : Option (Nat × Nat) :=
  match l with
  | [] => some (0, 0)
  | a :: _ =>
    if l.all fun r => (chkLines e wr r.1 r.2).isSome && decide (r.1 < 0x4000) == decide (a.1 < 0x4000) then
      (chkLines e wr a.1 a.2).map fun p => (a.1, p)
    else none

/-- The item a descriptor becomes, with physical core lines, once both its ranges pass (R98); none is `BOUNDS`. -/
def dmaItem (s : State) (e : Env) (d : Desc) (xo : Nat) : Option DmaItem :=
  match dmaAddr d (xRead e.ctx xo) with
  | none => none
  | some a =>
    let it : DmaItem := ⟨d, a, e.ctx.beat, e.run.look⟩
    if d.rows = 0 || d.rowBytes = 0 then some it
    else match checkRanges e (!d.toMem) (descLines d) with
      | none => none
      | some sh =>
        let it := { it with desc := { d with coreLine := d.coreLine + sh.2 - sh.1 } }
        if tierOf a = 0 then
          if (dmaRows it).all fun r => decide (r.1 + r.2 ≤ 0x400000) then
            match checkRanges e d.toMem (memSideLines it) with
            | none => none
            | some m => some { it with mem := a + m.2 * 64 - m.1 * 64 }
          else none
        else if (dmaRows it).all fun r => (coreAccess s e.slot e.run.bar d.toMem r.1 r.2).isSome then some it
        else none

/-- Counter of a descriptor advanced (R100). DESIGN CHOICE: the manual gives a counter no width, and nothing reads its value;
it wraps at 2^32. -/
def bumpCounter (n : Nat) (c : CoreCtx) : CoreCtx :=
  { c with ctrs := c.ctrs.setIfInBounds n ((c.ctrs[n]?.getD 0 + 1) % 2 ^ 32) }

/-- The lines of a descriptor that fails a check are free, so that it issues, and faults (R73, R98). -/
def dmaFree (e : Env) (d : Desc) (xo : Nat) : Bool :=
  let phys (l : List (Nat × Nat)) := l.map fun r => (physLine e r.1, r.2)
  let core := phys (descLines d)
  let mem := match dmaAddr d (xRead e.ctx xo) with
    | some a => phys (memSideLines ⟨d, a, e.ctx.beat, e.run.look⟩)
    | none => []
  let rd := if d.toMem then core else mem
  let wr := if d.toMem then mem else core
  d.rows == 0 || d.rowBytes == 0 || (linesFree e.ctx rd wr && (wr.isEmpty || writeRoom e.ctx))

/-- `dma` (R98): the ranges of a descriptor are checked and it is queued; one that moves no byte completes at once
(R102). -/
def execDma (c : CoreRef) (k : Ctl) (desc xo : Nat) (s : State) : Host.Outcome State Fault Refusal :=
  issue c k (.dma desc xo) (fun _ => none) (fun e s =>
    match e.prog.plan[desc]? with
    | none => .fault cBounds
    | some d => match dmaItem s e d xo with
      | none => if dmaFree e d xo then .fault cBounds else .wait
      | some it =>
        if d.rows = 0 || d.rowBytes = 0 then regBody (bumpCounter d.counter) e s
        else
          let core := descLines it.desc
          let mem := memSideLines it
          let rd := if d.toMem then core else mem
          let wr := if d.toMem then mem else core
          if !linesFree e.ctx rd wr || (!wr.isEmpty && !writeRoom e.ctx) then .wait
          else regBody (fun c => { c with dmas := c.dmas ++ [it] }) e s) s

/-- Two descriptors' memory ranges keep their order (R99): one of them writes what both touch. -/
def dmaClash (a b : DmaItem) : Bool :=
  (a.desc.toMem || b.desc.toMem) && anyOverlap (dmaRows a) (dmaRows b)

/-- A queued descriptor has started: those before it in its queue have, and no earlier one holds it back (R99). -/
def dmaStarted (l : List DmaItem) (ix : Nat) : Bool :=
  match l[ix]? with
  | none => false
  | some d => (List.range (ix + 1)).all fun i => match l[i]? with
    | some x => x.desc.queue != d.desc.queue || !(l.take i).any (dmaClash x)
    | none => true

/-- Where byte `b` of memory row `r` lies in core SRAM (R96): line and byte. -/
def dmaPlace (d : Desc) (r b : Nat) : Nat × Nat :=
  let t := d.coreLine / 16
  match d.layout with
  | 0 => (d.coreLine + r * d.coreStride + b / 64, b % 64)
  | 1 => let k := b / 64
    ((t + r / 16 * ceilDiv d.rowBytes 64 + k) * 16 + (r + k) % 16, b % 64)
  | 2 =>
    let es := fmtBits d.fmt / 8
    let lane := b / es
    let k := r / (64 / es)
    ((t + lane / 16 * ceilDiv d.rows (64 / es) + k) * 16 + (lane + k) % 16, r % (64 / es) * es + b % es)
  | _ => ((t + r / 16) * 16 + r % 16, b)

/-- Lines that a memory-to-core transfer fills with zeros beyond its bytes (R97): the last line or chunk of each row,
or of each lane in layout 2. -/
def dmaTails (d : Desc) : List Nat :=
  match d.layout with
  | 2 =>
    let es := fmtBits d.fmt / 8
    (List.range (d.rowBytes / es)).map fun lane => (dmaPlace d (d.rows - 1) (lane * es)).1
  | _ => (List.range d.rows).map fun r => (dmaPlace d r (d.rowBytes - 1)).1

/-- The byte of memory behind one row of a descriptor. -/
def dmaReadByte (s : State) (e : Env) (run : Run) (core : Core) (a : Nat) : Byte :=
  if tierOf a = 0 then Mem.read core.sram a
  else match coreAccess s e.slot run.bar false a 1 with
    | some r => readCoreByte s e.job run r a
    | none => 0

/-- The byte ranges of the tiers that a core-to-memory descriptor writes. -/
def dmaWrites (s : State) (e : Env) (run : Run) (it : DmaItem) : List (Nat × Nat) :=
  (dmaRows it).flatMap fun r => match coreAccess s e.slot run.bar true r.1 r.2 with
    | some g => touchedRanges s e.job run g true r.1 r.2
    | none => []

/-- Bytes of a row that move: of a transposed tile whole elements, one for each lane (R96). -/
def dmaWidth (d : Desc) : Nat :=
  if d.layout = 2 then d.rowBytes / (fmtBits d.fmt / 8) * (fmtBits d.fmt / 8) else d.rowBytes

/-- The bytes of a descriptor move (R96, R97, R301, R312). -/
def dmaMove (e : Env) (run : Run) (it : DmaItem) (s : State) : State :=
  let d := it.desc
  let core := getCore s e.key
  let cells := (List.range d.rows).flatMap fun r => (List.range (dmaWidth d)).map fun b =>
    (it.mem + r * d.memStride + b, dmaPlace d r b)
  if d.toMem then
    if tierOf it.mem = 0 then
      modCore e.key (fun c => { c with sram := cells.foldl (fun m x =>
        Mem.write m x.1 (Mem.read core.sram (x.2.1 * 64 + x.2.2))) c.sram }) s
    else
      writeTiers (dmaWrites s e run it) (cells.foldl (fun m x =>
          match coreAccess s e.slot run.bar true x.1 1 with
          | some r => writeCoreByte s e.job run r x.1 (Mem.read core.sram (x.2.1 * 64 + x.2.2)) m
          | none => m) s.mem) s
  else
    let cleared (m : List Host.Cell) := (dmaTails d).foldl (fun m l => Mem.clear m (l * 64) 64) m
    let put (m : List Host.Cell) (x : Nat × Nat × Nat) :=
      Mem.write m (x.2.1 * 64 + x.2.2) (dmaReadByte s e run core x.1)
    modCore e.key (fun c => { c with sram := cells.foldl put (cleared c.sram) }) s

/-- What a descriptor that meets a poisoned page does (20 R570). -/
inductive PoisonEnd
  | go | hold | lost
  deriving DecidableEq, Repr, Inhabited

/-- The outcome for one page of a region that a core's DMA touches while it is poisoned (R570): committed shard
buffers and base mappings wait for recovery; alternate buffers and versioned regions of an open bar hold the bar until
its timeout; any other page has no source. -/
def poisonEnd (r : Region) : PoisonEnd :=
  if r.kind = 4 || r.kind = 2 || r.kind = 1 then .hold else .lost

/-- A poisoned base mapping that no source could reload (R306). -/
def noReload (s : State) (n : Nat) : Bool :=
  match s.base with
  | some b => match mappingOf b.man.extents (pageAddr n) with
    | some m => b.failed.contains m
    | none => false
  | none => false

/-- Pages a descriptor touches with their region. -/
def dmaPages (s : State) (e : Env) (run : Run) (it : DmaItem) : List (Nat × Region) :=
  if tierOf it.mem = 0 then []
  else (dmaRows it).flatMap fun r => match coreAccess s e.slot run.bar it.desc.toMem r.1 r.2 with
    | some g => (touchedPages s e.job run g it.desc.toMem r.1 r.2).map fun p => (p, g)
    | none => []

/-- A promoted copy that cannot be read: a clean one is discarded and its home read; a dirty page is lost (R570). -/
def badCopy (n : Nat) (s : State) : State :=
  let d := getPage s n
  if d.pool.isSome && !d.dirty then freeFrame n s else poisonPage n s

/-- A write of a look-ahead run waits for the verdict before it: to tiers 2 and 3 (09 R267), to kinds 1 and 2 (R301);
a write to a page in promotion waits for the switch (R311). -/
def dmaHeld (s : State) (it : DmaItem) (ahead : Bool) (pages : List (Nat × Region)) : Bool :=
  it.desc.toMem && ((ahead && (decide (2 ≤ tierOf it.mem) || pages.any fun p => p.2.kind == 1 || p.2.kind == 2)) ||
    pages.any fun p => (getPage s p.1).move == 1)

/-- Pages of adaptations and sessions that a transfer reads where they are not resident are asked for (10 R308
order 3). -/
def askForUse (pages : List (Nat × Region)) (s : State) : State :=
  pages.foldl (fun s p =>
    if 2 ≤ p.1 / 2 ^ 28 && (p.2.window.isSome || p.2.kvRow.isSome) then
      askPromotion { cls := 3, page := p.1, pool := if p.2.kvRow.isSome then 1 else 0 } s else s) s

/-- `DMA_COMPLETE`: a queued descriptor has moved every byte (R98 to R100); `err` says that its read met an
uncorrectable error in its first page (20 R570). -/
def execDmaComplete (c : CoreRef) (ix : Nat) (err : Bool) (s : State) : Host.Outcome State Fault Refusal :=
  onCore c (fun e s =>
    match e.ctx.dmas[ix]? with
    | none => s
    | some it =>
      let pages := dmaPages s e e.run it
      if !dmaStarted e.ctx.dmas ix || dmaHeld s it (it.look && e.run.look) pages || pages.any (fun p => asleep s p.1) then s
      else
        let s := if err && !it.desc.toMem then (match pages.head? with
          | some p => badCopy p.1 s
          | none => s) else s
        let bad := pages.filter fun p => (getPage s p.1).poison
        if bad.any fun p => poisonEnd p.2 == .lost || noReload s p.1 then faultAt e cPoisoned s
        else if !bad.isEmpty then s
        else
          let s := askForUse pages (usePages it.desc.toMem (pages.map (·.1)) (dmaMove e e.run it s))
          let s := modCtx e.key e.ghost (fun c => bumpCounter it.desc.counter { c with dmas := c.dmas.eraseIdx ix }) s
          settle e s) s

/-- `dma.wait` (R100): no earlier `dma` of the counter is incomplete. -/
def execDmaWait (c : CoreRef) (k : Ctl) (cnt : Nat) (s : State) : Host.Outcome State Fault Refusal :=
  issue c k (.dmaWait cnt) (fun _ => none) (fun e s =>
    if e.ctx.dmas.any fun d => d.desc.counter == cnt then .wait else regBody id e s) s

/-! ## Scrubbing (02 R53) -/

/-- Every core position of a partition's rectangle. -/
def partKeys (p : Part) : List Nat :=
  (List.range p.rows).flatMap fun r => (List.range p.cols).map fun c => (p.row + r) * 64 + (p.col + c)

/-- `PARTITION_SCRUB_DONE`: every store of every core of the partition is zero, and the partition is free (R53). -/
def execPartitionScrubDone (part : Nat) (s : State) : Host.Outcome State Fault Refusal :=
  if 64 ≤ part then .fault .noSuchUnit
  else
    let p := getPart s part
    if p.state = .scrubbing then
      let s := (partKeys p).foldl (fun s k => { s with cores := s.cores.del k }) s
      let t := s.tenants.getD p.owner {}
      .next { s with parts := s.parts.del part, tenants := s.tenants.put p.owner { t with partUsed := t.partUsed - 1 } }
    else .next s

end Sys2Proof.Machine
end

