-- ==== Sys2Proof/Machine/Reduce.lean ====
section
/-! DEFINITION. Reductions in the link interface (05 R147 to R158, R605, R606) and outcome reports (08 R604). -/

namespace Sys2Proof.Machine

/-! ## Exact integers (R153 to R156) -/

def intMax : Int := 2 ^ 95 - 1

/-- Flags of R156. -/
def redOvf : Nat := 1
def redNonfin : Nat := 2

/-- An integer within its bounds, and whether it saturated (R155). -/
def satInt (v : Int) : Int × Nat :=
  if intMax < v then (intMax, redOvf) else if v < -intMax then (-intMax, redOvf) else (v, 0)

/-- A leaf converted: x · 2^(80 − Q) to nearest-even, saturating (R154). -/
def leafInt (q : Int) (p : Word × Word) : Int × Nat :=
  if !finite32 p.1 then (0, redNonfin)
  else match pairNum p with
    | .fin neg m e =>
      if !Num.ltFin (.fin false m e) (.fin false 1 (q + 15)) then (if neg then -intMax else intMax, redOvf)
      else satInt (signed neg (rneUnits m e (q - 80)))
    | _ => (0, redNonfin)

/-- The number that an integer stands for (R153). -/
def intNum (q : Int) (v : Int) : Num := Num.ofInt v (q - 80)

/-! ## Results (R158, R606) -/

/-- Bytes of one element of a result (R606). -/
def outWidth : Nat → Nat
  | 0 => 4
  | 1 => 8
  | 2 => 2
  | _ => 12

/-- Bytes padded to whole lines. -/
def padLines (bs : List Byte) : List Byte := bs ++ List.replicate (ceilDiv bs.length 64 * 64 - bs.length) 0

/-- One element of an ordered result, and whether it saturated (R150). -/
def orderedOut (out : Nat) (p : Word × Word) : List Byte × Bool :=
  match out with
  | 0 => (leBytes 4 (pairWord p).toNat, false)
  | 1 => (leBytes 4 p.1.toNat ++ leBytes 4 p.2.toNat, false)
  | _ => (leBytes 2 (pairBf16 p).1, (pairBf16 p).2)

/-- One element of an exact result (R158). -/
def exactOut (out : Nat) (q : Int) (v : Int) : List Byte × Bool :=
  match out with
  | 0 => (leBytes 4 (round32 (intNum q v)).toNat, false)
  | 1 => let p := toPair (intNum q v)
    (leBytes 4 p.1.toNat ++ leBytes 4 p.2.toNat, false)
  | 2 => let c := fmtBf16.convert (intNum q v)
    (leBytes 2 c.1, c.2)
  | _ => (leBytes 12 (v % 2 ^ 96).toNat, false)

/-- Element j of a result of `OUT` format read back: a pair (value, error), or an integer (R605, R606). -/
def partialAt (out : Nat) (bs : List Byte) (j : Nat) : (Word × Word) × Int :=
  let b := outWidth out
  let w (o n : Nat) : Nat := leNat ((bs.drop (j * b + o)).take n)
  match out with
  | 0 => ((BitVec.ofNat 32 (w 0 4), 0), 0)
  | 1 => ((BitVec.ofNat 32 (w 0 4), BitVec.ofNat 32 (w 4 4)), 0)
  | 2 => ((bf16Word (w 0 2), 0), 0)
  | _ => ((0, 0), (BitVec.ofNat 96 (w 0 12)).toInt)

/-- What a partial brings to an ordered reduction (R605). -/
def partialPair (mode out : Nat) (q : Int) (x : (Word × Word) × Int) : Word × Word :=
  if out = 3 then (if mode = 0 then toPair (intNum q x.2) else (round32 (intNum q x.2), 0)) else x.1

/-! ## Taking contributions -/

def setRed (i : Nat) (x : RedState) (r : Run) : Run := { r with reds := r.reds.put i x }

/-- A run's exact-mode exponent of a tensor (R153). -/
def qOf (r : Run) (i : Nat) : Int := r.q.getD i (-126)

/-- The bar maximum that a saturation reaches at least: 2^(Q + 15) (R215). -/
def satMax (q : Int) : Nat := min 0x7F7FFFFF (pow2w (q + 15)).toNat

/-- A contribution's integers added in exact mode, with what its leaves bring to the bar maximum (R154, R155, R215). -/
def addExact (d : Reduction) (c : Contrib) (x : RedState) (r : Run) : RedState × Run :=
  let q := qOf r d.tensor
  let conv : List (Int × Nat) := if c.leaf then c.pairs.map (leafInt q) else c.ints.map fun v => (v, 0)
  let sums := (List.range d.elements).map fun j => satInt (x.ints.getD j 0 + (conv.getD j (0, 0)).1)
  let fl := orAll (conv.map (·.2)) ||| orAll (sums.map (·.2))
  let m := if c.leaf then c.pairs.foldl (fun a p => if finite32 p.1 then max a (abs32 p.1).toNat else a) 0 else 0
  let m := if bitOf fl 0 then max m (satMax q) else m
  ({ x with ints := sums.map (·.1), flags := x.flags ||| c.flags ||| fl, taken := x.taken ++ [(c.entry, c.rank)] },
   r.sawMax d.tensor m)

/-- Contributions whose turn has come are added in source-list order (R150, R151). -/
def addOrdered : Nat → List (Nat × Nat) → RedState → RedState
  | 0, _, x => x
  | n + 1, seq, x =>
    match seq[x.taken.length]? with
    | none => x
    | some t => match x.held.find? fun c => c.entry == t.1 && c.rank == t.2 with
      | none => x
      | some c => addOrdered n seq { x with
          held := x.held.erase c, taken := x.taken ++ [t],
          acc := (List.range c.pairs.length).map fun j => pairAdd (x.acc.getD j (0, 0)) (c.pairs.getD j (0, 0)) }

/-- A result delivered (R606): to the update engine of the hand, or on the route `DEST` as messages of 256 lines. DESIGN CHOICE: the
manual does not say whether an ordered result of no elements, which has no line, travels as one empty message; none is sent. -/
def deliverResult (slot i : Nat) (sc : Score) (d : Reduction) (x : RedState) (s : State) : State :=
  match getJob s slot with
  | none => s
  | some j => match j.now with
    | none => s
    | some run =>
      let q := qOf run d.tensor
      let els := (List.range d.elements).map fun k =>
        if d.mode = 2 then exactOut d.out q (x.ints.getD k 0) else orderedOut d.out (x.acc.getD k (0, 0))
      let bytes := padLines (els.flatMap (·.1) ++ (if d.mode = 2 then leBytes 4 x.flags else []))
      let big := d.mode = 2 && bitOf x.flags 0
      let s := modNow slot (fun r =>
        let r := setRed i { x with delivered := true } r
        let r := { r with sats := r.sats + (els.filter (·.2)).length }
        if big then r.overflowed d.tensor else r) s
      if d.dest = 0xFFFE then s
      else match sc.routes[d.dest]? with
        | none => s
        | some rt =>
          let n := ceilDiv (bytes.length / 64) 256
          let t := routeCore rt
          let msgs := (List.range n).map fun k =>
            let part := (bytes.drop (k * 16384)).take 16384
            ({ slot, bar := run.bar, beat := x.beat, run := run.run, prov := run.look, route := some d.dest,
               srcRank := j.rank, srcRow := 0, srcCol := 0, dstRow := t.1, dstCol := t.2, seq := k,
               lines := part.length / 64, data := part } : Msg)
          linkService slot { s with net := s.net ++ msgs }

/-- A reduction that has taken all its contributions delivers (R606). -/
def finishRed (slot i : Nat) (sc : Score) (d : Reduction) (seq : List (Nat × Nat)) (s : State) : State :=
  match (getJob s slot).bind Job.now with
  | none => s
  | some run =>
    let x := getRed run i
    if !x.delivered && (d.elements = 0 || x.taken.length = seq.length) then deliverResult slot i sc d x s else s

/-- A fault of a slot's partition that no core caused (R52): its position is the partition's origin. -/
def slotFault (slot code : Nat) (s : State) : State :=
  match slotPart s slot with
  | some (p, ghost) => faultPart p ghost code 0 0 s
  | none => s

/-- A whole contribution reaches its reduction (R150, R155, R606). -/
def contribute (slot i : Nat) (sc : Score) (d : Reduction) (c : Contrib) (s : State) : State :=
  match getJob s slot with
  | none => s
  | some j => match j.now with
    | none => s
    | some run =>
      let x := getRed run i
      let x := { x with beat := max x.beat c.beat }
      let seq := redSequence sc j.rank d
      if x.delivered || x.taken.contains (c.entry, c.rank) || x.held.any (fun h => h.entry == c.entry && h.rank == c.rank)
      then slotFault slot cBounds s
      else if d.mode = 2 then
        let s := modNow slot (fun r => let y := addExact d c x r
          setRed i y.1 y.2) s
        finishRed slot i sc d seq s
      else
        let s := modNow slot (setRed i (addOrdered (seq.length + 1) seq { x with held := x.held ++ [c] })) s
        finishRed slot i sc d seq s

/-- Reductions without elements are complete as a bar opens (R147). -/
def emptyReductions (slot : Nat) (sc : Score) (s : State) : State :=
  (List.range sc.reductions.length).foldl (fun s i => match sc.reductions[i]? with
    | some d => if d.elements = 0 then finishRed slot i sc d [] s else s
    | none => s) s

/-! ## `CHAIN_INTAKE` (R605) -/

/-- `CHAIN_INTAKE`: a chain stream leaves logical row 15 and enters its reduction as a leaf (R605); one that no source
names, or of another size, faults the partition (R149), and one that the holding buffer has no room for stalls (R151). -/
def execChainIntake (ix : Nat) (s : State) : Host.Outcome State Fault Refusal :=
  match s.streams[ix]? with
  | none => .next s
  | some st =>
    if !st.toLink || !chainNext s ix st then .next s
    else
      let t := chainTaken st { s with streams := s.streams.eraseIdx ix }
      match getJob s st.slot, (getSlot s st.slot).score with
      | some j, some sc => match j.runOf st.bar st.run with
        | none => .next t
        | some run =>
          if (j.now.map fun r => r.bar == st.bar && r.run == st.run) != some true then .next t
          else match chainTaker sc st.col st.beat with
            | none => .next (slotFault st.slot cBounds t)
            | some (i, k) => match sc.reductions[i]? with
              | none => .next t
              | some d =>
                if st.rows.length * st.lanes != d.elements then .next (slotFault st.slot cBounds t)
                else if !mayTake s st.slot sc j run i d (k, j.rank) (8 * d.elements) then .next s
                else .next (contribute st.slot i sc d ⟨k, j.rank, st.beat, st.pairs, [], 0, true⟩ t)
      | _, _ => .next t

/-! ## `ROUTE_CONTRIBUTION` (R605, R603) -/

/-- Bytes of a whole contribution on a route: words of its elements, or a feeding reduction's result (R605, R606). -/
def contribBytes (sc : Score) (d : Reduction) (route : Nat) : Nat :=
  match feeder sc route with
  | some f => d.elements * outWidth f.out + (if f.mode = 2 then 4 else 0)
  | none => d.elements * 4

/-- The contribution that the bytes of a route make (R605). -/
def routeContrib (sc : Score) (d : Reduction) (run : Run) (route k rank beat : Nat) (bs : List Byte) : Contrib :=
  match feeder sc route with
  | none => ⟨k, rank, beat, (wordsOf d.elements bs).map fun w => (w, 0), [], 0, true⟩
  | some f =>
    let els := (List.range d.elements).map (partialAt f.out bs)
    let fl := if f.mode = 2 then leNat ((bs.drop (d.elements * outWidth f.out)).take 4) % 4 else 0
    if d.mode = 2 then
      (if f.out = 3 then ⟨k, rank, beat, [], els.map (·.2), fl, false⟩
       else ⟨k, rank, beat, els.map (·.1), [], fl, true⟩)
    else ⟨k, rank, beat, els.map (partialPair d.mode f.out (qOf run f.tensor)), [], fl, false⟩

/-- `ROUTE_CONTRIBUTION`: the next message of a route of kind 2 joins its rank's contribution; a whole one enters the
reduction (R605), and one that the holding buffer has no room for keeps its credits and waits (R151). -/
def execRouteContribution (ix : Nat) (s : State) : Host.Outcome State Fault Refusal :=
  match s.net[ix]? with
  | none => .next s
  | some m => match m.route, getJob s m.slot, (getSlot s m.slot).score with
    | some route, some j, some sc => match sc.routes[route]?, j.runOf m.bar m.run with
      | some rt, some run =>
        if rt.kind != 2 || routeDest sc rt m.srcRank != some j.rank || !routeTurn s sc j run route m ||
            !lowerBeats s sc j.rank m route || (j.now.map fun r => r.bar == m.bar && r.run == m.run) != some true then
          .next s
        else match sc.reductions[rt.target]? with
          | none => .next s
          | some d => match routeEntry d route with
            | none => .next s
            | some k =>
              let s0 := s
              let s := returnUnits false m.held { s with net := s.net.eraseIdx ix }
              let key := k * 1024 + m.srcRank
              let x := getRed run rt.target
              let bs := x.partials.getD key [] ++ m.data
              let want := ceilDiv (contribBytes sc d route) 64 * 64
              if !mayTake s0 m.slot sc j run rt.target d (k, m.srcRank) m.data.length then .next s0
              else if x.delivered || want < bs.length || (bs.length < want && m.lines != 256) then
                .next (slotFault m.slot cBounds s)
              else
                let s := modNow m.slot (setRed rt.target { x with partials := x.partials.put key bs,
                                                                  beat := max x.beat m.beat }) s
                if bs.length < want then .next s
                else .next (contribute m.slot rt.target sc d (routeContrib sc d run route k m.srcRank m.beat bs) s)
      | _, _ => .next s
    | _, _, _ => .next s

/-! ## `OUTCOME_REPORT` (R604) -/

/-- The records of an outcome message: shard, outcome, reserved bytes clear. -/
def outcomeRecords (m : Msg) : List (Nat × Nat × Bool) :=
  (List.range (m.lines * 4)).map fun i =>
    let b := (m.data.drop (i * 16)).take 16
    (leNat (b.take 2), leNat ((b.drop 2).take 1), (b.drop 3).all (· == 0))

/-- The digest of a shard that cores update: its regions' alternate buffers in `PLACEMENT` order (11 R321, R322). -/
def coreShardDigest (s : State) (slot : Nat) (j : Job) (sh buf : Nat) : List Byte :=
  let regs := s.regions.filter fun r => r.slot == some slot && r.shard == some sh && r.kind == 2
  let c := (j.shards.getD sh {}).cur
  shake256 16 (regs.flatMap fun r => Mem.readN s.mem (r.base + (if buf = 0 then c else 1 - c) * r.alt) r.size)

/-- One record taken: a breach of R604 is none. -/
def takeOutcome (slot : Nat) (sc : Score) (j : Job) (rec_ : Nat × Nat × Bool) (s : State) : Option State :=
  match sc.shards[rec_.1]?, (getJob s slot).bind Job.now with
  | some e, some run =>
    if e.owner != j.rank || engineShard sc rec_.1 || (run.outcomes.get rec_.1).isSome || 3 < rec_.2.1 || !rec_.2.2 then
      none
    else some (modNow slot (fun r => { r with
      outcomes := r.outcomes.put rec_.1 rec_.2.1,
      digests := r.digests.put rec_.1 (coreShardDigest s slot j rec_.1 1) }) s)
  | _, _ => none

/-- `OUTCOME_REPORT`: a message on a kind-4 route gives the outcomes of shards that cores update (R604). -/
def execOutcomeReport (ix : Nat) (s : State) : Host.Outcome State Fault Refusal :=
  match s.net[ix]? with
  | none => .next s
  | some m => match m.route, getJob s m.slot, (getSlot s m.slot).score with
    | some route, some j, some sc => match sc.routes[route]? with
      | some rt =>
        if rt.kind != 4 || (j.now.map fun r => r.bar == m.bar && r.run == m.run) != some true then .next s
        else
          let s := returnUnits false m.held { s with net := s.net.eraseIdx ix }
          match (outcomeRecords m).foldl (fun (a : Option State) r => a.bind (takeOutcome m.slot sc j r)) (some s) with
          | some s' => .next s'
          | none => .next (slotFault m.slot cBounds s)
      | none => .next s
    | _, _, _ => .next s

end Sys2Proof.Machine
end

