-- ==== Sys2Proof/Machine/Update.lean ====
section
/-! DEFINITION. The update engine (08 R234 to R262): binary64 recurrence, passes, shard outcomes, holding areas. -/

namespace Sys2Proof.Machine

/-! ## binary64 (R240) -/

def num64 (w : W64) : Num := fmtF64.decode w.toNat
def round64 (x : Num) : W64 := BitVec.ofNat 64 (fmtF64.round x)
def add64 (a b : W64) : W64 := round64 ((num64 a).add (num64 b))
def sub64 (a b : W64) : W64 := round64 ((num64 a).add (num64 b).neg)
def mul64 (a b : W64) : W64 := round64 ((num64 a).mul (num64 b))
def div64 (a b : W64) : W64 := round64 ((num64 a).div (num64 b))
def sqrt64 (a : W64) : W64 := round64 (num64 a).sqrt
def neg64 (a : W64) : W64 := a ^^^ 0x8000000000000000#64
def nan64 : W64 := 0x7FF8000000000000#64
def one64 : W64 := 0x3FF0000000000000#64
def finite64 (w : W64) : Bool := (num64 w).isFin
def isNan64 (w : W64) : Bool := (num64 w).isNan

/-- An FP32 word in binary64, exactly (R240). -/
def widen (w : Word) : W64 := round64 (num32 w)

/-- A number of bars in binary64. -/
def ofNat64 (n : Nat) : W64 := round64 (.fin false n 0)

/-- min and max order −0 below +0; a NaN operand gives NaN (R240). -/
def below64 (a b : W64) : Bool :=
  let x := num64 a
  let y := num64 b
  Num.lt x y || (x.isZero && y.isZero && x.isNeg && !y.isNeg)

def min64 (a b : W64) : W64 := if isNan64 a || isNan64 b then nan64 else if below64 b a then b else a
def max64 (a b : W64) : W64 := if isNan64 a || isNan64 b then nan64 else if below64 a b then b else a

/-- a > b. -/
def gt64 (a b : W64) : Bool := Num.lt (num64 b) (num64 a)

/-- a ≤ b, false where either is not a number. -/
def le64 (a b : W64) : Bool := num64 a != .nan && num64 b != .nan && !gt64 a b

/-! ## Functions of the recurrence (R241) -/

def psiFn (code : Nat) (g : W64) : W64 :=
  match code with
  | 0 => g
  | 1 => mul64 g g
  | _ => g &&& 0x7FFFFFFFFFFFFFFF#64

def phiFn (code : Nat) (u x eps : W64) : W64 :=
  match code with
  | 0 => u
  | 1 =>
    if isNan64 u then nan64
    else if (num64 u).isZero then 0
    else if (num64 u).isNeg then neg64 one64 else one64
  | _ => div64 u (add64 (sqrt64 x) eps)

/-- One element of R239: the new weight, the momentum, and the weight and momentum read. -/
def recurrence (c : Group) (eta keep s g w m : W64) : W64 × W64 :=
  let g := mul64 g s
  let u := add64 (mul64 (widen c.cg) g) (mul64 (widen c.cm) m)
  let mn := add64 (mul64 (widen c.b1) m) (mul64 (widen c.b2) (psiFn c.psi g))
  let d := phiFn c.phi u (if c.phiSrc then mn else m) (widen c.eps)
  let clip := widen c.clip
  let dc := min64 (max64 d (neg64 clip)) clip
  (sub64 (mul64 w keep) (mul64 eta dc), mn)

/-- Ratio of the schedule at a bar (R248). -/
def schedRatio (c : Group) (b : Nat) : W64 :=
  if 1 ≤ c.sched && b < c.warm then div64 (ofNat64 (b + 1)) (ofNat64 c.warm)
  else if c.sched = 2 then
    let t := b - c.warm
    if c.decay ≤ t then widen c.etaMin
    else sub64 one64 (div64 (mul64 (sub64 one64 (widen c.etaMin)) (ofNat64 t)) (ofNat64 c.decay))
  else if c.sched = 3 then
    let n := min ((b - c.warm) / c.decay) 4096
    max64 ((List.range n).foldl (fun r _ => mul64 r (widen c.factor)) one64) (widen c.etaMin)
  else one64

/-- eta and keep of a group in a bar (R248). -/
def groupEta (c : Group) (b : Nat) : W64 × W64 :=
  let eta := mul64 (widen c.eta) (schedRatio c b)
  (eta, sub64 one64 (mul64 eta (widen c.lambda)))

/-! ## State planes (R201, R242) -/

/-- Unbiased exponent of an FP32 word, −126 for a subnormal. -/
def exp32 (v : Word) : Int := max ((v.toNat / 2 ^ 23 % 256 : Nat) : Int) 1 - 127

/-- A master48 value: v + sign(v) · t · 2^(E − 39) (R201). -/
def master48 (v : Word) (t : Nat) : Num :=
  match num32 v with
  | .fin neg 0 e => .fin neg 0 e
  | .fin neg m e => (Num.fin neg m e).add (.fin neg t (exp32 v - 39))
  | x => x

/-- Rounding to a 40-bit significand, or to a multiple of 2^−165 below 2^−126 (R242). -/
def round40 : Num → Num
  | .fin neg m e =>
    if m = 0 then .fin neg 0 e
    else
      let q := max ((Nat.log2 m : Int) + e - 39) (-165)
      .fin neg (rneUnits m e q) q
  | x => x

/-- The two planes of a master48 result (R201). -/
def split48 (x : Num) : Word × Nat :=
  match round40 x with
  | .nan => (nan32, 0)
  | .inf neg => (if neg then 0xFF800000#32 else 0x7F800000#32, 0)
  | .fin neg m e =>
    let sgn : Nat := if neg then 2 ^ 31 else 0
    if Num.ltFin (num32 0x7F7FFFFF#32) (.fin false m e) then (BitVec.ofNat 32 (sgn + 0x7F800000), 0)
    else
      let v := fmtFp32.truncMag m e
      if v = 0 then (BitVec.ofNat 32 sgn, 0)
      else
        let vw := BitVec.ofNat 32 v
        match (Num.fin false m e).add (num32 vw).neg with
        | .fin _ r re => (BitVec.ofNat 32 (sgn + v), rtzUnits r (re + (39 - exp32 vw)) 0)
        | _ => (BitVec.ofNat 32 (sgn + v), 0)

/-- A BF16 or FP32 store that never saturates (R242). -/
def storeBf16 (x : Num) : Nat := fmtBf16.round x

/-! ## Entries and their planes (R246, R250) -/

/-- Current buffer index of a shard. -/
def shardCur (j : Job) (sh : Nat) : Nat := (j.shards.getD sh {}).cur

def readWord (s : State) (a : Nat) : Word := BitVec.ofNat 32 (Mem.readLe s.mem a 4)

/-- The weight at element i of a buffer of an entry (R242, R246). -/
def readWeight (s : State) (c : Group) (t : Entry) (buf i : Nat) : Num :=
  let o := buf * t.alt
  let v := readWord s (t.wBase + o + 4 * i)
  if c.wstate = 0 then master48 v (Mem.readLe s.mem (t.tBase + o + 2 * i) 2) else num32 v

/-- The momentum at element i. -/
def readMoment (s : State) (c : Group) (t : Entry) (buf i : Nat) : Num :=
  let o := buf * t.alt
  match c.mstate with
  | 0 => .fin false 0 0
  | 1 => num32 (readWord s (t.mBase + o + 4 * i))
  | _ => fmtBf16.decode (Mem.readLe s.mem (t.mBase + o + 2 * i) 2)

/-- The element written to a buffer (R242). -/
def writeElement (c : Group) (t : Entry) (buf i : Nat) (wn mn : Num) (m : List Host.Cell) : List Host.Cell :=
  let o := buf * t.alt
  let m := if c.wstate = 0 then
      let p := split48 wn
      Mem.writeLe (Mem.writeLe m (t.wBase + o + 4 * i) 4 p.1.toNat) (t.tBase + o + 2 * i) 2 p.2
    else Mem.writeLe m (t.wBase + o + 4 * i) 4 (round32 wn).toNat
  match c.mstate with
  | 0 => m
  | 1 => Mem.writeLe m (t.mBase + o + 4 * i) 4 (round32 mn).toNat
  | _ => Mem.writeLe m (t.mBase + o + 2 * i) 2 (storeBf16 mn)

/-- The bytes of one element of a buffer: weight, tail, momentum. -/
def elementRanges (c : Group) (t : Entry) (buf i : Nat) : List (Nat × Nat) :=
  let o := buf * t.alt
  [(t.wBase + o + 4 * i, 4)] ++ (if c.wstate = 0 then [(t.tBase + o + 2 * i, 2)] else []) ++
    (match c.mstate with
      | 0 => []
      | 1 => [(t.mBase + o + 4 * i, 4)]
      | _ => [(t.mBase + o + 2 * i, 2)])

/-- Pages of an entry's current and alternate planes (R257). -/
def entryPages (c : Group) (t : Entry) : List Nat :=
  [0, 1].flatMap fun b =>
    pageSpan (t.wBase + b * t.alt) (4 * t.elements) ++
      (if c.wstate = 0 then pageSpan (t.tBase + b * t.alt) (2 * t.elements) else []) ++
      (match c.mstate with
        | 0 => []
        | 1 => pageSpan (t.mBase + b * t.alt) (4 * t.elements)
        | _ => pageSpan (t.mBase + b * t.alt) (2 * t.elements))

/-- Tier number of a holding area: that in which the state rests, by the first plane page that the engine does not reach at
once (R257); 0 HBM, 1 LPDDR, 2 flash. A flash page in the staging pool rests in LPDDR. -/
def holdTier (s : State) (pages : List Nat) : Option Nat :=
  (pages.find? fun p => !inReach s p).map fun p => if (getPage s p).pool.isSome then 1 else p / 2 ^ 28 - 1

/-- The size of a holding area in bytes (R259). -/
def holdSize (j : Job) (tier : Nat) : Nat :=
  orDefault (j.f.hold.getD tier 0) ([1, 4, 16].getD tier 1) * 1073741824

/-- The group of an entry. -/
def entryGroup (sc : Score) (t : Entry) : Option Group := (sc.groups.getD [])[t.group]?

/-- The digest of a buffer of a shard that the engine updates (11 R321). -/
def shardDigest (s : State) (sc : Score) (sh : Nat) (pick : Nat) : List Byte :=
  shake256 16 (sc.entries.flatMap fun t =>
    if t.shard != sh then []
    else match entryGroup sc t with
      | none => []
      | some c => (List.range t.elements).flatMap fun i =>
        (elementRanges c t pick i).flatMap fun r => Mem.readN s.mem r.1 r.2)

/-! ## Outcomes (R255) -/

def setPass (e : Nat) (p : EntryPass) (r : Run) : Run := { r with passes := r.passes.put e p }

/-- Entries of a shard with their indices, ascending. -/
def shardEntries (sc : Score) (sh : Nat) : List (Nat × Entry) :=
  (List.range sc.entries.length).filterMap fun i => match sc.entries[i]? with
    | some t => if t.shard = sh then some (i, t) else none
    | none => none

/-- G2 of a shard: its entries' in ascending index (R255). -/
def shardG2 (r : Run) (l : List (Nat × Entry)) : W64 :=
  l.foldl (fun a e => add64 a (getPass r e.1).parts.g2) 0

/-- The outcome code of a shard whose entries are done (R255): 0 ready, 1 clipped, 2 over, 3 non-finite. -/
def outcomeOf (sc : Score) (r : Run) (l : List (Nat × Entry)) : Nat :=
  let g2 := shardG2 r l
  let flagged := l.any fun e => e.2.elements != 0 && bitOf (r.intakeFlags.getD e.2.red 0) 1
  if l.any (fun e => (getPass r e.1).nonfin) || !finite64 g2 || flagged then 3
  else match l.head?.bind fun e => entryGroup sc e.2 with
    | some c =>
      let gm := widen c.gmax
      let big := gt64 g2 (mul64 gm gm)
      if c.shardMode = 1 then (if big then 2 else 0)
      else if c.shardMode = 2 then (if big then 1 else 0) else 0
    | none => 0

/-- An entry's pass is over: every element done, or none to do (R246). -/
def entryDone (r : Run) (e : Nat × Entry) : Bool := e.2.elements == 0 || (getPass r e.1).done

/-- Shards whose entries have all finished take their outcome and the alternate buffer's digest (R255, 11 R322). -/
def settleShards (slot : Nat) (s : State) : State :=
  match getJob s slot, (getSlot s slot).score with
  | some j, some sc => match j.now with
    | none => s
    | some run =>
      (List.range sc.shards.length).foldl (fun s sh => match sc.shards[sh]? with
        | none => s
        | some e =>
          let l := shardEntries sc sh
          if e.owner != j.rank || l.isEmpty || (run.outcomes.get sh).isSome || !l.all (entryDone run) then s
          else
            let d := shardDigest s sc sh (1 - shardCur j sh)
            modNow slot (fun r => { r with outcomes := r.outcomes.put sh (outcomeOf sc r l),
                                           digests := r.digests.put sh d }) s) s
  | _, _ => s

/-! ## `GRADIENT_INTAKE` (R237, R238, R257 to R260) -/

/-- The FP32 words of a finished engine-bound reduction (R237). -/
def gradWords (d : Reduction) (q : Int) (x : RedState) : List Word :=
  (List.range d.elements).map fun k =>
    if d.mode = 2 then round32 (intNum q (x.ints.getD k 0)) else pairWord (x.acc.getD k (0, 0))

/-- Entries of owned shards that a reduction feeds. -/
def fedEntries (sc : Score) (rank red : Nat) : List (Nat × Entry) :=
  (List.range sc.entries.length).filterMap fun i => match sc.entries[i]? with
    | some t => if t.red = red && t.elements != 0 &&
        (match sc.shards[t.shard]? with
          | some e => e.owner == rank
          | none => false) then some (i, t) else none
    | none => none

/-- Pages pinned until the downbeat, those whose home is HBM too (R258). -/
def pinPages (slot : Nat) (l : List Nat) (s : State) : State :=
  let l := pageUnits s l
  modNow slot (fun r => { r with pins := r.pins ++ l }) (modPages l PageDesc.pinned s)

/-- Promotions that the engine asks for: the pages it does not reach (R257, 10 R308). -/
def askPages (pages : List Nat) (s : State) : State :=
  (pages.filter fun p => !inReach s p).foldl (fun s p => askPromotion { cls := 1, page := p, pool := 0 } s) s

/-! ### Holding areas (R255, R257, R259) -/

/-- Free ranges of an area of a size, from a place on, between the used ones in rising order. -/
def gapsFrom : Nat → Nat → List (Nat × Nat) → List (Nat × Nat)
  | a, size, [] => if a < size then [(a, size - a)] else []
  | a, size, (o, n) :: l => (if a < o then [(a, o - a)] else []) ++ gapsFrom (max a (o + n)) size l

/-- The first `n` bytes of a list of ranges. -/
def firstBytes : Nat → List (Nat × Nat) → List (Nat × Nat)
  | _, [] => []
  | n, (o, k) :: l => if n = 0 then [] else if n ≤ k then [(o, n)] else (o, k) :: firstBytes (n - k) l

/-- The place of byte `x` of a list of ranges. -/
def byteAt : List (Nat × Nat) → Nat → Option Nat
  | [], _ => none
  | (o, k) :: l, x => if x < k then some (o + x) else byteAt l (x - k)

/-- Both runs' gradients in a job's holding areas. -/
def jobAreas (j : Job) : List HeldGrad := (j.cur.map (·.areas)).getD [] ++ (j.ahead.map (·.areas)).getD []

def spanBytes (l : List (Nat × Nat)) : Nat := sumNat (l.map (·.2))

/-- Bytes in use of a job's holding area. -/
def areaUsed (j : Job) (tier : Nat) : Nat := sumNat ((jobAreas j).map fun a => if a.tier = tier then spanBytes a.spans else 0)

/-- Where a gradient of `n` bytes goes in a holding area: its lowest free bytes. -/
def areaSpans (j : Job) (tier n : Nat) : List (Nat × Nat) :=
  let used := ((jobAreas j).filter fun a => a.tier == tier).flatMap (·.spans)
  firstBytes n (gapsFrom 0 (holdSize j tier) (used.mergeSort fun a b => decide (a.1 ≤ b.1)))

/-- The address of a job's holding area. -/
def areaBase (s : State) (slot tier : Nat) : Nat :=
  ((s.regions.find? fun r => r.slot == some slot && r.kind == 3 && tierOf r.base == tier + 1).map (·.base)).getD 0

/-- The device ranges of a held gradient. -/
def heldRanges (s : State) (slot : Nat) (a : HeldGrad) : List (Nat × Nat) :=
  a.spans.map fun r => (areaBase s slot a.tier + r.1, r.2)

/-- An entry's place in a holding area: that of shard mode 2's second pass in HBM, or that of the slow tiers. -/
def heldGrad (r : Run) (entry : Nat) (hbm : Bool) : Option HeldGrad :=
  r.areas.find? fun a => a.entry == entry && (a.tier == 0) == hbm

/-- An entry's places given back. -/
def letArea (slot entry : Nat) (which : HeldGrad → Bool) (s : State) : State :=
  modNow slot (fun r => { r with areas := r.areas.filter fun a => !(a.entry == entry && which a) }) s

/-- The bytes an entry needs of holding areas: where its state rests, and in HBM for shard mode 2 (R255, R257). -/
def entryHold (s : State) (sc : Score) (t : Entry) : List (Nat × Nat) :=
  match entryGroup sc t with
  | none => []
  | some c =>
    (match holdTier s (entryPages c t) with
      | some tier => [(tier, 4 * t.elements)]
      | none => []) ++ (if c.shardMode = 2 then [(0, 4 * t.elements)] else [])

/-- The bytes of an area that a result's entries need. -/
def areaNeed (s : State) (sc : Score) (rank red tier : Nat) : Nat :=
  sumNat ((fedEntries sc rank red).flatMap fun e => (entryHold s sc e.2).filterMap fun h => if h.1 = tier then some h.2 else none)

/-- An area that a result's entries need has no room for them (R259). -/
def areaShort (s : State) (sc : Score) (j : Job) (red : Nat) : Bool :=
  [0, 1, 2].any fun t => decide (0 < areaNeed s sc j.rank red t ∧ holdSize j t < areaUsed j t + areaNeed s sc j.rank red t)

/-- A delivered result that the engine has not taken. -/
def resultWaits (r : Run) (sc : Score) (red : Nat) : Bool := match sc.reductions[red]? with
  | some d => d.dest == 0xFFFE && (getRed r red).delivered && (r.intake.get red).isNone
  | none => false

/-- `BACKPRESSURE` of a hand (R262): a holding area is full, or has no room for a result that waits on the hand. -/
def backpressure (s : State) (hand : Nat) : Bool :=
  s.slots.any fun p => match p.2.score, p.2.job with
    | some sc, some j => ([0, 1, 2].any fun t => decide (holdSize j t ≤ areaUsed j t)) || match j.now with
      | some r => (List.range sc.reductions.length).any fun i => match sc.reductions[i]? with
        | some d => redHand s p.1 sc d == hand && resultWaits r sc i && areaShort s sc j i
        | none => false
      | none => false
    | _, _ => false

/-! ### The intake buffer (R238) -/

/-- Bytes of a result that wait in the intake: elements of entries that no pass has taken and no area holds. -/
def intakeLeft (sc : Score) (rank : Nat) (r : Run) (red : Nat) : Nat :=
  sumNat ((fedEntries sc rank red).map fun e =>
    let p := getPass r e.1
    if p.held || p.done || p.second then 0 else 4 * (e.2.elements - p.next))

/-- Bytes in a hand's intake buffer: those of every job's runs. -/
def intakeFill (s : State) (hand : Nat) : Nat :=
  sumNat (s.slots.map fun p => match p.2.score, p.2.job with
    | some sc, some j => sumNat (([j.cur, j.ahead].filterMap id).map fun r => sumNat (r.intake.map fun i =>
        match sc.reductions[i.1]? with
        | some d => if redHand s p.1 sc d = hand then intakeLeft sc j.rank r i.1 else 0
        | none => 0))
    | _, _ => 0)

/-- Bytes that a result adds to the buffer: those of entries that the engine reaches at once. -/
def intakeMore (s : State) (sc : Score) (rank red : Nat) : Nat :=
  sumNat ((fedEntries sc rank red).map fun e => match (entryGroup sc e.2).bind fun c => holdTier s (entryPages c e.2) with
    | some _ => 0
    | none => 4 * e.2.elements)

/-- Bytes of the intake buffer of a hand. -/
def intakeSize : Nat := 2097152

/-! ### The commands -/

/-- A gradient placed in a holding area, with the bytes it writes there now (R257) or later (R255). -/
def putArea (slot entry tier n : Nat) (gs : Option (List Word)) (s : State) : State :=
  match getJob s slot with
  | none => s
  | some j =>
    let a : HeldGrad := { entry, tier, spans := areaSpans j tier n }
    let s := modNow slot (fun r => { r with areas := r.areas ++ [a] }) s
    match gs with
    | some gs => storeLaid (heldRanges s slot a) (gs.flatMap fun w => leBytes 4 w.toNat) s
    | none => s

/-- One entry held: its gradient is written to the holding area, promotions are asked for, pages pinned; counters and the
notice once a bar follow (R257, R258, R260). -/
def holdEntry (slot hand : Nat) (sc : Score) (gs : List Word) (e : Nat × Entry) (s : State) : State :=
  match entryGroup sc e.2 with
  | none => s
  | some c =>
    let pages := entryPages c e.2
    let n := 4 * e.2.elements
    let tier := holdTier s pages
    let s := if c.shardMode = 2 then putArea slot e.1 0 n none s else s
    match tier with
    | none => s
    | some tier =>
      let s := putArea slot e.1 tier n (some ((gs.drop e.2.rFirst).take e.2.elements)) s
      let s := pinPages slot pages (askPages pages s)
      let s := modHand hand (fun h => { h with holdEvents := satAt 0xFFFF (h.holdEvents + 1), holdsMs := h.holdsMs + 1,
                                               holdEntries := satAt 0xFFFF (h.holdEntries + 1) }) s
      let s := modNow slot (fun r => { r with heldEntries := r.heldEntries + 1, waiting := r.waiting ++ [(e.1, tier, hand)],
                                              passes := r.passes.put e.1 { getPass r e.1 with held := true } }) s
      match getJob s slot with
      | none => s
      | some j => match j.now with
        | none => s
        | some run =>
          if j.holdTold = some run.bar then s
          else
            let bytes := sumNat (run.waiting.map fun w => 4 * ((sc.entries[w.1]?).map (·.elements)).getD 0)
            notice 0x31 1 slot run.bar (leBytes 1 slot ++ leBytes 8 run.bar ++ leBytes 4 run.waiting.length ++
              leBytes 8 bytes) (modJob slot (fun j => { j with holdTold := some run.bar }) s)

/-- A holding area that a result needs lies in a stack of a hand in reset (01 R24). -/
def areaAsleep (s : State) (slot : Nat) (sc : Score) (rank red : Nat) : Bool :=
  decide (0 < areaNeed s sc rank red 0) && placeAsleep s (pageNo (areaBase s slot 0))

/-- `GRADIENT_INTAKE`: a reduced gradient enters the engine's intake, or waits while the hand's buffer or a holding area it
needs is full (R238, R257, R259). A result goes in whole: it waits where it finds others in the buffer and no room for
itself beside them. -/
def execGradientIntake (slot : Nat) (red : Nat) (s : State) : Host.Outcome State Fault Refusal :=
  match getJob s slot, (getSlot s slot).score with
  | some j, some sc => match j.now, sc.reductions[red]? with
    | some run, some d =>
      if !resultWaits run sc red || areaAsleep s slot sc j.rank red || areaShort s sc j red then .next s
      else
        let hand := redHand s slot sc d
        let fed := fedEntries sc j.rank red
        let slow := 0 < areaNeed s sc j.rank red 1 + areaNeed s sc j.rank red 2
        let fill := intakeFill s hand
        let more := intakeMore s sc j.rank red
        -- a gradient of a look-ahead run is not written to LPDDR or flash (09 R267)
        if j.ahead.isSome && slow then .next s
        else if fill != 0 && decide (intakeSize < fill + more) then
          .next (modHand hand (fun h => { h with intakeHeld := true,
                                                 intakeFull := satAt 0xFFFF (h.intakeFull + bit (!h.intakeHeld)) }) s)
        else
          let gs := gradWords d (qOf run d.tensor) (getRed run red)
          let s := modHand hand (fun h => { h with intakeHeld := false,
                                                   intakeFull := satAt 0xFFFF (h.intakeFull + bit (decide (intakeSize ≤ fill + more))) }) s
          let s := modNow slot (fun r => { r with
            intake := r.intake.put red gs,
            intakeFlags := r.intakeFlags.put red (if d.mode = 2 then (getRed run red).flags else 0) }) s
          .next (fed.foldl (fun s e => holdEntry slot hand sc gs e s) s)
    | _, _ => .next s
  | _, _ => .next s

/-! ## `UPDATE_ELEMENT` (R239, R249, R254, R255) -/

/-- A held entry whose pass begins waits no more (R257, R262). -/
def unhold (slot entry : Nat) (s : State) : State :=
  match (getJob s slot).bind Job.now with
  | none => s
  | some run => match run.waiting.find? fun w => w.1 == entry with
    | none => s
    | some w =>
      let s := modHand w.2.2 (fun h => { h with holdEntries := h.holdEntries - 1 }) s
      modNow slot (fun r => { r with waiting := r.waiting.erase w }) s

/-- The gradient element that a pass reads (R249 step 1): from the intake; for a held entry, or in shard mode 2's second
pass, from the holding area. -/
def passGrad (s : State) (slot : Nat) (c : Group) (r : Run) (entry : Nat) (t : Entry) (gs : List Word) : Word :=
  let p := getPass r entry
  match heldGrad r entry (c.shardMode = 2 && p.second) with
  | some a => match byteAt (heldRanges s slot a) (4 * p.next) with
    | some x => readWord s x
    | none => gs.getD (t.rFirst + p.next) 0
  | none => gs.getD (t.rFirst + p.next) 0

/-- The first pass of shard mode 2: g written to the job's HBM holding area, G2 formed (R255). -/
def firstPass (slot entry : Nat) (g : Word) (n : Nat) (s : State) : State :=
  let run := ((getJob s slot).bind Job.now).getD (default : Run)
  let i := (getPass run entry).next
  let s := match (heldGrad run entry true).bind fun a => byteAt (heldRanges s slot a) (4 * i) with
    | some x => storeAt x (leBytes 4 g.toNat) s
    | none => s
  let s := modNow slot (fun r =>
    let p := getPass r entry
    let p := { p with parts := { p.parts with g2 := add64 p.parts.g2 (mul64 (widen g) (widen g)) },
                      nonfin := p.nonfin || !finite64 (widen g), next := p.next + 1 }
    setPass entry (if p.next = n then { p with second := true, next := 0 } else p) r) s
  if i + 1 = n then letArea slot entry (fun a => a.tier != 0) s else s

/-- The prescale of a shard: 1.0, or `GMAX` / sqrt(G2) where mode 2 clips (R255). -/
def prescaleOf (sc : Score) (r : Run) (sh : Nat) : W64 :=
  let l := shardEntries sc sh
  match l.head?.bind fun e => entryGroup sc e.2 with
  | some c =>
    let gm := widen c.gmax
    let g2 := shardG2 r l
    if c.shardMode = 2 && gt64 g2 (mul64 gm gm) then div64 gm (sqrt64 g2) else one64
  | none => one64

/-- Every entry of the shard has its G2. -/
def firstPassesDone (sc : Score) (r : Run) (sh : Nat) : Bool :=
  (shardEntries sc sh).all fun e => e.2.elements == 0 || (getPass r e.1).second

/-- One element updated: read, computed, written to the alternate buffer, added to the partials (R249, R254). A store
beyond the range of its format marks the element non-finite (R242, R243). -/
def updateOne (slot entry : Nat) (c : Group) (t : Entry) (cur : Nat) (eta : W64 × W64) (sPre g : W64) (i : Nat)
    (s : State) : State :=
  let w := round64 (readWeight s c t cur i)
  let m := round64 (readMoment s c t cur i)
  let r := recurrence c eta.1 eta.2 sPre g w m
  let s := writeTiers (elementRanges c t (1 - cur) i) (writeElement c t (1 - cur) i (num64 r.1) (num64 r.2) s.mem) s
  let w' := round64 (readWeight s c t (1 - cur) i)
  let m' := round64 (readMoment s c t (1 - cur) i)
  let diff := sub64 w' w
  let bad := !([mul64 g sPre, w, m, r.2, r.1, w', m'].all finite64)
  modNow slot (fun run =>
    let p := getPass run entry
    let q := p.parts
    setPass entry { p with
      next := i + 1, done := i + 1 == t.elements, nonfin := p.nonfin || bad,
      parts := { w2 := add64 q.w2 (mul64 w' w'), w2Old := add64 q.w2Old (mul64 w w),
                 g2 := if c.shardMode = 2 then q.g2 else add64 q.g2 (mul64 g g),
                 d2 := add64 q.d2 (mul64 diff diff) } } run) s

/-- `UPDATE_ELEMENT`: the next element of an entry's pass (R249); `err` says that reading its state met an
uncorrectable error, and the pass waits for the page's recovery (20 R570). State that left HBM since its gradient came
is asked for again (R257). -/
def execUpdateElement (slot : Nat) (entry : Nat) (err : Bool) (s : State) : Host.Outcome State Fault Refusal :=
  match getJob s slot, (getSlot s slot).score with
  | some j, some sc => match j.now, sc.entries[entry]? with
    | some run, some t => match entryGroup sc t, sc.shards[t.shard]?, run.intake.get t.red with
      | some c, some sh, some gs =>
        let pass := getPass run entry
        let pages := entryPages c t
        let area := rangePages ((run.areas.filter fun a => a.entry == entry).flatMap (heldRanges s slot))
        if run.look || j.ahead.isSome || sh.owner != j.rank || t.elements = 0 || pass.done then .next s
        else if pages.any fun q => !inReach s q then .next (askPages pages s)
        else if pages.any (fun q => (getPage s q).poison || asleep s q) || area.any (asleep s) then .next s
        else if err then
          .next (poisonPage (pageNo (t.wBase + shardCur j t.shard * t.alt + 4 * pass.next)) s)
        else
          let s := if pass.next = 0 && !pass.second then unhold slot entry (if pass.held then s else pinPages slot pages s) else s
          let g := passGrad s slot c run entry t gs
          if c.shardMode = 2 && !pass.second then .next (firstPass slot entry g t.elements s)
          else if c.shardMode = 2 && !firstPassesDone sc run t.shard then .next s
          else
            let eta := run.etas.getD t.group (one64, one64)
            let s := updateOne slot entry c t (shardCur j t.shard) eta (prescaleOf sc run t.shard) (widen g) pass.next s
            let s := if pass.next + 1 = t.elements then letArea slot entry (fun _ => true) s else s
            .next (settleShards slot s)
      | _, _, _ => .next s
    | _, _ => .next s
  | _, _ => .next s

end Sys2Proof.Machine
end

