-- ==== Sys2Proof/Machine/Scale.lean ====
section
/-! DEFINITION. Scales and histories (07 R210, R214 to R228, 05 R153), what a downbeat does to them, and the saved
numeric state. -/

namespace Sys2Proof.Machine

/-! ## Histories in force -/

/-- The largest entry of a history; entries are finite and not negative, so their bits order them. -/
def histMax (h : List Word) : Nat := h.foldl (fun a w => max a w.toNat) 0

def clampInt (lo hi v : Int) : Int := max lo (min hi v)

/-- σ of a tensor from a history and its mark word (R214). -/
def sigmaFrom (t : Tensor) (h : List Word) (mark : Nat) : Int :=
  let m := histMax h
  let f := fmtOfCode t.fmt
  let s := if m = 0 then 0 else largestShift (num32 (BitVec.ofNat 32 m)) (f.decode f.maxFin) - t.headroom
  let s := if mark = 0 then s else s - 2
  if fmtIsFp8 t.fmt then clampInt (-60) 60 s else clampInt (-127) 127 s

/-- The exact-mode exponent Q (R153). -/
def exactQ (h : List Word) : Int :=
  if histMax h = 0 then -126 else ceilLog2Num (num32 (BitVec.ofNat 32 (histMax h)))

/-- The history and mark word that scales come from: the working ones during cold scaling (R153, R224). -/
def Hist.inForce (cold : Nat) (h : Hist) : List Word × Nat :=
  if cold = 0 then (h.hist, h.mark) else (h.work, h.wmark)

/-- A history updated by a combined bar word: magnitude bits and overflow flag (R217). -/
def histStep (b : Nat × Bool) (h : List Word × Nat) : List Word × Nat :=
  let w := BitVec.ofNat 32 b.1
  if b.2 then (List.replicate 16 w, 0xFFFF) else (w :: h.1.take 15, h.2 * 2 % 65536)

/-- One tensor's histories at a downbeat of commit, skip or re-run (R217, R224); `close` at the one that ends cold
scaling (R225). -/
def Hist.atDownbeat (cold : Nat) (close : Bool) (b : Nat × Bool) (h : Hist) : Hist :=
  if cold = 0 then
    let n := histStep b (h.hist, h.mark)
    { h with hist := n.1, mark := n.2 }
  else
    let r := histStep b (h.refill, h.rmark)
    let w := if b.2 then histStep b (h.work, h.wmark) else (h.work, h.wmark)
    { hist := if close then r.1 else h.hist, mark := if close then r.2 else h.mark,
      refill := r.1, rmark := r.2, work := w.1, wmark := w.2 }

/-- All histories and the cold count at a downbeat; `counts` says that the verdict is commit or skip (R223). -/
def histsAfter (cold : Nat) (hs : List Hist) (words : List (Nat × Bool)) (counts : Bool) : List Hist × Nat :=
  let close := counts && cold == 1
  ((List.range hs.length).map fun i => (hs.getD i ⟨[], 0, [], 0, [], 0⟩).atDownbeat cold close (words.getD i (0, false)),
   if counts then cold - 1 else cold)

/-- Initial histories of a job that starts in cold scaling (R223, R224). -/
def coldHists (sc : Score) : List Hist :=
  sc.tensors.map fun t => { hist := List.replicate 16 0, work := t.initHist, refill := List.replicate 16 0 }

/-- A run with σ, Q and the cold count of the histories in force as it opens (R214, R153, R224). -/
def Run.withScales (sc : Score) (hs : List Hist) (cold : Nat) (r : Run) : Run :=
  let inForce (i : Nat) := (hs.getD i ⟨[], 0, [], 0, [], 0⟩).inForce cold
  { r with cold,
           sigma := (List.range sc.tensors.length).map fun i => match sc.tensors[i]? with
             | some t => sigmaFrom t (inForce i).1 (inForce i).2
             | none => 0,
           q := (List.range sc.tensors.length).map fun i => exactQ (inForce i).1 }

/-- The sixteen words of a scale line (R210). -/
def scaleLine (sigma q : Int) (cold marked : Bool) : List Word :=
  [pow2w sigma, pow2w (-sigma), BitVec.ofInt 32 sigma, BitVec.ofInt 32 q, BitVec.ofNat 32 (bit cold + 2 * bit marked)] ++
    List.replicate 11 0

/-- Every scale line that the score names is written before beat 0 (R210). -/
def writeScaleLines (slot : Nat) (hs : List Hist) (cold : Nat) (run : Run) (s : State) : State :=
  match (getSlot s slot).score, slotPart s slot with
  | some sc, some (p, ghost) =>
    let part := getPart s p
    (List.range sc.tensors.length).foldl (fun s i => match sc.tensors[i]? with
      | none => s
      | some t =>
        let mark := ((hs.getD i ⟨[], 0, [], 0, [], 0⟩).inForce cold).2
        let line := (scaleLine (run.sigma.getD i 0) (run.q.getD i 0) (cold != 0) (mark != 0)).flatMap fun w =>
          leBytes 4 w.toNat
        t.binds.foldl (fun s b => match b.sline with
          | none => s
          | some l =>
            let w := partWin s part
            let shift := if !ghost then 0 else if l < 0x4000 then w.localBase / 64
              else (w.deepBase + 136 * 1024) / 64
            modCore (coreKey part ghost w b.row b.col) (fun c => sramWrite c (l + shift) 0 line) s) s) s
  | _, _ => s

/-! ## Bar words (R216) -/

/-- This device's bar words: bar maximum and overflow flag of each scaled tensor. -/
def ownWords (sc : Score) (r : Run) : List (Nat × Bool) :=
  (List.range sc.tensors.length).map fun i => (r.bmax.getD i 0, r.ovf.contains i)

/-- Two bar words combined: unsigned maximum and OR (R216). -/
def combineWord (a b : Nat × Bool) : Nat × Bool := (max a.1 b.1, a.2 || b.2)

/-- Combined words with what the other devices contribute. -/
def combineWords (own others : List (Nat × Bool)) : List (Nat × Bool) :=
  (List.range own.length).map fun i => combineWord (own.getD i (0, false)) (others.getD i (0, false))

/-! ## Saved numeric state (R226, R227) -/

/-- The bytes of the saved numeric state, with the score digest given. While cold scaling lasts `HIST` and `MARK` hold
the refill history [DEDUCED, log 31]. -/
def savedNumeric (digest : List Byte) (j : Job) : List Byte :=
  let head := fitTo 64 digest ++ leBytes 8 j.nextBar ++ leBytes 2 j.hists.length ++ leBytes 1 j.cold ++
    List.replicate 53 0
  head ++ j.hists.flatMap fun h =>
    let live := if j.cold = 0 then (h.hist, h.mark) else (h.refill, h.rmark)
    (live.1.flatMap fun w => leBytes 4 w.toNat) ++ fitTo 64 (h.work.flatMap fun w => leBytes 4 w.toNat) ++
      leBytes 2 live.2 ++ leBytes 2 h.wmark ++ List.replicate 12 0

/-- A saved history value that a restore takes: finite and not negative (R227). -/
def histOk (w : Word) : Bool := finite32 w && !(num32 w).isNeg

/-- The histories of a saved numeric state, or none where R227 refuses it for its tensor count or a value. `WORK` has
meaning only while `COLD` is over 0 (R226): else its words are kept and not checked. -/
def readNumeric (sc : Score) (bs : List Byte) : Option (List Hist × Nat) :=
  let n := leNat ((bs.drop 0x48).take 2)
  let cold := leNat ((bs.drop 0x4A).take 1)
  let recs := (List.range n).map fun i =>
    let r := bs.drop (0x80 + 144 * i)
    let h := wordsOf 16 (r.take 64)
    let w := wordsOf 16 ((r.drop 64).take 64)
    let mark := leNat ((r.drop 128).take 2)
    let wmark := leNat ((r.drop 130).take 2)
    if cold = 0 then ({ hist := h, mark, work := w, wmark } : Hist)
    else { hist := List.replicate 16 0, work := w, wmark, refill := h, rmark := mark }
  if n = sc.tensors.length && 0x80 + 144 * n ≤ bs.length && cold ≤ 16 &&
      recs.all (fun h => (if cold = 0 then h.hist else h.work ++ h.refill).all histOk) then some (recs, cold)
  else none

end Sys2Proof.Machine
end

