-- ==== Sys2Proof/Machine/Adapt.lean ====
section
/-! DEFINITION. Adaptations in jobs (12 R345 to R363): shapes, fit, authority to claim, pins, bindings, and the resolution
of claims and releases at a downbeat (R356 to R361); free ranges and frames of the tiers (10 R297, R307, R310, R313). -/

namespace Sys2Proof.Machine

/-! ## Free ranges and frames -/

/-- A range that no region, and no page still being zeroed, touches. -/
def rangeFree (s : State) (a size : Nat) : Bool :=
  !(s.regions.any fun r => r.meets a (a + size)) &&
    !(s.zeroing.any fun z => decide (pageAddr z.1 < a + size) && decide (a < pageAddr z.1 + z.2 * pageBytes))

/-- The lowest free range of a tier, page aligned; one starts at the tier's base or where something ends. -/
def freeRange (s : State) (tier size align : Nat) : Option Nat :=
  let base := tier * 2 ^ 52
  let up (a : Nat) := ceilDiv a align * align
  let ends := (s.regions.map fun r => r.stop) ++ s.zeroing.map fun z => pageAddr z.1 + z.2 * pageBytes
  let starts := (base :: ends.map up).filter fun a =>
    decide (base ≤ a) && decide (a + size ≤ base + tierLimit tier) && rangeFree s a size &&
      outsideStore s a size
  starts.foldl (fun (best : Option Nat) a => match best with
    | none => some a
    | some b => some (min a b)) none

/-- The tenant that owns a page. -/
def pageOwner (s : State) (n : Nat) : Nat := ((pageRegion s n).map (·.owner)).getD 0

/-- Frames that descriptors stand for: 32 where they are a mapping's. -/
def framesOf (s : State) (l : List Nat) : Nat := sumNat (l.map fun n => (pageGroup s n).length)

/-- Key/value pool bytes that a tenant's pages hold now (12 R368 `KV_USED`). -/
def kvHeld (s : State) (c : Nat) : Nat :=
  framesOf s ((s.pages.filter fun p => p.2.pool == some 1 && pageOwner s p.1 == c).map (·.1)) * pageBytes

/-- The page that a pool gives up next (R310): one that may leave and is not on its way, of a tenant over its quota of
the pool first, then the one used longest ago. -/
def poolVictim (s : State) (pool : Nat) : Option Nat :=
  let here := s.pages.filter fun p => p.2.pool == some pool
  let able := here.filter fun p => mayLeave s p.1 && p.2.move == 0
  let past (n : Nat) : Bool :=
    let o := pageOwner s n
    let q := (s.tenants.getD o {}).quotas
    let bytes := framesOf s ((here.filter fun p => pageOwner s p.1 == o).map (·.1)) * pageBytes
    match pool with
    | 0 => decide (q.hot < bytes)
    | 1 => decide (q.kv < bytes)
    | _ => false
  let pick (l : List (Nat × PageDesc)) : Option Nat :=
    (l.foldl (fun (best : Option (Nat × Nat)) p => match best with
      | none => some (p.1, p.2.lastUse)
      | some b => if p.2.lastUse < b.2 then some (p.1, p.2.lastUse) else some b) none).map (·.1)
  match pick (able.filter fun p => past p.1) with
  | some n => some n
  | none => pick able

/-- A pool has no free frame: its victim starts to leave, a clean page at once (R310). -/
def makeRoom (pool : Nat) (s : State) : State :=
  match poolVictim s pool with
  | some n => if (getPage s n).dirty then modPage n (fun d => { d with move := 2 }) s else freeFrame n s
  | none => s

/-- A promotion that finds its pool full of pinned and held pages waits: it is counted once, and told at most once a
minute (R313). -/
def countPoolWait (q : PromoReq) (s : State) : State :=
  let stuck := s.pages.all fun p => p.2.pool != some q.pool || !mayLeave s p.1
  if q.waited || !stuck then s
  else
    let p := getPool s q.pool
    let due := match p.told with
      | none => true
      | some t => decide (t + 60000000000 ≤ s.ptp.now)
    let s := setPool s q.pool { p with waits := p.waits + 1, told := if due then some s.ptp.now else p.told }
    let s := { s with promoQ := s.promoQ.map fun x => if x = q then { x with waited := true } else x }
    if due then notice 0x41 0 q.pool 0 [] s else s

/-! ## Shape and fit (R345, R346, R353) -/

/-- Rows and elements per row of the matrices of one layer, in the order of R345. -/
def adaptMats (f : AdaptF) : List (Nat × Nat) :=
  match f.kind with
  | 0 => [(f.dIn, f.rank), (f.rank, f.dOut)]
  | 1 => [(1, f.dOut)]
  | 2 => [(f.dIn, f.dOut), (f.dIn, f.dOut), (f.dOut, f.dIn), (1, f.dIn)]
  | _ => [(f.rank, f.dOut), (f.rank, f.dOut)]

/-- Bytes of one stored row: packed elements, and for an MX format its scale line (R199, R200, R346). -/
def rowBytesOf (fmt n : Nat) : Nat :=
  ceilDiv (n * fmtBits fmt) 8 + (if fmtIsMx fmt then ceilDiv n 32 else 0)

/-- Elements of an adaptation over its layers. -/
def adaptElems (f : AdaptF) : Nat := f.layers.length * sumNat ((adaptMats f).map fun m => m.1 * m.2)

/-- `BYTES` that the shape gives (R346). -/
def adaptBytes (f : AdaptF) : Nat :=
  f.layers.length * sumNat ((adaptMats f).map fun m => m.1 * rowBytesOf f.fmt m.2) +
    (if bitOf f.planes 0 then 2 * adaptElems f else 0) + (if bitOf f.planes 1 then 4 * adaptElems f else 0) +
    (if bitOf f.planes 2 then 2 * adaptElems f else 0)

/-- The base declares a site, or for kind 2 the expert position, in a layer (R348, R353). -/
def layerHas (man : Manifest) (kind site layer : Nat) : Bool :=
  match man.layers[layer]? with
  | some l => if kind = 2 then l.opens.contains site else (l.siteClass.getD site 0) != 0
  | none => false

/-- An adaptation fits a slot of a job (R353). -/
def adaptFits (s : State) (sc : Score) (d : SlotDesc) (ad : Adapt) : Bool :=
  ad.f.kind == d.sclass &&
    (if ad.f.kind = 2 then match s.base with
      | some b => ad.f.layers.all fun l => layerHas b.man 2 d.site l
      | none => false
     else ad.f.site == d.site) &&
    ad.f.fmt == d.fmt && decide (ad.f.rank ≤ d.limit || (ad.f.kind != 0 && ad.f.kind != 3)) &&
    decide (64 + ad.f.bytes ≤ d.wsize) && ad.baseDigest == sc.baseDigest

/-- The compatibility class of an adaptation's place in a layer (R364, R365). -/
def layerClass (man : Manifest) (f : AdaptF) (layer : Nat) : Nat :=
  match man.layers[layer]? with
  | some l => if f.kind = 2 then 0 else l.siteClass.getD f.site 0
  | none => 0

/-- A principal that holds `ctx` may claim an adaptation into a job (R355). -/
def mayClaim (ctx jobOwner : Nat) (ad : Adapt) : Bool :=
  if ctx = ad.owner && ctx != 0 then jobOwner == ctx || jobOwner == 0 || ad.grantees.contains jobOwner
  else if ctx = 0 then
    if jobOwner = 0 then ad.f.kind != 2 || ad.grantees.contains 0
    else ad.f.kind != 2 && jobOwner == ad.owner
  else ad.grantees.contains ctx && ad.grantees.contains jobOwner

/-! ## Pins (R360) -/

def adaptPages (ad : Adapt) : List Nat := pageSpan ad.home ad.f.bytes

def modAdapt (id : Nat) (f : Adapt → Adapt) (s : State) : State := { s with registry := s.registry.upd id f }

/-- A completion that waits for a downbeat's release beat (R470). -/
def holdCpl (slot : Nat) (w : Wait) (status : Nat) (result : List Byte) (s : State) : State :=
  modJob slot (fun j => { j with heldCpls := j.heldCpls ++ [⟨w, status, result⟩] })
    (if refusalCode status then countRefuse w status noDetail s else s)

/-- One more pin; the first marks the pages and counts in `HOT_PINNED` (R360, R368). -/
def pinAdapt (id : Nat) (s : State) : State :=
  match s.registry.get id with
  | none => s
  | some ad =>
    let s := modAdapt id (fun a => { a with pins := a.pins + 1 }) s
    if ad.pins != 0 then s
    else
      let l := adaptPages ad
      let s := modPages l PageDesc.pinned s
      modTenant ad.owner (fun t => { t with hotPinned := t.hotPinned + l.length * pageBytes }) s

/-- One pin less; the last lets the pages go and completes a revocation (R360, R362). -/
def unpinAdapt (slot id : Nat) (s : State) : State :=
  match s.registry.get id with
  | none => s
  | some ad =>
    let s := modAdapt id (fun a => { a with pins := a.pins - 1 }) s
    if ad.pins != 1 then s
    else
      let l := adaptPages ad
      let s := unpinPages (pageUnits s l) s
      let s := modTenant ad.owner (fun t => { t with hotPinned := t.hotPinned - l.length * pageBytes }) s
      if ad.state != .revoking then s
      else
        let s := modAdapt id (fun a => { a with state := .ready, revokeWaits := [] }) s
        ad.revokeWaits.foldl (fun s w => holdCpl slot w cOk [] s) s

/-- Pages of an adaptation that rest in a slow tier are asked for in class 3 (R308, R357). -/
def promoteAdapt (id : Nat) (s : State) : State :=
  match s.registry.get id with
  | none => s
  | some ad => (adaptPages ad).foldl (fun s n =>
      if inHbm s n then s else askPromotion { cls := 3, page := n, pool := 0 } s) s

/-! ## Bindings (R356 to R361) -/

/-- Requests of a job that hold a pin through a slot (R361, R391). -/
def requestPins (s : State) (slot aslot id : Nat) : Nat :=
  (s.reqs.filter fun p => p.2.f.slot == slot && p.2.f.aslot == some aslot && p.2.adapt == some id &&
    p.2.state != .ended).length

/-- A binding from bar B on. -/
def putBinding (slot aslot : Nat) (b : Binding) (s : State) : State :=
  modJob slot (fun j => { j with bindings := j.bindings.put aslot (j.bindings.getD aslot [] ++ [b]) }) s

/-- A claim that won takes effect at bar B (R357). -/
def bindAdapt (slot aslot id B : Nat) (s : State) : State :=
  let s := putBinding slot aslot ⟨some id, B⟩ s
  let s := modAdapt id (fun a => { a with bound := a.bound + 1 }) s
  promoteAdapt id (pinAdapt id s)

/-- The pending releases met at the resolving downbeat of bar n (R358, R361). -/
def applyReleases (slot n B : Nat) (s : State) : State :=
  match getJob s slot with
  | none => s
  | some j => j.releases.foldl (fun s r =>
      let due := r.eff.isNone && (r.force || match r.cbar with
        | none => true
        | some c => c == n + 1)
      let held := !r.force && requestPins s slot r.aslot r.adapt != 0
      if !due then s
      else if held then
        (match r.cbar, r.w with
          | some _, some w => holdCpl slot w cStateConflict []
              (modJob slot (fun j => { j with releases := j.releases.erase r }) s)
          | _, _ => s)
      else putBinding slot r.aslot ⟨none, B⟩ (modJob slot (fun j => { j with
        releases := j.releases.map fun x => if x = r then { x with eff := some B } else x }) s)) s

/-- The pending claims met at the resolving downbeat of bar n, in the order of R356. -/
def applyClaims (slot n B : Nat) (s : State) : State :=
  match getJob s slot with
  | none => s
  | some j =>
    let due := j.claims.filter fun c => match c.cbar with
      | none => true
      | some b => b == n + 1
    let order := due.mergeSort fun a b =>
      decide (b.prio < a.prio) || (a.prio == b.prio && decide (a.adapt ≤ b.adapt))
    let s := modJob slot (fun j => { j with claims := j.claims.filter fun c => !due.contains c }) s
    order.foldl (fun s c =>
      match s.registry.get c.adapt, getJob s slot with
      | some ad, some j =>
        if c.denied then holdCpl slot c.w cDenied [] s
        else if ad.state = .revoking then holdCpl slot c.w cAdapterRevoked [] s
        else if c.lost || ad.state != .ready then holdCpl slot c.w cStateConflict [] s
        else if (boundAt j c.aslot B).isSome || j.bindings.any (fun p => boundAt j p.1 B == some c.adapt) then
          holdCpl slot c.w cSlotBusy [] s
        else
          let s := bindAdapt slot c.aslot c.adapt B s
          let s := logChange c.w slot B (leBytes 2 c.adapt ++ leBytes 2 c.aslot ++ leBytes 8 B) s
          holdCpl slot c.w cOk (leBytes 8 B) s
      | _, _ => holdCpl slot c.w cStateConflict [] s) s

/-- Applied releases whose last reading bar has its verdict drop their pin and complete (R361). -/
def finishReleases (slot n : Nat) (s : State) : State :=
  match getJob s slot with
  | none => s
  | some j =>
    let due := j.releases.filter fun r => match r.eff with
      | some b => decide (b ≤ n + 1)
      | none => false
    let s := modJob slot (fun j => { j with releases := j.releases.filter fun r => !due.contains r }) s
    due.foldl (fun s r =>
      let s := unpinAdapt slot r.adapt (modAdapt r.adapt (fun a => { a with bound := a.bound - 1 }) s)
      match r.w with
      | some w =>
        let b := r.eff.getD 0
        holdCpl slot w cOk (leBytes 8 b) (logChange w slot b (leBytes 2 r.adapt ++ leBytes 2 r.aslot ++ leBytes 8 b) s)
      | none => s) s

/-- Claims and releases at a resolving downbeat of bar n; B is the lowest bar that has not opened (R356, R357). -/
def resolveSlots (slot n B : Nat) (s : State) : State :=
  finishReleases slot n (applyClaims slot n B (applyReleases slot n B s))

end Sys2Proof.Machine
end

