-- ==== Sys2Proof/Machine/Rows.lean ====
section
/-! DEFINITION. Generation jobs (13 R373 to R397): rows, row blocks, admission, key/value pages, what a bar does to
requests and sessions at its verdict, token records. -/

namespace Sys2Proof.Machine

/-! ## Tokens of a request -/

/-- The first position whose token is not known yet: prompt and generated tokens lie before it (R378, R379). -/
def knownEnd (q : Request) : Nat := q.pend - q.f.prompt.length + q.tokens.length

/-- Tokens of a request at positions from `p` on. -/
def tokensFrom (q : Request) (p n : Nat) : List Nat := (q.tokens.drop (p - (q.pend - q.f.prompt.length))).take n

/-- Context limit in tokens (R373). -/
def contextLimit (g : GenBlock) : Nat := 16 * g.kvPages

/-- What a row feeds: n tokens from position p, and whether the bar samples after them (R375, R384). -/
def feedOf (g : GenBlock) (q : Request) (id : Nat) : RowFeed :=
  let n := min g.chunk (knownEnd q - q.pos)
  { req := id, n, p := q.pos, sample := q.f.maxNew != 0 && decide (q.pend ≤ q.pos + n) && q.pos + n == knownEnd q }

/-- The token that a bar drew for a row, or its end without a candidate. -/
def drawOf (r : Run) (row : Nat) : Option Draw := r.draws.find? fun d => d.row == row

/-- A request after a bar that fed it, and the end reason that the bar itself gives, 0 for none (R389). -/
def afterBar (g : GenBlock) (r : Run) (row : Nat) (fd : RowFeed) (q : Request) : Request × Nat :=
  let pos := q.pos + fd.n
  let q' := { q with pos }
  let ctx := if contextLimit g ≤ pos then 5 else 0
  match drawOf r row with
  | some d => match d.token with
    | none => (q', 6)
    | some t =>
      let q' := { q' with tokens := q.tokens ++ [t] }
      if bitOf q.f.stop 31 && q.f.stop % 2 ^ 24 = t then (q', 3)
      else if q.f.maxNew ≤ pos + 1 - q.pend then (q', 4)
      else (q', ctx)
  | none => if q.f.maxNew = 0 && decide (q.pend ≤ pos) then (q', 4) else (q', ctx)

/-! ## Row blocks (R375) -/

/-- The penalty set: the last `PWIN` tokens before position `stop`, unused entries all ones (R375). -/
def penaltySet (q : Request) (stop : Nat) : List Nat :=
  let known := tokensFrom q (q.pend - q.f.prompt.length) (stop - (q.pend - q.f.prompt.length))
  let l := known.drop (known.length - q.f.pwin)
  l ++ List.replicate (64 - l.length) 0xFFFFFFFF

/-- The 2,048 bytes of a row's block; an idle one has no request (R375). -/
def rowBlock (q : Option (Request × RowFeed)) : List Byte :=
  match q with
  | none => List.replicate 0x440 0 ++ (List.replicate 64 0xFFFFFFFF).flatMap (leBytes 4) ++ List.replicate 704 0
  | some (q, f) =>
    let toks := tokensFrom q f.p f.n
    leBytes 4 0x3F800000 ++ leBytes 4 f.n ++ leBytes 4 f.p ++ leBytes 4 (bit f.sample) ++ List.replicate 48 0 ++
      (toks ++ List.replicate (256 - toks.length) 0).flatMap (leBytes 4) ++
      ((penaltySet q (f.p + f.n)).flatMap (leBytes 4)) ++ List.replicate 704 0

/-- The row-block region of a slot's job. -/
def rowRegion (s : State) (slot : Nat) : Option Region :=
  s.regions.find? fun r => r.slot == some slot && r.rowBlocks

/-- A row's block written in the buffer that a run reads, or in its alternate buffer. -/
def writeRowBlock (slot row : Nat) (look wr : Bool) (bytes : List Byte) (s : State) : State :=
  match getJob s slot, rowRegion s slot with
  | some j, some r => storeAt (resolveAddr j r look wr (r.base + row * 2048)) bytes s
  | _, _ => s

/-! ## Key/value pages (R376, R377, R381) -/

/-- The lowest free frames of a pool, one for each page given, are taken; none if they do not suffice. -/
def takeFrames (pool : Nat) : List Nat → State → Option State
  | [], s => some s
  | n :: l, s => match freeFrameOf (getPool s pool) with
    | none => none
    | some f =>
      let p := getPool s pool
      takeFrames pool l (modPage n (fun d => { d with pool := some pool, frame := f, move := 0, lastUse := s.ptp.now })
        (setPool s pool { p with used := p.used ++ [f] }))

/-- A new page of a session: a home in LPDDR and frames in the key/value pool, within the tenant's quotas (R377,
R381). -/
def newKvPage (sid : Nat) (g : GenSess) (s : State) : Option State :=
  let t := s.tenants.getD g.owner {}
  if g.maxPages ≤ g.pages.length || maxRegions ≤ s.regions.length || t.quotas.lp < t.lpUsed + g.pageBytes || t.quotas.kv < kvHeld s g.owner + g.pageBytes then none
  else match freeRange s 2 g.pageBytes pageBytes with
    | none => none
    | some a => match takeFrames 1 (pageSpan a g.pageBytes) s with
      | none => none
      | some s =>
        let s := modTenant g.owner (fun t => { t with lpUsed := t.lpUsed + g.pageBytes }) s
        some { s with regions := s.regions ++ [{ base := a, size := g.pageBytes, kind := 0, owner := g.owner, kgen := t.keyGen }],
                      sess := s.sess.put sid { g with pages := g.pages ++ [a] } }

/-- Page `i` of a session is resident in the key/value pool, or is made so where it is new (R377). -/
def kvPageReady (sid i : Nat) (s : State) : State × Bool :=
  match s.sess.get sid with
  | none => (s, false)
  | some g => match g.pages[i]? with
    | some a =>
      let l := pageSpan a g.pageBytes
      if l.all fun n => (getPage s n).pool == some 1 then (s, true)
      else (l.foldl (fun s n => askPromotion { cls := 3, page := n, pool := 1 } s) s, false)
    | none =>
      if i != g.pages.length then (s, false)
      else match newKvPage sid g s with
        | some s => (s, true)
        | none => (if (freeFramesOf (g.pageBytes / pageBytes) s.kv).isNone then makeRoom 1 s else s, false)

/-- Pages of a session that positions p to p + n − 1 write. -/
def kvPagesOf (p n : Nat) : List Nat := if n = 0 then [] else (List.range ((p + n - 1) / 16 - p / 16 + 1)).map (p / 16 + ·)

/-- Every page that a feed writes is ready; those that are get pinned until the verdict (R377). -/
def feedReady (sid : Nat) (f : RowFeed) (s : State) : State × Bool :=
  (kvPagesOf f.p f.n).foldl (fun (a : State × Bool) i =>
    let r := kvPageReady sid i a.1
    (r.1, a.2 && r.2)) (s, true)

/-- The 64 KiB pages behind a feed. -/
def feedPages (s : State) (sid : Nat) (f : RowFeed) : List Nat :=
  match s.sess.get sid with
  | none => []
  | some g => (kvPagesOf f.p f.n).flatMap fun i => match g.pages[i]? with
    | some a => pageSpan a g.pageBytes
    | none => []

/-! ## Admission (R382) -/

/-- Queued requests of a slot in order of admission: `PRIO` highest first, then lowest ID. -/
def queuedFor (s : State) (slot : Nat) : List (Nat × Request) :=
  (s.reqs.filter fun p => p.2.f.slot == slot && p.2.state == .queued).mergeSort fun a b =>
    decide (b.2.f.prio < a.2.f.prio) || (a.2.f.prio == b.2.f.prio && decide (a.1 ≤ b.1))

/-- A session held by a request; one without pages takes the page size of the job that it comes to (R373, R376). -/
def holdSession (id size : Nat) (g : GenSess) : GenSess :=
  { g with state := .held, req := some id, pageBytes := if g.pages.isEmpty then size else g.pageBytes }

/-- One request given a row at bar B (R382). -/
def admitTo (slot B row id : Nat) (q : Request) (s : State) : State :=
  let size := (((getJob s slot).bind (·.f.gen)).map (·.pageBytes)).getD pageBytes
  let s := { s with reqs := s.reqs.put id { q with state := .live, row := some row, abar := some B },
                    sess := s.sess.upd q.f.session (holdSession id size) }
  let s := modJob slot (fun j => { j with rowReq := j.rowReq.put row id }) s
  let s := match s.sess.get q.f.session with
    | some g => (g.pages.flatMap fun a => pageSpan a g.pageBytes).foldl (fun s n =>
        askPromotion { cls := 3, page := n, pool := 1 } s) s
    | none => s
  match q.adapt with
  | some a => promoteAdapt a s
  | none => s

/-- Admissions before bar B opens (R382): the rows given, and the requests whose `ABAR` has passed, which end with reason 7; once a
request finds no free row (`full`), none behind it takes one. -/
def admitAll (slot B : Nat) (g : GenBlock) : Bool → List (Nat × Request) → State → State × List Admit × List Nat
  | _, [], s => (s, [], [])
  | full, (id, q) :: l, s =>
    let held := match s.sess.get q.f.session with
      | some x => x.state != .opened
      | none => false
    let late := match q.f.abar with
      | some b => decide (b < B)
      | none => false
    let other := match q.f.abar with
      | some b => b != B
      | none => false
    if q.why != 0 then admitAll slot B g full l s
    else if late then
      let a := admitAll slot B g full l { s with reqs := s.reqs.put id { q with why := 7 } }
      (a.1, a.2.1, id :: a.2.2)
    else if full || other || held then admitAll slot B g full l s
    else
      let rows := ((getJob s slot).map (·.rowReq)).getD []
      match (List.range g.rows).find? fun r => (Table.get rows r).isNone && g.plan.getD r none == q.f.aslot with
      | none => admitAll slot B g true l s
      | some row =>
        let a := admitAll slot B g full l (admitTo slot B row id q s)
        (a.1, ⟨row, id⟩ :: a.2.1, a.2.2)

/-! ## A bar's rows as it opens (R375, R377, R384) -/

/-- A request as a run that opens sees it: a look-ahead run sees it as the open bar's commit will leave it, and not at
all where that bar ends it (R382, R390). -/
def viewOf (g : GenBlock) (open_ : Option Run) (row : Nat) (q : Request) : Option Request :=
  match open_.bind fun r => (r.feeds.get row).map fun f => (r, f) with
  | some (r, f) =>
    let a := afterBar g r row f q
    if a.2 = 0 && q.why = 0 then some a.1 else none
  | none => if q.why = 0 || open_.isNone then some q else none

/-- The feeds of a run that opens; rows whose pages are not ready are stalled (R377). -/
def openFeeds (slot : Nat) (g : GenBlock) (open_ : Option Run) (s : State) : State × Table RowFeed × List Nat :=
  let rows := ((getJob s slot).map (·.rowReq)).getD []
  rows.foldl (fun (a : State × Table RowFeed × List Nat) p =>
    match (a.1.reqs.get p.2).bind fun q => (viewOf g open_ p.1 q).map fun v => (q, v) with
    | none => a
    | some (q, v) =>
      let f := feedOf g v p.2
      let r := feedReady q.f.session f a.1
      let f := if r.2 then f else { f with n := 0, sample := false, stalled := true }
      (r.1, a.2.1.put p.1 f, a.2.2 ++ feedPages r.1 q.f.session f)) (s, [], [])

/-- Pages that sessions have now and had not before: the run's own until its verdict (R384 order 6). -/
def newPages (before after : Table GenSess) : List (Nat × Nat) :=
  after.flatMap fun p => (p.2.pages.drop ((before.get p.1).map (·.pages.length) |>.getD 0)).map fun a => (p.1, a)

/-- What the hub writes for a generation job as a bar or a look-ahead run opens, order 1 of R384: admissions, feeds, row blocks;
all of it is the run's and goes with it where the run is discarded (R272, R382, R384 order 6). -/
def openRows (slot B : Nat) (look : Bool) (open_ : Option Run) (run : Run) (s : State) : State × Run :=
  match (getJob s slot).bind fun j => j.f.gen with
  | none => (s, run)
  | some g =>
    let a := admitAll slot B g false (queuedFor s slot) s
    let f := openFeeds slot g open_ a.1
    let kv := newPages a.1.sess f.1.sess
    let s := (List.range g.rows).foldl (fun s r =>
      let q := (f.2.1.get r).bind fun fd => (s.reqs.get fd.req).map fun q =>
        (match open_.bind fun o => (o.feeds.get r).map fun of => (afterBar g o r of q).1 with
          | some v => v
          | none => q, fd)
      writeRowBlock slot r look false (rowBlock q) s) f.1
    let pins := pageUnits s f.2.2
    (modPages pins PageDesc.pinned s, { run with
      feeds := f.2.1, admits := a.2.1, lates := a.2.2, kvNew := kv, pins,
      stalls := (f.2.1.filter fun p => p.2.stalled).length })

/-! ## Verdicts (R384 order 6, R389 to R393) -/

/-- What a prompt takes of its tenant's LPDDR quota until its request ends (R379). -/
def promptBytes (f : ReqF) : Nat := 4 * f.prompt.length

/-- The session that a request holds carries the time of the verdict that changes it (R380 `LAST`). -/
def stampSession (req : Nat) (s : State) : State :=
  { s with sess := s.sess.map fun p => if p.2.req == some req then (p.1, { p.2 with last := s.ptp.now }) else p }

/-- A request ends with a reason: its pin, session and row are let go (R391). -/
def endRequest (slot id reason : Nat) (s : State) : State :=
  match s.reqs.get id with
  | none => s
  | some q =>
    let s := letSession id (stampSession id { s with reqs := s.reqs.put id { q with state := .ended, reason, row := none } })
    let s := modTenant q.owner (fun t => { t with lpUsed := t.lpUsed - promptBytes q.f }) s
    let s := modJob slot (fun j => { j with rowReq := j.rowReq.filter fun p => p.2 != id }) s
    match q.adapt with
    | some a => unpinAdapt slot a s
    | none => s

/-- A completion record joins those that wait for the release beat (R393, R394): one for each request and bar, so that an end met
after the bar's own record is that record's. -/
def addRecord (slot id bar reason : Nat) (token : Option Nat) (s : State) : State :=
  match s.reqs.get id with
  | none => s
  | some q =>
    if s.tokens.any fun t => t.slot == slot && t.req == id && t.bar == bar then
      { s with tokens := s.tokens.map fun t => if t.slot = slot && t.req = id && t.bar = bar then
          { t with reason, flags := if bitOf t.flags 2 || reason = 0 then t.flags else t.flags + 4 } else t }
    else
    let fl := bit token.isSome + 2 * bit (!q.told) + 4 * bit (reason != 0)
    let t : TokenRec := { slot, sess := q.sess, prin := q.prin, req := id, reason, flags := fl, bar, position := q.pos,
                          token := token.getD 0, abar := if q.told then 0 else q.abar.getD 0 }
    { s with tokens := s.tokens ++ [t], reqs := s.reqs.put id { q with told := true } }

/-- The lowest end reason that applies: the bar's own, or one set by a command (R389). -/
def lowestReason (a b : Nat) : Nat := if a = 0 then b else if b = 0 then a else min a b

/-- One row at a commit of bar n (R384 order 6, R393). -/
def commitRow (slot n row : Nat) (g : GenBlock) (r : Run) (fd : RowFeed) (s : State) : State :=
  match s.reqs.get fd.req with
  | none => s
  | some q =>
    if q.state != .live || q.row != some row then s
    else
      let a := afterBar g r row fd q
      let token := (drawOf r row).bind (·.token)
      let s := { s with reqs := s.reqs.put fd.req a.1,
                        sess := s.sess.upd q.f.session fun x => { x with
                          tokens := a.1.pos,
                          last := if x.tokens != a.1.pos || q.abar = some n || r.kvNew.any (·.1 == q.f.session) then s.ptp.now
                            else x.last } }
      let why := lowestReason a.2 q.why
      let s := if why != 0 || token.isSome || q.abar = some n then addRecord slot fd.req n why token s else s
      if why != 0 then endRequest slot fd.req why s else s

/-- Ends that commands caused take effect at the boundary (R390): requests still queued or live with a reason set. -/
def endCaused (slot n : Nat) (s : State) : State :=
  (s.reqs.filter fun p => p.2.f.slot == slot && p.2.state != .ended && p.2.why != 0).foldl (fun s p =>
    endRequest slot p.1 p.2.why (addRecord slot p.1 n p.2.why none s)) s

/-- Requests and sessions at the verdict of bar n: a commit applies the bar, and a skip only the endings (R272,
R390). -/
def verdictRows (slot n : Nat) (commit : Bool) (r : Run) (s : State) : State :=
  let s := match (getJob s slot).bind fun j => j.f.gen with
    | none => s
    | some g => if commit then r.feeds.foldl (fun s p => commitRow slot n p.1 g r p.2 s) s else s
  let s := modJob slot (fun j => { j with stalls := satAt 0xFFFF (j.stalls + (r.feeds.filter fun p => p.2.stalled).length) }) s
  endCaused slot n s

end Sys2Proof.Machine
end

