-- ==== Sys2Proof/Machine/LinkIn.lean ====
section
/-! DEFINITION. Job frames that reached their rank (14 R409, R412, R603): order within a flow, messages made whole, close
frames. -/

namespace Sys2Proof.Machine

/-- The slot whose job has an identifier on this device, while it is in a job state that takes frames. -/
def slotOfJob (s : State) (job : Nat) : Option Nat :=
  (s.slots.find? fun p => match p.2.job with
    | some j => j.f.job == job
    | none => false).map (·.1)

/-- A frame's key is one that the receiver still holds (17 R497). -/
def keyHeld (j : Job) (f : GlFrame) : Bool :=
  f.keyGen == j.keyGen || j.oldKeys.contains f.keyGen || (j.keyAsk && f.keyGen == j.keyGen + 1)

/-- A frame whose GCM tag fails (R409): counted, and `LINK_AUTH` raised. -/
def linkAuth (port slot : Nat) (f : GlFrame) (s : State) : State :=
  notice 0x23 1 slot 0 (leBytes 4 f.job ++ leBytes 2 f.src ++ leBytes 2 f.route)
    (modPort port (fun p => { p with discards := p.discards + 1 }) s)

/-- The run of a job, open or look-ahead, that a frame belongs to (R417). -/
def runOf (j : Job) (f : GlFrame) : Option Run :=
  [j.ahead, j.cur].findSome? fun o => o.bind fun r => if r.bar = f.bar && r.run % 256 = f.run then some r else none

/-- A frame of a run of a job's bar, in `FSEQ` order (R412): it is a duplicate, breaks its flow or meets a broken one, closes
its route for its rank, or completes a message that then waits for its order (R603). -/
def takeFrame (slot port : Nat) (sc : Score) (run : Run) (f : GlFrame) (s : State) : State :=
  let fl := getFlow s slot f.src f.route f.bar f.run
  let back (s : State) : State := returnFrames [(port, f)] s
  if fl.expect = flowBroken then back s
  else if f.fseq < fl.expect then back (modJob slot (fun j => { j with frameDups := j.frameDups + 1 }) s)
  else if fl.expect < f.fseq then back (setFlow { fl with expect := flowBroken } s)
  else if f.ftype = 2 then
    modRun slot f.bar run.run (fun r => { r with closes := r.closes ++ [(f.route, f.src, f.beat)] })
      (back (setFlow { fl with expect := f.fseq + 1 } s))
  else
    let parts := fl.waits ++ [(port, f)]
    if !f.last then setFlow { fl with expect := f.fseq + 1, waits := parts } s
    else
      let data := parts.flatMap fun p => p.2.payload
      let s := setFlow { fl with expect := f.fseq + 1, waits := [] } s
      match sc.routes[f.route]? with
      | some rt =>
        let t := routeCore rt
        { s with net := s.net ++ [{ slot, bar := f.bar, beat := f.beat, run := run.run, prov := f.prov,
                                    route := some f.route, srcRank := f.src, srcRow := 0, srcCol := 0, dstRow := t.1,
                                    dstCol := t.2, seq := f.fseq, lines := data.length / 64, data,
                                    held := parts.map fun p => (p.1, frameUnits p.2) }] }
      | none => returnFrames parts s

/-- A bar or a run of a bar that the job has yet to open (R412, R417). -/
def runToCome (j : Job) (f : GlFrame) : Bool := match j.now with
  | some r => decide (r.bar < f.bar) || (r.bar == f.bar && decide ((f.run + 256 - r.run % 256) % 256 != 0) &&
      decide ((f.run + 256 - r.run % 256) % 256 < 128))
  | none => decide (j.nextBar < f.bar) ||
      (j.nextBar == f.bar && decide ((f.run + 256 - j.runs % 256) % 256 < 128))

/-- A frame of a discarded run gives its units back and is counted (R409, R417). -/
def discardFrame (slot port : Nat) (f : GlFrame) (s : State) : State :=
  returnFrames [(port, f)] (modJob slot (fun j => { j with frameDrops := j.frameDrops + 1 }) s)

/-- A job frame at its rank, in the order of R409: one of an earlier epoch is counted, one of a later epoch waits for it, the
tag is tested once, and then one of an open run is taken, one of a bar or run still to come waits with its credits (R412),
and any other belongs to a discarded run (R417). -/
def deliverFrame (slot port : Nat) (f : GlFrame) (s : State) : State :=
  match getJob s slot, (getSlot s slot).score with
  | some j, some sc =>
    if f.epoch < j.epoch then discardFrame slot port f s
    else if j.epoch < f.epoch then { s with linkWait := s.linkWait ++ [(port, f)] }
    else if !f.opened && (!f.tagOk || !keyHeld j f) then returnFrames [(port, f)] (linkAuth port slot f s)
    else match runOf j f with
      | some run => takeFrame slot port sc run { f with opened := true } s
      | none =>
        if runToCome j f then { s with linkWait := s.linkWait ++ [(port, { f with opened := true })] }
        else discardFrame slot port f s
  | _, _ => s

/-- Frames that waited for a run or an epoch are looked at again, in the order they came. -/
def takeWaiting (slot : Nat) (s : State) : State :=
  match getJob s slot with
  | none => s
  | some j =>
    let due (f : Nat × GlFrame) : Bool := f.2.job == j.f.job && f.2.ftype != 1
    let mine := s.linkWait.filter due
    let s := { s with linkWait := s.linkWait.filter fun f => !due f }
    mine.foldl (fun s f => deliverFrame slot f.1 f.2 s) s

end Sys2Proof.Machine
end

