-- ==== Sys2Proof/Machine/Jobs.lean ====
section
/-! DEFINITION. The life of a job outside its bars (16 R473 to R477): checkpoints, training copies (12 R363), the end of a
job, and the writes of hub engines to host windows (15 R438). -/

namespace Sys2Proof.Machine

/-! ## Window writes (R438, R463) -/

/-- `WREQ` and `WDATA` frames that write bytes to a range of a session's window. -/
def windowWrite (w : Wait) (off : Nat) (data : List Byte) (s : State) : State :=
  if data.isEmpty then s
  else
    let cut := maxPayload s - 8
    let n := ceilDiv data.length cut
    let s := outAppend w.cls { sess := w.sess, ftype := 6, ref := w.ref,
                               payload := leBytes 8 off ++ leBytes 4 data.length ++ leBytes 1 1 } s
    (List.range n).foldl (fun s i => outAppend w.cls
      { sess := w.sess, ftype := 7, ref := w.ref, first := i == 0, last := i + 1 == n,
        payload := leBytes 8 (off + i * cut) ++ (data.drop (i * cut)).take cut } s) s

/-! ## Checkpoints (R476, R477) -/

/-- The current buffer of a region of kind 1 or 2. -/
def currentBuffer (s : State) (j : Job) (r : Region) : List Byte :=
  Mem.readN s.mem (r.base + bufferOf j r false false * r.alt) r.size

/-- The regions of a shard on this device, in `PLACEMENT` order. -/
def shardRegions (s : State) (slot sh : Nat) : List Region :=
  s.regions.filter fun r => r.slot == some slot && r.kind == 2 && r.shard == some sh && !r.reserved

/-- A shard that the rank owns or keeps. -/
def holdsShard (rank : Nat) (e : ShardEnt) : Bool := e.owner == rank || e.keeper == some rank

/-- The 24 bytes of a shard's version (11 R334). -/
def versionEntry (v : Version) : List Byte := leBytes 8 v.bar ++ fitTo 16 v.digest

/-- The 32 bytes of a norm record (R256). -/
def NormRec.bytes (r : NormRec) : List Byte :=
  leBytes 8 r.w2.toNat ++ leBytes 8 r.g2.toNat ++ leBytes 8 r.d2.toNat ++ leBytes 2 r.shards ++ leBytes 2 r.skipped ++
    leBytes 2 r.clipped ++ leBytes 1 r.flags ++ leBytes 1 0

/-- The 64 bytes of a request-table entry (R378). -/
def reqBytes (id : Nat) (q : Request) : List Byte :=
  let st : Nat := match q.state with
    | .queued => 1
    | .live => 2
    | .ended => 3
  let abar := if q.state = .queued then q.f.abar else q.abar
  leBytes 4 id ++ leBytes 2 q.owner ++ leBytes 1 st ++ leBytes 1 q.f.slot ++ leBytes 2 (q.f.aslot.getD 0xFFFF) ++
    leBytes 2 (q.adapt.getD 0xFFFF) ++ leBytes 4 (q.f.session + q.reason * 2 ^ 24) ++ leBytes 4 q.pos ++
    leBytes 4 q.pend ++ leBytes 4 q.f.maxNew ++ leBytes 4 q.f.temp.toNat ++ leBytes 4 q.f.topP.toNat ++
    leBytes 4 q.f.penalty.toNat ++ leBytes 2 q.f.topK ++ leBytes 1 q.f.pwin ++ leBytes 1 q.f.prio ++
    leBytes 4 q.f.stop ++ leBytes 8 q.f.key.toNat ++ leBytes 5 (abar.getD 0xFFFFFFFFFF) ++
    leBytes 3 (q.sess + (q.row.getD 0xFFF) * 4096)

/-- The 32 bytes of a session entry (R380). -/
def sessBytes (id : Nat) (g : GenSess) : List Byte :=
  let st : Nat := match g.state with
    | .opened => 1
    | .held => 2
    | .closing => 3
  leBytes 4 id ++ leBytes 2 g.owner ++ leBytes 1 st ++ leBytes 1 0 ++ leBytes 4 g.tokens ++ leBytes 4 g.dir ++
    leBytes 2 g.pages.length ++ leBytes 2 g.maxPages ++ leBytes 4 (g.req.getD 0xFFFFFFFF) ++ leBytes 8 g.last

/-- The pages of a session that committed bars added: those of a run still without its verdict are not yet its own (R384 order 6). -/
def committedPages (s : State) (sid : Nat) (g : GenSess) : List Nat :=
  let fresh := s.slots.flatMap fun p => p.2.job.toList.flatMap fun j => (j.cur.toList ++ j.ahead.toList).flatMap (·.kvNew)
  g.pages.filter fun a => !fresh.contains (sid, a)

/-- Request entries of a job, each with its tokens, and its sessions with their pages, as part 5 holds them. -/
def requestPart (s : State) (slot : Nat) : List Byte :=
  let mine := s.reqs.filter fun p => p.2.f.slot == slot && p.2.state != .ended
  let sess := s.sess.filter fun p => mine.any fun q => q.2.f.session == p.1
  (mine.flatMap fun p => reqBytes p.1 p.2 ++ p.2.tokens.flatMap (leBytes 4)) ++
    sess.flatMap fun p =>
      let own := committedPages s p.1 p.2
      sessBytes p.1 { p.2 with pages := own } ++ own.flatMap fun a => Mem.readN s.mem a p.2.pageBytes

/-- The start parameters as part 7 holds them; the manual names no layout. -/
def startPart (f : StartF) : List Byte :=
  leBytes 1 f.slot ++ leBytes 4 f.job ++ leBytes 2 f.rank ++ leBytes 4 f.timeoutMs ++ leBytes 1 f.shadowK ++
    leBytes 1 f.shadowT ++ leBytes 1 (bit f.shadowEn) ++ f.hold.flatMap (leBytes 8) ++ leBytes 2 f.report

/-- The parts of a job's committed state (R477). -/
def ckptParts (s : State) (slot : Nat) (sc : Score) (j : Job) : List CkptPart :=
  let held := (List.range sc.shards.length).filter fun i => match sc.shards[i]? with
    | some e => holdsShard j.rank e
    | none => false
  let versioned := s.regions.filter fun r => r.slot == some slot && r.kind == 1 && !r.rowBlocks
  [⟨1, 0, savedNumeric (getSlot s slot).digest j⟩,
   ⟨2, 0, (List.range sc.shards.length).flatMap fun i => versionEntry (j.shards.getD i {}).ver⟩] ++
  held.map (fun i => ⟨3, i, (shardRegions s slot i).flatMap (currentBuffer s j)⟩) ++
  versioned.map (fun r => ⟨4, r.index.getD 0, currentBuffer s j r⟩) ++
  [⟨5, 0, requestPart s slot⟩, ⟨6, 0, j.norms.flatMap fun p => p.2.bytes⟩, ⟨7, 0, startPart j.f⟩]

/-- The bytes of a checkpoint with a digest field given (R477). -/
def ckptBytes (c : Ckpt) (digest : List Byte) : List Byte :=
  let pad (bs : List Byte) := padLines bs
  leBytes 4 0x4B54434B ++ leBytes 2 1 ++ leBytes 2 c.rank ++ leBytes 4 c.job ++ leBytes 4 c.ident ++ leBytes 8 c.bar ++
    leBytes 2 c.replicas ++ List.replicate 6 0 ++ fitTo 64 c.scoreDigest ++ fitTo 64 c.baseDigest ++ fitTo 64 digest ++
    leBytes 4 c.parts.length ++ List.replicate 28 0 ++
    pad (c.parts.flatMap fun p => leBytes 2 p.kind ++ leBytes 2 0 ++ leBytes 4 p.index ++ leBytes 8 p.data.length) ++
    c.parts.flatMap fun p => pad p.data

/-- The checkpoint digest: SHAKE256 with `DIGEST` as zeros. -/
def ckptDigest (c : Ckpt) : List Byte := digest64 (ckptBytes c (List.replicate 64 0))

/-- A free range of the store. -/
def ckptRange (s : State) (size : Nat) : Option Nat :=
  let st := ckptStore s
  let ends := (s.regions.map fun r => r.stop) ++ s.zeroing.map fun z => pageAddr z.1 + z.2 * pageBytes
  let starts := (st.1 :: ends).filter fun a => decide (st.1 ≤ a) && decide (a + size ≤ st.1 + st.2) && rangeFree s a size
  starts.head?

/-- The oldest of a job's checkpoints leaves the store when there are more than two (R476). -/
def trimCkpts (job owner : Nat) (s : State) : State :=
  let mine := s.ckpts.filter fun c => c.job == job
  if mine.length ≤ 2 then s
  else match mine.head? with
    | none => s
    | some c =>
      let s := { s with ckpts := s.ckpts.erase c }
      match s.regions.find? fun r => r.ckpt == some c.ident with
      | none => s
      | some r => modTenant owner (fun t => { t with flUsed := t.flUsed - r.size }) (releaseRegion r s)

/-- No page that a checkpoint reads is poisoned (20 R570). -/
def readable (s : State) (slot : Nat) (j : Job) (sc : Score) : Bool :=
  let clean (a size : Nat) : Bool := (pageSpan a size).all fun n => !(getPage s n).poison
  let mine := s.regions.filter fun r => r.slot == some slot && !r.rowBlocks && (r.kind == 1 || (r.kind == 2 && !r.reserved &&
    match r.shard.bind fun sh => sc.shards[sh]? with
      | some e => holdsShard j.rank e
      | none => false))
  let live := s.reqs.filter fun p => p.2.f.slot == slot && p.2.state != .ended
  mine.all (fun r => clean (r.base + bufferOf j r false false * r.alt) r.size) &&
    s.sess.all fun p => !(live.any fun q => q.2.f.session == p.1) || (committedPages s p.1 p.2).all fun a => clean a p.2.pageBytes

/-- A byte range has a page that rests in a stack of a hand in reset (01 R24). -/
def rangeAsleep (s : State) (a len : Nat) : Bool :=
  (s.hands.1.mode == .resetting || s.hands.2.mode == .resetting) && (pageSpan a len).any (asleep s)

/-- What a job's start, checkpoints and end read and write in memory: its regions, its sessions' pages and the homes of the
entries it trains; some of it rests in a stack of a hand in reset, and the access waits (01 R24, 20 R575). -/
def jobAsleep (s : State) (slot : Nat) (j : Job) : Bool :=
  let mine := s.reqs.filter fun p => p.2.f.slot == slot && p.2.state != .ended
  s.regions.any (fun r => r.slot == some slot && !r.reserved && (r.kind == 1 || r.kind == 2) && rangeAsleep s r.base (r.stop - r.base)) ||
    s.sess.any (fun p => mine.any (fun q => q.2.f.session == p.1) && p.2.pages.any fun a => rangeAsleep s a p.2.pageBytes) ||
    j.f.training.any fun t => match s.registry.get t.adapt with
      | some ad => rangeAsleep s ad.home ad.f.bytes
      | none => false

/-- A checkpoint of committed state taken now (R476): its status and result; one to the store takes a region there. -/
def takeCheckpoint (slot : Nat) (w : Option Wait) (dest : Option Range) (s : State) : State × Nat × List Byte :=
  match getJob s slot, (getSlot s slot).score with
  | some j, some sc =>
    let ident := if dest.isSome then 0 else s.nextCkpt
    let c : Ckpt := { rank := j.rank, job := j.f.job, ident, bar := j.nextBar, replicas := sc.replicas, owner := j.owner,
                      scoreDigest := (getSlot s slot).digest, baseDigest := sc.baseDigest, parts := ckptParts s slot sc j }
    if !readable s slot j sc then (s, cDataLost, [])
    else
    let d := ckptDigest c
    let bytes := ckptBytes c d
    let result := leBytes 4 ident ++ leBytes 4 0 ++ leBytes 8 c.bar ++ d
    let note (s : State) : State := match w with
      | some w => logChange w slot c.bar result s
      | none => s
    match dest with
    | some r =>
      if r.len < bytes.length then (s, cBounds, [])
      else match w with
        | some w => (note (windowWrite w r.off bytes s), cOk, result)
        | none => (s, cOk, result)
    | none =>
      let size := ceilDiv bytes.length pageBytes * pageBytes
      let t := s.tenants.getD j.owner {}
      if t.quotas.fl < t.flUsed + size then (s, cQuotaExceeded, [])
      else match ckptRange s size with
        | none => (s, cTableFull, [])
        | some a =>
          if maxRegions ≤ s.regions.length then (s, cTableFull, []) else
          let s := { s with ckpts := s.ckpts ++ [c], nextCkpt := s.nextCkpt + 1,
                            regions := s.regions ++ [{ base := a, size, kind := 0, owner := j.owner, ckpt := some ident, kgen := t.keyGen }] }
          let s := modTenant j.owner (fun t => { t with flUsed := t.flUsed + size }) s
          (note (trimCkpts j.f.job j.owner s), cOk, result)
  | _, _ => (s, cStateConflict, [])

/-- Checkpoint commands that waited for a resolving verdict, in order; those to the store share one (R476, R485). While a
hand's reset holds what they read, or a kept shard's copy is still to come (09 R281), they wait, and the committed state
with them. -/
def serveCheckpoints (slot : Nat) (s : State) : State :=
  match getJob s slot with
  | none => s
  | some j =>
    if !j.ckpts.isEmpty && (jobAsleep s slot j || !j.keeperDue.isEmpty) then modJob slot (fun j => { j with ckptHeld := true }) s else
    let s := modJob slot (fun j => { j with ckpts := [], ckptHeld := false }) s
    let toStore := j.ckpts.filter fun c => c.dest.isNone
    let s := match toStore.head? with
      | none => s
      | some c =>
        let r := takeCheckpoint slot (some c.w) none s
        toStore.foldl (fun s c => holdCpl slot c.w r.2.1 r.2.2 s) r.1
    (j.ckpts.filter fun c => c.dest.isSome).foldl (fun s c =>
      let r := takeCheckpoint slot (some c.w) c.dest s
      holdCpl slot c.w r.2.1 r.2.2 r.1) s

/-! ## Training copies (12 R363) -/

/-- Byte ranges of a shard's weight, tail and momentum planes in one buffer, in the order of its tensor entries; those of
its regions where cores update it. -/
def shardPlanes (s : State) (slot : Nat) (sc : Score) (sh buf : Nat) : List (Nat × Nat) × List (Nat × Nat) × List (Nat × Nat) :=
  let es := (shardEntries sc sh).filterMap fun e => (entryGroup sc e.2).map fun g => (e.2, g)
  if es.isEmpty then ((shardRegions s slot sh).map fun r => (r.base + buf * r.alt, r.size), [], [])
  else
    (es.map fun e => (e.1.wBase + buf * e.1.alt, 4 * e.1.elements),
     es.filterMap fun e => if e.2.wstate = 0 then some (e.1.tBase + buf * e.1.alt, 2 * e.1.elements) else none,
     es.filterMap fun e => match e.2.mstate with
       | 0 => none
       | 1 => some (e.1.mBase + buf * e.1.alt, 4 * e.1.elements)
       | _ => some (e.1.mBase + buf * e.1.alt, 2 * e.1.elements))

/-- The pieces of an adaptation's contents in their order, weights, then tails, then momenta over its shards (R346): the
byte range of each in a shard's buffer, and whether this rank owns or keeps the shard. -/
def trainPieces (s : State) (slot : Nat) (sc : Score) (rank : Nat) (t : TrainEnt) (buf : Nat → Nat) :
    List ((Nat × Nat) × Bool) :=
  let held (sh : Nat) : Bool := match sc.shards[sh]? with
    | some e => holdsShard rank e
    | none => false
  let p := t.shards.map fun sh => (shardPlanes s slot sc sh (buf sh), held sh)
  (p.flatMap fun x => x.1.1.map fun r => (r, x.2)) ++ (p.flatMap fun x => x.1.2.1.map fun r => (r, x.2)) ++
    p.flatMap fun x => x.1.2.2.map fun r => (r, x.2)

/-- Contents laid over the pieces that this rank holds. -/
def layPieces : List ((Nat × Nat) × Bool) → List Byte → State → State
  | [], _, s => s
  | (r, held) :: l, bs, s => layPieces l (bs.drop r.2) (if held then storeAt r.1 (bs.take r.2) s else s)

/-- The held pieces written to their places in the home region, from address `a` on. -/
def homePieces : List ((Nat × Nat) × Bool) → Nat → State → State
  | [], _, s => s
  | (r, held) :: l, a, s => homePieces l (a + r.2) (if held then storeAt a (Mem.readN s.mem r.1 r.2) s else s)

/-- A listed entry's contents are copied into buffer 0 of its shards on their owners and keepers (R363). -/
def copyIn (slot : Nat) (sc : Score) (rank : Nat) (t : TrainEnt) (s : State) : State :=
  match s.registry.get t.adapt with
  | none => s
  | some ad => layPieces (trainPieces s slot sc rank t fun _ => 0) (Mem.readN s.mem ad.home ad.f.bytes) s

/-- An entry of a job's training list is the job's (R363); claims on it that wait are lost (R359). -/
def takeTraining (slot : Nat) (t : TrainEnt) (s : State) : State :=
  let s := (s.slots.map (·.1)).foldl (fun s i => modJob i (fun j => { j with
    claims := j.claims.map fun c => if c.adapt = t.adapt then { c with lost := true } else c }) s) s
  modAdapt t.adapt (fun a => { a with state := .training, trainSlot := some slot }) s

/-- The committed buffers that this device holds are written back to the home region, and the entry is ready; a job that
had not yet copied it leaves it as it was (R363). -/
def writeBack (slot : Nat) (sc : Score) (j : Job) (t : TrainEnt) (s : State) : State :=
  match s.registry.get t.adapt with
  | none => s
  | some ad =>
    let s := if j.startWait then s else homePieces (trainPieces s slot sc j.rank t (shardCur j)) ad.home s
    modAdapt t.adapt (fun a => { a with state := .ready, trainSlot := none,
                                        digest := digest64 (Mem.readN s.mem ad.home ad.f.bytes) }) s

/-! ## Probes (12 R366) -/

/-- The probe's test: the mean absolute difference is at most `TOL`. -/
def probePasses (ms refs : List Word) (items : Nat) (tol : Word) : Bool :=
  let diff (i : Nat) : W64 := sub64 (widen (ms.getD i 0)) (widen (refs.getD i 0)) &&& 0x7FFFFFFFFFFFFFFF#64
  let total := (List.range items).foldl (fun a i => add64 a (diff i)) (0 : W64)
  (ms.take items).length == items && (ms.take items).all finite32 &&
    le64 (div64 total (ofNat64 items)) (widen tol)

/-- Probes decide when their job ends (R366): its metrics are free, since the manual does not say how a score gives
them; a job that did not end well has none. -/
def decideProbes (slot : Nat) (well : Bool) (s : State) : State :=
  match getJob s slot with
  | none => s
  | some j => j.probes.foldl (fun s p =>
      let f := nextFree s
      let s := f.2
      let ms := wordsOf p.items (Config.freeBytes f.1 (4 * p.items))
      let pass := well && probePasses ms p.ref p.items p.tol
      let s := modAdapt p.adapt (fun a => { a with
        state := if a.state = .probing then (if pass then .ready else .invalid) else a.state,
        baseDigest := if pass then ((s.base.map (·.man.digest)).getD a.baseDigest) else a.baseDigest }) s
      let set := saltedDigest p.setDigest s
      let ref := saltedDigest p.refDigest set.2
      complete p.w cOk 0 (leBytes 1 (if pass then 2 else 6))
        (logChange p.w slot 0 (leBytes 2 p.adapt ++ leBytes 1 (if pass then 2 else 6) ++ set.1 ++ ref.1) ref.2)) s

/-! ## The end of a job (R475, R479, R485) -/

/-- Bindings, claims and releases as a job ends (R372). -/
def endBindings (slot : Nat) (s : State) : State :=
  match getJob s slot with
  | none => s
  | some j =>
    let s := j.claims.foldl (fun s c => endWith c.w cStateConflict s) s
    let pinned := j.bindings.filterMap fun p =>
      match j.releases.find? fun r => r.aslot == p.1 && r.eff.isSome with
      | some r => some r.adapt
      | none => none
    let bound := j.bindings.filterMap fun p => (p.2.getLast?).bind (·.adapt)
    let s := (pinned ++ bound).foldl (fun s id =>
      unpinAdapt slot id (modAdapt id (fun a => { a with bound := a.bound - 1 }) s)) s
    let s := j.releases.foldl (fun s r => match r.w with
      | some w => complete w cOk 0 (leBytes 8 (r.eff.getD j.nextBar)) s
      | none => s) s
    modJob slot (fun j => { j with claims := [], releases := [], bindings := [] }) s

/-- Requests of a slot that end with a reason now. -/
def endRequests (slot : Nat) (s : State) : State :=
  match getJob s slot with
  | none => s
  | some j => (s.reqs.filter fun p => p.2.f.slot == slot && p.2.state != .ended).foldl (fun s p =>
      let why := lowestReason p.2.why 7
      endRequest slot p.1 why (addRecord slot p.1 (j.done.getD 0) why none s)) s

/-- The partition of a slot is let go: a ghost's regions are scrubbed, a primary's partition is (R53, R63). -/
def freePart (slot : Nat) (s : State) : State :=
  match slotPart s slot with
  | none => s
  | some (p, true) =>
    let part := getPart s p
    let w := partWin s part
    let s := match (getSlot s slot).score with
      | some sc => (jobCores s part true sc).foldl (fun s k => modCore k.1 (fun c =>
          let c := { c with sram := Mem.clear (Mem.clear c.sram w.localBase w.localSize) (0x200000 + w.deepBase) w.deepSize,
                            inbox := c.inbox.filter fun m => m.slot != slot }
          if c.ghostOn then { c with ctx := {} } else { c with savedGhost := {} }) s) s
      | none => s
    modPart p (fun q => { q with ghost := none }) s
  | some (p, false) =>
    let s := evictGhost p 5 s
    modPart p (fun q => { q with state := .scrubbing, primary := none }) s

/-- A job ends now: `JOB.START` completes with a status, its stops complete, everything it held is let go, and the slot
returns to Loaded (R475, R473). `ckpt` asks for a checkpoint first. -/
def endNow (slot status : Nat) (ckpt : Bool) (s : State) : State :=
  match getJob s slot, (getSlot s slot).score with
  | some j0, some sc =>
    let s := dropRuns slot s
    let s := if ckpt && j0.ckpts.all (fun c => c.dest.isSome) then
      (takeCheckpoint slot (j0.stops.head?.map (·.w)) none s).1 else s
    let s := if ckpt then serveCheckpoints slot s else s
    let s := endRequests slot s
    let s := decideProbes slot (status == cOk) s
    let s := endBindings slot s
    let s := j0.f.training.foldl (fun s t => match getJob s slot with
      | some j => writeBack slot sc j t s
      | none => s) s
    let s := releaseJobRegions slot s
    let s := freePart slot s
    let s := releaseTokens slot s
    match getJob s slot with
    | none => s
    | some j =>
      let s := j.inputs.foldl (fun s i => match i.w with
        | some w => endWith w cStateConflict s
        | none => s) s
      let s := j.ckpts.foldl (fun s c => endWith c.w cStateConflict s) s
      let s := j.keyWaits.foldl (fun s w => complete w cOk 0 [] s) s
      let s := logCloseRun slot s
      let s := logChange j.w slot (j.done.getD 0) (leBytes 1 status) s
      let s := complete j.w status 0 [] s
      let s := j.stops.foldl (fun s x => complete x.w cOk 0 [] (logChange x.w slot (j.done.getD 0) (leBytes 1 x.mode) s)) s
      let s := dropWaiting slot j.f.job s
      modSlot slot (fun sl => { sl with state := .loaded, job := none }) s
  | _, _ => s

/-- A job ends (R475): its runs are dropped at once; where its checkpoint or the copies of what it trains meet a hand in
reset (01 R24), or a kept shard whose copy is still to come (09 R281), the rest waits for it and the slot is Stopping
meanwhile. -/
def endJob (slot status : Nat) (ckpt : Bool) (s : State) : State :=
  match getJob s slot with
  | none => s
  | some j =>
    if (ckpt || (!j.startWait && !j.f.training.isEmpty)) && (jobAsleep s slot j || !j.keeperDue.isEmpty) then
      modSlot slot (fun sl => { sl with state := if sl.state = .faulted then .faulted else .stopping })
        (modJob slot (fun j => { j with ending := j.ending <|> some (status, ckpt) }) (dropRuns slot s))
    else
      let e := j.ending.getD (status, ckpt)
      endNow slot e.1 e.2 s

/-- Every page of the slot's regions has been zeroed (10 R296). -/
def regionsReady (s : State) (slot : Nat) : Bool :=
  (s.regions.filter fun r => r.slot == some slot).all fun r => !(s.zeroing.any fun z =>
    decide (pageAddr z.1 < r.stop) && decide (r.base < pageAddr z.1 + z.2 * pageBytes))

/-- The checkpoint flag of any pending stop. -/
def Job.stopCkpt (j : Job) : Bool := j.stops.any (·.ckpt)

/-- What waits for a resolving verdict, or for a slot without an open bar: stops (R475; one of mode 0 names the bar that was open as it
came) and the last bar of the score. -/
def stopDue (sc : Score) (j : Job) : Bool :=
  j.stops.any (fun x => x.mode == 2 || match j.done with
    | some d => decide (x.after ≤ d)
    | none => false) ||
  (sc.bars != 0 && decide (sc.bars ≤ j.nextBar))

end Sys2Proof.Machine
end

