-- ==== Sys2Proof/Machine/Place.lean ====
section
/-! DEFINITION. How a job comes to stand on the device: its partition (02 R48), regions and windows (10 R293 to R296, 11
R320, 12 R351, 13 R374, 08 R259), the images of its cores (03 R69), restores (16 R477, 07 R227), and the step from
Starting to Running (16 R473). -/

namespace Sys2Proof.Machine

/-! ## Partitions (R47, R48) -/

/-- Two rectangles of cores share one. -/
def rectsMeet (r0 c0 h0 w0 r1 c1 h1 w1 : Nat) : Bool :=
  decide (r0 < r1 + h1) && decide (r1 < r0 + h0) && decide (c0 < c1 + w1) && decide (c1 < c0 + w0)

/-- A score fits at an origin (R47, R48); the hands it covers run. -/
def fitsAt (s : State) (sc : Score) (o : Nat × Nat) : Bool :=
  decide (o.1 + sc.rows ≤ 16) && decide (o.2 + sc.cols ≤ 64) && (!sc.anchored || o.1 + sc.rows == 16) &&
    (decide (32 ≤ o.2) || (getHand s 0).mode == .running) &&
    (decide (o.2 + sc.cols ≤ 32) || (getHand s 1).mode == .running) &&
    !s.parts.any fun p => p.2.state != .free && rectsMeet o.1 o.2 sc.rows sc.cols p.2.row p.2.col p.2.rows p.2.cols

/-- The origin taken: the one named, or the first that fits, column by column (R48). -/
def findOrigin (s : State) (sc : Score) (named : Option (Nat × Nat)) : Option (Nat × Nat) :=
  match named with
  | some o => if fitsAt s sc o then some o else none
  | none => ((List.range 64).flatMap fun c => (List.range 16).map fun r => (r, c)).find? (fitsAt s sc)

/-- The lowest free partition number. -/
def freePartNo (s : State) : Option Nat := (List.range 64).find? fun p => (getPart s p).state == .free

/-! ## Regions -/

/-- The key generation under which a context's pages are written now (17 R490, R495). -/
def keyGenNow (s : State) (ctx : Nat) : Nat := (s.tenants.getD ctx {}).keyGen

/-- The highest free range of a tier, page aligned: where the hub puts what no score places. -/
def topRange (s : State) (tier size : Nat) : Option Nat :=
  let top := tier * 2 ^ 52 + tierLimit tier
  let begins := (s.regions.map fun r => r.base) ++ s.zeroing.map fun z => pageAddr z.1
  let starts := ((top :: (ckptStore s).1 :: begins).filter fun a => decide (tier * 2 ^ 52 + size ≤ a) && decide (a ≤ top)).map (· - size)
  (starts.filter fun a => rangeFree s a size && outsideStore s a size).foldl (fun (best : Option Nat) a => match best with
    | none => some a
    | some b => some (max a b)) none

/-- The regions that `PLACEMENT` declares, as this rank has them (R293, R320). -/
def placedRegions (s : State) (slot owner rank : Nat) (sc : Score) : List Region :=
  (List.range sc.regions.length).filterMap fun i => (sc.regions[i]?).map fun r =>
    { base := r.base, size := r.size, alt := r.alt, kind := r.kind, large := r.large, fixed := r.fixed, owner,
      shard := r.shard, slot := some slot, index := some i, kgen := keyGenNow s owner,
      reserved := r.kind == 2 && match r.shard.bind fun sh => sc.shards[sh]? with
        | some e => !holdsShard rank e
        | none => false }

/-- Slot windows (12 R351), key/value windows and the row-block region (13 R374). -/
def windowRegions (s : State) (slot owner : Nat) (f : StartF) : List Region :=
  let kg := keyGenNow s owner
  ((List.range f.slotList.length).filterMap fun i => (f.slotList[i]?).map fun d =>
    { base := d.window, size := d.wsize, kind := 0, owner, slot := some slot, window := some i, kgen := kg }) ++
  (match f.gen with
    | none => []
    | some g =>
      let w := g.kvPages * g.pageBytes
      ((List.range g.rows).map fun r =>
        { base := g.kvBase + r * w, size := w, kind := 0, owner, slot := some slot, kvRow := some r, kgen := kg }) ++
      [{ base := g.rowBase, size := g.rows * 2048, alt := g.rows * 2048, kind := 1, owner, slot := some slot,
         index := some 65536, rowBlocks := true, kgen := kg }])

/-- A region lies within its tier (R290). -/
def regionInTier (r : Region) : Bool :=
  let t := tierOf r.base
  decide (1 ≤ t) && decide (t ≤ 3) && decide (r.stop ≤ t * 2 ^ 52 + tierLimit t)

/-- No two regions of a list overlap, nor one of them any region that stands or the checkpoint store (R295). -/
def regionsApart (s : State) : List Region → Bool
  | [] => true
  | r :: l => !(s.regions.any fun q => q.meets r.base r.stop) && outsideStore s r.base (r.stop - r.base) && !(l.any fun q => q.meets r.base r.stop) &&
      regionsApart s l

/-- The holding areas of a job (08 R259): highest free ranges, one in each tier; none where one does not fit. -/
def addHolding (slot owner : Nat) (f : StartF) (s : State) : Option State :=
  [1, 2, 3].foldl (fun (o : Option State) t => o.bind fun s =>
    let size := orDefault (f.hold.getD (t - 1) 0) ([1, 4, 16].getD (t - 1) 1) * 1073741824
    (topRange s t size).map fun a => { s with regions := s.regions ++
      [{ base := a, size, kind := 3, owner, slot := some slot, kgen := keyGenNow s owner }] }) (some s)

/-! ## Core images and partitions -/

/-- Each core's program, roll table and plan are placed in its score region (R69, R70). -/
def loadImages (slot : Nat) (s : State) : State :=
  match slotPart s slot, (getSlot s slot).score with
  | some (p, ghost), some sc =>
    let part := getPart s p
    let shift := if ghost then (partWin s part).localBase / 64 else 0
    (jobCores s part ghost sc).foldl (fun s k => match sc.cores[k.2.1 * sc.cols + k.2.2]? with
      | some prog => modCore k.1 (fun c => sramWrite c shift 0 prog.image) s
      | none => s) s
  | _, _ => s

/-- A partition is allocated to a slot (R48, 19 R552, 12 R368). -/
def allocPart (p slot owner : Nat) (sc : Score) (o : Nat × Nat) (s : State) : State :=
  let q : Part := { state := .loading, primary := some slot, row := o.1, col := o.2, rows := sc.rows, cols := sc.cols,
                    owner }
  let s := monClearPart p { s with parts := s.parts.put p q }
  let s := modJob slot (fun j => { j with part := some p }) s
  loadImages slot (modTenant owner (fun t => { t with partUsed := t.partUsed + 1 }) s)

/-! ## Versions, training copies, restores -/

/-- The byte ranges of a shard's buffer in the order of R321: element by element over its entries, or its regions in
`PLACEMENT` order where cores update it. -/
def shardPlaces (s : State) (slot : Nat) (sc : Score) (sh buf : Nat) : List (Nat × Nat) :=
  let es := (shardEntries sc sh).filterMap fun e => (entryGroup sc e.2).map fun g => (e.2, g)
  if es.isEmpty then (shardRegions s slot sh).map fun r => (r.base + buf * r.alt, r.size)
  else es.flatMap fun e => (List.range e.1.elements).flatMap fun i => elementRanges e.2 e.1 buf i

/-- Memory with the bytes of a shard laid into a buffer. -/
def layShard (s : State) (slot : Nat) (sc : Score) (sh buf : Nat) (bs : List Byte) : List Host.Cell :=
  layBytes (shardPlaces s slot sc sh buf) bs s.mem

/-- The bytes of a shard written to a buffer. -/
def storeShard (slot : Nat) (sc : Score) (sh buf : Nat) (bs : List Byte) (s : State) : State :=
  storeLaid (shardPlaces s slot sc sh buf) bs s

/-- A page of a shard's buffer is in a stack of a hand in reset (01 R24). -/
def shardAsleep (s : State) (slot : Nat) (sc : Score) (sh buf : Nat) : Bool :=
  (rangePages (shardPlaces s slot sc sh buf)).any (asleep s)

/-- The digest of the current buffer of a shard that this rank holds (R322). -/
def currentDigest (s : State) (slot : Nat) (sc : Score) (j : Job) (sh : Nat) : List Byte :=
  if engineShard sc sh then shardDigest s sc sh (shardCur j sh) else coreShardDigest s slot j sh 0

/-- What the shards of a job hold in buffer 0 as it starts, on the ranks that hold them: zeros, and the contents of the
entries that it trains (10 R297, 12 R363). -/
def startContents (slot : Nat) (sc : Score) (j : Job) (s : State) : State :=
  j.f.training.foldl (fun s t => match s.registry.get t.adapt with
    | some ad => { s with mem := layBytes ((trainPieces s slot sc j.rank t fun _ => 0).map (·.1))
                                   (Mem.readN s.mem ad.home ad.f.bytes) s.mem }
    | none => s) s

/-- The version table at a start, the same on every device: each shard's digest as its owner reads it (R269, R321,
R322). DEDUCED: every rank's start lists the same entries with the same contents. -/
def startVersions (slot bar : Nat) (sc : Score) (s : State) : State :=
  match getJob s slot with
  | none => s
  | some j =>
    let v := startContents slot sc j s
    modJob slot (fun j => { j with shards := (List.range sc.shards.length).map fun i =>
      (i, { ver := ⟨bar, currentDigest v slot sc j i⟩ }) }) s

/-- The score of a digest in any slot. -/
def scoreByDigest (s : State) (d : List Byte) : Option Score :=
  (s.slots.find? fun p => p.2.score.isSome && p.2.digest == d).bind (·.2.score)

/-- The tensors of a checkpoint's own score have the formats of the score that restores it (R227). -/
def ckptFormats (slot : Nat) (sc : Score) (c : Ckpt) (s : State) : Bool :=
  c.scoreDigest == (getSlot s slot).digest || match scoreByDigest s c.scoreDigest with
    | some old => old.tensors.map (·.fmt) == sc.tensors.map (·.fmt)
    | none => false

/-- The data of a part of a checkpoint. -/
def ckptPart (c : Ckpt) (kind index : Nat) : Option (List Byte) :=
  (c.parts.find? fun p => p.kind == kind && p.index == index).map (·.data)

/-- Committed state written back from a checkpoint: shards and versioned regions to buffer 0, versions and histories
(R477, R227, R269). -/
def restoreCkpt (slot : Nat) (sc : Score) (c : Ckpt) (s : State) : State :=
    let s := (List.range sc.shards.length).foldl (fun s i => match ckptPart c 3 i with
      | some bs => storeLaid ((shardRegions s slot i).map fun r => (r.base, r.size)) bs s
      | none => s) s
    let s := (s.regions.filter fun r => r.slot == some slot && r.kind == 1 && !r.rowBlocks).foldl (fun s r =>
      match ckptPart c 4 (r.index.getD 0) with
      | some bs => storeAt r.base (bs.take r.size) s
      | none => s) s
    let vers := (ckptPart c 2 0).getD []
    -- the bar is the job's start bar; the current buffer is read once (R321, R322), and a shard held elsewhere has the
    -- digest that the checkpoint gives
    let old := (getJob s slot).map fun j => { j with shards := [] }
    let shards := (List.range sc.shards.length).map fun i =>
      let digest := match ckptPart c 3 i, old with
        | some _, some j => currentDigest s slot sc j i
        | _, _ => (vers.drop (24 * i + 8)).take 16
      (i, ({ ver := ⟨c.bar, digest⟩ } : ShardVer))
    let num := if ckptFormats slot sc c s then (ckptPart c 1 0).bind (readNumeric sc) else none
    let restored := if num.isSome then 1 else 2
    let h := num.getD (coldHists sc, 16)
    modJob slot (fun j => { j with
      shards, keeperDue := [], regionCur := [], hists := h.1, cold := h.2, restored, nextBar := c.bar,
      strictNext := true, done := if c.bar = 0 then none else some (c.bar - 1), runs := 0, runsNext := 0 }) s

/-- Pages of the promotion plan that a start asks for: uses in the bars that no opening precedes by `LEAD` (R309). -/
def startPromotions (slot bar : Nat) (sc : Score) (s : State) : State :=
  sc.promos.foldl (fun s p => (List.range p.lead).foldl (fun s d =>
    if (bar + d) % p.period != p.phase then s
    else (List.range p.pages).foldl (fun s i =>
      askPromotion { cls := 2, page := pageNo p.addr + i, pool := if p.target = 1 then 0 else 2,
                     holds := [(slot, bar + d + p.hold + 1)] } s) s) s) s

/-! ## From Starting to Running -/

/-- The member that draws a job's link key is its lowest rank (17 R491); any other waits for it. -/
def drawsKey (sc : Score) (j : Job) : Bool := sc.replicas == 1 || j.rank == 0

/-- A start whose regions have been zeroed and whose key is there: training copies or the restore, versions, the started
completion (R473, R465, R363), all of it once no hand in reset holds what they read (01 R24). A ghost job waits unbound
(R56); its partition fields are free values. -/
def finishStart (slot : Nat) (s : State) : State :=
  match getJob s slot, (getSlot s slot).score with
  | some j, some sc =>
    if !j.startWait || !regionsReady s slot || (getSlot s slot).state != .starting || !j.keyed || jobAsleep s slot j then s
    else
      let s := modJob slot (fun j => { j with startWait := false }) s
      let s := match j.restore with
        | some c => restoreCkpt slot sc c s
        | none => startVersions slot 0 sc (j.f.training.foldl (fun s t => copyIn slot sc j.rank t s) s)
      let s := modJob slot (fun j => { j with restore := none }) s
      let s := modSlot slot (fun sl => { sl with state := .running }) s
      let j := (getJob s slot).getD j
      let s := startPromotions slot j.nextBar sc s
      let place : List Byte × State := match j.part with
        | some p =>
          let q := getPart s p
          (leBytes 1 p ++ leBytes 1 q.row ++ leBytes 1 q.col, modPart p (fun q => { q with state := .running }) s)
        | none =>
          let f := nextFree s
          (Config.freeBytes f.1 3, f.2)
      let s := logChange j.w slot j.nextBar (leBytes 4 j.f.job ++ (getSlot s slot).digest) place.2
      sendEarly j.w cOk 1 (place.1 ++ leBytes 1 j.restored ++ leBytes 8 j.nextBar) s
  | _, _ => s

/-- A start that passed its checks: the job stands with its partition, regions and tables (R296, R48, R473). -/
def beginStart (slot owner : Nat) (w : Wait) (f : StartF) (sc : Score) (place : Option (Nat × Nat × Nat))
    (restore : Option Ckpt) (s : State) : State :=
  let draws := sc.replicas == 1 || f.rank == 0
  let key := nextFree s
  let s := key.2
  let members := (List.range f.rankMap.length).filterMap fun i => (f.rankMap[i]?).map fun d => (i, d)
  let j : Job := { f, owner, w, rank := f.rank, members, hists := coldHists sc, cold := 16, startWait := true,
                   restore, keyed := draws,
                   linkKey := if draws then Config.freeBytes key.1 32 else [] }
  let s := { s with regions := s.regions ++ placedRegions s slot owner f.rank sc ++ windowRegions s slot owner f }
  let s := f.training.foldl (fun s t => takeTraining slot t s) s
  let s := modSlot slot (fun sl => { sl with state := .starting, job := some j }) s
  let s := (addHolding slot owner f s).getD s
  let s := match place with
    | some (p, o) => allocPart p slot owner sc o s
    | none => s
  finishStart slot s

end Sys2Proof.Machine
end

