-- ==== Sys2Proof/Machine/Layout.lean ====
section
/-! DEFINITION. Changes of a running job's members and layout (11 R336 to R344): admission of a spare and re-sharding. -/

namespace Sys2Proof.Machine

/-! ## Admission (R336 to R338) -/

/-- Stops that waited for an admission or a permutation apply to the layout in force (16 R485): no bar is open then. -/
def applyStops (slot : Nat) (s : State) : State :=
  match getJob s slot, (getSlot s slot).score with
  | some j, some sc =>
    if j.stops.isEmpty || j.admission.isSome || j.reshard.isSome then s
    else if j.stops.any (fun x => x.mode != 1) || stopDue sc j then endJob slot cOk j.stopCkpt s
    else modSlot slot (fun sl => { sl with state := if sl.state = .running then .stopping else sl.state }) s
  | _, _ => s

/-- Frames of an epoch that the job does not come to are discarded and counted (14 R409). -/
def dropLater (slot : Nat) (s : State) : State :=
  match getJob s slot with
  | none => s
  | some j =>
    let gone (f : Nat × GlFrame) : Bool := f.2.job == j.f.job && decide (j.epoch < f.2.epoch)
    let n := (s.linkWait.filter gone).length
    let s := returnFrames (s.linkWait.filter gone) s
    modJob slot (fun j => { j with frameDrops := j.frameDrops + n }) { s with linkWait := s.linkWait.filter fun f => !gone f }

/-- An admission fails (R338): on the spare the slot is Loaded again and holds nothing; a member awaits another spare. What
order 1 took stays: the rank is held by no member. -/
def failAdmission (slot : Nat) (s : State) : State :=
  match getJob s slot with
  | none => s
  | some j => match j.admission with
    | none => s
    | some a =>
      let s := dropLater slot s
      let s := if a.spare then
          let s := dropWaiting slot j.f.job (freePart slot (releaseJobRegions slot s))
          let s := modSlot slot (fun sl => { sl with state := .loaded, job := none }) s
          j.stops.foldl (fun s x => complete x.w cOk 0 [] s) s
        else modSlot slot (fun sl => { sl with state := .awaiting }) (modJob slot (fun j => { j with
          admission := none, lost := if j.lost.contains a.rank then j.lost else j.lost ++ [a.rank] }) s)
      applyStops slot (endWith a.w cStateConflict s)

/-- The newest checkpoint of the job in this device's store. -/
def lastCkpt (s : State) (j : Job) : Option Ckpt :=
  (s.ckpts.filter fun c => c.job == j.f.job && c.rank == j.rank).getLast?

/-- The reports of an admission or a permutation, one byte for each rank, once the collective has brought them here (R337,
R342, 14 R416): 0 done, 1 the checkpoint is needed, 2 failed. -/
def reports (j : Job) : Option (List Byte) :=
  (j.coll.find? fun c => c.code == 6 && c.bar == j.epoch && c.src == collResult).map (·.bytes)

/-- This device's report (R338, R342). -/
def reportByte (bad marked : Bool) : List Byte := leBytes 1 (if bad then 2 else bit marked)

/-- An admission whose fetches and key are there is reported; once every rank has reported it completes (R337 orders 5 and
6), every device restoring the job's last checkpoint where one asks for it; a failed order 2, or no checkpoint, ends it
(R338). -/
def finishAdmission (slot : Nat) (s : State) : State :=
  match getJob s slot, (getSlot s slot).score with
  | some j0, some sc => match j0.admission with
    | none => s
    | some a =>
      if !j0.keyed || !(a.bad || (a.fetch.isEmpty && regionsReady s slot)) then s
      else
        let s := if a.told then s else
          contribColl slot 6 j0.epoch 0 (reportByte a.bad !a.marked.isEmpty)
            (modJob slot (fun j => { j with admission := j.admission.map fun a => { a with told := true } }) s)
        let j := (getJob s slot).getD j0
        match reports j with
        | none => s
        | some rs =>
          let s := modJob slot (fun j => { j with coll := j.coll.filter (·.code != 6) }) s
          if rs.any fun b => b.toNat == 2 then failAdmission slot s
          else
          let restored : Option State := if rs.any fun b => b.toNat == 1 then (lastCkpt s j).map fun c => restoreCkpt slot sc c s
            else some s
          match restored with
          | none => failAdmission slot s
          | some s =>
            let s := modJob slot (fun j => { j with admission := none, strictNext := true, startWait := false }) s
            let s := modSlot slot (fun sl => { sl with state := if j.lost.isEmpty then .running else .awaiting }) s
            let s := match slotPart s slot with
              | some (p, false) => modPart p (fun q => { q with state := if q.state = .loading then .running else q.state }) s
              | _ => s
            let s := logChange a.w slot j.nextBar (leBytes 2 a.rank ++ leBytes 4 j.epoch) s
            applyStops slot (complete a.w cOk 0 [] s)
  | _, _ => s

/-- Shards that a rank filled anew must take from the checkpoint: no other holder is left (R337 orders 3 and 4, R288). -/
def markedShards (sc : Score) (rank : Nat) (lost : List Nat) : List Nat :=
  (List.range sc.shards.length).filter fun i => match sc.shards[i]? with
    | some e =>
      (e.owner == rank && (match e.keeper with
        | some k => lost.contains k
        | none => true)) ||
      (e.keeper == some rank && lost.contains e.owner)
    | none => false

/-- Shards that a rank holds. -/
def heldShards (sc : Score) (rank : Nat) : List Nat :=
  (List.range sc.shards.length).filter fun i => match sc.shards[i]? with
    | some e => holdsShard rank e
    | none => false

/-- A session as the tables give it (R337, R380). DESIGN CHOICE: its pages' contents are no table, so they are not copied, and
it starts with none allocated. -/
def tabSession (x : TabSess) : GenSess :=
  { owner := x.owner, state := if x.held then .held else .opened, tokens := x.tokens, dir := x.dir, maxPages := x.maxPages,
    req := x.req, last := x.last }

/-- A request as the tables give it (R337, R378). -/
def tabRequest (slot : Nat) (x : TabReq) : Request :=
  { owner := x.owner, f := { x.f with slot := slot }, state := if x.live then .live else .queued, adapt := x.adapt,
    pos := x.pos, pend := x.pend, why := x.why, row := x.row, abar := x.abar, sess := x.sess, tokens := x.tokens }

/-- Requests and sessions of the tables (R337 order 2), with the rows, prompt stores and pins that they hold. -/
def takeTables (t : JobTables) (slot : Nat) (s : State) : State :=
  let s := t.sess.foldl (fun (s : State) x => { s with sess := s.sess.put x.sid (tabSession x) }) s
  t.reqs.foldl (fun (s : State) x =>
    let s := modTenant x.owner (fun t => { t with lpUsed := t.lpUsed + promptBytes x.f })
      { s with reqs := s.reqs.put x.id (tabRequest slot x) }
    let s := match x.row with
      | some r => modJob slot (fun j => { j with rowReq := j.rowReq.put r x.id }) s
      | none => s
    match x.adapt with
    | some a => pinAdapt a s
    | none => s) s

/-- The spare's side of an admission that passed its checks (R337 orders 1 and 2). -/
def beginSpare (slot rank epoch device : Nat) (ident : List Byte) (w : Wait) (t : JobTables) (sc : Score)
    (place : Option (Nat × Nat × Nat)) (s : State) : State :=
  let f := { t.start with slot := slot, rank := rank }
  let members := t.members.foldl (fun (m : Table (Nat × List Byte)) p => m.put p.1 p.2) []
  let lost := t.lost.filter (· != rank)
  let marked := markedShards sc rank lost
  let num := readNumeric sc t.numeric
  let j : Job := { f, owner := t.owner, w, rank, epoch, members := members.put rank (device, ident), lost,
                   nextBar := t.nextBar,
                   done := if t.nextBar = 0 then none else some (t.nextBar - 1),
                   hists := (num.getD (coldHists sc, 16)).1, cold := (num.getD (coldHists sc, 16)).2,
                   shards := (List.range sc.shards.length).map fun i => (i, { ver := t.versions.getD i {} }),
                   keyed := false,
                   admission := some { w, rank, spare := true, marked,
                                       fetch := (heldShards sc rank).filter fun i => !marked.contains i } }
  let s := { s with regions := s.regions ++ placedRegions s slot t.owner rank sc ++ windowRegions s slot t.owner f }
  let s := modSlot slot (fun sl => { sl with state := .admitting, job := some j }) s
  let s := (addHolding slot t.owner f s).getD s
  let s := match place with
    | some (p, o) => allocPart p slot t.owner sc o s
    | none => s
  if t.ok then takeTables t slot s
  else modJob slot (fun j => { j with admission := j.admission.map fun a => { a with bad := true } }) s

/-- The member that draws a new epoch's key: the lowest that is neither new nor lost (17 R491). -/
def drawer (n : Nat) (isNew : Nat → Bool) (lost : List Nat) : Option Nat :=
  (List.range n).find? fun r => !isNew r && !lost.contains r

/-- A member's side (R337 order 1): the rank maps to the spare, the epoch rises, and the new epoch's key is drawn fresh by the
lowest member that is not new (17 R491, 14 R419). -/
def beginMember (slot rank epoch device : Nat) (ident : List Byte) (w : Wait) (sc : Score) (s : State) : State :=
  match getJob s slot with
  | none => s
  | some j =>
    let s := modJob slot (fun j => { j with
      members := j.members.put rank (device, ident), epoch, lost := j.lost.filter (· != rank), coll := [],
      admission := some { w, rank, spare := false, marked := markedShards sc rank (j.lost.filter (· != rank)) } }) s
    let s := freshKey slot (drawer sc.replicas (· == rank) j.lost == some j.rank) s
    finishAdmission slot (modSlot slot (fun sl => { sl with state := .admitting }) s)

/-! ## Re-sharding (R339 to R344) -/

/-- A new region stands for an old one of the same shard, place and size (R339, R342). -/
def sameRegion (a b : Region) : Bool :=
  a.kind == 2 && b.kind == 2 && a.base == b.base && a.size == b.size && a.alt == b.alt && a.shard == b.shard

/-- Held kind-2 regions of the new layout that no held region of the old one is adopted for. -/
def newHoldings (s : State) (slot : Nat) (j : Job) (rank new : Nat) (nsc : Score) : List Region :=
  (placedRegions s new j.owner rank nsc).filter fun r => r.kind == 2 && !r.reserved &&
    !s.regions.any fun q => q.slot == some slot && !q.reserved && sameRegion r q

/-- The regions of the new score at a rank overlap nothing but the old score's own, and the list has room (10 R295, R296). -/
def reshardFits (s : State) (slot : Nat) (j : Job) (rank new : Nat) (nsc : Score) : Bool :=
  let placed := placedRegions s new j.owner rank nsc
  regionsApart { s with regions := s.regions.filter fun r => r.slot != some slot && r.slot != some new } placed &&
    decide (s.regions.length + placed.length ≤ maxRegions)

/-- This device's rank in the new layout, by the new rank map; without one its rank stays, if the new score has it (R342
step 1). -/
def newRank (s : State) (was : Nat) (map : List (Nat × Nat × List Byte)) (nsc : Score) : Option Nat :=
  if map.isEmpty then (if was < nsc.replicas then some was else none)
  else (map.find? fun m => m.2.1 == s.setup.deviceId && m.2.2 == shake256 16 s.dev.idKey).map (·.1)

/-- The re-shard fails (R343): the old layout stays, copies for the new one are discarded, and the log records it; a device
new to the job holds nothing of it. -/
def failReshard (slot status : Nat) (s : State) : State :=
  match getJob s slot, (getSlot s slot).score with
  | some j, some sc => match j.reshard with
    | none => s
    | some x =>
      let s := dropLater slot s
      let s := logInternal 3 status slot j.owner j.nextBar (leBytes 1 x.new) s
      if x.fresh then
        let s := dropWaiting slot j.f.job (freePart slot (releaseJobRegions slot s))
        let s := modSlot slot (fun sl => { sl with state := .loaded, job := none }) s
        j.stops.foldl (fun s y => complete y.w cOk 0 [] s) (endWith x.w status s)
      else
        let s := releaseJobRegions x.new s
        let rank := if x.moving then x.was else j.rank
        let back := (placedRegions s slot j.owner rank sc).filter fun r => r.reserved && !s.regions.contains r
        let s := { s with regions := s.regions ++ back }
        let s := modJob slot (fun j => { j with
          reshard := none, rank, members := if x.moving then x.wasMembers else j.members,
          coll := j.coll.filter (·.code != 6) }) s
        let s := modSlot slot (fun sl => { sl with state := .running }) s
        applyStops slot (endWith x.w status s)
  | _, _ => s

/-- The partition of a job whose score changes: kept where the two scores have one shape, else let go and another taken
(R48, R53). -/
def movePart (slot new : Nat) (owner : Nat) (osc nsc : Score) (s : State) : Option State :=
  match slotPart s slot with
  | none => some s
  | some (p, ghost) =>
    if osc.rows = nsc.rows && osc.cols = nsc.cols then
      let part := getPart s p
      let s := (jobCores s part ghost osc).foldl (fun s k => modCore k.1 (fun c => setCtx c ghost {}) s) s
      some (modPart p (fun q => if ghost then { q with ghost := some new } else { q with primary := some new }) s)
    else
      let s := freePart slot s
      match findOrigin s nsc none, freePartNo s with
      | some o, some q => some (allocPart q new owner nsc o s)
      | _, _ => none

/-- Regions of the old layout as the new one takes them over: adopted ones, windows and holding areas change their slot;
the others are released, and the new score's remaining regions are created (R342 steps 3 and 6). -/
def moveRegions (slot new : Nat) (j : Job) (rank : Nat) (nsc : Score) (s : State) : State :=
  let placed := placedRegions s new j.owner rank nsc
  let keeps (r : Region) : Bool := r.window.isSome || r.kvRow.isSome || r.rowBlocks || r.kind == 3
  let adopted (r : Region) : Option Region := placed.find? fun q => !q.reserved && !r.reserved && sameRegion q r
  let old := s.regions.filter fun r => r.slot == some slot
  let s := (old.filter fun r => !keeps r && (adopted r).isNone).foldl (fun s r => releaseRegion r s) s
  let moved (r : Region) : Region :=
    if r.slot != some slot then r
    else match adopted r with
      | some q => { q with kgen := r.kgen }
      | none => { r with slot := some new }
  let s := { s with regions := s.regions.map moved }
  let more := placed.filter fun q => !s.regions.any fun r => r.slot == some new && r.index == q.index && !keeps r
  { s with regions := s.regions ++ more }

/-- The job under the new score (R342 steps 4 and 7): its slot, tables and first bar. -/
def resharded (x : Reshard) (replicas : Nat) (part : Option Nat) (j : Job) : Job :=
  { j with f := { j.f with slot := x.new, rank := j.rank }, reshard := none, strictNext := true, runs := 0, runsNext := 0,
           regionCur := [], keeperDue := [], coll := [], part,
           members := j.members.filter fun m => decide (m.1 < replicas),
           w := if x.fresh then x.w else j.w }

/-- The switch to the new layout once every device has reported (R342 steps 3, 6 and 7). -/
def switchLayout (slot : Nat) (x : Reshard) (sc nsc : Score) (restore : Option Ckpt) (s : State) : State :=
  match getJob s slot with
  | none => s
  | some j =>
    let moved : Option State := if x.fresh then some s
      else movePart slot x.new j.owner sc nsc
        (moveRegions slot x.new j j.rank nsc (logCloseRun slot (releaseTokens slot s)))
    match moved with
    | none => failReshard slot cNoPartition s
    | some s =>
      let j' := resharded x nsc.replicas ((s.parts.find? fun p => p.2.primary == some x.new || p.2.ghost == some x.new).map (·.1))
        ((getJob s slot).getD j)
      let s := if x.fresh then s else modSlot slot (fun sl => { sl with state := .loaded, job := none }) s
      let s := modSlot x.new (fun sl => { sl with state := .running, owner := j.owner, job := some j' }) s
      let s := { s with
        reqs := s.reqs.map fun p => (p.1, if p.2.f.slot = slot && p.2.state != .ended then
          { p.2 with f := { p.2.f with slot := x.new } } else p.2),
        registry := s.registry.map fun p => (p.1, if p.2.trainSlot = some slot then
          { p.2 with trainSlot := some x.new } else p.2) }
      let s := match slotPart s x.new with
        | some (p, false) => modPart p (fun q => { q with state := if q.state = .loading then .running else q.state }) s
        | _ => s
      let s := match restore with
        | some c => restoreCkpt x.new nsc c s
        | none => s
      let s := loadImages x.new s
      applyStops x.new (complete x.w cOk 0 [] (logChange x.w x.new j'.nextBar (leBytes 1 slot ++ leBytes 1 x.new) s))

/-- A permutation whose fetches and key are there is reported; once every device has reported, the new score starts at the
next bar number, or the re-shard fails (R342 steps 6 and 7, R343). Where a shard has no holder left, every device restores the
job's last checkpoint (R341). A device without a rank in the new layout leaves. -/
def finishReshard (slot : Nat) (s : State) : State :=
  match getJob s slot, (getSlot s slot).score with
  | some j0, some sc => match j0.reshard with
    | none => s
    | some x => match (getSlot s x.new).score with
      | none => failReshard slot cStateConflict s
      | some nsc =>
        if !x.moving || !j0.keyed || !(x.bad || (x.fetch.isEmpty && (!x.fresh || regionsReady s x.new))) then s
        else
          let bad := x.bad || !(x.fresh || reshardFits s slot j0 j0.rank x.new nsc) || (x.restore && (lastCkpt s j0).isNone)
          let s := if x.told then s else
            contribColl slot 6 j0.epoch 0 (reportByte bad x.restore)
              (modJob slot (fun j => { j with reshard := j.reshard.map fun x => { x with told := true } }) s)
          let j := (getJob s slot).getD j0
          match reports j with
          | none => s
          | some rs =>
            let s := modJob slot (fun j => { j with coll := j.coll.filter (·.code != 6) }) s
            if rs.any fun b => b.toNat == 2 then failReshard slot (if x.bad then cVersionFault else cStateConflict) s
            else if (newRank s x.was x.map nsc).isNone then
              complete x.w cOk 0 [] (endJob slot cOk false (modJob slot (fun j => { j with reshard := none }) s))
            else switchLayout slot x sc nsc (if rs.any fun b => b.toNat == 1 then lastCkpt s j else none) s
  | _, _ => s

/-! ## Collective frames at their rank (14 R409, R416; 17 R491) -/

/-- A collective frame of a run that the job has discarded (14 R409, R417). -/
def collStale (j : Job) (f : GlFrame) : Bool :=
  decide (f.route - 0xFC00 ≤ 3) && (decide (f.bar < j.nextBar) ||
    (f.bar == j.nextBar && (let now := ((j.cur.map (·.run)).getD j.runs) % 256
      f.run != now && decide ((now + 256 - f.run) % 256 < 128))))

/-- A collective frame at its rank, its tag tested: records of codes 1 to 6 travel on, an endorsement request is answered, an
answer is met with the key, and the key lets a start, an admission or a permutation go on (R416, 17 R491). -/
def takeCollective (slot : Nat) (f : GlFrame) (s : State) : State :=
  match getJob s slot with
  | some j =>
    let drop : State := modJob slot (fun j => { j with frameDrops := j.frameDrops + 1 }) s
    if f.route = 0xFC08 then
      if j.keyed then s
      else finishReshard slot (finishAdmission slot (finishStart slot (takeKey slot f s)))
    else if f.route = 0xFC07 then
      if f.payload.isEmpty then
        match j.members.get f.src with
        | none => s
        | some d =>
          let r := nextFree s
          linkEnqueue (keyFrame j d.1 f.src 7 (Config.freeBytes r.1 endorsementBytes)) r.2
      else if j.keyed then sendKeyTo slot f.src s else s
    else if f.route = 0xFC05 then queryFrame slot f s
    else if f.route ≤ 0xFC00 || 0xFC08 < f.route || collStale j f || !collNeighbour j (f.route - 0xFC00) f.src then drop
    else finishReshard slot (finishAdmission slot (collFrame slot f s))
  | none => s

/-- Collective frames of a later epoch that waited are taken once the device has that epoch (R409). -/
def takeHeldColl (slot : Nat) (s : State) : State :=
  match getJob s slot with
  | none => s
  | some j =>
    let due (f : GlFrame) : Bool := f.job == j.f.job && f.ftype == 1 && decide (f.epoch ≤ j.epoch)
    let mine := s.linkWait.filter fun f => due f.2
    let s := { s with linkWait := s.linkWait.filter fun f => !due f.2 }
    mine.foldl (fun s f => match getJob s slot with
      | none => returnFrames [f] s
      | some k =>
        if f.2.epoch < k.epoch then discardFrame slot f.1 f.2 s
        else if f.2.tagOk && (f.2.route == 0xFC07 || f.2.route == 0xFC08 || keyHeld k f.2) then
          takeCollective slot f.2 (returnFrames [f] s)
        else returnFrames [f] (linkAuth f.1 slot f.2 s)) s

/-! ## The permutation begins -/

/-- Shards that no device of the old layout holds any more (R341, R288). -/
def lostShards (sc : Score) (lost : List Nat) : Bool :=
  sc.shards.any fun e => lost.contains e.owner && (match e.keeper with
    | some k => lost.contains k
    | none => true)

/-- The permutation begins (R342 steps 1 and 2): the epoch rises under a fresh key, the new rank map is taken, regions for
shards newly held are created, and their buffers are to be fetched. -/
def beginReshard (slot : Nat) (s : State) : State :=
  match getJob s slot, (getSlot s slot).score with
  | some j, some sc => match j.reshard with
    | none => s
    | some x => match (getSlot s x.new).score with
      | none => failReshard slot cStateConflict s
      | some nsc =>
        let rank := (newRank s j.rank x.map nsc).getD j.rank
        let held := if (newRank s j.rank x.map nsc).isSome then heldShards nsc rank else []
        let fetch := held.filter fun i => !(heldShards sc j.rank).contains i
        let add := if held.isEmpty then [] else newHoldings s slot j rank x.new nsc
        let hidden (r : Region) : Bool := r.slot == some slot && r.reserved && add.any fun q => sameRegion q r
        let s := { s with regions := s.regions.filter (fun r => !hidden r) ++ add }
        let members := x.map.foldl (fun (m : Table (Nat × List Byte)) p => m.put p.1 p.2) j.members
        let isNew (r : Nat) : Bool := match j.members.get r with
          | some m => x.map.any fun q => q.1 == r && q.2 != m
          | none => true
        let draws := drawer (max sc.replicas nsc.replicas) isNew j.lost == some rank
        let s := modJob slot (fun j => { j with
          epoch := j.epoch + 1, rank, members, coll := [],
          reshard := some { x with moving := true, fetch, restore := lostShards sc j.lost, was := j.rank, wasMembers := j.members } }) s
        let s := freshKey slot draws s
        let s := if draws then sendKeys slot s else s
        finishReshard slot (takeHeldColl slot s)
  | _, _ => s

/-- A device that is new to the job takes the tables and fills its holdings under the new score, which stands in its slot
(R339, R342 steps 1, 2 and 5). -/
def beginFresh (slot rank : Nat) (w : Wait) (map : List (Nat × Nat × List Byte)) (t : JobTables) (sc : Score)
    (place : Option (Nat × Nat × Nat)) (s : State) : State :=
  let s := beginSpare slot rank (t.epoch + 1) s.setup.deviceId (shake256 16 s.dev.idKey) w t sc place s
  let s := modJob slot (fun j => { j with
    members := map.foldl (fun (m : Table (Nat × List Byte)) p => m.put p.1 p.2) j.members, admission := none,
    reshard := some { w, new := slot, map, moving := true, fetch := heldShards sc rank, fresh := true, was := rank,
                      bad := !t.ok } }) s
  takeHeldColl slot s

end Sys2Proof.Machine
end

