-- ==== Sys2Proof/Machine/Bars.lean ====
section
/-! DEFINITION. The bars of a job (02 R39 to R42, 09 R264 to R288): drain, bar words, votes, verdicts, opening,
look-ahead, timeouts, the verdict query, and the comparison of replicas (11 R334, R335). -/

namespace Sys2Proof.Machine

/-! ## Drain (R39) -/

/-- A core has completed the bar: ended, nothing in flight, every bank drained. -/
def coreDrained (c : CoreCtx) : Bool :=
  c.ended && c.mmNow.isNone && c.dmas.isEmpty && c.recvs.isEmpty && c.chains.isEmpty && c.mcOut.isEmpty && !c.heldA && !c.heldB

/-- Messages and streams of a run still on their way or unconsumed. -/
def runTraffic (s : State) (slot bar run : Nat) : Bool :=
  s.net.any (fun m => m.slot == slot && m.bar == bar && m.run == run) ||
    s.streams.any (fun m => m.slot == slot && m.bar == bar && m.run == run) ||
    s.cores.any fun p => p.2.inbox.any (fun m => m.slot == slot && m.bar == bar && m.run == run) ||
      p.2.chainBuf.any fun m => m.slot == slot && m.bar == bar && m.run == run

/-- A gather that this rank runs (11 R325). -/
def gatherMine (sc : Score) (rank : Nat) (g : Gather) : Bool := match sc.shards[g.shard]? with
  | some e => e.stage == rank / sc.sp % sc.pp && (if e.owner = rank then bitOf g.mask 1 else bitOf g.mask 0)
  | none => false

/-- No source of a reduction has sent anything in the run, and every source is on this device: nothing of it is under
way (R39). -/
def redIdle (rank : Nat) (t : RedState) (seq : List (Nat × Nat)) : Bool :=
  t.taken.isEmpty && t.held.isEmpty && t.partials.isEmpty && seq.all fun p => p.2 == rank

/-- Link interfaces and engines have finished the run: reductions delivered or idle, owned shards judged, gathers and
keeper copies here (R39, R324); those of a strict bar are not served until its verdict (09 R281). -/
def linksDone (sc : Score) (j : Job) (r : Run) : Bool :=
  ((List.range sc.reductions.length).all fun i => match sc.reductions[i]? with
    | some d => (getRed r i).delivered || redIdle j.rank (getRed r i) (redSequence sc j.rank d)
    | none => true) &&
  ((List.range sc.shards.length).all fun i => match sc.shards[i]? with
    | some e => (e.owner != j.rank || !engineShard sc i || (r.outcomes.get i).isSome) &&
        (r.strict || e.keeper != some j.rank || r.keeperGot.contains i)
    | none => true) &&
  ((List.range sc.gathers.length).all fun i => match sc.gathers[i]? with
    | some g => !gatherMine sc j.rank g || (r.gathers.get i).isSome
    | none => true)

/-- A rank sends nothing more on a route in the run: every core of this one has ended; another's close frame says so (R603). -/
def routeOver (sc : Score) (j : Job) (r : Run) (route rank : Nat) : Bool :=
  rank == j.rank || r.closes.any fun c => c.1 == route && c.2.1 == rank && decide (sc.beats ≤ c.2.2 + 1)

/-- A contribution that has begun and that no further message can complete, since every core has ended and nothing is on its
way, or its rank sends nothing more (R605). -/
def shortContribution (sc : Score) (j : Job) (r : Run) : Bool := (List.range sc.reductions.length).any fun i =>
  let x := getRed r i
  let route (p : Nat) : Option Nat := match (sc.reductions[i]?).bind fun d => d.sources[p / 1024]? with
    | some (.route n) => some n
    | _ => none
  !x.delivered && x.partials.any fun p => !x.taken.contains (p.1 / 1024, p.1 % 1024) && match route p.1 with
    | some n => routeOver sc j r n (p.1 % 1024)
    | none => false

/-- The newest run of a slot changed, wherever it stands. -/
def setDrained (hand : Nat) (r : Run) : Run := if hand = 0 then { r with drained0 := true } else { r with drained1 := true }

/-- A hand reports drained; with the other one's report this device contributes its bar words (R273, 07 R216, 14 R416). -/
def drainHand (slot hand : Nat) (sc : Score) (r : Run) (s : State) : State :=
  let s := modNow slot (setDrained hand) s
  let other := if hand = 0 then r.drained1 else r.drained0
  let fresh := !(if hand = 0 then r.drained0 else r.drained1)
  if other && fresh then contribColl slot 1 r.bar r.run ((ownWords sc r).flatMap barWordBytes) s else s

/-- `HAND_DRAINED`: R39 holds on a hand, which reports drained (R39, R273); a contribution left short is `BOUNDS` (R605). -/
def execHandDrained (slot : Nat) (hand : Nat) (s : State) : Host.Outcome State Fault Refusal :=
  if 2 ≤ hand || 128 ≤ slot then .fault .noSuchUnit
  else match getJob s slot, (getSlot s slot).score, slotPart s slot with
    | some j, some sc, some (p, ghost) => match j.now with
      | none => .next s
      | some r =>
        let part := getPart s p
        let cores := (jobCores s part ghost sc).filter fun k => handOfCol (k.1 % 64) == hand
        let here := cores.all fun k => coreDrained (ctxOf (getCore s k.1) ghost) && (ghost || (getCore s k.1).rest.isNone)
        let still := here && allEnded s part ghost sc && !runTraffic s slot r.bar r.run && !framesOut s j.f.job r.bar r.run
        if still && shortContribution sc j r then .next (slotFault slot cBounds s)
        else if still && linksDone sc j r then .next (drainHand slot hand sc r s)
        else .next s
    | _, _, _ => .next s

/-! ## Bar words (07 R216) -/

def Run.drained (r : Run) : Bool := r.drained0 && r.drained1

/-- `BAR_WORDS_COMBINED`: the collective of a drained run ends; `others` is what the other ranks' words combine to
(R216). -/
def execBarWordsCombined (slot : Nat) (others : List (Nat × Bool)) (s : State) : Host.Outcome State Fault Refusal :=
  if 128 ≤ slot then .fault .noSuchUnit
  else match getJob s slot, (getSlot s slot).score with
    | some j, some sc =>
      let give (r : Run) : Run := { r with combined := some (combineWords (ownWords sc r)
        (if sc.replicas = 1 then [] else others)) }
      let ready (r : Run) : Bool := r.drained && r.combined.isNone
      .next (modJob slot (fun j =>
        if (j.cur.map ready).getD false then { j with cur := j.cur.map give }
        else if (j.ahead.map ready).getD false then { j with ahead := j.ahead.map give } else j) (modJob slot (fun _ => j) s))
    | _, _ => .next s

/-! ## The timekeeper (18 R533, R534) -/

/-- A hand acts as timekeeper: the latch names it, its newest confirmation succeeded and it is not in reset; in Held no bar
opens and none has a verdict. -/
def timekeeper (s : State) : Bool :=
  s.dev.state != .held && s.dev.state != .starting && s.dev.batonValid && (getHand s s.dev.baton).confirmed &&
    (getHand s s.dev.baton).mode == .running

/-! ## Votes (R275, R278) -/

/-- The verdict of a combined record: 1 commit, 2 skip, 3 re-run, 4 abort (R278). -/
def verdictOf (trains : Bool) (v : Vote) : Nat :=
  if v.cause != 0 then 4
  else if v.ovf then (if trains then 2 else 3)
  else if v.mode && !v.finite then 2 else 1

/-- Every shard that the device owns has an outcome (R275, R263). -/
def ownedJudged (sc : Score) (j : Job) (r : Run) : Bool :=
  (List.range sc.shards.length).all fun i => match sc.shards[i]? with
    | some e => e.owner != j.rank || (r.outcomes.get i).isSome
    | none => true

/-- `VOTE_ENTER`: drained, bar words, shard outcomes and the verdict before are in, and the device votes (R275, 11
R335). -/
def execVoteEnter (slot : Nat) (s : State) : Host.Outcome State Fault Refusal :=
  if 128 ≤ slot then .fault .noSuchUnit
  else if !timekeeper s then .next s
  else match getJob s slot, (getSlot s slot).score with
    | some j, some sc => match j.cur with
      | none => .next s
      | some r =>
        if r.drained && r.combined.isSome && r.voted.isNone && ownedJudged sc j r && j.compare.isNone then
          .next (enterVote slot sc j r (if j.abortNext then 4 else r.cause) s)
        else .next s
    | _, _ => .next s

/-! ## The outcome block and norm records (R276, 08 R256) -/

/-- What this device contributes to the outcome block. -/
def ownBlock (sc : Score) (j : Job) (r : Run) : OutBlock :=
  { outcomes := (List.range sc.shards.length).filterMap fun i => match sc.shards[i]? with
      | some e => if e.owner = j.rank then (r.outcomes.get i).map fun o => (i, o) else none
      | none => none,
    digests := (List.range sc.shards.length).filterMap fun i => match sc.shards[i]? with
      | some e => if e.owner = j.rank then (r.digests.get i).map fun d => (i, d) else none
      | none => none,
    partials := (List.range sc.entries.length).filterMap fun i => match sc.entries[i]? with
      | some t => match sc.shards[t.shard]? with
        | some e => if e.owner = j.rank && t.norm.isSome then
            some (i, (getPass r i).parts, (getPass r i).held) else none
        | none => none
      | none => none }

/-- Each item has one contributor: this device's own, or another's. -/
def mergeBlock (a b : OutBlock) : OutBlock :=
  { outcomes := a.outcomes.foldl (fun t p => t.put p.1 p.2) b.outcomes,
    digests := a.digests.foldl (fun t p => t.put p.1 p.2) b.digests,
    partials := a.partials.foldl (fun t p => t.put p.1 p.2) b.partials }

/-- Norm record `n` of a committed bar (R256). -/
def normRecord (sc : Score) (b : OutBlock) (n : Nat) : NormRec :=
  let mine := (List.range sc.entries.length).filterMap fun i => (sc.entries[i]?).bind fun t =>
    if t.norm = some n then some (t, b.outcomes.getD t.shard 0, b.partials.getD i (({} : Partials), false)) else none
  let shards := (mine.map fun m => (m.1.shard, m.2.1)).eraseDups
  let count (f : Nat → Bool) := satAt 0xFFFF (shards.filter fun x => f x.2).length
  { w2 := mine.foldl (fun a m => add64 a (if 2 ≤ m.2.1 then m.2.2.1.w2Old else m.2.2.1.w2)) 0,
    g2 := mine.foldl (fun a m => add64 a m.2.2.1.g2) 0,
    d2 := mine.foldl (fun a m => add64 a (if 2 ≤ m.2.1 then 0 else m.2.2.1.d2)) 0,
    shards := count fun _ => true, skipped := count fun o => 2 ≤ o, clipped := count fun o => o == 1,
    flags := bit (shards.any fun x => x.2 == 3) + 2 * bit (mine.any fun m => m.2.2.2) }

/-- All norm records of a committed bar. -/
def normRecords (sc : Score) (b : OutBlock) : Table NormRec :=
  (sc.entries.filterMap (·.norm)).foldl (fun t n => t.put n (normRecord sc b n)) []

/-! ## Applying a verdict (R272) -/

/-- Shards at a commit of bar n: those ready or clipped flip (R272, R280, 11 R322). -/
def flipShards (n : Nat) (b : OutBlock) (t : Table ShardVer) : Table ShardVer :=
  t.map fun p => match b.outcomes.get p.1 with
    | some o => if o ≤ 1 then
        (p.1, { cur := 1 - p.2.cur, look := 1 - p.2.cur, ver := ⟨n, b.digests.getD p.1 p.2.ver.digest⟩ })
      else (p.1, { p.2 with look := p.2.cur })
    | none => (p.1, { p.2 with look := p.2.cur })

/-- Kept shards whose committed copy is still to come after bar n's commit: those of a strict bar that flip join, a later
flip replaces an older due copy (09 R281). -/
def copiesDue (sc : Score) (j : Job) (r : Run) (b : OutBlock) : List Nat :=
  (List.range sc.shards.length).filter fun i =>
    let flips := decide (b.outcomes.getD i 2 ≤ 1)
    (sc.shards[i]?.map fun e => e.keeper == some j.rank && (if flips then r.strict else j.keeperDue.contains i)).getD false

/-- Every versioned region flips (R271, 10 R302). -/
def flipRegions (s : State) (slot : Nat) (t : Table Nat) : Table Nat :=
  (s.regions.filter fun r => r.slot == some slot && r.kind == 1).foldl (fun t r =>
    t.put (r.index.getD 0) (1 - t.getD (r.index.getD 0) 0)) t

/-- Samples and notices held for a bar's verdict are released at a commit or skip (R266, 07 R232, 19 R550). -/
def releaseHeld (slot : Nat) (r : Run) (s : State) : State :=
  let s := match slotPart s slot with
    | some (p, _) => monSample 1 (64 + p) r.heldEntries (monSample 1 p r.sats s)
    | none => s
  countChecks slot r s

/-- The look-ahead run becomes the open bar's run at a commit (R283). -/
def promoteAhead (j : Job) : Job :=
  { j with cur := j.ahead.map fun r => { r with look := false }, ahead := none }

/-- What a commit or skip of bar n does to the job's tables besides shards and rows. -/
def closeBar (n : Nat) (j : Job) : Job :=
  { j with done := some n, nextBar := n + 1, strictNext := false, ovfRuns := 0, runs := j.runsNext, runsNext := 0,
           inputs := j.inputs.filter fun i => i.bar != n, abortNext := false }

/-- The bar completion of `JOB.START` (R465). -/
def barCompletion (j : Job) (r : Run) (verdict tensor kept : Nat) (s : State) : State :=
  if verdict = 2 || (j.f.report != 0 && (r.bar + 1) % j.f.report = 0) then
    sendEarly j.w cOk 2 (leBytes 8 r.bar ++ leBytes 1 verdict ++ leBytes 1 (bit r.strict) ++ leBytes 2 tensor ++
      leBytes 4 kept ++ leBytes 8 s.ptp.now ++ leBytes 8 0) s
  else s

/-- Owned shards that kept their buffer (R465 `KEPT`). -/
def keptShards (sc : Score) (j : Job) (b : OutBlock) : Nat :=
  (b.outcomes.filter fun p => decide (2 ≤ p.2) && match sc.shards[p.1]? with
    | some e => e.owner == j.rank
    | none => false).length

/-- Histories at a downbeat whose verdict is commit, skip or re-run (07 R217, R223). -/
def histDownbeat (r : Run) (counts : Bool) (j : Job) : Job :=
  let h := histsAfter j.cold j.hists (r.combined.getD []) counts
  { j with hists := h.1, cold := h.2 }

/-- `NUM.STATE` fields of a bar skipped or re-run for overflow (07 R228). -/
def countOverflow (r : Run) (tensor : Nat) (j : Job) : Job :=
  if tensor = 0xFFFF then j
  else { j with skips := satAt 0xFFFF (j.skips + 1), lastTensor := some tensor, lastBar := r.bar }

/-! ## Comparison records (11 R334) -/

/-- The base mappings of an image in address order. -/
def addressOrder (m : Manifest) : List Nat :=
  (List.range m.mappings).mergeSort fun a b =>
    decide ((mappingAddr m.extents a).getD 0 ≤ (mappingAddr m.extents b).getD 0)

/-- The digest of base mappings that a record holds, in address order (R334). -/
def baseField (s : State) : List Byte := match s.base with
  | none => shake256 16 []
  | some b => shake256 16 ((addressOrder b.man).flatMap fun i =>
      if b.reloading.contains i then b.man.mapDigests.getD i [] else b.scrub.getD i (b.man.mapDigests.getD i []))

/-- This device's comparison record after bar b (R334). -/
def ownRecord (s : State) (slot : Nat) (j : Job) (b : Nat) : CmpRec :=
  { bar := b, epoch := j.epoch, base := baseField s,
    hist := shake256 16 (savedNumeric (List.replicate 64 0) j), score := shake256 16 (getSlot s slot).digest,
    versions := shake256 16 (j.shards.flatMap fun p => versionEntry p.2.ver) }

/-- The 96 bytes of a comparison record. -/
def cmpBytes (r : CmpRec) : List Byte :=
  leBytes 8 r.bar ++ leBytes 4 r.epoch ++ List.replicate 4 0 ++ fitTo 16 r.base ++ fitTo 16 r.hist ++ fitTo 16 r.score ++
    fitTo 16 r.versions ++ List.replicate 16 0

/-- The comparison of replicas is due after bar n (R334): this device contributes its record. -/
def compareDue (slot : Nat) (sc : Score) (n : Nat) (s : State) : State :=
  if sc.replicas = 1 || (n + 1) % sc.verify != 0 then s
  else match getJob s slot with
    | none => s
    | some j => contribColl slot 4 n 0 (cmpBytes (ownRecord s slot j n)) (modJob slot (fun j => { j with compare := some n }) s)

/-- A commit of the open bar (R272, R279, R283). -/
def commitBar (slot : Nat) (sc : Score) (r : Run) (b : OutBlock) (tensor : Nat) (s : State) : State :=
  match getJob s slot with
  | none => s
  | some j =>
    let n := r.bar
    let B := if j.ahead.isSome then n + 2 else n + 1
    let s := logVerdict slot n 1 r.strict 0 tensor (sampleBar slot r.opened s)
    let s := unpinPages r.pins s
    let s := modJob slot (fun j => { j with
      shards := flipShards n b j.shards, keeperDue := copiesDue sc j r b, regionCur := flipRegions s slot j.regionCur,
      norms := normRecords sc b, last := 1 }) s
    let s := compareDue slot sc n (modJob slot (fun j => promoteAhead (closeBar n (histDownbeat r true j))) s)
    let s := if (((getJob s slot).bind (·.cur)).map (·.inputDone)).getD false then writeInputs slot s else s
    let s := verdictRows slot n true r s
    let s := resolveSlots slot n B (releaseHeld slot r s)
    barCompletion j r 1 tensor (keptShards sc j b) s

/-- A skip of the open bar (07 R219, R272). -/
def skipBar (slot : Nat) (sc : Score) (r : Run) (b : OutBlock) (tensor : Nat) (s : State) : State :=
  match getJob s slot with
  | none => s
  | some j =>
    let n := r.bar
    let B := if j.ahead.isSome then n + 2 else n + 1
    let s := logVerdict slot n 2 r.strict 0 tensor (sampleBar slot r.opened s)
    let s := dropLook slot s
    let s := discardRun slot r (dropTraffic slot (fun _ => false) s)
    let s := compareDue slot sc n (modJob slot (fun j => countOverflow r tensor
      { closeBar n (histDownbeat r true j) with cur := none, last := 2 }) s)
    let s := verdictRows slot n false r s
    let s := resolveSlots slot n B (releaseHeld slot r s)
    barCompletion j r 2 tensor (keptShards sc j b) s

/-- A job faults without a partition fault (20 R564 class 5): its state, counter and log entry. -/
def jobFault (slot code : Nat) (s : State) : State :=
  let sl := getSlot s slot
  let s := fltCount (slotBlock s slot) 5 s
  let s := logInternal 3 code slot sl.owner 0 [] s
  modSlot slot (fun sl => { sl with state := .faulted }) (modJob slot (fun j => { j with fault := some code }) s)

/-- A re-run for overflow (07 R221); the fourth in a row of one bar faults the job. -/
def rerunBar (slot : Nat) (r : Run) (tensor : Nat) (s : State) : State :=
  let s := logVerdict slot r.bar 3 r.strict 0 tensor (sampleBar slot r.opened s)
  let s := dropRuns slot s
  let s := modJob slot (fun j => countOverflow r tensor
    { histDownbeat r false j with last := 3, ovfRuns := j.ovfRuns + 1 }) s
  if ((getJob s slot).map (·.ovfRuns)).getD 0 = 4 then jobFault slot cNumericRunaway s else s

/-! ## What follows a verdict -/

/-- A frame of the job under a link key has not been acknowledged (14 R410). -/
def keyUnacked (s : State) (j : Job) (g : Nat) : Bool :=
  s.ports.any fun p => p.2.classes.any fun c => c.2.frames.any fun f => f.job == j.f.job && f.keyGen == g

/-- The rotation of a job's link key at a resolving downbeat (17 R497): one that was asked for takes effect; at a later one the old
key retires once every frame under it is acknowledged, and the commands complete. -/
def rotateJobKey (slot : Nat) (s : State) : State :=
  match getJob s slot with
  | none => s
  | some j =>
    if j.keyAsk then modJob slot (fun j => { j with keyAsk := false, oldKeys := j.oldKeys ++ [j.keyGen], keyGen := j.keyGen + 1 }) s
    else if j.oldKeys.isEmpty || j.oldKeys.any (keyUnacked s j) then s
    else
      let s := modJob slot (fun j => { j with oldKeys := [], keyWaits := [] }) s
      j.keyWaits.foldl (fun s w => holdCpl slot w cOk [] (logChange w slot 0 (leBytes 1 slot ++ leBytes 4 j.keyGen) s)) s

/-- After a verdict: checkpoints, stops, the end of the score, a waiting re-shard, and the release of records when no bar
is open (R394, R475, R476, 11 R340). -/
def afterVerdict (slot : Nat) (resolving : Bool) (s : State) : State :=
  match getJob s slot, (getSlot s slot).score with
  | some j, some sc =>
    let stop := resolving && stopDue sc j
    let s := if resolving then rotateJobKey slot s else s
    let s := if resolving && !(stop && j.stopCkpt) then serveCheckpoints slot s else s
    let s := if stop then endJob slot cOk j.stopCkpt s
      else if resolving && j.reshard.isSome && j.cur.isNone then beginReshard slot s else s
    match getJob s slot with
    | some j => if j.cur.isNone then releaseTokens slot s else s
    | none => s
  | _, _ => s

/-- A look-ahead run that met a version fault aborts once it is the open bar's run (11 R328). -/
def abortMarked (slot : Nat) (s : State) : State :=
  match (getJob s slot).bind (·.cur) with
  | some r => if r.cause = 0 then s else afterVerdict slot false (abortBar slot r.cause s)
  | none => s

/-- A verdict formed or adopted takes effect (R272, R279); while checkpoints of the verdict before still wait for a hand in
reset, one that changes committed state waits too (01 R24). -/
def applyVerdict (slot verdict cause tensor : Nat) (b : OutBlock) (s : State) : State :=
  match getJob s slot, (getSlot s slot).score with
  | some j, some sc => match j.cur with
    | none => s
    | some r =>
      if j.ckptHeld && verdict != 4 then s
      else match verdict with
      | 1 => abortMarked slot (afterVerdict slot true (commitBar slot sc r b tensor s))
      | 2 => afterVerdict slot true (skipBar slot sc r b tensor s)
      | 3 => afterVerdict slot false (rerunBar slot r tensor s)
      | _ => afterVerdict slot false (abortBar slot cause s)
  | _, _ => s

/-- `DOWNBEAT_VERDICT`: the combined record of every device's vote gives the verdict, which takes effect at once (R278,
R279). -/
def execDownbeatVerdict (slot : Nat) (others : List Vote) (block : OutBlock) (s : State) :
    Host.Outcome State Fault Refusal :=
  if 128 ≤ slot then .fault .noSuchUnit
  else if !timekeeper s then .next s
  else match getJob s slot, (getSlot s slot).score with
    | some j, some sc => match j.cur with
      | none => .next s
      | some r => match r.voted with
        | none => .next s
        | some own =>
          let v := others.foldl combineVote own
          if others.length + 1 != sc.replicas then .next s
          else .next (applyVerdict slot (verdictOf (scoreTrains sc) v) v.cause v.ovfTensor
            (mergeBlock (ownBlock sc j r) block) s)
    | _, _ => .next s

/-! ## Opening a bar (R39 to R42, R281, R282) -/

/-- A core's SRAM at a bar's start: its score region stays, and so do the regions of the other score of a rest window; the
rest is scratch that has died with the bar before (02 R41, R44, 09 R266). DESIGN CHOICE: dead scratch reads 0. -/
def barSram (w : RestWin) (ghost resting : Bool) (prog : CoreProg) (m : List Host.Cell) : List Host.Cell :=
  let inGhost (a : Nat) : Bool := (decide (w.localBase ≤ a) && decide (a < w.localBase + w.localSize)) ||
    (decide (0x200000 + w.deepBase ≤ a) && decide (a < 0x200000 + w.deepBase + w.deepSize))
  let image := scoreRegionLines prog * 64
  m.filter fun p =>
    if ghost then !inGhost p.1 || (decide (w.localBase ≤ p.1) && decide (p.1 < w.localBase + image))
    else decide (p.1 < image) || (resting && inGhost p.1)

/-- Every core of a slot's score starts a bar from an empty state (02 R41); a shadow check still pending is dropped
(07 R232). -/
def freshCores (slot : Nat) (s : State) : State :=
  match slotPart s slot, (getSlot s slot).score with
  | some (p, ghost), some sc =>
    let part := getPart s p
    let w := partWin s part
    let ks := jobCores s part ghost sc
    let resting (k : Nat × Nat × Nat) : Bool := !sc.rests.isEmpty && decide (w.row0 ≤ k.2.1) && decide (k.2.1 ≤ w.row1) &&
      decide (w.col0 ≤ k.2.2) && decide (k.2.2 ≤ w.col1)
    let s := dropChecks slot (ks.filter fun k => (ctxOf (getCore s k.1) ghost).shadow.isSome).length s
    ks.foldl (fun s k => modCore k.1 (fun c => match sc.cores[k.2.1 * sc.cols + k.2.2]? with
      | some prog => setCtx { c with sram := barSram w ghost (resting k) prog c.sram } ghost { live := true }
      | none => setCtx c ghost { live := true }) s) s
  | _, _ => s

/-- Pages of the promotion plan that a bar's opening asks for (10 R309). -/
def planPromotions (slot bar : Nat) (sc : Score) (s : State) : State :=
  sc.promos.foldl (fun s p =>
    let use_ := bar + p.lead
    if use_ % p.period != p.phase then s
    else (List.range p.pages).foldl (fun s i =>
      askPromotion { cls := 2, page := pageNo p.addr + i, pool := if p.target = 1 then 0 else 2,
                     holds := [(slot, use_ + p.hold + 1)] } s) s) s

/-- eta and keep of every group for a bar (08 R248). -/
def barEtas (sc : Score) (bar : Nat) : Table (W64 × W64) :=
  (List.range (sc.groups.getD []).length).filterMap fun i => ((sc.groups.getD [])[i]?).map fun c => (i, groupEta c bar)

/-- The flows of a slot that belong to a run that is open, or to collectives that may still run (14 R412, R416). -/
def keepFlows (slot : Nat) (s : State) : State :=
  let open_ (f : Flow) : Bool := ((getJob s slot).map fun j => [j.cur, j.ahead].any fun o =>
    (o.map fun r => r.bar == f.bar && r.run % 256 == f.run).getD false).getD false
  let next := ((getJob s slot).map (·.nextBar)).getD 0
  { s with flows := s.flows.filter fun f => f.slot != slot || open_ f ||
      (decide (0xFC00 ≤ f.cls) && (decide (next ≤ f.bar + 1) || decide (0xFC05 ≤ f.cls))) }

/-- What the opening of a run does once the run stands in the job: cores, scale lines, reductions, promotions, frames that
waited, and what beat 0 brings (R39, 07 R210, 05 R147, 10 R309). -/
def enterRun (slot : Nat) (sc : Score) (hs : List Hist) (cold : Nat) (run : Run) (s : State) : State :=
  let s := writeScaleLines slot hs cold run s
  let s := keepFlows slot s
  let s := planPromotions slot run.bar sc s
  let s := settleShards slot (emptyReductions slot sc s)
  atBeat slot 0 (takeWaiting slot s)

/-- The run that opens a bar. -/
def startRun (sc : Score) (j : Job) (bar runNo : Nat) (look : Bool) (now : Nat) : Run :=
  { bar, run := runNo, strict := !look && (sc.strict || j.strictNext), look, opened := now, beatTime := now,
    etas := barEtas sc bar }

/-- The row blocks of a slot rest in a stack of a hand in reset (01 R24, 13 R374). -/
def rowsAsleep (s : State) (slot : Nat) : Bool :=
  s.regions.any fun r => r.slot == some slot && r.rowBlocks && rangeAsleep s r.base (r.stop - r.base)

/-- A bar may open in this state of the job: no bar is open, its partition is there, and no stop, re-shard, lost member or
memory access that a hand in reset holds is in the way (R286, R287, R473, R475, 01 R24). -/
def mayOpen (s : State) (slot : Nat) (sc : Score) (j : Job) : Bool :=
  let st := (getSlot s slot).state
  (st == .running || st == .stopping || st == .resharding) && j.cur.isNone && j.ahead.isNone && !j.startWait &&
    j.lost.isEmpty && (slotPart s slot).isSome && regionsReady s slot && !stopDue sc j && j.ending.isNone && !j.ckptHeld &&
    !rowsAsleep s slot &&
    (st != .resharding || (j.runs != 0 && match j.reshard with
      | some x => !x.moving
      | none => false))

/-- `BAR_OPEN`: the timekeeper opens the next bar, or opens it again (R39, R281, R286). -/
def execBarOpen (slot : Nat) (s : State) : Host.Outcome State Fault Refusal :=
  if 128 ≤ slot then .fault .noSuchUnit
  else if !timekeeper s then .next s
  else match getJob s slot, (getSlot s slot).score with
    | some j, some sc =>
      if !mayOpen s slot sc j then .next s
      else
        let bar := j.nextBar
        let r := (startRun sc j bar j.runs false s.ptp.now).withScales sc j.hists j.cold
        let rows := openRows slot bar false none r s
        let r := rows.2
        let s := freshCores slot rows.1
        let s := modJob slot (fun j => { j with cur := some r, runs := j.runs + 1 }) s
        let s := match slotPart s slot with
          | some (p, true) => tickGhost p (startGhost p s)
          | _ => s
        .next (enterRun slot sc j.hists j.cold r s)
    | _, _ => .next s

/-- The buffer of each shard that a commit of the open bar would make current (10 R302). -/
def lookIndices (sc : Score) (j : Job) (r : Run) : Table ShardVer :=
  j.shards.map fun p =>
    let flips := match sc.shards[p.1]? with
      | some e => if e.owner = j.rank then (match r.outcomes.get p.1 with
          | some o => decide (o ≤ 1)
          | none => false) else (r.digests.get p.1).isSome && e.keeper == some j.rank
      | none => false
    (p.1, { p.2 with look := if flips then 1 - p.2.cur else p.2.cur })

/-- The conditions of R282 and R285, with those of R340, 12 R358 and 16 R475. -/
def mayLook (s : State) (slot : Nat) (sc : Score) (j : Job) (r : Run) : Bool :=
  ((getSlot s slot).state == .running || (getSlot s slot).state == .stopping) &&
    j.stops.all (fun x => x.mode == 1 && decide (r.bar < x.after)) && sc.lookahead && !sc.strict && !r.strict && r.drained && j.ahead.isNone &&
    (match r.combined with
      | some ws => !ws.any (·.2)
      | none => false) &&
    !j.claims.any (fun c => c.cbar == some (r.bar + 1)) &&
    !j.releases.any (fun c => c.cbar == some (r.bar + 1) && c.eff.isNone) && j.reshard.isNone &&
    (sc.bars == 0 || decide (r.bar + 1 < sc.bars)) && (slotPart s slot).isSome && !r.query && !rowsAsleep s slot

/-- `LOOKAHEAD_OPEN`: a look-ahead run of the next bar opens (R282). -/
def execLookaheadOpen (slot : Nat) (s : State) : Host.Outcome State Fault Refusal :=
  if 128 ≤ slot then .fault .noSuchUnit
  else if !timekeeper s then .next s
  else match getJob s slot, (getSlot s slot).score with
    | some j, some sc => match j.cur with
      | none => .next s
      | some cur =>
        if !mayLook s slot sc j cur then .next s
        else
          let bar := cur.bar + 1
          let h := histsAfter j.cold j.hists (cur.combined.getD []) true
          let r := (startRun sc j bar j.runsNext true s.ptp.now).withScales sc h.1 h.2
          let s := modJob slot (fun j => { j with shards := lookIndices sc j cur }) s
          let rows := openRows slot bar true (some cur) r s
          let r := rows.2
          let s := freshCores slot rows.1
          let s := modJob slot (fun j => { j with ahead := some r, runsNext := j.runsNext + 1 }) s
          .next (enterRun slot sc h.1 h.2 r s)
    | _, _ => .next s

/-! ## Timeouts and queries (R284, R285) -/

/-- Members that a verdict query waits for: every other one that is not lost. -/
def queryMembers (j : Job) : List Nat :=
  (j.members.map (·.1)).filter fun m => m != j.rank && !j.lost.contains m

/-- The query has ended without a verdict: abort with cause 1 (R285). -/
def endQuery (slot : Nat) (s : State) : State :=
  match getJob s slot with
  | none => s
  | some j => match j.cur with
    | none => s
    | some r => if r.query && (queryMembers j).all r.replies.contains then applyVerdict slot 4 1 0xFFFF {} s else s

/-- What a slot's job waits to read or write in the stacks of a hand goes on once the hand has returned (01 R24). -/
def wakeJob (slot : Nat) (s : State) : State :=
  let s := finishStart slot s
  match getJob s slot with
  | none => s
  | some j =>
    let s := if (j.now.map (·.inputDone)).getD false then writeInputs slot s else s
    let s := if j.ckptHeld then serveCheckpoints slot s else s
    match j.ending with
    | some e => endJob slot e.1 e.2 s
    | none => s

/-- The timer of a bar's run has expired: opened so long ago, the time that a ghost was paused left out (R284, R61). -/
def timerOver (s : State) (slot : Nat) (j : Job) (r : Run) : Bool :=
  let out := r.pausedNs + match r.pausedAt with
    | some t => s.ptp.now - t
    | none => 0
  !ghostPaused s slot && decide (r.opened + out + orDefault j.f.timeoutMs 5000 * 1000000 ≤ s.ptp.now)

/-- `BAR_TIMEOUT`: the bar's timer expires (R284); a ghost's runs only while the ghost does (R61). -/
def execBarTimeout (slot t : Nat) (s : State) : Host.Outcome State Fault Refusal :=
  let s := atTime t s
  if 128 ≤ slot then .fault .noSuchUnit
  else if !timekeeper s then .next s
  else match getJob s slot, slotPart s slot with
    | some j, some _ => match j.cur with
      | none => .next s
      | some r =>
        if r.query || !timerOver s slot j r then .next s
        else match r.voted with
          | none => .next (applyVerdict slot 4 1 0xFFFF {} (match (getSlot s slot).score with
              | some sc => enterVote slot sc j r 1 s
              | none => s))
          | some _ =>
            .next (endQuery slot (askQuery slot r.bar (modJob slot (fun j => { j with
              cur := j.cur.map fun r => { r with query := true } }) s)))
    | _, _ => .next s

/-- `VERDICT_QUERY_REPLY`: a member answers with its verdict and cause, or that it has none; with the verdict comes the
outcome block it was formed on (R285). -/
def execVerdictQueryReply (slot : Nat) (member : Nat) (verdict : Option (Nat × Nat)) (block : OutBlock) (s : State) :
    Host.Outcome State Fault Refusal :=
  if 128 ≤ slot then .fault .noSuchUnit
  else if !timekeeper s then .next s
  else match getJob s slot, (getSlot s slot).score with
    | some j, some sc => match j.cur with
      | none => .next s
      | some r =>
        if !r.query || !(queryMembers j).contains member then .next s
        else match verdict with
          | some v => .next (applyVerdict slot v.1 v.2 (lowestOvf (r.combined.getD [])) (mergeBlock (ownBlock sc j r) block) s)
          | none => .next (endQuery slot (modJob slot (fun j => { j with
              cur := j.cur.map fun r => { r with replies := r.replies ++ [member] } }) s))
    | _, _ => .next s

/-! ## Replica comparison (11 R334, R335) -/

/-- The value of a field that more than half of the devices hold. -/
def majority (n : Nat) (l : List (List Byte)) : Option (List Byte) :=
  l.find? fun v => decide (n < 2 * (l.filter (· == v)).length)

/-- The fields that are compared, in the record's order. -/
def CmpFields : List (CmpRec → List Byte) :=
  [fun r => leBytes 8 r.bar, fun r => leBytes 4 r.epoch, CmpRec.base, CmpRec.hist, CmpRec.score, CmpRec.versions]

/-- `REPLICA_DIVERGED` names the fields, whether one has no majority, and the divergent ranks, 18 in each notice (R335). -/
def divergedNotices (slot b fields : Nat) (split : Bool) (ranks : List Nat) (s : State) : State :=
  (List.range (ceilDiv ranks.length 18)).foldl (fun s i =>
    notice 0x50 1 slot b (leBytes 1 fields ++ leBytes 1 (bit split) ++ leBytes 2 ranks.length ++
      ((ranks.drop (18 * i)).take 18).flatMap (leBytes 2)) s) s

/-- The bar after a comparison that found a difference aborts with cause 4, open or still to open (R335). -/
def abortCompared (slot b : Nat) (s : State) : State :=
  match (getJob s slot).bind (·.cur) with
  | some r => if r.bar = b + 1 then abortBar slot 4 s else s
  | none => modJob slot (fun j => { j with abortNext := true }) s

/-- `REPLICA_COMPARISON`: the records of every device are compared field by field (R335). A device that differs leaves the job as a
partition fault makes one leave (20 R573); DESIGN CHOICE: its job faults with `VERSION_FAULT`, as does one without a majority,
since the manual names no code. -/
def execReplicaComparison (slot : Nat) (recs : List (Nat × CmpRec)) (s : State) : Host.Outcome State Fault Refusal :=
  if 128 ≤ slot then .fault .noSuchUnit
  else match getJob s slot, (getSlot s slot).score with
    | some j, some sc => match j.compare with
      | none => .next s
      | some b =>
        if recs.length + 1 != sc.replicas then .next s
        else
          let all := (j.rank, ownRecord s slot j b) :: recs
          let verdicts := CmpFields.map fun f => (f, majority all.length (all.map fun p => f p.2))
          let s := modJob slot (fun j => { j with compare := none }) s
          let split := (verdicts.any fun v => v.2.isNone)
          let off := all.filter fun p => verdicts.any fun v => match v.2 with
            | some m => v.1 p.2 != m
            | none => true
          let fields := sumNat ((List.range CmpFields.length).map fun i => match verdicts[i]? with
            | some v => if all.any (fun p => match v.2 with
                | some m => v.1 p.2 != m
                | none => true) then 2 ^ i else 0
            | none => 0)
          let ranks := off.map (·.1)
          if off.isEmpty then .next s
          else
            let s := divergedNotices slot b fields split ranks (abortCompared slot b s)
            if split || ranks.contains j.rank then .next (jobFault slot cVersionFault (dropRuns slot s))
            else
              let gone (i : Nat) : Bool := ((sc.shards[i]?).map fun e => ranks.contains e.owner).getD false
              let s := modJob slot (fun j => { j with
                lost := (j.lost ++ ranks).eraseDups, keeperDue := j.keeperDue.filter fun i => !gone i }) s
              .next (wakeJob slot (modSlot slot (fun sl => { sl with
                state := if sl.state = .running then .awaiting else sl.state }) s))
    | _, _ => .next s

/-! ## Shard copies and gathers (11 R323 to R328) -/

/-- The shard bytes that a digest covers, from its planes read in order of element (R321). -/
def copyDigest (bytes : List Byte) : List Byte := shake256 16 bytes

/-- `VERSION_FAULT` raised (R323, R328): the bar aborts with cause 2, a look-ahead bar once it is the open bar. -/
def versionFault (slot : Nat) (s : State) : State :=
  match (getJob s slot).bind (·.ahead) with
  | some _ => modJob slot (fun j => { j with ahead := j.ahead.map fun r => { r with cause := 2 } }) s
  | none => afterVerdict slot false (abortBar slot 2 s)

end Sys2Proof.Machine
end

