-- ==== Sys2Proof/Machine/CoreInsn.lean ====
section
/-! DEFINITION. Control, index and mask instructions of a core (03 R75 to R78, R80, R84 to R86) and the rest window
(02 R57 to R60, 04 R113, 06 R165). -/

namespace Sys2Proof.Machine

/-! ## Control (R84) -/

/-- `nop` (R84): nothing but its beat-wait mode. -/
def execNop (c : CoreRef) (k : Ctl) (s : State) : Host.Outcome State Fault Refusal :=
  issue c k .nop (fun _ => none) (regBody id) s

/-- The count of a loop, read once (R76); a register value above 1,048,574 is `FIELD_RANGE` (R102). -/
def loopCount (c : CoreCtx) : Opnd → Option Nat
  | .imm n => some n
  | .reg x => let v := (xRead c x).toNat
    if 1048574 < v then none else some v

/-- A loop opened, or its body skipped when the count is zero (R76). -/
def openLoop (xc n body : Nat) (c : CoreCtx) : CoreCtx :=
  if n = 0 then loopBack 5 { c with pc := c.pc + 1 + body }
  else xWrite { c with pc := c.pc + 1, loops := ⟨c.pc + 1, c.pc + 1 + body, n, 0, xc⟩ :: c.loops } xc 0

/-- `loop` (R76, R84). -/
def execLoop (c : CoreRef) (k : Ctl) (xc : Nat) (count : Opnd) (body : Nat) (s : State) :
    Host.Outcome State Fault Refusal :=
  issue c k (.loop xc count body) (fun _ => none) (fun e s =>
    match loopCount e.ctx count with
    | none => .fault cFieldRange
    | some n => .ok (modCtx e.key e.ghost (openLoop xc n body) s)) s

/-- The target of a `wait.beat` (R84). -/
def waitTarget (target : Nat) (rel : Bool) (e : Env) : Nat := if rel then e.ctx.beat + target else target

/-- `wait.beat` (R80, R84): its mode waits, and the beat then becomes the target; a lower target is `BOUNDS`. -/
def execWaitBeat (c : CoreRef) (k : Ctl) (target : Nat) (rel : Bool) (s : State) : Host.Outcome State Fault Refusal :=
  issue c k (.waitBeat target rel) (fun e => some (waitTarget target rel e)) (fun e s =>
    if waitTarget target rel e < e.ctx.beat then .fault cBounds else regBody id e s) s

/-- `end` (R84): the core has finished the bar; when every core has, an unconsumed message is `BEAT_ORPHAN` (R40). -/
def execFinish (c : CoreRef) (k : Ctl) (s : State) : Host.Outcome State Fault Refusal :=
  issue c k .finish (fun _ => none) (fun e s =>
    let s := modCtx e.key e.ghost (fun c => { c with ended := true }) s
    if allEnded s e.part e.ghost e.score && orphans s e then .fault cBeatOrphan
    else
      let s := afterBeat e.slot s
      .ok (if e.ghost then s else checkClaim e.pid s)) s

/-! ## Rest windows (R59) -/


/-- The primary's registers as it continues after a rest (R165, R60): its slots read +0 and its banks are dead. -/
def CoreCtx.afterRest (c : CoreCtx) (n : Nat) : CoreCtx :=
  { c.resumed with slots := [], bankA := [], bankB := [], bankFree := some n, heldA := false, heldB := false }

/-- A ghost runs on the partition: it is bound and its bar is open. -/
def ghostReady (s : State) (p : Part) : Bool :=
  match p.ghost with
  | some g => ((getJob s g).bind Job.now).isSome
  | none => false

/-- `rest` (R59 orders 1 to 3): once the partition beat is at `FIRST_BEAT`, the primary's state is saved and a bound
ghost resumes. -/
def execRest (c : CoreRef) (k : Ctl) (win : Nat) (s : State) : Host.Outcome State Fault Refusal :=
  issue c k (.rest win) (fun _ => none) (fun e s =>
    match e.score.rests[win]? with
    | none => .fault cBounds
    | some w =>
      if partBeatOf s e.part e.ghost e.score < w.first || e.ctx.mmNow.isSome || !e.ctx.chains.isEmpty || !e.ctx.mcOut.isEmpty then .wait
      else
        let dropped := if e.ctx.shadow.isSome then 1 else 0
        let on := ghostReady s e.part
        let s := modCore e.key (fun core =>
          let saved := stepPc core.ctx
          if on then { core with savedPrimary := { saved with shadow := none }, ctx := core.savedGhost.resumed,
                                 ghostOn := true, rest := some win, pausing := false }
          else { core with ctx := { saved with shadow := none }, rest := some win }) s
        let s := modPart e.pid (fun p => { p with state := .resting }) (dropChecks e.slot dropped s)
        .ok (tickGhost e.pid (checkClaim e.pid (afterBeat e.slot s)))) s

/-- The cores of a partition that rest. -/
def restingCores (s : State) (part : Part) : List (Nat × Nat × Nat) :=
  match part.primary.bind fun i => (getSlot s i).score with
  | some sc => (jobCores s part false sc).filter fun k => (getCore s k.1).rest.isSome
  | none => []

/-- The ghost on a core has completed its beat, or has no bar, and everything it has issued is done (R59 orders 6 and 7). -/
def ghostStill (c : Core) : Bool :=
  !c.ghostOn || (c.ctx.dmas.isEmpty && c.ctx.mmNow.isNone && c.ctx.recvs.isEmpty && c.ctx.chains.isEmpty && c.ctx.mcOut.isEmpty &&
    (c.pausing || c.ctx.ended || !c.ctx.live))

/-- `GHOST_PAUSE`: after a claim the ghost has completed its beat and its transfers, and its save begins (R59 orders 6
to 8). -/
def execGhostPause (part : Nat) (s : State) : Host.Outcome State Fault Refusal :=
  if 64 ≤ part then .fault .noSuchUnit
  else
    let p := getPart s part
    let cores := restingCores s p
    if p.claim.isSome && cores.all (fun k => ghostStill (getCore s k.1)) then
      let drops := (cores.filter fun k => (getCore s k.1).ghostOn && (getCore s k.1).ctx.shadow.isSome).length
      let s := cores.foldl (fun s k => modCore k.1 (fun c =>
        if c.ghostOn then { c with pausing := true, ctx := { c.ctx with shadow := none } } else { c with pausing := true }) s) s
      .next (tickGhost part (match p.ghost with
        | some g => dropChecks g drops s
        | none => s))
    else .next s

/-- `GHOST_SAVE_DONE`: the ghost's transfers are done and its save area is written, and the primary continues after its `rest`
(R59 orders 7 to 9). -/
def execGhostSaveDone (part : Nat) (s : State) : Host.Outcome State Fault Refusal :=
  if 64 ≤ part then .fault .noSuchUnit
  else
    let p := getPart s part
    let cores := restingCores s p
    if p.claim.isSome && !cores.isEmpty && cores.all (fun k => (getCore s k.1).pausing && ghostStill (getCore s k.1)) then
      let f := nextFree s
      let s := cores.foldl (fun s k => modCore k.1 (fun c =>
        if c.ghostOn then { c with savedGhost := c.ctx.resumed, ctx := c.savedPrimary.afterRest f.1, ghostOn := false,
                                   rest := none, pausing := false }
        else { c with ctx := c.ctx.afterRest f.1, rest := none, pausing := false }) s) f.2
      .next (modPart part (fun p => { p with state := if p.state = .resting then .running else p.state,
                                             claim := none }) s)
    else .next s

/-! ## Index (R77, R78, R85) -/

/-- The index functions: 32-bit two's complement, wrapping; shifts by the low five bits (R77, R85). -/
def xFn (fn : Nat) (a b : Word) : Word :=
  let sh := b.toNat % 32
  match fn with
  | 0 => a + b
  | 1 => a - b
  | 2 => a * b
  | 3 => a &&& b
  | 4 => a ||| b
  | 5 => a ^^^ b
  | 6 => a <<< sh
  | 7 => a >>> sh
  | 8 => a.sshiftRight sh
  | 9 => if a.slt b then a else b
  | 10 => if a.slt b then b else a
  | 11 => if a.ult b then a else b
  | 12 => if a.ult b then b else a
  | _ => 0

/-- `x.op` (R85). -/
def execXOp (c : CoreRef) (k : Ctl) (xd xa xb fn : Nat) (s : State) : Host.Outcome State Fault Refusal :=
  issue c k (.xOp xd xa xb fn) (fun _ => none) (regBody fun c => xWrite c xd (xFn fn (xRead c xa) (xRead c xb))) s

/-- `x.opi` (R85). -/
def execXOpi (c : CoreRef) (k : Ctl) (xd xa fn : Nat) (imm : Word) (s : State) : Host.Outcome State Fault Refusal :=
  issue c k (.xOpi xd xa fn imm) (fun _ => none) (regBody fun c => xWrite c xd (xFn fn (xRead c xa) imm)) s

/-- `x.set` (R85). -/
def execXSet (c : CoreRef) (k : Ctl) (xd : Nat) (imm : Word) (s : State) : Host.Outcome State Fault Refusal :=
  issue c k (.xSet xd imm) (fun _ => none) (regBody fun c => xWrite c xd imm) s

/-- The values of `x.get` (R78). -/
def xGetValue (e : Env) (src : Nat) : Nat :=
  match src with
  | 0 => e.run.bar % 2 ^ 32
  | 1 => e.run.bar / 2 ^ 32 % 256
  | 2 => e.ctx.beat
  | 3 => e.job.rank
  | 4 => e.score.replicas
  | 5 => e.row
  | 6 => e.col
  | 7 => e.score.rows
  | 8 => e.score.cols
  | 9 => e.slot
  | 10 => 128
  | _ => 0

/-- `x.get` (R78, R85). -/
def execXGet (c : CoreRef) (k : Ctl) (xd src : Nat) (s : State) : Host.Outcome State Fault Refusal :=
  issue c k (.xGet xd src) (fun _ => none) (fun e s =>
    regBody (fun c => xWrite c xd (BitVec.ofNat 32 (xGetValue e src))) e s) s

/-! ## Mask (R86) -/

/-- The comparisons of `m.cmp` (R86). -/
def ccHolds (cc : Nat) (a b : Word) : Bool :=
  match cc with
  | 0 => a == b
  | 1 => a != b
  | 2 => a.slt b
  | 3 => !a.slt b
  | 4 => a.ult b
  | 5 => !a.ult b
  | _ => false

def cmpRhs (c : CoreCtx) : CmpRhs → Word
  | .reg x => xRead c x
  | .imm v => v.signExtend 32

/-- `m.cmp` (R86): all ones or all zeros. -/
def execMCmp (c : CoreRef) (k : Ctl) (md xa : Nat) (rhs : CmpRhs) (cc : Nat) (s : State) :
    Host.Outcome State Fault Refusal :=
  issue c k (.mCmp md xa rhs cc) (fun _ => none) (regBody fun c =>
    mWrite c md (if ccHolds cc (xRead c xa) (cmpRhs c rhs) then BitVec.allOnes 256 else 0)) s

/-- A bound of `m.range`; a register value above 256 is `BOUNDS` (R102). -/
def rangeBound (c : CoreCtx) : Opnd → Option Nat
  | .imm n => some n
  | .reg x => let v := (xRead c x).toNat
    if 256 < v then none else some v

/-- Bits b with lo ≤ b < hi (R86). -/
def rangeMask (lo hi : Nat) : Mask := BitVec.ofNat 256 (if lo < hi then 2 ^ hi - 2 ^ lo else 0)

/-- `m.range` (R86). -/
def execMRange (c : CoreRef) (k : Ctl) (md : Nat) (lo hi : Opnd) (s : State) : Host.Outcome State Fault Refusal :=
  issue c k (.mRange md lo hi) (fun _ => none) (fun e s =>
    match rangeBound e.ctx lo, rangeBound e.ctx hi with
    | some l, some h => regBody (fun c => mWrite c md (rangeMask l h)) e s
    | _, _ => .fault cBounds) s

/-- The mask functions (R86). -/
def mFn (fn : Nat) (a b : Mask) : Mask :=
  match fn with
  | 0 => a &&& b
  | 1 => a ||| b
  | 2 => a ^^^ b
  | 3 => a &&& ~~~b
  | 4 => ~~~a
  | _ => 0

/-- `m.logic` (R86). -/
def execMLogic (c : CoreRef) (k : Ctl) (md ma mb fn : Nat) (s : State) : Host.Outcome State Fault Refusal :=
  issue c k (.mLogic md ma mb fn) (fun _ => none) (regBody fun c =>
    mWrite c md (mFn fn (mRead c ma) (mRead c mb))) s

end Sys2Proof.Machine
end

