-- ==== Sys2Proof/Machine/Sampler.lean ====
section
/-! DEFINITION. The token sampler (13 R384 to R388): Philox words, the draw, and the candidate message. -/

namespace Sys2Proof.Machine

/-! ## Philox-4x32-10 (R387) -/

/-- One round on a counter of four words with a key of two. -/
def philoxRound (c : List Nat) (k : Nat × Nat) : List Nat :=
  let p0 := c.getD 0 0 * 0xD2511F53
  let p1 := c.getD 2 0 * 0xCD9E8D57
  [(p1 / 2 ^ 32).xor (c.getD 1 0) |>.xor k.1, p1 % 2 ^ 32, (p0 / 2 ^ 32).xor (c.getD 3 0) |>.xor k.2, p0 % 2 ^ 32]

/-- Rounds with the key bumped after each. -/
def philox : Nat → List Nat → Nat × Nat → List Nat
  | 0, c, _ => c
  | n + 1, c, k => philox n (philoxRound c k) ((k.1 + 0x9E3779B9) % 2 ^ 32, (k.2 + 0xBB67AE85) % 2 ^ 32)

/-- The draw word of a key at a position (R387). -/
def drawWord (key : W64) (position : Nat) : Nat :=
  (philox 10 [position % 2 ^ 32, 0, 0, 0] (key.toNat % 2 ^ 32, key.toNat / 2 ^ 32)).getD 0 0

/-! ## The draw (R386) -/

/-- e^x in binary64: the stepping's bits where they lie within 1 ulp of the exact value, else that value rounded. -/
def exp64 (x : W64) : W64 :=
  match num64 x with
  | .nan => nan64
  | .inf neg => if neg then 0 else x
  | n =>
    let y : Num :=
      if n.isZero then .fin false 1 0
      else if (Num.fin false 1 11).lt n.abs then (if n.isNeg then .fin false 0 0 else .fin false 1 4096)
      else expFix (toFix n)
    let r := round64 y
    let b := Config.expBits64 x
    let ulp : Num := match y with
      | .fin _ m e => .fin false 1 (if m = 0 then -1074 else fmtF64.quantum m e)
      | _ => .fin false 0 0
    if finite64 r && finite64 b && !ulp.lt ((num64 b).add y.neg).abs then b else r

/-- A candidate: token ID and logit in binary64. -/
abbrev Cand := Nat × W64

def minusInf64 : W64 := 0xFFF0000000000000#64

/-- A candidate's logit after the NaN rule and the penalty. -/
def candLogit (penalty : Word) (ring : List Nat) (id : Nat) (logit : Word) : W64 :=
  let l := if isNan32 logit then minusInf64 else widen logit
  if ring.contains id then (if gt64 l 0 then div64 l (widen penalty) else mul64 l (widen penalty)) else l

/-- Candidates by falling logit, ties by rising ID. -/
def sortCands (l : List Cand) : List Cand :=
  l.mergeSort fun a b => gt64 a.2 b.2 || (!gt64 b.2 a.2 && decide (a.1 ≤ b.1))

/-- The nucleus: candidates are added while their weight stays below t; the weights taken and their sum. -/
def nucleus (t : W64) : List W64 → W64 → Nat → W64 × Nat
  | [], a, j => (a, j)
  | q :: qs, a, j =>
    let a := add64 a q
    if gt64 t a then nucleus t qs a (j + 1) else (a, j + 1)

/-- The first candidate at which the running weight passes r. -/
def pickAt (r : W64) : List (Nat × W64) → W64 → Option Nat
  | [], _ => none
  | (id, q) :: l, b =>
    let b := add64 b q
    if gt64 b r then some id else pickAt r l b

/-- The token drawn from K candidates, or none where every logit is −∞ (R386). -/
def drawToken (q : ReqF) (position : Nat) (ring : List Nat) (cands : List (Nat × Word)) : Option Nat :=
  let c := sortCands (cands.map fun x => (x.1, candLogit q.penalty ring x.1 x.2))
  match c with
  | [] => none
  | top :: _ =>
    let k := if q.topK = 0 then c.length else min q.topK c.length
    if top.2 = minusInf64 then none
    else if (num32 q.temp).isZero || top.2 = 0x7FF0000000000000#64 then some top.1
    else
      let cs := c.take k
      let qs := cs.map fun x => exp64 (div64 (sub64 x.2 top.2) (widen q.temp))
      let s := qs.foldl add64 (0 : W64)
      let n := nucleus (mul64 (widen q.topP) s) qs (0 : W64) 0
      let word := ofNat64 (drawWord q.key position)
      let r := mul64 (mul64 word (round64 (.fin false 1 (-32)))) n.1
      let last := (cs[n.2 - 1]?.map (·.1)).getD top.1
      some ((pickAt r ((cs.map (·.1)).zip qs |>.take n.2) (0 : W64)).getD last)

/-! ## Candidate messages (R385) -/

/-- The words of a candidate message: row, candidates. -/
def candWords (m : Msg) : Nat × Nat × List (Nat × Word) :=
  let w (i : Nat) : Nat := leNat ((m.data.drop (4 * i)).take 4)
  let k := w 1
  (w 0, k, (List.range (min k 256)).map fun i => (w (16 + 2 * i), BitVec.ofNat 32 (w (16 + 2 * i + 1))))

/-- A candidate message that R385 takes. -/
def candOk (rows : Nat) (m : Msg) : Bool :=
  let c := candWords m
  let ids := c.2.2.map (·.1)
  m.data.length == 33 * 64 && decide (c.1 < rows) && decide (1 ≤ c.2.1) && decide (c.2.1 ≤ 256) &&
    ids.all (fun i => decide (i ≤ 0xFFFFFF)) && ids.eraseDups.length == ids.length

/-- The penalty set of a row's block as the run reads it. -/
def ringOf (s : State) (slot row : Nat) (j : Job) (run : Run) : List Nat :=
  match rowRegion s slot with
  | none => []
  | some r =>
    let a := resolveAddr j r run.look false (r.base + row * 2048 + 0x440)
    (List.range 64).map fun i => Mem.readLe s.mem (a + 4 * i) 4

/-- The draw of a row, entered in the run, and the row's next block (R384 orders 4 and 5). -/
def drawRow (slot : Nat) (j : Job) (run : Run) (g : GenBlock) (row : Nat) (fd : RowFeed) (q : Request)
    (cands : List (Nat × Word)) (s : State) : State :=
  let position := fd.p + fd.n
  let token := drawToken q.f position (ringOf s slot row j run) cands
  let d : Draw := { row, req := fd.req, position, token, reason := 0 }
  let run' := { run with draws := run.draws ++ [d] }
  let after := afterBar g run' row fd { q with pos := fd.p }
  let s := modNow slot (fun r => { r with draws := r.draws ++ [{ d with reason := after.2 }] }) s
  if after.2 != 0 || run.look then s
  else writeRowBlock slot row false true (rowBlock (some (after.1, feedOf g after.1 fd.req))) s

/-- `SAMPLER_DRAW`: the sampler takes a row's candidate message (R384 to R387). -/
def execSamplerDraw (ix : Nat) (s : State) : Host.Outcome State Fault Refusal :=
  match s.net[ix]? with
  | none => .next s
  | some m => match m.route, getJob s m.slot, (getSlot s m.slot).score, slotPart s m.slot with
    | some route, some j, some sc, some (p, ghost) => match sc.routes[route]?, j.now with
      | some rt, some run =>
        if rt.kind != 3 || run.bar != m.bar || run.run != m.run then .next s
        else
          let s := returnUnits false m.held { s with net := s.net.eraseIdx ix }
          let rows := (j.f.gen.map (·.rows)).getD 0
          if !candOk rows m then .next (faultPart p ghost cBounds m.srcRow m.srcCol s)
          else match j.f.gen with
            | none => .next s
            | some g =>
              let c := candWords m
              match (run.feeds.get c.1).bind fun f => (s.reqs.get f.req).map fun q => (f, q) with
              | none => .next s
              | some (f, q) =>
                if !f.sample || (drawOf run c.1).isSome then .next s
                else
                  -- a look-ahead run draws for the request as the open bar leaves it (R382)
                  let base := match j.ahead with
                    | some _ => (viewOf g j.cur c.1 q).getD q
                    | none => q
                  .next (drawRow m.slot j run g c.1 f base c.2.2 s)
      | _, _ => .next s
    | _, _, _, _ => .next s

end Sys2Proof.Machine
end

