-- ==== Sys2Proof/Machine/Fetch.lean ====
section
/-! DEFINITION. Whole shards and gathered slices that arrive (11 R323 to R328, R337, R342). -/

namespace Sys2Proof.Machine

/-! ## `SHARD_FETCH_ARRIVAL` (R323, R324) -/

/-- The bytes of a fetch agree with the version that came with them (R323). -/
def fetchOk (v : Version) (bytes : List Byte) : Bool := copyDigest bytes == v.digest

/-- `VERSION_FAULT` raised by a fetch outside any bar: the fault counts and is logged (R323, 20 R564). -/
def raiseVersion (slot : Nat) (s : State) : State :=
  logInternal 3 cVersionFault slot (getSlot s slot).owner 0 [] (fltCount (slotBlock s slot) 2 s)

/-- A fetch of a spare's admission (R337 orders 3 and 4): into buffer 0, or `VERSION_FAULT` and the shard is marked. -/
def spareFetch (slot sh : Nat) (sc : Score) (v : Version) (bytes : List Byte) (s : State) : State :=
  let ok := fetchOk v bytes
  let s := if ok then storeShard slot sc sh 0 bytes s else raiseVersion slot s
  finishAdmission slot (modJob slot (fun j => { j with
    shards := if ok then j.shards.put sh { ver := v } else j.shards,
    admission := j.admission.map fun a => { a with
      fetch := a.fetch.filter (· != sh), marked := if ok then a.marked else a.marked ++ [sh] } }) s)

/-- A fetch of a permutation (R342 steps 2 and 4): into buffer 0 of the new region; a failed check raises `VERSION_FAULT` and
fails the re-shard (R323, R343). -/
def reshardFetch (slot sh new : Nat) (v : Version) (bytes : List Byte) (s : State) : State :=
  match (getSlot s new).score with
  | none => s
  | some nsc =>
    if !fetchOk v bytes then finishReshard slot (modJob slot (fun j => { j with
      reshard := j.reshard.map fun x => { x with bad := true } }) (raiseVersion slot s))
    else finishReshard slot (modJob slot (fun j => { j with
      shards := j.shards.put sh { ver := v },
      reshard := j.reshard.map fun x => { x with fetch := x.fetch.filter (· != sh) } })
      (storeShard new nsc sh 0 bytes s))

/-- A keeper's provisional copy (R324): into its alternate buffer; no bytes where the owner's shard keeps its buffer. -/
def keeperFetch (slot sh : Nat) (sc : Score) (j : Job) (r : Run) (v : Version) (bytes : List Byte) (s : State) : State :=
  let got (s : State) : State := modNow slot (fun r => { r with keeperGot := r.keeperGot ++ [sh] }) s
  if bytes.isEmpty then got s
  else if !fetchOk v bytes || v.bar != r.bar then versionFault slot s
  else
    let s := storeShard slot sc sh (1 - shardCur j sh) bytes s
    modNow slot (fun r => { r with digests := r.digests.put sh v.digest }) (got s)

/-- A keeper's copy of a strict bar, served once the bar has committed (09 R281): into the buffer that the commit made
current; a copy that fails the check is dropped and stays due. -/
def dueFetch (slot sh : Nat) (sc : Score) (j : Job) (v : Version) (bytes : List Byte) (s : State) : State :=
  if !fetchOk v bytes || v != (j.shards.getD sh {}).ver then
    if j.now.isSome then versionFault slot s else raiseVersion slot s
  else wakeJob slot (modJob slot (fun j => { j with keeperDue := j.keeperDue.filter (· != sh) })
    (storeShard slot sc sh (shardCur j sh) bytes s))

/-- The arrival brings a copy that a strict bar left due (09 R281). -/
def isDue (j : Job) (sh : Nat) (v : Version) : Bool :=
  j.keeperDue.contains sh && v.bar == (j.shards.getD sh {}).ver.bar

/-- `SHARD_FETCH_ARRIVAL`: a whole shard buffer arrives for an admission, a permutation, the keeper of an open bar or the
keeper of a strict one that has committed, and is checked against its version (R323). -/
def execShardFetchArrival (slot : Nat) (shard : Nat) (version : Version) (bytes : List Byte) (s : State) :
    Host.Outcome State Fault Refusal :=
  if 128 ≤ slot then .fault .noSuchUnit
  else match getJob s slot, (getSlot s slot).score with
    | some j, some sc =>
      if isDue j shard version then
        if shardAsleep s slot sc shard (shardCur j shard) then .next s else .next (dueFetch slot shard sc j version bytes s)
      else match j.admission, j.reshard, j.now with
      | some a, _, _ =>
        if a.fetch.contains shard && !shardAsleep s slot sc shard 0 then .next (spareFetch slot shard sc version bytes s)
        else .next s
      | none, some x, none =>
        let awake := match (getSlot s x.new).score with
          | some nsc => !shardAsleep s x.new nsc shard 0
          | none => true
        if x.moving && x.fetch.contains shard && awake then .next (reshardFetch slot shard x.new version bytes s)
        else .next s
      | none, _, some r => match sc.shards[shard]? with
        | some e =>
          if e.keeper == some j.rank && !r.look && !r.strict && !r.keeperGot.contains shard &&
              !shardAsleep s slot sc shard (1 - shardCur j shard) then
            .next (keeperFetch slot shard sc j r version bytes s)
          else .next s
        | none => .next s
      | none, none, none => .next s
    | _, _ => .next s

/-! ## `GATHER_ARRIVAL` (R325 to R328) -/

/-- The version and slice that this rank serves to itself (R327); none while the shard's outcome for the bar before a
look-ahead run is open, or its pages are in a stack of a hand in reset (01 R24). -/
def ownSlice (s : State) (slot : Nat) (j : Job) (r : Run) (g : Gather) : Option (Version × List Byte) :=
  match s.regions.find? fun q => q.slot == some slot && q.index == some g.region with
  | none => none
  | some q =>
    let v := j.shards.getD g.shard {}
    let buf := bufferOf j q r.look false
    let bytes := Mem.readN s.mem (q.base + buf * q.alt + g.offset) g.bytes
    if (pageSpan (q.base + buf * q.alt + g.offset) g.bytes).any (asleep s) then none
    else if r.look then
      match j.cur with
      | some c => match c.outcomes.get g.shard with
        | some _ => some (if v.look != v.cur then ⟨c.bar, c.digests.getD g.shard []⟩ else v.ver, bytes)
        | none => none
      | none => none
    else some (v.ver, bytes)

/-- Messages of 16 KiB, or a shorter last one, on the gather's route (R325). -/
def sliceMessages (slot route owner : Nat) (rt : Route) (r : Run) (g : Gather) (bytes : List Byte) : List Msg :=
  let n := ceilDiv bytes.length 16384
  let t := routeCore rt
  (List.range n).map fun i =>
    let d := padLines ((bytes.drop (i * 16384)).take 16384)
    { slot, bar := r.bar, beat := g.beat, run := r.run, prov := r.look, route := some route, srcRank := owner, srcRow := 0,
      srcCol := 0, dstRow := t.1, dstCol := t.2, seq := i, lines := d.length / 64, data := d }

/-- A slice delivered (R325): on its route, or at `DEST`. -/
def deliverSlice (slot : Nat) (sc : Score) (owner : Nat) (r : Run) (g : Gather) (bytes : List Byte) (s : State) : State :=
  if bytes.isEmpty then s
  else match g.route with
    | some route => match sc.routes[route]? with
      | some rt => { s with net := s.net ++ sliceMessages slot route owner rt r g bytes }
      | none => s
    | none => storeAt g.dest bytes s

/-- `GATHER_ARRIVAL`: a gathered slice reaches the link interface (R325, R327, R328); a check whose first gather has not
completed waits, and one whose version differs aborts the bar with cause 2. -/
def execGatherArrival (slot : Nat) (gather : Nat) (version : Version) (bytes : List Byte) (s : State) :
    Host.Outcome State Fault Refusal :=
  if 128 ≤ slot then .fault .noSuchUnit
  else match getJob s slot, (getSlot s slot).score with
    | some j, some sc => match j.now, sc.gathers[gather]?, (sc.gathers[gather]?).bind fun g => sc.shards[g.shard]? with
      | some r, some g, some e =>
        let waits := g.route.isNone && (pageSpan g.dest g.bytes).any (asleep s)
        if !gatherMine sc j.rank g || !r.gatherSent.contains gather || (r.gathers.get gather).isSome || waits then .next s
        else
          let got : Option (Version × List Byte) := if e.owner = j.rank then ownSlice s slot j r g else some (version, bytes)
          match got with
          | none => .next s
          | some (v, data) =>
            let done (s : State) : State :=
              deliverSlice slot sc e.owner r g (data.take g.bytes)
                (modNow slot (fun r => { r with gathers := r.gathers.put gather v }) s)
            match g.check with
            | none => .next (done s)
            | some c => match r.gathers.get c with
              | none => .next s
              | some w => if w = v then .next (done s) else .next (versionFault slot s)
      | _, _, _ => .next s
    | _, _ => .next s

end Sys2Proof.Machine
end

