-- ==== Sys2Proof/Machine/MemEngines.lean ====
section
/-! DEFINITION. The memory engines: promotion and demotion (10 R308 to R313), zeroing (R297), scrub and reload of the base
(R304 to R306), recovery of poisoned pages (20 R570 to R572) and re-encryption (17 R495 to R498). -/

namespace Sys2Proof.Machine

/-! ## Promotion and demotion -/

/-- `PROMOTION_COMPLETE`: the request served next in its pool is copied, and `REST` and `FRAME` switch (R308); without a
free frame it waits while the pool makes room (R310, R313). `err`: the read of the home copy failed (20 R570). -/
def execPromotionComplete (page : Nat) (err : Bool) (s : State) : Host.Outcome State Fault Refusal :=
  match [0, 1, 2].findSome? fun p => (nextPromotion s p).filter fun q => q.page == page with
  | none => .next s
  | some q =>
    let l := pageGroup s page
    let drop (s : State) : State := { s with promoQ := s.promoQ.filter (· != q) }
    if l.any fun n => (getPage s n).poison || asleep s n then .next s
    else if err then
      .next (poisonPage page (modPage page (fun d => { d with move := 0 }) (drop s)))
    else match freeFramesOf l.length (getPool s q.pool) with
      | none => .next (makeRoom q.pool (countPoolWait q s))
      | some f =>
        if placeAsleep s (pageNo (getPool s q.pool).base + f) then .next s
        else
        let d := getPage s page
        -- a page that rests in the staging pool leaves it for the faster one, and differs from its home as it did
        let s := freeFrame page (drop s)
        let p := getPool s q.pool
        let s := setPool s q.pool { p with used := p.used ++ (List.range l.length).map (f + ·) }
        let more := s.promoQ.any fun x => x.page == q.page
        .next (stepPages l (modPage page (fun _ => { d with
          pool := some q.pool, frame := f, move := bit more, holds := joinHolds d.holds q.holds, lastUse := s.ptp.now }) s))

/-- `DEMOTION_COMPLETE`: a page that leaves its pool has been written to its home where it was dirty, and gives up its
frame (R310); what keeps a page where it rests cancels the move (R311, 09 R267, 13 R381). -/
def execDemotionComplete (page : Nat) (s : State) : Host.Outcome State Fault Refusal :=
  let l := pageGroup s page
  let d := getPage s page
  if d.move != 2 || d.pool.isNone || l.any (asleep s) then .next s
  else if !mayLeave s page then .next (modPage page (fun d => { d with move := 0 }) s)
  else if d.dirty then .next (stepPages l (freeFrame page s))
  else .next (freeFrame page s)

/-! ## Re-encryption (17 R490, R495 to R498) -/

/-- The generations of a key: the current one, and the one that is being replaced. -/
def keyGens (s : State) (k : Option Nat) : Nat × Option Nat :=
  match k with
  | none => (s.devKeyGen, s.devOldGen)
  | some c => ((s.tenants.getD c {}).keyGen, (s.tenants.getD c {}).oldGen)


/-- Pages of a region. -/
def regionPages (r : Region) : Nat := ceilDiv (r.stop - r.base) pageBytes

/-- No page of a key holds an old generation any more: each region is of the new one but for pages tagged with it. -/
def keyMoved (s : State) (k : Option Nat) (g : Nat) : Bool :=
  (s.regions.filter fun r => keyContext s r == k && !r.reserved && r.window.isNone && r.kvRow.isNone).all fun r =>
    let tagged := s.pages.filter fun p => decide (pageNo r.base ≤ p.1) && decide (p.1 < pageNo r.base + regionPages r)
    if r.kgen = g then tagged.all fun p => (p.2.kgen.getD g) == g
    else decide (framesOf s ((tagged.filter fun p => p.2.kgen == some g).map (·.1)) = regionPages r)

/-- The old generation of a key retires once every page has moved (R496). -/
def retireKey (k : Option Nat) (s : State) : State :=
  let g := keyGens s k
  match g.2 with
  | none => s
  | some _ =>
    if !keyMoved s k g.1 then s
    else
      let waits := match k with
        | none => s.devRotWaits
        | some c => (s.tenants.getD c {}).rotWaits
      -- every page of the key is of the new generation now
      let s := { s with regions := s.regions.map fun r => if keyContext s r == k then { r with kgen := g.1 } else r }
      let s := match k with
        | none => { s with devOldGen := none, devRotWaits := [] }
        | some c => modTenant c (fun t => { t with oldGen := none, rotWaits := [] }) s
      waits.foldl (fun s w => complete w cOk 0 [] (logChange w 0xFF 0 (leBytes 2 (k.getD 0xFFFF) ++ leBytes 4 g.1) s)) s

/-- Every key whose rotation may now be over. -/
def retireAll (s : State) : State :=
  (none :: (s.tenants.map fun p => some p.1)).foldl (fun s k => retireKey k s) s

/-! ## Zeroing (R297) -/

/-- Sessions and contexts whose pages are now all zeroed close (13 R381, 12 R370). -/
def closeZeroed (s : State) : State :=
  let busy (s : State) (a n : Nat) : Bool := s.zeroing.any fun z =>
    decide (pageAddr z.1 < a + n) && decide (a < pageAddr z.1 + z.2 * pageBytes)
  let s := (s.sess.filter fun p => p.2.state == .closing && !p.2.pages.any fun a => busy s a p.2.pageBytes).foldl
    (fun s p =>
      let s := { s with sess := s.sess.del p.1 }
      match p.2.closeWait with
      | some w => complete w cOk 0 [] (logChange w 0xFF 0 (leBytes 4 p.1) s)
      | none => s) s
  (s.tenants.filter fun p => p.2.state == .closing && !p.2.closeRanges.any fun r => busy s r.1 r.2).foldl (fun s p =>
    let s := { s with tenants := s.tenants.put p.1 {} }
    p.2.closeWaits.foldl (fun s w => complete w cOk 0 [] (logChange w 0xFF 0 (leBytes 2 p.1) s)) s) s

/-- Starts and admissions that waited for zeroed pages go on (R296). -/
def resumeStarts (s : State) : State :=
  (s.slots.map (·.1)).foldl (fun s i => finishAdmission i (finishStart i s)) s

/-- `PAGE_ZEROING_DONE`: a page of a released region holds zeros, loses its poison, and is free for another region (R297,
20 R572). -/
def execPageZeroingDone (page : Nat) (s : State) : Host.Outcome State Fault Refusal :=
  if !isZeroing s page || asleep s page then .next s
  else
    let times := (getPage s page).poisonTimes
    let s := { s with mem := Mem.clear s.mem (pageAddr page) pageBytes, zeroing := zeroedPage page s.zeroing,
                      pages := if times.isEmpty then s.pages.del page else s.pages.put page { poisonTimes := times } }
    .next (retireAll (resumeStarts (closeZeroed (stepPages [page] s))))

/-! ## The base (R304 to R306) -/

/-- The bytes of a base mapping. -/
def mappingData (s : State) (a : Nat) : List Byte := Mem.readN s.mem a mappingBytes

/-- The mapping whose turn it is in the scrub's pass: the next one that is not being reloaded or without a source. -/
def scrubTurn (b : Base) : Option Nat :=
  (List.range b.man.mappings).find? fun m => decide (b.scrubAt ≤ m) && !b.reloading.contains m && !b.failed.contains m

/-- A full pass of the scrub in nanoseconds (R304). -/
def scrubInterval (s : State) : Nat := orDefault s.setup.settings.scrubH 12 * 3600 * 1000000000

/-- A mapping has been read in its turn: the pass goes on, or the next pass begins an interval after this one. -/
def scrubbed (s : State) (m : Nat) (b : Base) : Base :=
  if ((List.range b.man.mappings).any fun i => decide (m < i) && !b.reloading.contains i && !b.failed.contains i) then
    { b with scrubAt := m + 1 }
  else { b with scrubAt := 0, scrubSince := b.scrubSince + scrubInterval s }

/-- `BASE_SCRUB_READ`: the scrub reads the base mapping whose turn it is, once its share of the pass's interval has
passed, and compares its digest with the manifest (R304); a difference or an unreadable line poisons it, and it reloads
(R305). -/
def execBaseScrubRead (mapping : Nat) (err : Bool) (s : State) : Host.Outcome State Fault Refusal :=
  match s.base with
  | none => .next s
  | some b => match mappingAddr b.man.extents mapping with
    | none => .next s
    | some a =>
      if scrubTurn b != some mapping || asleep s (pageNo a) ||
          decide (s.ptp.now < b.scrubSince + mapping * scrubInterval s / b.man.mappings) then .next s
      else
        let d := digest64 (mappingData s a)
        let b := scrubbed s mapping b
        if err then .next (poisonPage (pageNo a) { s with base := some b })
        else
          let s := { s with base := some { b with scrub := b.scrub.put mapping d } }
          if d = b.man.mapDigests.getD mapping [] then .next s
          else .next (logInternal 5 0 0xFF 0 0 (leBytes 8 a) (poisonPage (pageNo a) s))

/-- A device of a running job on the same base manifest can be asked (R305). -/
def basePeer (s : State) (b : Base) : Bool := s.slots.any fun p => match p.2.score, p.2.job with
  | some sc, some _ => p.2.state == .running && sc.replicas != 1 && sc.baseDigest == b.man.digest
  | _, _ => false

/-- What the sources of a reload give, in the order of R305: the LPDDR golden copy, the flash golden copy, a peer of a
running job; `unread` are the sources whose read fails, `peer` what the peer answers. -/
def reloadSources (s : State) (b : Base) (mapping : Nat) (unread : List Nat) (peer : Option (List Byte)) :
    List (Nat × List Byte) :=
  ([(1, b.lpGolden.map fun g => mappingData s (g + mapping * mappingBytes)), (2, b.golden[mapping]?),
    (3, if basePeer s b then peer else none)].filter fun c => !unread.contains c.1).filterMap fun c => c.2.map fun d => (c.1, d)

/-- The first source that yields the manifest digest of a mapping (R305). -/
def reloadSource (s : State) (b : Base) (mapping : Nat) (unread : List Nat) (peer : Option (List Byte)) :
    Option (Nat × List Byte) :=
  (reloadSources s b mapping unread peer).find? fun c =>
    decide (c.2.length = mappingBytes) && digest64 c.2 == b.man.mapDigests.getD mapping []

/-- `BASE_RELOAD_DONE`: the reload of a mapping ends with the first source that yields its digest, or with none (R305,
R306). -/
def execBaseReloadDone (mapping : Nat) (unread : List Nat) (peer : Option (List Byte)) (s : State) :
    Host.Outcome State Fault Refusal :=
  match s.base with
  | none => .next s
  | some b => match mappingAddr b.man.extents mapping with
    | none => .next s
    | some a =>
      let still (poison : Bool) (s : State) : State :=
        modPage (pageNo a) (fun d => { d with poison := poison, move := 0 }) s
      if !b.reloading.contains mapping || asleep s (pageNo a) then .next s
      else match reloadSource s b mapping unread peer with
        | none =>
          let s := still true { s with base := some { b with reloading := b.reloading.filter (· != mapping),
                                                             failed := b.failed ++ [mapping] } }
          .next (notice 0x81 0 0 0 (leBytes 8 a ++ leBytes 1 2) s)
        | some (k, data) =>
          let s := still false { s with
            base := some { b with reloading := b.reloading.filter (· != mapping),
                                  scrub := b.scrub.put mapping (digest64 data) } }
          let s := storeBoth a data s
          let s := notice 0x40 0 0 0 (leBytes 8 a ++ leBytes 1 k) s
          let s := notice 0x81 0 0 0 (leBytes 8 a ++ leBytes 1 1) s
          .next (logInternal 3 0 0xFF 0 0 (leBytes 8 a ++ leBytes 1 k) s)

/-! ## Recovery (20 R570 to R572) -/

/-- The shard whose current buffer a page belongs to: its slot and number. -/
def shardOfPage (s : State) (n : Nat) : Option (Nat × Nat) :=
  match pageRegion s n with
  | none => none
  | some r => match r.slot, r.shard with
    | some slot, some sh => match getJob s slot with
      | some j =>
        let a := r.base + bufferOf j r false false * r.alt
        if r.kind == 2 && a ≤ pageAddr n && pageAddr n < a + r.size then some (slot, sh) else none
      | none => none
    | _, _ => none

/-- `PAGE_RECOVERY_DONE`: a poisoned page of a committed shard buffer is refilled from its other holder's copy, checked
against the version table; `found` is that copy. A clean promoted copy is discarded instead. Without a holder the
partition faults with `DATA_LOST` (R570, R571). -/
def execPageRecoveryDone (page : Nat) (found : Option (List Byte)) (s : State) : Host.Outcome State Fault Refusal :=
  let d := getPage s page
  if !d.poison || asleep s page then .next s
  else if d.pool.isSome && !d.dirty then
    .next (modPage page (fun d => { d with poison := false }) (freeFrame page s))
  else match shardOfPage s page with
    | none => .next s
    | some (slot, sh) => match getJob s slot, (getSlot s slot).score with
      | some j, some sc =>
        let lost (s : State) : State :=
          slotFault slot cDataLost (notice 0x81 0 0 0 (leBytes 8 (pageAddr page) ++ leBytes 1 2) s)
        match found with
        | none => .next (lost s)
        | some bytes =>
          if copyDigest bytes != (j.shards.getD sh {}).ver.digest then .next (lost s)
          else
            let m := layShard s slot sc sh (shardCur j sh) bytes
            let a := pageAddr (pageUnit s page)
            let s := storeAt a (Mem.readN m a ((pageGroup s page).length * pageBytes)) s
            let s := modPage page (fun d => { d with poison := false }) s
            .next (notice 0x81 0 0 0 (leBytes 8 (pageAddr page) ++ leBytes 1 0) s)
      | _, _ => .next s

/-! ## `REENCRYPT_PAGE` -/

/-- A core's transfer that moves now reads or writes a page (R495). -/
def accessInFlight (s : State) (n : Nat) : Bool := s.slots.any fun p => match p.2.score with
  | none => false
  | some sc => (List.range (sc.rows * sc.cols)).any fun k => match envAt s p.1 (k / sc.cols) (k % sc.cols) with
    | none => false
    | some e => (List.range e.ctx.dmas.length).any fun ix => dmaStarted e.ctx.dmas ix && match e.ctx.dmas[ix]? with
      | none => false
      | some it =>
        let pages := dmaPages s e e.run it
        !dmaHeld s it (it.look && e.run.look) pages && pages.any fun q => q.1 == n

/-- `REENCRYPT_PAGE`: the background engine rewrites a page under the new generation and switches its `KGEN`; a page in
motion (R311) or under an access waits, one that cannot be read is zeroed and poisoned (R495, R498). -/
def execReencryptPage (page : Nat) (err : Bool) (s : State) : Host.Outcome State Fault Refusal :=
  match pageRegion s page with
  | none => .next s
  | some r =>
    let k := keyContext s r
    let g := keyGens s k
    let d := getPage s page
    match g.2 with
    | none => .next s
    | some old =>
      let l := pageGroup s page
      if pageGen s r page != old || d.move == 1 || d.move == 2 || asleep s page || l.any (accessInFlight s) then .next s
      else
        let s := if err && !d.poison then poisonPage page s else s
        let s := if (getPage s page).poison then { s with mem := Mem.clear s.mem (pageAddr (pageUnit s page)) (l.length * pageBytes) }
          else s
        .next (retireKey k (stepPages l (modPage page (fun d => { d with kgen := some g.1 }) s)))

end Sys2Proof.Machine
end

