-- ==== Sys2Proof/Machine/Ports.lean ====
section
/-! DEFINITION. The Grerdo ports (14 R399 to R412, R416 to R421; 17 R491): training, frames received, control frames, hop
rewinds, ports that go down, and the delivery of link keys. -/

namespace Sys2Proof.Machine

/-! ## Ports -/

/-- What the setup image says of a port (18 R524). -/
def topoOf (s : State) (p : Nat) : TopoEnt := s.setup.topology.getD p {}

/-- A record joins the control frames of every port that is up (R408, R420). -/
def floodRec (r : PortRec) (s : State) : State :=
  { s with ports := s.ports.map fun p => if p.2.isUp then (p.1, { p.2 with ctlOwed := p.2.ctlOwed ++ [r] }) else p }

/-- Mean time of a frame's acknowledgement enters the port's round-trip monitor (19 R550 kind 4). -/
def sampleTrips (port : Nat) (l : List GlFrame) (s : State) : State :=
  l.foldl (fun s f => monSample (port / 9) (184 + port % 9) (s.ptp.now - f.sent) s) s

/-- Frames of a port that went down move, in class and `LSEQ` order, to the front of each flow's new port: behind what
that port has already sent, whose `LSEQ` values stand (R410). -/
def moveFrames (l : List GlFrame) (s : State) : State :=
  let target (f : GlFrame) : Option Nat := flowPort s f.dstDev f.job f.src f.route
  let lost := l.filter fun f => (target f).isNone
  let s1 := { s with ports := s.ports.map fun p =>
    let mine := l.filter fun f => target f == some p.1
    if mine.isEmpty then p
    else
      let classes := [0, 1, 2, 3, 4, 5, 6].foldl (fun (t : Table GlClass) c =>
        let k := t.getD c {}
        let add := mine.filter fun f => f.cls == c
        if add.isEmpty then t
        else t.put c { k with frames := k.frames.take k.sent ++ add ++ k.frames.drop k.sent }) p.2.classes
      let q := { p.2 with classes := classes }
      (p.1, portPump s.ptp.now (q.load + 1) q) }
  lost.foldl (fun s f =>
    modPort ((hopsTo s f.dstDev).headD 0)
      (fun q => { q with discards := q.discards + 1 }) s) s1

/-! ## Members lost (R421) -/

/-- A port of another device is down, as records and this device's own ports say. -/
def peerPortDown (s : State) (dev port : Nat) : Bool :=
  s.peerPorts.any (fun r => r.dev == dev && r.port == port && !r.up) ||
    (List.range 18).any fun p => let t := topoOf s p
      !t.unused && t.peerDev == dev && t.peerPort == port && !(getPort s p).isUp

/-- The ports of another device that this device knows of: those its own topology leads to, and those of which a record
came. -/
def peerPortsKnown (s : State) (dev : Nat) : List Nat :=
  ((List.range 18).filterMap fun p => let t := topoOf s p
    if !t.unused && t.peerDev == dev then some t.peerPort else none) ++
  (s.peerPorts.filter fun r => r.dev == dev).map (·.port)

/-- Every known port of a device is down (R421). -/
def deviceDown (s : State) (dev : Nat) : Bool := (peerPortsKnown s dev).all (peerPortDown s dev)

/-- A rank of a job is lost (R421): it is marked, `PEER_LOST` is raised, the job awaits a spare, and a query, an admission
or a permutation that needs it ends (R285, R338, R343). -/
def markLost (slot rank dev : Nat) (s : State) : State :=
  match getJob s slot with
  | none => s
  | some j =>
    let held (i : Nat) : Bool := ((getSlot s slot).score.bind (·.shards[i]?)).map (·.owner) != some rank
    let s := modJob slot (fun j => { j with lost := j.lost ++ [rank], keeperDue := j.keeperDue.filter held }) s
    let s := notice 0x22 1 slot 0 (leBytes 2 rank ++ leBytes 2 dev) s
    let s := match j.admission with
      | some a => if a.rank = rank then failAdmission slot s else s
      | none => s
    let s := match j.reshard with
      | some x => if x.moving then failReshard slot cStateConflict s else s
      | none => s
    let s := modSlot slot (fun sl => { sl with state := if sl.state = .running then .awaiting else sl.state }) s
    wakeJob slot (endQuery slot s)

/-- The jobs of a device whose ports are now all down lose its ranks (R421). -/
def checkLost (dev : Nat) (s : State) : State :=
  if dev = s.setup.deviceId || !deviceDown s dev then s
  else s.slots.foldl (fun s p => match p.2.job with
    | none => s
    | some j => (j.members.filter fun m => m.1 != j.rank && m.2.1 == dev && !j.lost.contains m.1).foldl
        (fun s m => markLost p.1 m.1 dev s) s) s

/-! ## `GL_PORT_TRAINING` (R399, R401) -/

/-- The state of a port that trained these lanes (R399, R422). -/
def trainedState (lanes : Nat) : Nat :=
  if lanes % 16 = 15 then 2 else if lanes % 16 = 3 then 3 else if lanes % 16 = 12 then 4 else 0

/-- A port comes up with fresh credits, buffers and sequence (R410, R411), and a record of it goes out (R420). -/
def portUp (port lanes peerDev peerPort : Nat) (s : State) : State :=
  let s := modPort port (fun p => { p with
    state := trainedState lanes, lanes, peerDev, peerPort, classes := [], rxSeq := [],
    dataCredits := 3072, collCredits := 1024, rxData := 0, rxColl := 0, gen := (p.gen + 1) % 65536, ctlOwed := [] }) s
  floodRec ⟨s.setup.deviceId, port, true, (getPort s port).gen⟩ s

/-- What a port comes to when a training ends with these lanes and this peer (R399, R401). -/
def trainPort (port lanes peerDev peerPort : Nat) (s : State) : State :=
  let t := topoOf s port
  if trainedState lanes = 0 then modPort port (fun p => { p with state := 0, lanes := lanes % 16 }) s
  else if peerDev != t.peerDev || peerPort != t.peerPort then
    let s := modPort port (fun p => { p with state := 0, lanes := lanes % 16, peerDev, peerPort }) s
    notice 0x20 3 port 0 (leBytes 2 port ++ leBytes 2 peerDev ++ leBytes 2 peerPort) s
  else portUp port lanes peerDev peerPort s

/-- `GL_PORT_TRAINING`: a training of a port ends with lanes trained and the peer found (R399, R401). -/
def execGlPortTraining (port lanes peerDev peerPort : Nat) (s : State) : Host.Outcome State Fault Refusal :=
  if 18 ≤ port then .fault .noSuchUnit
  else
    let p := getPort s port
    if (topoOf s port).unused || p.unused || 2 ≤ p.state || !s.dev.refGl || s.dev.stopped || s.dev.starting ||
        (getHand s (port / 9)).mode != .running then .next s
    else .next (trainPort port lanes peerDev peerPort s)

/-- A port that is not up and not unused begins to train: after a reference clock is back, or with its hand's PHYs (R399, R422
`STATE` 1; 18 R530, 20 R575). DESIGN CHOICE: the 1 s interval after a failed training has no row, and the port shows down until
the next training ends. -/
def beginTraining (port : Nat) (s : State) : State :=
  let p := getPort s port
  if (topoOf s port).unused || p.unused || p.isUp || !s.dev.refGl || (getHand s (port / 9)).mode != .running then s
  else modPort port (fun p => { p with state := 1 }) s

/-! ## `GL_PORT_DOWN` (R410, R420) -/

/-- A port goes down: count, notice, record, and its unacknowledged frames move. -/
def portDown (port : Nat) (s : State) : State :=
  let p := getPort s port
  let moved := [0, 1, 2, 3, 4, 5, 6].flatMap fun c => (p.classes.getD c {}).frames
  let s := modPort port (fun p => { p with
    state := 0, lanes := 0, downs := satAt 0xFF (p.downs + 1), gen := (p.gen + 1) % 65536, classes := [], rxSeq := [],
    dataCredits := 0, collCredits := 0, rxData := 0, rxColl := 0, ctlOwed := [] }) s
  let s := notice 0x21 3 port 0 (leBytes 2 port) s
  let s := floodRec ⟨s.setup.deviceId, port, false, (getPort s port).gen⟩ s
  checkLost p.peerDev (moveFrames moved s)

/-- `GL_PORT_DOWN`: the receiver of a port has lost alignment or hears nothing (R420). -/
def execGlPortDown (port : Nat) (s : State) : Host.Outcome State Fault Refusal :=
  if 18 ≤ port then .fault .noSuchUnit
  else if (getPort s port).isUp then .next (portDown port s) else .next s

/-! ## `GL_FRAME_RECEIVE` (R400, R404, R409) -/

/-- A frame for this device, in the order of R409: no such job, a reserved value, then what its epoch, tag and run say. -/
def frameHere (port : Nat) (f : GlFrame) (s : State) : State :=
  let count (s : State) : State := returnFrames [(port, f)] (modPort port (fun p => { p with discards := p.discards + 1 }) s)
  match slotOfJob s f.job with
  | none => count s
  | some slot => match getJob s slot with
    | none => count s
    | some j =>
      if !f.resvOk || 2 < f.ftype || 4096 < f.payload.length then count s
      else if f.ftype != 1 then deliverFrame slot port f s
      else if j.epoch < f.epoch then { s with linkWait := s.linkWait ++ [(port, f)] }
      else takeHeldColl slot { s with linkWait := s.linkWait ++ [(port, f)] }

/-- `GL_FRAME_RECEIVE`: a job frame reaches a port: discarded for an error or its hop sequence, forwarded as it is, or
taken (R400, R404, R405, R409). -/
def execGlFrameReceive (port : Nat) (f : GlFrame) (s : State) : Host.Outcome State Fault Refusal :=
  if 18 ≤ port then .fault .noSuchUnit
  else
    let p := getPort s port
    if !p.isUp then .next s
    else
      let s := modPort port (fun p => { p with corrected := p.corrected + f.corrected }) s
      let s := modPort port (fun p => { p with uncorr := satAt 0x3FFF (p.uncorr + f.uncorr) }) s
      if !f.crcOk || f.uncorr != 0 then .next s
      else if 6 < f.cls || f.lseq != p.rxSeq.getD f.cls 0 then .next s
      else
        let f := { f with corrected := 0, sent := 0, opened := false }
        let s := modPort port (fun p => { p with rxSeq := p.rxSeq.put f.cls ((f.lseq + 1) % 2 ^ 24) }) s
        if f.dstDev = s.setup.deviceId then .next (frameHere port f s)
        else .next (returnUnits (f.cls == 6) [(port, frameUnits f)] (linkEnqueue f s))

/-! ## Control frames (R408, R410, R411) -/

/-- An acknowledgement of a class releases every frame that was sent up to the named `LSEQ`, resent since a rewind or not
(R410). -/
def ackClass (port c l : Nat) (s : State) : State :=
  let k := (getPort s port).classes.getD c {}
  let n := (l + 2 ^ 24 + 1 - k.lseq) % 2 ^ 24
  if n = 0 || k.sent < n then s
  else
    let s := sampleTrips port (k.frames.take n) s
    modPort port (fun p => { p with classes := p.classes.put c { k with
      frames := k.frames.drop n, read := k.read - n, sent := k.sent - n, lseq := (k.lseq + n) % 2 ^ 24, tries := 0 } }) s

/-- A generation of a port that is not newer than another, modulo 2^16 (R420): DESIGN CHOICE, newer is less than half the
range ahead. -/
def oldGen (r q : PortRec) : Bool := decide ((q.gen + 65536 - r.gen % 65536) % 65536 < 32768)

/-- A port-state record: a newer generation is kept and sent on once, repeats and older ones are dropped (R420), and a device
may be lost by it (R421). -/
def takeRec (r : PortRec) (s : State) : State :=
  if r.dev = s.setup.deviceId || s.peerPorts.any (fun q => q.dev == r.dev && q.port == r.port && oldGen r q) then s
  else
    let s := { s with peerPorts := s.peerPorts.filter (fun q => !(q.dev == r.dev && q.port == r.port)) ++ [r] }
    checkLost r.dev (floodRec r s)

/-- `GL_CONTROL_FRAME`: acknowledgements, credits and port-state records of the peer (R408); one with an uncorrectable codeword or
a failing CRC is discarded (R400). -/
def execGlControlFrame (port : Nat) (f : GlCtl) (s : State) : Host.Outcome State Fault Refusal :=
  if 18 ≤ port then .fault .noSuchUnit
  else if !(getPort s port).isUp then .next s
  else
    let s := modPort port (fun p => { p with
      corrected := p.corrected + f.corrected, uncorr := satAt 0x3FFF (p.uncorr + f.uncorr) }) s
    if !f.crcOk || f.uncorr != 0 then .next s else
    let s := (List.range 7).foldl (fun s c => match f.acks.getD c none with
      | some l => ackClass port c l s
      | none => s) s
    let s := modPort port (fun p =>
      let p := { p with dataCredits := satAt 3072 (p.dataCredits + f.dataCredits),
                        collCredits := satAt 1024 (p.collCredits + f.collCredits) }
      portPump s.ptp.now (p.load + 1) p) s
    .next ((f.recs.take 2).foldl (fun s r => takeRec r s) s)

/-- `GL_CONTROL_SEND_TIMER`: a control frame leaves with the acknowledgements, the credits to return and up to two
records (R408). -/
def execGlControlSendTimer (port : Nat) (s : State) : Host.Outcome State Fault Refusal :=
  if 18 ≤ port then .fault .noSuchUnit
  else if !(getPort s port).isUp then .next s
  else .next (modPort port (fun p => { p with
    rxData := 0, rxColl := 0, ctlOwed := p.ctlOwed.drop 2, ctlSent := p.ctlSent + 1 }) s)

/-! ## `GL_CLASS_REWIND` (R410, R420) -/

/-- `GL_CLASS_REWIND`: a class whose oldest frame went unacknowledged resends from it, its port going down at the fourth
time in a row (R410, R420). -/
def execGlClassRewind (port cls : Nat) (s : State) : Host.Outcome State Fault Refusal :=
  if 18 ≤ port || 7 ≤ cls then .fault .noSuchUnit
  else
    let p := getPort s port
    let k := p.classes.getD cls {}
    if !p.isUp || k.read = 0 then .next s
    else
      let units := sumNat ((k.frames.take k.read).map frameUnits)
      let s := modPort port (fun p => { p with
        rewinds := satAt 0xFFFF (p.rewinds + 1),
        dataCredits := if cls = 6 then p.dataCredits else p.dataCredits + units,
        collCredits := if cls = 6 then p.collCredits + units else p.collCredits,
        classes := p.classes.put cls { k with read := 0, tries := k.tries + 1 } }) s
      if 4 ≤ k.tries + 1 then .next (portDown port s)
      else .next (modPort port (fun p => portPump s.ptp.now (p.load + 1) p) s)

end Sys2Proof.Machine
end

