-- ==== Sys2Proof/Machine/HostPort.lean ====
section
/-! DEFINITION. The host port (15 R423 to R460): the Ethernet link, association, sessions, sequenced frames, acknowledgement
and retransmission, notices packets, and the timebase. Command frames enter the inbound queue here; what the command
processor reads from it is in the files after this one. -/

namespace Sys2Proof.Machine

/-! ## The Ethernet link (R423 to R426) -/

/-- The host port sends and receives. -/
def ethUp (s : State) : Bool := s.ethState == 2 || s.ethState == 3

/-- What a negotiation of the host port comes to: lanes 0–1 and lanes 2–3 trained or not; the setup image may restrict the
mode (R424, 18 R525). -/
def ethTrained (s : State) (l01 l23 : Bool) : Nat :=
  let m := s.setup.settings.ethMode
  if l01 && l23 && m != 2 then 2 else if l01 && m != 1 then 3 else 0

/-- `ETH_LINK_TRAINING`: the host port negotiates (R424); not before phase 4 of a start (18 R536). -/
def execEthLinkTraining (l01 l23 : Bool) (s : State) : Host.Outcome State Fault Refusal :=
  if ethUp s || s.dev.stopped || s.dev.starting || !s.dev.refEth then .next s
  else .next { s with ethState := ethTrained s l01 l23 }

/-- `ETH_LINK_DOWN`: the link is lost; Mbaing state survives (R424). -/
def execEthLinkDown (s : State) : Host.Outcome State Fault Refusal := .next { s with ethState := 0 }

/-- A received frame is discarded and counted (R432). -/
def ethDiscard (s : State) : State := { s with ethDiscards := satAt 0xFFF (s.ethDiscards + 1) }

/-- `NON_MBAING_FRAME`: PAUSE frames, foreign VLANs and all that is neither Mbaing nor PTP (R425 to R427). -/
def execNonMbaingFrame (s : State) : Host.Outcome State Fault Refusal :=
  if ethUp s then .next (ethDiscard s) else .next s

/-- An unsequenced frame or an address answer waits to leave: its type (0 for an address answer) and payload. -/
def sendPlain (ftype : Nat) (bs : List Byte) (s : State) : State := { s with replies := s.replies ++ [(ftype, bs)] }

/-- `ARP_REQUEST`: an ARP request or neighbour solicitation is answered for the device's own address; any other, and every
one under raw encapsulation, is discarded (R426). -/
def execArpRequest (ip : Nat) (s : State) : Host.Outcome State Fault Refusal :=
  if !ethUp s then .next s
  else if s.setup.settings.encap != 0 && ip == s.setup.settings.ip then
    .next (sendPlain 0 (leBytes 16 ip ++ leBytes 6 (if s.setup.settings.macSet then s.setup.settings.mac else s.dev.fusedMac)) s)
  else .next (ethDiscard s)

/-! ## Sessions (R433 to R437) -/

/-- Items of a class that go, with the positions that counted them. -/
def PealClass.without (f : PealItem → Bool) (c : PealClass) : PealClass :=
  let gone (n : Nat) : Nat := ((c.items.take n).filter f).length
  { c with items := c.items.filter (fun i => !f i), mark := c.mark - gone c.mark, read := c.read - gone c.read,
           sent := c.sent - gone c.sent }

/-- The records of an outbound packet that are kept for a closed session: those of completions and notices (R437). -/
def keptRecs (c : Nat) (i : PealItem) : List (Nat × Nat × Nat × List Byte) :=
  if i.ftype = 4 || i.ftype = 5 then i.keep.map fun r => (c, i.ftype, i.ref, r) else []

/-- A session closes (R437): its keys are zeroized, its record freed and its outbound packets discarded; completion
records and notices are kept for its principal. -/
def closeSession (i : Nat) (s : State) : State :=
  match s.sessions.get i with
  | none => s
  | some x =>
    let mine (p : PealItem) : Bool := p.sess == i
    let recs := ((List.range 8).flatMap fun c => ((s.outq.cls c).items.filter mine).flatMap (keptRecs c)) ++
      (s.outStall.filter fun p => mine p.2).flatMap fun p => keptRecs p.1 p.2
    let before := s.outq.fill
    let q := { s.outq with classes := s.outq.classes.map fun p => (p.1, p.2.without mine) }
    let s := { s with outq := q, outStall := s.outStall.filter (fun p => !mine p.2), sessions := s.sessions.del i,
                      linger := if recs.isEmpty then s.linger else
                        s.linger ++ [{ prin := some x.prin, recs := recs, expires := s.ptp.now + lingerNs s }] }
    let s := watchOut before s
    let s := if x.phase = 2 then logAdd { index := 0, time := 0, kind := 7, origin := 0, prin := prinTag x.prin, prev := [],
                                          detail := leBytes 2 i ++ leBytes 1 0 } s else s
    outDrain s.outStall.length s

/-- Records kept for a principal are encrypted again for its new session (R437). -/
def deliverLinger (i : Nat) (s : State) : State :=
  match s.sessions.get i with
  | none => s
  | some x =>
    let mine (l : Linger) : Bool := !l.told.contains x.prin && match l.prin with
      | some p => p == x.prin
      | none => x.control || match l.context with
        | some c => x.contexts.contains c
        | none => false
    let due := s.linger.filter mine
    let tell (l : Linger) : Linger := if mine l then { l with told := l.told ++ [x.prin] } else l
    let s := { s with linger := (s.linger.filter fun l => !(mine l && l.prin.isSome)).map tell }
    due.foldl (fun s l => l.recs.foldl (fun s r =>
      if r.2.1 = 4 && r.2.2.1 != 0 then
        outAppend r.1 { sess := i, ftype := 4, ref := r.2.2.1, payload := r.2.2.2, keep := [r.2.2.2] } s
      else outRecord r.1 i r.2.1 r.2.2.1 r.2.2.2
        (if r.2.1 = 4 && bitOf ((r.2.2.2.getD 5 0).toNat) 2 then [leNat (r.2.2.2.take 4)] else []) s) s) s

/-- A frame comes in the setup image's encapsulation and is untagged or carries its VLAN ID (R426, R427). -/
def encapOk (s : State) (f : MbFrame) : Bool :=
  let c := s.setup.settings
  f.encap == c.encap && (c.encap == 0 || (f.udpPort == c.udpPort && f.sumOk)) &&
    match f.vid with
    | none => true
    | some v => c.vlanOn && v == c.vlan

/-- The checks that every frame but `ASSOC` meets (R428, R431, R432): reserved values, length, encapsulation, source and
association. -/
def frameBasic (s : State) (f : MbFrame) : Bool :=
  f.resvOk && encapOk s f && decide (f.cls < 8) && decide (f.session < 4096) && decide (f.len ≤ maxPayload s) &&
    f.len == f.payload.length && s.assocNum == some (f.srcAddr, f.assoc)

/-- The controlling host has an open session. -/
def controlSession (s : State) : Option (Nat × Session) := s.sessions.find? fun p => p.2.phase == 2 && p.2.control

/-- The status with which an `OPEN` of a principal ends (R434, R435; 17 R517). -/
def openStatus (s : State) (key : List Byte) (contexts : List Nat) : Nat :=
  let control := s.setup.hostKeys.contains key
  let listed (c : Nat) : Bool := let t := s.tenants.getD c {}
    t.state == .opened && t.keys.contains key
  let full (c : Nat) : Bool := decide ((s.tenants.getD c {}).quotas.prin ≤
    (s.sessions.filter fun p => p.2.contexts.contains c && !p.2.control).length)
  if s.dev.state == .sealed && !control then cDenied
  else if (controlSession s).isNone && !control then cStateConflict
  else if !contexts.all (fun c => if control then c == 0 || listed c else listed c) then cDenied
  else if !control && contexts.any full then cQuotaExceeded
  else if (s.sessions.lowestFree 4096).isNone then cTableFull else cOk

/-- The inbound credit of a session in bytes (R440, 18 R525). -/
def creditBytes (s : State) : Nat := orDefault s.setup.settings.creditKib 256 * 1024

/-- `OPEN`, step 1 (R434, R435): answered with step 2; a repeated step with the first answer. -/
def execOpenStep1 (f : MbFrame) (key xkey nonce : List Byte) (contexts : List Nat) (window : Nat) (s : State) :
    Host.Outcome State Fault Refusal :=
  if !ethUp s then .next s
  else if !frameBasic s f || f.ftype != 2 || !f.hs || f.session != 0 || f.cls != 7 || key.length != 57 ||
      xkey.length != 56 || nonce.length != 32 || contexts.isEmpty || decide (16 < contexts.length) ||
      contexts.any (4096 ≤ ·) || decide (2 ^ 40 < window) then .next (ethDiscard s)
  else match s.sessions.find? fun p => p.2.transcript == f.payload with
    | some p => .next (sendPlain 2 p.2.reply s)
    | none =>
      let st := openStatus s key contexts
      let i := (s.sessions.lowestFree 4096).getD 0
      let r := nextFree s
      let reply := leBytes 2 i ++ leBytes 1 st ++ Config.freeBytes r.1 56 ++ leBytes 4 (creditBytes s) ++
        Config.freeBytes r.1 114
      if st != cOk then .next (sendPlain 2 (leBytes 2 0 ++ leBytes 1 st) s)
      else
        let x : Session := { phase := 1, prin := key, contexts, window, credit := creditBytes s, xkey, reply,
                             transcript := f.payload, control := s.setup.hostKeys.contains key, last := s.ptp.now }
        .next (sendPlain 2 reply { r.2 with sessions := r.2.sessions.put i x })

/-- `OPEN`, step 3 (R435, R436): the session opens under its keys, or its index is free again. -/
def execOpenStep3 (f : MbFrame) (sigOk : Bool) (s : State) : Host.Outcome State Fault Refusal :=
  if !ethUp s then .next s
  else match s.sessions.get f.session with
    | none => .next (ethDiscard s)
    | some x =>
      if !frameBasic s f || f.ftype != 2 || !f.hs || f.cls != 7 then .next (ethDiscard s)
      else if x.phase != 1 then .next s
      else if !sigOk then
        .next { s with sessions := s.sessions.del f.session, ethAuthFail := satAt 0xFFFF (s.ethAuthFail + 1) }
      else
        let r := nextFree s
        let t := digest64 (x.transcript ++ x.reply ++ f.payload)
        let keys := shake256 64 (Config.freeBytes r.1 56 ++ t ++ "MBAING-KEYS".toList.map fun c => BitVec.ofNat 8 c.toNat)
        let y := { x with phase := 2, keys := keys, xkey := [], last := r.2.ptp.now }
        let s := { r.2 with sessions := r.2.sessions.put f.session y }
        let s := logAdd { index := 0, time := 0, kind := 7, origin := 0, prin := prinTag x.prin, prev := [],
                          detail := leBytes 2 f.session ++ leBytes 1 1 } s
        .next (deliverLinger f.session s)

/-! ## Sequenced frames (R432, R439, R440) -/

/-- An acknowledgement leaves under the controlling session's keys (R439). -/
def sendAck (s : State) : State :=
  match controlSession s with
  | none => s
  | some p => sendPlain 8 ((List.range 8).flatMap fun c => leBytes 4 (s.inSeq.getD c 0))
      { s with ackOwed := 0, ackDup := false,
               sessions := s.sessions.put p.1 { p.2 with ctrOut := p.2.ctrOut + 1 } }

/-- What becomes of a sequenced frame: discarded, or accepted in a session (R432, R440). -/
def acceptSeq (ftype : Nat) (f : MbFrame) (s : State) : State × Option Session :=
  if !frameBasic s f || f.ftype != ftype || f.hs then (ethDiscard s, none)
  else match s.sessions.get f.session with
    | none => (ethDiscard s, none)
    | some x =>
      let size := 48 + f.payload.length
      let ahead := (f.seq + 2 ^ 32 - s.inSeq.getD f.cls 0) % 2 ^ 32
      if x.phase != 2 then (ethDiscard s, none)
      else if !f.gcmOk then (ethDiscard { s with ethAuthFail := satAt 0xFFFF (s.ethAuthFail + 1) }, none)
      else if 2 ^ 31 ≤ ahead then (ethDiscard { s with ackDup := true }, none)
      else if ahead != 0 || !s.inq.hasSpace inCap f.cls size || decide (x.credit < x.used + size) then
        (ethDiscard s, none)
      else
        let s := { s with inSeq := s.inSeq.put f.cls ((f.seq + 1) % 2 ^ 32), ackOwed := s.ackOwed + 1,
                          sessions := s.sessions.put f.session { x with last := s.ptp.now, ctrIn := x.ctrIn + 1 } }
        (if 32 ≤ s.ackOwed then sendAck s else s, some x)

/-- The opcode that the first frame of a command carries (16 R461). -/
def opcodeOf (s : State) (cls sess ref : Nat) : Nat :=
  match (s.inq.cls cls).items.find? fun i => i.sess == sess && i.ref == ref && i.first with
  | some i => leNat (i.payload.take 2)
  | none => 0

/-- A command that ends before its `LAST` frame (16 R462): `BAD_COMMAND`, and its frames are consumed. -/
def endPartial (sess cls ref : Nat) (prin : List Byte) (s : State) : State :=
  let op := opcodeOf s cls sess ref
  let k := s.inq.cls cls
  let mine (i : PealItem) : Bool := i.sess == sess && i.ref == ref
  let gone := k.items.filter mine
  let s := { s with inq := s.inq.setCls cls (k.without mine), sessions := giveCredit gone s.sessions,
                    cmdParts := s.cmdParts.filter fun p => !(p.sess == sess && p.cls == cls && p.ref == ref) }
  refuse { sess, ref, cls, context := 0, opcode := op, since := s.ptp.now, prin } cBadCommand noDetail s

/-- `CMD_FRAME`: a command frame is accepted into the inbound queue, or discarded (R440, 16 R461, R462). -/
def execCmdFrame (f : MbFrame) (s : State) : Host.Outcome State Fault Refusal :=
  if !ethUp s then .next s
  else if f.ref = 0 || (f.len = 0 && !f.last) then .next (ethDiscard s)
  else
    let r := acceptSeq 3 f s
    match r.2 with
    | none => .next r.1
    | some x =>
      let s := r.1
      let old := s.cmdParts.find? fun p => p.sess == f.session && p.cls == f.cls
      -- an unfinished command ends when another begins; a frame that continues none is malformed
      let s := match old with
        | some p => if f.first || p.ref != f.ref then endPartial f.session f.cls p.ref x.prin s else s
        | none => s
      let goesOn := match old with
        | some p => p.ref == f.ref
        | none => false
      if !f.first && !goesOn then
        .next (refuse { sess := f.session, ref := f.ref, cls := f.cls, context := 0, opcode := 0, since := s.ptp.now,
                        prin := x.prin } cBadCommand noDetail s)
      else
        let before := s.inq.fill
        let k := s.inq.cls f.cls
        let i : PealItem := { sess := f.session, ftype := 3, ref := f.ref, first := f.first, last := f.last, seq := f.seq,
                              ctr := f.ctr, payload := f.payload, prin := x.prin, contexts := x.contexts,
                              control := x.control }
        let rest := s.cmdParts.filter fun p => !(p.sess == f.session && p.cls == f.cls)
        let had := match old with
          | some p => if f.first then 0 else p.bytes
          | none => 0
        let s := { s with inq := s.inq.setCls f.cls { k with items := k.items ++ [i] },
                          sessions := s.sessions.upd f.session (fun y => { y with used := y.used + i.size }),
                          cmdParts := if f.last then rest
                            else rest ++ [⟨f.session, f.cls, f.ref, had + f.payload.length⟩] }
        .next (watchIn before s)

/-- `CLOSE_FRAME`: the principal closes its session (R437). -/
def execCloseFrame (f : MbFrame) (s : State) : Host.Outcome State Fault Refusal :=
  if !ethUp s then .next s
  else
    let r := acceptSeq 9 f s
    .next (if r.2.isSome then closeSession f.session r.1 else r.1)

/-- The session idle time in nanoseconds (R437, 18 R525). -/
def idleNs (s : State) : Nat := orDefault s.setup.settings.idleS 600 * 1000000000

/-- `SESSION_IDLE_TIMEOUT` at a time: a session of which no frame came for the idle time closes (R437). -/
def execSessionIdleTimeout (sess t : Nat) (s : State) : Host.Outcome State Fault Refusal :=
  let s := atTime t s
  if 4096 ≤ sess then .fault .noSuchUnit
  else match s.sessions.get sess with
    | none => .next s
    | some x => .next (if x.last + idleNs s ≤ s.ptp.now then closeSession sess s else s)

/-- `LINGER_EXPIRY` at a time: records kept for a closed session for the linger time are dropped and counted (R437). -/
def execLingerExpiry (ix t : Nat) (s : State) : Host.Outcome State Fault Refusal :=
  let s := atTime t s
  match s.linger[ix]? with
  | none => .next s
  | some l =>
    if s.ptp.now < l.expires then .next s
    else .next { s with linger := s.linger.eraseIdx ix,
                        lingerDropped := s.lingerDropped + (if l.told.isEmpty then l.recs.length else 0) }

/-! ## Acknowledgements and sending (R439, R441 to R449) -/

/-- Sequence value `a` lies before `b`, modulo 2^32. -/
def serialBefore (a b : Nat) : Bool := a != b && decide ((b + 2 ^ 32 - a) % 2 ^ 32 < 2 ^ 31)

/-- The sequence value after the last frame that a class has sent. -/
def sentEnd (s : State) (c : Nat) : Nat :=
  let k := s.outq.cls c
  match k.items[k.sent]? with
  | some i => if i.opened then s.outSeq.getD c 0 else i.seq
  | none => s.outSeq.getD c 0

/-- Items of a class that an acknowledgement releases: those sent whose sequence lies before it (R447). -/
def ackCount (s : State) (c v : Nat) : Nat :=
  let k := s.outq.cls c
  ((k.items.take k.sent).takeWhile fun i => serialBefore i.seq v).length

/-- Requests whose final record is acknowledged are free (13 R392). -/
def freeRequests (l : List Nat) (s : State) : State :=
  { s with reqs := s.reqs.filter fun p => !(l.contains p.1 && p.2.state == .ended) }

/-- A class is released up to an acknowledged sequence value (R447, R451). -/
def releaseTo (s : State) (c v : Nat) : State :=
  let k := s.outq.cls c
  let n := ackCount s c v
  if n = 0 then s
  else freeRequests ((k.items.take n).flatMap (·.finalReqs)) { s with outq := s.outq.setCls c (k.release n) }

/-- `ACK_FRAME`: the host names the next sequence value it expects in each class (R439, R442). -/
def execAckFrame (f : MbFrame) (next : List Nat) (s : State) : Host.Outcome State Fault Refusal :=
  if !ethUp s then .next s
  else match s.sessions.get f.session with
    | none => .next (ethDiscard s)
    | some x =>
      if !frameBasic s f || f.ftype != 8 || f.hs || x.phase != 2 || !x.control || next.length != 8 then
        .next (ethDiscard s)
      else if !f.gcmOk then .next (ethDiscard { s with ethAuthFail := satAt 0xFFFF (s.ethAuthFail + 1) })
      else if (List.range 8).any (fun c => serialBefore (sentEnd s c) (next.getD c 0)) then .next (ethDiscard s)
      else
        let before := s.outq.fill
        let s := { s with sessions := s.sessions.put f.session { x with last := s.ptp.now, ctrIn := x.ctrIn + 1 } }
        let s := (List.range 8).foldl (fun s c => releaseTo s c (next.getD c 0)) s
        let s := watchOut before s
        .next (outDrain s.outStall.length s)

/-- `ACK_SEND_TIMER`: an acknowledgement that is owed leaves within 20 µs (R439). -/
def execAckSendTimer (s : State) : Host.Outcome State Fault Refusal :=
  if ethUp s && (s.ackOwed != 0 || s.ackDup) then .next (sendAck s) else .next s

/-- The retransmit time in nanoseconds (R441, 18 R525). -/
def retxNs (s : State) : Nat := orDefault s.setup.settings.retxUs 500 * 1000

/-- The oldest unreleased frame of a class is out and has gone unacknowledged for the retransmit time (R441). -/
def retxDue (s : State) (cls : Nat) : Bool :=
  let k := s.outq.cls cls
  k.read != 0 && match k.items[0]? with
    | some i => decide (i.since + retxNs s ≤ s.ptp.now)
    | none => false

/-- `RETRANSMIT_TIMEOUT` at a time: a class whose oldest frame went unacknowledged rewinds to its mark, which the engine keeps at
the head (R441, R446, R452). -/
def execRetransmitTimeout (cls t : Nat) (s : State) : Host.Outcome State Fault Refusal :=
  let s := atTime t s
  if 8 ≤ cls then .fault .noSuchUnit
  else
    let k := s.outq.cls cls
    if !retxDue s cls then .next s
    else .next { s with outq := s.outq.setCls cls k.rewind, ethRewinds := satAt 0xFFFF (s.ethRewinds + 1) }

/-- `OUTBOUND_FRAME_SEND`: the engine sends an unsequenced frame that waits, else the item that R445 gives; without one its
read stalls (R445, R449). -/
def execOutboundFrameSend (s : State) : Host.Outcome State Fault Refusal :=
  if !ethUp s then .next s
  else match s.replies with
    | _ :: r => .next { s with replies := r }
    | [] => match s.outq.highest with
      | none => .next { s with outq := { s.outq with stalled := true } }
      | some c =>
        let q := s.outq.setCls c ((s.outq.cls c).sendNext s.ptp.now)
        .next { s with outq := { q with stalled := false } }

/-- `NOTICE_PACKET_CLOSE` at a time: 10 µs after its first record a session's notice packet closes (R453). -/
def execNoticePacketClose (sess t : Nat) (s : State) : Host.Outcome State Fault Refusal :=
  let s := atTime t s
  if 4096 ≤ sess then .fault .noSuchUnit
  else .next ([6, 7].foldl (fun s c => match (s.outq.cls c).items.getLast? with
    | some i => if i.opened && i.ftype == 5 && i.sess == sess && decide (i.since + 10000 ≤ s.ptp.now) then closeOpen c s else s
    | none => s) s)

/-! ## The timebase (R456, R457) -/

/-- The magnitude of a measured offset is sampled (19 R550 kind 15). -/
def sampleOffset (o : Int) (s : State) : State := monSample 2 5 o.natAbs s

/-- `PTP_SYNC`: a Sync of the setup image's domain measures the offset from the transmitter's time (R456, R457): the first
one steps the timebase forward, later ones slew it, and an offset above 1 ms is reported once. -/
def execPtpSync (domain time t : Nat) (s : State) : Host.Outcome State Fault Refusal :=
  let s := atTime t s
  if !ethUp s || domain != s.setup.settings.ptpDomain then .next s
  else
    let off : Int := (s.ptp.now : Int) - time
    let far := decide (1000000 < off.natAbs)
    let first := s.ptp.state == 0
    let s := sampleOffset off s
    let p := s.ptp
    let now := if first then max p.now time else p.now
    let s := { s with ptp := { p with now, state := 1, offset := off, syncs := satAt 0xFFFF (p.syncs + 1),
                                      lastSync := now, slew := if first then 0 else -off,
                                      stepTold := !first && far } }
    .next (if !first && far && !p.stepTold then notice 0x60 0 0 0 (leBytes 8 (off % 2 ^ 64).toNat) s else s)

/-- `PTP_HOLDOVER` at a time: no Sync for 4 s (R457); the seconds in holdover count from there. -/
def execPtpHoldover (t : Nat) (s : State) : Host.Outcome State Fault Refusal :=
  let s := atTime t s
  if s.ptp.state = 0 || s.ptp.now < s.ptp.lastSync + 4000000000 then .next s
  else .next { s with ptp := { s.ptp with
    state := 2, holdFrom := if s.ptp.state = 2 then s.ptp.holdFrom else s.ptp.lastSync + 4000000000 } }

end Sys2Proof.Machine
end

