-- ==== Sys2Proof/Machine/Gate.lean ====
section
/-! DEFINITION. What every host command passes (16 R461 to R471, R480 to R484): the reading of its frames, the order of the
checks, its window reads, and its refusal or effect. -/

namespace Sys2Proof.Machine

/-! ## Senders (R466) -/

/-- Who sent a command: key, contexts held, whether it is the controlling host, and the size of its window. -/
structure Sender where
  prin : List Byte
  contexts : List Nat
  control : Bool
  window : Nat
  deriving DecidableEq, Repr, Inhabited

/-- The sender of a command: the principal of its frames, or of the open session that it names. -/
def senderOf (s : State) (h : Hdr) : Option Sender :=
  let x := s.sessions.get h.sess
  match (s.inq.cls h.cls).items.find? fun i => i.sess == h.sess && i.ref == h.ref with
  | some i => some ⟨i.prin, i.contexts, i.control, match x with
      | some y => if y.prin = i.prin then y.window else 0
      | none => 0⟩
  | none => match x with
    | some y => if y.phase = 2 then some ⟨y.prin, y.contexts, y.control, y.window⟩ else none
    | none => none

/-- A principal holds a context; the controlling host holds context 0 (12 R368). -/
def Sender.holds (snd : Sender) (c : Nat) : Bool := snd.contexts.contains c || (snd.control && c == 0)

/-- Sender codes of the command table (R466); O and the object's owner are checked with the object. -/
inductive Who
  | any | control | holder | holderOrControl
  deriving DecidableEq, Repr, Inhabited

/-- A context that is open. -/
def openCtx (s : State) (c : Nat) : Bool := (s.tenants.getD c {}).state == .opened

/-- The sender may send a command of this code in the context it names (R466). -/
def mayName (s : State) (who : Who) (snd : Sender) (c : Nat) : Bool :=
  let forOne := snd.control && (c == 0 || openCtx s c)
  match who with
  | .any => snd.holds c || forOne
  | .control => forOne
  | .holder => snd.holds c
  | .holderOrControl => snd.holds c || forOne

/-! ## Checks -/

/-- A detail that the manual gives no layout for: the wrapper replaces it by a free number. -/
def anyDetail : Nat := 2 ^ 64

/-- Codes from 256 on are those of a check on the content that a window read brings: the wrapper takes 256 off. -/
def contentCode : Nat := 256

/-- A check of R481: the rest only if it holds. -/
def require (c : Bool) (code detail : Nat) (k : Except (Nat × Nat) State) : Except (Nat × Nat) State :=
  if c then k else .error (code, detail)

/-- A check on content, which follows the window read. -/
def content (c : Bool) (code detail : Nat) (k : Except (Nat × Nat) State) : Except (Nat × Nat) State :=
  require c (code + contentCode) detail k

/-- What the device state completes a command with (R471). -/
def stateRefusal (st : DevState) (op : Nat) : Option Nat :=
  match st with
  | .ready => none
  | .starting => if op = 0x0101 then none else some cStateConflict
  | .baseLoading => if [0x0104, 0x0203, 0x0301, 0x0305, 0x0309, 0x0401].contains op then some cStateConflict else none
  | .held => if [0x0101, 0x0601, 0x0102].contains op then none else some cHeld
  | .sealing => if [0x0101, 0x0601, 0x0606].contains op then none else some cSealed
  | .sealed => if [0x0101, 0x0601, 0x0606].contains op then none else some cSealed

/-- Another command of the session with this tag has not had its final completion (R462). -/
def refBusy (s : State) (h : Hdr) : Bool := s.accepted.any fun a => a.sess == h.sess && a.ref == h.ref

/-- Steps 1 to 3 of R481 as far as the header goes, and the rules of the `BODY` field (R480). -/
def gate (h : Hdr) (op : Nat) (who : Who) (snd : Sender) (s : State) : Option (Nat × Nat) :=
  match stateRefusal s.dev.state op with
  | some c => some (c, noDetail)
  | none =>
    if h.cver != 1 then some (cBadCommand, 2)
    else if !h.resvOk || h.ref = 0 || refBusy s h then some (cBadCommand, noDetail)
    else if !mayName s who snd h.context then some (cDenied, 4)
    else if h.body = 0xFFFFFFFF then some (cFieldRange, 8)
    else if decide (65520 < h.body) || h.carried != h.body then some (cBounds, 8)
    else none

/-! ## Reading a command (R445, R452, R469) -/

/-- The objects that a command names: job slots 0, partitions 1, adaptations 2, requests 3, sessions 4, contexts 5. -/
def cmdObjects : Instr → List (Nat × Nat)
  | .scoreLoad _ slot _ _ => [(0, slot)]
  | .scoreUnload _ slot => [(0, slot)]
  | .jobStart _ f => (0, f.slot) :: f.training.map fun t => (2, t.adapt)
  | .jobStop _ slot _ _ _ => [(0, slot)]
  | .jobBind _ slot part => [(0, slot), (1, part)]
  | .jobAdmit _ slot _ _ _ _ _ => [(0, slot)]
  | .jobReshard _ old new _ _ _ => [(0, old), (0, new)]
  | .jobCheckpoint _ slot _ => [(0, slot)]
  | .jobInput _ slot _ _ _ _ => [(0, slot)]
  | .adaptRead _ id _ => [(2, id)]
  | .adaptUnregister _ id => [(2, id)]
  | .adaptClaim _ slot _ id _ _ => [(0, slot), (2, id)]
  | .adaptRelease _ slot _ _ => [(0, slot)]
  | .adaptRevoke _ id => [(2, id)]
  | .adaptGrant _ id _ c => [(2, id), (5, c)]
  | .adaptProbe _ id slot _ _ _ _ _ _ _ => [(2, id), (0, slot)]
  | .reqSubmit _ f => [(0, f.slot), (4, f.session)]
  | .reqCancel _ id => [(3, id)]
  | .sessClose _ sid => [(4, sid)]
  | .tenantOpen _ c _ => [(5, c)]
  | .tenantQuota _ c _ _ => [(5, c)]
  | .tenantClose _ c => [(5, c)]
  | _ => []

/-- A command waits for an earlier one on the same object that still executes: one that reads its window, or the close of a
session or context whose pages are being zeroed (R469). -/
def waitsFor (s : State) (cmd : Instr) : Bool :=
  let mine := cmdObjects cmd
  (s.winReads.any fun r => (cmdObjects r.cmd).any fun o => mine.contains o) ||
    (s.sess.any fun p => p.2.state == .closing && mine.contains (4, p.1)) ||
    (s.tenants.any fun p => p.2.state == .closing && mine.contains (5, p.1))

/-- The byte ranges of tiers 1 to 3 that a command itself reads or writes as it takes effect. -/
def cmdRanges (s : State) : Instr → List (Nat × Nat)
  | .adaptRead _ id _ => match s.registry.get id with
    | some a => [(a.home, a.f.bytes)]
    | none => []
  | .adaptRegister _ f _ _ =>
    let size := ceilDiv f.bytes pageBytes * pageBytes
    match freeRange s f.tier size pageBytes with
    | some a => [(a, size)]
    | none => []
  | .baseLoad _ _ _ _ m _ => m.extents.map fun e => (e.1, e.2 * mappingBytes)
  | _ => []

/-- A command meets a stack of a hand in reset: it waits for the hand, as every access does (01 R24). -/
def cmdAsleep (s : State) (cmd : Instr) : Bool := (cmdRanges s cmd).any fun r => rangeAsleep s r.1 r.2

/-- The processor's read of a command in its class: mark, then past its `LAST` frame (R445, R452). -/
def takeCmd (h : Hdr) (s : State) : State :=
  let k := s.inq.cls h.cls
  let past := (k.items.zip (List.range k.items.length)).find? fun p =>
    decide (k.read ≤ p.2) && p.1.sess == h.sess && p.1.ref == h.ref && p.1.last
  match past with
  | some p => { s with inq := s.inq.setCls h.cls { k with mark := k.read, read := p.2 + 1, sent := p.2 + 1 } }
  | none => s

/-- A command that cannot be consumed yet: the class rewinds to its mark and parks (R452). -/
def parkClass (cls : Nat) (s : State) : State :=
  { s with inq := s.inq.setCls cls { (s.inq.cls cls) with parked := true } }

/-- `PARKED_ITEM_RESUME`: the condition of a parked class has come about (R452, R469): no item of it waits any more. -/
def execParkedItemResume (cls : Nat) (s : State) : Host.Outcome State Fault Refusal :=
  if 8 ≤ cls then .fault .noSuchUnit
  else
    let waits := s.slots.any fun p => match p.2.job with
      | some j => j.inputs.any fun i => match i.w with
        | some w => w.cls == cls
        | none => false
      | none => false
    if waits then .next s else .next { s with inq := s.inq.setCls cls { (s.inq.cls cls) with parked := false } }

/-! ## Window reads (R438, R463) -/

/-- A range lies in the sender's window. -/
def rangeOk (snd : Sender) (r : Range) : Bool := decide (r.off + r.len ≤ snd.window)

/-- The length of a window range is not the reserved value (R480). -/
def rangeLen (r : Range) : Bool := decide (r.len < 0xFFFFFFFF)

/-- `WREQ` frames ask for ranges, at most 16 MiB each (R438). -/
def askWindow (h : Hdr) (l : List Range) (s : State) : State :=
  l.foldl (fun s r => (List.range (ceilDiv r.len 16777216)).foldl (fun s i =>
    let o := i * 16777216
    outAppend h.cls { sess := h.sess, ftype := 6, ref := h.ref,
                      payload := leBytes 8 (r.off + o) ++ leBytes 4 (min 16777216 (r.len - o)) ++ leBytes 1 0 } s) s) s

/-- A command is accepted and not complete (R469). -/
def accept (w : Wait) (s : State) : State :=
  if s.accepted.any fun a => a.sess == w.sess && a.ref == w.ref then s else { s with accepted := s.accepted ++ [w] }

/-! ## The command -/

/-- A command's outcome entered: a refusal with its detail, or its effect; one whose content still lies in the host's
window asks for it once its checks to step 5 pass. -/
def settleCmd (h : Hdr) (w : Wait) (wins : List Range) (again : Instr) (r : Except (Nat × Nat) State) (s : State) : State :=
  let bytes := sumNat (wins.map (·.len))
  let early (c : Nat) : Bool := c == cDenied || c == cFieldRange || c == cBounds
  match r with
  | .error e =>
    if h.win = 1 && bytes != 0 && !early e.1 then
      accept w (askWindow h wins { s with winReads := s.winReads ++ [⟨h.sess, h.ref, bytes, s.ptp.now, again⟩] })
    else if e.2 = anyDetail then
      let f := nextFree s
      refuse w (e.1 % contentCode) (Config.freeNat f.1 % 2 ^ 64) f.2
    else refuse w (e.1 % contentCode) e.2 s
  | .ok s' =>
    if h.win = 1 && bytes != 0 then
      accept w (askWindow h wins { s with winReads := s.winReads ++ [⟨h.sess, h.ref, bytes, s.ptp.now, again⟩] })
    else s'

/-- A window read of a command has brought its last byte. -/
def readDone (s : State) (h : Hdr) : Bool := s.winReads.any fun r => r.sess == h.sess && r.ref == h.ref && r.left == 0

/-- A host command (R469, R481): it is read, checked in order and takes effect. `exempt` marks the commands that wait for
no other; `wins` are the ranges it reads, `again` the command once they are there: it goes on then with the checks behind its
header's. -/
def command (h : Hdr) (op : Nat) (who : Who) (exempt : Bool) (wins : List Range) (again : Instr)
    (body : Wait → Sender → State → Except (Nat × Nat) State) (s : State) : Host.Outcome State Fault Refusal :=
  match senderOf s h with
  | none => .next s
  | some snd =>
    let resumed := h.win == 2
    if resumed && !readDone s h then .next s
    else if !resumed && ((s.inq.cls h.cls).parked || decide (2047 ≤ s.accepted.length)) then .next s
    else if (!resumed && !exempt && waitsFor s again) || ((resumed || h.win == 0) && cmdAsleep s again) then
      .next (parkClass h.cls s)
    else
      let w : Wait := { sess := h.sess, ref := h.ref, cls := h.cls, context := h.context, opcode := op,
                        since := match s.accepted.find? fun a => a.sess == h.sess && a.ref == h.ref with
                          | some a => a.since
                          | none => s.ptp.now,
                        prin := snd.prin }
      let dup := !resumed && refBusy s h
      let s := if resumed then { s with winReads := s.winReads.filter fun r => !(r.sess == h.sess && r.ref == h.ref) }
        else takeCmd h s
      match (if resumed then none else gate h op who snd s) with
      | some e => .next (if dup && e.1 == cBadCommand then
            sendCpl w.sess w.cls w.ref op e.1 0 e.2 w.prin [] (countRefuse w e.1 e.2 s)
          else refuse w e.1 e.2 s)
      | none => .next (settleCmd h w wins again (body w snd s) s)

/-- A change completed at once: logged, and `OK` with its result (R484). -/
def changed (w : Wait) (slot : Nat) (detail result : List Byte) (s : State) : Except (Nat × Nat) State :=
  .ok (complete w cOk 0 result (logChange w slot 0 detail s))

/-- A read or a no-op completed at once. -/
def answered (w : Wait) (result : List Byte) (s : State) : Except (Nat × Nat) State := .ok (complete w cOk 0 result s)

end Sys2Proof.Machine
end

