-- ==== Sys2Proof/Machine/Fuses.lean ====
section
/-! DEFINITION. What is fused at manufacture and applied as a hand starts (01 R10 to R13, 04 R105, R106, 18 R530, 20 R575):
the rows and lanes that software sees, and the core positions behind them. Nothing here changes a value, a hop count or a
figure that software sees. -/

namespace Sys2Proof.Machine

/-- Physical rows of a hand, the spare one among them (R10). -/
def physRows : Nat := 17

/-- Physical core positions of a hand: 17 rows of 32, each below 2 MiB of deep SRAM (R10). -/
def physPositions : List Nat := List.range (physRows * 32)

/-- The physical row of each logical row: those not fused out, in physical order (R11). -/
def rowMapOf (f : HandFuses) : List Nat := (List.range physRows).filter (· != f.spareRow)

/-- The positions whose deep SRAM has power: all but those of the bypassed row (R12). -/
def poweredOf (f : HandFuses) : List Nat := physPositions.filter fun p => p / 32 != f.spareRow

/-- The physical lane of each logical lane of a core whose fuses mark `bad`: the lowest 128 lanes of the 132 that are not
marked (04 R105). -/
def laneMapOf (bad : List Nat) : List Nat := ((List.range 132).filter fun l => !bad.contains l).take 128

def fusesOf (s : State) (h : Nat) : HandFuses := if h = 0 then s.dev.fuses.1 else s.dev.fuses.2

/-- A hand's firmware applies its fuses (18 R530 phase 2, 20 R575). -/
def applyFuses (h : Nat) (s : State) : State :=
  let f := fusesOf s h
  modHand h (fun x => { x with rowMap := rowMapOf f, powered := poweredOf f,
                               bankLanes := f.badLanes.map fun p => (p.1, laneMapOf p.2) }) s

/-- The physical position of a core that software names by its logical row and column (R11, R12). -/
def physCore (s : State) (row col : Nat) : Nat :=
  (getHand s (handOfCol col)).rowMap.getD row row * 32 + col % 32

/-- The physical lane of a logical lane of a core (04 R106). -/
def physLane (s : State) (row col lane : Nat) : Nat :=
  (((getHand s (handOfCol col)).bankLanes.get (physCore s row col)).getD (List.range 128)).getD lane lane

end Sys2Proof.Machine
end

