-- ==== Sys2Proof/Machine/Words.lean ====
section
/-! DEFINITION. The state words that `STATE.READ` names (16 R468, 19 R554, 20 R576): their layouts, indices and readers. -/

namespace Sys2Proof.Machine

/-- Fields from the highest bits down, each of a width. -/
def packFields (l : List (Nat × Nat)) : Nat := l.foldl (fun a f => a * 2 ^ f.1 + f.2 % 2 ^ f.1) 0

/-! ## Jobs and slots -/

/-- The code of a job state (16 R473). -/
def JobState.code : JobState → Nat
  | .empty => 0
  | .loading => 1
  | .loaded => 2
  | .starting => 3
  | .running => 4
  | .awaiting => 5
  | .admitting => 6
  | .resharding => 7
  | .stopping => 8
  | .faulted => 9
  | .unbound => 10

/-- `JOB.STATE` (16 R474). -/
def wJobState (s : State) (i : Nat) : Nat :=
  let sl := getSlot s i
  let c := sl.state.code
  let part := if 3 ≤ c && c ≤ 9 then ((sl.job.bind (·.part)).orElse fun _ => (slotPart s i).map (·.1)).getD 0 else 0
  packFields [(4, c), (1, bit ((sl.score.map (·.ghost)).getD false)), (10, (sl.job.map (·.rank)).getD 0),
    (10, ((sl.score.map (·.replicas)).getD 1) - 1), (12, sl.owner), (6, part), (16, (sl.job.map (·.epoch)).getD 0), (5, 0)]

/-- `SCORE.POS` (02 R38). DESIGN CHOICE: the manual does not say what `RUNNING` reads between two bars of a running job, or for a
paused ghost; it is 1 while a run of a bar is open and the score is not a paused ghost. -/
def wScorePos (s : State) (i : Nat) : Nat :=
  let sl := getSlot s i
  let r := (sl.job.bind Job.now).getD { bar := 0, run := 0, strict := false, look := false }
  packFields [(40, r.bar), (16, r.partBeat), (3, 0), (1, bit r.strict), (1, bit r.look), (1, bit (ghostPaused s i)),
    (1, bit sl.score.isSome), (1, bit ((sl.job.bind Job.now).isSome && !ghostPaused s i))]

/-- The phase of the oldest bar without a verdict (09 R273). -/
def barPhase (sc : Score) (r : Run) : Nat :=
  if r.query then 7
  else if r.voted.isSome then 6
  else if r.drained then 5
  else if sc.drainBeat ≤ r.partBeat then 4
  else if sc.updateBeat ≤ r.partBeat then 3
  else if sc.exchangeBeat ≤ r.partBeat then 2 else 1

/-- `BAR.STATE` (09 R274). -/
def wBarState (s : State) (i : Nat) : Nat :=
  let sl := getSlot s i
  match sl.job, sl.score with
  | some j, some sc => packFields [(40, j.done.getD 0xFFFFFFFFFF), (3, (j.cur.map (barPhase sc)).getD 0), (3, j.last),
      (3, j.lastCause), (1, 0), (14, j.aborts)]
  | _, _ => packFields [(40, 0xFFFFFFFFFF), (24, 0)]

/-- `GEN.STATE` (13 R396). -/
def wGenState (s : State) (i : Nat) : Nat :=
  match getJob s i with
  | none => 0
  | some j => match j.f.gen with
    | none => 0
    | some g => packFields [(21, (s.reqs.filter fun p => p.2.f.slot == i && p.2.state == .queued).length),
        (13, j.rowReq.length), (13, g.rows), (16, j.stalls), (1, 1)]

/-! ## Partitions -/

def PartState.code : PartState → Nat
  | .free => 0
  | .loading => 1
  | .running => 2
  | .resting => 3
  | .quiescing => 4
  | .scrubbing => 5
  | .faulted => 6

/-- `PART.STATE` (02 R51). -/
def wPartState (s : State) (p : Nat) : Nat :=
  let q := getPart s p
  packFields [(8, q.primary.getD 0xFF), (8, q.ghost.getD 0xFF), (4, q.row), (6, q.col), (5, q.rows - 1), (6, q.cols - 1),
    (3, q.state.code), (12, q.owner), (12, q.drops)]

/-- The job of a partition's primary score. -/
def partJob (s : State) (p : Nat) : Option Job := ((getPart s p).primary).bind (getJob s)

/-- `NUM.STATE` (07 R228). -/
def wNumState (s : State) (p : Nat) : Nat :=
  match partJob s p with
  | some j => packFields [(16, j.skips), (16, j.lastTensor.getD 0xFFFF), (24, j.lastBar), (3, 0), (5, j.cold)]
  | none => packFields [(16, 0), (16, 0xFFFF), (24, 0), (3, 0), (5, 16)]

/-- `NUM.SHADOW` (07 R233). -/
def wNumShadow (s : State) (p : Nat) : Nat :=
  match partJob s p with
  | some j => packFields [(16, j.shadowSel), (16, j.shadowMis), (16, j.shadowDrop), (3, 0), (5, j.f.shadowT),
      (5, j.f.shadowK), (2, 0), (1, bit j.f.shadowEn)]
  | none => packFields [(48, 0), (3, 0), (5, 12), (5, 10), (2, 0), (1, 1)]

/-! ## Update engine, memory, tenants -/

/-- An update pass of a slot's newest run is under way on a hand (08 R249). -/
def passRuns (s : State) (hand : Nat) : Bool :=
  s.slots.any fun p => match p.2.score, p.2.job with
    | some sc, some j => match j.cur with
      | some r => r.passes.any fun e => !e.2.done && (e.2.next != 0 || e.2.second) &&
          match (sc.entries[e.1]?).bind fun t => sc.reductions[t.red]? with
          | some d => redHand s p.1 sc d == hand
          | none => false
      | none => false
    | _, _ => false

/-- `UPD.STATE` (08 R262). -/
def wUpdState (s : State) (hand : Nat) : Nat :=
  let h := getHand s hand
  packFields [(16, h.holdEntries), (16, h.holdEvents), (16, h.intakeFull), (14, 0), (1, bit (backpressure s hand)),
    (1, bit (passRuns s hand))]

/-- The region whose pages include a page: not a range reserved without pages. -/
def wordRegion (s : State) (n : Nat) : Option Region :=
  s.regions.find? fun r => r.holds (pageAddr n) 1 && !r.reserved && r.window.isNone && r.kvRow.isNone

/-- `MEM.PAGE` (10 R298). -/
def wMemPage (s : State) (n : Nat) : Nat :=
  let d := getPage s n
  match wordRegion s n with
  | none => packFields [(8, 0), (1, bit d.poison), (55, 0)]
  | some r =>
    let rest := match d.pool with
      | some 2 => 2
      | some _ => 1
      | none => n / 2 ^ 28
    packFields [(4, rest), (1, 1), (1, bit r.large), (1, bit (r.kind == 4 || r.kind == 5)), (1, bit (r.kind == 4)),
      (1, bit d.poison), (1, bit (isPinned s n)), (2, d.move), (12, r.owner), (4, pageGen s r n), (28, d.frame),
      (1, bit d.dirty), (7, 0)]

def TenState.code : TenState → Nat
  | .closed => 0
  | .opened => 1
  | .closing => 2

/-- `TEN.STATE` (12 R371). -/
def wTenState (s : State) (c : Nat) : Nat :=
  let t := s.tenants.getD c {}
  let mine := s.registry.filter fun p => p.2.owner == c && p.2.state != .free
  packFields [(2, t.state.code), (17, mine.length), (7, t.partUsed), (17, ceilDiv t.hotPinned 1048576), (12, t.refusals),
    (9, satAt 0x1FF (mine.filter fun p => p.2.state == .stale || p.2.state == .probing).length)]

/-! ## Ports, queues, timebase -/

/-- `GL.PORT` (14 R422). -/
def wGlPort (s : State) (p : Nat) : Nat :=
  let q := getPort s p
  packFields [(3, if q.unused then 5 else q.state), (4, q.lanes), (14, q.peerDev), (5, q.peerPort), (14, q.uncorr),
    (16, q.rewinds), (8, q.downs)]

/-- `ETH.PORT` (15 R458). -/
def wEthPort (s : State) : Nat :=
  packFields [(3, s.ethState), (2, s.setup.settings.encap), (1, bit (jumbo s)), (1, bit s.assocNum.isSome),
    (13, (s.sessions.filter fun p => p.2.phase == 2).length), (12, s.ethDiscards), (16, s.ethAuthFail), (16, s.ethRewinds)]

/-- A bit for each class. -/
def classBits (f : Nat → Bool) : Nat := sumNat ((List.range 8).map fun c => if f c then 2 ^ c else 0)

/-- `MB.QUEUE` (15 R459). -/
def wMbQueue (s : State) (i : Nat) : Nat :=
  let q := if i = 0 then s.inq else s.outq
  let opened (c : Nat) : Bool := match (q.cls c).items.getLast? with
    | some x => x.opened
    | none => false
  let stalled := q.highest.isNone && (if i = 0 then s.dev.state != .starting else q.stalled)
  packFields [(15, ceilDiv q.fill 1024), (15, q.levelKib), (8, classBits fun c => (q.cls c).ready),
    (8, classBits fun c => if i = 0 then (q.cls c).parked else opened c), (16, q.crossings), (1, bit stalled),
    (1, bit q.above)]

/-- An offset in a signed field of 22 bits, saturated (15 R460). -/
def offset22 (o : Int) : Nat := (max (-2097151) (min 2097151 o) % 4194304).toNat

/-- Whole seconds in holdover, saturated (15 R460). -/
def holdSeconds (s : State) : Nat := if s.ptp.state = 2 then satAt 0xFFFF ((s.ptp.now - s.ptp.holdFrom) / 1000000000) else 0

/-- `PTP.STATE` (15 R460). -/
def wPtpState (s : State) : Nat :=
  packFields [(2, s.ptp.state), (8, s.setup.settings.ptpDomain), (22, offset22 s.ptp.offset), (16, holdSeconds s),
    (16, s.ptp.syncs)]

/-! ## The device -/

def DevState.code : DevState → Nat
  | .starting => 0
  | .ready => 1
  | .baseLoading => 2
  | .held => 3
  | .sealing => 4
  | .sealed => 5

/-- The boot record in force: the one with the higher number whose MAC verifies (18 R523). -/
def bootNow (s : State) : BootRec :=
  let a := s.nor.bootA
  let b := s.nor.bootB
  if !a.ok then b else if !b.ok then a else if a.seq < b.seq then b else a

/-- `DEV.STATE` (16 R472). The `STATE.READ` that reads the word is itself accepted and not complete (DEDUCED). -/
def wDevState (s : State) : Nat :=
  let jobs := (s.slots.filter fun p => decide (3 ≤ p.2.state.code)).length
  let parts := (s.parts.filter fun p => p.2.state != .free).length
  packFields [(3, s.dev.state.code), (1, s.dev.baton), (8, jobs), (7, parts), (1, bit (bootNow s).cfgStaged),
    (1, bit (bootNow s).fwStaged), (16, s.dev.refusals), (11, s.accepted.length + 1), (16, 0)]

/-- `TEMPO.STATE` (19 R548). -/
def wTempo (s : State) (hand : Nat) : Nat :=
  let h := getHand s hand
  packFields [(3, h.tempo), (3, h.ceil), (3, h.pace), (8, h.derated), (10, h.railMv), (12, h.stepPs), (16, h.changes),
    (9, h.hotC)]

/-- `PWR.STATE` (19 R548). -/
def wPower (s : State) : Nat :=
  packFields [(10, s.pwr.capW), (12, s.pwr.p1), (12, s.pwr.hand0W), (12, s.pwr.hand1W), (10, s.pwr.inputDv), (8, s.pwr.overs)]

/-- `AGE.STATE` (19 R562). -/
def wAge (s : State) (hand : Nat) : Nat :=
  let h := getHand s hand
  packFields [(8, h.margin), (8, h.worst), (7, h.worstSensor), (16, h.retunes),
    (16, satAt 0xFFFF ((s.ptp.now - h.lastRetune) / 3600000000000)), (8, 0), (1, bit h.low)]

/-- `AGE.SENSOR` (19 R554). -/
def wAgeSensor (s : State) (i : Nat) : Nat :=
  let hand := i / 128 % 2
  packFields [(32, (getHand s hand).sensors.getD (i % 128) 0), (32, s.setup.ageBase.getD (hand * 128 + i % 128) 0)]

/-- `FLT.STATE` (20 R576). -/
def wFault (s : State) (block : Nat) : Nat :=
  let f := if block < 2 then (getHand s block).flt else s.dev.flt
  packFields [(16, f.corrected), (12, f.uncorr), (12, satAt 0xFFF (poisonedCount s block)), (8, f.repairLeft),
    (4, if block < 2 then satAt 0xF f.resets else 0), (4, f.lastClass), (7, 0), (1, bit (!f.service.isEmpty))]

/-! ## Monitors (19 R551, R554, R555) -/

/-- The partition that a monitor instance watches (R551). -/
def monPart (block inst : Nat) : Option Nat := if block < 2 && inst < 128 then some (inst % 64) else none

/-- Scope and subject of an instance (R551, R555). -/
def monSubject (block inst : Nat) : Nat × Nat :=
  if block = 2 then (4, 0)
  else if inst < 128 then (3, inst % 64)
  else if inst < 160 then (0, inst - 128)
  else if inst < 176 then (0, inst - 160)
  else if inst < 178 then (0, 0)
  else if inst < 184 then (2, 6 * block + (inst - 178))
  else if inst < 193 then (1, 9 * block + (inst - 184))
  else if inst < 202 then (1, 9 * block + (inst - 193))
  else if 224 ≤ inst then (0, inst - 224) else (0, 0)

/-- An instance takes samples (R551, R552). -/
def monLive (s : State) (block inst : Nat) : Bool :=
  monKind block inst != 0 && s.dev.state != .starting && (decide (2 ≤ block) || (getHand s block).mode == .running) &&
    match monPart block inst with
    | some p => (getPart s p).state != .free
    | none => true

/-- `MON.CFG` (R555). -/
def wMonCfg (s : State) (block inst : Nat) : Nat :=
  let k := monKind block inst
  let q := monQ k
  let t := monSubject block inst
  if k = 0 then 0
  else packFields [(5, k), (3, if q = 0 then 0 else Nat.log2 q + 1), (4, t.1), (12, t.2), (32, monBase k), (7, 0),
    (1, bit (monLive s block inst))]

/-- A monitor's words besides `MON.CFG` (R554). -/
def wMon (s : State) (code block inst pair : Nat) : Nat :=
  let m := s.mons.getD (block * 256 + inst) {}
  if code = 0x41 then packFields [(32, m.min), (32, m.max)]
  else if code = 0x42 then m.count
  else if code = 0x43 then m.sum
  else packFields [(32, m.bins.getD (2 * pair + 1) 0), (32, m.bins.getD (2 * pair) 0)]

/-- `MON.REFUSE` (R554). -/
def wRefuse (s : State) (c : Nat) : Nat :=
  let t := s.tenants.getD c {}
  packFields [(16, t.refQuota), (16, t.refDenied), (16, t.refState), (16, t.refOther)]

/-! ## Reading (16 R468) -/

/-- Who may read a word: everyone, the controlling host only, holders of a context only, or they and the controlling
host. -/
inductive Reader
  | all
  | host
  | held (c : Nat)
  | heldOrHost (c : Nat)
  deriving DecidableEq, Repr, Inhabited

/-- A page index that exists: tiers 1 to 3 below their limits (10 R290). -/
def pageIndex (i : Nat) : Bool :=
  let t := i / 2 ^ 28
  decide (1 ≤ t) && decide (t ≤ 3) && decide ((i % 2 ^ 28 + 1) * pageBytes ≤ tierLimit t)

/-- A word by code and index: none for a reserved code or an index out of range, else its readers and value. -/
def stateWord (s : State) (code i : Nat) : Option (Reader × Nat) :=
  let one (r : Reader) (v : Nat) : Option (Reader × Nat) := if i = 0 then some (r, v) else none
  let upTo (n : Nat) (r : Reader) (v : Nat) : Option (Reader × Nat) := if i < n then some (r, v) else none
  match code with
  | 0x01 => one .all s.dev.ident
  | 0x02 => one .all (wDevState s)
  | 0x03 => upTo 128 (.held (getSlot s i).owner) (wJobState s i)
  | 0x04 => upTo 128 (.held (getSlot s i).owner) (wScorePos s i)
  | 0x05 => upTo 128 (.held (getSlot s i).owner) (wBarState s i)
  | 0x06 => upTo 128 (.heldOrHost (getSlot s i).owner) (wGenState s i)
  | 0x07 => upTo 64 (.held (getPart s i).owner) (wPartState s i)
  | 0x08 => upTo 64 (.held (getPart s i).owner) (wNumState s i)
  | 0x09 => upTo 64 (.held (getPart s i).owner) (wNumShadow s i)
  | 0x0A => upTo 2 .host (wUpdState s i)
  | 0x0B => if pageIndex i then some (.host, wMemPage s i) else none
  | 0x0C => upTo 4096 (.heldOrHost i) (wTenState s i)
  | 0x0D => upTo 18 .host (wGlPort s i)
  | 0x0E => one .host (wEthPort s)
  | 0x0F => upTo 2 .host (wMbQueue s i)
  | 0x10 => one .all (wPtpState s)
  | 0x40 => if i < 0x300 then some (monReader s i, wMonCfg s (i / 256) (i % 256)) else none
  | 0x41 => if i < 0x300 then some (monReader s i, wMon s 0x41 (i / 256) (i % 256) 0) else none
  | 0x42 => if i < 0x300 then some (monReader s i, wMon s 0x42 (i / 256) (i % 256) 0) else none
  | 0x43 => if i < 0x300 then some (monReader s i, wMon s 0x43 (i / 256) (i % 256) 0) else none
  | 0x44 => if i < 0x8000 && i / 256 % 4 < 3 then
      some (monReader s (i % 1024), wMon s 0x44 (i / 256 % 4) (i % 256) (i / 1024)) else none
  | 0x45 => upTo 2 .host (wTempo s i)
  | 0x46 => one .host (wPower s)
  | 0x47 => upTo 2 .host (wAge s i)
  | 0x48 => upTo 4096 (.heldOrHost i) (wRefuse s i)
  | 0x49 => upTo 256 .host (wAgeSensor s i)
  | 0x80 => upTo 3 .host (wFault s i)
  | _ => none
where
  /-- Readers of a monitor (R552). -/
  monReader (s : State) (i : Nat) : Reader := match monPart (i / 256) (i % 256) with
    | some p => .heldOrHost (getPart s p).owner
    | none => .host

/-- A principal may read. -/
def Sender.mayRead (snd : Sender) : Reader → Bool
  | .all => true
  | .host => snd.control
  | .held c => snd.holds c
  | .heldOrHost c => snd.holds c || snd.control

/-- The 16-byte result of one word (R466, R468). -/
def wordResult (s : State) (snd : Sender) (w : Nat × Nat) : List Byte :=
  let r : Nat × Nat := match stateWord s w.1 w.2 with
    | some (rd, v) => if snd.mayRead rd then (cOk, v) else (cDenied, 0)
    | none => (if snd.control then cFieldRange else cDenied, 0)
  leBytes 1 r.1 ++ leBytes 7 0 ++ leBytes 8 r.2

/-- `STATE.READ`: words read, each with its own status (R466, R468); it never waits (R469). -/
def execStateRead (h : Hdr) (words : List (Nat × Nat)) (s : State) : Host.Outcome State Fault Refusal :=
  command h 0x0101 .any true [] (.stateRead h words) (fun w snd s =>
    require (words.length != 255) cFieldRange 16 <|
    require (words.length ≤ 64) cBounds 16 <|
    answered w (words.flatMap (wordResult s snd)) s) s

end Sys2Proof.Machine
end

