-- ==== Sys2Proof/Machine/Hands.lean ====
section
/-! DEFINITION. The hands (18 R531 to R535, 19 R538 to R540, R556 to R563, 20 R575): tempo changes, ageing and retune, the
baton and its confirmation, a hand's fault and its return. -/

namespace Sys2Proof.Machine

/-! ## Tempos (R538, R540) -/

/-- Core rail of each tempo on an unaged module, in mV. -/
def unagedMv (t : Nat) : Nat := [520, 560, 610, 655, 700, 750, 800, 850].getD t 0

/-- Rail ceiling of each tempo, in mV. -/
def ceilMv (t : Nat) : Nat := [580, 620, 670, 715, 760, 810, 860, 900].getD t 0

/-- A hand's tempo and pace change; the rail starts to move for a change of tempo (R540), and the change is counted (R548). -/
def setTempo (h tempo pace : Nat) (s : State) : State :=
  let x := getHand s h
  if x.tempo = tempo && x.pace = pace then s
  else modHand h (fun x => { x with
    tempo, pace, changes := satAt 0xFFFF (x.changes + 1),
    changing := if x.tempo = tempo then x.changing else x.changing <|> some x.tempo }) s

/-- `TEMPO_CHANGE_COMPLETE`: the rail has reached the tempo's voltage, and the matched delays leave the longer of the old and
the new settings (R540). -/
def execTempoChangeComplete (hand t : Nat) (s : State) : Host.Outcome State Fault Refusal :=
  if 2 ≤ hand then .fault .noSuchUnit
  else .next (modHand hand (fun x => match x.changing with
    | some _ => { x with changing := none, railMv := x.volts.getD x.tempo (unagedMv x.tempo) }
    | none => x) (atTime t s))

/-! ## Ageing (R556 to R562) -/

/-- The voltage of a tempo and whether it is derated, from the lowest voltage at which every sensor meets its step (R557,
R558). -/
def retuneMv (t raw : Nat) : Nat × Bool :=
  let v := ceilDiv raw 5 * 5
  (min (ceilMv t) (max (unagedMv t) v), decide (ceilMv t < v))

/-- The baseline of a sensor (18 R524 `AGE_BASE`). -/
def ageBase (s : State) (h i : Nat) : Nat := s.setup.ageBase.getD (h * 128 + i) 0

/-- The worst sensor of a hand (R556), the lowest of those that tie; a sensor without a baseline has no ageing. -/
def worstSensor (s : State) (h : Nat) (d : List Nat) : Nat :=
  (List.range 128).foldl (fun w i =>
    if ageBase s h i != 0 && (ageBase s h w == 0 || decide (d.getD w 0 * ageBase s h i < d.getD i 0 * ageBase s h w)) then i
    else w) 0

/-- A sensor's ageing in units of 0.1 %, rounded up (R561). -/
def ageTenths (s : State) (h i : Nat) (d : List Nat) : Nat :=
  let b := ageBase s h i
  if b = 0 || d.getD i 0 ≤ b then 0 else ceilDiv ((d.getD i 0 - b) * 1000) b

/-- A hand's margin in percent (R561). -/
def marginOf (volts : List Nat) : Nat :=
  (List.range 8).foldl (fun m t => min m ((ceilMv t - volts.getD t 0) * 100 / 60)) 100

/-- The ageing monitors take a measurement: the worst of each four sensors (R550 kind 11). -/
def sampleAgeing (h : Nat) (d : List Nat) (s : State) : State :=
  (List.range 32).foldl (fun s k =>
    monSample h (224 + k) ((List.range 4).foldl (fun m i => max m (d.getD (4 * k + i) 0 - ageBase s h (4 * k + i))) 0) s) s

/-- A retune of a hand takes its measurements and tables (R557, R558); `service` marks one in service, which is counted. -/
def retuneHand (h : Nat) (d raw : List Nat) (service : Bool) (s : State) : State :=
  let vs := (List.range 8).map fun t => retuneMv t (raw.getD t 0)
  let volts := vs.map (·.1)
  let bits := sumNat ((List.range 8).map fun t => if ((vs.map (·.2)).getD t false) then 2 ^ t else 0)
  let m := marginOf volts
  let w := worstSensor s h d
  let s := sampleAgeing h d s
  let s := modHand h (fun x => { x with
    sensors := d, volts, derated := bits, margin := m, worst := satAt 0xFF (ageTenths s h w d), worstSensor := w,
    low := decide (m < 25), retuning := false, lastRetune := s.ptp.now,
    retunes := if service then satAt 0xFFFF (x.retunes + 1) else x.retunes,
    railMv := volts.getD x.tempo 0 }) s
  if m = 0 || bits % 32 != 0 then serviceDue h 3 m s else s

/-- `RETUNE_MARGIN` after a retune (R561): below 25 % or with a tempo newly derated, and again only when M has fallen by 5
points more or the bitmap has grown. -/
def tellMargin (h : Nat) (d : List Nat) (old : Nat) (s : State) : State :=
  let x := getHand s h
  let grown (a : Nat) : Bool := (List.range 8).any fun t => bitOf x.derated t && !bitOf a t
  let due := match x.toldMargin with
    | none => decide (x.margin < 25) || grown old
    | some m => decide (x.margin + 5 ≤ m) || grown x.toldMap
  if due then
    notice 0x70 0 0 0 (leBytes 1 h ++ leBytes 1 x.margin ++ leBytes 1 x.worstSensor ++ leBytes 1 x.derated ++
        leBytes 2 (ageTenths s h x.worstSensor d))
      (modHand h (fun x => { x with toldMargin := some x.margin, toldMap := x.derated }) s)
  else s

/-- Nanoseconds between in-service measurements (18 R525 `RETUNE_H`). -/
def retuneNs (s : State) : Nat := orDefault s.setup.settings.retuneH 168 * 3600000000000

/-- `RETUNE_INTERVAL`: the interval of a hand has passed, and its measurement starts unless the other hand's is under way; hand
0 goes first (R559, R560, R563). -/
def execRetuneInterval (hand t : Nat) (s : State) : Host.Outcome State Fault Refusal :=
  if 2 ≤ hand then .fault .noSuchUnit
  else
    let s := atTime t s
    let due (h : Nat) : Bool := let x := getHand s h
      x.mode == .running && !x.retuning && decide (x.lastRetune + retuneNs s ≤ s.ptp.now)
    if s.dev.starting || s.dev.stopped || !due hand || (getHand s (1 - hand)).retuning || (hand = 1 && due 0) then .next s
    else .next (modHand hand (fun x => { x with retuning := true }) s)

/-- `AGEING_MEASUREMENT_DONE`: the sensors have been timed; the new tables are computed and applied, the retune is logged, and
the margin told (R560, R561). -/
def execAgeingMeasurementDone (hand : Nat) (obs : StartObs) (s : State) : Host.Outcome State Fault Refusal :=
  if 2 ≤ hand then .fault .noSuchUnit
  else
    let x := getHand s hand
    if !x.retuning then .next s
    else
      let d := if hand = 0 then obs.sensors0 else obs.sensors1
      let s := retuneHand hand d (if hand = 0 then obs.volts0 else obs.volts1) true s
      let s := logInternal 2 0 0xFF 0 0 (leBytes 1 hand) s
      .next (tellMargin hand d x.derated s)

/-! ## The baton (18 R531 to R534) -/

/-- The device enters Held and says so once (R534). -/
def enterHeld (hand cause : Nat) (s : State) : State :=
  if s.dev.state = .ready || s.dev.state = .baseLoading || s.dev.state = .starting then
    notice 2 0 0 0 (leBytes 1 hand ++ leBytes 1 cause) { s with dev := { s.dev with state := .held } }
  else s

/-- A hand reads both copies of the baton; `ok` says whether it gets an answer in time (R532). -/
def confirmBaton (hand : Nat) (ok : Bool) (s : State) : State :=
  let agree := s.dev.batonValid && s.dev.batonCopies.1 == s.dev.batonCopies.2
  if ok && agree then modHand hand (fun x => { x with confirmed := true }) s
  else enterHeld hand (if ok then 2 else 1) (modHand hand (fun x => { x with confirmed := false }) s)

/-- `BATON_CONFIRM`: every 10 ms a hand confirms the baton (R532); a failure makes the device Held (R534). -/
def execBatonConfirm (hand : Nat) (ok : Bool) (t : Nat) (s : State) : Host.Outcome State Fault Refusal :=
  if 2 ≤ hand then .fault .noSuchUnit
  else
    let s := atTime t s
    if (s.dev.state = .ready || s.dev.state = .baseLoading) && (getHand s hand).mode = .running then
      .next (confirmBaton hand ok s)
    else .next s

/-- `TIMEKEEPER_RESET_TIMEOUT`: the timekeeper hand has been in reset for more than 10 s (R534). -/
def execTimekeeperResetTimeout (t : Nat) (s : State) : Host.Outcome State Fault Refusal :=
  let s := atTime t s
  let x := getHand s s.dev.baton
  if (s.dev.state = .ready || s.dev.state = .baseLoading) && x.mode = .resetting &&
      decide (x.since + 10000000000 < s.ptp.now) then .next (enterHeld s.dev.baton 3 s)
  else .next s

/-! ## A hand's fault and return (20 R575) -/

/-- The partitions that lie wholly or partly on a hand and hold a job. -/
def handParts (s : State) (hand : Nat) : List Nat :=
  (s.parts.filter fun p => p.2.primary.isSome &&
    (p.2.state == .loading || p.2.state == .running || p.2.state == .resting || p.2.state == .quiescing) &&
    (if hand = 0 then decide (p.2.col < 32) else decide (32 < p.2.col + p.2.cols))).map (·.1)

/-- A hand enters reset for a cause (1 watchdog, 2 control store, 3 thermal, 4 PHY): counted, told and logged; its ports go
idle, its partitions fault and its retune is dropped; a second fault within an hour leaves it there (R563, R575, R577).
DESIGN CHOICE: the manual does not say what the core rail does when a tempo change is under way then; the change is dropped,
and the rail keeps the voltage of the tempo that it was leaving until the restart sets it. -/
def faultHand (hand cause : Nat) (s : State) : State :=
  let x := getHand s hand
  if s.dev.starting || s.dev.stopped || x.mode = .resetting then s
  else
    let again := match x.lastFault with
      | some f => decide (s.ptp.now < f + 3600000000000)
      | none => false
    let s := fltCount hand 6 s
    let s := notice 0x82 0 0 0 (leBytes 1 hand ++ leBytes 1 cause) s
    let s := logInternal 3 cHandFault 0xFF 0 0 (leBytes 1 hand ++ leBytes 1 cause) s
    let s := modHand hand (fun x => { x with
      mode := .resetting, confirmed := false, since := s.ptp.now, lastFault := some s.ptp.now, faultCause := cause,
      stuck := again, retuning := false, changing := none,
      flt := { x.flt with resets := if again then x.flt.resets else satAt 0xF (x.flt.resets + 1) } }) s
    let s := (List.range 9).foldl (fun s i =>
      if (getPort s (9 * hand + i)).isUp then portDown (9 * hand + i) s
      else modPort (9 * hand + i) (fun p => { p with state := 0, lanes := 0 }) s) s
    let s := (handParts s hand).foldl (fun s p => faultPart p false cHandFault (getPart s p).row (getPart s p).col s) s
    if again then serviceDue hand 4 0 { s with dev := { s.dev with faultN := true } } else s

/-- `HAND_FAULT`: a watchdog, a control store, a junction or a PHY makes a hand restart (R575). -/
def execHandFault (hand cause t : Nat) (s : State) : Host.Outcome State Fault Refusal :=
  if 2 ≤ hand then .fault .noSuchUnit else .next (faultHand hand cause (atTime t s))

/-- `HAND_RESTART_DONE`: firmware, fuses, retune and PHYs are done; the hand runs again and confirms the baton, and what waited
for its stacks goes on (01 R24). After a thermal cause it waits until its hottest junction reads below 95 °C (R575). -/
def execHandRestartDone (hand : Nat) (obs : StartObs) (s : State) : Host.Outcome State Fault Refusal :=
  if 2 ≤ hand then .fault .noSuchUnit
  else
    let x := getHand s hand
    if x.mode != .resetting || x.stuck || (x.faultCause = 3 && 95 ≤ x.hotC) then .next s
    else
      let s := applyFuses hand (modHand hand (fun x => { x with mode := .running, tempo := 0, pace := 0 }) s)
      let d := if hand = 0 then obs.sensors0 else obs.sensors1
      let s := tellMargin hand d x.derated (retuneHand hand d (if hand = 0 then obs.volts0 else obs.volts1) false s)
      let s := confirmBaton hand (if hand = 0 then obs.confirm0 else obs.confirm1) s
      let s := (List.range 9).foldl (fun s i => beginTraining (9 * hand + i) s) s
      .next ((s.slots.map (·.1)).foldl (fun s i => wakeJob i s) s)

end Sys2Proof.Machine
end

