-- ==== Sys2Proof/Machine/Power.lean ====
section
/-! DEFINITION. Power, temperature, monitors and the log's timers (19 R541 to R553, 21 R590, R591, 17 R507, R508, R516): the control
step at the end of each window, junction readings, periodic samples, and the writing of the change log. -/

namespace Sys2Proof.Machine

/-! ## The control step (R541 to R545) -/

/-- Hand power at a tempo, in W (R538). -/
def handW (t : Nat) : Nat := [95, 135, 185, 250, 320, 400, 490, 580].getD t 0

/-- The eighths below which a hand's pace does not fall at its temperature (R546). -/
def paceFloor (x : Hand) : Nat := if 100 ≤ x.hotC then 4 else 0

/-- `lower` of R543; a hand in reset has no tempo to lower. -/
def lowerHand (h : Nat) (s : State) : State :=
  let x := getHand s h
  let s := { s with pwr := { s.pwr with last := s.ptp.now } }
  if x.mode != .running then s
  else if 0 < x.tempo then setTempo h (x.tempo - 1) x.pace s
  else setTempo h 0 (min (x.pace + 1) 7) s

/-- `raise` of R543. -/
def raiseHand (h : Nat) (s : State) : State :=
  let x := getHand s h
  let s := { s with pwr := { s.pwr with last := s.ptp.now } }
  if 0 < x.pace then setTempo h x.tempo (x.pace - 1) s else setTempo h (x.tempo + 1) 0 s

/-- A hand may be raised within the cap (R543): `p` and `ph` are sums in units of 100 mW over `n` windows, compared exactly. -/
def mayRaise (x : Hand) (p ph n cap : Nat) : Bool :=
  let room := (cap - 10) * 10 * n
  x.mode == .running &&
    if 0 < x.pace then decide (paceFloor x < x.pace) && decide (p * (8 - x.pace) + ph ≤ room * (8 - x.pace))
    else decide (x.tempo < x.ceil) &&
      decide (p * handW x.tempo + ph * (handW (x.tempo + 1) - handW x.tempo) ≤ room * handW x.tempo)

/-- The last ten windows. -/
def lastTen (l : List Nat) (v : Nat) : List Nat := (l ++ [v]).drop ((l ++ [v]).length - 10)

/-- The control step of R543 with the cap in force: `mean` is p100 in units of 100 mW; with timing isolation on, the slower
branches take the budgets (R544). -/
def controlStep (mean : Nat) (s : State) : State :=
  let w := s.pwr
  let cap := w.capW
  let iso := !s.setup.settings.isoOff
  let n := w.wins.length
  let h0 := sumNat (if iso then w.buds0 else w.wins0)
  let h1 := sumNat (if iso then w.buds1 else w.wins1)
  let p := if iso then h0 + h1 + 600 * n else sumNat w.wins
  let now := s.ptp.now
  if 21 * cap < 2 * mean then
    let s := lowerHand 1 (lowerHand 0 s)
    { s with pwr := { s.pwr with hold := now + 1000000 } }
  else if w.hold ≤ now && cap * 10 * n < p then lowerHand (if h0 < h1 then 1 else 0) s
  else if w.hold ≤ now && w.last + 10000000 ≤ now then
    let order := if (getHand s 1).tempo < (getHand s 0).tempo then [1, 0] else [0, 1]
    match order.find? fun h => mayRaise (getHand s h) p (if h = 0 then h0 else h1) n cap with
    | some h => raiseHand h s
    | none => s
  else s

/-- `POWER_CONTROL_WINDOW`: a window of 100 µs ends with its readings: mean input power and hand powers in units of 100 mW, input
voltage in units of 10 mV. A cap that waited takes effect first (R541), then the control step runs (R542, R543). -/
def execPowerControlWindow (t mean hand0 hand1 volts : Nat) (s : State) : Host.Outcome State Fault Refusal :=
  let s := atTime t s
  if s.dev.starting || s.dev.stopped then .next s
  else
    let s := s.pwr.nextCaps.foldl (fun s c => complete c.2 cOk 0 []
      (logChange c.2 0xFF 0 (leBytes 2 c.1) { s with pwr := { s.pwr with capW := c.1 } })) s
    let f := nextFree s
    let g := nextFree f.2
    let b0 := hand0 + Config.freeNat f.1
    let b1 := max (hand1 + Config.freeNat g.1) (mean - 600 - b0)
    let s := g.2
    let w := { s.pwr with
      nextCaps := [], wins := lastTen s.pwr.wins mean, wins0 := lastTen s.pwr.wins0 hand0,
      wins1 := lastTen s.pwr.wins1 hand1, buds0 := lastTen s.pwr.buds0 b0, buds1 := lastTen s.pwr.buds1 b1,
      inputDv := volts / 10, overs := if s.pwr.capW * 10 < mean then satAt 0xFF (s.pwr.overs + 1) else s.pwr.overs }
    let watts (l : List Nat) : Nat := sumNat l / (10 * l.length)
    let w := { w with p1 := watts w.wins, hand0W := watts w.wins0, hand1W := watts w.wins1 }
    let s := monSample 2 1 volts (monSample 2 0 mean { s with pwr := w })
    let s := if (getHand s 0).mode = .running then monSample 0 177 hand0 s else s
    let s := if (getHand s 1).mode = .running then monSample 1 177 hand1 s else s
    .next (controlStep mean s)

/-! ## Junctions (R546, 21 R590, R591) -/

/-- `JUNCTION_TEMPERATURE_SAMPLE`: a junction reads in units of 1/16 °C: the hand's ceiling follows its hottest junction, a hand above
it is lowered at once, `THERM_N` follows, and from 105 °C the hand faults (R546, 21 R590). -/
def execJunctionTemperatureSample (hand sensor temp16 t : Nat) (s : State) : Host.Outcome State Fault Refusal :=
  if 2 ≤ hand then .fault .noSuchUnit
  else
    let s := atTime t s
    let x := getHand s hand
    let temps := x.temps.put sensor temp16
    let hot := (temps.map (·.2)).foldl max 0 / 16
    let ceil := if hot < 95 then 7 else if hot < 100 then 2 else 0
    let s := modHand hand (fun x => { x with temps, hotC := satAt 0x1FF hot, ceil }) s
    let y := getHand s hand
    let s := if ceil < y.tempo || y.pace < paceFloor y then
        setTempo hand (min y.tempo ceil) (max y.pace (paceFloor y)) { s with pwr := { s.pwr with last := s.ptp.now } }
      else s
    let hottest := max s.hands.1.hotC s.hands.2.hotC
    let low := s.dev.thermLatch || decide (100 ≤ hottest) || (s.dev.thermN && decide (95 ≤ hottest))
    let s := { s with dev := { s.dev with thermN := low } }
    .next (if 105 ≤ hot then faultHand hand 3 s else s)

/-! ## Periodic samples (R550, R551) -/

/-- `MONITOR_PERIODIC_SAMPLE`: a live instance of a kind that is not sampled by other steps takes a sample; corrected codewords, holds and
queue fills are the device's own counts (R550, R551). -/
def execMonitorPeriodicSample (block inst value t : Nat) (s : State) : Host.Outcome State Fault Refusal :=
  if 3 ≤ block || 256 ≤ inst then .fault .noSuchUnit
  else
    let s := atTime t s
    let k := monKind block inst
    if !monLive s block inst then .next s
    else if k = 1 then
      .next (monSample block inst value (modHand block (fun x => { x with stepPs := satAt 0xFFF (value / 1000) }) s))
    else if k = 5 || k = 6 || k = 7 || k = 8 then .next (monSample block inst value s)
    else if block < 2 && 193 ≤ inst && inst < 202 then
      let p := 9 * block + (inst - 193)
      .next (monSample block inst (getPort s p).corrected (modPort p (fun q => { q with corrected := 0 }) s))
    else if block < 2 && inst = 203 then
      .next (monSample block inst (getHand s block).holdsMs (modHand block (fun x => { x with holdsMs := 0 }) s))
    else if k = 17 then .next (monSample block inst (ceilDiv (if inst = 8 then s.inq else s.outq).fill 1024) s)
    else .next s

/-! ## The change log's timers (17 R507, R508, R516) -/

/-- `LOG_STAGE_FLUSH`: staged entries are written to flash (R508). While the device seals, the sealing sequence is over with that: the seal
counter has advanced, the device is Sealed, and `SEAL.RETURN` completes (R516). -/
def execLogStageFlush (s : State) : Host.Outcome State Fault Refusal :=
  let s := { logRefusals s with logStaged := 0 }
  match s.dev.state, s.dev.sealWait with
  | .sealing, some w =>
    let s := { s with dev := { s.dev with state := .sealed, sealCounter := s.dev.sealCounter + 1, sealWait := none } }
    .next (complete w cOk 0 [] s)
  | _, _ => .next s

/-- `LOG_SIGNATURE_TIMER`: 4,096 entries, or 10 s, have passed since the first unsigned entry (R508). -/
def execLogSignatureTimer (s : State) : Host.Outcome State Fault Refusal :=
  let late := match s.logSince with
    | some t => decide (t + 10000000000 ≤ s.ptp.now)
    | none => false
  if 4096 ≤ s.logUnsigned || late then .next (logSign s) else .next s

/-- `VERDICT_RUN_ENTRY_CLOSE`: a verdict-run entry covers 1,024 bars or is 1 s old (R507). -/
def execVerdictRunEntryClose (slot : Nat) (s : State) : Host.Outcome State Fault Refusal :=
  if 128 ≤ slot then .fault .noSuchUnit
  else match s.verdictRuns.get slot with
    | some v => .next (if 1024 ≤ v.count || decide (v.since + 1000000000 ≤ s.ptp.now) then logCloseRun slot s else s)
    | none => .next s

end Sys2Proof.Machine
end

