-- ==== Sys2Proof/Machine/Start.lean ====
section
/-! DEFINITION. Starts and what ends in one (18 R519 to R530, R536, 20 R569, 21 R588 to R592, 17 R517, R518): reset, loss of power, the
phases of a start, setup images and boot records, reference clocks, and the maker's procedure. -/

namespace Sys2Proof.Machine

/-! ## Setup images (18 R524 to R527) -/

/-- A key slot that holds no key. -/
def emptyKey (k : List Byte) : Bool := k.all (· == 0)

/-- Every field of a settings block lies in its range (R525). DESIGN CHOICE: R525 names no step for `CAP_MAX_W`; being a cap, and
the start cap by default, it takes the 10 W steps of every cap (19 R541), as `CAP_MIN_W` does. -/
def settingsOk (c : Settings) : Bool :=
  let within (v lo hi : Nat) : Bool := v == 0 || (decide (lo ≤ v) && decide (v ≤ hi))
  let lo := orDefault c.capMinW 250
  let hi := orDefault c.capMaxW 960
  decide (c.ethMode ≤ 2) && decide (c.encap ≤ 2) && decide (c.ptpDomain < 256) && decide (c.vlan < 4096) &&
    within c.retxUs 50 100000 && within c.creditKib 64 8192 && decide (1 ≤ c.levelIn) && decide (c.levelIn ≤ 8192) &&
    decide (1 ≤ c.levelOut) && decide (c.levelOut ≤ 16384) && decide (c.hotGib ≤ 64) && decide (c.kvGib ≤ 96) &&
    decide (c.stageGib ≤ 256) && within c.capMinW 250 960 && lo % 10 == 0 && hi % 10 == 0 && decide (lo ≤ hi) &&
    decide (hi ≤ 960) &&
    (c.capW == 0 || (decide (lo ≤ c.capW) && decide (c.capW ≤ hi) && c.capW % 10 == 0)) && decide (c.batonPref ≤ 1) &&
    (c.ckptGib == 0xFFFF || decide (c.ckptGib ≤ 2048))

/-- The `QUOTAS` of a setup image lie in the ranges of the context's fields (12 R368, R369). -/
def quotasOk (q : Quotas) : Bool :=
  decide (q.reg ≤ 65536) && decide (q.parts ≤ 64) && decide (q.prin ≤ 4096) && q.hot % 65536 == 0 && decide (q.hot < 2 ^ 64) &&
    decide (q.kv < 2 ^ 64) && decide (q.lp < 2 ^ 64) && decide (q.fl < 2 ^ 64) && decide (q.req < 2 ^ 32) &&
    decide (q.sess < 2 ^ 32)

/-- Every field of an image lies in its range, and every reserved byte is zero (R526). -/
def setupRanges (i : SetupImage) : Bool :=
  quotasOk i.quotas &&
  i.resvOk && decide (i.deviceId < 16384) && decide (i.serial < 2 ^ 64) && settingsOk i.settings &&
    decide (i.setupKeys.length ≤ 2) && decide (i.hostKeys.length ≤ 2) && decide (i.baseKeys.length ≤ 4) &&
    i.routes.all (fun r => decide (r.1 < 16384) && decide (r.2 < 2 ^ 32) && r.2 % 4096 == 0 &&
      (hopFields r.2).all fun h => decide (h < 18) || h == 0x1F) &&
    i.topology.all fun t => decide (t.peerDev < 16384) && decide (t.peerPort < 32)

/-- The keys that an image must be signed under: the anchor's, or its own while no anchor is set (R526, R527). -/
def anchorKeys (s : State) (i : SetupImage) : List (List Byte) :=
  (s.anchor.getD i.setupKeys).filter fun k => !emptyKey k

/-- The image holds a controlling-host key where it must, and its signature verifies (R526). -/
def setupSigned (s : State) (i : SetupImage) : Bool :=
  (s.anchor.isNone || i.hostKeys.any fun k => !emptyKey k) && match i.sigKey with
    | some k => (anchorKeys s i).contains k
    | none => false

/-- A valid setup image (R526). -/
def setupValid (s : State) (i : SetupImage) : Bool := setupRanges i && setupSigned s i

/-! ## Boot records (R522, R523) -/

/-- Record A is the one in force. -/
def bootInA (s : State) : Bool :=
  let a := s.nor.bootA
  let b := s.nor.bootB
  a.ok && (!b.ok || decide (b.seq ≤ a.seq))

/-- A boot record is written over the one that is not in force, with the next number (R523). -/
def writeBoot (f : BootRec → BootRec) (s : State) : State :=
  let r := { f (bootNow s) with seq := (bootNow s).seq + 1, ok := true }
  { s with nor := if bootInA s then { s.nor with bootB := r } else { s.nor with bootA := r } }

def setupBank (s : State) (b : Nat) : Option SetupImage := if b = 0 then s.nor.setup0 else s.nor.setup1

def fwBank (s : State) (b : Nat) : Option FwImage := if b = 0 then s.nor.fw0 else s.nor.fw1

def putSetup (b : Nat) (i : SetupImage) (s : State) : State :=
  { s with nor := if b = 0 then { s.nor with setup0 := some i } else { s.nor with setup1 := some i } }

def putFw (b : Nat) (i : FwImage) (s : State) : State :=
  { s with nor := if b = 0 then { s.nor with fw0 := some i } else { s.nor with fw1 := some i } }

/-- The digest of the firmware in use. -/
def fwDigest (s : State) : List Byte := fitTo 64 (((fwBank s (bootNow s).fw).map (·.digest)).getD [])

/-- A firmware image passes its checks (R528): signature and fused minimum. -/
def fwValid (s : State) (i : FwImage) : Bool := i.sigOk && decide (s.dev.fwMinVersion ≤ i.version)

/-! ## The loss of volatile state (R520) -/

/-- Entries that the hub still gathers, of refusals and of commits, join the staging region before all else is lost (17 R507, R508, 16
R484). -/
def flushRuns (s : State) : State :=
  let s := (s.verdictRuns.map (·.1)).foldl (fun s i => logCloseRun i s) s
  s.refuseRuns.foldl (fun s r => logAdd (refusalEntry r) s) { s with refuseRuns := [] }

/-- The machine as a restart leaves it, before the next start: the change log with what was staging, the boot records, the setup
NOR, the fuses and the one-time areas are kept; all else is gone. `reason` is the reason that `READY` will give, `keepTime` whether
the timebase runs on. -/
def restart (reason : Nat) (keepTime : Bool) (s : State) : State :=
  let s := flushRuns s
  let d := s.dev
  let dev : Dev := {
    startReason := reason, pwrOk := d.pwrOk, resetN := d.resetN, faultN := reason == 2 && d.faultN, thermN := d.thermN,
    thermLatch := d.thermLatch, refGl := d.refGl, refEth := d.refEth, sealCounter := d.sealCounter,
    hubRestarts := if reason = 2 then d.hubRestarts else [], ident := d.ident, idKey := d.idKey, agreeKey := d.agreeKey,
    endorse := d.endorse, fwMinVersion := d.fwMinVersion, fusedMac := d.fusedMac, fuses := d.fuses }
  let ptp : Ptp := { now := if keepTime then s.ptp.now else 0 }
  { State.reset with
    pending := s.pending, free := s.free, dev := dev, ptp := ptp, nor := s.nor, anchor := s.anchor, setup := s.setup,
    devKeyGen := s.devKeyGen, log := s.log, logUnsigned := s.logUnsigned, logSince := s.logSince }

/-- `RESET_N_ASSERT`: `RESET_N` has been low for 10 µs (R520, R536). -/
def execResetNAssert (s : State) : Host.Outcome State Fault Refusal :=
  .next (restart 1 false { s with dev := { s.dev with resetN := false } })

/-- `PWR_OK_FALL`: `PWR_OK` is low, which counts as loss of input power, or abandons a start (21 R588, R589). -/
def execPwrOkFall (s : State) : Host.Outcome State Fault Refusal :=
  .next (restart 0 false { s with dev := { s.dev with pwrOk := false } })

/-- `INPUT_POWER_LOSS`: the input leaves its range; the hub writes its staged entries from the hold-up reserve and stops (21 R588).
The latch of `THERM_N` clears with the input (21 R591). -/
def execInputPowerLoss (s : State) : Host.Outcome State Fault Refusal :=
  .next (restart 0 false { s with dev := { s.dev with thermLatch := false, thermN := false } })

/-- `THERMAL_COMPARATOR_TRIP`: a junction has reached 110 °C: the rails go, `THERM_N` latches, and the device acts as for loss of input
power (21 R591). -/
def execThermalComparatorTrip (hand : Nat) (s : State) : Host.Outcome State Fault Refusal :=
  if 2 ≤ hand then .fault .noSuchUnit
  else
    let x := getHand s hand
    let worst := x.temps.foldl (fun (b : Nat × Nat) p => if b.2 < p.2 then p else b) (0, 0)
    let s := notice 0x84 0 0 0 (leBytes 1 hand ++ leBytes 1 worst.1 ++ leBytes 2 (worst.2 / 16)) s
    .next (restart 0 false { s with dev := { s.dev with thermN := true, thermLatch := true } })

/-- `HUB_SELF_RESTART`: an uncorrectable error in hub SRAM, or a failed self-test in service (20 R569): logged, `FAULT_N` asserted, and a
start as `DEVICE.RESET` runs it; a second one within 24 h leaves the device in Starting. -/
def execHubSelfRestart (t : Nat) (s : State) : Host.Outcome State Fault Refusal :=
  let s := atTime t s
  if s.dev.starting || s.dev.stopped then .next s
  else
    let recent := s.dev.hubRestarts.filter fun x => decide (s.ptp.now < x + 86400000000000)
    let s := logInternal 3 0 0xFF 0 0 (leBytes 1 7) (fltCount 2 7 s)
    let s := restart 2 true { s with dev := { s.dev with faultN := true, hubRestarts := recent ++ [s.ptp.now] } }
    .next (if recent.isEmpty then s else { s with dev := { s.dev with starting := false, stopped := true } })

/-! ## Phases of a start (R529, R530) -/

/-- Phase 1, firmware: a staged image that still passes becomes active; its flag is cleared (R529). -/
def takeFw (o : StartObs) (s : State) : State :=
  let b := bootNow s
  if !b.fwStaged then s
  else
    let ok := o.stagedFwOk && match fwBank s (1 - b.fw) with
      | some i => fwValid s i
      | none => false
    let s := { s with dev := { s.dev with fwOutcome := if ok then 1 else 2 } }
    writeBoot (fun r => { r with fw := if ok then 1 - r.fw else r.fw, fwStaged := false }) s

/-- Phase 1, setup image: a staged image that still passes becomes active; its flag is cleared (R529). -/
def takeSetup (s : State) : State :=
  let b := bootNow s
  if !b.cfgStaged then s
  else
    let ok := match setupBank s (1 - b.cfg) with
      | some i => setupValid s i && match setupBank s b.cfg with
        | some old => decide (old.serial < i.serial) || !setupValid s old
        | none => true
      | none => false
    let s := { s with dev := { s.dev with cfgOutcome := if ok then 1 else 2 } }
    writeBoot (fun r => { r with cfg := if ok then 1 - r.cfg else r.cfg, cfgStaged := false }) s

/-- The start fails: the device stays in Starting, its host port down and `FAULT_N` asserted (R529, 20 R564). -/
def failStart (s : State) : State :=
  { s with ethState := 0, dev := { s.dev with state := .starting, starting := false, stopped := true, faultN := true } }

/-- The start entry and the signature entry (R530, 17 R506, R508); its last byte tells a first binding of the anchor (R527). -/
def logStart (first : Bool) (s : State) : State :=
  let d := leBytes 8 s.dev.ident ++ fitTo 64 s.setup.digest ++ fwDigest s ++ leBytes 1 (bit first)
  logSign (logAdd { index := 0, time := 0, kind := 5, cause := 1, prev := [], detail := d } s)

/-- A pool at the top of a tier, with its region (10 R294, R307). -/
def makePool (i tier gib : Nat) (s : State) : State :=
  let size := gib * 2 ^ 30
  match topRange s tier size with
  | none => s
  | some a => setPool { s with regions := s.regions ++ [{ base := a, size := size, kind := 5 }] } i
      { base := a, frames := size / pageBytes }

/-- Quotas at or above the device's capacity of each resource (12 R369). -/
def openQuotas : Quotas :=
  { reg := 65536, hot := 2 ^ 40, kv := 2 ^ 40, lp := 2 ^ 43, fl := 2 ^ 43, req := 1048576, sess := 1048576, parts := 64,
    prin := 4096 }

/-- Phases 2 and 3: retunes with their notices, memory cleared, pools and levels as the setup image gives them; context 0 is
open (R521, R530, 12 R368, 19 R559, R561). -/
def startTables (o : StartObs) (s : State) : State :=
  let c := s.setup.settings
  let s := applyFuses 1 (applyFuses 0 s)
  let s := retuneHand 1 o.sensors1 o.volts1 false (retuneHand 0 o.sensors0 o.volts0 false s)
  let s := { s with
    pwr := { capW := orDefault c.capW (orDefault c.capMaxW 960) },
    inq := { levelKib := c.levelIn }, outq := { levelKib := c.levelOut },
    tenants := [(0, { state := .opened, quotas := openQuotas })] }
  let s := tellMargin 1 o.sensors1 0 (tellMargin 0 o.sensors0 0 s)
  let s := modFlt 0 (fun f => { f with repairLeft := o.repair.getD 0 0 }) s
  let s := modFlt 1 (fun f => { f with repairLeft := o.repair.getD 1 0 }) s
  let s := modFlt 2 (fun f => { f with repairLeft := o.repair.getD 2 0 }) s
  makePool 2 2 (orDefault c.stageGib 64) (makePool 1 1 (orDefault c.kvGib 32) (makePool 0 1 (orDefault c.hotGib 32) s))

/-- Phase 4: Grerdo ports that are not unused train, and the host port negotiates (R530). -/
def startPorts (o : StartObs) (s : State) : State :=
  let s := (List.range 18).foldl (fun s p =>
    if (topoOf s p).unused then modPort p (fun q => { q with unused := true }) s
    else if !s.dev.refGl then s
    else
      let peer := o.peers.getD p (0, 0)
      trainPort p (o.lanes.getD p 0) peer.1 peer.2 s) s
  if s.dev.refEth then { s with ethState := ethTrained s o.eth01 o.eth23 } else s

/-- One bit for each port that is up. -/
def portsUp (s : State) : Nat := sumNat ((List.range 18).map fun p => if (getPort s p).isUp then 2 ^ p else 0)

/-- Phases 5 and 6: the baton is granted and confirmed, and the device enters Ready, or Sealed while the seal counter is odd (R530,
R531, R534, 17 R517). -/
def startReady (o : StartObs) (s : State) : State :=
  let b := s.setup.settings.batonPref
  let s := { s with dev := { s.dev with baton := b, batonCopies := (b, b), batonValid := true, starting := false } }
  let s := confirmBaton 1 o.confirm1 (confirmBaton 0 o.confirm0 s)
  if s.dev.state = .held then s
  else if s.dev.sealCounter % 2 = 1 then { s with dev := { s.dev with state := .sealed, faultN := false } }
  else
    notice 1 0 0 0 (leBytes 1 s.dev.startReason ++ leBytes 1 b ++ leBytes 1 s.dev.cfgOutcome ++
        leBytes 1 s.dev.fwOutcome ++ leBytes 4 o.ms ++ leBytes 4 (portsUp s) ++ (fitTo 64 s.setup.digest).take 16)
      { s with dev := { s.dev with state := .ready, faultN := false } }

/-- `POWER_UP_START`: with `PWR_OK` and `RESET_N` high a start runs its phases (R519, R530). -/
def execPowerUpStart (o : StartObs) (s : State) : Host.Outcome State Fault Refusal :=
  if !s.dev.starting || s.dev.thermLatch then .next s
  else
    let s := { s with dev := { s.dev with pwrOk := true, resetN := true, cfgOutcome := 0, fwOutcome := 0 } }
    if !o.selfTestOk then .next (failStart s)
    else
      let s := takeSetup (takeFw o s)
      if !o.activeFwOk then .next (failStart s)
      else match setupBank s (bootNow s).cfg with
        | none => .next (failStart s)
        | some i =>
          if !setupValid s i then .next (failStart s)
          else
            let first := s.anchor.isNone
            let s := { s with setup := i, anchor := some (i.setupKeys.filter fun k => !emptyKey k) }
            let s := startPorts o (startTables o (logStart first s))
            .next (startReady o (atTime (s.ptp.now + o.ms * 1000000) s))

/-! ## Reference clocks and the maker's procedure -/

/-- `REFCLK_LOSS`: a reference clock is lost or returns: without `REFCLK_GL` every Grerdo port goes down; without `REFCLK_ETH` the host
port does, and the timebase is in holdover (21 R592). -/
def execRefclkLoss (eth lost : Bool) (s : State) : Host.Outcome State Fault Refusal :=
  if eth then
    let s := { s with dev := { s.dev with refEth := !lost } }
    if lost then .next { s with ethState := 0, ptp := { s.ptp with
      state := if s.ptp.state = 0 then 0 else 2, holdFrom := if s.ptp.state = 1 then s.ptp.now else s.ptp.holdFrom } }
    else .next { s with ethState := if ethUp s || s.dev.stopped || s.dev.starting then s.ethState else 1 }
  else
    let s := { s with dev := { s.dev with refGl := !lost } }
    .next ((List.range 18).foldl (fun s p =>
      if !lost then beginTraining p s
      else if (getPort s p).isUp then portDown p s
      else modPort p (fun q => { q with state := 0 }) s) s)

/-- `MAKER_UNSEAL`: in the sealed state, a right answer to the challenge opens the maker's procedure: memory is zeroed, the seal counter
advances to even, and the log holds an unseal entry (17 R518); an exhausted counter stays. -/
def execMakerUnseal (responseOk : Bool) (s : State) : Host.Outcome State Fault Refusal :=
  if s.dev.state != .sealed || s.dev.sealCounter % 2 = 0 || !responseOk || decide (15 ≤ s.dev.sealCounter) then .next s
  else
    let s := { s with dev := { s.dev with sealCounter := s.dev.sealCounter + 1 } }
    let s := logAdd { index := 0, time := 0, kind := 9, prev := [], detail := leBytes 1 s.dev.sealCounter } s
    .next (restart 0 false s)

end Sys2Proof.Machine
end

