-- ==== Sys2Proof/Machine/HostDevice.lean ====
section
/-! DEFINITION. Host commands on the device, its base, contexts, keys, images and log (16 R466: 0x0102 to 0x0105, 0x0501 to 0x0503, 0x0601
to 0x0607). -/

namespace Sys2Proof.Machine

/-! ## The device -/

/-- `DEVICE.RESET`: logged, and a start begins; no completion follows (R466, R485, 18 R519). -/
def execDeviceReset (h : Hdr) (confirm : List Byte) (s : State) : Host.Outcome State Fault Refusal :=
  command h 0x0102 .control false [] (.deviceReset h confirm) (fun w _ s =>
    require (confirm == shake256 8 s.dev.idKey) cFieldRange 16 <|
    .ok (restart 2 true (logChange w 0xFF 0 [] s))) s

/-- `PORT.LEVEL`: the fill level of a queue (15 R450, 18 R525). -/
def execPortLevel (h : Hdr) (queue kib : Nat) (s : State) : Host.Outcome State Fault Refusal :=
  command h 0x0103 .control false [] (.portLevel h queue kib) (fun w _ s =>
    require (queue < 2) cFieldRange anyDetail <|
    require (kib != 0 && kib != 0xFFFFFFFF) cFieldRange anyDetail <|
    require (kib ≤ if queue = 0 then 8192 else 16384) cBounds anyDetail <|
    let q := { (if queue = 0 then s.inq else s.outq) with levelKib := kib }
    let q := { q with above := decide (kib * 1024 < q.fill) }
    changed w 0xFF (leBytes 1 queue ++ leBytes 4 kib) [] (if queue = 0 then { s with inq := q } else { s with outq := q })) s

/-- `PWR.CAP`: a cap within the setup image's limits waits for the end of the control window (19 R541). -/
def execPwrCap (h : Hdr) (watts : Nat) (s : State) : Host.Outcome State Fault Refusal :=
  command h 0x0105 .control false [] (.pwrCap h watts) (fun w _ s =>
    let c := s.setup.settings
    require (watts % 10 = 0) cFieldRange anyDetail <|
    require (orDefault c.capMinW 250 ≤ watts && watts ≤ orDefault c.capMaxW 960) cBounds anyDetail <|
    .ok (accept w { s with pwr := { s.pwr with nextCaps := s.pwr.nextCaps ++ [(watts, w)] } })) s

/-! ## The base (10 R303, 12 R364, 17 R499, R500) -/

/-- The byte range of an extent. -/
def extentEnd (e : Nat × Nat) : Nat := e.1 + e.2 * mappingBytes

/-- Extents lie in tiers 1 to 3, on 2 MiB, apart from one another, and count as many mappings as the manifest says (R500). -/
def extentsOk (m : Manifest) : Bool :=
  let inTier (e : Nat × Nat) : Bool :=
    let t := tierOf e.1
    decide (1 ≤ t) && decide (t ≤ 3) && e.1 % mappingBytes == 0 && e.2 != 0 && decide (extentEnd e ≤ t * 2 ^ 52 + tierLimit t)
  let rec apart : List (Nat × Nat) → Bool
    | [] => true
    | e :: l => l.all (fun f => decide (extentEnd e ≤ f.1) || decide (extentEnd f ≤ e.1)) && apart l
  m.extents.all inTier && apart m.extents && sumNat (m.extents.map (·.2)) == m.mappings && m.mappings != 0 &&
    decide (m.mappings ≤ 524288) && decide (m.extents.length ≤ 64)

/-- The mappings of an image meet their digests, under a key that the setup image lists, and no reserved byte is set (R500). -/
def imageOk (s : State) (m : Manifest) (bytes : List Byte) : Bool :=
  m.resvOk && decide (1 ≤ m.layers.length) && decide (m.layers.length ≤ 256) && (match m.sigKey with
    | some k => !emptyKey k && s.setup.baseKeys.contains k
    | none => false) &&
  bytes.length == m.mappings * mappingBytes && m.mapDigests.length == m.mappings &&
  (List.range m.mappings).all fun i =>
    digest64 ((bytes.drop (i * mappingBytes)).take mappingBytes) == m.mapDigests.getD i []

/-- A region of the current base: one of its extents, or its golden copy in LPDDR. -/
def ofBase (s : State) (r : Region) : Bool := r.kind == 4 || match s.base.bind (·.lpGolden) with
  | some a => r.kind == 5 && r.base == a
  | none => false

/-- The state without the current base: its regions, its golden copy in LPDDR, the promoted copies of their pages and
their bytes. DESIGN CHOICE: the load, which takes the device for itself, zeroes them before it writes. -/
def withoutBase (s : State) : State :=
  let old := s.regions.filter (ofBase s)
  let s := old.foldl (fun s r => dropDescs r s) s
  { s with regions := s.regions.filter (fun r => !old.contains r),
           pages := s.pages.filter (fun p => !old.any fun r => r.holds (pageAddr p.1) 1),
           mem := old.foldl (fun m r => Mem.clear m r.base (r.stop - r.base)) s.mem }

/-- The golden copy in LPDDR is released when the base is replaced, which the log tells (R303, R297). -/
def logGoldenGone (s : State) (t : State) : State :=
  (s.regions.filter fun r => r.kind == 5 && ofBase s r).foldl (fun t r =>
    logInternal 0 0 0xFF r.owner 0 (leBytes 8 r.base ++ leBytes 8 r.size) t) t

/-- The regions of a manifest's extents. -/
def baseRegions (s : State) (m : Manifest) : List Region :=
  m.extents.map fun e => ({ base := e.1, size := e.2 * mappingBytes, kind := 4, large := true, kgen := s.devKeyGen } : Region)

/-- Compatibility classes of an adaptation's places stay as they were, and none is 0 (R364, R365); a private expert keeps some
expert position. -/
def classKept (old new : Manifest) (f : AdaptF) : Bool :=
  if f.kind = 2 then (List.range 64).any fun p => f.layers.all fun l =>
      match old.layers[l]?, new.layers[l]? with
      | some a, some b => a.opens.contains p && b.opens.contains p && a.expertClass.getD p 0 != 0 &&
          a.expertClass.getD p 0 == b.expertClass.getD p 0
      | _, _ => false
  else f.layers.all fun l => layerClass old f l != 0 && layerClass old f l == layerClass new f l

/-- What a load does to the registry (R364). -/
def staleEntries (former : Option Manifest) (new : Manifest) (t : Table Adapt) : Table Adapt :=
  t.map fun p =>
    let a := p.2
    match former with
    | some old =>
      if a.state = .ready && a.baseDigest = old.digest then
        (p.1, { a with state := if classKept old new a.f then .stale else .invalid })
      else if a.state = .ready || a.state = .stale then (p.1, { a with state := .invalid })
      else p
    | none => p

/-- A base is loaded (R303, R364): its mappings and golden copies are written and its manifest is current. -/
def putBase (m : Manifest) (golden : Nat) (bytes : List Byte) (s : State) : State :=
  let former := s.base.map (·.man)
  let s := logGoldenGone s (withoutBase s)
  let s := { s with regions := s.regions ++ baseRegions s m }
  let s := (List.range m.mappings).foldl (fun s i => match mappingAddr m.extents i with
    | some a => storeBoth a ((bytes.drop (i * mappingBytes)).take mappingBytes) s
    | none => s) s
  let copy := if golden = 1 then freeRange s 2 (m.mappings * mappingBytes) mappingBytes else none
  let second (a : Nat) : Region :=
    { base := a, size := m.mappings * mappingBytes, kind := 5, large := true, kgen := s.devKeyGen }
  let s := match copy with
    | some a => storeBoth a bytes { s with regions := s.regions ++ [second a] }
    | none => s
  let flash := (List.range m.mappings).map fun i => (bytes.drop (i * mappingBytes)).take mappingBytes
  { s with base := some { man := m, prev := former, lpGolden := copy, golden := flash, scrubSince := s.ptp.now },
           registry := staleEntries former m s.registry }

/-- The base loading state lasts while the load reads its window (R471). -/
def baseLoadState (h : Hdr) (s : State) : State :=
  let waits := s.winReads.any fun r => r.sess == h.sess && r.ref == h.ref
  if waits && s.dev.state = .ready then { s with dev := { s.dev with state := .baseLoading } }
  else if !waits && s.dev.state = .baseLoading && h.win = 2 then { s with dev := { s.dev with state := .ready } }
  else s

/-- `BASE.LOAD`: a signed base replaces the current one (10 R303, 17 R500). -/
def execBaseLoad (h : Hdr) (man image : Range) (golden : Nat) (m : Manifest) (bytes : List Byte) (s : State) :
    Host.Outcome State Fault Refusal :=
  let again : Instr := .baseLoad { h with win := 2 } man image golden m bytes
  let zero := man.len == 0 || image.len == 0
  let r := command h 0x0104 .control false (if zero then [] else [man, image]) again (fun w snd s =>
    require (rangeLen man && rangeLen image && golden < 2) cFieldRange anyDetail <|
    require (rangeOk snd man && rangeOk snd image) cBounds anyDetail <|
    if zero then answered w [] s
    else
      let bare := withoutBase s
      let laid := { bare with regions := bare.regions ++ baseRegions s m }
      content (extentsOk m) cBounds anyDetail <|
      content (golden = 0 || (freeRange laid 2 (m.mappings * mappingBytes) mappingBytes).isSome) cBounds anyDetail <|
      content (imageOk s m bytes) cSignatureInvalid anyDetail <|
      require (s.slots.all fun p => p.2.state.code < 3) cStateConflict noDetail <|
      content ((baseRegions s m).all fun r => rangeFree bare r.base r.size && outsideStore s r.base r.size) cRegionBusy anyDetail <|
      content (laid.regions.length + bit (golden = 1) ≤ maxRegions) cTableFull anyDetail <|
      changed w 0xFF (fitTo 64 m.digest) (fitTo 64 m.digest) (putBase m golden bytes s)) s
  match r with
  | .next t => .next (baseLoadState h t)
  | o => o

/-! ## Tenant contexts (12 R368 to R370) -/

/-- A host command names a context that exists (R480). -/
def contextOk (c : Nat) : Bool := decide (c < 4096)

/-- `TENANT.OPEN`: a closed context opens with the setup image's quotas, its first principal key and a memory key (R369, 17 R488). -/
def execTenantOpen (h : Hdr) (context : Nat) (key : List Byte) (s : State) : Host.Outcome State Fault Refusal :=
  command h 0x0501 .control false [] (.tenantOpen h context key) (fun w _ s =>
    require (context != 0 && key.length = 57 && !emptyKey key) cFieldRange anyDetail <|
    require (contextOk context) cFieldRange anyDetail <|
    require ((s.tenants.getD context {}).state = .closed) cStateConflict anyDetail <|
    let f := nextFree s
    let t : Tenant := { state := .opened, quotas := s.setup.quotas, keys := [key], key := Config.freeBytes f.1 32 }
    changed w 0xFF (leBytes 2 context ++ prinTag key) [] { f.2 with tenants := f.2.tenants.put context t }) s

/-- Quotas with the fields that a mask names replaced. -/
def maskQuotas (mask : Nat) (q o : Quotas) : Quotas :=
  let pick (i a b : Nat) : Nat := if bitOf mask i then a else b
  { reg := pick 0 q.reg o.reg, hot := pick 1 q.hot o.hot, kv := pick 2 q.kv o.kv, lp := pick 3 q.lp o.lp,
    fl := pick 4 q.fl o.fl, req := pick 5 q.req o.req, sess := pick 6 q.sess o.sess, parts := pick 7 q.parts o.parts,
    prin := pick 8 q.prin o.prin }

/-- `TENANT.QUOTA`: quotas that a mask names are set (R369, R480). -/
def execTenantQuota (h : Hdr) (context mask : Nat) (q : Quotas) (s : State) : Host.Outcome State Fault Refusal :=
  command h 0x0502 .control false [] (.tenantQuota h context mask q) (fun w _ s =>
    let old := (s.tenants.getD context {}).quotas
    let n := maskQuotas mask q old
    let all64 (v : Nat) : Bool := v == 0xFFFFFFFFFFFFFFFF
    require (contextOk context && mask < 512 && n.hot % 65536 = 0 && !all64 n.hot && !all64 n.kv && !all64 n.lp && !all64 n.fl &&
      n.reg != 0xFFFFFFFF && n.req != 0xFFFFFFFF && n.sess != 0xFFFFFFFF && n.parts != 0xFF && n.prin != 0xFFFF)
      cFieldRange anyDetail <|
    require (n.reg ≤ 65536 && n.parts ≤ 64 && n.prin ≤ 4096 && n.hot < 2 ^ 64 && n.kv < 2 ^ 64 &&
      n.lp < 2 ^ 64 && n.fl < 2 ^ 64 && n.req < 2 ^ 32 && n.sess < 2 ^ 32) cBounds anyDetail <|
    require (openCtx s context) cStateConflict anyDetail <|
    changed w 0xFF (leBytes 2 context ++ leBytes 2 mask) [] (modTenant context (fun t => { t with quotas := n }) s)) s

/-- The context owns nothing that must go first (R370, 16 R485). -/
def contextIdle (s : State) (c : Nat) : Bool :=
  !(s.parts.any fun p => p.2.state != .free && p.2.owner == c) &&
    !(s.registry.any fun p => p.2.owner == c && p.2.state != .free) &&
    !(s.reqs.any fun p => p.2.owner == c) && !(s.sess.any fun p => p.2.owner == c)

/-- Sessions of a key that hold a context close (15 R437, 16 R485). -/
def closeKeySessions (c : Nat) (keys : List (List Byte)) (s : State) : State :=
  (s.sessions.filter fun p => keys.contains p.2.prin && p.2.contexts.contains c).foldl (fun s p => closeSession p.1 s) s

/-- `TENANT.CLOSE`: keys are zeroized, regions released and zeroed, and the context is closed (R370); a rotation under way
completes with the close (17 R498). -/
def execTenantClose (h : Hdr) (context : Nat) (s : State) : Host.Outcome State Fault Refusal :=
  command h 0x0503 .control false [] (.tenantClose h context) (fun w _ s =>
    let t := s.tenants.getD context {}
    require (context != 0) cFieldRange anyDetail <|
    require (contextOk context) cFieldRange anyDetail <|
    require (openCtx s context && contextIdle s context) cStateConflict anyDetail <|
    let mine := s.regions.filter fun r => r.owner == context && r.kind != 4 && r.kind != 5
    let s := mine.foldl (fun s r => releaseRegion r s) { s with ckpts := s.ckpts.filter fun c => c.owner != context }
    let s := modTenant context (fun t => { t with
      state := .closing, keys := [], key := [], oldGen := none, closeWaits := t.rotWaits ++ [w],
      closeRanges := mine.map fun r => (r.base, r.stop - r.base) }) s
    .ok (closeZeroed (closeKeySessions context t.keys (accept w s)))) s

/-! ## Principal keys (17 R488) -/

/-- `PRIN.KEY`: a key is enrolled in a context or retired from it; sessions of a retired key close (16 R485, 15 R437). -/
def execPrinKey (h : Hdr) (retire : Bool) (key : List Byte) (s : State) : Host.Outcome State Fault Refusal :=
  command h 0x0605 .holder false [] (.prinKey h retire key) (fun w _ s =>
    let c := h.context
    let t := s.tenants.getD c {}
    require (key.length = 57 && !emptyKey key) cFieldRange anyDetail <|
    require (t.keys.contains key == retire) cStateConflict anyDetail <|
    require (retire || t.keys.length < 16) cTableFull anyDetail <|
    let put (t : Tenant) : Tenant := { t with keys := if retire then t.keys.filter (· != key) else t.keys ++ [key] }
    let s := complete w cOk 0 [] (logChange w 0xFF 0 (leBytes 1 (bit retire) ++ prinTag key) (modTenant c put s))
    .ok (if retire then closeKeySessions c [key] s else s)) s

/-! ## Key rotation (17 R488, R495 to R498) -/

/-- `KEY.ROTATE`: class 0 a context's memory key, 1 a job's link key, 2 the device memory key. -/
def execKeyRotate (h : Hdr) (target cls : Nat) (s : State) : Host.Outcome State Fault Refusal :=
  command h 0x0602 .holderOrControl false [] (.keyRotate h target cls) (fun w snd s =>
    let slotOwner := (getSlot s target).owner
    let authority := if cls = 0 then snd.control || snd.holds target
      else if cls = 1 then snd.control || (target < 128 && (getJob s target).isSome && snd.holds slotOwner)
      else snd.control
    require authority cDenied anyDetail <|
    require (cls < 3) cFieldRange anyDetail <|
    require (if cls = 0 then contextOk target else cls = 2 || target < 128) cFieldRange anyDetail <|
    if cls = 0 then
      let t := s.tenants.getD target {}
      require (t.state = .opened && t.oldGen.isNone) cStateConflict anyDetail <|
      let f := nextFree s
      let s := modTenant target (fun t => { t with
        keyGen := t.keyGen + 1, oldGen := some t.keyGen, key := Config.freeBytes f.1 32, rotWaits := [w] }) f.2
      .ok (retireAll (accept w (logChange w 0xFF 0 (leBytes 2 target ++ leBytes 4 (t.keyGen + 1)) s)))
    else if cls = 2 then
      require s.devOldGen.isNone cStateConflict anyDetail <|
      let s := { s with devKeyGen := s.devKeyGen + 1, devOldGen := some s.devKeyGen, devRotWaits := [w] }
      .ok (retireAll (accept w (logChange w 0xFF 0 (leBytes 2 0xFFFF ++ leBytes 4 s.devKeyGen) s)))
    else match getJob s target with
      | none => .error (cStateConflict, anyDetail)
      | some j =>
        require ((getSlot s target).state = .running && !j.keyAsk && j.oldKeys.isEmpty) cStateConflict anyDetail <|
        let s := modJob target (fun j => { j with keyAsk := true, keyWaits := [w] }) s
        .ok (accept w (logChange w target 0 (leBytes 1 target ++ leBytes 4 (j.keyGen + 1)) s))) s

/-! ## Images (18 R528) -/

/-- `CONFIG.STAGE`: a signed setup image goes to the bank that is not active, and waits for the next start (18 R526, R528). -/
def execConfigStage (h : Hdr) (r : Range) (image : SetupImage) (s : State) : Host.Outcome State Fault Refusal :=
  command h 0x0603 .control false [r] (.configStage { h with win := 2 } r image) (fun w snd s =>
    require (rangeLen r) cFieldRange anyDetail <|
    require (rangeOk snd r) cBounds anyDetail <|
    if r.len = 0 then answered w [] s
    else
      let b := bootNow s
      let newer := match setupBank s b.cfg with
        | some i => decide (i.serial < image.serial)
        | none => true
      require (67602 ≤ r.len) cBounds anyDetail <|
      content (setupRanges image) cFieldRange anyDetail <|
      content (setupSigned s image && newer) cSignatureInvalid anyDetail <|
      changed w 0xFF (fitTo 64 image.digest) (fitTo 64 image.digest)
        (writeBoot (fun b => { b with cfgStaged := true }) (putSetup (1 - b.cfg) image s))) s

/-- `FW.STAGE`: the same for a firmware image (R528). -/
def execFwStage (h : Hdr) (r : Range) (image : FwImage) (s : State) : Host.Outcome State Fault Refusal :=
  command h 0x0604 .control false [r] (.fwStage { h with win := 2 } r image) (fun w snd s =>
    require (rangeLen r) cFieldRange anyDetail <|
    require (rangeOk snd r && r.len ≤ 25165824) cBounds anyDetail <|
    if r.len = 0 then answered w [] s
    else
      content (fwValid s image) cSignatureInvalid anyDetail <|
      changed w 0xFF (fitTo 64 image.digest) (fitTo 64 image.digest)
        (writeBoot (fun b => { b with fwStaged := true }) (putFw (1 - (bootNow s).fw) image s))) s

/-! ## Attestation (17 R501 to R504) -/

def AdState.code : AdState → Nat
  | .free => 0
  | .loading => 1
  | .ready => 2
  | .training => 3
  | .stale => 4
  | .probing => 5
  | .invalid => 6
  | .revoking => 7

/-- A hand as `HANDS` gives it: running, resetting, or held with the device. -/
def handCode (s : State) (hand : Nat) : Nat :=
  if (getHand s hand).mode = .resetting then 1 else if s.dev.state = .held then 2 else 0

/-- A slot's partition lies on a hand that resets (R504). -/
def slotResets (s : State) (i : Nat) : Bool :=
  match slotPart s i with
  | some (p, _) =>
    let q := getPart s p
    (decide (q.col < 32) && (getHand s 0).mode == .resetting) ||
      (decide (32 < q.col + q.cols) && (getHand s 1).mode == .resetting)
  | none => false

/-- The 80 bytes of a score record. -/
def scoreRecord (s : State) (i : Nat) (sl : Slot) : List Byte :=
  let r := slotResets s i
  leBytes 1 i ++ leBytes 1 sl.state.code ++ leBytes 2 sl.owner ++ leBytes 1 (bit r) ++ List.replicate 11 0 ++
    (if r then List.replicate 64 0 else fitTo 64 sl.digest)

/-- Staging state and digest of an image: 1 while its command still reads, 2 staged, 3 refused at the start. -/
def stageField (verifying : Option (List Byte)) (staged : Bool) (outcome : Nat) (digest : List Byte) : Nat × List Byte :=
  match verifying with
  | some d => (1, fitTo 64 d)
  | none => if staged then (2, fitTo 64 digest) else (if outcome = 2 then 3 else 0, List.replicate 64 0)

/-- The setup image, and the firmware image, whose command still reads its window. -/
def verifyingSetup (s : State) : Option (List Byte) := s.winReads.findSome? fun r => match r.cmd with
  | .configStage _ _ i => some i.digest
  | _ => none

def verifyingFw (s : State) : Option (List Byte) := s.winReads.findSome? fun r => match r.cmd with
  | .fwStage _ _ i => some i.digest
  | _ => none

/-- A report without its signature (R501); a tenant view is of context `c`. -/
def reportBytes (s : State) (nonce : List Byte) (tenant : Bool) (c : Nat) : List Byte :=
  let b := bootNow s
  let fw := fwDigest s
  let handFw (i : Nat) : List Byte := if (getHand s i).mode = .resetting then List.replicate 64 0 else fw
  let fs := stageField (verifyingFw s) b.fwStaged s.dev.fwOutcome (((fwBank s (1 - b.fw)).map (·.digest)).getD [])
  let cs := stageField (verifyingSetup s) b.cfgStaged s.dev.cfgOutcome (((setupBank s (1 - b.cfg)).map (·.digest)).getD [])
  let scores := s.slots.filter fun p => decide (2 ≤ p.2.state.code) && (!tenant || p.2.owner == c || p.2.owner == 0)
  let adapts := if tenant then s.registry.filter fun p => p.2.owner == c && p.2.state != .free else []
  leBytes 4 0x4B544154 ++ leBytes 2 1 ++ leBytes 1 (bit tenant) ++ leBytes 1 (bit (!s.setup.settings.isoOff)) ++
    leBytes 2 (if tenant then c else 0) ++ leBytes 2 scores.length ++ leBytes 4 adapts.length ++ fitTo 32 nonce ++
    leBytes 8 s.ptp.now ++ leBytes 8 s.dev.ident ++ fitTo 64 s.dev.idKey ++ fitTo 64 s.dev.agreeKey ++
    fitTo 128 s.dev.endorse ++ fw ++ handFw 0 ++ handFw 1 ++ leBytes 1 s.dev.state.code ++
    leBytes 1 (handCode s 0 + 4 * handCode s 1) ++ leBytes 1 fs.1 ++ leBytes 1 cs.1 ++ leBytes 4 0 ++
    leBytes 8 (logNext s - 1) ++ fs.2 ++ cs.2 ++ fitTo 64 s.setup.digest ++
    fitTo 64 ((s.log.getLast?.map (·.chain)).getD []) ++ fitTo 64 ((s.base.map (·.man.digest)).getD []) ++
    List.replicate 16 0 ++ (scores.flatMap fun p => scoreRecord s p.1 p.2) ++
    adapts.flatMap fun p => leBytes 2 p.1 ++ leBytes 1 p.2.state.code ++ List.replicate 5 0 ++ fitTo 64 p.2.digest

/-- `ATTEST.REPORT`: a signed report of one snapshot goes to the window (R501 to R503). -/
def execAttestReport (h : Hdr) (nonce : List Byte) (view : Nat) (r : Range) (s : State) : Host.Outcome State Fault Refusal :=
  command h 0x0601 .any true [] (.attestReport h nonce view r) (fun w snd s =>
    require (if view = 0 then snd.control else view != 1 || snd.holds h.context) cDenied anyDetail <|
    require (view < 2 && rangeLen r) cFieldRange anyDetail <|
    require (rangeOk snd r) cBounds anyDetail <|
    if r.len = 0 then answered w [] s
    else
      let f := nextFree s
      let bytes := reportBytes s nonce (view == 1) h.context ++ Config.freeBytes f.1 114
      require (bytes.length ≤ r.len) cBounds anyDetail <|
      answered w [] (windowWrite w r.off bytes f.2)) s

/-! ## The change log (17 R510) -/

/-- An entry as a principal sees it: in full, or with its index and chain value only. -/
def entryView (snd : Sender) (e : LogEntry) : List Byte :=
  if snd.control || e.kind = 4 || snd.contexts.contains e.context then e.bytes
  else leBytes 8 e.index ++ leBytes 8 0 ++ leBytes 2 0xFFFF ++ List.replicate 94 0 ++ fitTo 64 e.chain ++ List.replicate 80 0

/-- `LOG.READ`: entries in the principal's view go to the window (R510, R480). -/
def execLogRead (h : Hdr) (first count : Nat) (r : Range) (s : State) : Host.Outcome State Fault Refusal :=
  command h 0x0606 .any true [] (.logRead h first count r) (fun w snd s =>
    let oldest := (s.log.head?.map (·.index)).getD 0
    require (count != 0xFFFF && rangeLen r) cFieldRange anyDetail <|
    require (rangeOk snd r) cBounds anyDetail <|
    if count = 0 || r.len = 0 then answered w [] s
    else
      require (oldest ≤ first && first + count ≤ logNext s && 256 * count ≤ r.len) cBounds anyDetail <|
      answered w [] (windowWrite w r.off (((s.log.drop (first - oldest)).take count).flatMap (entryView snd)) s)) s

/-! ## Sealing (17 R516, R517) -/

/-- Every job stops as in mode 2, and `JOB.START` completes with `CANCELLED`; what waited on the job has completed already (R516). -/
def cancelJobs (s : State) : State :=
  (s.slots.map (·.1)).foldl (fun s i =>
    let s := modJob i (fun j => { j with
      stops := [], ckpts := [], claims := [], probes := [], keyWaits := [], admission := none, reshard := none, heldCpls := [],
      inputs := j.inputs.map fun x => { x with w := none }, releases := j.releases.map fun x => { x with w := none } }) s
    match getJob s i with
    | some j => endJob i cCancelled false (if j.cur.isSome then abortForced i s else s)
    | none => s) s

/-- The tables, memories and keys that a seal clears (R516 orders 3 to 5); flash golden copies and the change log stay. -/
def wipe (s : State) : State :=
  { s with
    mem := [], pages := [], regions := [], zeroing := [], promoQ := [], cores := [], parts := [], slots := [], net := [],
    streams := [], hot := {}, kv := {}, staging := {}, ckpts := [], tenants := [], registry := [], reqs := [], sess := [],
    tokens := [], flows := [], linkWait := [], linger := [], devOldGen := none, devRotWaits := [],
    base := s.base.map fun b => { b with lpGolden := none, reloading := [] } }

/-- `SEAL.RETURN`: pending commands complete with `SEALED`, jobs stop, keys and memories go, and the seal is logged; with the flush of the
log the device is Sealed (R516, `LOG_STAGE_FLUSH`). A rotation under way completes with the seal (R498). -/
def execSealReturn (h : Hdr) (confirm : List Byte) (s : State) : Host.Outcome State Fault Refusal :=
  command h 0x0607 .control false [] (.sealReturn h confirm) (fun w _ s =>
    require (confirm == shake256 16 s.dev.idKey) cFieldRange 16 <|
    let starts := s.slots.filterMap fun p => p.2.job.map fun j => (j.w.sess, j.w.ref)
    let waiting := s.accepted.filter fun a => a.opcode != 0x0602 && !starts.contains (a.sess, a.ref)
    let s := waiting.foldl (fun s a => complete a cSealed noDetail [] (countRefuse a cSealed noDetail s))
      { s with winReads := [], pwr := { s.pwr with nextCaps := [] } }
    let s := cancelJobs s
    let keep := (controlSession s).map (·.1)
    let s := (s.accepted.filter fun a => a.opcode == 0x0602).foldl (fun s a => complete a cOk 0 [] s) s
    let s := (s.sessions.filter fun p => keep != some p.1).foldl (fun s p => closeSession p.1 s) s
    let s := wipe (logInternal 6 0 0xFF 0 0 [] s)
    let s := { s with dev := { s.dev with state := .sealing, sealWait := some w } }
    let s := logAdd { index := 0, time := 0, kind := 9, prev := [], detail := leBytes 1 (s.dev.sealCounter + 1) } s
    .ok (accept w (logSign s))) s

end Sys2Proof.Machine
end

