-- ==== Sys2Proof/Machine/ScoreCode.lean ====
section
/-! DEFINITION. The encodings that a score file holds for a core (03 R79 to R103, 04 R108, R111, 06 R178 to R182, 07 R195): instruction words,
roll descriptors, DMA descriptors, each read with the checks that the load makes of it. -/

namespace Sys2Proof.Machine

/-! ## Reading -/

/-- A breach: the byte offset in the file of the field, and the code it gives (R597). -/
abbrev Issue := Nat × Nat

/-- A breach where a condition holds. -/
def bad (c : Bool) (off code : Nat) : List Issue := if c then [(off, code)] else []

/-- The little-endian number of `n` bytes at a place of a file. -/
def rd (file : List Byte) (off n : Nat) : Nat := leNat ((file.drop off).take n)

/-- A 32-bit word at a place of a file. -/
def rd32 (file : List Byte) (off : Nat) : Word := BitVec.ofNat 32 (rd file off 4)

/-- A range of bytes is zero. -/
def zeros (file : List Byte) (off n : Nat) : Bool := rd file off n == 0

/-! ## Instruction words (R79 to R89) -/

/-- What a load knows of the core's surroundings when it reads an instruction: a ghost score, anchored, rest windows, routes, descriptors
of its plan, roll table. -/
structure CodeCtx where
  ghost : Bool
  anchored : Bool
  windows : Nat
  routes : Nat
  descs : Nat
  rolls : List Roll
  deriving DecidableEq, Repr, Inhabited

/-- Bits [51:0] that a list of fields leaves are zero. -/
def onlyFields (w : Nat) (l : List (Nat × Nat)) : Bool :=
  (List.range 52).all fun i => !bitOf w i || l.any fun f => decide (f.2 ≤ i) && decide (i ≤ f.1)

/-- A count field of `n` bits with limit `top` (R102): all ones, or beyond its buffer. -/
def countBad (n top v : Nat) : List Nat :=
  if v = 2 ^ n - 1 then [cFieldRange] else if top < v then [cBounds] else []

/-- `SCORE_INVALID` where a condition fails. -/
def need (c : Bool) : List Nat := if c then [] else [cScoreInvalid]

/-- Elements that `n` chunks of a lane hold (R96, R109). -/
def chunkElems (fmt n : Nat) : Nat := n * 512 / fmtBits fmt

def ctlOf (w : Nat) : Ctl :=
  { bw := match bitsOf w 57 56 with
      | 0 => .none
      | 1 => .bt
      | 2 => .bc
      | _ => .bs,
    pinv := bitOf w 55, pm := bitsOf w 54 52 }

/-- Control class (R84). -/
def readControl (cx : CodeCtx) (w : Nat) : CoreInsn × List Nat :=
  match bitsOf w 63 58 with
  | 0 => (.nop, need (onlyFields w []))
  | 1 =>
    let xc := bitsOf w 51 47
    let byReg := bitOf w 46
    let count := if byReg then Opnd.reg (bitsOf w 30 26) else .imm (bitsOf w 45 26)
    let body := bitsOf w 25 12
    (.loop xc count body,
     need (onlyFields w (if byReg then [(51, 46), (30, 12)] else [(51, 12)])) ++ need (xc != 0) ++
       (if byReg then [] else countBad 20 1048574 (bitsOf w 45 26)) ++ countBad 14 16382 body ++ need (body != 0))
  | 2 => (.waitBeat (bitsOf w 51 36) (bitOf w 35), need (onlyFields w [(51, 35)]) ++ need (2 ≤ bitsOf w 57 56))
  | 3 => (.rest (bitsOf w 51 46), need (onlyFields w [(51, 46)]) ++ need (bitsOf w 57 56 == 0) ++
      need (!cx.ghost && decide (bitsOf w 51 46 < cx.windows)))
  | _ => (.finish, need (onlyFields w []) ++ need (bitsOf w 57 56 == 0))

/-- Index class (R85). -/
def readIndex (w : Nat) : CoreInsn × List Nat :=
  let xd := bitsOf w 51 47
  let nz := need (xd != 0)
  match bitsOf w 63 58 with
  | 8 => (.xOp xd (bitsOf w 46 42) (bitsOf w 41 37) (bitsOf w 36 33),
      need (onlyFields w [(51, 33)]) ++ nz ++ need (bitsOf w 36 33 ≤ 12))
  | 9 => (.xOpi xd (bitsOf w 46 42) (bitsOf w 41 38) (BitVec.ofNat 32 (bitsOf w 37 6)),
      need (onlyFields w [(51, 6)]) ++ nz ++ need (bitsOf w 41 38 ≤ 12))
  | 10 => (.xSet xd (BitVec.ofNat 32 (bitsOf w 31 0)), need (onlyFields w [(51, 47), (31, 0)]) ++ nz)
  | _ => (.xGet xd (bitsOf w 46 43), need (onlyFields w [(51, 43)]) ++ nz ++ need (bitsOf w 46 43 ≤ 10))

/-- A bound of `m.range` (R86): a register, whose upper bits are reserved, or an immediate. -/
def readBound (w flag hi lo : Nat) : Opnd × List Nat :=
  if bitOf w flag then (.reg (bitsOf w (lo + 4) lo), need (bitsOf w hi (lo + 5) == 0))
  else (.imm (bitsOf w hi lo), countBad 9 256 (bitsOf w hi lo))

/-- Mask class (R86). -/
def readMask (w : Nat) : CoreInsn × List Nat :=
  let d := bitsOf w 51 49
  let nz := need (d != 0)
  match bitsOf w 63 58 with
  | 16 =>
    let rhs := if bitOf w 43 then CmpRhs.imm (BitVec.ofNat 16 (bitsOf w 34 19)) else .reg (bitsOf w 42 38)
    (.mCmp d (bitsOf w 48 44) rhs (bitsOf w 37 35), need (onlyFields w [(51, 19)]) ++ nz ++ need (bitsOf w 37 35 ≤ 5))
  | 17 =>
    let lo := readBound w 48 47 39
    let hi := readBound w 38 37 29
    (.mRange d lo.1 hi.1, need (onlyFields w [(51, 29)]) ++ nz ++ lo.2 ++ hi.2)
  | _ => (.mLogic d (bitsOf w 48 46) (bitsOf w 45 43) (bitsOf w 42 40),
      need (onlyFields w [(51, 40)]) ++ nz ++ need (bitsOf w 42 40 ≤ 4))

/-- The checks of an `ml` (R102, R111, R195). -/
def mlIssues (f : MlF) : List Nat :=
  let mx := fmtIsMx f.wfmt
  let six := f.wfmt == 6 || f.wfmt == 7
  let block := 16 * 2 ^ f.blk
  need (1 ≤ f.wfmt && f.wfmt ≤ 8) ++ countBad 8 128 f.lanes ++ countBad 10 1022 f.cpl ++
    (if f.cpl < f.ck then [cBounds] else []) ++ need (f.spl == mx) ++
    need (!six || (f.ck % 3 == 0 && f.cpl % 3 == 0)) ++ need (!mx || chunkElems f.wfmt f.ck % block == 0) ++
    need (!mx || decide (chunkElems f.wfmt f.cpl ≤ 64 * block))

/-- Matrix class (R87). -/
def readMatrix (cx : CodeCtx) (w : Nat) : CoreInsn × List Nat :=
  match bitsOf w 63 58 with
  | 20 =>
    let f : MlF := ⟨bitsOf w 51 48, bitsOf w 47 46, bitsOf w 45 38, bitsOf w 37 33, bitsOf w 32 21, bitsOf w 20 11,
      bitsOf w 10 1, bitOf w 0⟩
    (.ml f, mlIssues f)
  | 21 =>
    let f : MmF := ⟨bitsOf w 51 48, bitsOf w 47 44, bitOf w 43, bitOf w 42, bitsOf w 41 39, bitsOf w 38 29,
      bitsOf w 28 24, bitsOf w 23 8, bitsOf w 7 0⟩
    (.mm f, need (f.shape ≤ 5) ++ need (1 ≤ f.afmt && f.afmt ≤ 8) ++ countBad 10 512 f.depth ++ countBad 8 254 f.astr)
  | 22 =>
    let f : MdF := ⟨bitsOf w 51 50, bitOf w 49, bitsOf w 48 46, bitsOf w 45 41, bitsOf w 40 25, bitsOf w 24 17, bitsOf w 16 9⟩
    (.md f, need (onlyFields w [(51, 9)]) ++ need (f.dfmt ≤ 2) ++ countBad 8 128 f.lanes ++ countBad 8 254 f.dstr)
  | _ =>
    let f : McF := ⟨bitOf w 51, bitsOf w 50 48, bitsOf w 47 46, bitsOf w 45 38⟩
    (.mc f, need (onlyFields w [(51, 38)]) ++ need (f.dir ≤ 1 && (f.dir == 0 || cx.anchored)) ++ countBad 8 128 f.lanes)

/-- The checks of a `roll` against its descriptor (R182). -/
def rollIssues (cx : CodeCtx) (f : RollF) : List Nat :=
  match cx.rolls[f.rd]? with
  | none => [cScoreInvalid]
  | some r =>
    let used (sel : Nat) : Bool := r.stages.any fun st => (stageUses st).contains sel
    need (used 0 || f.sa == 0) ++ need (used 1 || f.sb == 0) ++ need (used 2 || f.sc == 0) ++
      need (r.outD.isSome || f.sd == 0) ++ need (r.outE.isSome || f.se == 0) ++
      need (!(r.outD.isSome && r.outE.isSome && f.sd == f.se))

/-- Vector class (R88). -/
def readVector (cx : CodeCtx) (w : Nat) : CoreInsn × List Nat :=
  match bitsOf w 63 58 with
  | 34 =>
    let f : RollF := ⟨bitsOf w 51 44, bitsOf w 43 38, bitsOf w 37 32, bitsOf w 31 26, bitsOf w 25 20, bitsOf w 19 14,
      bitsOf w 13 5, bitsOf w 4 2⟩
    (.roll f, need (onlyFields w [(51, 2)]) ++ countBad 9 256 f.vl ++ rollIssues cx f)
  | 35 =>
    let f : VpermF := ⟨bitsOf w 51 46, bitsOf w 45 40, bitsOf w 39 34, bitsOf w 33 25⟩
    (.vperm f, need (onlyFields w [(51, 25)]) ++ countBad 9 256 f.vl)
  | 36 => (.vflag (bitsOf w 51 47) (bitOf w 46), need (onlyFields w [(51, 46)]))
  | op =>
    let f : VmF := ⟨bitsOf w 51 46, bitsOf w 45 37, bitsOf w 36 33, bitsOf w 32 28, bitsOf w 27 12⟩
    (if op = 32 then .vld f else .vst f,
     need (onlyFields w [(51, 12)]) ++ countBad 9 256 f.vl ++ need (f.fmt ≤ 9))

/-- A core or route that a message names (R83, R89). -/
def endIssues (cx : CodeCtx) (kind place : Nat) : List Nat :=
  need (kind ≤ 1) ++ need (kind != 1 || decide (place < cx.routes))

/-- Message and DMA classes (R89). -/
def readMove (cx : CodeCtx) (w : Nat) : CoreInsn × List Nat :=
  match bitsOf w 63 58 with
  | 48 =>
    let f : SendF := ⟨bitsOf w 51 50, bitsOf w 49 40, bitsOf w 39 35, bitsOf w 34 19, bitsOf w 18 10⟩
    (.send f, need (onlyFields w [(51, 10)]) ++ endIssues cx f.dk f.dest ++ countBad 9 256 f.len)
  | 49 =>
    let f : RecvF := ⟨bitsOf w 51 50, bitsOf w 49 40, bitsOf w 39 35, bitsOf w 34 19, bitsOf w 18 10, bitOf w 9, bitsOf w 8 4⟩
    (.recv f, need (onlyFields w [(51, 4)]) ++ endIssues cx f.sk f.src ++ countBad 9 256 f.len)
  | 56 => (.dma (bitsOf w 51 40) (bitsOf w 39 35),
      need (onlyFields w [(51, 35)]) ++ need (bitsOf w 51 40 < cx.descs))
  | _ => (.dmaWait (bitsOf w 51 48), need (onlyFields w [(51, 48)]))

/-- The instruction that a word spells (R82), and the codes of the checks it fails; a reserved opcode spells none, and a `nop` stands
for it. -/
def readInsn (cx : CodeCtx) (w : Nat) : CoreOp × List Nat :=
  let op := bitsOf w 63 58
  let r : CoreInsn × List Nat :=
    if op ≤ 4 then readControl cx w
    else if 8 ≤ op && op ≤ 11 then readIndex w
    else if 16 ≤ op && op ≤ 18 then readMask w
    else if 20 ≤ op && op ≤ 23 then readMatrix cx w
    else if 32 ≤ op && op ≤ 36 then readVector cx w
    else if op = 48 || op = 49 || op = 56 || op = 57 then readMove cx w
    else (.nop, [cScoreInvalid])
  ({ ctl := ctlOf w, insn := r.1 }, r.2)

/-! ## Programs (R76, R83) -/

/-- Where the open loops of a program end, and the instructions that break the nesting: a body that takes in its program's
last word or leaves its enclosing body, a fifth loop, an `end` inside a body. -/
def loopIssues (n : Nat) : List (Nat × CoreInsn) → List Nat → List Nat
  | [], _ => []
  | (i, op) :: l, opened =>
    let opened := opened.filter fun e => decide (i < e)
    match op with
    | .loop _ _ body =>
      let e := i + 1 + body
      (if n ≤ e || opened.any (fun o => decide (o < e)) || 4 ≤ opened.length then [i] else []) ++ loopIssues n l (e :: opened)
    | .finish => (if opened.isEmpty then [] else [i]) ++ loopIssues n l opened
    | _ => loopIssues n l opened

/-- A program of `n` words at a place of the file (R79, R83). -/
def readProgram (cx : CodeCtx) (file : List Byte) (off n : Nat) : List CoreOp × List Issue :=
  let ops := (List.range n).map fun i => readInsn cx (rd file (off + 8 * i) 8)
  let own := (ops.zip (List.range n)).flatMap fun p => p.1.2.map fun c => (off + 8 * p.2, c)
  let loops := (loopIssues n ((List.range n).zip (ops.map fun p => p.1.insn)) []).map fun i => (off + 8 * i, cScoreInvalid)
  let last := match ops.getLast? with
    | some p => bad (p.1.insn != .finish || p.1.ctl.pm != 0 || p.1.ctl.pinv) (off + 8 * (n - 1)) cScoreInvalid
    | none => []
  (ops.map (·.1), own ++ loops ++ last)

/-! ## Rolls (R178 to R182) -/

/-- A stage of seven bytes (R179). -/
def stageOf (w : Nat) : Stage :=
  { opc := bitsOf w 3 0, sub := bitsOf w 7 4, x := bitsOf w 11 8, y := bitsOf w 15 12, z := bitsOf w 19 16, grp := bitsOf w 23 20,
    imm := BitVec.ofNat 32 (bitsOf w 55 24) }

/-- Sub-operations of each opcode (R181). -/
def subLimit (opc : Nat) : Nat := [6, 5, 6, 9, 2, 2, 1, 1, 1, 3].getD opc 0

/-- Which of X, Y and Z an operation uses (R181). -/
def usesXyz (opc sub : Nat) : Bool × Bool × Bool :=
  match opc with
  | 0 => (true, true, sub ≤ 2)
  | 1 => (true, sub ≤ 1, false)
  | 2 => (true, true, true)
  | _ => (true, false, false)

/-- A stage is well formed at its place (R180, R181). -/
def stageOk (s : Nat) (st : Stage) : Bool :=
  let u := usesXyz st.opc st.sub
  let sel (used : Bool) (v : Nat) : Bool :=
    if used then decide (v < 4 + s) || v == 12 || v == 13 else v == 0
  decide (st.opc ≤ 9) && decide (st.sub < subLimit st.opc) && sel u.1 st.x && sel u.2.1 st.y && sel u.2.2 st.z &&
    (if st.opc = 9 then decide (1 ≤ st.grp) && decide (st.grp ≤ 8) else st.grp == 0)

/-- An output field (R178): a stage below `STAGES`, or none. -/
def outOf (b : Nat) : Option (Nat × Bool) := if b % 16 = 15 then none else some (b % 16, bitOf b 4)

def outOk (stages b : Nat) : Bool := decide (b < 32) && (b % 16 == 15 || decide (b % 16 < stages))

/-- A roll descriptor of 64 bytes. -/
def readRoll (file : List Byte) (off : Nat) : Roll × List Issue :=
  let b0 := rd file off 1
  let v := rd file (off + 1) 1
  let d := rd file (off + 2) 1
  let e := rd file (off + 3) 1
  let n := b0 % 16
  let stages := (List.range (min n 8)).map fun i => stageOf (rd file (off + 8 + 7 * i) 7)
  let reduces := ((List.range stages.length).filter fun i => match stages[i]? with
    | some st => st.opc == 9
    | none => false)
  ({ stages, viewA := bitsOf v 1 0, viewB := bitsOf v 3 2, viewC := bitsOf v 5 4, outD := outOf d, outE := outOf e },
   bad (n < 1 || 8 < n || 16 ≤ b0) off cScoreInvalid ++
     bad (1 < bitsOf v 1 0 || 1 < bitsOf v 3 2 || 1 < bitsOf v 5 4 || bitsOf v 7 6 != 0) (off + 1) cScoreInvalid ++
     bad (!outOk n d || (d % 16 == 15 && e % 16 == 15)) (off + 2) cScoreInvalid ++ bad (!outOk n e) (off + 3) cScoreInvalid ++
     bad (!zeros file (off + 4) 4) (off + 4) cScoreInvalid ++
     ((List.range 8).flatMap fun i => bad (if i < n then match stages[i]? with
         | some st => !stageOk i st
         | none => true
       else !zeros file (off + 8 + 7 * i) 7) (off + 8 + 7 * i) cScoreInvalid) ++
     match reduces[2]? with
     | some i => [(off + 8 + 7 * i, cScoreInvalid)]
     | none => [])

/-! ## DMA descriptors (R94 to R96, R102, R291) -/

/-- A descriptor of 32 bytes. -/
def readDesc (file : List Byte) (off : Nat) : Desc × List Issue :=
  let mem := rd file off 8
  let tier := bitsOf mem 55 52
  let lb := rd file (off + 0x16) 1
  let layout := lb % 16
  let fmt := rd file (off + 0x17) 1
  let ctrl := rd file (off + 0x18) 1
  let rowBytes := rd file (off + 0x0C) 4
  let rows := rd file (off + 0x10) 2
  let coreLine := rd file (off + 0x12) 2
  let width := fmtBits fmt / 8
  let lanesBig := layout == 2 && [0, 1, 2, 3, 9].contains fmt && decide (128 * width < rowBytes)
  ({ memAddr := mem % 2 ^ 56, memStride := rd file (off + 8) 4, rowBytes, rows, coreLine,
     coreStride := rd file (off + 0x14) 2, layout, toMem := bitOf lb 4, fmt, queue := bitsOf ctrl 7 6, counter := bitsOf ctrl 3 0,
     xshift := rd file (off + 0x19) 1 },
   bad (2 ^ 56 ≤ mem || 4 ≤ tier || (tier == 0 && decide (2 ^ 22 ≤ mem % 2 ^ 52))) off cScoreInvalid ++
     bad (rowBytes == 0xFFFFFFFF) (off + 0x0C) cFieldRange ++
     bad (rowBytes != 0xFFFFFFFF && (decide (65536 < rowBytes) || lanesBig || (layout == 3 && decide (64 < rowBytes)))) (off + 0x0C)
       cBounds ++
     bad (rows == 0xFFFF) (off + 0x10) cFieldRange ++
     bad (rows != 0xFFFF && (layout == 1 || layout == 3) && decide (128 < rows)) (off + 0x10) cBounds ++
     bad (layout != 0 && coreLine % 16 != 0) (off + 0x12) cScoreInvalid ++
     bad (layout != 0 && rd file (off + 0x14) 2 != 0) (off + 0x14) cScoreInvalid ++
     bad (3 < layout || 32 ≤ lb || (layout == 2 && bitOf lb 4)) (off + 0x16) cScoreInvalid ++
     bad ((layout == 2 && !([0, 1, 2, 3, 9].contains fmt)) || (layout == 3 && !fmtIsMx fmt)) (off + 0x17) cScoreInvalid ++
     bad (bitsOf ctrl 5 4 != 0) (off + 0x18) cScoreInvalid ++ bad (31 < rd file (off + 0x19) 1) (off + 0x19) cScoreInvalid ++
     bad (!zeros file (off + 0x1A) 6) (off + 0x1A) cScoreInvalid)

end Sys2Proof.Machine
end

