-- ==== Sys2Proof/Machine/ScoreFile.lean ====
section
/-! DEFINITION. A score file (02 R27 to R30, R597 to R601): its header, section table and the sections that describe its cores, beats, rest windows,
scaled tensors and memory. Each section is read with the checks that the load makes of it. -/

namespace Sys2Proof.Machine

/-! ## Header and section table (R27 to R29, R598) -/

/-- A section: its type, offset, length, entry count and the place of its entry in the file. -/
structure Section where
  kind : Nat
  off : Nat
  len : Nat
  count : Nat
  ent : Nat
  deriving DecidableEq, Repr, Inhabited

/-- The section table. -/
def readSections (file : List Byte) : List Section :=
  (List.range (min 32 (rd file 6 2))).map fun i =>
    let e := 0x100 + 32 * i
    ⟨rd file e 2, rd file (e + 8) 8, rd file (e + 16) 8, rd file (e + 4) 4, e⟩

/-- The section of a type. -/
def findSection (l : List Section) (kind : Nat) : Option Section := l.find? fun x => x.kind == kind

/-- The header (R27). -/
def headerIssues (ident : Nat) (file : List Byte) : List Issue :=
  let inv (c : Bool) (o : Nat) : List Issue := bad c o cScoreInvalid
  let rows := rd file 0x10 1
  let cols := rd file 0x11 1
  let reps := rd file 0x16 2
  let yields := rd file 0x20 4
  let ghost := rd file 0xB 1 == 1
  inv (rd file 0 4 != 0x4B545343) 0 ++ inv (rd file 4 2 != 2) 4 ++ inv (rd file 6 2 == 0 || decide (32 < rd file 6 2)) 6 ++
    inv (rd file 8 2 != bitsOf ident 63 48) 8 ++ inv (rd file 0xA 1 != bitsOf ident 47 40) 0xA ++ inv (1 < rd file 0xB 1) 0xB ++
    inv (16 ≤ rd file 0xC 4) 0xC ++ inv (rows == 0 || decide (16 < rows)) 0x10 ++ inv (cols == 0 || decide (64 < cols)) 0x11 ++
    inv (!zeros file 0x12 2) 0x12 ++ inv (rd file 0x14 2 == 0 || rd file 0x14 2 == 0xFFFF) 0x14 ++
    inv (reps == 0 || decide (1024 < reps)) 0x16 ++
    inv (if ghost then yields == 0 || decide (1048576 < yields) else yields != 0) 0x20 ++ inv (!zeros file 0x24 28) 0x24 ++
    inv ((file.drop 0x80).take 64 != digest64 (file.drop 0x100)) 0x80 ++ inv (!zeros file 0xC0 64) 0xC0

/-- The bytes of one counted record of a section (R55, R207, R598 to R600). -/
def recordBytes (kind : Nat) : Nat :=
  if kind = 1 then 16 else if kind = 2 || kind = 4 then 8 else if kind = 7 then 128 else if kind = 9 then 32 else 0

/-- The entry count of a section, which its bytes hold (R598). -/
def countOk (cores : Nat) (x : Section) : Bool :=
  if x.len < recordBytes x.kind * x.count then false
  else if x.kind = 1 || x.kind = 2 || x.kind = 4 then x.count == cores
  else if x.kind = 9 then decide (1 ≤ x.count) && decide (x.count ≤ 64)
  else if x.kind = 7 then true
  else x.count == 1

/-- The section table (R28, R29, R598). A section that lacks, and a file of a wrong size, has no field of
its own (16 R464). -/
def tableIssues (file : List Byte) : List Issue :=
  let l := readSections file
  let ghost := rd file 0xB 1 == 1
  let cores := rd file 0x10 1 * rd file 0x11 1
  let stop := 0x100 + 32 * l.length
  let inv (c : Bool) (o : Nat) : List Issue := bad c o cScoreInvalid
  let one (p : Section × Nat) : List Issue :=
    let x := p.1
    let before := l.take p.2
    inv (x.kind == 0 || decide (10 < x.kind) || before.any (fun y => decide (x.kind ≤ y.kind)) || (ghost && x.kind == 9)) x.ent ++
      inv (!zeros file (x.ent + 2) 2) (x.ent + 2) ++ inv (!countOk cores x) (x.ent + 4) ++
      inv (decide (x.off < stop) || before.any fun y => decide (x.off < y.off + y.len) && decide (y.off < x.off + x.len))
        (x.ent + 8) ++
      inv (file.length < x.off + x.len) (x.ent + 8) ++ inv (!zeros file (x.ent + 24) 8) (x.ent + 24)
  let has (k : Nat) : Bool := (findSection l k).isSome
  let lacks := !has 1 || !has 2 || !has 4 || !has 6 || !has 8 || (!has 3 && decide (1 < rd file 0x16 2)) || (has 5 && !has 10)
  ((l.zip (List.range l.length)).flatMap one) ++ inv lacks noDetail ++ inv (2147483648 < file.length) noDetail ++
    inv (file.length < stop) noDetail

/-! ## Cores (R598 to R600, R69) -/

/-- A section is long enough for `n` bytes of records; a shorter one is beyond its bounds at its entry's length. -/
def roomIssue (x : Section) (n : Nat) : List Issue := bad (x.len < n) (x.ent + 16) cBounds

/-- A range that a record names, from the start of its section, lies in the section. -/
def inSection (x : Section) (off len : Nat) : Bool := decide (off + len ≤ x.len)

/-- Zero bytes up to a multiple of `n`. -/
def padTo (n : Nat) (bs : List Byte) : List Byte := bs ++ List.replicate (ceilDiv bs.length n * n - bs.length) 0

/-- What the records of one core name: its program, router flags, roll table and plan, with the image of its score region. -/
def readCore (cx : CodeCtx) (file : List Byte) (pr mr dr : Section) (cols i : Nat) : CoreProg × List Issue :=
  let p := pr.off + 16 * i
  let progOff := rd file p 4
  let insns := rd file (p + 4) 2
  let rolls := rd file (p + 6) 2
  let rollOff := rd file (p + 8) 4
  let d := dr.off + 8 * i
  let planOff := rd file d 4
  let descs := rd file (d + 4) 2
  let progIn := inSection pr progOff (8 * insns)
  let rollIn := inSection pr rollOff (64 * rolls)
  let planIn := inSection dr planOff (32 * descs)
  let m := mr.off + 8 * i
  let flags := rd file m 1
  let rl := if rollIn && rolls ≤ 256 then (List.range rolls).map fun k => readRoll file (pr.off + rollOff + 64 * k) else []
  let ds := if planIn && descs ≤ 4096 then (List.range descs).map fun k => readDesc file (dr.off + planOff + 32 * k) else []
  let cx := { cx with descs := descs, rolls := rl.map (·.1) }
  let pg := if progIn && insns ≤ 16384 then readProgram cx file (pr.off + progOff) insns else ([], [])
  let bytes (o n : Nat) : List Byte := (file.drop o).take n
  let image := padTo 32 (padTo 64 (bytes (pr.off + progOff) (8 * pg.1.length)) ++ bytes (pr.off + rollOff) (64 * rl.length)) ++
    bytes (dr.off + planOff) (32 * ds.length)
  ({ insns := pg.1, rolls := rl.map (·.1), plan := ds.map (·.1), chainHead := bitOf flags 0, colFirst := bitOf flags 1, image },
   bad (progOff % 8 != 0) p cScoreInvalid ++ bad (!progIn) p cBounds ++ bad (insns == 0) (p + 4) cScoreInvalid ++
     bad (16384 < insns) (p + 4) cBounds ++ bad (256 < rolls) (p + 6) cBounds ++
     bad (rollOff % 64 != 0 || (rolls == 0 && rollOff != 0)) (p + 8) cScoreInvalid ++ bad (!rollIn) (p + 8) cBounds ++
     bad (!zeros file (p + 12) 4) (p + 12) cScoreInvalid ++
     bad (4 ≤ flags || (decide (i < cols) && !bitOf flags 0) || !zeros file (m + 1) 7) m cScoreInvalid ++
     bad (planOff % 32 != 0) d cScoreInvalid ++ bad (!planIn) d cBounds ++ bad (4096 < descs) (d + 4) cBounds ++
     bad (!zeros file (d + 6) 2) (d + 6) cScoreInvalid ++ pg.2 ++ rl.flatMap (·.2) ++ ds.flatMap (·.2))

/-- All cores in row-major order (R598). -/
def readCores (cx : CodeCtx) (file : List Byte) (pr mr dr : Section) (rows cols : Nat) : List CoreProg × List Issue :=
  let n := rows * cols
  let l := (List.range n).map fun i => readCore cx file pr mr dr cols i
  (l.map (·.1), l.flatMap (·.2))

/-! ## Beats and rest windows (R601, R55) -/

/-- The beat map. DESIGN CHOICE: the manual names no code for a section longer than its 16 bytes; the bytes beyond are ignored. -/
def readBeats (file : List Byte) (x : Section) (beats : Nat) : (Nat × Nat × Nat × Nat) × List Issue :=
  let b (i : Nat) : Nat := rd file (x.off + 2 * i) 2
  ((b 0, b 1, b 2, b 3),
   roomIssue x 16 ++ bad (b 1 < b 0) (x.off + 2) cScoreInvalid ++ bad (b 2 < b 1) (x.off + 4) cScoreInvalid ++
     bad (b 3 < b 2 || beats ≤ b 3) (x.off + 6) cScoreInvalid ++ bad (!zeros file (x.off + 8) 8) (x.off + 8) cScoreInvalid)

/-- A rest window of 32 bytes. -/
def readWin (file : List Byte) (o : Nat) : RestWin :=
  { first := rd file o 2, stop := rd file (o + 2) 2, row0 := bitsOf (rd file (o + 4) 1) 7 4, row1 := bitsOf (rd file (o + 4) 1) 3 0,
    col0 := rd file (o + 5) 1, col1 := rd file (o + 6) 1, localBase := rd file (o + 8) 4, localSize := rd file (o + 12) 4,
    deepBase := rd file (o + 16) 4, deepSize := rd file (o + 20) 4, yieldLimit := rd file (o + 24) 4 }

/-- Sizes of the two stores of a core (R66). -/
def localBytes : Nat := 1048576
def deepBytes : Nat := 2097152

/-- The checks of R55 on a window; `cores` gives each core's score region, `w0` the first window. -/
def winIssues (file : List Byte) (o rows cols beats : Nat) (cores : List CoreProg) (w0 : RestWin) : List Issue :=
  let w := readWin file o
  let inv (c : Bool) (a : Nat) : List Issue := bad c (o + a) cScoreInvalid
  let resting := (List.range cores.length).filter fun i =>
    decide (w.row0 ≤ i / cols) && decide (i / cols ≤ w.row1) && decide (w.col0 ≤ i % cols) && decide (i % cols ≤ w.col1)
  let clear := resting.all fun i => match cores[i]? with
    | some p => decide (scoreRegionLines p * 64 ≤ w.localBase)
    | none => true
  inv (beats ≤ w.first) 0 ++ inv (w.stop ≤ w.first || beats < w.stop) 2 ++
    inv (w.row1 < w.row0 || rows ≤ w.row1 || w.row0 != w0.row0 || w.row1 != w0.row1) 4 ++
    inv (w.col1 < w.col0 || w.col0 != w0.col0) 5 ++ inv (cols ≤ w.col1 || w.col1 != w0.col1) 6 ++ inv (!zeros file (o + 7) 1) 7 ++
    inv (w.localBase % 65536 != 0 || !clear || w.localBase != w0.localBase) 8 ++
    inv (w.localSize % 65536 != 0 || decide (localBytes < w.localBase + w.localSize) || w.localSize != w0.localSize) 12 ++
    inv (w.deepBase % 65536 != 0 || w.deepBase != w0.deepBase) 16 ++
    inv (w.deepSize % 65536 != 0 || decide (w.deepSize < 196608) || decide (deepBytes < w.deepBase + w.deepSize) ||
      w.deepSize != w0.deepSize) 20 ++
    inv (w.yieldLimit == 0) 24 ++ inv (!zeros file (o + 28) 4) 28

/-- The rest windows. -/
def readRests (file : List Byte) (x : Option Section) (rows cols beats : Nat) (cores : List CoreProg) : List RestWin × List Issue :=
  match x with
  | none => ([], [])
  | some x =>
    let ws := (List.range x.count).map fun i => readWin file (x.off + 32 * i)
    let w0 := ws.headD default
    (ws, (List.range x.count).flatMap fun i => winIssues file (x.off + 32 * i) rows cols beats cores w0)

/-! ## Scaled tensors (R207 to R209) -/

/-- A binding of eight bytes (R208). -/
def readBind (file : List Byte) (o : Nat) : Bind :=
  let sl := rd file (o + 6) 2
  { row := rd file o 1, col := rd file (o + 1) 1, first := rd file (o + 2) 2, lines := rd file (o + 4) 2,
    sline := if sl = 0xFFFF then none else some sl }

/-- A tensor entry of 128 bytes with its bindings (R207). -/
def readTensor (file : List Byte) (x : Section) (i : Nat) : Tensor × List Issue :=
  let o := x.off + 128 * i
  let fmt := rd file o 1
  let mode := rd file (o + 1) 1
  let n := rd file (o + 2) 2
  let bo := rd file (o + 4) 4
  let ok := inSection x bo (8 * n) && decide (n ≤ 16384)
  let inits := (List.range 16).map fun k => rd32 file (o + 64 + 4 * k)
  ({ fmt, headroom := mode % 8, perBlock := bitOf mode 3, initHist := inits,
     binds := if ok then (List.range n).map fun k => readBind file (x.off + bo + 8 * k) else [] },
   bad (fmt == 1 || decide (8 < fmt)) o cScoreInvalid ++ bad (16 ≤ mode || (bitOf mode 3 && !fmtIsMx fmt)) (o + 1) cScoreInvalid ++
     bad (16384 < n) (o + 2) cFieldRange ++ bad (bo % 8 != 0) (o + 4) cScoreInvalid ++ bad (!inSection x bo (8 * n)) (o + 4) cBounds ++
     bad (!zeros file (o + 8) 56) (o + 8) cScoreInvalid ++
     (List.range 16).flatMap fun k => bad (!histOk (rd32 file (o + 64 + 4 * k))) (o + 64 + 4 * k) cScoreInvalid)

/-- A line range lies in the data part of one store of a core (R66, R69). -/
def dataLines (region first n : Nat) : Bool :=
  (decide (region ≤ first) && decide (first + n ≤ 0x4000)) || (decide (0x8000 ≤ first) && decide (first + n ≤ 0x10000))

/-- The checks of R209 on the bindings of all tensors; each comes with its place in the file. -/
def bindIssues (rows cols : Nat) (cores : List CoreProg) (l : List (Bind × Nat)) : List Issue :=
  let same (a b : Bind) : Bool := a.row == b.row && a.col == b.col
  let meets (a b : Bind) : Bool := overlaps (a.first, a.lines) (b.first, b.lines)
  (l.zip (List.range l.length)).flatMap fun p =>
    let b := p.1.1
    let o := p.1.2
    let before := (l.take p.2).map (·.1)
    let region := ((cores[b.row * cols + b.col]?).map scoreRegionLines).getD 0
    let inv (c : Bool) (a : Nat) : List Issue := bad c (o + a) cScoreInvalid
    inv (rows ≤ b.row || 16 ≤ (before.filter (same b)).length) 0 ++ inv (cols ≤ b.col) 1 ++
      inv (!dataLines region b.first b.lines || before.any fun a => same a b && meets a b) 2 ++
      inv (b.lines == 0 || b.lines == 0xFFFF) 4 ++
      inv (match b.sline with
        | some sl => !dataLines region sl 1 || l.any fun a => same a.1 b && overlaps (a.1.first, a.1.lines) (sl, 1)
        | none => false) 6

/-- The scaled tensors. -/
def readScales (file : List Byte) (x : Option Section) (rows cols : Nat) (cores : List CoreProg) : List Tensor × List Issue :=
  match x with
  | none => ([], [])
  | some x =>
    let n := if x.count ≤ 4096 && 128 * x.count ≤ x.len then x.count else 0
    let ts := (List.range n).map fun i => readTensor file x i
    let places := (ts.zip (List.range n)).flatMap fun p =>
      let bo := rd file (x.off + 128 * p.2 + 4) 4
      (List.range p.1.1.binds.length).map fun k => (readBind file (x.off + bo + 8 * k), x.off + bo + 8 * k)
    (ts.map (·.1), bad (4096 < x.count) (x.ent + 4) cScoreInvalid ++ ts.flatMap (·.2) ++
      bindIssues rows cols cores places)

/-! ## Memory (R293, R294, R309) -/

/-- A declared region of 32 bytes. -/
def readPlaced (file : List Byte) (o : Nat) : PlaceReg :=
  let sh := rd file (o + 0x1C) 2
  { base := rd file o 8, size := rd file (o + 8) 8, alt := rd file (o + 16) 8, kind := rd file (o + 0x18) 1,
    large := bitOf (rd file (o + 0x19) 1) 0, fixed := bitOf (rd file (o + 0x19) 1) 1, shard := if sh = 0xFFFF then none else some sh }

/-- The checks of R293, R294 and R319 on a declared region. -/
def placedIssues (file : List Byte) (o shards : Nat) : List Issue :=
  let r := readPlaced file o
  let page := if r.large then mappingBytes else pageBytes
  let paired := r.kind == 1 || r.kind == 2
  let inv (c : Bool) (a : Nat) : List Issue := bad c (o + a) cScoreInvalid
  inv (tierOf r.base == 0 || decide (3 < tierOf r.base) || r.base % page != 0) 0 ++ inv (r.size == 0 || r.size % page != 0) 8 ++
    inv (if paired then decide (r.alt < r.size) || r.alt % page != 0 else r.alt != 0) 16 ++
    bad (6 ≤ r.kind) (o + 0x18) cFieldRange ++ inv (3 ≤ r.kind && r.kind ≤ 5) 0x18 ++ inv (4 ≤ rd file (o + 0x19) 1) 0x19 ++
    inv (!zeros file (o + 0x1A) 2) 0x1A ++
    inv (match r.shard with
      | some sh => r.kind != 2 || decide (shards ≤ sh)
      | none => r.kind == 2) 0x1C ++ inv (!zeros file (o + 0x1E) 1) 0x1E ++ inv (!zeros file (o + 0x1F) 1) 0x1F

/-- The byte range of a declared region (R295). -/
def placeStop (r : PlaceReg) : Nat := r.base + (if r.alt = 0 then r.size else r.alt + r.size)

/-- A promotion entry of 24 bytes (R309). -/
def readPromo (file : List Byte) (o : Nat) : Promo :=
  { addr := rd file o 8, pages := rd file (o + 8) 4, target := rd file (o + 12) 1, lead := rd file (o + 13) 1, hold := rd file (o + 14) 2,
    period := rd file (o + 16) 4, phase := rd file (o + 20) 4 }

/-- The checks of R309; `ranges` are the regions the score may name with whether they hold 2 MiB mappings. -/
def promoIssues (file : List Byte) (o : Nat) (ranges : List (Nat × Nat × Bool)) : List Issue :=
  let p := readPromo file o
  let t := tierOf p.addr
  let stop := p.addr + p.pages * pageBytes
  let real := p.pages != 0 && p.pages != 0xFFFFFFFF
  let here := ranges.find? fun r => decide (r.1 ≤ p.addr) && decide (p.addr < r.2.1)
  let out := t == 0 || decide (3 < t) || decide (t * 2 ^ 52 + tierLimit t < stop) || here.isNone
  let crosses := match here with
    | some r => decide (r.2.1 < stop)
    | none => false
  let align := match here with
    | some r => if r.2.2 then mappingBytes else pageBytes
    | none => pageBytes
  let inv (c : Bool) (a : Nat) : List Issue := bad c (o + a) cScoreInvalid
  bad (real && out) o cBounds ++ inv (real && !out && crosses) 8 ++ inv (p.addr % align != 0) 0 ++
    bad (p.pages == 0xFFFFFFFF) (o + 8) cFieldRange ++ bad (p.target == 0 || 2 < p.target) (o + 12) cFieldRange ++
    inv (t == 1 || (p.target == 2 && t == 2)) 12 ++ bad (p.lead == 0 || 64 < p.lead) (o + 13) cFieldRange ++
    bad (p.hold == 0xFFFF) (o + 14) cFieldRange ++ bad (p.period == 0 || p.period == 0xFFFFFFFF) (o + 16) cFieldRange ++
    inv (p.period ≤ p.phase) 20

/-- The placement plan; `base` are the regions of the loaded base, which every job may name (R299 check 4). -/
def readPlacement (file : List Byte) (x : Section) (shards : Nat) (base : List Region) : (List PlaceReg × List Promo) × List Issue :=
  let n := rd file x.off 2
  let m := rd file (x.off + 2) 2
  let fits := decide (n ≤ 16384) && decide (16 + 32 * n ≤ x.len)
  let n' := if fits then n else 0
  let m' := if fits && m != 0xFFFF && decide (16 + 32 * n + 24 * m ≤ x.len) then m else 0
  let regs := (List.range n').map fun i => readPlaced file (x.off + 16 + 32 * i)
  let ranges := (regs.map fun r => (r.base, placeStop r, r.large)) ++ base.map fun r => (r.base, r.stop, true)
  let at_ (i : Nat) : Nat := x.off + 16 + 32 * n' + 24 * i
  ((regs, (List.range m').map fun i => readPromo file (at_ i)),
   bad (16384 < n) x.off cFieldRange ++ bad (m == 0xFFFF) (x.off + 2) cFieldRange ++ bad (!zeros file (x.off + 4) 12) (x.off + 4) cScoreInvalid ++
     roomIssue x (16 + 32 * n + (if m = 0xFFFF then 0 else 24 * m)) ++
     ((List.range n').flatMap fun i => placedIssues file (x.off + 16 + 32 * i) shards) ++
     (List.range m').flatMap fun i => promoIssues file (at_ i) ranges)

end Sys2Proof.Machine
end

