-- ==== Sys2Proof/Machine/ScoreLinks.lean ====
section
/-! DEFINITION. The sections of a score file that concern more than one core: link routes and reductions (14 R413 to R415, 05 R147 to R149), gathers
(11 R325, R326), ownership (11 R317 to R319) and update coefficients (08 R244 to R247); and the whole file (02 R597). -/

namespace Sys2Proof.Machine

/-! ## Ownership (R317 to R319) -/

/-- The header of `OWNERSHIP`: shards, `DP`, `PP`, `SP`, `VERIFY` and the count of gathers. -/
structure OwnHead where
  shards : Nat := 0
  dp : Nat := 1
  pp : Nat := 1
  sp : Nat := 1
  verify : Nat := 64
  gathers : Nat := 0
  deriving DecidableEq, Repr, Inhabited

/-- Without the section every rank is a data index of its own. -/
def readOwnHead (file : List Byte) (x : Option Section) (reps : Nat) : OwnHead :=
  match x with
  | none => { dp := reps }
  | some x =>
    let f (i : Nat) : Nat := rd file (x.off + 2 * i) 2
    { shards := f 0, dp := f 1, pp := f 2, sp := f 3, verify := orDefault (f 4) 64, gathers := f 5 }

/-- A shard entry of 16 bytes (R318). -/
def readShard (file : List Byte) (o : Nat) : ShardEnt :=
  let k := rd file (o + 2) 2
  { owner := rd file o 2, keeper := if k = 0xFFFF then none else some k, stage := rd file (o + 4) 2, policy := rd file (o + 6) 1,
    bytes := rd file (o + 8) 8 }

/-- The stage of a rank (R315). -/
def stageOfRank (h : OwnHead) (rank : Nat) : Nat := rank / h.sp % h.pp

/-- The checks of R319 on a shard entry. -/
def shardIssues (file : List Byte) (o i reps : Nat) (h : OwnHead) (regs : List PlaceReg) : List Issue :=
  let e := readShard file o
  let mine := regs.filter fun r => r.kind == 2 && r.shard == some i
  let inv (c : Bool) (a : Nat) : List Issue := bad c (o + a) cScoreInvalid
  inv (reps ≤ e.owner || stageOfRank h e.owner != e.stage) 0 ++
    inv (match e.keeper with
      | some k => decide (reps ≤ k) || k == e.owner || stageOfRank h k != e.stage
      | none => false) 2 ++
    bad (1 < e.policy) (o + 6) cFieldRange ++ inv (!zeros file (o + 7) 1) 7 ++
    inv (e.bytes != sumNat (mine.map (·.size)) || mine.isEmpty) 8

/-- The ownership section. A score without `LINK_ROUTES` has no gather descriptors (R413). -/
def readOwnership (file : List Byte) (x : Option Section) (reps : Nat) (regs : List PlaceReg) : List ShardEnt × List Issue :=
  match x with
  | none => ([], [])
  | some x =>
    let h := readOwnHead file (some x) reps
    let v := rd file (x.off + 8) 2
    let n := if 32 + 16 * h.shards ≤ x.len then h.shards else 0
    ((List.range n).map fun i => readShard file (x.off + 32 + 16 * i),
     roomIssue x (32 + 16 * h.shards) ++ bad (h.shards == 0) x.off cScoreInvalid ++
       bad (h.dp == 0 || 1024 < h.dp) (x.off + 2) cFieldRange ++ bad (h.dp * h.pp * h.sp != reps) (x.off + 2) cScoreInvalid ++
       bad (h.pp == 0 || 64 < h.pp) (x.off + 4) cFieldRange ++ bad (h.sp == 0 || 64 < h.sp) (x.off + 6) cFieldRange ++
       bad ((v != 0 && decide (v < 8)) || v == 0xFFFF) (x.off + 8) cFieldRange ++ bad (4096 < h.gathers) (x.off + 10) cFieldRange ++
       bad (!zeros file (x.off + 12) 20) (x.off + 12) cScoreInvalid ++
       (List.range n).flatMap fun i => shardIssues file (x.off + 32 + 16 * i) i reps h regs)

/-! ## Link routes (R413 to R415) -/

/-- The header of `LINK_ROUTES`: counts and offsets of routes, reductions and gathers. -/
structure LinkHead where
  routes : Nat := 0
  reds : Nat := 0
  gathers : Nat := 0
  routeOff : Nat := 0
  redOff : Nat := 0
  gatherOff : Nat := 0
  deriving DecidableEq, Repr, Inhabited

/-- The header; a count whose entries pass its limit or its section counts none. -/
def readLinkHead (file : List Byte) (x : Option Section) : LinkHead :=
  match x with
  | none => {}
  | some x =>
    let ro := rd file (x.off + 8) 4
    let eo := rd file (x.off + 12) 4
    let go := rd file (x.off + 16) 4
    let cut (n top off size : Nat) : Nat := if n ≤ top && inSection x off (size * n) then n else 0
    { routes := cut (rd file x.off 2) 1024 ro 16, reds := cut (rd file (x.off + 2) 2) 16384 eo 32,
      gathers := cut (rd file (x.off + 4) 2) 4096 go 32, routeOff := ro, redOff := eo, gatherOff := go }

/-- The checks of R413. -/
def linkHeadIssues (file : List Byte) (x : Section) (gathers : Nat) : List Issue :=
  let o := x.off
  let part (cnt top off size : Nat) : List Issue :=
    let n := rd file (o + cnt) 2
    let a := rd file (o + off) 4
    bad (top < n) (o + cnt) cFieldRange ++ bad (a % 32 != 0) (o + off) cScoreInvalid ++
      bad (n ≤ top && !inSection x a (size * n)) (o + off) cBounds
  roomIssue x 32 ++ part 0 1024 8 16 ++ part 2 16384 12 32 ++ part 4 4096 16 32 ++
    bad (rd file (o + 4) 2 != gathers) (o + 4) cScoreInvalid ++ bad (!zeros file (o + 6) 2) (o + 6) cScoreInvalid ++
    bad (!zeros file (o + 0x14) 12) (o + 0x14) cScoreInvalid

/-- A route entry of 16 bytes with its rank table (R414, R415). -/
def readRoute (file : List Byte) (x : Section) (reps o : Nat) : Route :=
  let rmap := rd file (o + 4) 4
  let kind := rd file o 1
  let table := (kind == 0 || kind == 2) && rmap != 0xFFFFFFFF && inSection x rmap (2 * reps)
  { kind, hand := rd file (o + 1) 1, target := rd file (o + 2) 2,
    ranks := if table then some ((List.range reps).map fun i => rd file (x.off + rmap + 2 * i) 2) else none,
    prio := rd file (o + 8) 1 }

/-- A source-list entry (R148). -/
def readSource (w : Nat) : Source := if bitsOf w 31 30 = 0 then .chain (bitsOf w 29 24) (bitsOf w 15 0) else .route (bitsOf w 9 0)

/-- A reduction descriptor of 32 bytes with its source list (R147). -/
def readRed (file : List Byte) (x : Section) (o : Nat) : Reduction :=
  let n := rd file (o + 4) 2
  let so := rd file (o + 12) 4
  let ok := decide (n ≤ 4096) && inSection x so (4 * n)
  { elements := rd file o 4, mode := rd file (o + 6) 1, out := rd file (o + 7) 1, tensor := rd file (o + 8) 2,
    dest := rd file (o + 10) 2, sources := if ok then (List.range n).map fun i => readSource (rd file (x.off + so + 4 * i) 4) else [] }

/-- The checks of R414 and R415 on a route; `named` says that its target's source list names it. -/
def routeIssues (file : List Byte) (x : Section) (reps rows cols reds sp o : Nat) (named : Bool) : List Issue :=
  let r := readRoute file x reps o
  let rmap := rd file (o + 4) 4
  let inv (c : Bool) (a : Nat) : List Issue := bad c (o + a) cScoreInvalid
  let target := if r.kind ≤ 1 then decide (1024 ≤ r.target) || decide (rows ≤ r.target / 64 % 16) || decide (cols ≤ r.target % 64)
    else if r.kind = 2 then decide (reds ≤ r.target) || !named
    else r.target != 0
  bad (4 < r.kind) (o + 0) cFieldRange ++ inv (r.kind == 1 && sp == 1) 0 ++ bad (1 < r.hand) (o + 1) cFieldRange ++
    inv (r.kind ≤ 4 && target) 2 ++
    inv (if r.kind = 0 || r.kind = 2 then rmap != 0xFFFFFFFF && (rmap % 2 != 0 || !inSection x rmap (2 * reps)) else rmap != 0) 4 ++
    bad (5 < r.prio) (o + 8) cFieldRange ++ inv (!zeros file (o + 9) 7) 9 ++
    match r.ranks with
    | some t => (List.range reps).flatMap fun i =>
        bad (reps ≤ t.getD i 0 && t.getD i 0 != 0xFFFF) (x.off + rmap + 2 * i) cScoreInvalid
    | none => []

/-- A route that some core's `send` names. -/
def sentByCores (cores : List CoreProg) (route : Nat) : Bool :=
  cores.any fun p => p.insns.any fun op => match op.insn with
    | .send f => f.dk == 1 && f.dest == route
    | _ => false

/-- A route source of a reduction as the reductions that feed it have it (R149). -/
def feedOk (reds : List Reduction) (d : Reduction) (route : Nat) : Bool :=
  reds.all fun f => f.dest != route ||
    (f.elements == d.elements &&
      (if d.mode = 2 then !(f.out == 3 && f.tensor != d.tensor)
       else if d.mode = 0 then f.out == 1 || f.out == 3 else f.out != 1))

/-- The checks of R147 to R149 and R237 on reduction `i`. -/
def redIssues (file : List Byte) (x : Section) (o i cols routes tensors : Nat) (reds : List Reduction) : List Issue :=
  let d := readRed file x o
  let n := rd file (o + 4) 2
  let so := rd file (o + 12) 4
  let inv (c : Bool) (a : Nat) : List Issue := bad c (o + a) cScoreInvalid
  let entry (p : Source × Nat) : List Issue :=
    let a := x.off + so + 4 * p.2
    let w := rd file a 4
    let twice := (d.sources.take p.2).contains p.1
    let broken := match p.1 with
      | .chain c _ => bitsOf w 23 16 != 0 || decide (cols ≤ c) ||
          (List.range reds.length).any fun k => decide (k < i) && match reds[k]? with
            | some q => q.sources.contains p.1
            | none => false
      | .route r => bitsOf w 29 16 != 0 || bitsOf w 15 10 != 0 || decide (routes ≤ r) || !feedOk reds d r
    bad (1 < bitsOf w 31 30) a cFieldRange ++ bad (twice || broken) a cScoreInvalid
  bad (d.elements == 0xFFFFFFFF) o cFieldRange ++ bad (n == 0 || 4096 < n) (o + 4) cFieldRange ++ bad (2 < d.mode) (o + 6) cFieldRange ++
    bad (3 < d.out) (o + 7) cFieldRange ++ inv ((d.mode < 2 && d.out == 3) || (d.dest == 0xFFFE && d.out != 0 && d.out != 3)) 7 ++
    inv (if d.tensor = 0xFFFF then d.mode == 2 else decide (tensors ≤ d.tensor)) 8 ++
    bad (1024 ≤ d.dest && d.dest != 0xFFFE) (o + 10) cFieldRange ++ inv (d.dest < 1024 && routes ≤ d.dest) 10 ++
    inv (so % 4 != 0) 12 ++ bad (n ≤ 4096 && !inSection x so (4 * n)) (o + 12) cBounds ++ inv (!zeros file (o + 16) 16) 16 ++
    (d.sources.zip (List.range d.sources.length)).flatMap entry

/-! ## Gathers (R325, R326) -/

/-- A gather descriptor of 32 bytes. -/
def readGather (file : List Byte) (o : Nat) : Gather :=
  let opt (v : Nat) : Option Nat := if v = 0xFFFF then none else some v
  { shard := rd file o 2, check := opt (rd file (o + 2) 2), region := rd file (o + 4) 2, beat := rd file (o + 6) 2,
    offset := rd file (o + 8) 8, bytes := rd file (o + 16) 4, route := opt (rd file (o + 0x14) 2), mask := rd file (o + 0x16) 1,
    dest := rd file (o + 0x18) 8 }

/-- The checks of R326 on a gather. DEDUCED: one whose route leads into a reduction completes the load with `SCORE_INVALID` too, since
no gathered byte enters a reduction except through a core's products (R329). -/
def gatherIssues (file : List Byte) (o : Nat) (routes : List Route) (beats : Nat) (shards : List ShardEnt) (regs : List PlaceReg) (gs : List Gather) : List Issue :=
  let g := readGather file o
  let inv (c : Bool) (a : Nat) : List Issue := bad c (o + a) cScoreInvalid
  let checked := match g.check with
    | none => true
    | some k => match gs[k]? with
      | some f => f.shard == g.shard && f.check.isNone && decide (f.beat ≤ g.beat)
      | none => false
  let reg := regs[g.region]?
  let regOk := match reg with
    | some r => r.kind == 2 && r.shard == some g.shard
    | none => false
  let destOk := match g.route with
    | some _ => g.dest == 0
    | none => tierOf g.dest == 1 && regs.any fun r => r.kind == 0 && decide (r.base ≤ g.dest) && decide (g.dest + g.bytes ≤ r.base + r.size)
  inv (shards.length ≤ g.shard) 0 ++ inv (!checked) 2 ++ inv (!regOk) 4 ++ inv (beats ≤ g.beat) 6 ++ inv (g.offset % 4 != 0) 8 ++
    bad (g.bytes == 0xFFFFFFFF) (o + 16) cFieldRange ++
    inv (g.bytes != 0xFFFFFFFF && (g.bytes % 4 != 0 || match reg with
      | some r => decide (r.size < g.offset + g.bytes)
      | none => false)) 16 ++
    inv (match g.route with
      | some r => match routes[r]? with
        | some rt => rt.kind == 2
        | none => true
      | none => false) 0x14 ++
    inv (4 ≤ g.mask || (bitOf g.mask 0 && match shards[g.shard]? with
      | some e => e.policy == 1
      | none => false)) 0x16 ++
    inv (!zeros file (o + 0x17) 1) 0x17 ++ inv (!destOk) 0x18

/-- What `LINK_ROUTES` gives. -/
structure LinkPart where
  routes : List Route := []
  reds : List Reduction := []
  gathers : List Gather := []
  deriving DecidableEq, Repr, Inhabited

/-- The link section. -/
def readLinks (file : List Byte) (x : Option Section) (reps rows cols beats tensors : Nat) (own : OwnHead) (shards : List ShardEnt)
    (regs : List PlaceReg) (cores : List CoreProg) : LinkPart × List Issue :=
  match x with
  | none => ({}, [])
  | some x =>
    let h := readLinkHead file (some x)
    let at_ (off size i : Nat) : Nat := x.off + off + size * i
    let routes := (List.range h.routes).map fun i => readRoute file x reps (at_ h.routeOff 16 i)
    let reds := (List.range h.reds).map fun i => readRed file x (at_ h.redOff 32 i)
    let gathers := (List.range h.gathers).map fun i => readGather file (at_ h.gatherOff 32 i)
    let named (i t : Nat) : Bool := match reds[t]? with
      | some d => d.sources.contains (.route i)
      | none => false
    let mixed (i : Nat) : Bool := sentByCores cores i && reds.any fun d => d.dest == i
    ({ routes, reds, gathers },
     linkHeadIssues file x own.gathers ++
       ((List.range h.routes).flatMap fun i => routeIssues file x reps rows cols h.reds own.sp (at_ h.routeOff 16 i)
          (named i ((routes[i]?).map (·.target) |>.getD 0)) ++ bad (mixed i) (at_ h.routeOff 16 i) cScoreInvalid) ++
       ((List.range h.reds).flatMap fun i => redIssues file x (at_ h.redOff 32 i) i cols h.routes tensors reds) ++
       (List.range h.gathers).flatMap fun i => gatherIssues file (at_ h.gatherOff 32 i) routes beats shards regs gathers)

/-! ## Coefficients (R244 to R247) -/

/-- A group entry of 64 bytes (R245). -/
def readGroup (file : List Byte) (o : Nat) : Group :=
  let w (a : Nat) : Word := rd32 file (o + a)
  let rule := rd file (o + 0x20) 1
  { cg := w 0, cm := w 4, b1 := w 8, b2 := w 12, eta := w 16, lambda := w 20, eps := w 24, clip := w 28, phi := bitsOf rule 1 0,
    psi := bitsOf rule 3 2, phiSrc := bitOf rule 4, mstate := rd file (o + 0x21) 1, wstate := rd file (o + 0x22) 1,
    shardMode := rd file (o + 0x23) 1, gmax := w 0x24, sched := rd file (o + 0x28) 1, warm := rd file (o + 0x2C) 4,
    decay := rd file (o + 0x30) 4, etaMin := w 0x34, factor := w 0x38 }

/-- A word above zero, infinity included. -/
def above0 (w : Word) : Bool := Num.lt (.fin false 0 0) (num32 w)

/-- A word from 0 to 1. -/
def inUnit (w : Word) : Bool := finite32 w && !Num.lt (num32 w) (.fin false 0 0) && !Num.lt (.fin false 1 0) (num32 w)

/-- The checks of R245 and R247 on a group. -/
def groupIssues (file : List Byte) (o : Nat) : List Issue :=
  let g := readGroup file o
  let rule := rd file (o + 0x20) 1
  let inv (c : Bool) (a : Nat) : List Issue := bad c (o + a) cScoreInvalid
  inv (!finite32 g.cg) 0 ++ inv (!finite32 g.cm) 4 ++ inv (!finite32 g.b1) 8 ++ inv (!finite32 g.b2) 12 ++ inv (!finite32 g.eta) 16 ++
    inv (!finite32 g.lambda) 20 ++ inv (!finite32 g.eps || (g.phi != 2 && g.eps != 0)) 24 ++ inv (!above0 g.clip) 28 ++
    bad (g.phi == 3 || g.psi == 3) (o + 0x20) cFieldRange ++ inv (32 ≤ rule) 0x20 ++ bad (2 < g.mstate) (o + 0x21) cFieldRange ++
    bad (1 < g.wstate) (o + 0x22) cFieldRange ++ bad (2 < g.shardMode) (o + 0x23) cFieldRange ++
    inv ((g.shardMode == 1 || g.shardMode == 2) && !(finite32 g.gmax && above0 g.gmax)) 0x24 ++ bad (3 < g.sched) (o + 0x28) cFieldRange ++
    inv (!zeros file (o + 0x29) 3) 0x29 ++ inv ((g.sched == 2 || g.sched == 3) && g.decay == 0) 0x30 ++ inv (!inUnit g.etaMin) 0x34 ++
    inv (!inUnit g.factor) 0x38 ++ inv (!zeros file (o + 0x3C) 4) 0x3C

/-- A tensor entry of 48 bytes (R246). -/
def readEntry (file : List Byte) (o : Nat) : Entry :=
  let n := rd file (o + 0x2E) 2
  { wBase := rd file o 8, tBase := rd file (o + 8) 8, mBase := rd file (o + 16) 8, alt := rd file (o + 24) 8,
    elements := rd file (o + 0x20) 4, rFirst := rd file (o + 0x24) 4, red := rd file (o + 0x28) 2, group := rd file (o + 0x2A) 1,
    shard := rd file (o + 0x2C) 2, norm := if n = 0xFFFF then none else some n }

/-- The planes of an entry: base and bytes of one buffer (R246). -/
def entryPlanes (gs : List Group) (e : Entry) : List (Nat × Nat) :=
  match gs[e.group]? with
  | none => [(e.wBase, 4 * e.elements)]
  | some g => [(e.wBase, 4 * e.elements)] ++ (if g.wstate = 0 then [(e.tBase, 2 * e.elements)] else []) ++
      (if g.mstate = 1 then [(e.mBase, 4 * e.elements)] else if g.mstate = 2 then [(e.mBase, 2 * e.elements)] else [])

/-- Both buffers of every plane of an entry. -/
def entryRanges (gs : List Group) (e : Entry) : List (Nat × Nat) :=
  (entryPlanes gs e).flatMap fun p => [p, (p.1 + e.alt, p.2)]

/-- Some range of one list meets one of another, empty ranges left out. -/
def anyMeets (a b : List (Nat × Nat)) : Bool :=
  a.any fun p => b.any fun q => p.2 != 0 && q.2 != 0 && overlaps p q

/-- Two ranges of one list meet. -/
def selfMeets : List (Nat × Nat) → Bool
  | [] => false
  | p :: l => anyMeets [p] l || selfMeets l

/-- The checks of R247 and R238 on an entry; `before` are the entries in front of it. -/
def entryIssues (file : List Byte) (o shards : Nat) (gs : List Group) (reds : List Reduction) (regs : List PlaceReg)
    (before : List Entry) : List Issue :=
  let e := readEntry file o
  let g := gs[e.group]?
  let red := reds[e.red]?
  let inv (c : Bool) (a : Nat) : List Issue := bad c (o + a) cScoreInvalid
  let mine := regs.filter fun r => r.kind == 2 && r.shard == some e.shard
  let inRegion (p : Nat × Nat) : Bool := mine.any fun r => decide (r.base ≤ p.1) && decide (p.1 + p.2 ≤ r.base + r.size)
  let baseBad (b n : Nat) : Bool := b % 64 != 0 || tierOf b == 0 || decide (3 < tierOf b) || (n != 0 && !inRegion (b, n))
  let hasT := (g.map fun g => g.wstate == 0).getD true
  let mBytes := (g.map fun g => if g.mstate = 1 then 4 else if g.mstate = 2 then 2 else 0).getD 0
  let planes := e.wBase :: ((if hasT then [e.tBase] else []) ++ if mBytes = 0 then [] else [e.mBase])
  let altBad := e.alt == 0 || e.alt % 65536 != 0 ||
    mine.any fun r => r.alt != e.alt && planes.any fun b => decide (r.base ≤ b) && decide (b < r.base + r.size)
  let own := entryRanges gs e
  let meets := selfMeets own || before.any fun q => anyMeets own (entryRanges gs q)
  let twice := before.any fun q => q.red == e.red && e.elements != 0 && q.elements != 0 && overlaps (q.rFirst, q.elements) (e.rFirst, e.elements)
  let unlike := before.any fun q => q.shard == e.shard && match gs[q.group]?, g with
    | some a, some b => a.shardMode != b.shardMode || (a.shardMode != 0 && a.gmax != b.gmax)
    | _, _ => false
  inv (baseBad e.wBase (4 * e.elements) || meets) 0 ++ inv (g.isSome && if hasT then baseBad e.tBase (2 * e.elements) else e.tBase != 0) 8 ++
    inv (g.isSome && if mBytes = 0 then e.mBase != 0 else baseBad e.mBase (mBytes * e.elements)) 16 ++ inv altBad 24 ++
    bad (e.elements == 0xFFFFFFFF) (o + 0x20) cFieldRange ++
    bad (e.elements != 0xFFFFFFFF && match red with
      | some d => decide (d.elements < e.rFirst + e.elements)
      | none => false) (o + 0x24) cBounds ++ inv twice 0x24 ++
    inv (match red with
      | some d => d.dest != 0xFFFE
      | none => true) 0x28 ++
    inv (g.isNone || unlike) 0x2A ++ inv (!zeros file (o + 0x2B) 1) 0x2B ++ inv (shards ≤ e.shard) 0x2C

/-- The update coefficients: groups if the section is there, and tensor entries. -/
def readCoeffs (file : List Byte) (x : Option Section) (shards : Nat) (reds : List Reduction) (regs : List PlaceReg) :
    (Option (List Group) × List Entry) × List Issue :=
  match x with
  | none => ((none, []), [])
  | some x =>
    let n := rd file x.off 2
    let m := rd file (x.off + 4) 4
    let fits := decide (n ≤ 256) && decide (m ≤ 1048576) && decide (16 + 64 * n + 48 * m ≤ x.len)
    let n' := if fits then n else 0
    let m' := if fits then m else 0
    let gAt (i : Nat) : Nat := x.off + 16 + 64 * i
    let eAt (i : Nat) : Nat := x.off + 16 + 64 * n' + 48 * i
    let gs := (List.range n').map fun i => readGroup file (gAt i)
    let es := (List.range m').map fun i => readEntry file (eAt i)
    ((some gs, es),
     roomIssue x (16 + 64 * n + 48 * m) ++ bad (n == 0) x.off cScoreInvalid ++ bad (256 < n) x.off cFieldRange ++
       bad (!zeros file (x.off + 2) 2) (x.off + 2) cScoreInvalid ++ bad (1048576 < m) (x.off + 4) cFieldRange ++
       bad (!zeros file (x.off + 8) 8) (x.off + 8) cScoreInvalid ++
       ((List.range n').flatMap fun i => groupIssues file (gAt i)) ++
       (List.range m').flatMap fun i => entryIssues file (eAt i) shards gs reds regs (es.take i))

/-! ## The whole file (R597) -/

/-- The content of a file whose header and section table pass, with every breach of its content. -/
def readScore (file : List Byte) (base : List Region) : Score × List Issue :=
  let l := readSections file
  let sec (k : Nat) : Section := (findSection l k).getD default
  let rows := rd file 0x10 1
  let cols := rd file 0x11 1
  let beats := rd file 0x14 2
  let reps := rd file 0x16 2
  let flags := rd file 0xC 4
  let ghost := rd file 0xB 1 == 1
  let own := readOwnHead file (findSection l 10) reps
  let links := readLinkHead file (findSection l 3)
  let windows := ((findSection l 9).map (·.count)).getD 0
  let cx : CodeCtx := { ghost, anchored := bitOf flags 3, windows, routes := links.routes, descs := 0, rolls := [] }
  let cores := readCores cx file (sec 1) (sec 2) (sec 4) rows cols
  let beat := readBeats file (sec 8) beats
  let rests := readRests file (findSection l 9) rows cols beats cores.1
  let scales := readScales file (findSection l 7) rows cols cores.1
  let place := readPlacement file (sec 6) own.shards base
  let shards := readOwnership file (findSection l 10) reps place.1.1
  let link := readLinks file (findSection l 3) reps rows cols beats scales.1.length own shards.1 place.1.1 cores.1
  let noGather : List Issue := match findSection l 3, findSection l 10 with
    | none, some x => bad (own.gathers != 0) (x.off + 10) cScoreInvalid
    | _, _ => []
  let coeff := readCoeffs file (findSection l 5) shards.1.length link.1.reds place.1.1
  ({ ghost, strict := bitOf flags 0, lookahead := bitOf flags 1, permFaults := bitOf flags 2, anchored := bitOf flags 3, rows, cols, beats,
     replicas := reps, bars := rd file 0x18 8, yieldSteps := rd file 0x20 4, baseDigest := (file.drop 0x40).take 64, cores := cores.1,
     inputBeat := beat.1.1, exchangeBeat := beat.1.2.1, updateBeat := beat.1.2.2.1, drainBeat := beat.1.2.2.2, rests := rests.1,
     tensors := scales.1, hasLinks := (findSection l 3).isSome, routes := link.1.routes, reductions := link.1.reds,
     gathers := link.1.gathers, groups := coeff.1.1, entries := coeff.1.2, regions := place.1.1, promos := place.1.2, shards := shards.1,
     dp := own.dp, pp := own.pp, sp := own.sp, verify := own.verify },
   cores.2 ++ beat.2 ++ rests.2 ++ scales.2 ++ place.2 ++ shards.2 ++ link.2 ++ noGather ++ coeff.2)

/-- The lowest place among the breaches that give a code. -/
def lowestWith (code : Nat) (l : List Issue) : Option Nat :=
  (l.filter fun i => i.2 == code).foldl (fun (b : Option Nat) i => match b with
    | none => some i.1
    | some o => some (min o i.1)) none

/-- The code and place that a load reports (R597): the first stage's, else the first code of the second in the order of R481. -/
def scoreVerdict (ident : Nat) (base : List Region) (file : List Byte) : Except (Nat × Nat) Score :=
  let first := headerIssues ident file ++ tableIssues file
  match lowestWith cScoreInvalid first with
  | some o => .error (cScoreInvalid, o)
  | none =>
    let r := readScore file base
    match [cFieldRange, cBounds, cScoreInvalid].findSome? fun c => (lowestWith c r.2).map fun o => (c, o) with
    | some e => .error e
    | none => .ok r.1

/-! ## Commands (16 R466, R473) -/

/-- A command names a slot that its sender may act on (R482): the holder of the slot's owner; a controlling host meets an index out of range or an
empty slot at a later step. -/
def slotAuth (snd : Sender) (s : State) (slot : Nat) : Bool :=
  if slot < 128 && (getSlot s slot).state != .empty then snd.holds (getSlot s slot).owner else snd.control

/-- A slot that a load may use: an empty one is anybody's. -/
def loadAuth (snd : Sender) (s : State) (slot : Nat) : Bool :=
  (decide (slot < 128) && (getSlot s slot).state == .empty) || slotAuth snd s slot

/-- The slot is Loading while the load reads its window, and Empty again when the load is refused (R473). -/
def loadingState (h : Hdr) (slot : Nat) (s : State) : State :=
  let waits := s.winReads.any fun r => r.sess == h.sess && r.ref == h.ref
  if waits && (getSlot s slot).state = .empty then modSlot slot (fun sl => { sl with state := .loading, owner := h.context }) s
  else if !waits && h.win = 2 && (getSlot s slot).state = .loading then modSlot slot (fun _ => {}) s
  else s

/-- `SCORE.LOAD`: a file is checked and, where nothing breaks a rule, held in the slot (R27 to R32, R597). -/
def execScoreLoad (h : Hdr) (slot : Nat) (r : Range) (file : List Byte) (s : State) : Host.Outcome State Fault Refusal :=
  let res := command h 0x0201 .holder false [r] (.scoreLoad { h with win := 2 } slot r file) (fun w snd s =>
    let here := (getSlot s slot).state
    require (loadAuth snd s slot || (h.win = 2 && here == .loading)) cDenied anyDetail <|
    require (rangeLen r) cFieldRange anyDetail <|
    require (slot < 128) cFieldRange anyDetail <|
    require (rangeOk snd r) cBounds anyDetail <|
    if r.len = 0 then answered w [] s
    else
      let file := fitTo r.len file
      match scoreVerdict s.dev.ident (s.regions.filter fun q => q.kind == 4) file with
      | .error e => .error (e.1 + contentCode, e.2)
      | .ok sc =>
        require (here == .empty || (h.win = 2 && here == .loading)) cStateConflict anyDetail <|
        let d := digest64 file
        let put (_ : Slot) : Slot := { state := .loaded, score := some sc, digest := d, owner := h.context }
        changed w slot d d (modSlot slot put s)) s
  match res with
  | .next t => .next (if slot < 128 then loadingState h slot t else t)
  | o => o

/-- `SCORE.UNLOAD`: a Loaded slot is empty again (R473). -/
def execScoreUnload (h : Hdr) (slot : Nat) (s : State) : Host.Outcome State Fault Refusal :=
  command h 0x0202 .holder false [] (.scoreUnload h slot) (fun w snd s =>
    require (slotAuth snd s slot) cDenied anyDetail <|
    require (slot < 128) cFieldRange anyDetail <|
    require ((getSlot s slot).state = .loaded) cStateConflict anyDetail <|
    changed w slot (getSlot s slot).digest [] (modSlot slot (fun _ => {}) s)) s

end Sys2Proof.Machine
end

