-- ==== Sys2Proof/Machine/HostJobs.lean ====
section
/-! DEFINITION. Host commands on jobs (16 R466: 0x0203 to 0x020A): start, stop, bind, admit, re-shard, norm records, checkpoints and
inputs, with their checks in the order of R481. -/

namespace Sys2Proof.Machine

/-! ## Content of a start -/

/-- The fields of a slot descriptor are in range (12 R351). -/
def slotDescOk (d : SlotDesc) : Bool :=
  tierOf d.window == 1 && offsetOf d.window % mappingBytes == 0 && d.wsize != 0 && d.wsize % mappingBytes == 0 &&
    decide (d.sclass ≤ 3) && decide (d.site ≤ (if d.sclass = 2 then 63 else 15)) && decide (d.fmt ≤ 8) &&
    (d.limit == 0 || d.sclass == 0 || d.sclass == 3)

/-- The fields of a generation block are in range (13 R373). -/
def genBlockOk (g : GenBlock) : Bool :=
  decide (1 ≤ g.rows) && decide (g.rows ≤ 4095) && decide (1 ≤ g.chunk) && decide (g.chunk ≤ 256) && decide (1 ≤ g.kvPages) &&
    decide (g.kvPages ≤ 16384) && decide (pageBytes ≤ g.pageBytes) && decide (g.pageBytes ≤ 1024 * pageBytes) &&
    g.pageBytes % pageBytes == 0 && tierOf g.kvBase == 2 && offsetOf g.kvBase % mappingBytes == 0 && tierOf g.rowBase == 1 &&
    offsetOf g.rowBase % pageBytes == 0

/-- The fields of a start that have ranges (R480, 07 R233, R351, R373). -/
def startFieldsOk (f : StartF) (reps : Option Nat) : Bool :=
  !f.reservedBad && (match reps with
    | some n => decide (f.rank < n)
    | none => true) && (f.timeoutMs == 0 || decide (10 ≤ f.timeoutMs)) && decide (f.timeoutMs ≤ 600000) &&
    f.report != 0xFFFF && decide (6 ≤ f.shadowK) && decide (f.shadowK ≤ 16) && decide (8 ≤ f.shadowT) &&
    decide (f.shadowT ≤ 20) && f.slotList.all slotDescOk && ((f.gen.map genBlockOk).getD true)

/-- The extents of a start: holding sizes in GiB (08 R259), list counts (R480), row plan (R374), shards of the training list. -/
def startExtentsOk (f : StartF) (shards : Nat) : Bool :=
  decide (f.hold.getD 0 0 ≤ 16) && decide (f.hold.getD 1 0 ≤ 64) && decide (f.hold.getD 2 0 ≤ 256) &&
    decide (f.slotList.length ≤ 4096) && decide (f.training.length ≤ 65536) && !f.shortLists &&
    ((f.gen.map fun g => g.plan.all fun e => match e with
      | some a => decide (a < f.slotList.length)
      | none => true).getD true) &&
    f.training.all fun t => t.shards.all fun sh => decide (sh < shards)

/-- Every tensor entry of a shard that the rank owns is fed by a reduction that runs in this device (08 R235). -/
def entriesFed (sc : Score) (rank : Nat) : Bool := sc.entries.all fun t => match sc.shards[t.shard]? with
  | some e => e.owner != rank || match sc.reductions[t.red]? with
      | some d => d.dest == 0xFFFE && !(redSequence sc rank d).isEmpty
      | none => false
  | none => true

/-- A score reads the flags of its data into an index register (17 R513). -/
def readsFlags (sc : Score) : Bool := sc.cores.any fun p => p.insns.any fun i => match i.insn with
  | .vflag xd _ => xd != 0
  | _ => false

/-! ## Compatible scores (11 R339) -/

/-- What R339 compares of a shard's tensor entries. -/
def shardShape (sc : Score) (sh : Nat) : List (Nat × Nat × Nat × Nat) :=
  (shardEntries sc sh).map fun e => match entryGroup sc e.2 with
    | some g => (e.2.group, g.wstate, g.mstate, e.2.elements)
    | none => (e.2.group, 0, 0, e.2.elements)

/-- A kind-2 region of a new score equals the old one of its shard, or overlaps nothing of the old score. -/
def placeCompatible (old : Score) (r : PlaceReg) : Bool :=
  r.kind != 2 || old.regions.any (fun q => q.kind == 2 && q.shard == r.shard && q.base == r.base && q.size == r.size && q.alt == r.alt) ||
    !old.regions.any fun q => decide (q.base < placeStop r) && decide (r.base < placeStop q)

/-- The part of R339 that concerns the base, the shards and their regions. -/
def sameShards (old new : Score) : Bool :=
  old.baseDigest == new.baseDigest && old.shards.length == new.shards.length &&
    (List.range old.shards.length).all (fun i => shardShape old i == shardShape new i) &&
    new.regions.all (placeCompatible old)

/-- A score may take over from another (R339). -/
def compatible (old new : Score) : Bool :=
  sameShards old new && old.tensors.map (·.fmt) == new.tensors.map (·.fmt)

/-! ## Restores (R477) -/

/-- The checkpoint that a start names, as far as it can be found. -/
def restoreOf (s : State) (f : StartF) : Option Ckpt := match f.restore with
  | .none => none
  | .store id => s.ckpts.find? fun c => c.ident == id
  | .window _ c => c

/-- The start restores. -/
def restores (f : StartF) : Bool := match f.restore with
  | .none => false
  | _ => true

/-- The sender may name the checkpoint of the store that a start restores (R482): a controlling host meets a missing one later. -/
def restoreAuth (s : State) (snd : Sender) (f : StartF) : Bool := match f.restore with
  | .store _ => (match restoreOf s f with
      | some c => snd.holds c.owner
      | none => snd.control)
  | _ => true

/-- The window range of a restore. -/
def restoreWin (f : StartF) : List Range := match f.restore with
  | .window r _ => [r]
  | _ => []

/-- The window ranges of a start: its lists and its restore (R463, R466). -/
def startWins (f : StartF) : List Range := f.lists ++ restoreWin f

/-- A checkpoint suits a start (R477). Of R339's compatibility the tensors' count and formats are left to R227, which
the saved numeric state follows and which refuses that state alone [DEDUCED, log 31]. -/
def ckptSuits (s : State) (f : StartF) (sc : Score) (digest : List Byte) (c : Ckpt) : Bool :=
  c.job == f.job && c.rank == f.rank && c.replicas == sc.replicas && c.baseDigest == sc.baseDigest &&
    (c.scoreDigest == digest || match scoreByDigest s c.scoreDigest with
      | some old => sameShards old sc
      | none => false)

/-! ## `JOB.START` -/

/-- Adaptations that a tenant lists for training are ones it holds (R482). -/
def trainAuth (s : State) (snd : Sender) (f : StartF) : Bool := f.training.all fun t => match s.registry.get t.adapt with
  | some a => snd.control || snd.holds a.owner
  | none => snd.control

/-- Every adaptation listed for training is ready, unbound and the job owner's; a restore also takes one that a job lost before
its write-back left training (12 R363). -/
def trainReady (s : State) (owner : Nat) (f : StartF) : Bool := f.training.all fun t => match s.registry.get t.adapt with
  | some a =>
    let left := restores f && a.state == .training && ((a.trainSlot.bind (getJob s)).isNone)
    (a.state == .ready || left) && a.bound == 0 && a.owner == owner
  | none => false

/-- No page that the training copies read is poisoned (20 R570). -/
def trainReadable (s : State) (f : StartF) : Bool := f.training.all fun t => match s.registry.get t.adapt with
  | some a => (adaptPages a).all fun n => !(getPage s n).poison
  | none => true

/-- Everything that a job reserves at its start: regions of `PLACEMENT`, slot and key/value windows. -/
def startRegions (s : State) (slot owner rank : Nat) (f : StartF) (sc : Score) : List Region :=
  placedRegions s slot owner rank sc ++ windowRegions s slot owner f

/-- The resources of a start or of a spare's admission (10 R296, 02 R48, 12 R368), and the effect where they are there. -/
def withPlace (slot owner rank : Nat) (f : StartF) (sc : Score)
    (k : Option (Nat × Nat × Nat) → Except (Nat × Nat) State) (s : State) : Except (Nat × Nat) State :=
  let regs := startRegions s slot owner rank f sc
  content (regionsApart s regs) cRegionBusy anyDetail <|
  content (addHolding slot owner f { s with regions := s.regions ++ regs }).isSome cRegionBusy anyDetail <|
  match (if sc.ghost then some none else (findOrigin s sc f.origin).bind fun o => (freePartNo s).map fun p => some (p, o)) with
  | none => .error (cNoPartition + contentCode, anyDetail)
  | some place =>
    let t := s.tenants.getD owner {}
    content (place.isNone || decide (t.partUsed < t.quotas.parts)) cQuotaExceeded anyDetail <|
    content (s.regions.length + regs.length + 3 ≤ maxRegions) cTableFull anyDetail <|
    k place

/-- The checks of a start behind its authority, for a slot that holds a score (R481). -/
def startBody (w : Wait) (snd : Sender) (f : StartF) (sc : Score) (s : State) : Except (Nat × Nat) State :=
  let slot := f.slot
  let sl := getSlot s slot
  let regs := startRegions s slot sl.owner f.rank f sc
  let ck := restoreOf s f
  require (startExtentsOk f sc.shards.length && regs.all regionInTier && (startWins f).all (rangeOk snd)) cBounds anyDetail <|
  if (restoreWin f).any fun r => r.len == 0 then answered w [] s
  else
    content (entriesFed sc f.rank && (s.setup.settings.isoOff || !readsFlags sc)) cScoreInvalid anyDetail <|
    content (match f.restore, ck with
      | .window _ none, _ => false
      | _, some c => c.digestOk
      | _, none => true) cSignatureInvalid anyDetail <|
    content (sl.state == .loaded && (!restores f || ck.isSome) && trainReady s sl.owner f &&
      (ck.map (ckptSuits s f sc sl.digest)).getD true) cStateConflict anyDetail <|
    content (trainReadable s f) cDataLost anyDetail <|
    withPlace slot sl.owner f.rank f sc (fun place =>
      let s := beginStart slot sl.owner w f sc place ck (accept w s)
      let s := match getJob s slot with
        | some j => if drawsKey sc j && sc.replicas != 1 then sendKeys slot s else s
        | none => s
      .ok (takeHeldColl slot s)) s

/-- `JOB.START`: a Loaded score's job starts; the command completes when the job ends (R466, R473, R475). -/
def execJobStart (h : Hdr) (f : StartF) (s : State) : Host.Outcome State Fault Refusal :=
  command h 0x0203 .holder false (startWins f) (.jobStart { h with win := 2 } f) (fun w snd s =>
    let sl := getSlot s f.slot
    require (slotAuth snd s f.slot && trainAuth s snd f && restoreAuth s snd f) cDenied anyDetail <|
    require (startFieldsOk f (sl.score.map (·.replicas)) && (startWins f).all rangeLen) cFieldRange anyDetail <|
    match sl.score with
    | some sc => startBody w snd f sc s
    | none =>
      require (f.slot < 128) cFieldRange anyDetail <|
      require (startExtentsOk f 0 && (startWins f).all (rangeOk snd)) cBounds anyDetail <|
      .error (cStateConflict + contentCode, anyDetail)) s

/-! ## `JOB.STOP` (R475, R485) -/

/-- The newest bar already opened, if any. -/
def newestOpened (j : Job) : Option Nat := match j.ahead, j.cur with
  | some r, _ => some r.bar
  | none, some r => some r.bar
  | none, none => if j.runs != 0 then some j.nextBar else j.done

/-- The bar whose verdict a stop waits for: that of the first stop of its mode that is pending, else the bar it names, else the bar
that is open. -/
def stopAfter (j : Job) (mode after : Nat) : Nat := match j.stops.find? fun x => x.mode == mode with
  | some x => x.after
  | none => if mode = 1 then after else (j.cur.map (·.bar)).getD 0

/-- A stop that is recorded takes effect in the state the slot is in (R475, R485, 17 R491). -/
def applyStop (slot mode : Nat) (s : State) : State :=
  match getJob s slot, (getSlot s slot).score with
  | some j, some sc =>
    let run (s : State) : State :=
      if mode = 2 then endJob slot cOk j.stopCkpt (abortForced slot s)
      else if j.cur.isNone && (mode = 0 || stopDue sc j) then endJob slot cOk j.stopCkpt s
      else modSlot slot (fun sl => { sl with state := if sl.state = .running then .stopping else sl.state }) s
    match (getSlot s slot).state with
    | .starting => endJob slot cOk false s
    | .faulted => endJob slot (j.fault.getD cOk) j.stopCkpt s
    | .admitting => if j.keyed then s else if j.reshard.isSome then failReshard slot cStateConflict s else failAdmission slot s
    | .resharding => match j.reshard with
      | some x => if x.moving then s
          else
            let s := modSlot slot (fun sl => { sl with state := .running }) (modJob slot (fun j => { j with reshard := none }) s)
            run (endWith x.w cStateConflict s)
      | none => run s
    | _ => run s
  | _, _ => s

/-- `JOB.STOP`: the job stops by its mode (R475); it completes once the job has left the running states. -/
def execJobStop (h : Hdr) (slot mode after : Nat) (ckpt : Bool) (s : State) : Host.Outcome State Fault Refusal :=
  command h 0x0204 .holderOrControl false [] (.jobStop h slot mode after ckpt) (fun w snd s =>
    require (snd.control || slotAuth snd s slot) cDenied anyDetail <|
    require (mode ≤ 2) cFieldRange anyDetail <|
    require (slot < 128) cFieldRange anyDetail <|
    match getJob s slot with
    | none => .error (cStateConflict, anyDetail)
    | some j =>
      let early := mode == 1 && match newestOpened j with
        | some b => decide (after < b)
        | none => false
      require (!early && ((getSlot s slot).state != .starting || !j.keyed)) cStateConflict anyDetail <|
      let x : Stop := { w, mode, after := stopAfter j mode after, ckpt }
      .ok (applyStop slot mode (modJob slot (fun j => { j with stops := j.stops ++ [x] }) (accept w s)))) s

/-! ## `JOB.BIND` (02 R56, R63) -/

/-- The ghost's memory lies within the ghost regions less the save areas (02 R56, R57, 03 R70). -/
def ghostFits (sc : Score) (w : RestWin) : Bool :=
  let line (n : Nat) : Bool := decide (64 * n + 64 ≤ w.localSize) ||
    (decide (0x200000 ≤ 64 * n) && decide (64 * n + 64 + 139264 ≤ 0x200000 + w.deepSize))
  sc.cores.all (fun p => decide (scoreRegionLines p * 64 ≤ w.localSize)) &&
    sc.tensors.all fun t => t.binds.all fun b => line b.first && line (b.first + b.lines - 1) && ((b.sline.map line).getD true)

/-- A ghost score may bind to a partition (R56). -/
def mayBind (s : State) (sc : Score) (owner : Nat) (q : Part) : Bool :=
  (q.state == .running || q.state == .resting) && q.ghost.isNone &&
    match (q.primary.bind fun i => (getSlot s i).score).bind (·.rests.head?) with
    | none => false
    | some w =>
      let t := s.tenants.getD owner {}
      sc.rows == w.row1 + 1 - w.row0 && sc.cols == w.col1 + 1 - w.col0 && decide (sc.yieldSteps ≤ w.yieldLimit) &&
        ghostFits sc w && (!sc.anchored || q.row + w.row1 == 15) && decide (t.partUsed < t.quotas.parts)

/-- The binding: the job's score is placed in the ghost regions, and the job runs (R56, R473). -/
def bindGhost (slot part : Nat) (sc : Score) (s : State) : State :=
  let s := modPart part (fun q => { q with ghost := some slot }) s
  let s := modJob slot (fun j => { j with part := some part }) s
  let s := (jobCores s (getPart s part) true sc).foldl (fun s k => modCore k.1 (fun c => { c with savedGhost := {} }) s) s
  let next : JobState := match getJob s slot with
    | some j => if j.stops.isEmpty then .running else .stopping
    | none => .running
  loadImages slot (modSlot slot (fun sl => { sl with state := next }) s)

/-- `JOB.BIND`: a ghost job that has no partition takes the rest windows of one (R56, R473). -/
def execJobBind (h : Hdr) (slot part : Nat) (s : State) : Host.Outcome State Fault Refusal :=
  command h 0x0205 .holder false [] (.jobBind h slot part) (fun w snd s =>
    let q := getPart s part
    let held := if part < 64 && q.state != .free then snd.holds q.owner else snd.control
    require (slotAuth snd s slot && held) cDenied anyDetail <|
    require (slot < 128 && part < 64) cFieldRange anyDetail <|
    let sl := getSlot s slot
    match sl.score, sl.job with
    | some sc, some j =>
      require (sc.ghost && (sl.state == .unbound || sl.state == .running) && (slotPart s slot).isNone && mayBind s sc j.owner q)
        cStateConflict anyDetail <|
      changed w slot (leBytes 1 part) [] (bindGhost slot part sc s)
    | _, _ => .error (cStateConflict, anyDetail)) s

/-! ## `JOB.ADMIT` (11 R336 to R338) -/

/-- The key material that an admission or a start waits for is sent by the member that draws it, and what came early is taken. -/
def keysAround (slot : Nat) (draws : Bool) (s : State) : State :=
  takeHeldColl slot (if draws then sendKeys slot s else s)

/-- The spare's side (R336): its slot is Loaded with the job's score, and the tables that it copies name that score. -/
def admitSpare (w : Wait) (slot rank epoch device : Nat) (ident : List Byte) (tables : Option JobTables) (s : State) :
    Except (Nat × Nat) State :=
  let sl := getSlot s slot
  match sl.score, tables with
  | some sc, some t =>
    require (sl.state == .loaded && t.score == sl.digest && decide (rank < sc.replicas) &&
      some sc.baseDigest == s.base.map (·.man.digest)) cStateConflict anyDetail <|
    let f := { t.start with slot := slot, rank := rank }
    require ((startRegions s slot t.owner rank f sc).all regionInTier) cBounds anyDetail <|
    withPlace slot t.owner rank f sc (fun place =>
      .ok (keysAround slot false (beginSpare slot rank epoch device ident w t sc place (accept w s)))) s
  | _, _ => .error (cStateConflict, anyDetail)

/-- A member's side (R336): no bar is open, the rank is lost, and the epoch is the next one. -/
def admitMember (w : Wait) (slot rank epoch device : Nat) (ident : List Byte) (s : State) : Except (Nat × Nat) State :=
  let sl := getSlot s slot
  match sl.score, sl.job with
  | some sc, some j =>
    require ((sl.state == .running || sl.state == .awaiting) && j.cur.isNone && j.ahead.isNone && j.lost.contains rank &&
      epoch == j.epoch + 1 && j.admission.isNone) cStateConflict anyDetail <|
    let s := beginMember slot rank epoch device ident w sc (accept w s)
    let draws := match (List.range sc.replicas).find? fun r => r != rank && !j.lost.contains r with
      | some r => r == j.rank
      | none => false
    .ok (keysAround slot draws s)
  | _, _ => .error (cStateConflict, anyDetail)

/-- `JOB.ADMIT`: a spare fills a lost rank (R336). The device that the command names takes the spare's side. -/
def execJobAdmit (h : Hdr) (slot rank epoch device : Nat) (ident : List Byte) (tables : Option JobTables) (s : State) :
    Host.Outcome State Fault Refusal :=
  command h 0x0206 .control false [] (.jobAdmit h slot rank epoch device ident tables) (fun w _ s =>
    require (slot < 128) cFieldRange anyDetail <|
    if device == s.setup.deviceId && ident == shake256 16 s.dev.idKey then admitSpare w slot rank epoch device ident tables s
    else admitMember w slot rank epoch device ident s) s

/-! ## `JOB.RESHARD` (11 R339 to R343) -/

/-- A device new to the job (R339): it would be admitted as a spare, its slot is Loaded with the new score, and it takes the
job tables of the old layout (R342 step 5). -/
def reshardFresh (w : Wait) (new : Nat) (map : List (Nat × Nat × List Byte)) (t : JobTables) (s : State) :
    Except (Nat × Nat) State :=
  let sl := getSlot s new
  match sl.score, (sl.score.bind fun sc => newRank s sc.replicas map sc) with
  | some sc, some rank =>
    require (sl.state == .loaded && some sc.baseDigest == s.base.map (·.man.digest)) cStateConflict anyDetail <|
    let f := { t.start with slot := new, rank := rank }
    require ((startRegions s new t.owner rank f sc).all regionInTier) cBounds anyDetail <|
    withPlace new t.owner rank f sc (fun place => .ok (beginFresh new rank w map t sc place (accept w s))) s
  | _, _ => .error (cStateConflict, anyDetail)

/-- A device of the old layout: the new score's regions must fit beside everything but the old score's own (10 R295, R296). -/
def reshardMember (w : Wait) (old new : Nat) (forced : Bool) (map : List (Nat × Nat × List Byte)) (s : State) :
    Except (Nat × Nat) State :=
  match getJob s old, (getSlot s new).score with
  | some j, some sc =>
    require ((getSlot s old).state == .running && (getSlot s new).state == .loaded) cStateConflict anyDetail <|
    content (((newRank s j.rank map sc).map fun r => reshardFits s old j r new sc).getD true) cRegionBusy anyDetail <|
    let s := modSlot old (fun sl => { sl with state := .resharding }) (modJob old (fun j => { j with
      reshard := some { w, new, map } }) (accept w s))
    let idle := match getJob s old with
      | some j => j.cur.isNone && j.runs == 0
      | none => false
    .ok (if forced then beginReshard old (dropRuns old (abortForced old s)) else if idle then beginReshard old s else s)
  | _, _ => .error (cStateConflict, anyDetail)

/-- `JOB.RESHARD`: the job moves to the score of another slot, planned or forced (R339 to R341). The new rank map and, on a
device new to the job, the job tables come with it: R342 has the device take both, and no parameter of the command carries
them. -/
def execJobReshard (h : Hdr) (old new : Nat) (forced : Bool) (map : List (Nat × Nat × List Byte)) (tables : Option JobTables)
    (s : State) : Host.Outcome State Fault Refusal :=
  command h 0x0207 .control false [] (.jobReshard h old new forced map tables) (fun w _ s =>
    require (old < 128 && new < 128) cFieldRange anyDetail <|
    let a := getSlot s old
    let b := getSlot s new
    require (match a.score, b.score with
      | some x, some y => compatible x y
      | _, _ => true) cScoreInvalid anyDetail <|
    match a.job, tables with
    | none, some t => reshardFresh w new map t s
    | _, _ => reshardMember w old new forced map s) s

/-! ## Norm records, checkpoints, inputs -/

/-- Norm records of the last commit: one more than the highest that a tensor entry names (08 R256). -/
def normCount (j : Job) : Nat := j.norms.foldl (fun m p => max m (p.1 + 1)) 0

/-- `JOB.NORMS`: norm records go to a window range (08 R256, R480); a record that no entry names reads as zeros. -/
def execJobNorms (h : Hdr) (slot first count : Nat) (r : Range) (s : State) : Host.Outcome State Fault Refusal :=
  command h 0x0208 .holder true [] (.jobNorms h slot first count r) (fun w snd s =>
    require (slotAuth snd s slot) cDenied anyDetail <|
    require (count < 0xFFFF && rangeLen r) cFieldRange anyDetail <|
    let n := ((getJob s slot).map normCount).getD 0
    let none_ := count == 0 || r.len == 0
    require (slot < 128) cFieldRange anyDetail <|
    require (rangeOk snd r && (none_ || (decide (first + count ≤ n) && decide (32 * count ≤ r.len)))) cBounds anyDetail <|
    match getJob s slot with
    | none => .error (cStateConflict, anyDetail)
    | some j =>
      let bytes := (List.range count).flatMap fun i => (j.norms.getD (first + i) {}).bytes
      answered w [] (if none_ then s else windowWrite w r.off bytes s)) s

/-- `JOB.CHECKPOINT`: a checkpoint at the next verdict of commit or skip (R476). -/
def execJobCheckpoint (h : Hdr) (slot : Nat) (dest : Option Range) (s : State) : Host.Outcome State Fault Refusal :=
  command h 0x0209 .holder false [] (.jobCheckpoint h slot dest) (fun w snd s =>
    require (slotAuth snd s slot) cDenied anyDetail <|
    require ((dest.map rangeLen).getD true) cFieldRange anyDetail <|
    require (slot < 128) cFieldRange anyDetail <|
    require ((dest.map (rangeOk snd)).getD true) cBounds anyDetail <|
    if (dest.map (·.len == 0)).getD false then answered w [] s
    else
      require ((getSlot s slot).state == .running) cStateConflict anyDetail <|
      .ok (modJob slot (fun j => { j with ckpts := j.ckpts ++ [⟨w, dest⟩] }) (accept w s))) s

/-- A range that an input may be written to: in a region of the job that its `PLACEMENT` gives, in buffer 0, and written by no engine
of the hub (10 R294, R299, R301). -/
def inputRegion (s : State) (slot : Nat) (sc : Score) (addr len : Nat) : Bool := match regionAt s addr len with
  | some r => r.slot == some slot && r.window.isNone && r.kvRow.isNone && !r.rowBlocks && !r.reserved && r.ckpt.isNone &&
      decide (addr + len ≤ r.base + r.size) &&
      (r.kind == 0 || r.kind == 1 || (r.kind == 2 && match r.shard with
        | some sh => !engineShard sc sh
        | none => false))
  | none => false

/-- A bar whose input comes too late (R485): one below the open bar, or an open bar of which a run has reached its input beat. -/
def inputLate (j : Job) (bar : Nat) : Bool :=
  let isOpen := j.cur.map (·.bar) == some bar || j.ahead.map (·.bar) == some bar ||
    (j.cur.isNone && j.runs != 0 && j.nextBar == bar)
  decide (bar < (j.cur.map (·.bar)).getD j.nextBar) || (isOpen && (j.inputBar.map (decide <| bar ≤ ·)).getD false)

/-- `JOB.INPUT`: bytes written at a bar's input beat, and again at every re-run's (R466, R485); until then its class is parked
(15 R452). -/
def execJobInput (h : Hdr) (slot bar addr : Nat) (r : Range) (bytes : List Byte) (s : State) : Host.Outcome State Fault Refusal :=
  command h 0x020A .holder false [r] (.jobInput { h with win := 2 } slot bar addr r bytes) (fun w snd s =>
    require (slotAuth snd s slot) cDenied anyDetail <|
    require (rangeLen r) cFieldRange anyDetail <|
    require (slot < 128) cFieldRange anyDetail <|
    require (rangeOk snd r) cBounds anyDetail <|
    if r.len = 0 then answered w [] s
    else match getJob s slot, (getSlot s slot).score with
      | some j, some sc =>
        require (inputRegion s slot sc addr r.len) cBounds anyDetail <|
        content ((getSlot s slot).state == .running && !inputLate j bar) cStateConflict anyDetail <|
        let i : InputWait := { w := some w, bar, addr, bytes := fitTo r.len bytes }
        .ok (parkClass w.cls (modJob slot (fun j => { j with inputs := j.inputs ++ [i] }) (accept w s)))
      | _, _ => .error (cStateConflict + contentCode, anyDetail)) s

end Sys2Proof.Machine
end

