-- ==== Sys2Proof/Machine/HostAdapt.lean ====
section
/-! DEFINITION. Host commands on adaptations (16 R466: 0x0301 to 0x0309; 12 R345 to R366, R372): registration, reads, claims and
releases, revocation, grants and probes. -/

namespace Sys2Proof.Machine

/-! ## Objects -/

/-- The sender holds the owner of an entry (R482); a controlling host meets a free one later. -/
def adaptAuth (snd : Sender) (s : State) (id : Nat) : Bool := match s.registry.get id with
  | some a => snd.holds a.owner
  | none => snd.control

/-- The lowest number that a table has no entry for. -/
def lowestFree {α : Type} (t : Table α) : Nat := ((List.range (t.length + 1)).find? fun i => (t.get i).isNone).getD 0

/-- The bytes of whole pages. -/
def wholePages (n : Nat) : Nat := ceilDiv n pageBytes * pageBytes

/-- A tenant's usage of home bytes in a tier, and its quota there; tier 1 has none (R368). -/
def homeQuota (t : Tenant) (tier : Nat) : Option (Nat × Nat) :=
  if tier = 2 then some (t.lpUsed, t.quotas.lp) else if tier = 3 then some (t.flUsed, t.quotas.fl) else none

/-- Home bytes of a tier taken or given back. -/
def useHome (tier : Nat) (f : Nat → Nat) (t : Tenant) : Tenant :=
  if tier = 2 then { t with lpUsed := f t.lpUsed } else if tier = 3 then { t with flUsed := f t.flUsed } else t

/-! ## `ADAPT.REGISTER` (R348) -/

/-- Fields of an entry are in range (R345, R347). -/
def adaptFieldsOk (f : AdaptF) : Bool :=
  decide (f.kind ≤ 3) && decide (f.fmt ≤ 8) && decide (f.planes < 8) && (!bitOf f.planes 0 || f.fmt == 0) &&
    !(bitOf f.planes 1 && bitOf f.planes 2) && (if f.kind = 2 then f.site == 0xFFFF else decide (f.site ≤ 15)) &&
    (match f.kind with
      | 0 => decide (1 ≤ f.rank) && decide (f.rank ≤ 256)
      | 3 => decide (16 ≤ f.rank) && decide (f.rank ≤ 1024) && f.rank % 16 == 0
      | _ => f.rank == 0) && (f.kind != 1 || f.dIn == 0) && finite32 f.alpha && (f.kind == 0 || f.alpha == 0x3F800000#32) &&
    decide (1 ≤ f.tier) && decide (f.tier ≤ 3) && f.layers.all (fun l => decide (l < 256))

/-- Every touched layer, and its site, is in the current manifest (R348). -/
def adaptPlaced (s : State) (f : AdaptF) : Bool := match s.base with
  | none => false
  | some b => f.layers.all fun l => if f.kind = 2 then decide (l < b.man.layers.length) else layerHas b.man f.kind f.site l

/-- The loading entry of a registration (R348), if it has one. -/
def loadingEntry (s : State) (h : Hdr) : Option Nat :=
  (s.registry.find? fun p => p.2.state == .loading && p.2.loadRef == some (h.sess, h.ref)).map (·.1)

/-- An entry whose contents are to be written. -/
def newEntry (h : Hdr) (f : AdaptF) : Adapt :=
  { owner := h.context, f, state := .loading, loadRef := some (h.sess, h.ref) }

/-- While a registration reads its window its entry is loading; one that is refused leaves none (R348, R478). -/
def registerState (h : Hdr) (f : AdaptF) (s : State) : State :=
  let waits := s.winReads.any fun r => r.sess == h.sess && r.ref == h.ref
  match waits, loadingEntry s h with
  | true, none => { s with registry := s.registry.put (lowestFree s.registry) (newEntry h f) }
  | false, some id => if h.win = 2 then { s with registry := s.registry.del id } else s
  | _, _ => s

/-- The contents are written and digested, and the entry is ready (R348). -/
def putAdapt (id home : Nat) (h : Hdr) (f : AdaptF) (bytes : List Byte) (s : State) : State :=
  let size := wholePages f.bytes
  let a : Adapt := { newEntry h f with state := .ready, home, digest := digest64 bytes, registered := s.ptp.now, loadRef := none,
                                       baseDigest := (s.base.map (·.man.digest)).getD [] }
  let r : Region := { base := home, size, kind := 0, owner := h.context, kgen := s.devKeyGen }
  modTenant h.context (useHome f.tier (· + size))
    (storeAt home bytes { s with regions := s.regions ++ [r], registry := s.registry.put id a })

/-- `ADAPT.REGISTER`: a new entry takes its home and its contents (R348). -/
def execAdaptRegister (h : Hdr) (f : AdaptF) (r : Range) (bytes : List Byte) (s : State) : Host.Outcome State Fault Refusal :=
  let f := { f with layers := (List.range 256).filter f.layers.contains ++ f.layers.filter fun l => decide (256 ≤ l) }
  let res := command h 0x0301 .holder false [r] (.adaptRegister { h with win := 2 } f r bytes) (fun w snd s =>
    require (snd.contexts.contains h.context && h.context != 0) cDenied anyDetail <|
    require (adaptFieldsOk f && rangeLen r) cFieldRange anyDetail <|
    require (rangeOk snd r) cBounds anyDetail <|
    if r.len = 0 then answered w [] s
    else
      require (f.bytes == adaptBytes f && r.len == f.bytes) cBounds anyDetail <|
      content (adaptPlaced s f) cScoreInvalid anyDetail <|
      let t := s.tenants.getD h.context {}
      let size := wholePages f.bytes
      let mine := s.registry.filter fun p => p.2.owner == h.context && p.2.loadRef != some (h.sess, h.ref)
      content (mine.length < t.quotas.reg && ((homeQuota t f.tier).map fun q => decide (q.1 + size ≤ q.2)).getD true)
        cQuotaExceeded anyDetail <|
      let id := (loadingEntry s h).getD (lowestFree s.registry)
      content (s.regions.length < maxRegions) cTableFull anyDetail <|
      content (id < 65536) cRegistryFull anyDetail <|
      match freeRange s f.tier size pageBytes with
      | none => .error (cTableFull + contentCode, anyDetail)
      | some home =>
        let salted := saltedDigest (digest64 (fitTo f.bytes bytes)) (putAdapt id home h f (fitTo f.bytes bytes) s)
        changed w 0xFF (leBytes 2 id ++ salted.1) (leBytes 2 id) salted.2) s
  match res with
  | .next t => .next (registerState h f t)
  | o => o

/-! ## Reads -/

/-- A bitmap of 32 bytes. -/
def bitmap32 (l : List Nat) : List Byte := leBytes 32 (sumNat ((List.range 256).map fun i => if l.contains i then 2 ^ i else 0))

/-- The 256 bytes of a registry entry; `whole` is false for a reader that sees no digest and no grantees (R347, R349). -/
def adaptEntry (id : Nat) (a : Adapt) (whole : Bool) : List Byte :=
  leBytes 2 id ++ leBytes 2 a.owner ++ leBytes 1 a.f.kind ++ leBytes 1 a.state.code ++ leBytes 1 a.f.fmt ++
    leBytes 1 a.f.planes ++ leBytes 2 a.f.site ++ leBytes 2 a.f.rank ++ leBytes 4 a.f.dIn ++ leBytes 4 a.f.dOut ++
    leBytes 4 a.f.alpha.toNat ++ leBytes 4 a.pins ++ leBytes 1 a.f.tier ++ leBytes 1 a.grantees.length ++ leBytes 2 a.bound ++
    leBytes 8 a.home ++ leBytes 8 a.f.bytes ++ bitmap32 a.f.layers ++ fitTo 64 a.baseDigest ++
    fitTo 64 (if whole then a.digest else []) ++ leBytes 8 a.registered ++ leBytes 1 (a.trainSlot.getD 0xFF) ++
    List.replicate 7 0 ++ fitTo 30 (if whole then a.grantees.flatMap (leBytes 2) else []) ++ List.replicate 2 0

/-- `ADAPT.QUERY`: the entry; the controlling host sees no digest and no grantees of an entry that it does not hold, and reads a free
one too, which is its index and zeros, `STATE` 0 (R347, R349). -/
def execAdaptQuery (h : Hdr) (id : Nat) (s : State) : Host.Outcome State Fault Refusal :=
  command h 0x0302 .any true [] (.adaptQuery h id) (fun w snd s =>
    require (snd.control || adaptAuth snd s id) cDenied anyDetail <|
    require (id < 65536) cFieldRange anyDetail <|
    match s.registry.get id with
    | none => answered w (fitTo 256 (leBytes 2 id)) s
    | some a => answered w (adaptEntry id a (snd.holds a.owner)) s) s

/-- `ADAPT.READ`: the contents go to the owner's window (R367); a page that cannot be read ends it (20 R570). -/
def execAdaptRead (h : Hdr) (id : Nat) (r : Range) (s : State) : Host.Outcome State Fault Refusal :=
  command h 0x0303 .holder false [] (.adaptRead h id r) (fun w snd s =>
    require (adaptAuth snd s id) cDenied anyDetail <|
    require (rangeLen r) cFieldRange anyDetail <|
    require (id < 65536) cFieldRange anyDetail <|
    require (rangeOk snd r) cBounds anyDetail <|
    if r.len = 0 then answered w [] s
    else match s.registry.get id with
      | none => .error (cStateConflict, anyDetail)
      | some a =>
        require (a.f.bytes ≤ r.len) cBounds anyDetail <|
        require (a.state != .loading) cStateConflict anyDetail <|
        if (adaptPages a).any fun n => (getPage s n).poison then .ok (complete w cDataLost noDetail [] s)
        else answered w [] (windowWrite w r.off (Mem.readN s.mem a.home a.f.bytes) s)) s

/-- `ADAPT.UNREGISTER`: the entry is free and its home is zeroed (R350). -/
def execAdaptUnregister (h : Hdr) (id : Nat) (s : State) : Host.Outcome State Fault Refusal :=
  command h 0x0304 .holder false [] (.adaptUnregister h id) (fun w snd s =>
    require (adaptAuth snd s id) cDenied anyDetail <|
    require (id < 65536) cFieldRange anyDetail <|
    match s.registry.get id with
    | none => .error (cStateConflict, anyDetail)
    | some a =>
      require (a.pins == 0 && a.bound == 0 && (a.state == .ready || a.state == .stale || a.state == .invalid))
        cStateConflict anyDetail <|
      let s := match s.regions.find? fun r => r.base == a.home && r.slot.isNone with
        | some r => releaseRegion r s
        | none => s
      let s := modTenant a.owner (useHome a.f.tier (· - wholePages a.f.bytes)) { s with registry := s.registry.del id }
      changed w 0xFF (leBytes 2 id) [] s) s

/-! ## Claims and releases (R354 to R361) -/

/-- The lowest bar whose resolution is still to come: the one after the newest that is open, or after the next to open. -/
def firstCbar (j : Job) : Nat := match j.ahead, j.cur with
  | some r, _ => r.bar + 1
  | none, some r => r.bar + 1
  | none, none => j.nextBar + 1

/-- A requested bar can still be met (R358). -/
def cbarOk (j : Job) (cbar : Option Nat) : Bool := match cbar with
  | some b => decide (firstCbar j ≤ b)
  | none => true

/-- The context that a claim is made in: the controlling host acts as the operator for a context that it does not hold (R355). -/
def claimCtx (snd : Sender) (c : Nat) : Nat := if snd.contexts.contains c then c else 0

/-- One more pin of an entry stays within its owner's `HOT_SHARE` (R354, R368). -/
def pinFits (s : State) (a : Adapt) : Bool :=
  let t := s.tenants.getD a.owner {}
  a.pins != 0 || decide (t.hotPinned + (adaptPages a).length * pageBytes ≤ t.quotas.hot)

/-- `ADAPT.CLAIM`: a claim that passes waits for the resolving downbeat (R354, R358). -/
def execAdaptClaim (h : Hdr) (slot aslot id prio : Nat) (cbar : Option Nat) (s : State) : Host.Outcome State Fault Refusal :=
  command h 0x0305 .any false [] (.adaptClaim h slot aslot id prio cbar) (fun w snd s =>
    let ad := s.registry.get id
    let sl := getSlot s slot
    let allowed := match ad, sl.job with
      | some a, some j => mayClaim (claimCtx snd h.context) j.owner a
      | _, _ => snd.control
    require allowed cDenied anyDetail <|
    require (prio ≤ 7) cFieldRange anyDetail <|
    require (slot < 128 && id < 65536) cFieldRange anyDetail <|
    match ad, sl.job, sl.score with
    | some a, some j, some sc =>
      match j.f.slotList[aslot]? with
      | none => .error (cFieldRange, anyDetail)
      | some d =>
        require (adaptFits s sc d a) cShapeMismatch anyDetail <|
        require (a.state != .revoking) cAdapterRevoked anyDetail <|
        require (a.state == .ready && cbarOk j cbar) cStateConflict anyDetail <|
        require (pinFits s a) cQuotaExceeded anyDetail <|
        let c : Claim := { w, aslot, adapt := id, prio, cbar, ctx := claimCtx snd h.context }
        .ok (modJob slot (fun j => { j with claims := j.claims ++ [c] }) (accept w s))
    | _, _, _ => .error (cStateConflict, anyDetail)) s

/-- The adaptation that a slot of a job is bound to now or at a bar to come. -/
def boundLast (j : Job) (aslot : Nat) : Option Nat := ((j.bindings.getD aslot []).getLast?).bind (·.adapt)

/-- `ADAPT.RELEASE`: a binding is let go at a resolving downbeat (R358, R361). -/
def execAdaptRelease (h : Hdr) (slot aslot : Nat) (cbar : Option Nat) (s : State) : Host.Outcome State Fault Refusal :=
  command h 0x0306 .holderOrControl false [] (.adaptRelease h slot aslot cbar) (fun w snd s =>
    require (snd.control || slotAuth snd s slot) cDenied anyDetail <|
    require (slot < 128) cFieldRange anyDetail <|
    match getJob s slot with
    | none => .error (cStateConflict, anyDetail)
    | some j =>
      require (aslot < j.f.slotList.length) cFieldRange anyDetail <|
      match boundLast j aslot with
      | none => .error (cStateConflict, anyDetail)
      | some id =>
        require (!(j.releases.any fun r => r.aslot == aslot) && cbarOk j cbar) cStateConflict anyDetail <|
        let r : Release := { w := some w, aslot, adapt := id, cbar }
        .ok (modJob slot (fun j => { j with releases := j.releases ++ [r] }) (accept w s))) s

/-! ## Revocation and grants (R362, R372) -/

/-- The claims of a job on a revoked entry end, and its bindings are to be released at the next resolving downbeat (R362). -/
def revokeIn (slot id : Nat) (s : State) : State :=
  match getJob s slot with
  | none => s
  | some j =>
    let gone := j.claims.filter fun c => c.adapt == id
    let bound := (j.bindings.map (·.1)).filter fun a => boundLast j a == some id
    let force (r : Release) : Release := if bound.contains r.aslot && r.eff.isNone then { r with force := true } else r
    let more : List Release := (bound.filter fun a => !(j.releases.any fun r => r.aslot == a && r.eff.isNone)).map fun a =>
      { w := none, aslot := a, adapt := id, cbar := none, force := true }
    let s := modJob slot (fun j => { j with
      claims := j.claims.filter fun c => c.adapt != id, releases := j.releases.map force ++ more }) s
    gone.foldl (fun s c => endWith c.w cAdapterRevoked s) s

/-- Requests that hold a revoked entry end at their next boundary with reason 1 (R362, 13 R389). -/
def revokeRequests (id : Nat) (s : State) : State :=
  { s with reqs := s.reqs.map fun p => (p.1, if p.2.adapt == some id && p.2.state != .ended then
      { p.2 with why := 1 } else p.2) }

/-- `ADAPT.REVOKE`: the entry is revoking until nothing pins it (R362). -/
def execAdaptRevoke (h : Hdr) (id : Nat) (s : State) : Host.Outcome State Fault Refusal :=
  command h 0x0307 .any false [] (.adaptRevoke h id) (fun w snd s =>
    require (snd.control || adaptAuth snd s id) cDenied anyDetail <|
    require (id < 65536) cFieldRange anyDetail <|
    match s.registry.get id with
    | none => .error (cStateConflict, anyDetail)
    | some a =>
      require (a.state == .ready || a.state == .revoking) cStateConflict anyDetail <|
      let s := logChange w 0xFF 0 (leBytes 2 id) s
      let s := (s.slots.map (·.1)).foldl (fun s i => revokeIn i id s) (revokeRequests id s)
      if a.pins = 0 then .ok (complete w cOk 0 [] s)
      else .ok (modAdapt id (fun a => { a with state := .revoking, revokeWaits := a.revokeWaits ++ [w] }) (accept w s))) s

/-- Claims that a changed list of grantees no longer allows complete with `DENIED` at their resolution (R372). -/
def denyClaims (id : Nat) (a : Adapt) (s : State) : State :=
  let deny (owner : Nat) (c : Claim) : Claim :=
    if c.adapt == id && !mayClaim c.ctx owner a then { c with denied := true } else c
  (s.slots.map (·.1)).foldl (fun s i => modJob i (fun j => { j with claims := j.claims.map (deny j.owner) }) s) s

/-- `ADAPT.GRANT`: a context is added to the grantees, or taken from them (R355, R372). -/
def execAdaptGrant (h : Hdr) (id : Nat) (add : Bool) (context : Nat) (s : State) : Host.Outcome State Fault Refusal :=
  command h 0x0308 .holder false [] (.adaptGrant h id add context) (fun w snd s =>
    require (adaptAuth snd s id) cDenied anyDetail <|
    require (context < 4096) cFieldRange anyDetail <|
    require (id < 65536) cFieldRange anyDetail <|
    match s.registry.get id with
    | none => .error (cStateConflict, anyDetail)
    | some a =>
      require (a.state != .loading) cStateConflict anyDetail <|
      let rest := a.grantees.filter (· != context)
      require (!add || decide (rest.length < 15)) cTableFull anyDetail <|
      let a' := { a with grantees := if add then (if a.grantees.contains context then a.grantees else rest ++ [context]) else rest }
      let s := { s with registry := s.registry.put id a' }
      changed w 0xFF (leBytes 2 id ++ leBytes 1 (bit add) ++ leBytes 2 context) [] (if add then s else denyClaims id a' s)) s

/-! ## `ADAPT.PROBE` (R366) -/

/-- A probe's entry is bound as by a winning claim, from the lowest bar that has not opened. -/
def beginProbe (w : Wait) (id slot aslot items : Nat) (tol : Word) (ref : List Word) (set : List Byte) (s : State) : State :=
  let p : Probe := { w, adapt := id, aslot, items, tol, ref, setDigest := digest64 set,
                     refDigest := digest64 (ref.flatMap fun x => leBytes 4 x.toNat) }
  let s := accept w s
  let B := match getJob s slot with
    | some j => (newestOpened j).map (· + 1) |>.getD j.nextBar
    | none => 0
  bindAdapt slot aslot id B (modAdapt id (fun a => { a with state := .probing })
    (modJob slot (fun j => { j with probes := j.probes ++ [p] }) s))

/-- `ADAPT.PROBE`: a stale entry is tested by an evaluation job of its owner (R366); it completes as that job ends. -/
def execAdaptProbe (h : Hdr) (id slot aslot items : Nat) (tol : Word) (set refs : Range) (ref : List Word)
    (setBytes : List Byte) (s : State) : Host.Outcome State Fault Refusal :=
  let zero := set.len == 0 || refs.len == 0
  command h 0x0309 .holder false (if zero then [] else [set, refs])
    (.adaptProbe { h with win := 2 } id slot aslot items tol set refs ref setBytes) (fun w snd s =>
    let sl := getSlot s slot
    require (adaptAuth snd s id && slotAuth snd s slot) cDenied anyDetail <|
    require (items != 0 && items != 0xFFFFFFFF && finite32 tol && gt64 (widen tol) 0 && rangeLen set && rangeLen refs)
      cFieldRange anyDetail <|
    require (slot < 128 && id < 65536) cFieldRange anyDetail <|
    require (items ≤ 65536 && rangeOk snd set && rangeOk snd refs) cBounds anyDetail <|
    if zero then answered w [] s
    else
      require (4 * items ≤ refs.len) cBounds anyDetail <|
      match s.registry.get id, sl.job, sl.score with
      | some a, some j, some sc =>
        match j.f.slotList[aslot]? with
        | none => .error (cFieldRange, anyDetail)
        | some d =>
          content (adaptFits s sc d { a with baseDigest := sc.baseDigest }) cShapeMismatch anyDetail <|
          content (a.state == .stale && j.owner == a.owner && sl.state != .faulted) cStateConflict anyDetail <|
          content ((boundLast j aslot).isNone && !(j.bindings.any fun p => boundLast j p.1 == some id)) cSlotBusy anyDetail <|
          content (pinFits s a) cQuotaExceeded anyDetail <|
          .ok (beginProbe w id slot aslot items tol (ref.take items) (fitTo set.len setBytes) s)
      | _, _, _ => .error (cStateConflict + contentCode, anyDetail)) s

end Sys2Proof.Machine
end

