-- ==== Sys2Proof/Machine/HostReq.lean ====
section
/-! DEFINITION. Host commands on requests and sessions (16 R466: 0x0401 to 0x0404; 13 R378 to R381, R389 to R392). -/

namespace Sys2Proof.Machine

/-! ## `REQ.SUBMIT` (R379, 16 R467) -/

/-- A binary32 word that is at least +0, or −0. -/
def notBelow0 (w : Word) : Bool := !gt64 0 (widen w)

/-- The first field of a request image that is out of its range, as a command offset (R378, R379, R467). -/
def reqFieldBad (f : ReqF) : Option Nat :=
  if !f.zeroOk then some anyDetail
  else if f.maxNew = 0xFFFFFFFF then some 0x28
  else if !(finite32 f.temp && notBelow0 f.temp) then some 0x2C
  else if !(finite32 f.topP && gt64 (widen f.topP) 0 && !gt64 (widen f.topP) (widen 0x3F800000#32)) then some 0x30
  else if !(finite32 f.penalty && gt64 (widen f.penalty) 0) then some 0x34
  else if 256 < f.topK then some 0x38
  else if 64 < f.pwin then some 0x3A
  else if 7 < f.prio then some 0x3B
  else if 0 < f.stop / 2 ^ 24 % 128 then some 0x3C
  else none

/-- Whether a context may send a request to a job: its own, or a shared one of context 0 (R355, R379). -/
def mayServe (snd : Sender) (s : State) (slot : Nat) : Bool := match getJob s slot with
  | some j => j.owner == 0 || snd.holds j.owner
  | none => snd.control

/-- The adaptation that a request's slot serves it with (R379). -/
def servedBy (j : Job) (f : ReqF) : Option Nat := f.aslot.bind (boundLast j)

/-- The sender may name the session (R379, 16 R482). -/
def sessAuth (snd : Sender) (s : State) (sid : Nat) : Bool := match s.sess.get sid with
  | some g => snd.holds g.owner
  | none => snd.control

/-- The extents of a request (R379, R480): its prompt, its token IDs, and the context limit. -/
def reqExtents (g : GenBlock) (pend : Nat) (f : ReqF) : Option Nat :=
  if contextLimit g ≤ f.ptok || (f.inline && decide (16360 < f.ptok)) || f.prompt.length != f.ptok then some 0x50
  else if contextLimit g < pend + f.maxNew then some 0x28
  else if f.prompt.any fun t => decide (0xFFFFFF < t) then some anyDetail
  else none

/-- The slot that a request names stands in a state to serve it (R379). -/
def aslotState (s : State) (j : Job) (g : GenBlock) (f : ReqF) : Option Nat :=
  match f.aslot with
  | none => if g.plan.contains none then none else some cStateConflict
  | some a => match servedBy j f with
    | none => some cStateConflict
    | some id =>
      if j.releases.any (fun r => r.aslot == a && !r.force) || !g.plan.contains (some a) then some cStateConflict
      else match s.registry.get id with
        | some ad => if ad.state = .revoking then some cAdapterRevoked else none
        | none => some cStateConflict

/-- The entry of an accepted request (R378, R379); its prompt takes LPDDR bytes and its adaptation a pin. -/
def enterRequest (w : Wait) (id : Nat) (f : ReqF) (tokens : Nat) (adapt : Option Nat) (s : State) : State :=
  let q : Request := { owner := w.context, f, state := .queued, adapt, pos := tokens, pend := tokens + f.ptok, sess := w.sess,
                       prin := w.prin, tokens := f.prompt }
  let s := modTenant w.context (fun t => { t with lpUsed := t.lpUsed + promptBytes f }) { s with reqs := s.reqs.put id q }
  match adapt with
  | some a => pinAdapt a s
  | none => s

/-- A request whose job, generation block and session stand: its checks from step 3 on (R379, R481), and its entry. -/
def submitTo (w : Wait) (f : ReqF) (j : Job) (g : GenBlock) (x : GenSess) (s : State) : Except (Nat × Nat) State :=
  let adapt := servedBy j f
  let serves := match adapt.bind fun a => s.registry.get a with
    | some ad => mayClaim w.context j.owner ad
    | none => true
  require serves cDenied 0x18 <|
  match reqFieldBad f with
  | some d => .error (cFieldRange, d)
  | none => match reqExtents g (x.tokens + f.ptok) f with
    | some d => .error (cBounds, d)
    | none =>
      if f.maxNew = 0 && f.ptok = 0 then answered w [] s
      else match aslotState s j g f with
        | some c => .error (c, 0x18)
        | none =>
          require (x.state != .closing) cStateConflict 0x1C <|
          let t := s.tenants.getD w.context {}
          let mine := s.reqs.filter fun p => p.2.owner == w.context
          require (mine.length < t.quotas.req && t.lpUsed + promptBytes f ≤ t.quotas.lp) cQuotaExceeded anyDetail <|
          let id := lowestFree s.reqs
          require (id < 1048576) cTableFull anyDetail <|
          changed w f.slot (leBytes 4 id) (leBytes 4 id) (enterRequest w id f x.tokens adapt s)

/-- The window range of a request's prompt, where it does not stand in the command (R467). -/
def reqWin (f : ReqF) : List Range := if f.inline || f.win.len = 0 then [] else [f.win]

/-- `REQ.SUBMIT`: a request is queued (R379), once a prompt in a window range has been read (15 R438, 16 R467). -/
def execReqSubmit (h : Hdr) (f : ReqF) (s : State) : Host.Outcome State Fault Refusal :=
  command h 0x0401 .holder false (reqWin f) (.reqSubmit { h with win := 2 } f) (fun w snd s =>
    let mine := match s.sess.get f.session with
      | some x => x.owner == w.context
      | none => snd.control
    require (mayServe snd s f.slot) cDenied 0x17 <|
    require (sessAuth snd s f.session && mine) cDenied 0x1C <|
    require (f.inline || rangeLen f.win) cFieldRange 0x50 <|
    if !f.inline && f.win.len = 0 then answered w [] s else
    require (f.inline || (rangeOk snd f.win && decide (4 * f.ptok ≤ f.win.len))) cBounds 0x50 <|
    match getJob s f.slot, s.sess.get f.session with
    | some j, some x => match j.f.gen with
      | some g => submitTo w f j g x s
      | none => (match reqFieldBad f with
          | some d => .error (cFieldRange, d)
          | none => .error (cStateConflict, 0x17))
    | _, _ => (match reqFieldBad f with
        | some d => .error (cFieldRange, d)
        | none => if 128 ≤ f.slot then .error (cFieldRange, 0x17) else .error (cStateConflict, anyDetail))) s

/-! ## `REQ.CANCEL` (R389, R392) -/

/-- A queued request ends at once; its record leaves at the release beat (R392, R394). -/
def cancelQueued (slot id : Nat) (s : State) : State :=
  let open_ := ((getJob s slot).bind (·.cur)).isSome
  let bar := match getJob s slot with
    | some j => (j.cur.map (·.bar)).getD (j.done.getD 0)
    | none => 0
  let s := endRequest slot id 2 (addRecord slot id bar 2 none s)
  if open_ then s else releaseTokens slot s

/-- `REQ.CANCEL`: a queued request ends at once, a live one at its next token boundary (R389, R390, R392). -/
def execReqCancel (h : Hdr) (id : Nat) (s : State) : Host.Outcome State Fault Refusal :=
  command h 0x0402 .holder false [] (.reqCancel h id) (fun w snd s =>
    let auth := match s.reqs.get id with
      | some q => snd.holds q.owner
      | none => snd.control
    require auth cDenied anyDetail <|
    require (id < 1048576) cFieldRange anyDetail <|
    match s.reqs.get id with
    | none => .error (cStateConflict, anyDetail)
    | some q =>
      require (q.state != .ended) cStateConflict anyDetail <|
      let s := if q.state = .queued then cancelQueued q.f.slot id s
        else { s with reqs := s.reqs.put id { q with why := lowestReason q.why 2 } }
      changed w q.f.slot (leBytes 4 id) [] s) s

/-! ## Sessions (R380, R381) -/

/-- The lowest run of free directory entries of a length (R381). -/
def freeDir (s : State) (n : Nat) : Option Nat :=
  let free (d : Nat) : Bool := decide (d + n ≤ 4194304) &&
    !s.sess.any fun p => decide (p.2.dir < d + n) && decide (d < p.2.dir + p.2.maxPages)
  ((0 :: s.sess.map fun p => p.2.dir + p.2.maxPages).filter free).foldl (fun (b : Option Nat) d => match b with
    | none => some d
    | some o => some (min o d)) none

/-- `SESS.OPEN`: a session takes its entry and its run of the page directory (R381). -/
def execSessOpen (h : Hdr) (maxPages : Nat) (s : State) : Host.Outcome State Fault Refusal :=
  command h 0x0403 .holder false [] (.sessOpen h maxPages) (fun w _ s =>
    require (maxPages != 0 && maxPages != 0xFFFF) cFieldRange anyDetail <|
    require (maxPages ≤ 16384) cBounds anyDetail <|
    let mine := s.sess.filter fun p => p.2.owner == w.context
    require (mine.length < (s.tenants.getD w.context {}).quotas.sess) cQuotaExceeded anyDetail <|
    let sid := lowestFree s.sess
    match freeDir s maxPages with
    | none => .error (cTableFull, anyDetail)
    | some dir =>
      require (sid < 1048576) cTableFull anyDetail <|
      let g : GenSess := { owner := w.context, state := .opened, dir, maxPages, last := s.ptp.now }
      changed w 0xFF (leBytes 4 sid) (leBytes 4 sid) { s with sess := s.sess.put sid g }) s

/-- A closing session lets its pages go (R381, 10 R297); their zeroing ends the close. -/
def letPages (sid : Nat) (g : GenSess) (s : State) : State :=
  let s := g.pages.foldl (fun s a => match s.regions.find? fun r => r.base == a with
    | some r => releaseRegion r s
    | none => s) s
  let size := g.pages.length * g.pageBytes
  let s := modTenant g.owner (fun t => { t with lpUsed := t.lpUsed - size }) s
  closeZeroed { s with sess := s.sess.upd sid fun x => { x with state := .closing } }

/-- `SESS.CLOSE`: a session that no request holds is closed; the command completes once its pages are zeroed (R381). -/
def execSessClose (h : Hdr) (sid : Nat) (s : State) : Host.Outcome State Fault Refusal :=
  command h 0x0404 .holder false [] (.sessClose h sid) (fun w snd s =>
    require (sessAuth snd s sid) cDenied anyDetail <|
    require (sid < 1048576) cFieldRange anyDetail <|
    match s.sess.get sid with
    | none => .error (cStateConflict, anyDetail)
    | some g =>
      require (g.state == .opened) cStateConflict anyDetail <|
      .ok (letPages sid g { accept w s with sess := (accept w s).sess.put sid { g with closeWait := some w } })) s

end Sys2Proof.Machine
end

