-- ==== Sys2Proof/Machine/HostWindow.lean ====
section
/-! DEFINITION. Answers to the window reads of commands (15 R438): `WDATA` frames, after whose last byte the command goes on, and the
window timeout. -/

namespace Sys2Proof.Machine

/-- A command whose window reads are over, run to its end: every command that reads a window. -/
def resumeCmd (c : Instr) (s : State) : Host.Outcome State Fault Refusal :=
  match c with
  | .baseLoad h man image golden m bytes => execBaseLoad h man image golden m bytes s
  | .scoreLoad h slot r file => execScoreLoad h slot r file s
  | .jobStart h f => execJobStart h f s
  | .jobInput h slot bar addr r bytes => execJobInput h slot bar addr r bytes s
  | .adaptRegister h f r bytes => execAdaptRegister h f r bytes s
  | .adaptProbe h id slot aslot items tol set refs ref bs => execAdaptProbe h id slot aslot items tol set refs ref bs s
  | .reqSubmit h f => execReqSubmit h f s
  | .configStage h r image => execConfigStage h r image s
  | .fwStage h r image => execFwStage h r image s
  | _ => .next s

/-- `WDATA_FRAME`: data that answer a window read; the command goes on once the last byte is there (R438). -/
def execWdataFrame (f : MbFrame) (s : State) : Host.Outcome State Fault Refusal :=
  if !ethUp s then .next s
  else
    let r := acceptSeq 7 f s
    let s := r.1
    let asked (x : WinRead) (prin : List Byte) : Bool := x.sess == f.session && x.ref == f.ref &&
      s.accepted.any fun a => a.sess == x.sess && a.ref == x.ref && a.prin == prin
    match r.2.bind fun y => s.winReads.find? fun x => asked x y.prin with
    | some x =>
      let x' := { x with left := x.left - (f.payload.length - 8) }
      let s := { s with winReads := s.winReads.map fun y => if y = x then x' else y }
      if x'.left = 0 then resumeCmd x.cmd s else .next s
    | none => .next s

/-- What a command that reads its window has in progress is as before (16 R473, R471, 12 R478). -/
def undoRead (c : Instr) (s : State) : State :=
  match c with
  | .baseLoad h _ _ _ _ _ => baseLoadState h s
  | .scoreLoad h slot _ _ => loadingState h slot s
  | .adaptRegister h f _ _ => registerState h f s
  | _ => s

/-- The window timeout in nanoseconds (R438, 18 R525). -/
def windowNs (s : State) : Nat := orDefault s.setup.settings.windowMs 1000 * 1000000

/-- `WINDOW_TIMEOUT` at a time: a read that stays unanswered for the window timeout ends its command with `HOST_TIMEOUT` (R438);
one whose last byte has come waits for no answer. -/
def execWindowTimeout (sess ref t : Nat) (s : State) : Host.Outcome State Fault Refusal :=
  let s := atTime t s
  let mine (a b : Nat) : Bool := a == sess && b == ref
  match s.winReads.find? (fun x => mine x.sess x.ref), s.accepted.find? (fun a => mine a.sess a.ref) with
  | some x, some w =>
    if x.left = 0 || s.ptp.now < x.since + windowNs s then .next s
    else .next (complete w cHostTimeout noDetail [] (undoRead x.cmd { s with winReads := s.winReads.filter fun y => !mine y.sess y.ref }))
  | _, _ => .next s

/-! ## Association (R433) -/

/-- The inbound queue is emptied: what it holds has no effect, that is its frames, the commands that still read their window and
the inputs that wait for their bar; none of them completes (R433, R452). -/
def emptyInbound (s : State) : State :=
  let inputs := s.slots.flatMap fun p => p.2.job.toList.flatMap fun j => j.inputs.filterMap (·.w)
  let reads := s.winReads
  let gone (a : Wait) : Bool := reads.any (fun r => r.sess == a.sess && r.ref == a.ref) ||
    inputs.any fun w => w.sess == a.sess && w.ref == a.ref
  let s := reads.foldl (fun s r => undoRead r.cmd s) s
  let s := (s.slots.map (·.1)).foldl (fun s i => modJob i (fun j => { j with inputs := j.inputs.filter (·.w.isNone) }) s) s
  { s with winReads := [], accepted := s.accepted.filter (fun a => !gone a), cmdParts := [],
           inq := { s.inq with classes := [], above := false } }

/-- `ASSOC`: a host source binds the port (R433): every session closes, the inbound queue empties, every sequence restarts
at 0, and the answer carries the nonce and the new association number. -/
def execAssoc (src : Nat) (nonce : List Byte) (s : State) : Host.Outcome State Fault Refusal :=
  if !ethUp s then .next s
  else if nonce.length != 16 then .next (ethDiscard s)
  else
    let s := (s.sessions.map (·.1)).foldl (fun s i => closeSession i s) s
    let r := nextFree (emptyInbound s)
    let num := Config.freeNat r.1 % (2 ^ 32 - 1) + 1
    let s := { r.2 with inSeq := [], outSeq := [], assocNum := some (src, num), ackOwed := 0, ackDup := false }
    .next (sendPlain 1 (nonce ++ leBytes 4 num) s)

end Sys2Proof.Machine
end

