-- ==== Sys2Proof/Machine/Dispatch.lean ====
section
/-! DEFINITION. One arm per command: a direct call of its meaning. -/

namespace Sys2Proof.Machine

/-- The effect of a command on everything but the queue. -/
def exec (i : Instr) (s : State) : Host.Outcome State Fault Refusal :=
  match i with
  | .nop c k => Sys2Proof.Machine.execNop c k s
  | .loop c k xc count body => Sys2Proof.Machine.execLoop c k xc count body s
  | .waitBeat c k target rel => Sys2Proof.Machine.execWaitBeat c k target rel s
  | .rest c k win => Sys2Proof.Machine.execRest c k win s
  | .finish c k => Sys2Proof.Machine.execFinish c k s
  | .xOp c k xd xa xb fn => Sys2Proof.Machine.execXOp c k xd xa xb fn s
  | .xOpi c k xd xa fn imm => Sys2Proof.Machine.execXOpi c k xd xa fn imm s
  | .xSet c k xd imm => Sys2Proof.Machine.execXSet c k xd imm s
  | .xGet c k xd src => Sys2Proof.Machine.execXGet c k xd src s
  | .mCmp c k md xa rhs cc => Sys2Proof.Machine.execMCmp c k md xa rhs cc s
  | .mRange c k md lo hi => Sys2Proof.Machine.execMRange c k md lo hi s
  | .mLogic c k md ma mb fn => Sys2Proof.Machine.execMLogic c k md ma mb fn s
  | .ml c k f ecc => Sys2Proof.Machine.execMl c k f ecc s
  | .mm c k f ecc => Sys2Proof.Machine.execMm c k f ecc s
  | .mmCompletionToken c => Sys2Proof.Machine.execMmCompletionToken c s
  | .md c k f ecc => Sys2Proof.Machine.execMd c k f ecc s
  | .mc c k f ecc => Sys2Proof.Machine.execMc c k f ecc s
  | .chainStreamArrival ix => Sys2Proof.Machine.execChainStreamArrival ix s
  | .vld c k f ecc => Sys2Proof.Machine.execVld c k f ecc s
  | .vst c k f ecc => Sys2Proof.Machine.execVst c k f ecc s
  | .roll c k f ecc => Sys2Proof.Machine.execRoll c k f ecc s
  | .vperm c k f ecc => Sys2Proof.Machine.execVperm c k f ecc s
  | .vflag c k xd clr => Sys2Proof.Machine.execVflag c k xd clr s
  | .send c k f ecc => Sys2Proof.Machine.execSend c k f ecc s
  | .recv c k f ecc => Sys2Proof.Machine.execRecv c k f ecc s
  | .messageArrival ix ecc => Sys2Proof.Machine.execMessageArrival ix ecc s
  | .ghostPause part => Sys2Proof.Machine.execGhostPause part s
  | .ghostSaveDone part => Sys2Proof.Machine.execGhostSaveDone part s
  | .dma c k desc xo => Sys2Proof.Machine.execDma c k desc xo s
  | .dmaComplete c ix err => Sys2Proof.Machine.execDmaComplete c ix err s
  | .dmaWait c k cnt => Sys2Proof.Machine.execDmaWait c k cnt s
  | .partitionScrubDone part => Sys2Proof.Machine.execPartitionScrubDone part s
  | .shadowCheckDone c => Sys2Proof.Machine.execShadowCheckDone c s
  | .chainIntake ix => Sys2Proof.Machine.execChainIntake ix s
  | .routeContribution ix => Sys2Proof.Machine.execRouteContribution ix s
  | .gradientIntake slot red => Sys2Proof.Machine.execGradientIntake slot red s
  | .updateElement slot entry err => Sys2Proof.Machine.execUpdateElement slot entry err s
  | .outcomeReport ix => Sys2Proof.Machine.execOutcomeReport ix s
  | .shardFetchArrival slot shard version bytes => Sys2Proof.Machine.execShardFetchArrival slot shard version bytes s
  | .gatherArrival slot gather version bytes => Sys2Proof.Machine.execGatherArrival slot gather version bytes s
  | .handDrained slot hand => Sys2Proof.Machine.execHandDrained slot hand s
  | .barWordsCombined slot others => Sys2Proof.Machine.execBarWordsCombined slot others s
  | .voteEnter slot => Sys2Proof.Machine.execVoteEnter slot s
  | .downbeatVerdict slot others block => Sys2Proof.Machine.execDownbeatVerdict slot others block s
  | .barOpen slot => Sys2Proof.Machine.execBarOpen slot s
  | .lookaheadOpen slot => Sys2Proof.Machine.execLookaheadOpen slot s
  | .barTimeout slot t => Sys2Proof.Machine.execBarTimeout slot t s
  | .verdictQueryReply slot member verdict block => Sys2Proof.Machine.execVerdictQueryReply slot member verdict block s
  | .replicaComparison slot recs => Sys2Proof.Machine.execReplicaComparison slot recs s
  | .samplerDraw ix => Sys2Proof.Machine.execSamplerDraw ix s
  | .promotionComplete page err => Sys2Proof.Machine.execPromotionComplete page err s
  | .demotionComplete page => Sys2Proof.Machine.execDemotionComplete page s
  | .pageZeroingDone page => Sys2Proof.Machine.execPageZeroingDone page s
  | .baseScrubRead mapping err => Sys2Proof.Machine.execBaseScrubRead mapping err s
  | .baseReloadDone mapping unread peer => Sys2Proof.Machine.execBaseReloadDone mapping unread peer s
  | .pageRecoveryDone page found => Sys2Proof.Machine.execPageRecoveryDone page found s
  | .reencryptPage page err => Sys2Proof.Machine.execReencryptPage page err s
  | .glPortTraining port lanes peerDev peerPort => Sys2Proof.Machine.execGlPortTraining port lanes peerDev peerPort s
  | .glFrameReceive port f => Sys2Proof.Machine.execGlFrameReceive port f s
  | .glControlFrame port f => Sys2Proof.Machine.execGlControlFrame port f s
  | .glControlSendTimer port => Sys2Proof.Machine.execGlControlSendTimer port s
  | .glClassRewind port cls => Sys2Proof.Machine.execGlClassRewind port cls s
  | .glPortDown port => Sys2Proof.Machine.execGlPortDown port s
  | .ethLinkTraining l01 l23 => Sys2Proof.Machine.execEthLinkTraining l01 l23 s
  | .arpRequest ip => Sys2Proof.Machine.execArpRequest ip s
  | .assoc src nonce => Sys2Proof.Machine.execAssoc src nonce s
  | .openStep1 f key xkey nonce contexts window => Sys2Proof.Machine.execOpenStep1 f key xkey nonce contexts window s
  | .openStep3 f sigOk => Sys2Proof.Machine.execOpenStep3 f sigOk s
  | .cmdFrame f => Sys2Proof.Machine.execCmdFrame f s
  | .ackFrame f next => Sys2Proof.Machine.execAckFrame f next s
  | .ackSendTimer => Sys2Proof.Machine.execAckSendTimer s
  | .wdataFrame f => Sys2Proof.Machine.execWdataFrame f s
  | .closeFrame f => Sys2Proof.Machine.execCloseFrame f s
  | .retransmitTimeout cls t => Sys2Proof.Machine.execRetransmitTimeout cls t s
  | .outboundFrameSend => Sys2Proof.Machine.execOutboundFrameSend s
  | .noticePacketClose sess t => Sys2Proof.Machine.execNoticePacketClose sess t s
  | .sessionIdleTimeout sess t => Sys2Proof.Machine.execSessionIdleTimeout sess t s
  | .lingerExpiry ix t => Sys2Proof.Machine.execLingerExpiry ix t s
  | .windowTimeout sess ref t => Sys2Proof.Machine.execWindowTimeout sess ref t s
  | .parkedItemResume cls => Sys2Proof.Machine.execParkedItemResume cls s
  | .ptpSync domain time t => Sys2Proof.Machine.execPtpSync domain time t s
  | .ptpHoldover t => Sys2Proof.Machine.execPtpHoldover t s
  | .stateRead h words => Sys2Proof.Machine.execStateRead h words s
  | .deviceReset h confirm => Sys2Proof.Machine.execDeviceReset h confirm s
  | .portLevel h queue kib => Sys2Proof.Machine.execPortLevel h queue kib s
  | .baseLoad h man image golden m bytes => Sys2Proof.Machine.execBaseLoad h man image golden m bytes s
  | .pwrCap h watts => Sys2Proof.Machine.execPwrCap h watts s
  | .scoreLoad h slot r file => Sys2Proof.Machine.execScoreLoad h slot r file s
  | .scoreUnload h slot => Sys2Proof.Machine.execScoreUnload h slot s
  | .jobStart h f => Sys2Proof.Machine.execJobStart h f s
  | .jobStop h slot mode after ckpt => Sys2Proof.Machine.execJobStop h slot mode after ckpt s
  | .jobBind h slot part => Sys2Proof.Machine.execJobBind h slot part s
  | .jobAdmit h slot rank epoch device ident tables => Sys2Proof.Machine.execJobAdmit h slot rank epoch device ident tables s
  | .jobReshard h old new forced map tables => Sys2Proof.Machine.execJobReshard h old new forced map tables s
  | .jobNorms h slot first count r => Sys2Proof.Machine.execJobNorms h slot first count r s
  | .jobCheckpoint h slot dest => Sys2Proof.Machine.execJobCheckpoint h slot dest s
  | .jobInput h slot bar addr r bytes => Sys2Proof.Machine.execJobInput h slot bar addr r bytes s
  | .adaptRegister h f r bytes => Sys2Proof.Machine.execAdaptRegister h f r bytes s
  | .adaptQuery h id => Sys2Proof.Machine.execAdaptQuery h id s
  | .adaptRead h id r => Sys2Proof.Machine.execAdaptRead h id r s
  | .adaptUnregister h id => Sys2Proof.Machine.execAdaptUnregister h id s
  | .adaptClaim h slot aslot id prio cbar => Sys2Proof.Machine.execAdaptClaim h slot aslot id prio cbar s
  | .adaptRelease h slot aslot cbar => Sys2Proof.Machine.execAdaptRelease h slot aslot cbar s
  | .adaptRevoke h id => Sys2Proof.Machine.execAdaptRevoke h id s
  | .adaptGrant h id add context => Sys2Proof.Machine.execAdaptGrant h id add context s
  | .adaptProbe h id slot aslot items tol set refs ref setBytes => Sys2Proof.Machine.execAdaptProbe h id slot aslot items tol set refs ref setBytes s
  | .reqSubmit h f => Sys2Proof.Machine.execReqSubmit h f s
  | .reqCancel h id => Sys2Proof.Machine.execReqCancel h id s
  | .sessOpen h maxPages => Sys2Proof.Machine.execSessOpen h maxPages s
  | .sessClose h sid => Sys2Proof.Machine.execSessClose h sid s
  | .tenantOpen h context key => Sys2Proof.Machine.execTenantOpen h context key s
  | .tenantQuota h context mask q => Sys2Proof.Machine.execTenantQuota h context mask q s
  | .tenantClose h context => Sys2Proof.Machine.execTenantClose h context s
  | .attestReport h nonce view r => Sys2Proof.Machine.execAttestReport h nonce view r s
  | .keyRotate h target cls => Sys2Proof.Machine.execKeyRotate h target cls s
  | .configStage h r image => Sys2Proof.Machine.execConfigStage h r image s
  | .fwStage h r image => Sys2Proof.Machine.execFwStage h r image s
  | .prinKey h retire key => Sys2Proof.Machine.execPrinKey h retire key s
  | .logRead h first count r => Sys2Proof.Machine.execLogRead h first count r s
  | .sealReturn h confirm => Sys2Proof.Machine.execSealReturn h confirm s
  | .powerUpStart obs => Sys2Proof.Machine.execPowerUpStart obs s
  | .resetNAssert => Sys2Proof.Machine.execResetNAssert s
  | .pwrOkFall => Sys2Proof.Machine.execPwrOkFall s
  | .inputPowerLoss => Sys2Proof.Machine.execInputPowerLoss s
  | .thermalComparatorTrip hand => Sys2Proof.Machine.execThermalComparatorTrip hand s
  | .refclkLoss eth lost => Sys2Proof.Machine.execRefclkLoss eth lost s
  | .batonConfirm hand ok t => Sys2Proof.Machine.execBatonConfirm hand ok t s
  | .timekeeperResetTimeout t => Sys2Proof.Machine.execTimekeeperResetTimeout t s
  | .handFault hand cause t => Sys2Proof.Machine.execHandFault hand cause t s
  | .handRestartDone hand obs => Sys2Proof.Machine.execHandRestartDone hand obs s
  | .hubSelfRestart t => Sys2Proof.Machine.execHubSelfRestart t s
  | .powerControlWindow t mean hand0 hand1 volts10mV => Sys2Proof.Machine.execPowerControlWindow t mean hand0 hand1 volts10mV s
  | .junctionTemperatureSample hand sensor temp16 t => Sys2Proof.Machine.execJunctionTemperatureSample hand sensor temp16 t s
  | .monitorPeriodicSample block inst value t => Sys2Proof.Machine.execMonitorPeriodicSample block inst value t s
  | .retuneInterval hand t => Sys2Proof.Machine.execRetuneInterval hand t s
  | .ageingMeasurementDone hand obs => Sys2Proof.Machine.execAgeingMeasurementDone hand obs s
  | .logStageFlush => Sys2Proof.Machine.execLogStageFlush s
  | .logSignatureTimer => Sys2Proof.Machine.execLogSignatureTimer s
  | .verdictRunEntryClose slot => Sys2Proof.Machine.execVerdictRunEntryClose slot s
  | .ethLinkDown => Sys2Proof.Machine.execEthLinkDown s
  | .nonMbaingFrame => Sys2Proof.Machine.execNonMbaingFrame s
  | .tempoChangeComplete hand t => Sys2Proof.Machine.execTempoChangeComplete hand t s
  | .makerUnseal responseOk => Sys2Proof.Machine.execMakerUnseal responseOk s

end Sys2Proof.Machine
end

