-- ==== Sys2Proof/Machine/Encode.lean ====
section
/-! DEFINITION. The encoder of core instruction words (03 R79, R82, R84 to R89), written from the tables that give each field its bits. -/

namespace Sys2Proof.Machine

/-- Fields laid into a word: each value at its lowest bit. -/
def wordFields (l : List (Nat × Nat)) : Nat := l.foldr (fun f a => f.2 * 2 ^ f.1 + a) 0

/-- A one-bit field. -/
def flagField (b : Bool) : Nat := if b then 1 else 0

/-- `BW` (R80). -/
def bwField : BW → Nat
  | .none => 0
  | .bt => 1
  | .bc => 2
  | .bs => 3

/-- A bound of `m.range` at its lowest bit, with its flag (R86). -/
def boundFields (flag lo : Nat) : Opnd → List (Nat × Nat)
  | .imm n => [(lo, n)]
  | .reg x => [(flag, 1), (lo, x)]

/-- Opcode and class fields (R82, R84 to R89): each pair gives a field's lowest bit and its value. -/
def insnFields : CoreInsn → List (Nat × Nat)
  | .nop => [(58, 0x00)]
  | .loop xc (.imm n) body => [(58, 0x01), (47, xc), (26, n), (12, body)]
  | .loop xc (.reg x) body => [(58, 0x01), (47, xc), (46, 1), (26, x), (12, body)]
  | .waitBeat target rel => [(58, 0x02), (36, target), (35, flagField rel)]
  | .rest win => [(58, 0x03), (46, win)]
  | .finish => [(58, 0x04)]
  | .xOp xd xa xb fn => [(58, 0x08), (47, xd), (42, xa), (37, xb), (33, fn)]
  | .xOpi xd xa fn imm => [(58, 0x09), (47, xd), (42, xa), (38, fn), (6, imm.toNat)]
  | .xSet xd imm => [(58, 0x0A), (47, xd), (0, imm.toNat)]
  | .xGet xd src => [(58, 0x0B), (47, xd), (43, src)]
  | .mCmp md xa (.reg x) cc => [(58, 0x10), (49, md), (44, xa), (38, x), (35, cc)]
  | .mCmp md xa (.imm v) cc => [(58, 0x10), (49, md), (44, xa), (43, 1), (35, cc), (19, v.toNat)]
  | .mRange md lo hi => [(58, 0x11), (49, md)] ++ boundFields 48 39 lo ++ boundFields 38 29 hi
  | .mLogic md ma mb fn => [(58, 0x12), (49, md), (46, ma), (43, mb), (40, fn)]
  | .ml f => [(58, 0x14), (48, f.wfmt), (46, f.blk), (38, f.lanes), (33, f.xa), (21, f.trow), (11, f.cpl), (1, f.ck),
      (0, flagField f.spl)]
  | .mm f => [(58, 0x15), (48, f.shape), (44, f.afmt), (43, flagField f.bank), (42, flagField f.zero), (39, f.mrow),
      (29, f.depth), (24, f.xa), (8, f.aline), (0, f.astr)]
  | .md f => [(58, 0x16), (50, f.dfmt), (49, flagField f.bank), (46, f.mrow), (41, f.xa), (25, f.dline), (17, f.lanes),
      (9, f.dstr)]
  | .mc f => [(58, 0x17), (51, flagField f.bank), (48, f.mrow), (46, f.dir), (38, f.lanes)]
  | .vld f => [(58, 0x20), (46, f.slot), (37, f.vl), (33, f.fmt), (28, f.xa), (12, f.line)]
  | .vst f => [(58, 0x21), (46, f.slot), (37, f.vl), (33, f.fmt), (28, f.xa), (12, f.line)]
  | .roll f => [(58, 0x22), (44, f.rd), (38, f.sa), (32, f.sb), (26, f.sc), (20, f.sd), (14, f.se), (5, f.vl), (2, f.mv)]
  | .vperm f => [(58, 0x23), (46, f.src), (40, f.idx), (34, f.dst), (25, f.vl)]
  | .vflag xd clr => [(58, 0x24), (47, xd), (46, flagField clr)]
  | .send f => [(58, 0x30), (50, f.dk), (40, f.dest), (35, f.xa), (19, f.sline), (10, f.len)]
  | .recv f => [(58, 0x31), (50, f.sk), (40, f.src), (35, f.xa), (19, f.dline), (10, f.len), (9, flagField f.bsrc),
      (4, f.xb)]
  | .dma desc xo => [(58, 0x38), (40, desc), (35, xo)]
  | .dmaWait cnt => [(58, 0x39), (48, cnt)]

/-- The word of an instruction (R79). -/
def encodeOp (op : CoreOp) : Nat :=
  wordFields ([(56, bwField op.ctl.bw), (55, flagField op.ctl.pinv), (52, op.ctl.pm)] ++ insnFields op.insn)

end Sys2Proof.Machine
end

