-- ==== Sys2Proof/Safety.lean ====
section
/-! DEFINITION. The terms that claims are stated in: memory in canonical form, a step that neither stops nor refuses,
when a core step takes effect and the state in which its instruction has retired, and what stays as it was. -/

namespace Sys2Proof.Safety

/-- The memory of the tiers and of every core is in canonical form. -/
def memOk (s : Machine.State) : Bool := Mem.wf s.mem && s.cores.all fun p => Mem.wf p.2.sram

/-- A step answers a next state. -/
def goesOn (o : Host.Outcome Machine.State Machine.Fault Machine.Refusal) : Bool :=
  match o with
  | .next _ => true
  | _ => false

/-- The next `n` steps from a state all answer a next state. -/
def runsFor : Nat → Machine.State → Bool
  | 0, _ => true
  | n + 1, s => match Machine.step s with
    | .next t => runsFor n t
    | _ => false

/-! ## Core steps -/

/-- A core step takes effect: the core exists, its score runs there, the instruction is the next to issue (03 R73, R80)
and its predicate holds (R75). -/
def Issuing (s : Machine.State) (c : CoreRef) (k : Ctl) (insn : CoreInsn) (e : Machine.Env) : Prop :=
  Machine.noCore c = false ∧ Machine.envOf s c = some e ∧ Machine.issues s e ⟨k, insn⟩ = true ∧
    Machine.predHolds e.ctx k = true

/-- A unit's score is loaded and its run open on an existing core: what a completion there finds. -/
def Standing (s : Machine.State) (c : CoreRef) (e : Machine.Env) : Prop :=
  Machine.noCore c = false ∧ Machine.envOf s c = some e

/-- The cells of a core's store that are not among the bytes of some line ranges stay as they were. -/
def SramKept (a b : Machine.Core) (lines : List (Nat × Nat)) : Prop :=
  ∀ x, (∀ l ∈ lines, ¬ (l.1 * 64 ≤ x ∧ x < (l.1 + l.2) * 64)) → Mem.read b.sram x = Mem.read a.sram x

/-- The instruction retires with the registers `q` in state `s`: the program counter steps (R76) and the beat-wait mode
applies (R80). -/
def retire (e : Machine.Env) (k : Ctl) (target : Option Nat) (q : Machine.CoreCtx) (s : Machine.State) : Machine.State :=
  Machine.applyBw e k target (Machine.modCtx e.key e.ghost (fun _ => Machine.stepPc q) s)

/-- The registers of the unit of a core step in a state. -/
def regsOf (e : Machine.Env) (s : Machine.State) : Machine.CoreCtx := Machine.ctxOf (Machine.getCore s e.key) e.ghost

/-- `q` is `c` with index register `xd` set to a value that meets `P` and nothing else changed; x0 takes no write
(R64). -/
def IndexWritten (c q : Machine.CoreCtx) (xd : Nat) (P : Word → Prop) : Prop :=
  q = { c with x := q.x } ∧ (∀ i, i ≠ xd → Machine.xRead q i = Machine.xRead c i) ∧ Machine.xRead q 0 = 0 ∧
    (xd ≠ 0 → P (Machine.xRead q xd))

/-- `q` is `c` with mask register `md` set bit by bit as `P` says and nothing else changed; m0 takes no write (R64). -/
def MaskWritten (c q : Machine.CoreCtx) (md : Nat) (P : Nat → Bool) : Prop :=
  q = { c with m := q.m } ∧ (∀ i, i ≠ md → Machine.mRead q i = Machine.mRead c i) ∧
    Machine.mRead q 0 = BitVec.allOnes 256 ∧ (md ≠ 0 → ∀ b, b < 256 → (Machine.mRead q md).getLsbD b = P b)

/-- The index functions as R77 and R85 give them: `v` is the result of function `fn` on `a` and `b`. -/
def IndexRule (fn : Nat) (a b v : Word) : Prop :=
  let sh := b.toNat % 32
  (fn = 0 ∧ v.toNat = (a.toNat + b.toNat) % 2 ^ 32) ∨
  (fn = 1 ∧ (v.toNat + b.toNat) % 2 ^ 32 = a.toNat) ∨
  (fn = 2 ∧ v.toNat = a.toNat * b.toNat % 2 ^ 32) ∨
  (fn = 3 ∧ ∀ i, v.getLsbD i = (a.getLsbD i && b.getLsbD i)) ∨
  (fn = 4 ∧ ∀ i, v.getLsbD i = (a.getLsbD i || b.getLsbD i)) ∨
  (fn = 5 ∧ ∀ i, v.getLsbD i = (a.getLsbD i != b.getLsbD i)) ∨
  (fn = 6 ∧ v.toNat = a.toNat * 2 ^ sh % 2 ^ 32) ∨
  (fn = 7 ∧ v.toNat = a.toNat / 2 ^ sh) ∨
  (fn = 8 ∧ v.toInt = a.toInt / 2 ^ sh) ∨
  (fn = 9 ∧ v.toInt = min a.toInt b.toInt) ∨
  (fn = 10 ∧ v.toInt = max a.toInt b.toInt) ∨
  (fn = 11 ∧ v.toNat = min a.toNat b.toNat) ∨
  (fn = 12 ∧ v.toNat = max a.toNat b.toNat)

/-- The comparisons of `m.cmp` as R86 gives them. -/
def CompareRule (cc : Nat) (a b : Word) : Prop :=
  (cc = 0 ∧ a = b) ∨ (cc = 1 ∧ a ≠ b) ∨ (cc = 2 ∧ a.toInt < b.toInt) ∨ (cc = 3 ∧ b.toInt ≤ a.toInt) ∨
    (cc = 4 ∧ a.toNat < b.toNat) ∨ (cc = 5 ∧ b.toNat ≤ a.toNat)

/-- The values that `x.get` reads, by source code (R78). -/
def SourceRule (e : Machine.Env) (src v : Nat) : Prop :=
  (src = 0 ∧ v = e.run.bar % 2 ^ 32) ∨ (src = 1 ∧ v = e.run.bar / 2 ^ 32 % 256) ∨ (src = 2 ∧ v = e.ctx.beat) ∨
  (src = 3 ∧ v = e.job.rank) ∨ (src = 4 ∧ v = e.score.replicas) ∨ (src = 5 ∧ v = e.row) ∨ (src = 6 ∧ v = e.col) ∨
  (src = 7 ∧ v = e.score.rows) ∨ (src = 8 ∧ v = e.score.cols) ∨ (src = 9 ∧ v = e.slot) ∨ (src = 10 ∧ v = 128)

/-! ## Host commands -/

/-- A host command passes everything that stands before its own checks (15 R445, R452; 16 R461, R466, R469, R471,
R480, R481): its sender is known and may send it in the context it names, its class is not parked, the list of accepted
commands has room, no earlier command on its object still executes, no memory that it reaches lies in a hand in reset, the
device state admits it, and its header is well formed. Its window reads, if it makes any, are answered in its own step. -/
def Accepts (s : Machine.State) (h : Hdr) (op : Nat) (who : Machine.Who) (exempt : Bool) (cmd : Instr)
    (snd : Machine.Sender) : Prop :=
  Machine.senderOf s h = some snd ∧ h.win = 0 ∧ (s.inq.cls h.cls).parked = false ∧ s.accepted.length < 2047 ∧
    (exempt = true ∨ Machine.waitsFor s cmd = false) ∧ Machine.cmdAsleep s cmd = false ∧
  Machine.gate h op who snd (Machine.takeCmd h s) = none

/-- The record of an accepted command: who waits for its answer, since now. -/
def waitOf (s : Machine.State) (h : Hdr) (op : Nat) (snd : Machine.Sender) : Machine.Wait :=
  { sess := h.sess, ref := h.ref, cls := h.cls, context := h.context, opcode := op, since := s.ptp.now,
    prin := snd.prin }

/-- A command that reads without changing anything completes `OK` with its result. -/
def replied (w : Machine.Wait) (result : List Byte) (u : Machine.State) : Machine.State :=
  Machine.complete w Machine.cOk 0 result u

/-- A change that a command made is logged and the command completes `OK` with its result (16 R464, R484). -/
def finished (w : Machine.Wait) (slot : Nat) (detail result : List Byte) (u : Machine.State) : Machine.State :=
  Machine.complete w Machine.cOk 0 result (Machine.logChange w slot 0 detail u)

/-- A command that completes later joins the commands that are accepted and not complete (R469). -/
def admitted (w : Machine.Wait) (u : Machine.State) : Machine.State := { u with accepted := u.accepted ++ [w] }

/-- A context with other principal keys. -/
def withKeys (t : Machine.Tenant) (keys : List (List Byte)) : Machine.Tenant := { t with keys }

/-- A context with other quotas. -/
def withQuotas (t : Machine.Tenant) (quotas : Quotas) : Machine.Tenant := { t with quotas }

/-- `t` with the host's side of the device as `s` has it: the peal queues and their sequences, sessions, kept records,
accepted commands, monitors and the change log. -/
def withHostSide (s t : Machine.State) : Machine.State :=
  { t with inq := s.inq, outq := s.outq, outSeq := s.outSeq, outStall := s.outStall, sessions := s.sessions,
           linger := s.linger, accepted := s.accepted, mons := s.mons, log := s.log, logStaged := s.logStaged,
           logUnsigned := s.logUnsigned, logSince := s.logSince }

end Sys2Proof.Safety
end

