-- ==== Sys2Proof/Certificates/Slice0/Obligations.lean ====
section
/-! DEFINITION. The statements for the provers. -/

open Sys2Proof Sys2Proof.Machine Sys2Proof.Safety

/-! ## The queue (95; log entry 4) -/

/-- A step takes the command at the front of the queue and runs it with the queue's rest. -/
def Obligations.StepRunsTheFrontCommand : Prop :=
  ∀ (c : Instr) (r : List Instr) (s : State), s.pending = c :: r → step s = exec c { s with pending := r }

/-- On an empty queue one nanosecond passes on the hub timebase and nothing else changes (DESIGN CHOICE, log entry 4). -/
def Obligations.EmptyQueueTicksTheTimebase : Prop :=
  ∀ s : State, s.pending = [] →
    ∃ t, step s = .next t ∧ t.ptp = { s.ptp with now := s.ptp.now + 1 } ∧ { t with ptp := s.ptp } = s

/-! ## Index, mask and control instructions (03 R75 to R86) -/

/-- `x.op`, `x.opi`, `x.set` and `x.get` complete: the destination register holds the value of R77, R78 and R85, x0
stays zero, and no other register changes but those of retiring. -/
def Obligations.IndexInstructionsComplete : Prop :=
  ∀ (s : State) (c : CoreRef) (k : Ctl) (e : Env) (xd : Nat), xd < 32 →
    (∀ xa xb fn, fn ≤ 12 → Issuing s c k (.xOp xd xa xb fn) e →
      ∃ q, exec (.xOp c k xd xa xb fn) s = .next (retire e k none q s) ∧
        IndexWritten e.ctx q xd (IndexRule fn (xRead e.ctx xa) (xRead e.ctx xb))) ∧
    (∀ xa fn imm, fn ≤ 12 → Issuing s c k (.xOpi xd xa fn imm) e →
      ∃ q, exec (.xOpi c k xd xa fn imm) s = .next (retire e k none q s) ∧
        IndexWritten e.ctx q xd (IndexRule fn (xRead e.ctx xa) imm)) ∧
    (∀ imm, Issuing s c k (.xSet xd imm) e →
      ∃ q, exec (.xSet c k xd imm) s = .next (retire e k none q s) ∧ IndexWritten e.ctx q xd (· = imm)) ∧
    (∀ src, src ≤ 10 → Issuing s c k (.xGet xd src) e →
      ∃ q v, exec (.xGet c k xd src) s = .next (retire e k none q s) ∧ SourceRule e src v ∧
        IndexWritten e.ctx q xd (· = BitVec.ofNat 32 v))

/-- `m.cmp`, `m.range` and `m.logic` complete: the destination mask holds the bits of R86, m0 stays all ones, and no
other register changes but those of retiring. -/
def Obligations.MaskInstructionsComplete : Prop :=
  ∀ (s : State) (c : CoreRef) (k : Ctl) (e : Env) (d : Nat), d < 8 →
    (∀ xa rhs cc, cc ≤ 5 → Issuing s c k (.mCmp d xa rhs cc) e →
      ∃ q, exec (.mCmp c k d xa rhs cc) s = .next (retire e k none q s) ∧
        ∃ hold : Bool, (hold = true ↔ CompareRule cc (xRead e.ctx xa)
            (match rhs with
              | .reg x => xRead e.ctx x
              | .imm v => v.signExtend 32)) ∧
          MaskWritten e.ctx q d (fun _ => hold)) ∧
    (∀ lo hi l h, (∀ n, lo = .imm n → l = n) → (∀ x, lo = .reg x → l = (xRead e.ctx x).toNat ∧ l ≤ 256) →
      (∀ n, hi = .imm n → h = n ∧ h ≤ 256) → (∀ x, hi = .reg x → h = (xRead e.ctx x).toNat ∧ h ≤ 256) →
      Issuing s c k (.mRange d lo hi) e →
      ∃ q, exec (.mRange c k d lo hi) s = .next (retire e k none q s) ∧
        MaskWritten e.ctx q d (fun b => decide (l ≤ b) && decide (b < h))) ∧
    (∀ ma mb fn, fn ≤ 4 → Issuing s c k (.mLogic d ma mb fn) e →
      ∃ q, exec (.mLogic c k d ma mb fn) s = .next (retire e k none q s) ∧
        MaskWritten e.ctx q d (fun b =>
          let x := (mRead e.ctx ma).getLsbD b
          let y := (mRead e.ctx mb).getLsbD b
          if fn = 0 then x && y else if fn = 1 then x || y else if fn = 2 then x != y
          else if fn = 3 then x && !y else !x))

/-- `nop`, `loop`, `wait.beat` and `dma.wait` complete: a loop of count n opens its body at iteration 0 with its index
register zero, or skips it where n is 0 (R76); `wait.beat` makes the beat wait for its target (R84); `dma.wait` retires
once no transfer of its counter is incomplete (R100). -/
def Obligations.ControlInstructionsComplete : Prop :=
  ∀ (s : State) (c : CoreRef) (k : Ctl) (e : Env),
    (Issuing s c k .nop e → exec (.nop c k) s = .next (retire e k none e.ctx s)) ∧
    (∀ xc count body n, 0 < xc → xc < 32 → 0 < n → (∀ i, count = .imm i → n = i) →
      (∀ x, count = .reg x → n = (xRead e.ctx x).toNat ∧ n ≤ 1048574) → Issuing s c k (.loop xc count body) e →
      ∃ q, exec (.loop c k xc count body) s =
          .next (applyBw e k none (modCtx e.key e.ghost (fun _ => q) s)) ∧
        q = { e.ctx with x := q.x, pc := e.ctx.pc + 1,
                         loops := ⟨e.ctx.pc + 1, e.ctx.pc + 1 + body, n, 0, xc⟩ :: e.ctx.loops } ∧
        xRead q xc = 0 ∧ ∀ i, i ≠ xc → xRead q i = xRead e.ctx i) ∧
    (∀ xc count body, (count = .imm 0 ∨ ∃ x, count = .reg x ∧ xRead e.ctx x = 0) →
      Issuing s c k (.loop xc count body) e →
      exec (.loop c k xc count body) s =
        .next (applyBw e k none (modCtx e.key e.ghost
          (fun _ => loopBack 5 { e.ctx with pc := e.ctx.pc + 1 + body }) s))) ∧
    (∀ target rel, let t := if rel then e.ctx.beat + target else target
      e.ctx.beat ≤ t → Issuing s c k (.waitBeat target rel) e →
      exec (.waitBeat c k target rel) s = .next (retire e k (some t) e.ctx s)) ∧
    (∀ cnt, (∀ d ∈ e.ctx.dmas, d.desc.counter ≠ cnt) → Issuing s c k (.dmaWait cnt) e →
      exec (.dmaWait c k cnt) s = .next (retire e k none e.ctx s))

/-- An instruction without a beat-wait mode retires with its registers alone: nothing of the state but the core's
record changes, and of that record only the registers of its own score, whose program counter has stepped. The program
counter after an instruction (R76): one further where no open loop's body ends there; the start of the body, with the
next iteration number in the loop's index register, where one does and iterations are left; past the loop, which
closes, after the last. -/
def Obligations.RetiringStepsTheProgram : Prop :=
  (∀ (s : State) (c : CoreRef) (e : Env) (k : Ctl) (q : CoreCtx), envOf s c = some e → k.bw = .none →
     let t := retire e k none q s
     { t with cores := s.cores } = s ∧ (∀ key, key ≠ e.key → getCore t key = getCore s key) ∧
       regsOf e t = stepPc q ∧ ctxOf (getCore t e.key) (!e.ghost) = ctxOf e.core (!e.ghost) ∧
       (getCore t e.key).sram = e.core.sram ∧ (getCore t e.key).inbox = e.core.inbox ∧
       (getCore t e.key).chainBuf = e.core.chainBuf ∧ (getCore t e.key).rest = e.core.rest) ∧
  (∀ q : CoreCtx,
     ((∀ f ∈ q.loops.head?, f.stop ≠ q.pc + 1) → stepPc q = { q with pc := q.pc + 1 }) ∧
     (∀ f r, q.loops = f :: r → f.stop = q.pc + 1 → f.iter + 1 < f.count → 0 < f.xc → f.xc < 32 →
       (stepPc q).pc = f.start ∧ (stepPc q).loops = { f with iter := f.iter + 1 } :: r ∧
         xRead (stepPc q) f.xc = BitVec.ofNat 32 (f.iter + 1) ∧
         ∀ i, i ≠ f.xc → xRead (stepPc q) i = xRead q i) ∧
     (∀ f r, q.loops = f :: r → f.stop = q.pc + 1 → f.count ≤ f.iter + 1 → (∀ g ∈ r.head?, g.stop ≠ q.pc + 1) →
       stepPc q = { q with pc := q.pc + 1, loops := r }))

/-- A false predicate leaves an instruction of any class no effect but its beat-wait mode (R75): no register but the
program counter changes, whatever the operands, and no field check applies. A core step whose instruction is not the
next to issue changes nothing, and one that names a core that the device does not have is no step (log entry 1). -/
def Obligations.IssueRulesOfCoreSteps : Prop :=
  (∀ (i : Instr) (s : State) (c : CoreRef) (k : Ctl) (op : CoreInsn) (e : Env), i.coreStep = some (c, k, op) →
     noCore c = false → envOf s c = some e → issues s e ⟨k, op⟩ = true → (mRead e.ctx k.pm).getLsbD 0 = k.pinv →
     exec i s = .next (retire e k none e.ctx s)) ∧
  (∀ (i : Instr) (s : State) (c : CoreRef) (k : Ctl) (op : CoreInsn), i.coreStep = some (c, k, op) →
     (noCore c = true → exec i s = .fault .noSuchUnit) ∧
     (noCore c = false → envOf s c = none → exec i s = .next s) ∧
     (∀ e, noCore c = false → envOf s c = some e → issues s e ⟨k, op⟩ = false → exec i s = .next s))

/-- The beat-wait modes of R80 and the end of the bar of R81: no mode leaves the beat, `.bt` advances it at once, and
`.bc` and `.bs` advance it at once where nothing of the beat is incomplete and else leave the advance pending; an
advance past `BEATS` − 1 faults the partition with `BOUNDS`. -/
def Obligations.BeatWaitModesAdvanceTheBeat : Prop :=
  ∀ (s : State) (e : Env) (k : Ctl) (target : Option Nat),
    let b := (regsOf e s).beat
    let w := modCtx e.key e.ghost (fun r => { r with waitFor := some (target.getD (b + 1)) }) s
    (k.bw = .none → applyBw e k target s = s) ∧
    (k.bw = .bt → applyBw e k target s = advanceBeat e (b + 1) s) ∧
    (k.bw = .bc ∨ k.bw = .bs → busyInBeat (regsOf e s) = false →
      applyBw e k target s = advanceBeat e (target.getD (b + 1)) w) ∧
    (k.bw = .bc ∨ k.bw = .bs → busyInBeat (regsOf e s) = true → applyBw e k target s = w) ∧
    (∀ t, e.score.beats ≤ t → advanceBeat e t s = faultPart e.pid e.ghost cBounds e.row e.col s)

/-! ## Host commands (16) -/

/-- `STATE.READ`, `PORT.LEVEL`, `PWR.CAP` and `DEVICE.RESET` complete (16 R466, R468, 15 R450, 19 R541): words are
answered in order; a level is set in its queue; a cap waits for the end of the control window; a reset is logged and a
start with reason 2 begins. `CONFIG.STAGE` and `FW.STAGE` complete (18 R526, R528): the image stands in the bank that
is not active, the newer boot record names it staged, and nothing else of the device changes. -/
def Obligations.DeviceAndStagingComplete : Prop :=
  (∀ (s : State) (h : Hdr) (snd : Sender), let b := takeCmd h s
     (∀ words, Accepts s h 0x0101 .any true (.stateRead h words) snd → words.length ≤ 64 →
       exec (.stateRead h words) s = .next (replied (waitOf s h 0x0101 snd) (words.flatMap (wordResult b snd)) b)) ∧
     (∀ kib, Accepts s h 0x0103 .control false (.portLevel h 0 kib) snd → 0 < kib → kib ≤ 8192 →
       exec (.portLevel h 0 kib) s = .next (finished (waitOf s h 0x0103 snd) 0xFF (leBytes 1 0 ++ leBytes 4 kib) []
         { b with inq := { b.inq with levelKib := kib, above := decide (kib * 1024 < b.inq.fill) } })) ∧
     (∀ kib, Accepts s h 0x0103 .control false (.portLevel h 1 kib) snd → 0 < kib → kib ≤ 16384 →
       exec (.portLevel h 1 kib) s = .next (finished (waitOf s h 0x0103 snd) 0xFF (leBytes 1 1 ++ leBytes 4 kib) []
         { b with outq := { b.outq with levelKib := kib, above := decide (kib * 1024 < b.outq.fill) } })) ∧
     (∀ watts, Accepts s h 0x0105 .control false (.pwrCap h watts) snd → watts % 10 = 0 →
       orDefault s.setup.settings.capMinW 250 ≤ watts → watts ≤ orDefault s.setup.settings.capMaxW 960 →
       exec (.pwrCap h watts) s = .next (admitted (waitOf s h 0x0105 snd)
         { b with pwr := { b.pwr with nextCaps := b.pwr.nextCaps ++ [(watts, waitOf s h 0x0105 snd)] } })) ∧
     (∀ confirm, Accepts s h 0x0102 .control false (.deviceReset h confirm) snd → confirm = shake256 8 s.dev.idKey →
       exec (.deviceReset h confirm) s = .next (restart 2 true (logChange (waitOf s h 0x0102 snd) 0xFF 0 [] b)))) ∧
  (∀ (s : State) (h : Hdr) (snd : Sender) (r : Range), let b := takeCmd h s
     r.len < 0xFFFFFFFF → r.off + r.len ≤ snd.window →
     (∀ image : SetupImage, Accepts s h 0x0603 .control false (.configStage { h with win := 2 } r image) snd →
       67602 ≤ r.len → setupRanges image = true → setupSigned b image = true →
       (∀ i, setupBank s (bootNow s).cfg = some i → i.serial < image.serial) →
       ∃ u, exec (.configStage h r image) s =
           .next (finished (waitOf s h 0x0603 snd) 0xFF (fitTo 64 image.digest) (fitTo 64 image.digest) u) ∧
         setupBank u (1 - (bootNow s).cfg) = some image ∧ (bootNow u).cfgStaged = true ∧
         (bootNow u).cfg = (bootNow s).cfg ∧ (bootNow u).seq = (bootNow s).seq + 1 ∧ { u with nor := s.nor } = b) ∧
     (∀ image : FwImage, Accepts s h 0x0604 .control false (.fwStage { h with win := 2 } r image) snd →
       0 < r.len → r.len ≤ 25165824 → image.sigOk = true → s.dev.fwMinVersion ≤ image.version →
       ∃ u, exec (.fwStage h r image) s =
           .next (finished (waitOf s h 0x0604 snd) 0xFF (fitTo 64 image.digest) (fitTo 64 image.digest) u) ∧
         fwBank u (1 - (bootNow s).fw) = some image ∧ (bootNow u).fwStaged = true ∧
         (bootNow u).fw = (bootNow s).fw ∧ (bootNow u).seq = (bootNow s).seq + 1 ∧ { u with nor := s.nor } = b))

/-- `ATTEST.REPORT`, `LOG.READ` and `SEAL.RETURN` take effect (17 R501, R510, R516): a report with the reader's nonce,
or the entries in the reader's view, is written to the window, and nothing where the range or the count is 0; a seal
leaves the device Sealing with its memory and pages, regions, cores, partitions, slots, contexts, registry, requests,
request sessions and checkpoints gone, then appends its kind-9 entry and a signature entry to the log, and its own command
waits. -/
def Obligations.SecurityCommandsComplete : Prop :=
  ∀ (s : State) (h : Hdr) (snd : Sender), let b := takeCmd h s
    (∀ nonce view r, Accepts s h 0x0601 .any true (.attestReport h nonce view r) snd → view < 2 →
      (view = 0 → snd.control = true) → (view = 1 → snd.holds h.context = true) → r.len < 0xFFFFFFFF →
      r.off + r.len ≤ snd.window →
      (r.len = 0 → exec (.attestReport h nonce view r) s = .next (replied (waitOf s h 0x0601 snd) [] b)) ∧
      (0 < r.len →
      let bytes := reportBytes b nonce (view == 1) h.context ++ Config.freeBytes s.free 114
      bytes.length ≤ r.len →
      exec (.attestReport h nonce view r) s = .next (replied (waitOf s h 0x0601 snd) []
        (windowWrite (waitOf s h 0x0601 snd) r.off bytes { b with free := s.free + 1 })))) ∧
    (∀ first count r, Accepts s h 0x0606 .any true (.logRead h first count r) snd → count < 0xFFFF →
      r.len < 0xFFFFFFFF → r.off + r.len ≤ snd.window →
      ((count = 0 ∨ r.len = 0) → exec (.logRead h first count r) s = .next (replied (waitOf s h 0x0606 snd) [] b)) ∧
      (0 < count → 0 < r.len → (∀ e ∈ s.log.head?, e.index ≤ first) → first + count ≤ logNext s → 256 * count ≤ r.len →
      exec (.logRead h first count r) s = .next (replied (waitOf s h 0x0606 snd) []
        (windowWrite (waitOf s h 0x0606 snd) r.off
          (((s.log.drop (first - (s.log.head?.map (·.index)).getD 0)).take count).flatMap (entryView snd)) b)))) ∧
    (∀ confirm, Accepts s h 0x0607 .control false (.sealReturn h confirm) snd → confirm = shake256 16 s.dev.idKey →
      ∃ t, exec (.sealReturn h confirm) s = .next (accept (waitOf s h 0x0607 snd) (logSign (logAdd
          { index := 0, time := 0, kind := 9, prev := [], detail := leBytes 1 (t.dev.sealCounter + 1) } t))) ∧
        t.dev.state = .sealing ∧ t.dev.sealWait = some (waitOf s h 0x0607 snd) ∧ t.mem = [] ∧ t.pages = [] ∧
        t.regions = [] ∧ t.cores = [] ∧ t.parts = [] ∧ t.slots = [] ∧ t.tenants = [] ∧ t.registry = [] ∧ t.reqs = [] ∧
        t.sess = [] ∧ t.ckpts = [])

/-- `TENANT.OPEN`, `TENANT.QUOTA`, `TENANT.CLOSE` and `PRIN.KEY` take effect (12 R368 to R370, 17 R488): a context
opens with the setup image's quotas and one key; the quotas that a mask names are set; a context that owns nothing
closes with its keys gone; a key is enrolled or retired. `KEY.ROTATE` takes effect in each of its classes (17 R488,
R495 to R498): a context's or the device's memory key takes its next generation while the old one is kept for the
pages that still use it, and a job is asked for a new link key; the command is logged and waits. -/
def Obligations.ContextsAndKeysTakeEffect : Prop :=
  (∀ (s : State) (h : Hdr) (snd : Sender), let b := takeCmd h s
     (∀ context key, Accepts s h 0x0501 .control false (.tenantOpen h context key) snd → 0 < context → context < 4096 →
       key.length = 57 → emptyKey key = false → (s.tenants.getD context {}).state = .closed →
       ∃ u t, exec (.tenantOpen h context key) s =
           .next (finished (waitOf s h 0x0501 snd) 0xFF (leBytes 2 context ++ prinTag key) [] u) ∧
         u.tenants.get context = some t ∧ t.state = .opened ∧ t.quotas = s.setup.quotas ∧ t.keys = [key] ∧
         (∀ c, c ≠ context → u.tenants.get c = s.tenants.get c) ∧
         ({ u with tenants := s.tenants, free := s.free } : State) = b) ∧
     (∀ context mask q, Accepts s h 0x0502 .control false (.tenantQuota h context mask q) snd → context < 4096 →
       mask < 512 → (s.tenants.getD context {}).state = .opened →
       let old := (s.tenants.getD context {}).quotas
       let pick (i a c : Nat) : Nat := if bitOf mask i then a else c
       let n : Quotas := ⟨pick 0 q.reg old.reg, pick 1 q.hot old.hot, pick 2 q.kv old.kv, pick 3 q.lp old.lp,
         pick 4 q.fl old.fl, pick 5 q.req old.req, pick 6 q.sess old.sess, pick 7 q.parts old.parts, pick 8 q.prin old.prin⟩
       n.hot % 65536 = 0 → n.reg ≤ 65536 → n.parts ≤ 64 → n.prin ≤ 4096 → n.hot < 2 ^ 64 - 1 → n.kv < 2 ^ 64 - 1 →
       n.lp < 2 ^ 64 - 1 → n.fl < 2 ^ 64 - 1 → n.req < 2 ^ 32 - 1 → n.sess < 2 ^ 32 - 1 →
       exec (.tenantQuota h context mask q) s =
         .next (finished (waitOf s h 0x0502 snd) 0xFF (leBytes 2 context ++ leBytes 2 mask) []
           { b with tenants := s.tenants.put context (withQuotas (s.tenants.getD context {}) n) })) ∧
     (∀ context, Accepts s h 0x0503 .control false (.tenantClose h context) snd → 0 < context → context < 4096 →
       (s.tenants.getD context {}).state = .opened → contextIdle b context = true →
       ∃ u, exec (.tenantClose h context) s = .next (closeZeroed u) ∧
         (u.tenants.getD context {}).state = .closing ∧ (u.tenants.getD context {}).keys = [] ∧
         (u.tenants.getD context {}).key = [] ∧
         (u.tenants.getD context {}).closeWaits =
           (s.tenants.getD context {}).rotWaits ++ [waitOf s h 0x0503 snd]) ∧
     (∀ key, Accepts s h 0x0605 .holder false (.prinKey h false key) snd → key.length = 57 → emptyKey key = false →
       key ∉ (s.tenants.getD h.context {}).keys → (s.tenants.getD h.context {}).keys.length < 16 →
       exec (.prinKey h false key) s =
         .next (finished (waitOf s h 0x0605 snd) 0xFF (leBytes 1 0 ++ prinTag key) []
           { b with tenants := s.tenants.put h.context (withKeys (s.tenants.getD h.context {}) ((s.tenants.getD h.context {}).keys ++ [key])) })) ∧
     (∀ key, Accepts s h 0x0605 .holder false (.prinKey h true key) snd → key.length = 57 → emptyKey key = false →
       key ∈ (s.tenants.getD h.context {}).keys →
       exec (.prinKey h true key) s =
         .next (closeKeySessions h.context [key] (finished (waitOf s h 0x0605 snd) 0xFF (leBytes 1 1 ++ prinTag key) []
           { b with tenants := s.tenants.put h.context (withKeys (s.tenants.getD h.context {}) ((s.tenants.getD h.context {}).keys.filter (· != key))) })))) ∧
  (∀ (s : State) (h : Hdr) (snd : Sender) (target cls : Nat),
     let w := waitOf s h 0x0602 snd
     Accepts s h 0x0602 .holderOrControl false (.keyRotate h target cls) snd →
     (cls = 0 → target < 4096 → (snd.control = true ∨ snd.holds target = true) →
       (s.tenants.getD target {}).state = .opened → (s.tenants.getD target {}).oldGen = none →
       ∃ u, exec (.keyRotate h target cls) s = .next (retireAll u) ∧ w ∈ u.accepted ∧
         (u.tenants.getD target {}).keyGen = (s.tenants.getD target {}).keyGen + 1 ∧
         (u.tenants.getD target {}).oldGen = some (s.tenants.getD target {}).keyGen ∧
         (u.tenants.getD target {}).rotWaits = [w]) ∧
     (cls = 2 → snd.control = true → s.devOldGen = none →
       ∃ u, exec (.keyRotate h target cls) s = .next (retireAll u) ∧ w ∈ u.accepted ∧
         u.devKeyGen = s.devKeyGen + 1 ∧ u.devOldGen = some s.devKeyGen ∧ u.devRotWaits = [w]) ∧
     (∀ j, cls = 1 → target < 128 → (snd.control = true ∨ snd.holds (getSlot s target).owner = true) →
       getJob s target = some j → (getSlot s target).state = .running → j.keyAsk = false → j.oldKeys = [] →
       ∃ t j', exec (.keyRotate h target cls) s = .next t ∧ w ∈ t.accepted ∧ getJob t target = some j' ∧
         j'.keyAsk = true ∧ j'.keyWaits = [w] ∧ j'.keyGen = j.keyGen))

/-- `BASE.LOAD`, `SCORE.LOAD` and `SCORE.UNLOAD` complete (10 R303, 17 R500, 12 R364; 16 R473; R27, R597): the manifest is
current with its regions, and the registry follows it; a file that breaks no rule is held Loaded in its slot; an unloaded
slot is Empty. The completion carries the digest. -/
def Obligations.BaseAndScoreCommandsComplete : Prop :=
  ∀ (s : State) (h : Hdr) (snd : Sender), let b := takeCmd h s
    (∀ slot, Accepts s h 0x0202 .holder false (.scoreUnload h slot) snd → slot < 128 →
      (getSlot s slot).state = .loaded → snd.holds (getSlot s slot).owner = true →
      ∃ u, exec (.scoreUnload h slot) s =
          .next (finished (waitOf s h 0x0202 snd) slot (getSlot s slot).digest [] u) ∧
        getSlot u slot = {} ∧ (∀ i, i ≠ slot → getSlot u i = getSlot s i) ∧ { u with slots := s.slots } = b) ∧
    (s.winReads = [] →
      (∀ slot r file sc, Accepts s h 0x0201 .holder false (.scoreLoad { h with win := 2 } slot r file) snd → slot < 128 →
        (getSlot s slot).state = .empty → 0 < r.len → r.len < 0xFFFFFFFF → r.off + r.len ≤ snd.window →
        scoreVerdict s.dev.ident (s.regions.filter fun q => q.kind == 4) (fitTo r.len file) = .ok sc →
        let d := digest64 (fitTo r.len file)
        ∃ u, exec (.scoreLoad h slot r file) s = .next (finished (waitOf s h 0x0201 snd) slot d d u) ∧
          getSlot u slot = { state := .loaded, score := some sc, digest := d, owner := h.context } ∧
          (∀ i, i ≠ slot → getSlot u i = getSlot s i) ∧ { u with slots := s.slots } = b) ∧
      (∀ man image m bytes, Accepts s h 0x0104 .control false (.baseLoad { h with win := 2 } man image 0 m bytes) snd →
        0 < man.len → 0 < image.len → man.len < 0xFFFFFFFF → image.len < 0xFFFFFFFF →
        man.off + man.len ≤ snd.window → image.off + image.len ≤ snd.window → extentsOk m = true →
        imageOk b m bytes = true → (∀ p ∈ s.slots, p.2.state.code < 3) →
        (withoutBase b).regions.length + (baseRegions b m).length ≤ 262144 →
        (∀ r ∈ baseRegions b m, rangeFree (withoutBase b) r.base r.size = true ∧ outsideStore b r.base r.size = true) →
        ∃ u, exec (.baseLoad h man image 0 m bytes) s =
            .next (finished (waitOf s h 0x0104 snd) 0xFF (fitTo 64 m.digest) (fitTo 64 m.digest) u) ∧
          u.base.map (·.man) = some m ∧ u.base.bind (·.prev) = s.base.map (·.man) ∧
          u.regions = (withoutBase b).regions ++ baseRegions b m ∧
          u.registry = staleEntries (s.base.map (·.man)) m s.registry ∧
          ({ u with mem := s.mem, base := s.base, regions := s.regions, registry := s.registry, pages := s.pages,
                    promoQ := s.promoQ, versions := s.versions, verRoot := s.verRoot, hot := s.hot, kv := s.kv,
                    staging := s.staging, log := s.log, logStaged := s.logStaged, logUnsigned := s.logUnsigned,
                    logSince := s.logSince } : State) = b))

/-- The commands on the registry complete or wait (12 R348 to R350, R355, R362, R366, R367, R372): a registered entry
is Ready with its digest and its contents at its home; a query and a read give the entry and its contents; an
unregistered entry is free; a grant changes the grantees; a revoked entry with pins is Revoking and its command waits.
`ADAPT.REGISTER` completes on an entry of its own (12 R348): the lowest free entry is Ready, owned by the command's
context, with the contents' digest; the contents stand at the home that the hub chose, in a region of the context, and
the home's bytes count against the quota of its tier. The change log takes the contents' digest salted (17 R507). -/
def Obligations.RegistryCommandsComplete : Prop :=
  (∀ (s : State) (h : Hdr) (snd : Sender) (id : Nat) (a : Adapt), let b := takeCmd h s
     id < 65536 → s.registry.get id = some a →
     (Accepts s h 0x0302 .any true (.adaptQuery h id) snd → (snd.control = true ∨ snd.holds a.owner = true) →
       exec (.adaptQuery h id) s =
         .next (replied (waitOf s h 0x0302 snd) (adaptEntry id a (snd.holds a.owner)) b)) ∧
     (∀ r, Accepts s h 0x0303 .holder false (.adaptRead h id r) snd → snd.holds a.owner = true → a.f.bytes ≤ r.len →
       0 < r.len → r.len < 0xFFFFFFFF → r.off + r.len ≤ snd.window → a.state ≠ .loading →
       (∀ n ∈ adaptPages a, (getPage s n).poison = false) →
       exec (.adaptRead h id r) s = .next (replied (waitOf s h 0x0303 snd) []
         (windowWrite (waitOf s h 0x0303 snd) r.off (Mem.readN s.mem a.home a.f.bytes) b))) ∧
     (Accepts s h 0x0304 .holder false (.adaptUnregister h id) snd → snd.holds a.owner = true → a.pins = 0 → a.bound = 0 →
       (a.state = .ready ∨ a.state = .stale ∨ a.state = .invalid) →
       ∃ u, exec (.adaptUnregister h id) s = .next (finished (waitOf s h 0x0304 snd) 0xFF (leBytes 2 id) [] u) ∧
         u.registry.get id = none ∧ ∀ j, j ≠ id → u.registry.get j = s.registry.get j) ∧
     (∀ context, Accepts s h 0x0308 .holder false (.adaptGrant h id true context) snd → snd.holds a.owner = true →
       context < 4096 → a.state ≠ .loading → context ∉ a.grantees → a.grantees.length < 15 →
       exec (.adaptGrant h id true context) s =
         .next (finished (waitOf s h 0x0308 snd) 0xFF (leBytes 2 id ++ leBytes 1 1 ++ leBytes 2 context) []
           { b with registry := s.registry.put id { a with grantees := a.grantees ++ [context] } })) ∧
     (∀ context, Accepts s h 0x0308 .holder false (.adaptGrant h id false context) snd → snd.holds a.owner = true →
       context < 4096 → a.state ≠ .loading →
       let a' : Adapt := { a with grantees := a.grantees.filter (· != context) }
       exec (.adaptGrant h id false context) s =
         .next (finished (waitOf s h 0x0308 snd) 0xFF (leBytes 2 id ++ leBytes 1 0 ++ leBytes 2 context) []
           (denyClaims id a' { b with registry := s.registry.put id a' }))) ∧
     (Accepts s h 0x0307 .any false (.adaptRevoke h id) snd → (snd.control = true ∨ snd.holds a.owner = true) →
       (a.state = .ready ∨ a.state = .revoking) → 0 < a.pins →
       ∃ t, exec (.adaptRevoke h id) s = .next t ∧ waitOf s h 0x0307 snd ∈ t.accepted ∧
         (t.registry.get id).map (·.state) = some .revoking ∧
         (t.registry.get id).map (·.revokeWaits) = some (a.revokeWaits ++ [waitOf s h 0x0307 snd]))) ∧
  (∀ (s : State) (h : Hdr) (snd : Sender) (f : AdaptF) (r : Range) (bytes : List Byte) (home : Nat),
     let b := takeCmd h s
     let id := lowestFree s.registry
     f.layers = (List.range 256).filter f.layers.contains →
     Accepts s h 0x0301 .holder false (.adaptRegister { h with win := 2 } f r bytes) snd → s.winReads = [] →
     loadingEntry s h = none → h.context ∈ snd.contexts → 0 < h.context → adaptFieldsOk f = true →
     adaptBytes f = f.bytes → r.len = f.bytes → 0 < r.len → r.len < 0xFFFFFFFF → r.off + r.len ≤ snd.window →
     bytes.length = f.bytes → adaptPlaced b f = true → id < 65536 →
     (s.registry.filter fun p => p.2.owner == h.context).length < (s.tenants.getD h.context {}).quotas.reg →
     (∀ q, homeQuota (s.tenants.getD h.context {}) f.tier = some q → q.1 + wholePages f.bytes ≤ q.2) →
     s.regions.length < 262144 → freeRange b f.tier (wholePages f.bytes) pageBytes = some home →
     ∃ u a, exec (.adaptRegister h f r bytes) s =
         .next (finished (waitOf s h 0x0301 snd) 0xFF (leBytes 2 id ++ (saltedDigest (digest64 bytes) u).1) (leBytes 2 id)
           (saltedDigest (digest64 bytes) u).2) ∧
       u.registry.get id = some a ∧ a.state = .ready ∧ a.owner = h.context ∧ a.f = f ∧ a.home = home ∧
       a.digest = digest64 bytes ∧ a.pins = 0 ∧ a.grantees = [] ∧
       (∀ j, j ≠ id → u.registry.get j = s.registry.get j) ∧ u.mem = Mem.writeN s.mem home bytes ∧
       u.regions = s.regions ++
         [{ base := home, size := wholePages f.bytes, kind := 0, owner := h.context, kgen := s.devKeyGen }] ∧
       u.tenants = s.tenants.put h.context (useHome f.tier (· + wholePages f.bytes) (s.tenants.getD h.context {})) ∧
       ({ u with registry := s.registry, mem := s.mem, regions := s.regions, tenants := s.tenants, pages := s.pages,
                 versions := s.versions, verRoot := s.verRoot } : State) = b)

/-- `ADAPT.CLAIM`, `ADAPT.RELEASE` and `ADAPT.PROBE` pass their checks and wait for the downbeat or the job's end
(12 R354, R358, R361, R366): the claim, release or probe stands in its job and its command among the accepted ones. -/
def Obligations.SlotCommandsWaitForTheDownbeat : Prop :=
  ∀ (s : State) (h : Hdr) (snd : Sender) (slot aslot : Nat) (j : Job) (sc : Score) (d : SlotDesc), let b := takeCmd h s
    slot < 128 → getJob s slot = some j → (getSlot s slot).score = some sc → j.f.slotList[aslot]? = some d →
    (∀ id a prio cbar, Accepts s h 0x0305 .any false (.adaptClaim h slot aslot id prio cbar) snd → id < 65536 →
      s.registry.get id = some a → mayClaim (claimCtx snd h.context) j.owner a = true → prio ≤ 7 →
      adaptFits b sc d a = true → a.state = .ready → cbarOk j cbar = true → pinFits b a = true →
      let w := waitOf s h 0x0305 snd
      exec (.adaptClaim h slot aslot id prio cbar) s = .next (modJob slot (fun j => { j with
        claims := j.claims ++ [⟨w, aslot, id, prio, cbar, claimCtx snd h.context, false, false⟩] }) (admitted w b))) ∧
    (∀ id cbar, Accepts s h 0x0306 .holderOrControl false (.adaptRelease h slot aslot cbar) snd →
      (snd.control = true ∨ ((getSlot s slot).state ≠ .empty ∧ snd.holds (getSlot s slot).owner = true)) →
      boundLast j aslot = some id → (∀ r ∈ j.releases, r.aslot ≠ aslot) → cbarOk j cbar = true →
      let w := waitOf s h 0x0306 snd
      exec (.adaptRelease h slot aslot cbar) s = .next (modJob slot (fun j => { j with
        releases := j.releases ++ [⟨some w, aslot, id, cbar, false, none⟩] }) (admitted w b))) ∧
    (∀ id a items tol set refs ref setBytes, Accepts s h 0x0309 .holder false
        (.adaptProbe { h with win := 2 } id slot aslot items tol set refs ref setBytes) snd → id < 65536 →
      s.registry.get id = some a → snd.holds a.owner = true → (getSlot s slot).state ≠ .empty →
      snd.holds (getSlot s slot).owner = true → 0 < items → items ≤ 65536 → finite32 tol = true →
      gt64 (widen tol) 0 = true → 0 < set.len → set.len < 0xFFFFFFFF → refs.len < 0xFFFFFFFF →
      set.off + set.len ≤ snd.window → refs.off + refs.len ≤ snd.window → 4 * items ≤ refs.len →
      adaptFits b sc d { a with baseDigest := sc.baseDigest } = true → a.state = .stale → j.owner = a.owner →
      (getSlot s slot).state ≠ .faulted → boundLast j aslot = none → (∀ p ∈ j.bindings, boundLast j p.1 ≠ some id) →
      pinFits b a = true →
      exec (.adaptProbe h id slot aslot items tol set refs ref setBytes) s =
        .next (beginProbe (waitOf s h 0x0309 snd) id slot aslot items tol (ref.take items) (fitTo set.len setBytes) b))

/-- `JOB.START` takes effect (16 R466, R473; 10 R296; 02 R48; 12 R368): with the slot Loaded and every check passed,
the job stands in its slot with its parameters, its owner and sixteen cold bars to come, its command waits for the
job's end, and the starting sequence runs as far as it can. `JOB.STOP`, `JOB.BIND`, `JOB.RESHARD` and `JOB.ADMIT` take
effect on a job that stands (16 R473, R475, R485; 02 R56; 11 R336, R339 to R341): the stop is recorded and applied by
the slot's state; the ghost score stands on the partition; the job is re-sharding; a member or a spare begins the
admission. -/
def Obligations.JobsStartAndChange : Prop :=
  (∀ (s : State) (h : Hdr) (snd : Sender) (f : StartF) (sc : Score) (place : Option (Nat × Nat × Nat)),
     let b := takeCmd h s
     let w := waitOf s h 0x0203 snd
     let owner := (getSlot s f.slot).owner
     let regs := startRegions b f.slot owner f.rank f sc
     let ck := restoreOf b f
     Accepts s h 0x0203 .holder false (.jobStart { h with win := 2 } f) snd →
     f.slot < 128 → (getSlot s f.slot).score = some sc → (getSlot s f.slot).state = .loaded → snd.holds owner = true →
     trainAuth b snd f = true → restoreAuth b snd f = true → startFieldsOk f (some sc.replicas) = true →
     (∀ r ∈ startWins f, r.len < 0xFFFFFFFF ∧ r.off + r.len ≤ snd.window) → (∀ r ∈ restoreWin f, 0 < r.len) →
     startExtentsOk f sc.shards.length = true → regs.all regionInTier = true → entriesFed sc f.rank = true →
     (s.setup.settings.isoOff = true ∨ readsFlags sc = false) →
     (f.restore = .none ∨ ∃ c, ck = some c ∧ c.digestOk = true ∧ ckptSuits b f sc (getSlot s f.slot).digest c = true) →
     trainReady b owner f = true → trainReadable b f = true → regionsApart b regs = true →
     (addHolding f.slot owner f { b with regions := b.regions ++ regs }).isSome = true →
     (if sc.ghost then place = none
       else (s.tenants.getD owner {}).partUsed < (s.tenants.getD owner {}).quotas.parts ∧
         ∃ o p, findOrigin b sc f.origin = some o ∧ freePartNo b = some p ∧ place = some (p, o)) →
     s.regions.length + regs.length + 3 ≤ 262144 →
     let u := beginStart f.slot owner w f sc place ck (admitted w b)
     ∃ j, getJob u f.slot = some j ∧ j.f = f ∧ j.owner = owner ∧ j.rank = f.rank ∧ j.w = w ∧ w ∈ u.accepted ∧
       exec (.jobStart h f) s =
         .next (takeHeldColl f.slot (if drawsKey sc j && sc.replicas != 1 then sendKeys f.slot u else u))) ∧
  (∀ (s : State) (h : Hdr) (snd : Sender) (slot : Nat) (j : Job) (sc : Score), let b := takeCmd h s
     slot < 128 → getJob s slot = some j → (getSlot s slot).score = some sc → (getSlot s slot).state ≠ .empty →
     (∀ mode after ckpt, Accepts s h 0x0204 .holderOrControl false (.jobStop h slot mode after ckpt) snd → mode ≤ 2 →
       (snd.control = true ∨ snd.holds (getSlot s slot).owner = true) →
       (mode = 1 → ∀ n, newestOpened j = some n → n ≤ after) →
       ((getSlot s slot).state ≠ .starting ∨ j.keyed = false) →
       let w := waitOf s h 0x0204 snd
       exec (.jobStop h slot mode after ckpt) s = .next (applyStop slot mode (modJob slot (fun j => { j with
         stops := j.stops ++ [⟨w, mode, stopAfter j mode after, ckpt⟩] }) (admitted w b)))) ∧
     (∀ part, Accepts s h 0x0205 .holder false (.jobBind h slot part) snd → part < 64 →
       snd.holds (getSlot s slot).owner = true → (getPart s part).state ≠ .free →
       snd.holds (getPart s part).owner = true → sc.ghost = true →
       ((getSlot s slot).state = .unbound ∨ (getSlot s slot).state = .running) → slotPart s slot = none →
       mayBind b sc j.owner (getPart s part) = true →
       ∃ u, exec (.jobBind h slot part) s = .next (finished (waitOf s h 0x0205 snd) slot (leBytes 1 part) [] u) ∧
         (getPart u part).ghost = some slot ∧ (getJob u slot).bind (·.part) = some part ∧
         (getSlot u slot).state = if j.stops.isEmpty then .running else .stopping) ∧
     (∀ new sc' forced map tables, Accepts s h 0x0207 .control false (.jobReshard h slot new forced map tables) snd →
       new < 128 → (getSlot s new).score = some sc' → compatible sc sc' = true → (getSlot s slot).state = .running →
       (getSlot s new).state = .loaded → (∀ r, newRank b j.rank map sc' = some r → reshardFits b slot j r new sc' = true) →
       let w := waitOf s h 0x0207 snd
       let v := modSlot slot (fun sl => { sl with state := .resharding })
         (modJob slot (fun j => { j with reshard := some { w, new, map } }) (admitted w b))
       exec (.jobReshard h slot new forced map tables) s = .next (
         if forced then beginReshard slot (dropRuns slot (abortForced slot v))
         else if j.cur = none ∧ j.runs = 0 then beginReshard slot v else v)) ∧
     (∀ rank epoch device ident tables, Accepts s h 0x0206 .control false
         (.jobAdmit h slot rank epoch device ident tables) snd →
       (device ≠ s.setup.deviceId ∨ ident ≠ shake256 16 s.dev.idKey) →
       ((getSlot s slot).state = .running ∨ (getSlot s slot).state = .awaiting) → j.cur = none → j.ahead = none →
       rank ∈ j.lost → epoch = j.epoch + 1 → j.admission = none →
       let w := waitOf s h 0x0206 snd
       let draws := match (List.range sc.replicas).find? fun r => r != rank && !j.lost.contains r with
         | some r => r == j.rank
         | none => false
       exec (.jobAdmit h slot rank epoch device ident tables) s =
         .next (keysAround slot draws (beginMember slot rank epoch device ident w sc (admitted w b)))))

/-- `JOB.NORMS`, `JOB.CHECKPOINT` and `JOB.INPUT` take effect (08 R256, R480; R476; R466, R485, 15 R452): norm records
go to the window; a checkpoint or an input joins those of the job and its command waits, an input with its class
parked. `JOB.ADMIT` at the spare (11 R336, R337): with its slot Loaded with the job's score and its place free, the
device that the command names begins the admission with the tables that it copies; `JOB.RESHARD` on a device new to the
job (11 R339, R342) begins with those tables the fetches for the rank that the new map gives it. -/
def Obligations.JobDataAndSparesComplete : Prop :=
  (∀ (s : State) (h : Hdr) (snd : Sender) (slot : Nat) (j : Job) (sc : Score) (r : Range), let b := takeCmd h s
     slot < 128 → getJob s slot = some j → (getSlot s slot).score = some sc → (getSlot s slot).state ≠ .empty →
     snd.holds (getSlot s slot).owner = true → 0 < r.len → r.len < 0xFFFFFFFF → r.off + r.len ≤ snd.window →
     (∀ first count, Accepts s h 0x0208 .holder true (.jobNorms h slot first count r) snd → 0 < count → count < 0xFFFF →
       first + count ≤ normCount j → 32 * count ≤ r.len →
       let w := waitOf s h 0x0208 snd
       exec (.jobNorms h slot first count r) s = .next (replied w [] (windowWrite w r.off
         ((List.range count).flatMap fun i => (j.norms.getD (first + i) {}).bytes) b))) ∧
     (∀ dest, dest = none ∨ dest = some r → Accepts s h 0x0209 .holder false (.jobCheckpoint h slot dest) snd →
       (getSlot s slot).state = .running →
       let w := waitOf s h 0x0209 snd
       exec (.jobCheckpoint h slot dest) s =
         .next (modJob slot (fun j => { j with ckpts := j.ckpts ++ [⟨w, dest⟩] }) (admitted w b))) ∧
     (∀ bar addr bytes, Accepts s h 0x020A .holder false (.jobInput { h with win := 2 } slot bar addr r bytes) snd →
       inputRegion b slot sc addr r.len = true → (getSlot s slot).state = .running → inputLate j bar = false →
       let w := waitOf s h 0x020A snd
       exec (.jobInput h slot bar addr r bytes) s = .next (parkClass h.cls (modJob slot (fun j => { j with
         inputs := j.inputs ++ [⟨some w, bar, addr, fitTo r.len bytes, false⟩] }) (admitted w b))))) ∧
  (∀ (s : State) (h : Hdr) (snd : Sender) (slot rank epoch device : Nat) (ident : List Byte) (t : JobTables) (sc : Score)
     (place : Option (Nat × Nat × Nat)),
     let b := takeCmd h s
     let w := waitOf s h 0x0206 snd
     let f := { t.start with slot := slot, rank := rank }
     let regs := startRegions b slot t.owner rank f sc
     Accepts s h 0x0206 .control false (.jobAdmit h slot rank epoch device ident (some t)) snd → slot < 128 →
     device = s.setup.deviceId → ident = shake256 16 s.dev.idKey → (getSlot s slot).score = some sc →
     (getSlot s slot).state = .loaded → t.score = (getSlot s slot).digest → rank < sc.replicas →
     s.base.map (·.man.digest) = some sc.baseDigest → regs.all regionInTier = true → regionsApart b regs = true →
     (addHolding slot t.owner f { b with regions := b.regions ++ regs }).isSome = true →
     (if sc.ghost then place = none
       else (s.tenants.getD t.owner {}).partUsed < (s.tenants.getD t.owner {}).quotas.parts ∧
         ∃ o p, findOrigin b sc f.origin = some o ∧ freePartNo b = some p ∧ place = some (p, o)) →
     s.regions.length + regs.length + 3 ≤ 262144 →
     exec (.jobAdmit h slot rank epoch device ident (some t)) s =
       .next (keysAround slot false (beginSpare slot rank epoch device ident w t sc place (admitted w b)))) ∧
  (∀ (s : State) (h : Hdr) (snd : Sender) (old slot rank : Nat) (forced : Bool) (map : List (Nat × Nat × List Byte))
     (t : JobTables) (sc : Score) (place : Option (Nat × Nat × Nat)),
     let b := takeCmd h s
     let w := waitOf s h 0x0207 snd
     let f := { t.start with slot := slot, rank := rank }
     let regs := startRegions b slot t.owner rank f sc
     Accepts s h 0x0207 .control false (.jobReshard h old slot forced map (some t)) snd → old < 128 → slot < 128 →
     getJob s old = none → (getSlot s slot).score = some sc →
     (∀ sc', (getSlot s old).score = some sc' → compatible sc' sc = true) → newRank b sc.replicas map sc = some rank →
     (getSlot s slot).state = .loaded → s.base.map (·.man.digest) = some sc.baseDigest →
     regs.all regionInTier = true → regionsApart b regs = true →
     (addHolding slot t.owner f { b with regions := b.regions ++ regs }).isSome = true →
     (if sc.ghost then place = none
       else (s.tenants.getD t.owner {}).partUsed < (s.tenants.getD t.owner {}).quotas.parts ∧
         ∃ o p, findOrigin b sc f.origin = some o ∧ freePartNo b = some p ∧ place = some (p, o)) →
     s.regions.length + regs.length + 3 ≤ 262144 →
     exec (.jobReshard h old slot forced map (some t)) s =
       .next (beginFresh slot rank w map t sc place (admitted w b)))

/-- The commands on requests and sessions complete (13 R379 to R381, R389, R392): a submitted request is Queued in the
lowest free entry with its prompt; a cancelled live request ends at its next boundary with reason 2; a session opens in the
lowest free entry with the lowest run of the page directory that is free; an open session is Closing until its pages are
zeroed. -/
def Obligations.RequestAndSessionCommandsComplete : Prop :=
  ∀ (s : State) (h : Hdr) (snd : Sender), let b := takeCmd h s
    (∀ f j g x, Accepts s h 0x0401 .holder false (.reqSubmit { h with win := 2 } f) snd → getJob s f.slot = some j →
      j.f.gen = some g → (f.inline = true ∨ (0 < f.win.len ∧ f.win.len < 0xFFFFFFFF ∧ 4 * f.ptok ≤ f.win.len ∧
        f.win.off + f.win.len ≤ snd.window)) →
      s.sess.get f.session = some x → x.owner = h.context → snd.holds x.owner = true →
      (j.owner = 0 ∨ snd.holds j.owner = true) →
      (∀ a, servedBy j f = some a → ∃ ad, s.registry.get a = some ad ∧ mayClaim h.context j.owner ad = true) →
      reqFieldBad f = none → reqExtents g (x.tokens + f.ptok) f = none → (0 < f.maxNew ∨ 0 < f.ptok) →
      aslotState b j g f = none → x.state ≠ .closing →
      (s.reqs.filter fun p => p.2.owner == h.context).length < (s.tenants.getD h.context {}).quotas.req →
      (s.tenants.getD h.context {}).lpUsed + promptBytes f ≤ (s.tenants.getD h.context {}).quotas.lp →
      lowestFree s.reqs < 1048576 →
      let id := lowestFree s.reqs
      let w := waitOf s h 0x0401 snd
      ∃ u q, exec (.reqSubmit h f) s = .next (finished w f.slot (leBytes 4 id) (leBytes 4 id) u) ∧
        u.reqs.get id = some q ∧ q.state = .queued ∧ q.owner = h.context ∧ q.f = f ∧ q.tokens = f.prompt ∧
        q.adapt = servedBy j f ∧ q.sess = h.sess ∧ (∀ i, i ≠ id → u.reqs.get i = s.reqs.get i)) ∧
    (∀ id q, Accepts s h 0x0402 .holder false (.reqCancel h id) snd → id < 1048576 → s.reqs.get id = some q →
      snd.holds q.owner = true → q.state = .live →
      exec (.reqCancel h id) s = .next (finished (waitOf s h 0x0402 snd) q.f.slot (leBytes 4 id) []
        { b with reqs := s.reqs.put id { q with why := lowestReason q.why 2 } })) ∧
    (∀ id q, Accepts s h 0x0402 .holder false (.reqCancel h id) snd → id < 1048576 → s.reqs.get id = some q →
      snd.holds q.owner = true → q.state = .queued →
      exec (.reqCancel h id) s =
        .next (finished (waitOf s h 0x0402 snd) q.f.slot (leBytes 4 id) [] (cancelQueued q.f.slot id b))) ∧
    (∀ maxPages dir, Accepts s h 0x0403 .holder false (.sessOpen h maxPages) snd → 0 < maxPages → maxPages ≤ 16384 →
      (s.sess.filter fun p => p.2.owner == h.context).length < (s.tenants.getD h.context {}).quotas.sess →
      freeDir b maxPages = some dir → lowestFree s.sess < 1048576 →
      let sid := lowestFree s.sess
      exec (.sessOpen h maxPages) s = .next (finished (waitOf s h 0x0403 snd) 0xFF (leBytes 4 sid) (leBytes 4 sid)
        { b with sess := s.sess.put sid { owner := h.context, state := .opened, dir, maxPages, last := s.ptp.now } })) ∧
    (∀ sid g, Accepts s h 0x0404 .holder false (.sessClose h sid) snd → sid < 1048576 → s.sess.get sid = some g →
      snd.holds g.owner = true → g.state = .opened →
      let w := waitOf s h 0x0404 snd
      ∃ v, exec (.sessClose h sid) s = .next (closeZeroed v) ∧ w ∈ v.accepted ∧
        v.sess.get sid = some { g with state := .closing, closeWait := some w } ∧
        ∀ i, i ≠ sid → v.sess.get i = s.sess.get i)

/-- What a completion does (16 R464, R465, R469; 15 R437): the command is no longer among the accepted ones, its
record of opcode, status, length, detail and result leaves for its session or is kept for its principal, and nothing
but the host's side of the device changes. What an entry of the change log holds (17 R505): the next index, the time
of the timebase, and the chain value of the entry before it; the entries before it stay. -/
def Obligations.CompletionsAndLogEntries : Prop :=
  (∀ (w : Wait) (status detail : Nat) (result : List Byte) (slot : Nat) (note : List Byte) (s : State),
     withHostSide s (complete w status detail result s) = s ∧ withHostSide s (finished w slot note result s) = s ∧
     (∀ a ∈ (complete w status detail result s).accepted, a ∈ s.accepted ∧ (a.sess ≠ w.sess ∨ a.ref ≠ w.ref)) ∧
     (s.sessions.get w.sess = none → ∃ l, l ∈ (complete w status detail result s).linger ∧ l.prin = some w.prin ∧
       l.recs = [(w.cls, 4, w.ref, leBytes 2 w.opcode ++ leBytes 1 status ++ leBytes 1 0 ++ leBytes 4 result.length ++
         leBytes 8 detail ++ result)])) ∧
  (∀ (e : LogEntry) (s : State), s.log.length < 1073741824 →
     ∃ x, (logAdd e s).log = s.log ++ [x] ∧ x = { e with index := x.index, time := s.ptp.now, prev := x.prev } ∧
       (∀ p, s.log.getLast? = some p → x.index = p.index + 1 ∧ x.prev = p.chain) ∧ (logAdd e s).logStaged = s.logStaged + 1)

/-- The order of a command's first checks (16 R471, R481): what the device state refuses is refused with the code of that
state whatever else is wrong; then the header, then the sender. -/
def Obligations.DeviceStateRefusesFirst : Prop :=
  ∀ (h : Hdr) (op : Nat) (who : Who) (snd : Sender) (s : State),
    (s.dev.state = .starting → op ≠ 0x0101 → gate h op who snd s = some (cStateConflict, noDetail)) ∧
    (s.dev.state = .held → op ∉ [0x0101, 0x0601, 0x0102] → gate h op who snd s = some (cHeld, noDetail)) ∧
    ((s.dev.state = .sealing ∨ s.dev.state = .sealed) → op ∉ [0x0101, 0x0601, 0x0606] →
      gate h op who snd s = some (cSealed, noDetail)) ∧
    (s.dev.state = .ready → h.cver ≠ 1 → gate h op who snd s = some (cBadCommand, 2)) ∧
    (s.dev.state = .ready → h.cver = 1 → h.resvOk = true → h.ref ≠ 0 → refBusy s h = false →
      mayName s who snd h.context = false → gate h op who snd s = some (cDenied, 4))

/-! ## The host port (15) -/

/-- The link's own commands complete (15 R424 to R426): lanes that train give the mode they allow; a lost link is down
and nothing else changes; a foreign frame is counted; an address request for the device's address is answered. The
timebase (15 R456, R457): the first Sync of the domain steps it forward, later ones slew it by the offset, and after 4
s without one it is in holdover; it never runs backward. -/
def Obligations.LinkAndTimebaseComplete : Prop :=
  (∀ s : State,
     (∀ l01 l23, ethUp s = false → s.dev.stopped = false → s.dev.starting = false → s.dev.refEth = true →
       ∃ n, exec (.ethLinkTraining l01 l23) s = .next { s with ethState := n } ∧
         (s.setup.settings.ethMode = 0 → l01 = true → l23 = true → n = 2) ∧
         (s.setup.settings.ethMode = 0 → l01 = true → l23 = false → n = 3) ∧ (l01 = false → n = 0)) ∧
     exec .ethLinkDown s = .next { s with ethState := 0 } ∧
     (ethUp s = true → exec .nonMbaingFrame s = .next { s with ethDiscards := min 0xFFF (s.ethDiscards + 1) }) ∧
     (∀ ip, ethUp s = true → s.setup.settings.encap ≠ 0 → ip = s.setup.settings.ip →
       exec (.arpRequest ip) s = .next { s with replies := s.replies ++ [(0, leBytes 16 ip ++ leBytes 6
         (if s.setup.settings.macSet then s.setup.settings.mac else s.dev.fusedMac))] }) ∧
     (∀ ip, ethUp s = true → (s.setup.settings.encap = 0 ∨ ip ≠ s.setup.settings.ip) →
       exec (.arpRequest ip) s = .next { s with ethDiscards := min 0xFFF (s.ethDiscards + 1) })) ∧
  (∀ (s : State) (t : Nat),
     (∀ domain time, ethUp s = true → domain = s.setup.settings.ptpDomain → s.ptp.state = 0 →
       ∃ u, exec (.ptpSync domain time t) s = .next u ∧ u.ptp.now = max (max s.ptp.now t) time ∧ u.ptp.state = 1 ∧
         u.ptp.offset = (max s.ptp.now t : Nat) - (time : Int) ∧ u.ptp.slew = 0 ∧ u.ptp.syncs = min 0xFFFF (s.ptp.syncs + 1) ∧
         ({ u with ptp := s.ptp, mons := s.mons } : State) = s) ∧
     (∀ domain time, ethUp s = true → domain = s.setup.settings.ptpDomain → s.ptp.state ≠ 0 →
       ∃ u, exec (.ptpSync domain time t) s = .next u ∧ u.ptp.now = max s.ptp.now t ∧ u.ptp.state = 1 ∧
         u.ptp.offset = (max s.ptp.now t : Nat) - (time : Int) ∧ u.ptp.slew = (time : Int) - (max s.ptp.now t : Nat) ∧
         ({ withHostSide s u with ptp := s.ptp } : State) = s) ∧
     (s.ptp.state ≠ 0 → s.ptp.lastSync + 4000000000 ≤ max s.ptp.now t →
       ∃ u, exec (.ptpHoldover t) s = .next u ∧ u.ptp.now = max s.ptp.now t ∧ u.ptp.state = 2 ∧
         (s.ptp.state ≠ 2 →
           holdSeconds u = min 0xFFFF ((max s.ptp.now t - s.ptp.lastSync - 4000000000) / 1000000000)) ∧
         (s.ptp.state = 2 → u.ptp.holdFrom = s.ptp.holdFrom) ∧
         ({ u with ptp := s.ptp } : State) = s))

/-- Association and the handshake of a session complete (15 R433 to R437): `ASSOC` closes every session, empties the
inbound queue with what it holds, restarts every sequence at 0 and answers with the nonce and a non-zero number; step 1 of `OPEN` enters a
session in the lowest free index; step 3 opens it, or with a bad signature frees the index and counts. -/
def Obligations.SessionsOpenByHandshake : Prop :=
  ∀ s : State, ethUp s = true →
    (∀ src nonce, nonce.length = 16 →
      ∃ t n, exec (.assoc src nonce) s = .next t ∧ 0 < n ∧ t.assocNum = some (src, n) ∧ (∀ i, t.sessions.get i = none) ∧ t.inq.classes = [] ∧
        t.inSeq = [] ∧ t.outSeq = [] ∧ t.cmdParts = [] ∧ (1, nonce ++ leBytes 4 n) ∈ t.replies ∧
        t.winReads = [] ∧ t.cores = s.cores ∧ t.mem = s.mem ∧
        (s.winReads = [] → (∀ p ∈ s.slots, ∀ j, p.2.job = some j → ∀ i ∈ j.inputs, i.w = none) →
          ∀ i, getSlot t i = getSlot s i)) ∧
    (∀ f key xkey nonce contexts window i, frameBasic s f = true → f.ftype = 2 → f.hs = true → f.session = 0 → f.cls = 7 →
      key.length = 57 → xkey.length = 56 → nonce.length = 32 → contexts ≠ [] → contexts.length ≤ 16 →
      (∀ c ∈ contexts, c < 4096) → window ≤ 2 ^ 40 → (∀ p ∈ s.sessions, p.2.transcript ≠ f.payload) →
      openStatus s key contexts = cOk → s.sessions.lowestFree 4096 = some i →
      ∃ t x r, exec (.openStep1 f key xkey nonce contexts window) s = .next t ∧ t.sessions.get i = some x ∧ x.phase = 1 ∧
        x.prin = key ∧ x.contexts = contexts ∧ x.window = window ∧ t.replies = s.replies ++ [(2, r)] ∧
        r.take 3 = leBytes 2 i ++ leBytes 1 0 ∧
        ({ t with sessions := s.sessions, replies := s.replies, free := s.free } : State) = s) ∧
    (∀ f x, s.sessions.get f.session = some x → frameBasic s f = true → f.ftype = 2 → f.hs = true → f.cls = 7 →
      x.phase = 1 →
      (∃ t y, exec (.openStep3 f true) s = .next t ∧ t.sessions.get f.session = some y ∧ y.phase = 2 ∧ y.prin = x.prin ∧
        y.contexts = x.contexts) ∧
      exec (.openStep3 f false) s = .next { s with
        sessions := s.sessions.del f.session, ethAuthFail := min 0xFFFF (s.ethAuthFail + 1) })

/-- A frame in sequence is accepted (15 R432, R439, R440): a command frame joins the tail of its class of the inbound
queue, and the class's next sequence value is one more. The frames that end or answer something complete (15 R437,
R438, R439, R447): a close takes the session away; data for a window read count down what it still awaits; an
acknowledgement refreshes the controlling session and releases the frames of each class that it covers (a notice of the
queue's own fill may join class 6 then); a frame that fails a basic check is discarded and counted. -/
def Obligations.FramesOfSessionsComplete : Prop :=
  (∀ (s : State) (f : MbFrame) (x : Session), ethUp s = true → frameBasic s f = true → f.ftype = 3 → f.hs = false →
     f.gcmOk = true → f.ref ≠ 0 → (0 < f.len ∨ f.last = true) → f.first = true →
     s.sessions.get f.session = some x → x.phase = 2 → f.seq = s.inSeq.getD f.cls 0 → f.seq < 2 ^ 32 →
     s.inq.hasSpace inCap f.cls (48 + f.payload.length) = true → x.used + 48 + f.payload.length ≤ x.credit →
     (∀ p ∈ s.cmdParts, p.sess ≠ f.session ∨ p.cls ≠ f.cls) →
     ∃ t i, exec (.cmdFrame f) s = .next t ∧ (t.inq.cls f.cls).items = (s.inq.cls f.cls).items ++ [i] ∧
       i.payload = f.payload ∧ i.ref = f.ref ∧ i.sess = f.session ∧ i.prin = x.prin ∧
       t.inSeq.getD f.cls 0 = (f.seq + 1) % 2 ^ 32 ∧ t.cores = s.cores ∧ t.mem = s.mem ∧ t.slots = s.slots) ∧
  (∀ (s : State) (f : MbFrame) (x : Session), ethUp s = true → frameBasic s f = true → f.hs = false → f.gcmOk = true →
     s.sessions.get f.session = some x → x.phase = 2 →
     (f.ftype = 9 → f.seq = s.inSeq.getD f.cls 0 → f.seq < 2 ^ 32 → s.inq.hasSpace inCap f.cls (48 + f.payload.length) = true →
       x.used + 48 + f.payload.length ≤ x.credit →
       ∃ t, exec (.closeFrame f) s = .next t ∧ t.sessions.get f.session = none) ∧
     (∀ r, f.ftype = 7 → f.seq = s.inSeq.getD f.cls 0 → f.seq < 2 ^ 32 →
       s.inq.hasSpace inCap f.cls (48 + f.payload.length) = true → x.used + 48 + f.payload.length ≤ x.credit →
       s.winReads = [r] → r.sess = f.session → r.ref = f.ref →
       (∃ a ∈ s.accepted, a.sess = r.sess ∧ a.ref = r.ref ∧ a.prin = x.prin) → 8 ≤ f.payload.length → f.payload.length < r.left + 8 →
       ∃ t, exec (.wdataFrame f) s = .next t ∧ t.winReads = [{ r with left := r.left + 8 - f.payload.length }] ∧
         t.inSeq.getD f.cls 0 = (f.seq + 1) % 2 ^ 32) ∧
     (∀ next, f.ftype = 8 → x.control = true → next.length = 8 →
       (∀ c, c < 8 → serialBefore (sentEnd s c) (next.getD c 0) = false) →
       ∃ t y, exec (.ackFrame f next) s = .next t ∧ t.sessions.get f.session = some y ∧ y.last = s.ptp.now ∧
         (∀ c, c < 8 → (c ≠ 6 ∨ s.outq.levelKib * 1024 < s.outq.fill) → s.outStall = [] →
           (t.outq.cls c).items = (s.outq.cls c).items.drop (ackCount s c (next.getD c 0))) ∧
         t.inq.classes = s.inq.classes)) ∧
  (∀ (s : State) (f : MbFrame), ethUp s = true → frameBasic s f = false →
     let d := { s with ethDiscards := min 0xFFF (s.ethDiscards + 1) }
     exec (.cmdFrame f) s = .next d ∧ exec (.closeFrame f) s = .next d ∧ exec (.wdataFrame f) s = .next d ∧
       ∀ next, exec (.ackFrame f next) s = .next d)

/-- The host port's timers and its sending side complete (15 R437 to R439, R441, R445, R449, R452, R453): an owed
acknowledgement leaves; a class whose oldest frame went unacknowledged for the retransmit time rewinds to its mark, which is
counted; the item that R445 gives is read, and without one the read stalls; a notice packet closes 10 µs after its first
record; a session without a frame for the idle time closes; kept records expire after the linger time; a parked class goes on; a
window read that stays unanswered for the window timeout ends its command with `HOST_TIMEOUT`. -/
def Obligations.HostPortTimersComplete : Prop :=
  ∀ s : State,
    (∀ p, ethUp s = true → controlSession s = some p → (0 < s.ackOwed ∨ s.ackDup = true) →
      ∃ t, exec .ackSendTimer s = .next t ∧ t.ackOwed = 0 ∧ t.ackDup = false ∧
        t.replies = s.replies ++ [(8, (List.range 8).flatMap fun c => leBytes 4 (s.inSeq.getD c 0))]) ∧
    (∀ cls t i, cls < 8 → 0 < (s.outq.cls cls).read → (s.outq.cls cls).items[0]? = some i →
      i.since + retxNs s ≤ max s.ptp.now t →
      exec (.retransmitTimeout cls t) s = .next { s with
        ptp := { s.ptp with now := max s.ptp.now t },
        outq := s.outq.setCls cls { s.outq.cls cls with read := (s.outq.cls cls).mark },
        ethRewinds := min 0xFFFF (s.ethRewinds + 1) }) ∧
    (ethUp s = true → s.replies = [] → s.outq.highest = none →
      exec .outboundFrameSend s = .next { s with outq := { s.outq with stalled := true } }) ∧
    (∀ c, ethUp s = true → s.replies = [] → s.outq.highest = some c →
      ∃ t, exec .outboundFrameSend s = .next t ∧ (t.outq.cls c).read = (s.outq.cls c).read + 1 ∧
        (t.outq.cls c).items = (s.outq.cls c).items.modify (s.outq.cls c).read (fun i => { i with since := s.ptp.now }) ∧
        t.outq.stalled = false ∧ ({ t with outq := s.outq } : State) = s) ∧
    (∀ r l, ethUp s = true → s.replies = r :: l → exec .outboundFrameSend s = .next { s with replies := l }) ∧
    (∀ sess now, sess < 4096 → ∃ t, exec (.noticePacketClose sess now) s = .next t ∧ t.ptp.now = max s.ptp.now now ∧
      ∀ c, c = 6 ∨ c = 7 → ∀ i, (t.outq.cls c).items.getLast? = some i → i.ftype = 5 → i.sess = sess →
        i.since + 10000 ≤ t.ptp.now → i.opened = false) ∧
    (∀ sess now x, sess < 4096 → s.sessions.get sess = some x → x.last + idleNs s ≤ max s.ptp.now now →
      ∃ t, exec (.sessionIdleTimeout sess now) s = .next t ∧ t.sessions.get sess = none) ∧
    (∀ ix now l, s.linger[ix]? = some l → l.expires ≤ max s.ptp.now now →
      ∃ t, exec (.lingerExpiry ix now) s = .next t ∧ t.linger = s.linger.eraseIdx ix ∧
        t.lingerDropped = s.lingerDropped + (if l.told = [] then l.recs.length else 0) ∧
        ({ t with linger := s.linger, lingerDropped := s.lingerDropped, ptp := s.ptp } : State) = s) ∧
    (∀ cls, cls < 8 → (∀ p ∈ s.slots, ∀ j, p.2.job = some j → ∀ i ∈ j.inputs, ∀ w, i.w = some w → w.cls ≠ cls) →
      exec (.parkedItemResume cls) s =
        .next { s with inq := s.inq.setCls cls { s.inq.cls cls with parked := false } }) ∧
    (∀ sess ref now x w, s.winReads.find? (fun x => x.sess == sess && x.ref == ref) = some x → 0 < x.left →
      s.accepted.find? (fun a => a.sess == sess && a.ref == ref) = some w → x.since + windowNs s ≤ max s.ptp.now now →
      let u := { s with
        ptp := { s.ptp with now := max s.ptp.now now },
        winReads := s.winReads.filter fun y => !(y.sess == sess && y.ref == ref) }
      exec (.windowTimeout sess ref now) s = .next (complete w cHostTimeout noDetail [] (undoRead x.cmd u)))

/-! ## The matrix unit, column chains and the shadow check (04, 05, 07) -/

/-- `ml` and `mm` complete (04 R109, R110, R113, R115, R117, R118, R127): `ml` loads the lane stores of lanes 0 to
`LANES` − 1 and leaves the others without a slice; `mm` takes one issue number and, where a row is live and `DEPTH` is
not zero, stands in flight with its sums, read now, to enter its bank at the completion token. -/
def Obligations.MatrixIssuesComplete : Prop :=
  ∀ (s : State) (c : CoreRef) (k : Ctl) (e : Env),
    (∀ f : MlF, f.lanes = 0 ∨ f.ck = f.cpl → Issuing s c k (.ml f) e →
      exec (.ml c k f false) s = .next (retire e k none e.ctx s)) ∧
    (∀ (f : MlF) lines, 0 < f.lanes → f.ck ≠ f.cpl → e.ctx.mmNow = none →
      tileRows e ((f.trow : Int) + sint (xRead e.ctx f.xa)) (mlRows f) = some lines →
      linesFree e.ctx (mlCells f (mlChunks f) lines) [] = true → Issuing s c k (.ml f) e →
      ∃ q, exec (.ml c k f false) s = .next (retire e k none q s) ∧
        q = { e.ctx with lanes := q.lanes, lanesN := some f.lanes } ∧
        (∀ i, i < f.lanes → q.lanes.get i = some (laneSlice e.core f (mlChunks f) lines i)) ∧
        ∀ i, f.lanes ≤ i → q.lanes.get i = none) ∧
    (∀ f : MmF, liveRows e.ctx f.mrow (shapeT f.shape) = [] ∨ f.depth = 0 → e.ctx.mmNow = none →
      (∀ m ∈ e.ctx.chains, m.f.bank ≠ f.bank) → (∀ m ∈ e.ctx.mcOut, m.2 ≠ f.bank) → Issuing s c k (.mm f) e →
      exec (.mm c k f false) s = .next (retire e k none { e.ctx with mmCount := e.ctx.mmCount + 1 } s)) ∧
    (∀ (f : MmF) lines n, liveRows e.ctx f.mrow (shapeT f.shape) ≠ [] → 0 < f.depth → e.ctx.mmNow = none →
      (∀ m ∈ e.ctx.chains, m.f.bank ≠ f.bank) → (∀ m ∈ e.ctx.mcOut, m.2 ≠ f.bank) → e.ctx.lanesN = some n → 0 < n →
      (∀ i, i < shapeL f.shape → i < n → ∃ st, e.ctx.lanes.get i = some st ∧ f.depth ≤ st.elems) →
      mmRows e f (liveRows e.ctx f.mrow (shapeT f.shape)) = some lines →
      linesFree e.ctx (lines.map fun l => (l.2.1, l.2.2)) [] = true → Issuing s c k (.mm f) e →
      ∃ q u m, exec (.mm c k f false) s = .next (retire e k none q u) ∧
        (u = s ∨ u = modNow e.slot (fun r => { r with
          shadowSel := r.shadowSel + 1, shadowDrop := r.shadowDrop + bit e.ctx.shadow.isSome }) s) ∧
        (e.job.f.shadowEn = false → u = s ∧ q.shadow = e.ctx.shadow) ∧
        q = { e.ctx with mmCount := e.ctx.mmCount + 1, mmNow := some m, shadow := q.shadow } ∧
        m.f = f ∧ m.beat = e.ctx.beat ∧
        ∀ r ∈ lines, ∀ l0 ∈ e.ctx.lanes.head?, ∀ p ∈ e.ctx.lanes, p.1 < shapeL f.shape → 0 < p.2.elems →
          let key := bankKey f.shape p.1 r.1
          (key, enterSums f.zero (bankRead e.ctx f.bank key) (stepSums p.2.wfmt f.afmt p.2.blk (mmProducts p.2
            (activation f.afmt l0.2.blk f.depth (sramBytes e.core r.2.1 0 (r.2.2 * 64))) f.depth))) ∈ m.cells)

/-- The completion token puts the sums of the `mm` in flight into its bank and records its shape there (04 R126, R127,
R129); the other bank and everything else of the registers stays, and an advance that waited for it then takes place.
`md` completes (04 R130 to R132): each live row of the bank stands in its lines of core SRAM, the bank's entries and every
byte outside those lines stay, the bank counts as drained (02 R39; DEDUCED, log entry 13), and nothing of the state
changes beside the core and the job's saturation count. -/
def Obligations.BanksFillAndDrain : Prop :=
  (∀ (s : State) (c : CoreRef) (e : Env) (m : MmItem), Standing s c e → e.ctx.mmNow = some m →
     ∃ q, exec (.mmCompletionToken c) s = .next (settle e (modCtx e.key e.ghost (fun _ => q) s)) ∧
       q.mmNow = none ∧ bankShape q m.f.bank = m.f.shape ∧ bankShape q (!m.f.bank) = bankShape e.ctx (!m.f.bank) ∧
       (∀ key, bankRead q (!m.f.bank) key = bankRead e.ctx (!m.f.bank) key) ∧
       (∀ key, key ∉ m.cells.map (·.1) → bankRead q m.f.bank key = bankRead e.ctx m.f.bank key) ∧
       (∀ a key v b, m.cells = a ++ (key, v) :: b → key ∉ b.map (·.1) → bankRead q m.f.bank key = v) ∧
       { q with mmNow := some m, bankA := e.ctx.bankA, bankB := e.ctx.bankB, shapeA := e.ctx.shapeA,
                shapeB := e.ctx.shapeB, heldA := e.ctx.heldA, heldB := e.ctx.heldB } = e.ctx) ∧
  (∀ (s : State) (c : CoreRef) (k : Ctl) (e : Env) (f : MdF), (∀ m ∈ e.ctx.mmNow, m.f.bank ≠ f.bank) →
     (f.lanes = 0 → Issuing s c k (.md f) e → exec (.md c k f false) s = .next (retire e k none e.ctx s)) ∧
     (∀ lines, 0 < f.lanes → f.lanes ≤ shapeL (bankShape e.ctx f.bank) →
       mdRows e f (liveRows e.ctx f.mrow (shapeT (bankShape e.ctx f.bank))) = some lines →
       linesFree e.ctx [] (lines.map fun l => (l.2, mdLines f)) = true → writeRoom e.ctx = true →
       Mem.wf e.core.sram = true → Issuing s c k (.md f) e →
       ∃ u, exec (.md c k f false) s = .next (retire e k none (bankDrained f.bank e.ctx) (modNow e.slot (fun r => { r with
           sats := r.sats + sumNat (lines.map fun l => (drainRow e.ctx f l.1).2) }) u)) ∧
         { u with cores := s.cores } = s ∧ (∀ i, i ≠ e.key → getCore u i = getCore s i) ∧
         { getCore u e.key with sram := e.core.sram } = e.core ∧
         SramKept e.core (getCore u e.key) (lines.map fun l => (l.2, mdLines f)) ∧
         ∀ a t p b, lines = a ++ (t, p) :: b → (∀ x ∈ b, p + mdLines f ≤ x.2 ∨ x.2 + mdLines f ≤ p) →
           Mem.readN (getCore u e.key).sram (p * 64) (drainRow e.ctx f t).1.length = (drainRow e.ctx f t).1))

/-- `mc` and the arrival of a stream (05 R141 to R143, R146): the head of a chain sends its bank's pairs on; a core within
a chain keeps the instruction waiting until the stream from above with its beat is there, then sends on the sums of the
stream and its own bank; a stream in transit that finds no waiting `mc` is kept in the core's buffer while its four rows
have room; the sender's `mc` is complete once its stream is taken. -/
def Obligations.ChainsAddDownTheColumn : Prop :=
  ∀ (s : State) (c : CoreRef) (e : Env),
    (∀ (k : Ctl) (f : McF), (∀ m ∈ e.ctx.mmNow, m.f.bank ≠ f.bank) → f.lanes ≤ shapeL (bankShape e.ctx f.bank) →
      (f.dir = 1 → e.score.rows ≤ e.row + 1 ∧ e.score.anchored = true) →
      (f.dir = 0 → e.row + 1 < e.score.rows ∧ isHead e (e.row + 1) = false) →
      let rows := liveRows e.ctx f.mrow (shapeT (bankShape e.ctx f.bank))
      let m : McItem := ⟨f, rows, e.ctx.beat⟩
      Issuing s c k (.mc f) e →
      (isHead e e.row = true → f.lanes = 0 → ∃ st, exec (.mc c k f false) s =
        .next (retire e k none { e.ctx with mcOut := e.ctx.mcOut ++ [(e.ctx.beat, f.bank)] }
          { s with streams := s.streams ++ [st] }) ∧ st.pairs = [] ∧ st.rows = []) ∧
      (isHead e e.row = true → 0 < f.lanes → ∃ st q, exec (.mc c k f false) s =
          .next (applyBw e k none { modCtx e.key e.ghost (fun _ => q) s with streams := s.streams ++ [st] }) ∧
        q = { bankDrained f.bank (stepPc e.ctx) with mcOut := e.ctx.mcOut ++ [(e.ctx.beat, f.bank)] } ∧ st.row = e.row ∧ st.col = e.col ∧ st.rows = rows ∧
        st.lanes = f.lanes ∧ st.beat = e.ctx.beat ∧ st.toLink = (f.dir == 1) ∧
        ∀ j, j < rows.length * f.lanes → st.pairs.getD j (0, 0) = pairAdd (0, 0)
          (bankRead e.ctx f.bank (bankKey (bankShape e.ctx f.bank) (j % f.lanes) (rows.getD (j / f.lanes) 0)))) ∧
      (isHead e e.row = false → e.core.chainBuf = [] →
        exec (.mc c k f false) s = .next (applyBw e k none
          (modCtx e.key e.ghost (fun _ => { stepPc e.ctx with chains := (stepPc e.ctx).chains ++ [m] }) s)))) ∧
    (∀ st g, envAt s st.slot st.row st.col = some g → g.ctx.waitFor = none →
      chainTaken st s = modCtx g.key g.ghost (fun q => { q with mcOut := q.mcOut.drop 1 }) s) ∧
    (∀ ix st, let v := chainTaken st { s with streams := s.streams.eraseIdx ix }
      s.streams[ix]? = some st → st.toLink = false →
      (∀ q ∈ s.streams.take ix, q.slot ≠ st.slot ∨ q.row ≠ st.row ∨ q.col ≠ st.col) →
      envAt s st.slot (st.row + 1) st.col = some e → getCore v e.key = e.core → e.ctx.waitFor = none →
      (e.ctx.chains = [] → sumNat ((e.core.chainBuf.filter (·.slot == st.slot)).map (·.rows.length)) + st.rows.length ≤ 4 →
        exec (.chainStreamArrival ix) s =
          .next (modCore e.key (fun core => { core with chainBuf := core.chainBuf ++ [st] }) v)) ∧
      (∀ m, e.core.chainBuf = [] → e.ctx.chains = [m] → st.slot = e.slot → st.bar = e.run.bar → st.run = e.run.run →
        st.row + 1 = e.row → st.col = e.col → st.beat = m.beat → 0 < m.f.lanes → st.rows = m.rows →
        st.lanes = m.f.lanes →
        ∃ o q, exec (.chainStreamArrival ix) s =
            .next { modCtx e.key e.ghost (fun _ => q) v with streams := v.streams ++ [o] } ∧
          q = { bankDrained m.f.bank { e.ctx with chains := [] } with mcOut := e.ctx.mcOut ++ [(m.beat, m.f.bank)] } ∧
          o.row = e.row ∧ o.beat = m.beat ∧
          ∀ j, j < m.rows.length * m.f.lanes → o.pairs.getD j (0, 0) = pairAdd (st.pairs.getD j (0, 0))
            (bankRead e.ctx m.f.bank (bankKey (bankShape e.ctx m.f.bank) (j % m.f.lanes) (m.rows.getD (j / m.f.lanes) 0)))))

/-! ## The vector engine (06) -/

/-- `vld` and `vst` complete (06 R170, R171, R173, R211): words 0 to VL − 1 of the slot take the elements read, the
others stay; the elements' packed codes and scale bytes stand in the vector's lines, every byte outside them stays; both
join their flags to the sticky flags. -/
def Obligations.VectorsMoveBetweenSlotsAndSram : Prop :=
  ∀ (s : State) (c : CoreRef) (k : Ctl) (e : Env) (f : VmF),
    let n := vecLines f.fmt f.vl
    (f.vl = 0 → (Issuing s c k (.vld f) e → exec (.vld c k f false) s = .next (retire e k none e.ctx s)) ∧
      (Issuing s c k (.vst f) e → exec (.vst c k f false) s = .next (retire e k none e.ctx s))) ∧
    (∀ p, 0 < f.vl → operandLines e false f.line f.xa 0 n = some p → linesFree e.ctx [(p.2, n)] [] = true →
      Issuing s c k (.vld f) e →
      let els := (List.range f.vl).map (loadElem f.fmt (sramBytes e.core p.2 0 (n * 64)) f.vl)
      ∃ q, exec (.vld c k f false) s = .next (retire e k none q s) ∧
        (∀ j, slotWord q f.slot j = ((els[j]?).map (·.1)).getD (slotWord e.ctx f.slot j)) ∧
        (∀ i j, i ≠ f.slot → slotWord q i j = slotWord e.ctx i j) ∧
        q = { e.ctx with slots := q.slots, flags := e.ctx.flags ||| BitVec.ofNat 32 (orAll (els.map (·.2))) }) ∧
    (∀ p, 0 < f.vl → f.vl ≤ 256 → operandLines e true f.line f.xa 0 n = some p → linesFree e.ctx [] [(p.2, n)] = true →
      writeRoom e.ctx = true → (∀ b ∈ tensorAt e p.1, p.1 + n ≤ b.2.2.first + b.2.2.lines) →
      Mem.wf e.core.sram = true → Issuing s c k (.vst f) e →
      let sc := vstScale e f.fmt (tensorAt e p.1)
      let out := vstCodes f.fmt sc ((List.range f.vl).map (slotWord e.ctx f.slot))
      let w := fmtBits f.fmt
      ∃ u, exec (.vst c k f false) s = .next (retire e k none (e.ctx.raise out.2.2) u) ∧
        { u with cores := s.cores, slots := s.slots } = s ∧ (sc.tensor = none → u.slots = s.slots) ∧
        (∀ i, i ≠ e.key → getCore u i = getCore s i) ∧ { getCore u e.key with sram := e.core.sram } = e.core ∧
        SramKept e.core (getCore u e.key) [(p.2, n)] ∧
        Mem.readN (getCore u e.key).sram (p.2 * 64) (ceilDiv (out.1.length * w) 8) =
          overlay w out.1 (sramBytes e.core p.2 0 (n * 64)) ∧
        Mem.readN (getCore u e.key).sram ((p.2 + ceilDiv (f.vl * w) 512) * 64) out.2.1.length = out.2.1)

/-- `roll`, `vperm` and `vflag` complete (06 R169, R178, R183, R188, R189, R193): every output of a roll is computed
from the slots as they were, its live words alone are written, and a second output follows the first; a permutation
takes the words its indices name, +0 and the flag for one out of range, or faults where the score asks for it; the
sticky flags are read and, where asked, cleared. -/
def Obligations.SlotOperationsComplete : Prop :=
  ∀ (s : State) (c : CoreRef) (k : Ctl) (e : Env),
    (∀ f : RollF, e.prog.rolls[f.rd]? = none → Issuing s c k (.roll f) e →
      exec (.roll c k f false) s = .next (retire e k none e.ctx s)) ∧
    (∀ (f : RollF) r, e.prog.rolls[f.rd]? = some r → Issuing s c k (.roll f) e →
      let live := (List.range f.vl).map fun j => (mRead e.ctx f.mv).getLsbD j
      let input (v slot : Nat) := (List.range f.vl).map fun j => viewWord v (slotWord e.ctx slot j)
      let res := rollStages ⟨input r.viewA f.sa, input r.viewB f.sb, input r.viewC f.sc⟩ live f.vl r.stages [] 0
      let word (o : Option (Nat × Bool)) (j : Nat) (old : Word) : Word :=
        ((o.bind fun o => (rollOut res.1 live o).1.getD j none)).getD old
      let flags (o : Option (Nat × Bool)) : Word := ((o.map fun o => BitVec.ofNat 32 (rollOut res.1 live o).2)).getD 0
      ∃ q, exec (.roll c k f false) s = .next (retire e k none q s) ∧
        q = { e.ctx with slots := q.slots, flags := q.flags } ∧
        q.flags = e.ctx.flags ||| flags r.outD ||| flags r.outE ||| BitVec.ofNat 32 res.2 ∧
        ∀ i j, slotWord q i j =
          let a := if i = f.sd then word r.outD j (slotWord e.ctx i j) else slotWord e.ctx i j
          if i = f.se then word r.outE j a else a) ∧
    (∀ f : VpermF, Issuing s c k (.vperm f) e →
      let inside (j : Nat) : Prop := 0 ≤ sint (slotWord e.ctx f.idx j) ∧ sint (slotWord e.ctx f.idx j) < f.vl
      (e.score.permFaults = true → (∃ j, j < f.vl ∧ ¬ inside j) →
        exec (.vperm c k f false) s = .next (faultAt e cPermRange s)) ∧
      ((e.score.permFaults = true → ∀ j, j < f.vl → inside j) →
        ∃ q, exec (.vperm c k f false) s = .next (retire e k none q s) ∧
          (∀ j, j < f.vl → inside j →
            slotWord q f.dst j = slotWord e.ctx f.src (sint (slotWord e.ctx f.idx j)).toNat) ∧
          (∀ j, j < f.vl → ¬ inside j → slotWord q f.dst j = 0) ∧
          (∀ j, f.vl ≤ j → slotWord q f.dst j = slotWord e.ctx f.dst j) ∧
          (∀ i j, i ≠ f.dst → slotWord q i j = slotWord e.ctx i j) ∧
          q = { e.ctx with slots := q.slots, flags := q.flags } ∧
          ((∀ j, j < f.vl → inside j) → q.flags = e.ctx.flags) ∧
          ((∃ j, j < f.vl ∧ ¬ inside j) → q.flags = e.ctx.flags ||| 1#32))) ∧
    (∀ xd clr, xd < 32 → Issuing s c k (.vflag xd clr) e →
      ∃ q, exec (.vflag c k xd clr) s = .next (retire e k none q s) ∧
        IndexWritten { e.ctx with flags := if clr then 0 else e.ctx.flags } q xd (· = e.ctx.flags))

/-! ## Messages and transfers (02, 03) -/

/-- `send` completes (03 R90, R93; 02 R49): one message with the sender's slot, bar, run, beat, position and the next
sequence number of its destination and beat leaves with the lines read; one to a core outside the score faults the
partition with `EDGE_FILTER`. `recv` and the arrival of a message complete (02 R34, R35, 03 R92): a `recv` waits
without keeping later instructions back; the message that answers it, waiting or arriving, leaves the inbox and stands
in the `recv`'s lines; a message that no `recv` waits for stays in the inbox. -/
def Obligations.MessagesAreSentAndReceived : Prop :=
  (∀ (s : State) (c : CoreRef) (k : Ctl) (e : Env) (f : SendF) p,
     operandLines e false f.sline f.xa 0 f.len = some p → linesFree e.ctx [(p.2, f.len)] [] = true →
     Issuing s c k (.send f) e →
     let n := e.ctx.sent.getD (sentKey f.dk f.dest e.ctx.beat) 0
     let q : CoreCtx := { e.ctx with sent := e.ctx.sent.put (sentKey f.dk f.dest e.ctx.beat) (n + 1) }
     let tagged (m : Msg) : Prop := m.slot = e.slot ∧ m.bar = e.run.bar ∧ m.run = e.run.run ∧ m.beat = e.ctx.beat ∧
       m.srcRank = e.job.rank ∧ m.srcRow = e.row ∧ m.srcCol = e.col ∧ m.seq = n % 65536 ∧ m.lines = f.len ∧
       m.data = sramBytes e.core p.2 0 (f.len * 64)
     (f.dk = 0 → (e.score.rows ≤ f.dest / 64 ∨ e.score.cols ≤ f.dest % 64) →
       exec (.send c k f false) s = .next (faultAt e cEdgeFilter s)) ∧
     (f.dk = 0 → f.dest / 64 < e.score.rows → f.dest % 64 < e.score.cols →
       inboxCredit s (coreKey e.part e.ghost e.win (f.dest / 64) (f.dest % 64)) e.slot (f.dest / 64) (f.dest % 64) e.ghost
         f.len = true →
       ∃ m, exec (.send c k f false) s = .next (retire e k none q { s with net := s.net ++ [m] }) ∧ tagged m ∧
         m.route = none ∧ m.dstRow = f.dest / 64 ∧ m.dstCol = f.dest % 64) ∧
     (∀ r d, f.dk = 1 → e.score.routes[f.dest]? = some r → routeDest e.score r e.job.rank = some d →
       sendCredit s e f.dest = true →
       ∃ m, exec (.send c k f false) s = .next (applyBw e k none (linkService e.slot
           (modCtx e.key e.ghost (fun _ => stepPc q) { s with net := s.net ++ [m] }))) ∧ tagged m ∧
         m.route = some f.dest)) ∧
  (∀ (s : State) (c : CoreRef) (e : Env),
     (∀ (k : Ctl) (f : RecvF) p, operandLines e true f.dline f.xa 0 f.len = some p →
       linesFree e.ctx [] [(p.2, f.len)] = true → writeRoom e.ctx = true → Issuing s c k (.recv f) e →
       let r : RecvItem := ⟨if f.sk = 1 then some f.src else none, f.src / 64, f.src % 64,
         if f.bsrc then (xRead e.ctx f.xb).toNat else e.ctx.beat, p.2, f.len, e.ctx.beat⟩
       (e.core.inbox = [] → exec (.recv c k f false) s =
         .next (retire e k none { e.ctx with recvs := e.ctx.recvs ++ [r] } s)) ∧
       (∀ m, e.core.inbox = [m] → e.ctx.recvs = [] → answers e r m = true → s.net = [] → m.lines = f.len →
         Mem.wf e.core.sram = true →
         ∃ u, exec (.recv c k f false) s = .next (applyBw e k none u) ∧ { u with cores := s.cores } = s ∧
           (∀ i, i ≠ e.key → getCore u i = getCore s i) ∧ regsOf e u = stepPc e.ctx ∧ (getCore u e.key).inbox = [] ∧
           Mem.readN (getCore u e.key).sram (p.2 * 64) m.data.length = m.data)) ∧
     (∀ ix m j sc d, s.net[ix]? = some m → getJob s m.slot = some j → (getSlot s m.slot).score = some sc → m.held = [] →
       ((m.route = none ∧ d = (m.dstRow, m.dstCol)) ∨ ∃ r rt run, m.route = some r ∧ sc.routes[r]? = some rt ∧
         j.runOf m.bar m.run = some run ∧ rt.kind < 2 ∧ routeDest sc rt m.srcRank = some j.rank ∧
         routeTurn s sc j run r m = true ∧ d = routeCore rt) →
       envAt s m.slot d.1 d.2 = some e →
       let s' : State := { s with net := s.net.eraseIdx ix }
       (m.route = none ∨ inboxCredit s' e.key m.slot d.1 d.2 e.ghost m.lines = true) →
       allEnded s e.part e.ghost e.score = false → e.ctx.waitFor = none → e.core.rest = none →
       (e.ctx.recvs = [] → exec (.messageArrival ix false) s =
         .next (modCore e.key (fun core => { core with inbox := core.inbox ++ [m] }) s')) ∧
       (∀ r, e.ctx.recvs = [r] → e.core.inbox = [] → answers e r m = true → s'.net = [] → m.lines = r.len →
         ∃ u, exec (.messageArrival ix false) s = .next u ∧ { u with cores := s.cores } = s' ∧
           (∀ i, i ≠ e.key → getCore u i = getCore s i) ∧ regsOf e u = { e.ctx with recvs := [] } ∧
           (getCore u e.key).inbox = [] ∧ (getCore u e.key).sram = Mem.writeN e.core.sram (r.line * 64) m.data)))

/-- `dma` and its completion (03 R94, R98 to R100, R102): a descriptor whose ranges pass is queued, one that moves no
byte counts at once; a started descriptor that nothing holds back moves its bytes, advances its counter modulo 2^32
and leaves the queue, and an advance that waited for it then takes place. A linear transfer from memory fills its
lines (03 R96, R97): byte b of row r stands in line r times the stride plus b / 64, the bytes of a row's last line
beyond the row are zero, and no other byte of the core's SRAM changes. -/
def Obligations.TransfersMoveTheirBytes : Prop :=
  (∀ (s : State) (c : CoreRef) (e : Env),
     (∀ (k : Ctl) desc xo d it, e.prog.plan[desc]? = some d → dmaItem s e d xo = some it → Issuing s c k (.dma desc xo) e →
       ((d.rows = 0 ∨ d.rowBytes = 0) →
         exec (.dma c k desc xo) s = .next (retire e k none (bumpCounter d.counter e.ctx) s)) ∧
       (0 < d.rows → 0 < d.rowBytes →
         let rd := if d.toMem then descLines it.desc else memSideLines it
         let wr := if d.toMem then memSideLines it else descLines it.desc
         linesFree e.ctx rd wr = true → (wr = [] ∨ writeRoom e.ctx = true) →
         exec (.dma c k desc xo) s = .next (retire e k none { e.ctx with dmas := e.ctx.dmas ++ [it] } s))) ∧
     (∀ ix it, Standing s c e → e.ctx.dmas[ix]? = some it → dmaStarted e.ctx.dmas ix = true →
       let pages := dmaPages s e e.run it
       dmaHeld s it (it.look && e.run.look) pages = false → (∀ p ∈ pages, asleep s p.1 = false) →
       (∀ p ∈ pages, (getPage s p.1).poison = false) →
       ∃ t, exec (.dmaComplete c ix false) s = .next (settle e t) ∧
         t = modCtx e.key e.ghost (fun r => bumpCounter it.desc.counter { r with dmas := r.dmas.eraseIdx ix })
           (askForUse pages (usePages it.desc.toMem (pages.map (·.1)) (dmaMove e e.run it s))))) ∧
  (∀ (s : State) (e : Env) (run : Run) (it : DmaItem), it.desc.toMem = false → it.desc.layout = 0 →
     0 < it.desc.rowBytes → ceilDiv it.desc.rowBytes 64 ≤ it.desc.coreStride → Mem.wf (getCore s e.key).sram = true →
     let core := getCore (dmaMove e run it s) e.key
     let at_ (r b : Nat) : Nat := (it.desc.coreLine + r * it.desc.coreStride) * 64 + b
     (∀ r b, r < it.desc.rows → b < it.desc.rowBytes →
       Mem.read core.sram (at_ r b) = dmaReadByte s e run (getCore s e.key) (it.mem + r * it.desc.memStride + b)) ∧
     (∀ r b, r < it.desc.rows → it.desc.rowBytes ≤ b → b < 64 * ceilDiv it.desc.rowBytes 64 →
       Mem.read core.sram (at_ r b) = 0) ∧
     SramKept (getCore s e.key) core
       ((List.range it.desc.rows).map fun r => (it.desc.coreLine + r * it.desc.coreStride, ceilDiv it.desc.rowBytes 64)) ∧
     { dmaMove e run it s with cores := s.cores } = s)

/-! ## `end`, rest windows, scrubbing and the shadow check (02, 03, 07) -/

/-- `end` completes (03 R84, 02 R40): the core has ended its bar, and the partition beat follows; when every core has
and a message of the bar is left unconsumed the partition faults with `BEAT_ORPHAN`. Rest windows (02 R57 to R60, 06
R165): `rest` puts the primary's registers away and a bound ghost goes on with its own; once a claim stands and every
ghost is still, the cores pause; after the save the primary goes on with its registers, its slots at +0 and its lane
stores without a slice, and the ghost's registers are put away. -/
def Obligations.CoresEndAndRest : Prop :=
  (∀ (s : State) (c : CoreRef) (k : Ctl) (e : Env), Issuing s c k .finish e →
     let u := modCtx e.key e.ghost (fun _ => { e.ctx with ended := true }) s
     ((allEnded u e.part e.ghost e.score = false ∨ orphans u e = false) → exec (.finish c k) s =
       .next (applyBw e k none (if e.ghost then afterBeat e.slot u else checkClaim e.pid (afterBeat e.slot u)))) ∧
     (allEnded u e.part e.ghost e.score = true → orphans u e = true →
       exec (.finish c k) s = .next (faultAt e cBeatOrphan s))) ∧
  (∀ s : State,
     (∀ (c : CoreRef) (k : Ctl) (e : Env) win w, e.ghost = false → e.score.rests[win]? = some w →
       w.first ≤ partBeatOf s e.part e.ghost e.score → e.ctx.mmNow = none → e.ctx.chains = [] → e.ctx.mcOut = [] →
       e.core.ghostOn = false → Issuing s c k (.rest win) e →
       ∃ u, exec (.rest c k win) s = .next (applyBw e k none (tickGhost e.pid (checkClaim e.pid (afterBeat e.slot u)))) ∧
         { u with cores := s.cores, slots := s.slots, parts := s.parts } = s ∧
         (getPart u e.pid).state = .resting ∧ (∀ i, i ≠ e.key → getCore u i = getCore s i) ∧
         (ghostReady s e.part = false → getCore u e.key =
           { e.core with ctx := { stepPc e.core.ctx with shadow := none }, rest := some win }) ∧
         (ghostReady s e.part = true → getCore u e.key =
           { e.core with savedPrimary := { stepPc e.core.ctx with shadow := none }, ctx := e.core.savedGhost.resumed,
                         ghostOn := true, rest := some win, pausing := false })) ∧
     (∀ part, part < 64 → (getPart s part).claim.isSome = true →
       (∀ key ∈ restingCores s (getPart s part), ghostStill (getCore s key.1) = true) →
       ∃ t, exec (.ghostPause part) s = .next t ∧ { t with cores := s.cores, slots := s.slots } = s ∧
         ∀ key ∈ restingCores s (getPart s part), (getCore t key.1).pausing = true ∧
           (getCore t key.1).sram = (getCore s key.1).sram) ∧
     (∀ part, part < 64 → (getPart s part).claim.isSome = true → restingCores s (getPart s part) ≠ [] →
       (∀ key ∈ restingCores s (getPart s part),
         (getCore s key.1).pausing = true ∧ ghostStill (getCore s key.1) = true) →
       ∃ t, exec (.ghostSaveDone part) s = .next t ∧ (getPart t part).claim = none ∧
         ((getPart s part).state = .resting → (getPart t part).state = .running) ∧
         ∀ key ∈ restingCores s (getPart s part),
           let old := getCore s key.1
           let new := getCore t key.1
           new.rest = none ∧ new.ghostOn = false ∧ new.pausing = false ∧ new.sram = old.sram ∧
           (old.ghostOn = true → new.savedGhost = old.ctx.resumed) ∧
           ∃ n, new.ctx = (if old.ghostOn then old.savedPrimary else old.ctx).afterRest n))

/-- The end of a scrub and of a shadow check (02 R53, 07 R230, R231): every core of a scrubbed partition is empty, the
partition is free and its owner's use is lower by one; a checked issue leaves the buffer and what it found is held in
the run until the verdict. -/
def Obligations.ScrubsAndShadowChecksEnd : Prop :=
  ∀ s : State,
    (∀ part, part < 64 → (getPart s part).state = .scrubbing →
      ∃ t, exec (.partitionScrubDone part) s = .next t ∧ t.parts = s.parts.del part ∧
        (∀ key ∈ partKeys (getPart s part), getCore t key = {}) ∧
        (∀ key, key ∉ partKeys (getPart s part) → getCore t key = getCore s key) ∧
        (∀ i, i ≠ (getPart s part).owner → t.tenants.get i = s.tenants.get i) ∧
        (t.tenants.getD (getPart s part).owner {}).partUsed =
          (s.tenants.getD (getPart s part).owner {}).partUsed - 1 ∧
        { t with cores := s.cores, parts := s.parts, tenants := s.tenants } = s) ∧
    (∀ (c : CoreRef) (e : Env) b, Standing s c e → e.ctx.shadow = some b → e.job.ahead = none →
      let found := b.els.filterMap (shadowElem e.job.f.shadowT)
      ∃ t r, exec (.shadowCheckDone c) s = .next t ∧ regsOf e t = { e.ctx with shadow := none } ∧
        (getJob t e.slot).bind Job.now = some r ∧
        r.shadowMis = e.run.shadowMis + (if found.any (·.2) then 1 else 0) ∧
        (∃ sample, r.heldMons = e.run.heldMons ++ [(handOfCol (e.key % 64) * 256 + 202, sample)] ∧
          (found = [] → sample = 63)) ∧
        ((∀ x ∈ found, x.2 = false) → r.heldNotices = e.run.heldNotices) ∧
        { t with cores := s.cores, slots := s.slots } = s)

/-! ## Reductions, outcomes and the update engine (05, 08) -/

/-- A contribution to an ordered reduction is added when its turn in the source list has come and kept until then; one
to an exact reduction is added at once as an integer (05 R150, R151, R154, R155). What the link interface takes
completes (05 R149, R605, R606): a chain stream that leaves row 15 and a whole contribution of a route enter their
reduction; a part of a contribution waits for the rest; a stream that no source names faults the partition. An outcome
message completes (08 R604): every record's shard, owned by this rank, updated by its cores and without an outcome
before, has the outcome reported; no other shard's outcome changes. -/
def Obligations.ReductionsTakeTheirContributions : Prop :=
  (∀ (s : State) (slot i : Nat) (sc : Score) (d : Reduction) (j : Job) (run : Run) (c : Contrib),
     getJob s slot = some j → j.now = some run →
     let x := getRed run i
     let seq := redSequence sc j.rank d
     x.delivered = false → (c.entry, c.rank) ∉ x.taken → 0 < d.elements → x.taken.length + 1 < seq.length → x.held = [] →
     ∃ r y, (getJob (contribute slot i sc d c s) slot).bind Job.now = some r ∧ y = getRed r i ∧ y.delivered = false ∧
       y.beat = max x.beat c.beat ∧
       (d.mode ≠ 2 → seq[x.taken.length]? = some (c.entry, c.rank) →
         y.taken = x.taken ++ [(c.entry, c.rank)] ∧ y.held = [] ∧
         ∀ n, n < c.pairs.length → y.acc.getD n (0, 0) = pairAdd (x.acc.getD n (0, 0)) (c.pairs.getD n (0, 0))) ∧
       (d.mode ≠ 2 → seq[x.taken.length]? ≠ some (c.entry, c.rank) →
         y.taken = x.taken ∧ y.held = [c] ∧ y.acc = x.acc) ∧
       (d.mode = 2 → c.leaf = true → c.pairs.length = d.elements →
         y.taken = x.taken ++ [(c.entry, c.rank)] ∧
         ∀ n, n < d.elements → y.ints.getD n 0 =
           (satInt (x.ints.getD n 0 + (leafInt (qOf run d.tensor) (c.pairs.getD n (0, 0))).1)).1)) ∧
  (∀ (s : State) (ix : Nat),
     (∀ st j sc run, s.streams[ix]? = some st → st.toLink = true → getJob s st.slot = some j →
       (∀ q ∈ s.streams.take ix, q.slot ≠ st.slot ∨ q.row ≠ st.row ∨ q.col ≠ st.col) →
       (getSlot s st.slot).score = some sc → j.now = some run → j.runOf st.bar st.run = some run →
       let v := chainTaken st { s with streams := s.streams.eraseIdx ix }
       (chainTaker sc st.col st.beat = none → exec (.chainIntake ix) s = .next (slotFault st.slot cBounds v)) ∧
       (∀ i k d, chainTaker sc st.col st.beat = some (i, k) → sc.reductions[i]? = some d →
         st.rows.length * st.lanes = d.elements →
         mayTake s st.slot sc j run i d (k, j.rank) (8 * d.elements) = true →
         exec (.chainIntake ix) s = .next (contribute st.slot i sc d ⟨k, j.rank, st.beat, st.pairs, [], 0, true⟩ v))) ∧
     (∀ m route j sc rt run d k, s.net[ix]? = some m → m.route = some route → getJob s m.slot = some j →
       (getSlot s m.slot).score = some sc → sc.routes[route]? = some rt → j.runOf m.bar m.run = some run →
       j.now = some run → run.bar = m.bar → run.run = m.run → rt.kind = 2 → routeDest sc rt m.srcRank = some j.rank →
       routeTurn s sc j run route m = true → lowerBeats s sc j.rank m route = true → sc.reductions[rt.target]? = some d →
       routeEntry d route = some k →
       mayTake s m.slot sc j run rt.target d (k, m.srcRank) m.data.length = true →
       let s' := returnUnits false m.held { s with net := s.net.eraseIdx ix }
       let x := getRed run rt.target
       let bs := x.partials.getD (k * 1024 + m.srcRank) [] ++ m.data
       let want := ceilDiv (contribBytes sc d route) 64 * 64
       let u := modNow m.slot (setRed rt.target { x with
         partials := x.partials.put (k * 1024 + m.srcRank) bs, beat := max x.beat m.beat }) s'
       x.delivered = false →
       (bs.length < want → m.lines = 256 → exec (.routeContribution ix) s = .next u) ∧
       (bs.length = want → exec (.routeContribution ix) s = .next (contribute m.slot rt.target sc d
         (routeContrib sc d run route k m.srcRank m.beat bs) u)))) ∧
  (∀ (s : State) (ix : Nat) m route j sc rt run, s.net[ix]? = some m → m.route = some route →
     getJob s m.slot = some j → (getSlot s m.slot).score = some sc → sc.routes[route]? = some rt → rt.kind = 4 →
     j.now = some run → run.bar = m.bar → run.run = m.run → ((outcomeRecords m).map (·.1)).Nodup →
     (∀ r ∈ outcomeRecords m, r.2.1 ≤ 3 ∧ r.2.2 = true ∧ engineShard sc r.1 = false ∧ run.outcomes.get r.1 = none ∧
       ∃ e, sc.shards[r.1]? = some e ∧ e.owner = j.rank) →
     ∃ t r, exec (.outcomeReport ix) s = .next t ∧ (getJob t m.slot).bind Job.now = some r ∧
       (∀ x ∈ outcomeRecords m, r.outcomes.get x.1 = some x.2.1) ∧
       (∀ sh, sh ∉ (outcomeRecords m).map (·.1) → r.outcomes.get sh = run.outcomes.get sh) ∧
       t.net = s.net.eraseIdx ix ∧ t.mem = s.mem ∧ t.cores = s.cores)

/-- The update engine's commands complete (08 R237 to R239, R249, R254, R255, R257, R259, R262): a delivered gradient
whose entries are at hand enters the intake as FP32 words; it waits under backpressure while a holding area it needs has no
room, and counts once where the intake buffer has none. The next element of a resident entry is read from the current buffer,
with the gradient of the intake or of a holding area, and its result stands in the alternate buffer alone; a first pass of
shard mode 2 forms its sum instead. One element of an update (08 R239, R240, R242, R249, R254): the weight of the current
buffer and the gradient give the new one, which is stored in the alternate buffer's plane; the entry's partial sums advance
by this element, and nothing but the memory, with its pages and versions, and the run changes. -/
def Obligations.UpdatesRunElementByElement : Prop :=
  (∀ (s : State) (slot : Nat) (j : Job) (sc : Score) (run : Run), getJob s slot = some j →
     (getSlot s slot).score = some sc → j.now = some run → j.ahead = none → run.look = false →
     (∀ red d, sc.reductions[red]? = some d → d.dest = 0xFFFE → (getRed run red).delivered = true →
       run.intake.get red = none → areaAsleep s slot sc j.rank red = false →
       let hand := redHand s slot sc d
       let fill := intakeFill s hand
       let more := intakeMore s sc j.rank red
       (areaShort s sc j red = true → exec (.gradientIntake slot red) s = .next s ∧ backpressure s hand = true) ∧
       (areaShort s sc j red = false → 0 < fill → 2097152 < fill + more →
         exec (.gradientIntake slot red) s = .next (modHand hand (fun h => { h with
           intakeHeld := true, intakeFull := min 0xFFFF (h.intakeFull + (if h.intakeHeld then 0 else 1)) }) s)) ∧
       (areaShort s sc j red = false → (fill = 0 ∨ fill + more ≤ 2097152) →
         ∃ t r, exec (.gradientIntake slot red) s = .next t ∧ (getJob t slot).bind Job.now = some r ∧
           r.intake.get red = some (gradWords d (qOf run d.tensor) (getRed run red)) ∧
           (∀ i, i ≠ red → r.intake.get i = run.intake.get i) ∧ t.cores = s.cores ∧
           ((∀ e ∈ fedEntries sc j.rank red, ∀ c, entryGroup sc e.2 = some c → holdTier s (entryPages c e.2) = none) →
             t.mem = s.mem))) ∧
     (∀ entry t c sh gs, sc.entries[entry]? = some t → entryGroup sc t = some c → sc.shards[t.shard]? = some sh →
       run.intake.get t.red = some gs → sh.owner = j.rank → 0 < t.elements → (getPass run entry).done = false →
       (∀ q ∈ entryPages c t, inReach s q = true ∧ (getPage s q).poison = false ∧ asleep s q = false) →
       (∀ a ∈ run.areas, a.entry = entry → ∀ q ∈ rangePages (heldRanges s slot a), asleep s q = false) →
       let n := (getPass run entry).next
       let gr := passGrad s slot c run entry t gs
       (c.shardMode = 2 → (getPass run entry).second = false → ∃ u,
         exec (.updateElement slot entry false) s = .next (firstPass slot entry gr t.elements u) ∧
         { u with slots := s.slots, pages := s.pages, hands := s.hands } = s) ∧
       (c.shardMode ≠ 2 ∨ ((getPass run entry).second = true ∧ firstPassesDone sc run t.shard = true) → ∃ u,
         let v := updateOne slot entry c t (shardCur j t.shard) (run.etas.getD t.group (one64, one64))
           (prescaleOf sc run t.shard) (widen gr) n u
         exec (.updateElement slot entry false) s =
           .next (settleShards slot (if n + 1 = t.elements then letArea slot entry (fun _ => true) v else v)) ∧
         { u with slots := s.slots, pages := s.pages, hands := s.hands } = s))) ∧
  (∀ (s : State) (slot entry : Nat) (c : Group) (t : Entry) (cur : Nat) (eta : W64 × W64) (pre g : W64) (i : Nat)
     (j : Job) (run : Run), getJob s slot = some j → j.now = some run → Mem.wf s.mem = true → c.mstate = 0 →
     c.wstate ≠ 0 → c.shardMode ≠ 2 →
     let u := updateOne slot entry c t cur eta pre g i s
     let a := t.wBase + (1 - cur) * t.alt + 4 * i
     let w := round64 (num32 (readWord s (t.wBase + cur * t.alt + 4 * i)))
     let new := round32 (num64 (recurrence c eta.1 eta.2 pre g w 0).1)
     readWord u a = new ∧ (∀ b, (b < a ∨ a + 4 ≤ b) → Mem.read u.mem b = Mem.read s.mem b) ∧
     { u with mem := s.mem, slots := s.slots, pages := s.pages, versions := s.versions, verRoot := s.verRoot } = s ∧
     ∃ r, (getJob u slot).bind Job.now = some r ∧ (getPass r entry).next = i + 1 ∧
       (getPass r entry).done = decide (i + 1 = t.elements) ∧
       (getPass r entry).parts.g2 = add64 (getPass run entry).parts.g2 (mul64 g g) ∧
       (getPass r entry).parts.w2Old = add64 (getPass run entry).parts.w2Old (mul64 w w) ∧
       (getPass r entry).parts.w2 = add64 (getPass run entry).parts.w2 (mul64 (widen new) (widen new)))

/-! ## Bars and verdicts (02, 07, 09, 11, 13) -/

/-- A bar's run drains, gets its combined words and is voted on (02 R39, 07 R216, 09 R275, R276): a hand reports drained
once every core of the slot is done and nothing of the run is under way, and with the second report the device's words enter
their collective; the words combine; the device's vote then stands in the run and enters its collective. Nothing but the job
and the link fabric changes. -/
def Obligations.RunsDrainCombineAndVote : Prop :=
  ∀ (s : State) (slot : Nat) (j : Job) (sc : Score), slot < 128 → getJob s slot = some j →
    (getSlot s slot).score = some sc →
    (∀ hand p ghost r, hand < 2 → slotPart s slot = some (p, ghost) → j.now = some r →
      (∀ k ∈ jobCores s (getPart s p) ghost sc, coreDrained (ctxOf (getCore s k.1) ghost) = true ∧
        (ghost = true ∨ (getCore s k.1).rest = none)) →
      runTraffic s slot r.bar r.run = false → framesOut s j.f.job r.bar r.run = false →
      shortContribution sc j r = false → linksDone sc j r = true →
      exec (.handDrained slot hand) s = .next (drainHand slot hand sc r s) ∧
      ((if hand = 0 then r.drained1 else r.drained0) = false →
        exec (.handDrained slot hand) s = .next (modNow slot (setDrained hand) s))) ∧
    (∀ others r, j.cur = some r → r.drained0 = true → r.drained1 = true → r.combined = none →
      ∃ t r', exec (.barWordsCombined slot others) s = .next t ∧ (getJob t slot).bind (·.cur) = some r' ∧
        r'.combined = some (combineWords (ownWords sc r) (if sc.replicas = 1 then [] else others)) ∧
        { r' with combined := none } = r ∧ { t with slots := s.slots } = s) ∧
    (∀ r, timekeeper s = true → j.cur = some r → r.drained0 = true → r.drained1 = true → r.combined.isSome = true →
      r.voted = none → ownedJudged sc j r = true → j.compare = none →
      ∃ t v, exec (.voteEnter slot) s = .next t ∧ ((getJob t slot).bind (·.cur)) = some { r with voted := some v } ∧
        v.bar = r.bar ∧ v.job = j.f.job ∧ v.epoch = j.epoch ∧ v.mode = r.strict ∧
        v.cause = (if j.abortNext then 4 else r.cause) ∧ v.ovf = (r.combined.getD []).any (·.2) ∧
        { t with slots := s.slots, flows := s.flows, ports := s.ports } = s)

/-- The verdict of R278: abort for any cause, skip or re-run for an overflow by whether the score trains, skip for an
outcome that is not finite in a strict bar, else commit; it forms once every device's vote is in, and takes effect at
once. -/
def Obligations.VerdictsFollowTheVotes : Prop :=
  ∀ (s : State) (slot : Nat) (j : Job) (sc : Score) (r : Run) (own : Vote) others block, slot < 128 →
    timekeeper s = true → getJob s slot = some j → (getSlot s slot).score = some sc → j.cur = some r →
    r.voted = some own → others.length + 1 = sc.replicas →
    let v := others.foldl combineVote own
    let b := mergeBlock (ownBlock sc j r) block
    let ends (verdict : Nat) : Prop :=
      exec (.downbeatVerdict slot others block) s = .next (applyVerdict slot verdict v.cause v.ovfTensor b s)
    (v.cause ≠ 0 → ends 4) ∧
    (v.cause = 0 → v.ovf = true → scoreTrains sc = true → ends 2) ∧
    (v.cause = 0 → v.ovf = true → scoreTrains sc = false → ends 3) ∧
    (v.cause = 0 → v.ovf = false → v.mode = true → v.finite = false → ends 2) ∧
    (v.cause = 0 → v.ovf = false → (v.mode = false ∨ v.finite = true) → ends 1) ∧
    v.voters = own.voters + (others.map (·.voters)).sum ∧
    (own.voters = 1 → (∀ o ∈ others, o.voters = 1) → v.voters = sc.replicas) ∧
    (v.finite = true ↔ own.finite = true ∧ ∀ o ∈ others, o.finite = true) ∧
    (v.ovf = true ↔ own.ovf = true ∨ ∃ o ∈ others, o.ovf = true)

/-- An aborted bar leaves the committed state as it was (09 R272, R277, R283, R286): memory, regions but the session pages
that its runs took, the shards' current buffers and versions and the last resolved bar stay, both runs are gone, and the same
bar is to be opened again, strict after a timeout or a fault. -/
def Obligations.AbortedBarsLeaveCommittedState : Prop :=
  ∀ (s : State) (slot cause : Nat) (j : Job) (r : Run), getJob s slot = some j → j.cur = some r →
    let t := abortBar slot cause s
    t.mem = s.mem ∧ (∀ q ∈ t.regions, q ∈ s.regions) ∧
    (r.kvNew = [] → (∀ a, j.ahead = some a → a.kvNew = []) → t.regions = s.regions) ∧
    ∃ k, getJob t slot = some k ∧ k.cur = none ∧ k.ahead = none ∧ k.nextBar = r.bar ∧ k.done = j.done ∧ k.last = 4 ∧
      k.lastCause = cause ∧ k.strictNext = (j.strictNext || cause == 1 || cause == 3) ∧
      k.regionCur = j.regionCur ∧
      ∀ sh, (k.shards.get sh).map (fun v => (v.cur, v.ver)) = (j.shards.get sh).map (fun v => (v.cur, v.ver))

/-- Opening completes (09 R281, R282, R286; 02 R41): the next bar opens with its next run number and the strictness it
is due, as an ordinary run or as the look-ahead run of the bar after the open one. -/
def Obligations.BarsOpenWithFreshRuns : Prop :=
  ∀ (s : State) (slot : Nat) (j : Job) (sc : Score), slot < 128 → timekeeper s = true → getJob s slot = some j →
    (getSlot s slot).score = some sc →
    (mayOpen s slot sc j = true →
      ∃ u r k, exec (.barOpen slot) s = .next (enterRun slot sc j.hists j.cold r u) ∧ getJob u slot = some k ∧
        (∃ a, k.cur = some { r with pausedAt := a } ∧ ((∀ p, slotPart s slot ≠ some (p, true)) → a = none)) ∧
        r.pausedAt = none ∧ k.runs = j.runs + 1 ∧ r.bar = j.nextBar ∧ r.run = j.runs ∧ r.look = false ∧
        r.strict = (sc.strict || j.strictNext) ∧ r.opened = s.ptp.now ∧ r.drained0 = false ∧ r.drained1 = false ∧
        r.voted = none) ∧
    (∀ cur, j.cur = some cur → mayLook s slot sc j cur = true →
      let h := histsAfter j.cold j.hists (cur.combined.getD []) true
      ∃ u r k, exec (.lookaheadOpen slot) s = .next (enterRun slot sc h.1 h.2 r u) ∧ getJob u slot = some k ∧
        k.ahead = some r ∧ (∃ n, k.cur = some { cur with shadowDrop := n }) ∧ k.runsNext = j.runsNext + 1 ∧ r.bar = cur.bar + 1 ∧
        r.run = j.runsNext ∧ r.look = true ∧ r.strict = false)

/-- Timeouts, the verdict query and the comparison of replicas complete (09 R284, R285; 11 R334, R335): as its timer
expires, a bar whose vote is still out is voted on and aborts with cause 1, a voted one asks the other members; a member's verdict is adopted, an answer without
one is counted; records that agree end the comparison. -/
def Obligations.TimeoutsQueriesAndComparisonsComplete : Prop :=
  ∀ (s : State) (slot : Nat) (j : Job) (sc : Score), slot < 128 → getJob s slot = some j →
    (getSlot s slot).score = some sc →
    (∀ r now, let b := { s with ptp := { s.ptp with now := max s.ptp.now now } }
      timekeeper s = true → (slotPart s slot).isSome = true → j.cur = some r → r.query = false →
      timerOver b slot j r = true →
      (r.voted = none →
        exec (.barTimeout slot now) s = .next (applyVerdict slot 4 1 0xFFFF {} (enterVote slot sc j r 1 b))) ∧
      (r.voted.isSome = true → (∃ m ∈ queryMembers j, m ∉ r.replies) → exec (.barTimeout slot now) s =
        .next (askQuery slot r.bar
          (modJob slot (fun j => { j with cur := j.cur.map fun r => { r with query := true } }) b)))) ∧
    (∀ r m verdict block, timekeeper s = true → j.cur = some r → r.query = true → m ∈ queryMembers j →
      (∀ v, verdict = some v → exec (.verdictQueryReply slot m verdict block) s = .next (applyVerdict slot v.1 v.2
        (lowestOvf (r.combined.getD [])) (mergeBlock (ownBlock sc j r) block) s)) ∧
      (verdict = none → (∃ n ∈ queryMembers j, n ∉ r.replies ∧ n ≠ m) → exec (.verdictQueryReply slot m verdict block) s =
        .next (modJob slot (fun j => { j with cur := j.cur.map fun r => { r with replies := r.replies ++ [m] } }) s))) ∧
    (∀ recs b, j.compare = some b → recs.length + 1 = sc.replicas →
      (∀ p ∈ recs, ∀ f ∈ CmpFields, f p.2 = f (ownRecord s slot j b)) →
      exec (.replicaComparison slot recs) s = .next (modJob slot (fun j => { j with compare := none }) s))

/-- Shards and slices that arrive are taken when they agree with their versions (11 R323 to R325, R328): a keeper's copy
stands in the alternate buffer and its digest in the run, one that a strict bar left due in the current buffer, a gathered slice at its destination or on its route with its
version; bytes or versions that disagree are a version fault. -/
def Obligations.FetchedShardsAndSlicesAreChecked : Prop :=
  ∀ (s : State) (slot : Nat) (j : Job) (sc : Score) (r : Run), slot < 128 → getJob s slot = some j →
    (getSlot s slot).score = some sc → j.now = some r →
    (∀ sh v bytes a, isDue j sh v = false → j.admission = some a → sh ∈ a.fetch → shardAsleep s slot sc sh 0 = false →
      exec (.shardFetchArrival slot sh v bytes) s = .next (spareFetch slot sh sc v bytes s)) ∧
    (∀ sh v bytes, isDue j sh v = true → shardAsleep s slot sc sh (shardCur j sh) = false →
      (shake256 16 bytes = v.digest → v = (j.shards.getD sh {}).ver →
        exec (.shardFetchArrival slot sh v bytes) s = .next (wakeJob slot
          (modJob slot (fun j => { j with keeperDue := j.keeperDue.filter (· != sh) })
            (storeShard slot sc sh (shardCur j sh) bytes s)))) ∧
      (shake256 16 bytes ≠ v.digest → exec (.shardFetchArrival slot sh v bytes) s = .next (versionFault slot s))) ∧
    (∀ sh v bytes e, isDue j sh v = false → j.admission = none → sc.shards[sh]? = some e → e.keeper = some j.rank →
      r.look = false → r.strict = false → sh ∉ r.keeperGot → shardAsleep s slot sc sh (1 - shardCur j sh) = false →
      (bytes = [] → exec (.shardFetchArrival slot sh v bytes) s =
        .next (modNow slot (fun r => { r with keeperGot := r.keeperGot ++ [sh] }) s)) ∧
      (bytes ≠ [] → (shake256 16 bytes ≠ v.digest ∨ v.bar ≠ r.bar) →
        exec (.shardFetchArrival slot sh v bytes) s = .next (versionFault slot s)) ∧
      (bytes ≠ [] → shake256 16 bytes = v.digest → v.bar = r.bar →
        ∃ t r', exec (.shardFetchArrival slot sh v bytes) s = .next t ∧
          t.mem = layShard s slot sc sh (1 - shardCur j sh) bytes ∧ (getJob t slot).bind Job.now = some r' ∧
          r'.keeperGot = r.keeperGot ++ [sh] ∧ r'.digests = r.digests.put sh v.digest ∧
          { t with mem := s.mem, slots := s.slots, pages := s.pages, versions := s.versions, verRoot := s.verRoot } = s)) ∧
    (∀ i v bytes g e, sc.gathers[i]? = some g → sc.shards[g.shard]? = some e → gatherMine sc j.rank g = true →
      i ∈ r.gatherSent → r.gathers.get i = none → e.owner ≠ j.rank →
      (g.route = none → ∀ n ∈ pageSpan g.dest g.bytes, asleep s n = false) →
      let got := modNow slot (fun r => { r with gathers := r.gathers.put i v }) s
      let put := deliverSlice slot sc e.owner r g (bytes.take g.bytes) got
      (g.check = none → exec (.gatherArrival slot i v bytes) s = .next put) ∧
      (∀ c w, g.check = some c → r.gathers.get c = some w →
        (w = v → exec (.gatherArrival slot i v bytes) s = .next put) ∧
        (w ≠ v → exec (.gatherArrival slot i v bytes) s = .next (versionFault slot s))) ∧
      (g.route = none → bytes.take g.bytes ≠ [] → put.mem = Mem.writeN s.mem g.dest (bytes.take g.bytes) ∧ put.net = s.net))

/-- The sampler draws (13 R384 to R387): a candidate message that R385 takes leaves the fabric, and the run holds one
more draw, of the token that R386 gives for the request's parameters at the position after the row's last token; a
message that R385 does not take faults the partition with `BOUNDS`. -/
def Obligations.SamplerDrawsOneToken : Prop :=
  ∀ (s : State) ix m route j sc p ghost rt run g, s.net[ix]? = some m → m.route = some route →
    getJob s m.slot = some j → (getSlot s m.slot).score = some sc → slotPart s m.slot = some (p, ghost) →
    sc.routes[route]? = some rt → rt.kind = 3 → j.now = some run → run.bar = m.bar → run.run = m.run →
    j.f.gen = some g → j.ahead = none →
    let s' := returnUnits false m.held { s with net := s.net.eraseIdx ix }
    let c := candWords m
    (candOk g.rows m = false → exec (.samplerDraw ix) s = .next (faultPart p ghost cBounds m.srcRow m.srcCol s')) ∧
    (∀ f q, candOk g.rows m = true → run.feeds.get c.1 = some f → s.reqs.get f.req = some q → f.sample = true →
      drawOf run c.1 = none →
      ∃ t r d, exec (.samplerDraw ix) s = .next t ∧ t.net = s.net.eraseIdx ix ∧
        (getJob t m.slot).bind Job.now = some r ∧ r.draws = run.draws ++ [d] ∧ d.row = c.1 ∧ d.req = f.req ∧
        d.position = f.p + f.n ∧ d.token = drawToken q.f (f.p + f.n) (ringOf s m.slot c.1 j run) c.2.2)

/-! ## The memory engines (10, 17, 20) -/

/-- Promotion and demotion complete (10 R308, R310, R311): the request served next takes the lowest free frames of its
pool, or asks the pool to make room; a demoted page gives up its frame, unless what keeps it there cancels the move. The home
copies stay as they were. Zeroing and re-encryption complete (10 R297, 17 R495, R496, 20 R572): a zeroed page reads
zero, is no longer being zeroed and has lost its poison, with every other byte as it was; a readable page of the old
generation that no transfer uses is of the new one, its bytes as they were. What waits for them then goes on. -/
def Obligations.PagesMoveZeroAndReencrypt : Prop :=
  (∀ (s : State) (page : Nat), (∀ n ∈ pageGroup s page, asleep s n = false) →
     (∀ q, ([0, 1, 2].findSome? fun p => (nextPromotion s p).filter fun q => q.page == page) = some q →
       (∀ n ∈ pageGroup s page, (getPage s n).poison = false) →
       (freeFramesOf (pageGroup s page).length (getPool s q.pool) = none →
         exec (.promotionComplete page false) s = .next (makeRoom q.pool (countPoolWait q s))) ∧
       (∀ f, freeFramesOf (pageGroup s page).length (getPool s q.pool) = some f →
         placeAsleep s (pageNo (getPool s q.pool).base + f) = false →
         ∃ t, exec (.promotionComplete page false) s = .next t ∧ t.promoQ = s.promoQ.filter (· != q) ∧ t.mem = s.mem ∧
           let d := getPage t page
           d.pool = some q.pool ∧ d.frame = f ∧ d.dirty = (getPage s page).dirty ∧ d.lastUse = s.ptp.now ∧
           d.holds = joinHolds (getPage s page).holds q.holds ∧
           ((∀ x ∈ t.promoQ, x.page ≠ page) → d.move = 0))) ∧
     ((getPage s page).move = 2 → (getPage s page).pool.isSome = true →
       (mayLeave s page = false → exec (.demotionComplete page) s =
         .next (modPage page (fun d => { d with move := 0 }) s)) ∧
       (mayLeave s page = true →
         ∃ t, exec (.demotionComplete page) s = .next t ∧
           { t with pages := s.pages, hot := s.hot, kv := s.kv, staging := s.staging, versions := s.versions,
                    verRoot := s.verRoot } = s ∧
           (getPage t page).pool = none ∧ (getPage t page).move = 0 ∧ (getPage t page).dirty = false))) ∧
  (∀ (s : State) (page : Nat), asleep s page = false →
     (isZeroing s page = true →
       ∃ u, exec (.pageZeroingDone page) s = .next (retireAll (resumeStarts (closeZeroed u))) ∧
         isZeroing u page = false ∧ (u.pages.getD page {}).poison = false ∧
         (∀ n, n ≠ page → isZeroing u n = isZeroing s n ∧ u.pages.get n = s.pages.get n) ∧
         (∀ a, pageAddr page ≤ a → a < pageAddr page + pageBytes → Mem.read u.mem a = 0) ∧
         (∀ a, (a < pageAddr page ∨ pageAddr page + pageBytes ≤ a) → Mem.read u.mem a = Mem.read s.mem a) ∧
         { u with mem := s.mem, zeroing := s.zeroing, pages := s.pages, versions := s.versions, verRoot := s.verRoot } = s) ∧
     (∀ r new old, pageRegion s page = some r → keyGens s (keyContext s r) = (new, some old) →
       pageGen s r page = old → (getPage s page).move ≠ 1 → (getPage s page).move ≠ 2 →
       (∀ n ∈ pageGroup s page, accessInFlight s n = false) → (getPage s page).poison = false →
       ∃ u, exec (.reencryptPage page false) s = .next (retireKey (keyContext s r) u) ∧
         getPage u page = { getPage s page with kgen := some new } ∧
         (∀ n, pageUnit s n ≠ pageUnit s page → getPage u n = getPage s n) ∧
         { u with pages := s.pages, versions := s.versions, verRoot := s.verRoot } = s))

/-- The base and poisoned pages recover (10 R304 to R306, 20 R570, R571): a mapping that is scrubbed in its turn keeps its
digest, one that differs from the manifest is poisoned and logged; a reload writes the bytes of the first source that yields
the manifest's digest, the golden copy in LPDDR before the others, and clears the poison, or the mapping has failed; a page of
a committed shard buffer is refilled from a copy that agrees with the version table, and without one its partition faults with
`DATA_LOST`. -/
def Obligations.TheBaseAndShardsRecover : Prop :=
  ∀ (s : State),
    (∀ b m a, s.base = some b → mappingAddr b.man.extents m = some a → scrubTurn b = some m → asleep s (pageNo a) = false →
      b.scrubSince + m * scrubInterval s / b.man.mappings ≤ s.ptp.now →
      let u : State := { s with base := some { scrubbed s m b with scrub := b.scrub.put m (digest64 (mappingData s a)) } }
      (digest64 (mappingData s a) = b.man.mapDigests.getD m [] → exec (.baseScrubRead m false) s = .next u) ∧
      (digest64 (mappingData s a) ≠ b.man.mapDigests.getD m [] → exec (.baseScrubRead m false) s =
        .next (logInternal 5 0 0xFF 0 0 (leBytes 8 a) (poisonPage (pageNo a) u)))) ∧
    (∀ b m a unread peer, s.base = some b → mappingAddr b.man.extents m = some a → m ∈ b.reloading →
      asleep s (pageNo a) = false →
      (∀ g, b.lpGolden = some g → 1 ∉ unread →
        digest64 (mappingData s (g + m * mappingBytes)) = b.man.mapDigests.getD m [] →
        reloadSource s b m unread peer = some (1, mappingData s (g + m * mappingBytes))) ∧
      (∀ k data, reloadSource s b m unread peer = some (k, data) →
        digest64 data = b.man.mapDigests.getD m [] ∧
        ∃ t b', exec (.baseReloadDone m unread peer) s = .next t ∧ t.mem = Mem.writeN s.mem a data ∧
          t.base = some b' ∧ m ∉ b'.reloading ∧ b'.man = b.man ∧ b'.failed = b.failed ∧
          (getPage t (pageNo a)).poison = false ∧ (getPage t (pageNo a)).move = 0) ∧
      (reloadSource s b m unread peer = none → ∃ t b', exec (.baseReloadDone m unread peer) s = .next t ∧ t.mem = s.mem ∧
        t.base = some b' ∧ m ∉ b'.reloading ∧ m ∈ b'.failed ∧ (getPage t (pageNo a)).poison = true)) ∧
    (∀ page slot sh j sc, (getPage s page).poison = true → asleep s page = false →
      ((getPage s page).pool = none ∨ (getPage s page).dirty = true) → shardOfPage s page = some (slot, sh) →
      getJob s slot = some j → (getSlot s slot).score = some sc →
      (∀ bytes, shake256 16 bytes = (j.shards.getD sh {}).ver.digest →
        ∃ t, exec (.pageRecoveryDone page (some bytes)) s = .next t ∧ (getPage t page).poison = false ∧
          let a := pageAddr (pageUnit s page)
          t.mem = Mem.writeN s.mem a
            (Mem.readN (layShard s slot sc sh (shardCur j sh) bytes) a ((pageGroup s page).length * pageBytes))) ∧
      (∀ found, (∀ bytes, found = some bytes → shake256 16 bytes ≠ (j.shards.getD sh {}).ver.digest) →
        exec (.pageRecoveryDone page found) s = .next (slotFault slot cDataLost
          (notice 0x81 0 0 0 (leBytes 8 (pageAddr page) ++ leBytes 1 2) s))))

/-! ## The Grerdo ports (14) -/

/-- A port trains, falls and rewinds (14 R399, R401, R410, R411, R420): with its topology's peer it comes up with fresh
credits and its generation one higher, with another it stays down with a mismatch; a port that goes down keeps no lanes
and its unacknowledged frames move; a class resends from its oldest frame with the credits it had used, and the fourth
rewind in a row takes the port down. -/
def Obligations.PortsTrainFallAndRewind : Prop :=
  ∀ (s : State) (port : Nat), port < 18 →
    (∀ lanes dev peer, (topoOf s port).unused = false → (getPort s port).unused = false → (getPort s port).state < 2 →
      s.dev.refGl = true → s.dev.stopped = false → s.dev.starting = false →
      (getHand s (port / 9)).mode = .running →
      ∃ t, exec (.glPortTraining port lanes dev peer) s = .next t ∧
        (trainedState lanes = 0 → getPort t port = { getPort s port with state := 0, lanes := lanes % 16 } ∧
          { t with ports := s.ports } = s) ∧
        (trainedState lanes ≠ 0 → (dev ≠ (topoOf s port).peerDev ∨ peer ≠ (topoOf s port).peerPort) →
          ∃ u, t = notice 0x20 3 port 0 (leBytes 2 port ++ leBytes 2 dev ++ leBytes 2 peer) u ∧
            getPort u port = { getPort s port with state := 0, lanes := lanes % 16, peerDev := dev, peerPort := peer } ∧
            { u with ports := s.ports } = s) ∧
        (trainedState lanes ≠ 0 → dev = (topoOf s port).peerDev → peer = (topoOf s port).peerPort →
          (getPort t port).state = trainedState lanes ∧ (getPort t port).dataCredits = 3072 ∧
          (getPort t port).collCredits = 1024 ∧ (getPort t port).gen = ((getPort s port).gen + 1) % 65536 ∧
          (getPort t port).classes = [] ∧ { t with ports := s.ports } = s)) ∧
    ((getPort s port).isUp = true →
      ∃ u, exec (.glPortDown port) s = .next (checkLost (getPort s port).peerDev (moveFrames
          ([0, 1, 2, 3, 4, 5, 6].flatMap fun c => ((getPort s port).classes.getD c {}).frames) u)) ∧
        (getPort u port).state = 0 ∧ (getPort u port).lanes = 0 ∧ (getPort u port).classes = [] ∧
        (getPort u port).downs = satAt 0xFF ((getPort s port).downs + 1) ∧
        (getPort u port).gen = ((getPort s port).gen + 1) % 65536) ∧
    (∀ cls, cls < 7 → (getPort s port).isUp = true →
      let k := (getPort s port).classes.getD cls {}
      0 < k.read →
      ∃ u, (getPort u port).rewinds = satAt 0xFFFF ((getPort s port).rewinds + 1) ∧ { u with ports := s.ports } = s ∧
        (getPort u port).classes.get cls = some { k with read := 0, tries := k.tries + 1 } ∧
        (getPort u port).dataCredits + (getPort u port).collCredits = (getPort s port).dataCredits +
          (getPort s port).collCredits + sumNat ((k.frames.take k.read).map frameUnits) ∧
        (k.tries < 3 → exec (.glClassRewind port cls) s =
          .next (modPort port (fun p => portPump s.ptp.now (p.load + 1) p) u)) ∧
        (3 ≤ k.tries → exec (.glClassRewind port cls) s = .next (portDown port u)))

/-- Frames and control frames at a port that is up (14 R400, R404, R405, R408 to R411): a frame with an error or out
of its hop sequence is discarded; one in sequence is forwarded as it is or taken by its rank; a control frame brings
its credits where it is whole and nothing where it is not (14 R400), and one that leaves takes the returned credits and two records with it. An acknowledgement releases the
frames of its class up to the sequence it names, resent or not, and nothing of another class (14 R410). -/
def Obligations.PortsKeepTheHopSequence : Prop :=
  (∀ (s : State) (port : Nat), port < 18 → (getPort s port).isUp = true →
     (∀ f : GlFrame, f.sent = 0 → f.opened = false → f.corrected = 0 → f.cls ≤ 6 →
       let seen := modPort port (fun p => { p with rxSeq := p.rxSeq.put f.cls ((f.lseq + 1) % 2 ^ 24) })
         (modPort port (fun p => { p with uncorr := satAt 0x3FFF (p.uncorr + f.uncorr) })
           (modPort port (fun p => { p with corrected := p.corrected + 0 }) s))
       ((f.crcOk = false ∨ f.uncorr ≠ 0 ∨ f.lseq ≠ (getPort s port).rxSeq.getD f.cls 0) →
         ∃ t, exec (.glFrameReceive port f) s = .next t ∧ { t with ports := s.ports } = s ∧
           getPort t port = { getPort s port with uncorr := satAt 0x3FFF ((getPort s port).uncorr + f.uncorr) }) ∧
       (f.crcOk = true → f.uncorr = 0 → f.lseq = (getPort s port).rxSeq.getD f.cls 0 →
         (f.dstDev ≠ s.setup.deviceId → exec (.glFrameReceive port f) s =
           .next (returnUnits (f.cls == 6) [(port, frameUnits f)] (linkEnqueue f seen))) ∧
         (f.dstDev = s.setup.deviceId → slotOfJob s f.job = none → exec (.glFrameReceive port f) s =
           .next (returnFrames [(port, f)] (modPort port (fun p => { p with discards := p.discards + 1 }) seen))) ∧
         (∀ slot j, f.dstDev = s.setup.deviceId → slotOfJob s f.job = some slot → getJob s slot = some j →
           f.resvOk = true → f.payload.length ≤ 4096 → (f.ftype = 0 ∨ f.ftype = 2) →
           exec (.glFrameReceive port f) s = .next (deliverFrame slot port f seen)))) ∧
     (∀ f : GlCtl, (f.crcOk = false ∨ f.uncorr ≠ 0) → ∃ t, exec (.glControlFrame port f) s = .next t ∧
       { t with ports := s.ports } = s ∧ getPort t port = { getPort s port with
         corrected := (getPort s port).corrected + f.corrected, uncorr := satAt 0x3FFF ((getPort s port).uncorr + f.uncorr) }) ∧
     (∀ f : GlCtl, f.crcOk = true → f.uncorr = 0 → f.recs = [] → (∀ c, c < 7 → f.acks.getD c none = none) →
       exec (.glControlFrame port f) s = .next (modPort port (fun p =>
           let p := { p with dataCredits := satAt 3072 (p.dataCredits + f.dataCredits),
                             collCredits := satAt 1024 (p.collCredits + f.collCredits) }
           portPump s.ptp.now (p.load + 1) p) (modPort port (fun p => { p with
             corrected := p.corrected + f.corrected, uncorr := satAt 0x3FFF (p.uncorr + f.uncorr) }) s))) ∧
     (∃ t, exec (.glControlSendTimer port) s = .next t ∧ (∀ p, p ≠ port → getPort t p = getPort s p) ∧
       getPort t port = { getPort s port with rxData := 0, rxColl := 0, ctlOwed := (getPort s port).ctlOwed.drop 2,
                                              ctlSent := (getPort s port).ctlSent + 1 } ∧ { t with ports := s.ports } = s)) ∧
  (∀ (s : State) (port c n : Nat),
     let k := (getPort s port).classes.getD c {}
     0 < n → n ≤ k.sent → n < 2 ^ 24 → k.lseq < 2 ^ 24 →
     let k' := (getPort (ackClass port c ((k.lseq + n - 1) % 2 ^ 24) s) port).classes.getD c {}
     k'.frames = k.frames.drop n ∧ k'.read = k.read - n ∧ k'.sent = k.sent - n ∧ k'.lseq = (k.lseq + n) % 2 ^ 24 ∧ k'.tries = 0 ∧
       ∀ d, d ≠ c → (getPort (ackClass port c ((k.lseq + n - 1) % 2 ^ 24) s) port).classes.getD d {} =
         (getPort s port).classes.getD d {})

/-! ## Starts, restarts and clocks (17, 18, 20, 21) -/

/-- What ends the device's run leaves it before its next start (18 R520, 20 R569, 21 R588, R589, R591, 17 R518): memory,
jobs, tables, sessions and contexts are gone, and the setup NOR, the anchor, the seal counter, the fuses, the queue of
commands and the change log, with the entries that were still gathered, are kept. A thermal trip latches: no start begins
while it stands, and the loss of the input clears it. The right answer in the sealed state advances the counter, with its
entry in the log. A hub restart within a day of another leaves the device with `FAULT_N` and no start to come. -/
def Obligations.RestartsKeepTheLogAndTheSetup : Prop :=
  (∀ (s : State) reason keep, let t := restart reason keep s
    t.mem = [] ∧ t.cores = [] ∧ t.parts = [] ∧ t.slots = [] ∧ t.regions = [] ∧ t.registry = [] ∧ t.tenants = [] ∧
    t.sessions = [] ∧ t.reqs = [] ∧ t.accepted = [] ∧ t.net = [] ∧ t.dev.state = .starting ∧ t.dev.starting = true ∧
    t.dev.startReason = reason ∧ t.nor = s.nor ∧ t.anchor = s.anchor ∧ t.pending = s.pending ∧
    t.dev.sealCounter = s.dev.sealCounter ∧ t.dev.thermLatch = s.dev.thermLatch ∧ t.dev.fuses = s.dev.fuses ∧
    t.ptp.now = (if keep then s.ptp.now else 0) ∧ t.log = (flushRuns s).log ∧
    (s.verdictRuns = [] → s.refuseRuns = [] → t.log = s.log)) ∧
  (∀ (s : State) (o : StartObs), (s.dev.thermLatch = true ∨ s.dev.starting = false) →
    exec (.powerUpStart o) s = .next s) ∧
  ∀ s : State,
    exec .resetNAssert s = .next (restart 1 false { s with dev := { s.dev with resetN := false } }) ∧
    exec .pwrOkFall s = .next (restart 0 false { s with dev := { s.dev with pwrOk := false } }) ∧
    exec .inputPowerLoss s = .next (restart 0 false { s with dev := { s.dev with thermLatch := false, thermN := false } }) ∧
    (∀ hand, hand < 2 → ∃ t, exec (.thermalComparatorTrip hand) s = .next t ∧ t.dev.thermLatch = true ∧
      t.dev.thermN = true ∧ t.mem = [] ∧ t.nor = s.nor ∧ t.dev.starting = true) ∧
    (s.dev.state = .sealed → s.dev.sealCounter % 2 = 1 → s.dev.sealCounter < 15 →
      ∃ t, exec (.makerUnseal true) s = .next t ∧ t.dev.sealCounter = s.dev.sealCounter + 1 ∧ t.mem = [] ∧
        t.dev.starting = true ∧ (s.verdictRuns = [] → s.refuseRuns = [] → (t.log.getLast?.map (·.kind)) = some 9)) ∧
    (∀ now, s.dev.starting = false → s.dev.stopped = false →
      ∃ t, exec (.hubSelfRestart now) s = .next t ∧ t.dev.faultN = true ∧ t.mem = [] ∧ t.ptp.now = max s.ptp.now now ∧
        ((∃ x ∈ s.dev.hubRestarts, max s.ptp.now now < x + 86400000000000) → t.dev.stopped = true ∧ t.dev.starting = false) ∧
        ((∀ x ∈ s.dev.hubRestarts, x + 86400000000000 ≤ max s.ptp.now now) → t.dev.stopped = false ∧ t.dev.starting = true))

/-- A start runs its phases (18 R519, R529 to R534, 17 R517): with its self-tests passed, its firmware and a valid
setup image it takes the image and the anchor and opens context 0; it then enters Ready with the baton confirmed by
both hands, Sealed while the seal counter is odd, or Held while a hand has no answer; a failed self-test leaves it
stopped with `FAULT_N`. A lost reference clock (21 R592): without `REFCLK_ETH` the host port is down and a locked
timebase is in holdover; without `REFCLK_GL` every Grerdo port that is up goes down; a clock that returns makes what was
down train again (14 R399, R422) and changes nothing else. -/
def Obligations.StartsAndClocksComplete : Prop :=
  (∀ (s : State) (o : StartObs), s.dev.starting = true → s.dev.thermLatch = false →
     let s1 : State := { s with dev := { s.dev with pwrOk := true, resetN := true, cfgOutcome := 0, fwOutcome := 0 } }
     let s2 := takeSetup (takeFw o s1)
     (o.selfTestOk = false → exec (.powerUpStart o) s = .next (failStart s1)) ∧
     (o.selfTestOk = true → (o.activeFwOk = false ∨ setupBank s2 (bootNow s2).cfg = none) →
       exec (.powerUpStart o) s = .next (failStart s2)) ∧
     (∀ i, o.selfTestOk = true → o.activeFwOk = true → setupBank s2 (bootNow s2).cfg = some i → setupValid s2 i = true →
       ∃ u, exec (.powerUpStart o) s = .next (startReady o u) ∧ u.setup = i ∧
         u.anchor = some (i.setupKeys.filter fun k => !emptyKey k) ∧ (u.tenants.getD 0 {}).state = .opened ∧
         u.pwr.capW = orDefault i.settings.capW (orDefault i.settings.capMaxW 960)) ∧
     (∀ u : State, u.dev.state = .starting →
       let t := startReady o u
       t.dev.starting = false ∧ t.dev.baton = u.setup.settings.batonPref ∧ t.dev.batonValid = true ∧
       (o.confirm0 = true → o.confirm1 = true → u.dev.sealCounter % 2 = 0 → t.dev.state = .ready ∧ t.dev.faultN = false) ∧
       (o.confirm0 = true → o.confirm1 = true → u.dev.sealCounter % 2 = 1 → t.dev.state = .sealed) ∧
       ((o.confirm0 = false ∨ o.confirm1 = false) → t.dev.state = .held))) ∧
  (∀ s : State,
     (∃ t, exec (.refclkLoss true true) s = .next t ∧ t.ethState = 0 ∧ t.dev = { s.dev with refEth := false } ∧
       t.ptp = { s.ptp with state := if s.ptp.state = 0 then 0 else 2,
                            holdFrom := if s.ptp.state = 1 then s.ptp.now else s.ptp.holdFrom } ∧
       { t with ethState := s.ethState, dev := s.dev, ptp := s.ptp } = s) ∧
     (∃ t, exec (.refclkLoss true false) s = .next t ∧ t.dev = { s.dev with refEth := true } ∧
       { t with dev := s.dev, ethState := s.ethState } = s ∧
       (s.dev.starting = false → s.dev.stopped = false → ethUp t = false → t.ethState = 1)) ∧
     (∃ t, exec (.refclkLoss false false) s = .next t ∧ t.dev = { s.dev with refGl := true } ∧
       { t with dev := s.dev, ports := s.ports } = s ∧
       ∀ p, p < 18 → (topoOf s p).unused = false → (getPort s p).unused = false → (getPort s p).isUp = false →
         (getHand s (p / 9)).mode = .running → getPort t p = { getPort s p with state := 1 }) ∧
     exec (.refclkLoss false true) s = .next ((List.range 18).foldl
       (fun s p => if (getPort s p).isUp then portDown p s else modPort p (fun q => { q with state := 0 }) s)
       { s with dev := { s.dev with refGl := false } }) ∧
     ((∀ p, p < 18 → (getPort s p).isUp = false) → ∃ t, exec (.refclkLoss false true) s = .next t ∧
       { t with ports := s.ports } = { s with dev := { s.dev with refGl := false } } ∧
       ∀ p, p < 18 → getPort t p = { getPort s p with state := 0 }))

/-! ## The hands, power and monitors (18, 19, 20) -/

/-- The baton is confirmed and missed (18 R532, R534): a hand that reads two equal valid copies in time has confirmed it;
else the device is Held; so it is when the timekeeper has been in reset for more than 10 s. -/
def Obligations.TheBatonIsConfirmedOrHeld : Prop :=
  ∀ (s : State) (now : Nat), (s.dev.state = .ready ∨ s.dev.state = .baseLoading) →
    (∀ hand ok, hand < 2 → (getHand s hand).mode = .running →
      ∃ t, exec (.batonConfirm hand ok now) s = .next t ∧
        (ok = true → s.dev.batonValid = true → s.dev.batonCopies.1 = s.dev.batonCopies.2 →
          (getHand t hand).confirmed = true ∧ t.dev = s.dev) ∧
        ((ok = false ∨ s.dev.batonValid = false ∨ s.dev.batonCopies.1 ≠ s.dev.batonCopies.2) →
          (getHand t hand).confirmed = false ∧ t.dev.state = .held)) ∧
    ((getHand s s.dev.baton).mode = .resetting → (getHand s s.dev.baton).since + 10000000000 < max s.ptp.now now →
      ∃ t, exec (.timekeeperResetTimeout now) s = .next t ∧ t.dev.state = .held ∧ t.mem = s.mem)

/-- A hand faults and comes back (20 R575): it is in reset with its cause and unconfirmed, for good after a second
fault within an hour; after a restart it runs at T0 without pace, and has confirmed the baton where the copies agree.
Retunes (19 R557 to R561): a hand that is due starts to measure unless the other does; the measurement gives every
tempo its voltage in steps of 5 mV between the unaged voltage and the ceiling, and counts. -/
def Obligations.HandsFaultReturnAndRetune : Prop :=
  (∀ (s : State) (hand : Nat), hand < 2 →
     (∀ cause now, s.dev.starting = false → s.dev.stopped = false → (getHand s hand).mode = .running →
       (∀ i, i < 9 → (getPort s (9 * hand + i)).isUp = false) → handParts s hand = [] →
       ∃ t, exec (.handFault hand cause now) s = .next t ∧ (getHand t hand).mode = .resetting ∧
         (getHand t hand).faultCause = cause ∧ (getHand t hand).confirmed = false ∧ (getHand t hand).retuning = false ∧
         (getHand t hand).since = max s.ptp.now now ∧ t.mem = s.mem ∧ t.slots = s.slots ∧
         ((getHand t hand).stuck = true ↔ ∃ f ∈ (getHand s hand).lastFault, max s.ptp.now now < f + 3600000000000)) ∧
     (∀ obs, (getHand s hand).mode = .resetting → (getHand s hand).stuck = false →
       ((getHand s hand).faultCause ≠ 3 ∨ (getHand s hand).hotC < 95) →
       ∃ t, exec (.handRestartDone hand obs) s = .next ((t.slots.map (·.1)).foldl (fun s i => wakeJob i s) t) ∧
         t.slots = s.slots ∧ t.mem = s.mem ∧ (getHand t hand).mode = .running ∧
         (getHand t hand).tempo = 0 ∧ (getHand t hand).pace = 0 ∧
         ((getHand t hand).confirmed = true ↔ (if hand = 0 then obs.confirm0 else obs.confirm1) = true ∧
           s.dev.batonValid = true ∧ s.dev.batonCopies.1 = s.dev.batonCopies.2)) ∧
     (∀ now, ∃ t, exec (.tempoChangeComplete hand now) s = .next t ∧ (getHand t hand).changing = none ∧
       (∀ x, (getHand s hand).changing = some x → (getHand t hand).railMv =
         (getHand s hand).volts.getD (getHand s hand).tempo (unagedMv (getHand s hand).tempo)) ∧
       ((getHand s hand).changing = none → getHand t hand = getHand s hand) ∧
       { t with hands := s.hands, ptp := s.ptp } = s)) ∧
  (∀ (s : State) (hand : Nat), hand < 2 →
     (∀ now, s.dev.starting = false → s.dev.stopped = false → (getHand s hand).mode = .running →
       (getHand s hand).retuning = false → (getHand s hand).lastRetune + retuneNs s ≤ max s.ptp.now now →
       (getHand s (1 - hand)).retuning = false →
       (hand = 0 ∨ max s.ptp.now now < (getHand s 0).lastRetune + retuneNs s ∨ (getHand s 0).mode ≠ .running) →
       exec (.retuneInterval hand now) s = .next (modHand hand (fun x => { x with retuning := true }) (atTime now s))) ∧
     (∀ obs, (getHand s hand).retuning = true →
       let raw := if hand = 0 then obs.volts0 else obs.volts1
       ∃ t, exec (.ageingMeasurementDone hand obs) s = .next t ∧ (getHand t hand).retuning = false ∧
         (getHand t hand).retunes = satAt 0xFFFF ((getHand s hand).retunes + 1) ∧
         (getHand t hand).lastRetune = s.ptp.now ∧
         ∀ i, i < 8 → ∃ v, (getHand t hand).volts[i]? = some v ∧ v % 5 = 0 ∧ unagedMv i ≤ v ∧ v ≤ ceilMv i ∧
           (raw.getD i 0 ≤ ceilMv i → raw.getD i 0 ≤ v ∧ (v = unagedMv i ∨ v < raw.getD i 0 + 5))))

/-- The end of a control window (19 R541 to R543, R547): its readings stand with the last ten, waiting caps take effect
with the last one in force, and then the control step runs; above 1.05 times the cap it lowers both hands at once and
holds for 1 ms. -/
def Obligations.ControlWindowsHoldTheCap : Prop :=
  (∀ (s : State) now mean hand0 hand1 volts, s.dev.starting = false → s.dev.stopped = false →
    ∃ u, exec (.powerControlWindow now mean hand0 hand1 volts) s = .next (controlStep mean u) ∧
      u.pwr.wins = lastTen s.pwr.wins mean ∧ u.pwr.wins0 = lastTen s.pwr.wins0 hand0 ∧
      u.pwr.wins1 = lastTen s.pwr.wins1 hand1 ∧ u.pwr.inputDv = volts / 10 ∧ u.pwr.nextCaps = [] ∧
      u.pwr.capW = ((s.pwr.nextCaps.getLast?).map (·.1)).getD s.pwr.capW ∧
      u.pwr.overs = (if u.pwr.capW * 10 < mean then satAt 0xFF (s.pwr.overs + 1) else s.pwr.overs)) ∧
  (∀ (s : State) mean, 21 * s.pwr.capW < 2 * mean → (∀ h, h < 2 → (getHand s h).mode = .running) →
    (controlStep mean s).pwr.hold = s.ptp.now + 1000000 ∧
    ∀ h, h < 2 → (0 < (getHand s h).tempo → (getHand (controlStep mean s) h).tempo = (getHand s h).tempo - 1 ∧
        (getHand (controlStep mean s) h).pace = (getHand s h).pace) ∧
      ((getHand s h).tempo = 0 → (getHand (controlStep mean s) h).tempo = 0 ∧
        (getHand (controlStep mean s) h).pace = min ((getHand s h).pace + 1) 7)) ∧
  (∀ (s : State) mean h, mayRaise (getHand s h) (sumNat s.pwr.wins) (sumNat (if h = 0 then s.pwr.wins0 else s.pwr.wins1))
      s.pwr.wins.length s.pwr.capW = true → h < 2 → s.setup.settings.isoOff = true → 2 * mean ≤ 21 * s.pwr.capW →
    sumNat s.pwr.wins ≤ s.pwr.capW * 10 * s.pwr.wins.length → s.pwr.hold ≤ s.ptp.now →
    s.pwr.last + 10000000 ≤ s.ptp.now →
    (h = 0 → (getHand s 1).tempo < (getHand s 0).tempo → mayRaise (getHand s 1) (sumNat s.pwr.wins)
      (sumNat s.pwr.wins1) s.pwr.wins.length s.pwr.capW = false) →
    (h = 1 → (getHand s 0).tempo ≤ (getHand s 1).tempo → mayRaise (getHand s 0) (sumNat s.pwr.wins)
      (sumNat s.pwr.wins0) s.pwr.wins.length s.pwr.capW = false) →
    controlStep mean s = raiseHand h s)

/-- Readings and samples complete (19 R546, R549, R550, 21 R590): a junction's reading sets its hand's hottest
junction and ceiling, and the hand is not above it; a live monitor takes its sample. The timers of the change log (17
R507, R508, R516): staged entries are written, which ends a sealing in Sealed with the seal counter one higher; 4,096
unsigned entries or ten seconds bring a signature entry; a run of commits that is complete is closed with its entry. -/
def Obligations.SamplesAndLogTimersComplete : Prop :=
  ((∀ (s : State) hand sensor temp now, hand < 2 →
     let temps := (getHand s hand).temps.put sensor temp
     let hot := (temps.map (·.2)).foldl max 0 / 16
     hot < 105 →
     ∃ t, exec (.junctionTemperatureSample hand sensor temp now) s = .next t ∧ (getHand t hand).temps = temps ∧
       (getHand t hand).hotC = hot ∧ (getHand t hand).ceil = (if hot < 95 then 7 else if hot < 100 then 2 else 0) ∧
       (getHand t hand).tempo ≤ (getHand t hand).ceil ∧
       (100 ≤ hot → 4 ≤ (getHand t hand).pace) ∧ (100 ≤ hot → t.dev.thermN = true) ∧
       { t with hands := s.hands, dev := s.dev, pwr := s.pwr, ptp := s.ptp } = s) ∧
   (∀ (s : State) block inst value now, block < 3 → inst < 256 → monLive s block inst = true →
     (monKind block inst = 5 ∨ monKind block inst = 6 ∨ monKind block inst = 7 ∨ monKind block inst = 8) →
     exec (.monitorPeriodicSample block inst value now) s = .next (monSample block inst value (atTime now s)))) ∧
  (∀ s : State,
     (s.refuseRuns = [] → s.dev.sealWait = none → exec .logStageFlush s = .next { s with logStaged := 0 }) ∧
     (∀ w, s.refuseRuns = [] → s.dev.state = .sealing → s.dev.sealWait = some w →
       ∃ u, exec .logStageFlush s = .next (complete w cOk 0 [] u) ∧ u.dev.state = .sealed ∧
         u.dev.sealCounter = s.dev.sealCounter + 1 ∧ u.dev.sealWait = none ∧ u.logStaged = 0 ∧
         { u with dev := s.dev, logStaged := s.logStaged } = s) ∧
     ((4096 ≤ s.logUnsigned ∨ ∃ t ∈ s.logSince, t + 10000000000 ≤ s.ptp.now) →
       ∃ t, exec .logSignatureTimer s = .next t ∧ (t.log.getLast?.map (·.kind)) = some 4 ∧ t.logUnsigned = 0 ∧
         t.logSince = none) ∧
     (∀ slot v, slot < 128 → s.verdictRuns.get slot = some v →
       (1024 ≤ v.count ∨ v.since + 1000000000 ≤ s.ptp.now) →
       ∃ t, exec (.verdictRunEntryClose slot) s = .next t ∧ t.verdictRuns = s.verdictRuns.del slot ∧
         t.log.getLast?.map (fun e => (e.kind, e.slot, e.bar, e.count)) = some (3, slot, v.first, v.count)))


/-! ## Effects named one command at a time -/

/-- A gradient and an element go through (08 R237, R238, R249): a delivered gradient of the open run whose state is at hand,
with room in the intake buffer and in every holding area that it needs, enters the intake; the next element of an owned entry
whose gradient is there is updated, which brings the entry's pass one element further. -/
def Obligations.GradientsAndElementsGoThrough : Prop :=
  ∀ (s : State) (slot : Nat) (j : Job) (sc : Score) (run : Run), getJob s slot = some j →
    (getSlot s slot).score = some sc → j.now = some run → j.ahead = none → run.look = false →
    (∀ red, resultWaits run sc red = true → areaAsleep s slot sc j.rank red = false → areaShort s sc j red = false →
      (∀ d, sc.reductions[red]? = some d →
        intakeFill s (redHand s slot sc d) + intakeMore s sc j.rank red ≤ intakeSize) →
      ∃ t r, exec (.gradientIntake slot red) s = .next t ∧ (getJob t slot).bind Job.now = some r ∧
        (r.intake.get red).isSome = true ∧ r.bar = run.bar) ∧
    (∀ entry t c sh gs, sc.entries[entry]? = some t → entryGroup sc t = some c → sc.shards[t.shard]? = some sh →
      run.intake.get t.red = some gs → sh.owner = j.rank → (getPass run entry).next < t.elements →
      (getPass run entry).done = false → (c.shardMode = 2 → firstPassesDone sc run t.shard = true) →
      (c.shardMode = 2 → (getPass run entry).second = true) →
      (∀ q ∈ entryPages c t, inReach s q = true ∧ (getPage s q).poison = false ∧ asleep s q = false) →
      (∀ a ∈ run.areas, a.entry = entry → ∀ q ∈ rangePages (heldRanges s slot a), asleep s q = false) →
      ∃ u r, exec (.updateElement slot entry false) s = .next u ∧ (getJob u slot).bind Job.now = some r ∧
        (getPass r entry).next = (getPass run entry).next + 1 ∧
        (getPass r entry).done = decide ((getPass run entry).next + 1 = t.elements))

/-- A report of the device's view, a log read and a seal go through (17 R501, R510, R516): a read changes no memory, no job and
nothing of the device's own state, and its command waits no more; a seal leaves the device in Sealing with its memory and its
slots gone, and its own command waits there. -/
def Obligations.ReportsReadsAndSealsGoThrough : Prop :=
  ∀ (s : State) (h : Hdr) (snd : Sender),
    (∀ nonce r, Accepts s h 0x0601 .any true (.attestReport h nonce 0 r) snd → snd.control = true → r.len < 0xFFFFFFFF →
      r.off + r.len ≤ snd.window →
      (reportBytes (takeCmd h s) nonce false h.context).length + 114 ≤ r.len →
      ∃ t, exec (.attestReport h nonce 0 r) s = .next t ∧ t.mem = s.mem ∧ t.slots = s.slots ∧ t.dev = s.dev ∧
        ∀ a ∈ t.accepted, ¬(a.sess = h.sess ∧ a.ref = h.ref)) ∧
    (∀ first count r, Accepts s h 0x0606 .any true (.logRead h first count r) snd → count < 0xFFFF →
      r.len < 0xFFFFFFFF → r.off + r.len ≤ snd.window → (∀ e ∈ s.log.head?, e.index ≤ first) →
      first + count ≤ logNext s → 256 * count ≤ r.len →
      ∃ t, exec (.logRead h first count r) s = .next t ∧ t.mem = s.mem ∧ t.slots = s.slots ∧ t.dev = s.dev ∧
        ∀ a ∈ t.accepted, ¬(a.sess = h.sess ∧ a.ref = h.ref)) ∧
    (Accepts s h 0x0607 .control false (.sealReturn h (shake256 16 s.dev.idKey)) snd →
      ∃ t, exec (.sealReturn h (shake256 16 s.dev.idKey)) s = .next t ∧ t.dev.state = .sealing ∧
        t.dev.sealWait = some (waitOf s h 0x0607 snd) ∧ t.slots = [] ∧ t.mem = [])

/-- What ends a run takes the device to the start that follows (18 R520, R536, 20 R569, 21 R588, R589, R591, 17 R518): the
reset input, the fall of `PWR_OK`, the loss of the input, a comparator's trip at either hand, the maker's right answer in the
sealed state, and the hub's own restart where none came in the last day, each leave it Starting with a start to come, its
volatile memory gone and no job; the reason that the start will give is theirs. -/
def Obligations.RunsEndInAStart : Prop :=
  let begun (reason : Nat) (s t : State) : Prop := t.dev.state = .starting ∧ t.dev.starting = true ∧
    t.dev.startReason = reason ∧ t.mem = [] ∧ t.slots = [] ∧ t.sessions = [] ∧ t.nor = s.nor ∧ t.pending = s.pending
  ∀ s : State,
    (∃ t, exec .resetNAssert s = .next t ∧ begun 1 s t ∧ t.dev.resetN = false) ∧
    (∃ t, exec .pwrOkFall s = .next t ∧ begun 0 s t ∧ t.dev.pwrOk = false) ∧
    (∃ t, exec .inputPowerLoss s = .next t ∧ begun 0 s t ∧ t.dev.thermLatch = false ∧ t.dev.thermN = false) ∧
    (∀ hand, hand < 2 → ∃ t, exec (.thermalComparatorTrip hand) s = .next t ∧ begun 0 s t ∧ t.dev.thermLatch = true) ∧
    (s.dev.state = .sealed → s.dev.sealCounter % 2 = 1 → s.dev.sealCounter < 15 →
      ∃ t, exec (.makerUnseal true) s = .next t ∧ begun 0 s t ∧ t.dev.sealCounter % 2 = 0) ∧
    (∀ now, s.dev.starting = false → s.dev.stopped = false →
      (∀ x ∈ s.dev.hubRestarts, x + 86400000000000 ≤ max s.ptp.now now) →
      ∃ t, exec (.hubSelfRestart now) s = .next t ∧ begun 2 s t ∧ t.dev.faultN = true)

/-! ## Encodings, reset, memory and containment (02, 03, 18, 20) -/

/-- Words that the tables of 03 R79 and R82 to R89 spell out read as the instructions they stand for: one of each
class. -/
def Obligations.WordsReadAsTheirInstructions : Prop :=
  ∀ cx : CodeCtx,
    (readInsn cx 0x0000000000000000).1 = ⟨{}, .nop⟩ ∧
    (readInsn cx 0x1000000000000000).1 = ⟨{}, .finish⟩ ∧
    (readInsn cx 0x0400800014003000).1 = ⟨{}, .loop 1 (.imm 5) 3⟩ ∧
    (readInsn cx 0x0AA0007800000000).1 = ⟨{ bw := .bc, pinv := true, pm := 2 }, .waitBeat 7 true⟩ ∧
    (readInsn cx 0x2001084200000000).1 = ⟨{}, .xOp 2 2 2 1⟩ ∧
    (readInsn cx 0x28018000DEADBEEF).1 = ⟨{}, .xSet 3 0xDEADBEEF#32⟩ ∧
    (readInsn cx 0x4002181000080000).1 = ⟨{}, .mCmp 1 1 (.imm 1#16) 2⟩ ∧
    (readInsn cx 0x51F1000000000000).1 = ⟨{ bw := .bt, pinv := true, pm := 7 }, .ml ⟨1, 0, 0, 0, 0, 0, 0, false⟩⟩ ∧
    (readInsn cx 0x8000600830005000).1 = ⟨{}, .vld ⟨1, 256, 4, 3, 5⟩⟩ ∧
    (readInsn cx 0xC0042000004C0000).1 = ⟨{}, .send ⟨1, 32, 0, 9, 256⟩⟩ ∧
    (readInsn cx 0xE000110000000000).1 = ⟨{}, .dma 17 0⟩

/-- Every core instruction whose fields lie in their widths is read back from its word, whatever the control bits and
the surroundings of its core (03 R79, R82, R84 to R89). -/
def Obligations.EveryInstructionReadsBack : Prop :=
  ∀ (cx : CodeCtx) (op : CoreOp), op.ctl.wf = true → op.insn.wf = true →
    (readInsn cx (encodeOp op)).1 = op ∧ encodeOp op < 2 ^ 64

/-- The machine right after reset: no command waits and no memory is written, no slot, region, context or session is
held, the device is in Starting before its start, and the first log entry has number 0 (log entries 2, 3, 8 and 16 name the values
that the spec leaves open). -/
def Obligations.ResetHoldsNothing : Prop :=
  memOk State.reset = true ∧ State.reset.pending = [] ∧ State.reset.mem = [] ∧ State.reset.slots = [] ∧
    State.reset.parts = [] ∧ State.reset.regions = [] ∧ State.reset.tenants = [] ∧ State.reset.sessions = [] ∧
    State.reset.dev.state = .starting ∧ State.reset.dev.starting = true ∧ State.reset.ptp.now = 0 ∧
    (State.reset.log.map (·.index)) = [0] ∧
    (∀ key i, xRead (getCore State.reset key).ctx i = 0) ∧ (∀ p, (getPort State.reset p).isUp = false)

/-- The canonical form of memory and of every core's SRAM is an invariant: whatever command is at the front, a step that
answers a next state keeps it. -/
def Obligations.StepsKeepMemoryCanonical : Prop :=
  ∀ s t : State, memOk s = true → step s = .next t → memOk t = true

/-- A partition fault is contained (02 R52, R63; 20 R568, R573): the job is Faulted with the code, the partition scrubs,
its bar is gone, and committed memory, regions but the session pages that its runs took, and every other partition stay; an
uncorrectable error in a core store faults the partition of the instruction that meets it with `MEMORY_ERROR`, and one that
reads nothing meets none. -/
def Obligations.PartitionFaultsAreContained : Prop :=
  (∀ (s : State) (p slot code row col : Nat) (j : Job), (getPart s p).primary = some slot → getJob s slot = some j →
    let t := faultPart p false code row col s
    (getPart t p).state = .scrubbing ∧ (getPart t p).fault = some code ∧ (getSlot t slot).state = .faulted ∧
    (getJob t slot).bind (·.fault) = some code ∧ (getJob t slot).bind (·.cur) = none ∧ t.mem = s.mem ∧
    t.registry = s.registry ∧ (∀ q ∈ t.regions, q ∈ s.regions) ∧
    ((∀ i x r, getJob s i = some x → x.cur = some r ∨ x.ahead = some r → r.kvNew = []) →
      t.regions = s.regions ∧ t.tenants = s.tenants) ∧
    ∀ q, q ≠ p → getPart t q = getPart s q) ∧
  (∀ (s : State) (c : CoreRef) (k : Ctl) (e : Env) (f : VmF), Issuing s c k (.vld f) e →
    let n := vecLines f.fmt f.vl
    (f.vl ≠ 0 → linesFree e.ctx (fieldLines e f.line f.xa n) [] = true →
      (operandLines e false f.line f.xa 0 n).isSome = true →
      exec (.vld c k f true) s = .next (coreError e.pid e.ghost 1 e.key e.row e.col s)) ∧
    (f.vl = 0 → exec (.vld c k f true) s = exec (.vld c k f false) s)) ∧
  (∀ (s : State) (c : CoreRef) (k : Ctl) (e : Env) (f : RollF), f.vl ≠ 0 → Issuing s c k (.roll f) e →
    exec (.roll c k f true) s = .next (coreError e.pid e.ghost 2 e.key e.row e.col s))
end

