-- ==== Sys2Proof/Laws/State.lean ====
section
/-! SUPPORT. One lemma for each field that a named update of the state leaves alone, so that no proof unfolds a record
update. -/

namespace Sys2Proof.Machine

variable (s : State)

/-! ## `modCore` -/

@[simp] theorem modCore_pending (k : Nat) (f : Core → Core) : (modCore k f s).pending = s.pending := rfl
@[simp] theorem modCore_free (k : Nat) (f : Core → Core) : (modCore k f s).free = s.free := rfl
@[simp] theorem modCore_dev (k : Nat) (f : Core → Core) : (modCore k f s).dev = s.dev := rfl
@[simp] theorem modCore_hands (k : Nat) (f : Core → Core) : (modCore k f s).hands = s.hands := rfl
@[simp] theorem modCore_pwr (k : Nat) (f : Core → Core) : (modCore k f s).pwr = s.pwr := rfl
@[simp] theorem modCore_ptp (k : Nat) (f : Core → Core) : (modCore k f s).ptp = s.ptp := rfl
@[simp] theorem modCore_nor (k : Nat) (f : Core → Core) : (modCore k f s).nor = s.nor := rfl
@[simp] theorem modCore_anchor (k : Nat) (f : Core → Core) : (modCore k f s).anchor = s.anchor := rfl
@[simp] theorem modCore_setup (k : Nat) (f : Core → Core) : (modCore k f s).setup = s.setup := rfl
@[simp] theorem modCore_parts (k : Nat) (f : Core → Core) : (modCore k f s).parts = s.parts := rfl
@[simp] theorem modCore_slots (k : Nat) (f : Core → Core) : (modCore k f s).slots = s.slots := rfl
@[simp] theorem modCore_net (k : Nat) (f : Core → Core) : (modCore k f s).net = s.net := rfl
@[simp] theorem modCore_streams (k : Nat) (f : Core → Core) : (modCore k f s).streams = s.streams := rfl
@[simp] theorem modCore_mem (k : Nat) (f : Core → Core) : (modCore k f s).mem = s.mem := rfl
@[simp] theorem modCore_pages (k : Nat) (f : Core → Core) : (modCore k f s).pages = s.pages := rfl
@[simp] theorem modCore_versions (k : Nat) (f : Core → Core) : (modCore k f s).versions = s.versions := rfl
@[simp] theorem modCore_verRoot (k : Nat) (f : Core → Core) : (modCore k f s).verRoot = s.verRoot := rfl
@[simp] theorem modCore_regions (k : Nat) (f : Core → Core) : (modCore k f s).regions = s.regions := rfl
@[simp] theorem modCore_zeroing (k : Nat) (f : Core → Core) : (modCore k f s).zeroing = s.zeroing := rfl
@[simp] theorem modCore_hot (k : Nat) (f : Core → Core) : (modCore k f s).hot = s.hot := rfl
@[simp] theorem modCore_kv (k : Nat) (f : Core → Core) : (modCore k f s).kv = s.kv := rfl
@[simp] theorem modCore_staging (k : Nat) (f : Core → Core) : (modCore k f s).staging = s.staging := rfl
@[simp] theorem modCore_promoQ (k : Nat) (f : Core → Core) : (modCore k f s).promoQ = s.promoQ := rfl
@[simp] theorem modCore_base (k : Nat) (f : Core → Core) : (modCore k f s).base = s.base := rfl
@[simp] theorem modCore_ckpts (k : Nat) (f : Core → Core) : (modCore k f s).ckpts = s.ckpts := rfl
@[simp] theorem modCore_nextCkpt (k : Nat) (f : Core → Core) : (modCore k f s).nextCkpt = s.nextCkpt := rfl
@[simp] theorem modCore_tenants (k : Nat) (f : Core → Core) : (modCore k f s).tenants = s.tenants := rfl
@[simp] theorem modCore_devKeyGen (k : Nat) (f : Core → Core) : (modCore k f s).devKeyGen = s.devKeyGen := rfl
@[simp] theorem modCore_devOldGen (k : Nat) (f : Core → Core) : (modCore k f s).devOldGen = s.devOldGen := rfl
@[simp] theorem modCore_devRotWaits (k : Nat) (f : Core → Core) : (modCore k f s).devRotWaits = s.devRotWaits := rfl
@[simp] theorem modCore_registry (k : Nat) (f : Core → Core) : (modCore k f s).registry = s.registry := rfl
@[simp] theorem modCore_reqs (k : Nat) (f : Core → Core) : (modCore k f s).reqs = s.reqs := rfl
@[simp] theorem modCore_sess (k : Nat) (f : Core → Core) : (modCore k f s).sess = s.sess := rfl
@[simp] theorem modCore_tokens (k : Nat) (f : Core → Core) : (modCore k f s).tokens = s.tokens := rfl
@[simp] theorem modCore_ports (k : Nat) (f : Core → Core) : (modCore k f s).ports = s.ports := rfl
@[simp] theorem modCore_flows (k : Nat) (f : Core → Core) : (modCore k f s).flows = s.flows := rfl
@[simp] theorem modCore_peerPorts (k : Nat) (f : Core → Core) : (modCore k f s).peerPorts = s.peerPorts := rfl
@[simp] theorem modCore_linkWait (k : Nat) (f : Core → Core) : (modCore k f s).linkWait = s.linkWait := rfl
@[simp] theorem modCore_ethState (k : Nat) (f : Core → Core) : (modCore k f s).ethState = s.ethState := rfl
@[simp] theorem modCore_ethDiscards (k : Nat) (f : Core → Core) : (modCore k f s).ethDiscards = s.ethDiscards := rfl
@[simp] theorem modCore_ethAuthFail (k : Nat) (f : Core → Core) : (modCore k f s).ethAuthFail = s.ethAuthFail := rfl
@[simp] theorem modCore_ethRewinds (k : Nat) (f : Core → Core) : (modCore k f s).ethRewinds = s.ethRewinds := rfl
@[simp] theorem modCore_assocNum (k : Nat) (f : Core → Core) : (modCore k f s).assocNum = s.assocNum := rfl
@[simp] theorem modCore_inq (k : Nat) (f : Core → Core) : (modCore k f s).inq = s.inq := rfl
@[simp] theorem modCore_outq (k : Nat) (f : Core → Core) : (modCore k f s).outq = s.outq := rfl
@[simp] theorem modCore_inSeq (k : Nat) (f : Core → Core) : (modCore k f s).inSeq = s.inSeq := rfl
@[simp] theorem modCore_outSeq (k : Nat) (f : Core → Core) : (modCore k f s).outSeq = s.outSeq := rfl
@[simp] theorem modCore_outStall (k : Nat) (f : Core → Core) : (modCore k f s).outStall = s.outStall := rfl
@[simp] theorem modCore_ackOwed (k : Nat) (f : Core → Core) : (modCore k f s).ackOwed = s.ackOwed := rfl
@[simp] theorem modCore_ackDup (k : Nat) (f : Core → Core) : (modCore k f s).ackDup = s.ackDup := rfl
@[simp] theorem modCore_sessions (k : Nat) (f : Core → Core) : (modCore k f s).sessions = s.sessions := rfl
@[simp] theorem modCore_linger (k : Nat) (f : Core → Core) : (modCore k f s).linger = s.linger := rfl
@[simp] theorem modCore_lingerDropped (k : Nat) (f : Core → Core) : (modCore k f s).lingerDropped = s.lingerDropped := rfl
@[simp] theorem modCore_winReads (k : Nat) (f : Core → Core) : (modCore k f s).winReads = s.winReads := rfl
@[simp] theorem modCore_cmdParts (k : Nat) (f : Core → Core) : (modCore k f s).cmdParts = s.cmdParts := rfl
@[simp] theorem modCore_accepted (k : Nat) (f : Core → Core) : (modCore k f s).accepted = s.accepted := rfl
@[simp] theorem modCore_replies (k : Nat) (f : Core → Core) : (modCore k f s).replies = s.replies := rfl
@[simp] theorem modCore_log (k : Nat) (f : Core → Core) : (modCore k f s).log = s.log := rfl
@[simp] theorem modCore_logStaged (k : Nat) (f : Core → Core) : (modCore k f s).logStaged = s.logStaged := rfl
@[simp] theorem modCore_logUnsigned (k : Nat) (f : Core → Core) : (modCore k f s).logUnsigned = s.logUnsigned := rfl
@[simp] theorem modCore_logSince (k : Nat) (f : Core → Core) : (modCore k f s).logSince = s.logSince := rfl
@[simp] theorem modCore_verdictRuns (k : Nat) (f : Core → Core) : (modCore k f s).verdictRuns = s.verdictRuns := rfl
@[simp] theorem modCore_refuseRuns (k : Nat) (f : Core → Core) : (modCore k f s).refuseRuns = s.refuseRuns := rfl
@[simp] theorem modCore_mons (k : Nat) (f : Core → Core) : (modCore k f s).mons = s.mons := rfl

/-! ## `modCtx` -/

@[simp] theorem modCtx_pending (k : Nat) (g : Bool) (f : CoreCtx → CoreCtx) : (modCtx k g f s).pending = s.pending := rfl
@[simp] theorem modCtx_free (k : Nat) (g : Bool) (f : CoreCtx → CoreCtx) : (modCtx k g f s).free = s.free := rfl
@[simp] theorem modCtx_dev (k : Nat) (g : Bool) (f : CoreCtx → CoreCtx) : (modCtx k g f s).dev = s.dev := rfl
@[simp] theorem modCtx_hands (k : Nat) (g : Bool) (f : CoreCtx → CoreCtx) : (modCtx k g f s).hands = s.hands := rfl
@[simp] theorem modCtx_pwr (k : Nat) (g : Bool) (f : CoreCtx → CoreCtx) : (modCtx k g f s).pwr = s.pwr := rfl
@[simp] theorem modCtx_ptp (k : Nat) (g : Bool) (f : CoreCtx → CoreCtx) : (modCtx k g f s).ptp = s.ptp := rfl
@[simp] theorem modCtx_nor (k : Nat) (g : Bool) (f : CoreCtx → CoreCtx) : (modCtx k g f s).nor = s.nor := rfl
@[simp] theorem modCtx_anchor (k : Nat) (g : Bool) (f : CoreCtx → CoreCtx) : (modCtx k g f s).anchor = s.anchor := rfl
@[simp] theorem modCtx_setup (k : Nat) (g : Bool) (f : CoreCtx → CoreCtx) : (modCtx k g f s).setup = s.setup := rfl
@[simp] theorem modCtx_parts (k : Nat) (g : Bool) (f : CoreCtx → CoreCtx) : (modCtx k g f s).parts = s.parts := rfl
@[simp] theorem modCtx_slots (k : Nat) (g : Bool) (f : CoreCtx → CoreCtx) : (modCtx k g f s).slots = s.slots := rfl
@[simp] theorem modCtx_net (k : Nat) (g : Bool) (f : CoreCtx → CoreCtx) : (modCtx k g f s).net = s.net := rfl
@[simp] theorem modCtx_streams (k : Nat) (g : Bool) (f : CoreCtx → CoreCtx) : (modCtx k g f s).streams = s.streams := rfl
@[simp] theorem modCtx_mem (k : Nat) (g : Bool) (f : CoreCtx → CoreCtx) : (modCtx k g f s).mem = s.mem := rfl
@[simp] theorem modCtx_pages (k : Nat) (g : Bool) (f : CoreCtx → CoreCtx) : (modCtx k g f s).pages = s.pages := rfl
@[simp] theorem modCtx_versions (k : Nat) (g : Bool) (f : CoreCtx → CoreCtx) : (modCtx k g f s).versions = s.versions := rfl
@[simp] theorem modCtx_verRoot (k : Nat) (g : Bool) (f : CoreCtx → CoreCtx) : (modCtx k g f s).verRoot = s.verRoot := rfl
@[simp] theorem modCtx_regions (k : Nat) (g : Bool) (f : CoreCtx → CoreCtx) : (modCtx k g f s).regions = s.regions := rfl
@[simp] theorem modCtx_zeroing (k : Nat) (g : Bool) (f : CoreCtx → CoreCtx) : (modCtx k g f s).zeroing = s.zeroing := rfl
@[simp] theorem modCtx_hot (k : Nat) (g : Bool) (f : CoreCtx → CoreCtx) : (modCtx k g f s).hot = s.hot := rfl
@[simp] theorem modCtx_kv (k : Nat) (g : Bool) (f : CoreCtx → CoreCtx) : (modCtx k g f s).kv = s.kv := rfl
@[simp] theorem modCtx_staging (k : Nat) (g : Bool) (f : CoreCtx → CoreCtx) : (modCtx k g f s).staging = s.staging := rfl
@[simp] theorem modCtx_promoQ (k : Nat) (g : Bool) (f : CoreCtx → CoreCtx) : (modCtx k g f s).promoQ = s.promoQ := rfl
@[simp] theorem modCtx_base (k : Nat) (g : Bool) (f : CoreCtx → CoreCtx) : (modCtx k g f s).base = s.base := rfl
@[simp] theorem modCtx_ckpts (k : Nat) (g : Bool) (f : CoreCtx → CoreCtx) : (modCtx k g f s).ckpts = s.ckpts := rfl
@[simp] theorem modCtx_nextCkpt (k : Nat) (g : Bool) (f : CoreCtx → CoreCtx) : (modCtx k g f s).nextCkpt = s.nextCkpt := rfl
@[simp] theorem modCtx_tenants (k : Nat) (g : Bool) (f : CoreCtx → CoreCtx) : (modCtx k g f s).tenants = s.tenants := rfl
@[simp] theorem modCtx_devKeyGen (k : Nat) (g : Bool) (f : CoreCtx → CoreCtx) : (modCtx k g f s).devKeyGen = s.devKeyGen := rfl
@[simp] theorem modCtx_devOldGen (k : Nat) (g : Bool) (f : CoreCtx → CoreCtx) : (modCtx k g f s).devOldGen = s.devOldGen := rfl
@[simp] theorem modCtx_devRotWaits (k : Nat) (g : Bool) (f : CoreCtx → CoreCtx) : (modCtx k g f s).devRotWaits = s.devRotWaits := rfl
@[simp] theorem modCtx_registry (k : Nat) (g : Bool) (f : CoreCtx → CoreCtx) : (modCtx k g f s).registry = s.registry := rfl
@[simp] theorem modCtx_reqs (k : Nat) (g : Bool) (f : CoreCtx → CoreCtx) : (modCtx k g f s).reqs = s.reqs := rfl
@[simp] theorem modCtx_sess (k : Nat) (g : Bool) (f : CoreCtx → CoreCtx) : (modCtx k g f s).sess = s.sess := rfl
@[simp] theorem modCtx_tokens (k : Nat) (g : Bool) (f : CoreCtx → CoreCtx) : (modCtx k g f s).tokens = s.tokens := rfl
@[simp] theorem modCtx_ports (k : Nat) (g : Bool) (f : CoreCtx → CoreCtx) : (modCtx k g f s).ports = s.ports := rfl
@[simp] theorem modCtx_flows (k : Nat) (g : Bool) (f : CoreCtx → CoreCtx) : (modCtx k g f s).flows = s.flows := rfl
@[simp] theorem modCtx_peerPorts (k : Nat) (g : Bool) (f : CoreCtx → CoreCtx) : (modCtx k g f s).peerPorts = s.peerPorts := rfl
@[simp] theorem modCtx_linkWait (k : Nat) (g : Bool) (f : CoreCtx → CoreCtx) : (modCtx k g f s).linkWait = s.linkWait := rfl
@[simp] theorem modCtx_ethState (k : Nat) (g : Bool) (f : CoreCtx → CoreCtx) : (modCtx k g f s).ethState = s.ethState := rfl
@[simp] theorem modCtx_ethDiscards (k : Nat) (g : Bool) (f : CoreCtx → CoreCtx) : (modCtx k g f s).ethDiscards = s.ethDiscards := rfl
@[simp] theorem modCtx_ethAuthFail (k : Nat) (g : Bool) (f : CoreCtx → CoreCtx) : (modCtx k g f s).ethAuthFail = s.ethAuthFail := rfl
@[simp] theorem modCtx_ethRewinds (k : Nat) (g : Bool) (f : CoreCtx → CoreCtx) : (modCtx k g f s).ethRewinds = s.ethRewinds := rfl
@[simp] theorem modCtx_assocNum (k : Nat) (g : Bool) (f : CoreCtx → CoreCtx) : (modCtx k g f s).assocNum = s.assocNum := rfl
@[simp] theorem modCtx_inq (k : Nat) (g : Bool) (f : CoreCtx → CoreCtx) : (modCtx k g f s).inq = s.inq := rfl
@[simp] theorem modCtx_outq (k : Nat) (g : Bool) (f : CoreCtx → CoreCtx) : (modCtx k g f s).outq = s.outq := rfl
@[simp] theorem modCtx_inSeq (k : Nat) (g : Bool) (f : CoreCtx → CoreCtx) : (modCtx k g f s).inSeq = s.inSeq := rfl
@[simp] theorem modCtx_outSeq (k : Nat) (g : Bool) (f : CoreCtx → CoreCtx) : (modCtx k g f s).outSeq = s.outSeq := rfl
@[simp] theorem modCtx_outStall (k : Nat) (g : Bool) (f : CoreCtx → CoreCtx) : (modCtx k g f s).outStall = s.outStall := rfl
@[simp] theorem modCtx_ackOwed (k : Nat) (g : Bool) (f : CoreCtx → CoreCtx) : (modCtx k g f s).ackOwed = s.ackOwed := rfl
@[simp] theorem modCtx_ackDup (k : Nat) (g : Bool) (f : CoreCtx → CoreCtx) : (modCtx k g f s).ackDup = s.ackDup := rfl
@[simp] theorem modCtx_sessions (k : Nat) (g : Bool) (f : CoreCtx → CoreCtx) : (modCtx k g f s).sessions = s.sessions := rfl
@[simp] theorem modCtx_linger (k : Nat) (g : Bool) (f : CoreCtx → CoreCtx) : (modCtx k g f s).linger = s.linger := rfl
@[simp] theorem modCtx_lingerDropped (k : Nat) (g : Bool) (f : CoreCtx → CoreCtx) : (modCtx k g f s).lingerDropped = s.lingerDropped := rfl
@[simp] theorem modCtx_winReads (k : Nat) (g : Bool) (f : CoreCtx → CoreCtx) : (modCtx k g f s).winReads = s.winReads := rfl
@[simp] theorem modCtx_cmdParts (k : Nat) (g : Bool) (f : CoreCtx → CoreCtx) : (modCtx k g f s).cmdParts = s.cmdParts := rfl
@[simp] theorem modCtx_accepted (k : Nat) (g : Bool) (f : CoreCtx → CoreCtx) : (modCtx k g f s).accepted = s.accepted := rfl
@[simp] theorem modCtx_replies (k : Nat) (g : Bool) (f : CoreCtx → CoreCtx) : (modCtx k g f s).replies = s.replies := rfl
@[simp] theorem modCtx_log (k : Nat) (g : Bool) (f : CoreCtx → CoreCtx) : (modCtx k g f s).log = s.log := rfl
@[simp] theorem modCtx_logStaged (k : Nat) (g : Bool) (f : CoreCtx → CoreCtx) : (modCtx k g f s).logStaged = s.logStaged := rfl
@[simp] theorem modCtx_logUnsigned (k : Nat) (g : Bool) (f : CoreCtx → CoreCtx) : (modCtx k g f s).logUnsigned = s.logUnsigned := rfl
@[simp] theorem modCtx_logSince (k : Nat) (g : Bool) (f : CoreCtx → CoreCtx) : (modCtx k g f s).logSince = s.logSince := rfl
@[simp] theorem modCtx_verdictRuns (k : Nat) (g : Bool) (f : CoreCtx → CoreCtx) : (modCtx k g f s).verdictRuns = s.verdictRuns := rfl
@[simp] theorem modCtx_refuseRuns (k : Nat) (g : Bool) (f : CoreCtx → CoreCtx) : (modCtx k g f s).refuseRuns = s.refuseRuns := rfl
@[simp] theorem modCtx_mons (k : Nat) (g : Bool) (f : CoreCtx → CoreCtx) : (modCtx k g f s).mons = s.mons := rfl

/-! ## `modSlot` -/

@[simp] theorem modSlot_pending (i : Nat) (f : Slot → Slot) : (modSlot i f s).pending = s.pending := rfl
@[simp] theorem modSlot_free (i : Nat) (f : Slot → Slot) : (modSlot i f s).free = s.free := rfl
@[simp] theorem modSlot_dev (i : Nat) (f : Slot → Slot) : (modSlot i f s).dev = s.dev := rfl
@[simp] theorem modSlot_hands (i : Nat) (f : Slot → Slot) : (modSlot i f s).hands = s.hands := rfl
@[simp] theorem modSlot_pwr (i : Nat) (f : Slot → Slot) : (modSlot i f s).pwr = s.pwr := rfl
@[simp] theorem modSlot_ptp (i : Nat) (f : Slot → Slot) : (modSlot i f s).ptp = s.ptp := rfl
@[simp] theorem modSlot_nor (i : Nat) (f : Slot → Slot) : (modSlot i f s).nor = s.nor := rfl
@[simp] theorem modSlot_anchor (i : Nat) (f : Slot → Slot) : (modSlot i f s).anchor = s.anchor := rfl
@[simp] theorem modSlot_setup (i : Nat) (f : Slot → Slot) : (modSlot i f s).setup = s.setup := rfl
@[simp] theorem modSlot_cores (i : Nat) (f : Slot → Slot) : (modSlot i f s).cores = s.cores := rfl
@[simp] theorem modSlot_parts (i : Nat) (f : Slot → Slot) : (modSlot i f s).parts = s.parts := rfl
@[simp] theorem modSlot_net (i : Nat) (f : Slot → Slot) : (modSlot i f s).net = s.net := rfl
@[simp] theorem modSlot_streams (i : Nat) (f : Slot → Slot) : (modSlot i f s).streams = s.streams := rfl
@[simp] theorem modSlot_mem (i : Nat) (f : Slot → Slot) : (modSlot i f s).mem = s.mem := rfl
@[simp] theorem modSlot_pages (i : Nat) (f : Slot → Slot) : (modSlot i f s).pages = s.pages := rfl
@[simp] theorem modSlot_versions (i : Nat) (f : Slot → Slot) : (modSlot i f s).versions = s.versions := rfl
@[simp] theorem modSlot_verRoot (i : Nat) (f : Slot → Slot) : (modSlot i f s).verRoot = s.verRoot := rfl
@[simp] theorem modSlot_regions (i : Nat) (f : Slot → Slot) : (modSlot i f s).regions = s.regions := rfl
@[simp] theorem modSlot_zeroing (i : Nat) (f : Slot → Slot) : (modSlot i f s).zeroing = s.zeroing := rfl
@[simp] theorem modSlot_hot (i : Nat) (f : Slot → Slot) : (modSlot i f s).hot = s.hot := rfl
@[simp] theorem modSlot_kv (i : Nat) (f : Slot → Slot) : (modSlot i f s).kv = s.kv := rfl
@[simp] theorem modSlot_staging (i : Nat) (f : Slot → Slot) : (modSlot i f s).staging = s.staging := rfl
@[simp] theorem modSlot_promoQ (i : Nat) (f : Slot → Slot) : (modSlot i f s).promoQ = s.promoQ := rfl
@[simp] theorem modSlot_base (i : Nat) (f : Slot → Slot) : (modSlot i f s).base = s.base := rfl
@[simp] theorem modSlot_ckpts (i : Nat) (f : Slot → Slot) : (modSlot i f s).ckpts = s.ckpts := rfl
@[simp] theorem modSlot_nextCkpt (i : Nat) (f : Slot → Slot) : (modSlot i f s).nextCkpt = s.nextCkpt := rfl
@[simp] theorem modSlot_tenants (i : Nat) (f : Slot → Slot) : (modSlot i f s).tenants = s.tenants := rfl
@[simp] theorem modSlot_devKeyGen (i : Nat) (f : Slot → Slot) : (modSlot i f s).devKeyGen = s.devKeyGen := rfl
@[simp] theorem modSlot_devOldGen (i : Nat) (f : Slot → Slot) : (modSlot i f s).devOldGen = s.devOldGen := rfl
@[simp] theorem modSlot_devRotWaits (i : Nat) (f : Slot → Slot) : (modSlot i f s).devRotWaits = s.devRotWaits := rfl
@[simp] theorem modSlot_registry (i : Nat) (f : Slot → Slot) : (modSlot i f s).registry = s.registry := rfl
@[simp] theorem modSlot_reqs (i : Nat) (f : Slot → Slot) : (modSlot i f s).reqs = s.reqs := rfl
@[simp] theorem modSlot_sess (i : Nat) (f : Slot → Slot) : (modSlot i f s).sess = s.sess := rfl
@[simp] theorem modSlot_tokens (i : Nat) (f : Slot → Slot) : (modSlot i f s).tokens = s.tokens := rfl
@[simp] theorem modSlot_ports (i : Nat) (f : Slot → Slot) : (modSlot i f s).ports = s.ports := rfl
@[simp] theorem modSlot_flows (i : Nat) (f : Slot → Slot) : (modSlot i f s).flows = s.flows := rfl
@[simp] theorem modSlot_peerPorts (i : Nat) (f : Slot → Slot) : (modSlot i f s).peerPorts = s.peerPorts := rfl
@[simp] theorem modSlot_linkWait (i : Nat) (f : Slot → Slot) : (modSlot i f s).linkWait = s.linkWait := rfl
@[simp] theorem modSlot_ethState (i : Nat) (f : Slot → Slot) : (modSlot i f s).ethState = s.ethState := rfl
@[simp] theorem modSlot_ethDiscards (i : Nat) (f : Slot → Slot) : (modSlot i f s).ethDiscards = s.ethDiscards := rfl
@[simp] theorem modSlot_ethAuthFail (i : Nat) (f : Slot → Slot) : (modSlot i f s).ethAuthFail = s.ethAuthFail := rfl
@[simp] theorem modSlot_ethRewinds (i : Nat) (f : Slot → Slot) : (modSlot i f s).ethRewinds = s.ethRewinds := rfl
@[simp] theorem modSlot_assocNum (i : Nat) (f : Slot → Slot) : (modSlot i f s).assocNum = s.assocNum := rfl
@[simp] theorem modSlot_inq (i : Nat) (f : Slot → Slot) : (modSlot i f s).inq = s.inq := rfl
@[simp] theorem modSlot_outq (i : Nat) (f : Slot → Slot) : (modSlot i f s).outq = s.outq := rfl
@[simp] theorem modSlot_inSeq (i : Nat) (f : Slot → Slot) : (modSlot i f s).inSeq = s.inSeq := rfl
@[simp] theorem modSlot_outSeq (i : Nat) (f : Slot → Slot) : (modSlot i f s).outSeq = s.outSeq := rfl
@[simp] theorem modSlot_outStall (i : Nat) (f : Slot → Slot) : (modSlot i f s).outStall = s.outStall := rfl
@[simp] theorem modSlot_ackOwed (i : Nat) (f : Slot → Slot) : (modSlot i f s).ackOwed = s.ackOwed := rfl
@[simp] theorem modSlot_ackDup (i : Nat) (f : Slot → Slot) : (modSlot i f s).ackDup = s.ackDup := rfl
@[simp] theorem modSlot_sessions (i : Nat) (f : Slot → Slot) : (modSlot i f s).sessions = s.sessions := rfl
@[simp] theorem modSlot_linger (i : Nat) (f : Slot → Slot) : (modSlot i f s).linger = s.linger := rfl
@[simp] theorem modSlot_lingerDropped (i : Nat) (f : Slot → Slot) : (modSlot i f s).lingerDropped = s.lingerDropped := rfl
@[simp] theorem modSlot_winReads (i : Nat) (f : Slot → Slot) : (modSlot i f s).winReads = s.winReads := rfl
@[simp] theorem modSlot_cmdParts (i : Nat) (f : Slot → Slot) : (modSlot i f s).cmdParts = s.cmdParts := rfl
@[simp] theorem modSlot_accepted (i : Nat) (f : Slot → Slot) : (modSlot i f s).accepted = s.accepted := rfl
@[simp] theorem modSlot_replies (i : Nat) (f : Slot → Slot) : (modSlot i f s).replies = s.replies := rfl
@[simp] theorem modSlot_log (i : Nat) (f : Slot → Slot) : (modSlot i f s).log = s.log := rfl
@[simp] theorem modSlot_logStaged (i : Nat) (f : Slot → Slot) : (modSlot i f s).logStaged = s.logStaged := rfl
@[simp] theorem modSlot_logUnsigned (i : Nat) (f : Slot → Slot) : (modSlot i f s).logUnsigned = s.logUnsigned := rfl
@[simp] theorem modSlot_logSince (i : Nat) (f : Slot → Slot) : (modSlot i f s).logSince = s.logSince := rfl
@[simp] theorem modSlot_verdictRuns (i : Nat) (f : Slot → Slot) : (modSlot i f s).verdictRuns = s.verdictRuns := rfl
@[simp] theorem modSlot_refuseRuns (i : Nat) (f : Slot → Slot) : (modSlot i f s).refuseRuns = s.refuseRuns := rfl
@[simp] theorem modSlot_mons (i : Nat) (f : Slot → Slot) : (modSlot i f s).mons = s.mons := rfl

/-! ## `modJob` -/

@[simp] theorem modJob_pending (i : Nat) (f : Job → Job) : (modJob i f s).pending = s.pending := rfl
@[simp] theorem modJob_free (i : Nat) (f : Job → Job) : (modJob i f s).free = s.free := rfl
@[simp] theorem modJob_dev (i : Nat) (f : Job → Job) : (modJob i f s).dev = s.dev := rfl
@[simp] theorem modJob_hands (i : Nat) (f : Job → Job) : (modJob i f s).hands = s.hands := rfl
@[simp] theorem modJob_pwr (i : Nat) (f : Job → Job) : (modJob i f s).pwr = s.pwr := rfl
@[simp] theorem modJob_ptp (i : Nat) (f : Job → Job) : (modJob i f s).ptp = s.ptp := rfl
@[simp] theorem modJob_nor (i : Nat) (f : Job → Job) : (modJob i f s).nor = s.nor := rfl
@[simp] theorem modJob_anchor (i : Nat) (f : Job → Job) : (modJob i f s).anchor = s.anchor := rfl
@[simp] theorem modJob_setup (i : Nat) (f : Job → Job) : (modJob i f s).setup = s.setup := rfl
@[simp] theorem modJob_cores (i : Nat) (f : Job → Job) : (modJob i f s).cores = s.cores := rfl
@[simp] theorem modJob_parts (i : Nat) (f : Job → Job) : (modJob i f s).parts = s.parts := rfl
@[simp] theorem modJob_net (i : Nat) (f : Job → Job) : (modJob i f s).net = s.net := rfl
@[simp] theorem modJob_streams (i : Nat) (f : Job → Job) : (modJob i f s).streams = s.streams := rfl
@[simp] theorem modJob_mem (i : Nat) (f : Job → Job) : (modJob i f s).mem = s.mem := rfl
@[simp] theorem modJob_pages (i : Nat) (f : Job → Job) : (modJob i f s).pages = s.pages := rfl
@[simp] theorem modJob_versions (i : Nat) (f : Job → Job) : (modJob i f s).versions = s.versions := rfl
@[simp] theorem modJob_verRoot (i : Nat) (f : Job → Job) : (modJob i f s).verRoot = s.verRoot := rfl
@[simp] theorem modJob_regions (i : Nat) (f : Job → Job) : (modJob i f s).regions = s.regions := rfl
@[simp] theorem modJob_zeroing (i : Nat) (f : Job → Job) : (modJob i f s).zeroing = s.zeroing := rfl
@[simp] theorem modJob_hot (i : Nat) (f : Job → Job) : (modJob i f s).hot = s.hot := rfl
@[simp] theorem modJob_kv (i : Nat) (f : Job → Job) : (modJob i f s).kv = s.kv := rfl
@[simp] theorem modJob_staging (i : Nat) (f : Job → Job) : (modJob i f s).staging = s.staging := rfl
@[simp] theorem modJob_promoQ (i : Nat) (f : Job → Job) : (modJob i f s).promoQ = s.promoQ := rfl
@[simp] theorem modJob_base (i : Nat) (f : Job → Job) : (modJob i f s).base = s.base := rfl
@[simp] theorem modJob_ckpts (i : Nat) (f : Job → Job) : (modJob i f s).ckpts = s.ckpts := rfl
@[simp] theorem modJob_nextCkpt (i : Nat) (f : Job → Job) : (modJob i f s).nextCkpt = s.nextCkpt := rfl
@[simp] theorem modJob_tenants (i : Nat) (f : Job → Job) : (modJob i f s).tenants = s.tenants := rfl
@[simp] theorem modJob_devKeyGen (i : Nat) (f : Job → Job) : (modJob i f s).devKeyGen = s.devKeyGen := rfl
@[simp] theorem modJob_devOldGen (i : Nat) (f : Job → Job) : (modJob i f s).devOldGen = s.devOldGen := rfl
@[simp] theorem modJob_devRotWaits (i : Nat) (f : Job → Job) : (modJob i f s).devRotWaits = s.devRotWaits := rfl
@[simp] theorem modJob_registry (i : Nat) (f : Job → Job) : (modJob i f s).registry = s.registry := rfl
@[simp] theorem modJob_reqs (i : Nat) (f : Job → Job) : (modJob i f s).reqs = s.reqs := rfl
@[simp] theorem modJob_sess (i : Nat) (f : Job → Job) : (modJob i f s).sess = s.sess := rfl
@[simp] theorem modJob_tokens (i : Nat) (f : Job → Job) : (modJob i f s).tokens = s.tokens := rfl
@[simp] theorem modJob_ports (i : Nat) (f : Job → Job) : (modJob i f s).ports = s.ports := rfl
@[simp] theorem modJob_flows (i : Nat) (f : Job → Job) : (modJob i f s).flows = s.flows := rfl
@[simp] theorem modJob_peerPorts (i : Nat) (f : Job → Job) : (modJob i f s).peerPorts = s.peerPorts := rfl
@[simp] theorem modJob_linkWait (i : Nat) (f : Job → Job) : (modJob i f s).linkWait = s.linkWait := rfl
@[simp] theorem modJob_ethState (i : Nat) (f : Job → Job) : (modJob i f s).ethState = s.ethState := rfl
@[simp] theorem modJob_ethDiscards (i : Nat) (f : Job → Job) : (modJob i f s).ethDiscards = s.ethDiscards := rfl
@[simp] theorem modJob_ethAuthFail (i : Nat) (f : Job → Job) : (modJob i f s).ethAuthFail = s.ethAuthFail := rfl
@[simp] theorem modJob_ethRewinds (i : Nat) (f : Job → Job) : (modJob i f s).ethRewinds = s.ethRewinds := rfl
@[simp] theorem modJob_assocNum (i : Nat) (f : Job → Job) : (modJob i f s).assocNum = s.assocNum := rfl
@[simp] theorem modJob_inq (i : Nat) (f : Job → Job) : (modJob i f s).inq = s.inq := rfl
@[simp] theorem modJob_outq (i : Nat) (f : Job → Job) : (modJob i f s).outq = s.outq := rfl
@[simp] theorem modJob_inSeq (i : Nat) (f : Job → Job) : (modJob i f s).inSeq = s.inSeq := rfl
@[simp] theorem modJob_outSeq (i : Nat) (f : Job → Job) : (modJob i f s).outSeq = s.outSeq := rfl
@[simp] theorem modJob_outStall (i : Nat) (f : Job → Job) : (modJob i f s).outStall = s.outStall := rfl
@[simp] theorem modJob_ackOwed (i : Nat) (f : Job → Job) : (modJob i f s).ackOwed = s.ackOwed := rfl
@[simp] theorem modJob_ackDup (i : Nat) (f : Job → Job) : (modJob i f s).ackDup = s.ackDup := rfl
@[simp] theorem modJob_sessions (i : Nat) (f : Job → Job) : (modJob i f s).sessions = s.sessions := rfl
@[simp] theorem modJob_linger (i : Nat) (f : Job → Job) : (modJob i f s).linger = s.linger := rfl
@[simp] theorem modJob_lingerDropped (i : Nat) (f : Job → Job) : (modJob i f s).lingerDropped = s.lingerDropped := rfl
@[simp] theorem modJob_winReads (i : Nat) (f : Job → Job) : (modJob i f s).winReads = s.winReads := rfl
@[simp] theorem modJob_cmdParts (i : Nat) (f : Job → Job) : (modJob i f s).cmdParts = s.cmdParts := rfl
@[simp] theorem modJob_accepted (i : Nat) (f : Job → Job) : (modJob i f s).accepted = s.accepted := rfl
@[simp] theorem modJob_replies (i : Nat) (f : Job → Job) : (modJob i f s).replies = s.replies := rfl
@[simp] theorem modJob_log (i : Nat) (f : Job → Job) : (modJob i f s).log = s.log := rfl
@[simp] theorem modJob_logStaged (i : Nat) (f : Job → Job) : (modJob i f s).logStaged = s.logStaged := rfl
@[simp] theorem modJob_logUnsigned (i : Nat) (f : Job → Job) : (modJob i f s).logUnsigned = s.logUnsigned := rfl
@[simp] theorem modJob_logSince (i : Nat) (f : Job → Job) : (modJob i f s).logSince = s.logSince := rfl
@[simp] theorem modJob_verdictRuns (i : Nat) (f : Job → Job) : (modJob i f s).verdictRuns = s.verdictRuns := rfl
@[simp] theorem modJob_refuseRuns (i : Nat) (f : Job → Job) : (modJob i f s).refuseRuns = s.refuseRuns := rfl
@[simp] theorem modJob_mons (i : Nat) (f : Job → Job) : (modJob i f s).mons = s.mons := rfl

/-! ## `modNow` -/

@[simp] theorem modNow_pending (i : Nat) (f : Run → Run) : (modNow i f s).pending = s.pending := rfl
@[simp] theorem modNow_free (i : Nat) (f : Run → Run) : (modNow i f s).free = s.free := rfl
@[simp] theorem modNow_dev (i : Nat) (f : Run → Run) : (modNow i f s).dev = s.dev := rfl
@[simp] theorem modNow_hands (i : Nat) (f : Run → Run) : (modNow i f s).hands = s.hands := rfl
@[simp] theorem modNow_pwr (i : Nat) (f : Run → Run) : (modNow i f s).pwr = s.pwr := rfl
@[simp] theorem modNow_ptp (i : Nat) (f : Run → Run) : (modNow i f s).ptp = s.ptp := rfl
@[simp] theorem modNow_nor (i : Nat) (f : Run → Run) : (modNow i f s).nor = s.nor := rfl
@[simp] theorem modNow_anchor (i : Nat) (f : Run → Run) : (modNow i f s).anchor = s.anchor := rfl
@[simp] theorem modNow_setup (i : Nat) (f : Run → Run) : (modNow i f s).setup = s.setup := rfl
@[simp] theorem modNow_cores (i : Nat) (f : Run → Run) : (modNow i f s).cores = s.cores := rfl
@[simp] theorem modNow_parts (i : Nat) (f : Run → Run) : (modNow i f s).parts = s.parts := rfl
@[simp] theorem modNow_net (i : Nat) (f : Run → Run) : (modNow i f s).net = s.net := rfl
@[simp] theorem modNow_streams (i : Nat) (f : Run → Run) : (modNow i f s).streams = s.streams := rfl
@[simp] theorem modNow_mem (i : Nat) (f : Run → Run) : (modNow i f s).mem = s.mem := rfl
@[simp] theorem modNow_pages (i : Nat) (f : Run → Run) : (modNow i f s).pages = s.pages := rfl
@[simp] theorem modNow_versions (i : Nat) (f : Run → Run) : (modNow i f s).versions = s.versions := rfl
@[simp] theorem modNow_verRoot (i : Nat) (f : Run → Run) : (modNow i f s).verRoot = s.verRoot := rfl
@[simp] theorem modNow_regions (i : Nat) (f : Run → Run) : (modNow i f s).regions = s.regions := rfl
@[simp] theorem modNow_zeroing (i : Nat) (f : Run → Run) : (modNow i f s).zeroing = s.zeroing := rfl
@[simp] theorem modNow_hot (i : Nat) (f : Run → Run) : (modNow i f s).hot = s.hot := rfl
@[simp] theorem modNow_kv (i : Nat) (f : Run → Run) : (modNow i f s).kv = s.kv := rfl
@[simp] theorem modNow_staging (i : Nat) (f : Run → Run) : (modNow i f s).staging = s.staging := rfl
@[simp] theorem modNow_promoQ (i : Nat) (f : Run → Run) : (modNow i f s).promoQ = s.promoQ := rfl
@[simp] theorem modNow_base (i : Nat) (f : Run → Run) : (modNow i f s).base = s.base := rfl
@[simp] theorem modNow_ckpts (i : Nat) (f : Run → Run) : (modNow i f s).ckpts = s.ckpts := rfl
@[simp] theorem modNow_nextCkpt (i : Nat) (f : Run → Run) : (modNow i f s).nextCkpt = s.nextCkpt := rfl
@[simp] theorem modNow_tenants (i : Nat) (f : Run → Run) : (modNow i f s).tenants = s.tenants := rfl
@[simp] theorem modNow_devKeyGen (i : Nat) (f : Run → Run) : (modNow i f s).devKeyGen = s.devKeyGen := rfl
@[simp] theorem modNow_devOldGen (i : Nat) (f : Run → Run) : (modNow i f s).devOldGen = s.devOldGen := rfl
@[simp] theorem modNow_devRotWaits (i : Nat) (f : Run → Run) : (modNow i f s).devRotWaits = s.devRotWaits := rfl
@[simp] theorem modNow_registry (i : Nat) (f : Run → Run) : (modNow i f s).registry = s.registry := rfl
@[simp] theorem modNow_reqs (i : Nat) (f : Run → Run) : (modNow i f s).reqs = s.reqs := rfl
@[simp] theorem modNow_sess (i : Nat) (f : Run → Run) : (modNow i f s).sess = s.sess := rfl
@[simp] theorem modNow_tokens (i : Nat) (f : Run → Run) : (modNow i f s).tokens = s.tokens := rfl
@[simp] theorem modNow_ports (i : Nat) (f : Run → Run) : (modNow i f s).ports = s.ports := rfl
@[simp] theorem modNow_flows (i : Nat) (f : Run → Run) : (modNow i f s).flows = s.flows := rfl
@[simp] theorem modNow_peerPorts (i : Nat) (f : Run → Run) : (modNow i f s).peerPorts = s.peerPorts := rfl
@[simp] theorem modNow_linkWait (i : Nat) (f : Run → Run) : (modNow i f s).linkWait = s.linkWait := rfl
@[simp] theorem modNow_ethState (i : Nat) (f : Run → Run) : (modNow i f s).ethState = s.ethState := rfl
@[simp] theorem modNow_ethDiscards (i : Nat) (f : Run → Run) : (modNow i f s).ethDiscards = s.ethDiscards := rfl
@[simp] theorem modNow_ethAuthFail (i : Nat) (f : Run → Run) : (modNow i f s).ethAuthFail = s.ethAuthFail := rfl
@[simp] theorem modNow_ethRewinds (i : Nat) (f : Run → Run) : (modNow i f s).ethRewinds = s.ethRewinds := rfl
@[simp] theorem modNow_assocNum (i : Nat) (f : Run → Run) : (modNow i f s).assocNum = s.assocNum := rfl
@[simp] theorem modNow_inq (i : Nat) (f : Run → Run) : (modNow i f s).inq = s.inq := rfl
@[simp] theorem modNow_outq (i : Nat) (f : Run → Run) : (modNow i f s).outq = s.outq := rfl
@[simp] theorem modNow_inSeq (i : Nat) (f : Run → Run) : (modNow i f s).inSeq = s.inSeq := rfl
@[simp] theorem modNow_outSeq (i : Nat) (f : Run → Run) : (modNow i f s).outSeq = s.outSeq := rfl
@[simp] theorem modNow_outStall (i : Nat) (f : Run → Run) : (modNow i f s).outStall = s.outStall := rfl
@[simp] theorem modNow_ackOwed (i : Nat) (f : Run → Run) : (modNow i f s).ackOwed = s.ackOwed := rfl
@[simp] theorem modNow_ackDup (i : Nat) (f : Run → Run) : (modNow i f s).ackDup = s.ackDup := rfl
@[simp] theorem modNow_sessions (i : Nat) (f : Run → Run) : (modNow i f s).sessions = s.sessions := rfl
@[simp] theorem modNow_linger (i : Nat) (f : Run → Run) : (modNow i f s).linger = s.linger := rfl
@[simp] theorem modNow_lingerDropped (i : Nat) (f : Run → Run) : (modNow i f s).lingerDropped = s.lingerDropped := rfl
@[simp] theorem modNow_winReads (i : Nat) (f : Run → Run) : (modNow i f s).winReads = s.winReads := rfl
@[simp] theorem modNow_cmdParts (i : Nat) (f : Run → Run) : (modNow i f s).cmdParts = s.cmdParts := rfl
@[simp] theorem modNow_accepted (i : Nat) (f : Run → Run) : (modNow i f s).accepted = s.accepted := rfl
@[simp] theorem modNow_replies (i : Nat) (f : Run → Run) : (modNow i f s).replies = s.replies := rfl
@[simp] theorem modNow_log (i : Nat) (f : Run → Run) : (modNow i f s).log = s.log := rfl
@[simp] theorem modNow_logStaged (i : Nat) (f : Run → Run) : (modNow i f s).logStaged = s.logStaged := rfl
@[simp] theorem modNow_logUnsigned (i : Nat) (f : Run → Run) : (modNow i f s).logUnsigned = s.logUnsigned := rfl
@[simp] theorem modNow_logSince (i : Nat) (f : Run → Run) : (modNow i f s).logSince = s.logSince := rfl
@[simp] theorem modNow_verdictRuns (i : Nat) (f : Run → Run) : (modNow i f s).verdictRuns = s.verdictRuns := rfl
@[simp] theorem modNow_refuseRuns (i : Nat) (f : Run → Run) : (modNow i f s).refuseRuns = s.refuseRuns := rfl
@[simp] theorem modNow_mons (i : Nat) (f : Run → Run) : (modNow i f s).mons = s.mons := rfl

/-! ## `modRun` -/

@[simp] theorem modRun_pending (i b r : Nat) (f : Run → Run) : (modRun i b r f s).pending = s.pending := rfl
@[simp] theorem modRun_free (i b r : Nat) (f : Run → Run) : (modRun i b r f s).free = s.free := rfl
@[simp] theorem modRun_dev (i b r : Nat) (f : Run → Run) : (modRun i b r f s).dev = s.dev := rfl
@[simp] theorem modRun_hands (i b r : Nat) (f : Run → Run) : (modRun i b r f s).hands = s.hands := rfl
@[simp] theorem modRun_pwr (i b r : Nat) (f : Run → Run) : (modRun i b r f s).pwr = s.pwr := rfl
@[simp] theorem modRun_ptp (i b r : Nat) (f : Run → Run) : (modRun i b r f s).ptp = s.ptp := rfl
@[simp] theorem modRun_nor (i b r : Nat) (f : Run → Run) : (modRun i b r f s).nor = s.nor := rfl
@[simp] theorem modRun_anchor (i b r : Nat) (f : Run → Run) : (modRun i b r f s).anchor = s.anchor := rfl
@[simp] theorem modRun_setup (i b r : Nat) (f : Run → Run) : (modRun i b r f s).setup = s.setup := rfl
@[simp] theorem modRun_cores (i b r : Nat) (f : Run → Run) : (modRun i b r f s).cores = s.cores := rfl
@[simp] theorem modRun_parts (i b r : Nat) (f : Run → Run) : (modRun i b r f s).parts = s.parts := rfl
@[simp] theorem modRun_net (i b r : Nat) (f : Run → Run) : (modRun i b r f s).net = s.net := rfl
@[simp] theorem modRun_streams (i b r : Nat) (f : Run → Run) : (modRun i b r f s).streams = s.streams := rfl
@[simp] theorem modRun_mem (i b r : Nat) (f : Run → Run) : (modRun i b r f s).mem = s.mem := rfl
@[simp] theorem modRun_pages (i b r : Nat) (f : Run → Run) : (modRun i b r f s).pages = s.pages := rfl
@[simp] theorem modRun_versions (i b r : Nat) (f : Run → Run) : (modRun i b r f s).versions = s.versions := rfl
@[simp] theorem modRun_verRoot (i b r : Nat) (f : Run → Run) : (modRun i b r f s).verRoot = s.verRoot := rfl
@[simp] theorem modRun_regions (i b r : Nat) (f : Run → Run) : (modRun i b r f s).regions = s.regions := rfl
@[simp] theorem modRun_zeroing (i b r : Nat) (f : Run → Run) : (modRun i b r f s).zeroing = s.zeroing := rfl
@[simp] theorem modRun_hot (i b r : Nat) (f : Run → Run) : (modRun i b r f s).hot = s.hot := rfl
@[simp] theorem modRun_kv (i b r : Nat) (f : Run → Run) : (modRun i b r f s).kv = s.kv := rfl
@[simp] theorem modRun_staging (i b r : Nat) (f : Run → Run) : (modRun i b r f s).staging = s.staging := rfl
@[simp] theorem modRun_promoQ (i b r : Nat) (f : Run → Run) : (modRun i b r f s).promoQ = s.promoQ := rfl
@[simp] theorem modRun_base (i b r : Nat) (f : Run → Run) : (modRun i b r f s).base = s.base := rfl
@[simp] theorem modRun_ckpts (i b r : Nat) (f : Run → Run) : (modRun i b r f s).ckpts = s.ckpts := rfl
@[simp] theorem modRun_nextCkpt (i b r : Nat) (f : Run → Run) : (modRun i b r f s).nextCkpt = s.nextCkpt := rfl
@[simp] theorem modRun_tenants (i b r : Nat) (f : Run → Run) : (modRun i b r f s).tenants = s.tenants := rfl
@[simp] theorem modRun_devKeyGen (i b r : Nat) (f : Run → Run) : (modRun i b r f s).devKeyGen = s.devKeyGen := rfl
@[simp] theorem modRun_devOldGen (i b r : Nat) (f : Run → Run) : (modRun i b r f s).devOldGen = s.devOldGen := rfl
@[simp] theorem modRun_devRotWaits (i b r : Nat) (f : Run → Run) : (modRun i b r f s).devRotWaits = s.devRotWaits := rfl
@[simp] theorem modRun_registry (i b r : Nat) (f : Run → Run) : (modRun i b r f s).registry = s.registry := rfl
@[simp] theorem modRun_reqs (i b r : Nat) (f : Run → Run) : (modRun i b r f s).reqs = s.reqs := rfl
@[simp] theorem modRun_sess (i b r : Nat) (f : Run → Run) : (modRun i b r f s).sess = s.sess := rfl
@[simp] theorem modRun_tokens (i b r : Nat) (f : Run → Run) : (modRun i b r f s).tokens = s.tokens := rfl
@[simp] theorem modRun_ports (i b r : Nat) (f : Run → Run) : (modRun i b r f s).ports = s.ports := rfl
@[simp] theorem modRun_flows (i b r : Nat) (f : Run → Run) : (modRun i b r f s).flows = s.flows := rfl
@[simp] theorem modRun_peerPorts (i b r : Nat) (f : Run → Run) : (modRun i b r f s).peerPorts = s.peerPorts := rfl
@[simp] theorem modRun_linkWait (i b r : Nat) (f : Run → Run) : (modRun i b r f s).linkWait = s.linkWait := rfl
@[simp] theorem modRun_ethState (i b r : Nat) (f : Run → Run) : (modRun i b r f s).ethState = s.ethState := rfl
@[simp] theorem modRun_ethDiscards (i b r : Nat) (f : Run → Run) : (modRun i b r f s).ethDiscards = s.ethDiscards := rfl
@[simp] theorem modRun_ethAuthFail (i b r : Nat) (f : Run → Run) : (modRun i b r f s).ethAuthFail = s.ethAuthFail := rfl
@[simp] theorem modRun_ethRewinds (i b r : Nat) (f : Run → Run) : (modRun i b r f s).ethRewinds = s.ethRewinds := rfl
@[simp] theorem modRun_assocNum (i b r : Nat) (f : Run → Run) : (modRun i b r f s).assocNum = s.assocNum := rfl
@[simp] theorem modRun_inq (i b r : Nat) (f : Run → Run) : (modRun i b r f s).inq = s.inq := rfl
@[simp] theorem modRun_outq (i b r : Nat) (f : Run → Run) : (modRun i b r f s).outq = s.outq := rfl
@[simp] theorem modRun_inSeq (i b r : Nat) (f : Run → Run) : (modRun i b r f s).inSeq = s.inSeq := rfl
@[simp] theorem modRun_outSeq (i b r : Nat) (f : Run → Run) : (modRun i b r f s).outSeq = s.outSeq := rfl
@[simp] theorem modRun_outStall (i b r : Nat) (f : Run → Run) : (modRun i b r f s).outStall = s.outStall := rfl
@[simp] theorem modRun_ackOwed (i b r : Nat) (f : Run → Run) : (modRun i b r f s).ackOwed = s.ackOwed := rfl
@[simp] theorem modRun_ackDup (i b r : Nat) (f : Run → Run) : (modRun i b r f s).ackDup = s.ackDup := rfl
@[simp] theorem modRun_sessions (i b r : Nat) (f : Run → Run) : (modRun i b r f s).sessions = s.sessions := rfl
@[simp] theorem modRun_linger (i b r : Nat) (f : Run → Run) : (modRun i b r f s).linger = s.linger := rfl
@[simp] theorem modRun_lingerDropped (i b r : Nat) (f : Run → Run) : (modRun i b r f s).lingerDropped = s.lingerDropped := rfl
@[simp] theorem modRun_winReads (i b r : Nat) (f : Run → Run) : (modRun i b r f s).winReads = s.winReads := rfl
@[simp] theorem modRun_cmdParts (i b r : Nat) (f : Run → Run) : (modRun i b r f s).cmdParts = s.cmdParts := rfl
@[simp] theorem modRun_accepted (i b r : Nat) (f : Run → Run) : (modRun i b r f s).accepted = s.accepted := rfl
@[simp] theorem modRun_replies (i b r : Nat) (f : Run → Run) : (modRun i b r f s).replies = s.replies := rfl
@[simp] theorem modRun_log (i b r : Nat) (f : Run → Run) : (modRun i b r f s).log = s.log := rfl
@[simp] theorem modRun_logStaged (i b r : Nat) (f : Run → Run) : (modRun i b r f s).logStaged = s.logStaged := rfl
@[simp] theorem modRun_logUnsigned (i b r : Nat) (f : Run → Run) : (modRun i b r f s).logUnsigned = s.logUnsigned := rfl
@[simp] theorem modRun_logSince (i b r : Nat) (f : Run → Run) : (modRun i b r f s).logSince = s.logSince := rfl
@[simp] theorem modRun_verdictRuns (i b r : Nat) (f : Run → Run) : (modRun i b r f s).verdictRuns = s.verdictRuns := rfl
@[simp] theorem modRun_refuseRuns (i b r : Nat) (f : Run → Run) : (modRun i b r f s).refuseRuns = s.refuseRuns := rfl
@[simp] theorem modRun_mons (i b r : Nat) (f : Run → Run) : (modRun i b r f s).mons = s.mons := rfl

/-! ## `modPart` -/

@[simp] theorem modPart_pending (p : Nat) (f : Part → Part) : (modPart p f s).pending = s.pending := rfl
@[simp] theorem modPart_free (p : Nat) (f : Part → Part) : (modPart p f s).free = s.free := rfl
@[simp] theorem modPart_dev (p : Nat) (f : Part → Part) : (modPart p f s).dev = s.dev := rfl
@[simp] theorem modPart_hands (p : Nat) (f : Part → Part) : (modPart p f s).hands = s.hands := rfl
@[simp] theorem modPart_pwr (p : Nat) (f : Part → Part) : (modPart p f s).pwr = s.pwr := rfl
@[simp] theorem modPart_ptp (p : Nat) (f : Part → Part) : (modPart p f s).ptp = s.ptp := rfl
@[simp] theorem modPart_nor (p : Nat) (f : Part → Part) : (modPart p f s).nor = s.nor := rfl
@[simp] theorem modPart_anchor (p : Nat) (f : Part → Part) : (modPart p f s).anchor = s.anchor := rfl
@[simp] theorem modPart_setup (p : Nat) (f : Part → Part) : (modPart p f s).setup = s.setup := rfl
@[simp] theorem modPart_cores (p : Nat) (f : Part → Part) : (modPart p f s).cores = s.cores := rfl
@[simp] theorem modPart_slots (p : Nat) (f : Part → Part) : (modPart p f s).slots = s.slots := rfl
@[simp] theorem modPart_net (p : Nat) (f : Part → Part) : (modPart p f s).net = s.net := rfl
@[simp] theorem modPart_streams (p : Nat) (f : Part → Part) : (modPart p f s).streams = s.streams := rfl
@[simp] theorem modPart_mem (p : Nat) (f : Part → Part) : (modPart p f s).mem = s.mem := rfl
@[simp] theorem modPart_pages (p : Nat) (f : Part → Part) : (modPart p f s).pages = s.pages := rfl
@[simp] theorem modPart_versions (p : Nat) (f : Part → Part) : (modPart p f s).versions = s.versions := rfl
@[simp] theorem modPart_verRoot (p : Nat) (f : Part → Part) : (modPart p f s).verRoot = s.verRoot := rfl
@[simp] theorem modPart_regions (p : Nat) (f : Part → Part) : (modPart p f s).regions = s.regions := rfl
@[simp] theorem modPart_zeroing (p : Nat) (f : Part → Part) : (modPart p f s).zeroing = s.zeroing := rfl
@[simp] theorem modPart_hot (p : Nat) (f : Part → Part) : (modPart p f s).hot = s.hot := rfl
@[simp] theorem modPart_kv (p : Nat) (f : Part → Part) : (modPart p f s).kv = s.kv := rfl
@[simp] theorem modPart_staging (p : Nat) (f : Part → Part) : (modPart p f s).staging = s.staging := rfl
@[simp] theorem modPart_promoQ (p : Nat) (f : Part → Part) : (modPart p f s).promoQ = s.promoQ := rfl
@[simp] theorem modPart_base (p : Nat) (f : Part → Part) : (modPart p f s).base = s.base := rfl
@[simp] theorem modPart_ckpts (p : Nat) (f : Part → Part) : (modPart p f s).ckpts = s.ckpts := rfl
@[simp] theorem modPart_nextCkpt (p : Nat) (f : Part → Part) : (modPart p f s).nextCkpt = s.nextCkpt := rfl
@[simp] theorem modPart_tenants (p : Nat) (f : Part → Part) : (modPart p f s).tenants = s.tenants := rfl
@[simp] theorem modPart_devKeyGen (p : Nat) (f : Part → Part) : (modPart p f s).devKeyGen = s.devKeyGen := rfl
@[simp] theorem modPart_devOldGen (p : Nat) (f : Part → Part) : (modPart p f s).devOldGen = s.devOldGen := rfl
@[simp] theorem modPart_devRotWaits (p : Nat) (f : Part → Part) : (modPart p f s).devRotWaits = s.devRotWaits := rfl
@[simp] theorem modPart_registry (p : Nat) (f : Part → Part) : (modPart p f s).registry = s.registry := rfl
@[simp] theorem modPart_reqs (p : Nat) (f : Part → Part) : (modPart p f s).reqs = s.reqs := rfl
@[simp] theorem modPart_sess (p : Nat) (f : Part → Part) : (modPart p f s).sess = s.sess := rfl
@[simp] theorem modPart_tokens (p : Nat) (f : Part → Part) : (modPart p f s).tokens = s.tokens := rfl
@[simp] theorem modPart_ports (p : Nat) (f : Part → Part) : (modPart p f s).ports = s.ports := rfl
@[simp] theorem modPart_flows (p : Nat) (f : Part → Part) : (modPart p f s).flows = s.flows := rfl
@[simp] theorem modPart_peerPorts (p : Nat) (f : Part → Part) : (modPart p f s).peerPorts = s.peerPorts := rfl
@[simp] theorem modPart_linkWait (p : Nat) (f : Part → Part) : (modPart p f s).linkWait = s.linkWait := rfl
@[simp] theorem modPart_ethState (p : Nat) (f : Part → Part) : (modPart p f s).ethState = s.ethState := rfl
@[simp] theorem modPart_ethDiscards (p : Nat) (f : Part → Part) : (modPart p f s).ethDiscards = s.ethDiscards := rfl
@[simp] theorem modPart_ethAuthFail (p : Nat) (f : Part → Part) : (modPart p f s).ethAuthFail = s.ethAuthFail := rfl
@[simp] theorem modPart_ethRewinds (p : Nat) (f : Part → Part) : (modPart p f s).ethRewinds = s.ethRewinds := rfl
@[simp] theorem modPart_assocNum (p : Nat) (f : Part → Part) : (modPart p f s).assocNum = s.assocNum := rfl
@[simp] theorem modPart_inq (p : Nat) (f : Part → Part) : (modPart p f s).inq = s.inq := rfl
@[simp] theorem modPart_outq (p : Nat) (f : Part → Part) : (modPart p f s).outq = s.outq := rfl
@[simp] theorem modPart_inSeq (p : Nat) (f : Part → Part) : (modPart p f s).inSeq = s.inSeq := rfl
@[simp] theorem modPart_outSeq (p : Nat) (f : Part → Part) : (modPart p f s).outSeq = s.outSeq := rfl
@[simp] theorem modPart_outStall (p : Nat) (f : Part → Part) : (modPart p f s).outStall = s.outStall := rfl
@[simp] theorem modPart_ackOwed (p : Nat) (f : Part → Part) : (modPart p f s).ackOwed = s.ackOwed := rfl
@[simp] theorem modPart_ackDup (p : Nat) (f : Part → Part) : (modPart p f s).ackDup = s.ackDup := rfl
@[simp] theorem modPart_sessions (p : Nat) (f : Part → Part) : (modPart p f s).sessions = s.sessions := rfl
@[simp] theorem modPart_linger (p : Nat) (f : Part → Part) : (modPart p f s).linger = s.linger := rfl
@[simp] theorem modPart_lingerDropped (p : Nat) (f : Part → Part) : (modPart p f s).lingerDropped = s.lingerDropped := rfl
@[simp] theorem modPart_winReads (p : Nat) (f : Part → Part) : (modPart p f s).winReads = s.winReads := rfl
@[simp] theorem modPart_cmdParts (p : Nat) (f : Part → Part) : (modPart p f s).cmdParts = s.cmdParts := rfl
@[simp] theorem modPart_accepted (p : Nat) (f : Part → Part) : (modPart p f s).accepted = s.accepted := rfl
@[simp] theorem modPart_replies (p : Nat) (f : Part → Part) : (modPart p f s).replies = s.replies := rfl
@[simp] theorem modPart_log (p : Nat) (f : Part → Part) : (modPart p f s).log = s.log := rfl
@[simp] theorem modPart_logStaged (p : Nat) (f : Part → Part) : (modPart p f s).logStaged = s.logStaged := rfl
@[simp] theorem modPart_logUnsigned (p : Nat) (f : Part → Part) : (modPart p f s).logUnsigned = s.logUnsigned := rfl
@[simp] theorem modPart_logSince (p : Nat) (f : Part → Part) : (modPart p f s).logSince = s.logSince := rfl
@[simp] theorem modPart_verdictRuns (p : Nat) (f : Part → Part) : (modPart p f s).verdictRuns = s.verdictRuns := rfl
@[simp] theorem modPart_refuseRuns (p : Nat) (f : Part → Part) : (modPart p f s).refuseRuns = s.refuseRuns := rfl
@[simp] theorem modPart_mons (p : Nat) (f : Part → Part) : (modPart p f s).mons = s.mons := rfl

/-! ## `modHand` -/

@[simp] theorem modHand_pending (h : Nat) (f : Hand → Hand) : (modHand h f s).pending = s.pending := rfl
@[simp] theorem modHand_free (h : Nat) (f : Hand → Hand) : (modHand h f s).free = s.free := rfl
@[simp] theorem modHand_dev (h : Nat) (f : Hand → Hand) : (modHand h f s).dev = s.dev := rfl
@[simp] theorem modHand_pwr (h : Nat) (f : Hand → Hand) : (modHand h f s).pwr = s.pwr := rfl
@[simp] theorem modHand_ptp (h : Nat) (f : Hand → Hand) : (modHand h f s).ptp = s.ptp := rfl
@[simp] theorem modHand_nor (h : Nat) (f : Hand → Hand) : (modHand h f s).nor = s.nor := rfl
@[simp] theorem modHand_anchor (h : Nat) (f : Hand → Hand) : (modHand h f s).anchor = s.anchor := rfl
@[simp] theorem modHand_setup (h : Nat) (f : Hand → Hand) : (modHand h f s).setup = s.setup := rfl
@[simp] theorem modHand_cores (h : Nat) (f : Hand → Hand) : (modHand h f s).cores = s.cores := rfl
@[simp] theorem modHand_parts (h : Nat) (f : Hand → Hand) : (modHand h f s).parts = s.parts := rfl
@[simp] theorem modHand_slots (h : Nat) (f : Hand → Hand) : (modHand h f s).slots = s.slots := rfl
@[simp] theorem modHand_net (h : Nat) (f : Hand → Hand) : (modHand h f s).net = s.net := rfl
@[simp] theorem modHand_streams (h : Nat) (f : Hand → Hand) : (modHand h f s).streams = s.streams := rfl
@[simp] theorem modHand_mem (h : Nat) (f : Hand → Hand) : (modHand h f s).mem = s.mem := rfl
@[simp] theorem modHand_pages (h : Nat) (f : Hand → Hand) : (modHand h f s).pages = s.pages := rfl
@[simp] theorem modHand_versions (h : Nat) (f : Hand → Hand) : (modHand h f s).versions = s.versions := rfl
@[simp] theorem modHand_verRoot (h : Nat) (f : Hand → Hand) : (modHand h f s).verRoot = s.verRoot := rfl
@[simp] theorem modHand_regions (h : Nat) (f : Hand → Hand) : (modHand h f s).regions = s.regions := rfl
@[simp] theorem modHand_zeroing (h : Nat) (f : Hand → Hand) : (modHand h f s).zeroing = s.zeroing := rfl
@[simp] theorem modHand_hot (h : Nat) (f : Hand → Hand) : (modHand h f s).hot = s.hot := rfl
@[simp] theorem modHand_kv (h : Nat) (f : Hand → Hand) : (modHand h f s).kv = s.kv := rfl
@[simp] theorem modHand_staging (h : Nat) (f : Hand → Hand) : (modHand h f s).staging = s.staging := rfl
@[simp] theorem modHand_promoQ (h : Nat) (f : Hand → Hand) : (modHand h f s).promoQ = s.promoQ := rfl
@[simp] theorem modHand_base (h : Nat) (f : Hand → Hand) : (modHand h f s).base = s.base := rfl
@[simp] theorem modHand_ckpts (h : Nat) (f : Hand → Hand) : (modHand h f s).ckpts = s.ckpts := rfl
@[simp] theorem modHand_nextCkpt (h : Nat) (f : Hand → Hand) : (modHand h f s).nextCkpt = s.nextCkpt := rfl
@[simp] theorem modHand_tenants (h : Nat) (f : Hand → Hand) : (modHand h f s).tenants = s.tenants := rfl
@[simp] theorem modHand_devKeyGen (h : Nat) (f : Hand → Hand) : (modHand h f s).devKeyGen = s.devKeyGen := rfl
@[simp] theorem modHand_devOldGen (h : Nat) (f : Hand → Hand) : (modHand h f s).devOldGen = s.devOldGen := rfl
@[simp] theorem modHand_devRotWaits (h : Nat) (f : Hand → Hand) : (modHand h f s).devRotWaits = s.devRotWaits := rfl
@[simp] theorem modHand_registry (h : Nat) (f : Hand → Hand) : (modHand h f s).registry = s.registry := rfl
@[simp] theorem modHand_reqs (h : Nat) (f : Hand → Hand) : (modHand h f s).reqs = s.reqs := rfl
@[simp] theorem modHand_sess (h : Nat) (f : Hand → Hand) : (modHand h f s).sess = s.sess := rfl
@[simp] theorem modHand_tokens (h : Nat) (f : Hand → Hand) : (modHand h f s).tokens = s.tokens := rfl
@[simp] theorem modHand_ports (h : Nat) (f : Hand → Hand) : (modHand h f s).ports = s.ports := rfl
@[simp] theorem modHand_flows (h : Nat) (f : Hand → Hand) : (modHand h f s).flows = s.flows := rfl
@[simp] theorem modHand_peerPorts (h : Nat) (f : Hand → Hand) : (modHand h f s).peerPorts = s.peerPorts := rfl
@[simp] theorem modHand_linkWait (h : Nat) (f : Hand → Hand) : (modHand h f s).linkWait = s.linkWait := rfl
@[simp] theorem modHand_ethState (h : Nat) (f : Hand → Hand) : (modHand h f s).ethState = s.ethState := rfl
@[simp] theorem modHand_ethDiscards (h : Nat) (f : Hand → Hand) : (modHand h f s).ethDiscards = s.ethDiscards := rfl
@[simp] theorem modHand_ethAuthFail (h : Nat) (f : Hand → Hand) : (modHand h f s).ethAuthFail = s.ethAuthFail := rfl
@[simp] theorem modHand_ethRewinds (h : Nat) (f : Hand → Hand) : (modHand h f s).ethRewinds = s.ethRewinds := rfl
@[simp] theorem modHand_assocNum (h : Nat) (f : Hand → Hand) : (modHand h f s).assocNum = s.assocNum := rfl
@[simp] theorem modHand_inq (h : Nat) (f : Hand → Hand) : (modHand h f s).inq = s.inq := rfl
@[simp] theorem modHand_outq (h : Nat) (f : Hand → Hand) : (modHand h f s).outq = s.outq := rfl
@[simp] theorem modHand_inSeq (h : Nat) (f : Hand → Hand) : (modHand h f s).inSeq = s.inSeq := rfl
@[simp] theorem modHand_outSeq (h : Nat) (f : Hand → Hand) : (modHand h f s).outSeq = s.outSeq := rfl
@[simp] theorem modHand_outStall (h : Nat) (f : Hand → Hand) : (modHand h f s).outStall = s.outStall := rfl
@[simp] theorem modHand_ackOwed (h : Nat) (f : Hand → Hand) : (modHand h f s).ackOwed = s.ackOwed := rfl
@[simp] theorem modHand_ackDup (h : Nat) (f : Hand → Hand) : (modHand h f s).ackDup = s.ackDup := rfl
@[simp] theorem modHand_sessions (h : Nat) (f : Hand → Hand) : (modHand h f s).sessions = s.sessions := rfl
@[simp] theorem modHand_linger (h : Nat) (f : Hand → Hand) : (modHand h f s).linger = s.linger := rfl
@[simp] theorem modHand_lingerDropped (h : Nat) (f : Hand → Hand) : (modHand h f s).lingerDropped = s.lingerDropped := rfl
@[simp] theorem modHand_winReads (h : Nat) (f : Hand → Hand) : (modHand h f s).winReads = s.winReads := rfl
@[simp] theorem modHand_cmdParts (h : Nat) (f : Hand → Hand) : (modHand h f s).cmdParts = s.cmdParts := rfl
@[simp] theorem modHand_accepted (h : Nat) (f : Hand → Hand) : (modHand h f s).accepted = s.accepted := rfl
@[simp] theorem modHand_replies (h : Nat) (f : Hand → Hand) : (modHand h f s).replies = s.replies := rfl
@[simp] theorem modHand_log (h : Nat) (f : Hand → Hand) : (modHand h f s).log = s.log := rfl
@[simp] theorem modHand_logStaged (h : Nat) (f : Hand → Hand) : (modHand h f s).logStaged = s.logStaged := rfl
@[simp] theorem modHand_logUnsigned (h : Nat) (f : Hand → Hand) : (modHand h f s).logUnsigned = s.logUnsigned := rfl
@[simp] theorem modHand_logSince (h : Nat) (f : Hand → Hand) : (modHand h f s).logSince = s.logSince := rfl
@[simp] theorem modHand_verdictRuns (h : Nat) (f : Hand → Hand) : (modHand h f s).verdictRuns = s.verdictRuns := rfl
@[simp] theorem modHand_refuseRuns (h : Nat) (f : Hand → Hand) : (modHand h f s).refuseRuns = s.refuseRuns := rfl
@[simp] theorem modHand_mons (h : Nat) (f : Hand → Hand) : (modHand h f s).mons = s.mons := rfl

/-! ## `modPort` -/

@[simp] theorem modPort_pending (p : Nat) (f : Port → Port) : (modPort p f s).pending = s.pending := rfl
@[simp] theorem modPort_free (p : Nat) (f : Port → Port) : (modPort p f s).free = s.free := rfl
@[simp] theorem modPort_dev (p : Nat) (f : Port → Port) : (modPort p f s).dev = s.dev := rfl
@[simp] theorem modPort_hands (p : Nat) (f : Port → Port) : (modPort p f s).hands = s.hands := rfl
@[simp] theorem modPort_pwr (p : Nat) (f : Port → Port) : (modPort p f s).pwr = s.pwr := rfl
@[simp] theorem modPort_ptp (p : Nat) (f : Port → Port) : (modPort p f s).ptp = s.ptp := rfl
@[simp] theorem modPort_nor (p : Nat) (f : Port → Port) : (modPort p f s).nor = s.nor := rfl
@[simp] theorem modPort_anchor (p : Nat) (f : Port → Port) : (modPort p f s).anchor = s.anchor := rfl
@[simp] theorem modPort_setup (p : Nat) (f : Port → Port) : (modPort p f s).setup = s.setup := rfl
@[simp] theorem modPort_cores (p : Nat) (f : Port → Port) : (modPort p f s).cores = s.cores := rfl
@[simp] theorem modPort_parts (p : Nat) (f : Port → Port) : (modPort p f s).parts = s.parts := rfl
@[simp] theorem modPort_slots (p : Nat) (f : Port → Port) : (modPort p f s).slots = s.slots := rfl
@[simp] theorem modPort_net (p : Nat) (f : Port → Port) : (modPort p f s).net = s.net := rfl
@[simp] theorem modPort_streams (p : Nat) (f : Port → Port) : (modPort p f s).streams = s.streams := rfl
@[simp] theorem modPort_mem (p : Nat) (f : Port → Port) : (modPort p f s).mem = s.mem := rfl
@[simp] theorem modPort_pages (p : Nat) (f : Port → Port) : (modPort p f s).pages = s.pages := rfl
@[simp] theorem modPort_versions (p : Nat) (f : Port → Port) : (modPort p f s).versions = s.versions := rfl
@[simp] theorem modPort_verRoot (p : Nat) (f : Port → Port) : (modPort p f s).verRoot = s.verRoot := rfl
@[simp] theorem modPort_regions (p : Nat) (f : Port → Port) : (modPort p f s).regions = s.regions := rfl
@[simp] theorem modPort_zeroing (p : Nat) (f : Port → Port) : (modPort p f s).zeroing = s.zeroing := rfl
@[simp] theorem modPort_hot (p : Nat) (f : Port → Port) : (modPort p f s).hot = s.hot := rfl
@[simp] theorem modPort_kv (p : Nat) (f : Port → Port) : (modPort p f s).kv = s.kv := rfl
@[simp] theorem modPort_staging (p : Nat) (f : Port → Port) : (modPort p f s).staging = s.staging := rfl
@[simp] theorem modPort_promoQ (p : Nat) (f : Port → Port) : (modPort p f s).promoQ = s.promoQ := rfl
@[simp] theorem modPort_base (p : Nat) (f : Port → Port) : (modPort p f s).base = s.base := rfl
@[simp] theorem modPort_ckpts (p : Nat) (f : Port → Port) : (modPort p f s).ckpts = s.ckpts := rfl
@[simp] theorem modPort_nextCkpt (p : Nat) (f : Port → Port) : (modPort p f s).nextCkpt = s.nextCkpt := rfl
@[simp] theorem modPort_tenants (p : Nat) (f : Port → Port) : (modPort p f s).tenants = s.tenants := rfl
@[simp] theorem modPort_devKeyGen (p : Nat) (f : Port → Port) : (modPort p f s).devKeyGen = s.devKeyGen := rfl
@[simp] theorem modPort_devOldGen (p : Nat) (f : Port → Port) : (modPort p f s).devOldGen = s.devOldGen := rfl
@[simp] theorem modPort_devRotWaits (p : Nat) (f : Port → Port) : (modPort p f s).devRotWaits = s.devRotWaits := rfl
@[simp] theorem modPort_registry (p : Nat) (f : Port → Port) : (modPort p f s).registry = s.registry := rfl
@[simp] theorem modPort_reqs (p : Nat) (f : Port → Port) : (modPort p f s).reqs = s.reqs := rfl
@[simp] theorem modPort_sess (p : Nat) (f : Port → Port) : (modPort p f s).sess = s.sess := rfl
@[simp] theorem modPort_tokens (p : Nat) (f : Port → Port) : (modPort p f s).tokens = s.tokens := rfl
@[simp] theorem modPort_flows (p : Nat) (f : Port → Port) : (modPort p f s).flows = s.flows := rfl
@[simp] theorem modPort_peerPorts (p : Nat) (f : Port → Port) : (modPort p f s).peerPorts = s.peerPorts := rfl
@[simp] theorem modPort_linkWait (p : Nat) (f : Port → Port) : (modPort p f s).linkWait = s.linkWait := rfl
@[simp] theorem modPort_ethState (p : Nat) (f : Port → Port) : (modPort p f s).ethState = s.ethState := rfl
@[simp] theorem modPort_ethDiscards (p : Nat) (f : Port → Port) : (modPort p f s).ethDiscards = s.ethDiscards := rfl
@[simp] theorem modPort_ethAuthFail (p : Nat) (f : Port → Port) : (modPort p f s).ethAuthFail = s.ethAuthFail := rfl
@[simp] theorem modPort_ethRewinds (p : Nat) (f : Port → Port) : (modPort p f s).ethRewinds = s.ethRewinds := rfl
@[simp] theorem modPort_assocNum (p : Nat) (f : Port → Port) : (modPort p f s).assocNum = s.assocNum := rfl
@[simp] theorem modPort_inq (p : Nat) (f : Port → Port) : (modPort p f s).inq = s.inq := rfl
@[simp] theorem modPort_outq (p : Nat) (f : Port → Port) : (modPort p f s).outq = s.outq := rfl
@[simp] theorem modPort_inSeq (p : Nat) (f : Port → Port) : (modPort p f s).inSeq = s.inSeq := rfl
@[simp] theorem modPort_outSeq (p : Nat) (f : Port → Port) : (modPort p f s).outSeq = s.outSeq := rfl
@[simp] theorem modPort_outStall (p : Nat) (f : Port → Port) : (modPort p f s).outStall = s.outStall := rfl
@[simp] theorem modPort_ackOwed (p : Nat) (f : Port → Port) : (modPort p f s).ackOwed = s.ackOwed := rfl
@[simp] theorem modPort_ackDup (p : Nat) (f : Port → Port) : (modPort p f s).ackDup = s.ackDup := rfl
@[simp] theorem modPort_sessions (p : Nat) (f : Port → Port) : (modPort p f s).sessions = s.sessions := rfl
@[simp] theorem modPort_linger (p : Nat) (f : Port → Port) : (modPort p f s).linger = s.linger := rfl
@[simp] theorem modPort_lingerDropped (p : Nat) (f : Port → Port) : (modPort p f s).lingerDropped = s.lingerDropped := rfl
@[simp] theorem modPort_winReads (p : Nat) (f : Port → Port) : (modPort p f s).winReads = s.winReads := rfl
@[simp] theorem modPort_cmdParts (p : Nat) (f : Port → Port) : (modPort p f s).cmdParts = s.cmdParts := rfl
@[simp] theorem modPort_accepted (p : Nat) (f : Port → Port) : (modPort p f s).accepted = s.accepted := rfl
@[simp] theorem modPort_replies (p : Nat) (f : Port → Port) : (modPort p f s).replies = s.replies := rfl
@[simp] theorem modPort_log (p : Nat) (f : Port → Port) : (modPort p f s).log = s.log := rfl
@[simp] theorem modPort_logStaged (p : Nat) (f : Port → Port) : (modPort p f s).logStaged = s.logStaged := rfl
@[simp] theorem modPort_logUnsigned (p : Nat) (f : Port → Port) : (modPort p f s).logUnsigned = s.logUnsigned := rfl
@[simp] theorem modPort_logSince (p : Nat) (f : Port → Port) : (modPort p f s).logSince = s.logSince := rfl
@[simp] theorem modPort_verdictRuns (p : Nat) (f : Port → Port) : (modPort p f s).verdictRuns = s.verdictRuns := rfl
@[simp] theorem modPort_refuseRuns (p : Nat) (f : Port → Port) : (modPort p f s).refuseRuns = s.refuseRuns := rfl
@[simp] theorem modPort_mons (p : Nat) (f : Port → Port) : (modPort p f s).mons = s.mons := rfl

/-! ## `modPage` -/

@[simp] theorem modPage_pending (n : Nat) (f : PageDesc → PageDesc) : (modPage n f s).pending = s.pending := rfl
@[simp] theorem modPage_free (n : Nat) (f : PageDesc → PageDesc) : (modPage n f s).free = s.free := rfl
@[simp] theorem modPage_dev (n : Nat) (f : PageDesc → PageDesc) : (modPage n f s).dev = s.dev := rfl
@[simp] theorem modPage_hands (n : Nat) (f : PageDesc → PageDesc) : (modPage n f s).hands = s.hands := rfl
@[simp] theorem modPage_pwr (n : Nat) (f : PageDesc → PageDesc) : (modPage n f s).pwr = s.pwr := rfl
@[simp] theorem modPage_ptp (n : Nat) (f : PageDesc → PageDesc) : (modPage n f s).ptp = s.ptp := rfl
@[simp] theorem modPage_nor (n : Nat) (f : PageDesc → PageDesc) : (modPage n f s).nor = s.nor := rfl
@[simp] theorem modPage_anchor (n : Nat) (f : PageDesc → PageDesc) : (modPage n f s).anchor = s.anchor := rfl
@[simp] theorem modPage_setup (n : Nat) (f : PageDesc → PageDesc) : (modPage n f s).setup = s.setup := rfl
@[simp] theorem modPage_cores (n : Nat) (f : PageDesc → PageDesc) : (modPage n f s).cores = s.cores := rfl
@[simp] theorem modPage_parts (n : Nat) (f : PageDesc → PageDesc) : (modPage n f s).parts = s.parts := rfl
@[simp] theorem modPage_slots (n : Nat) (f : PageDesc → PageDesc) : (modPage n f s).slots = s.slots := rfl
@[simp] theorem modPage_net (n : Nat) (f : PageDesc → PageDesc) : (modPage n f s).net = s.net := rfl
@[simp] theorem modPage_streams (n : Nat) (f : PageDesc → PageDesc) : (modPage n f s).streams = s.streams := rfl
@[simp] theorem modPage_mem (n : Nat) (f : PageDesc → PageDesc) : (modPage n f s).mem = s.mem := rfl
@[simp] theorem modPage_versions (n : Nat) (f : PageDesc → PageDesc) : (modPage n f s).versions = s.versions := rfl
@[simp] theorem modPage_verRoot (n : Nat) (f : PageDesc → PageDesc) : (modPage n f s).verRoot = s.verRoot := rfl
@[simp] theorem modPage_regions (n : Nat) (f : PageDesc → PageDesc) : (modPage n f s).regions = s.regions := rfl
@[simp] theorem modPage_zeroing (n : Nat) (f : PageDesc → PageDesc) : (modPage n f s).zeroing = s.zeroing := rfl
@[simp] theorem modPage_hot (n : Nat) (f : PageDesc → PageDesc) : (modPage n f s).hot = s.hot := rfl
@[simp] theorem modPage_kv (n : Nat) (f : PageDesc → PageDesc) : (modPage n f s).kv = s.kv := rfl
@[simp] theorem modPage_staging (n : Nat) (f : PageDesc → PageDesc) : (modPage n f s).staging = s.staging := rfl
@[simp] theorem modPage_promoQ (n : Nat) (f : PageDesc → PageDesc) : (modPage n f s).promoQ = s.promoQ := rfl
@[simp] theorem modPage_base (n : Nat) (f : PageDesc → PageDesc) : (modPage n f s).base = s.base := rfl
@[simp] theorem modPage_ckpts (n : Nat) (f : PageDesc → PageDesc) : (modPage n f s).ckpts = s.ckpts := rfl
@[simp] theorem modPage_nextCkpt (n : Nat) (f : PageDesc → PageDesc) : (modPage n f s).nextCkpt = s.nextCkpt := rfl
@[simp] theorem modPage_tenants (n : Nat) (f : PageDesc → PageDesc) : (modPage n f s).tenants = s.tenants := rfl
@[simp] theorem modPage_devKeyGen (n : Nat) (f : PageDesc → PageDesc) : (modPage n f s).devKeyGen = s.devKeyGen := rfl
@[simp] theorem modPage_devOldGen (n : Nat) (f : PageDesc → PageDesc) : (modPage n f s).devOldGen = s.devOldGen := rfl
@[simp] theorem modPage_devRotWaits (n : Nat) (f : PageDesc → PageDesc) : (modPage n f s).devRotWaits = s.devRotWaits := rfl
@[simp] theorem modPage_registry (n : Nat) (f : PageDesc → PageDesc) : (modPage n f s).registry = s.registry := rfl
@[simp] theorem modPage_reqs (n : Nat) (f : PageDesc → PageDesc) : (modPage n f s).reqs = s.reqs := rfl
@[simp] theorem modPage_sess (n : Nat) (f : PageDesc → PageDesc) : (modPage n f s).sess = s.sess := rfl
@[simp] theorem modPage_tokens (n : Nat) (f : PageDesc → PageDesc) : (modPage n f s).tokens = s.tokens := rfl
@[simp] theorem modPage_ports (n : Nat) (f : PageDesc → PageDesc) : (modPage n f s).ports = s.ports := rfl
@[simp] theorem modPage_flows (n : Nat) (f : PageDesc → PageDesc) : (modPage n f s).flows = s.flows := rfl
@[simp] theorem modPage_peerPorts (n : Nat) (f : PageDesc → PageDesc) : (modPage n f s).peerPorts = s.peerPorts := rfl
@[simp] theorem modPage_linkWait (n : Nat) (f : PageDesc → PageDesc) : (modPage n f s).linkWait = s.linkWait := rfl
@[simp] theorem modPage_ethState (n : Nat) (f : PageDesc → PageDesc) : (modPage n f s).ethState = s.ethState := rfl
@[simp] theorem modPage_ethDiscards (n : Nat) (f : PageDesc → PageDesc) : (modPage n f s).ethDiscards = s.ethDiscards := rfl
@[simp] theorem modPage_ethAuthFail (n : Nat) (f : PageDesc → PageDesc) : (modPage n f s).ethAuthFail = s.ethAuthFail := rfl
@[simp] theorem modPage_ethRewinds (n : Nat) (f : PageDesc → PageDesc) : (modPage n f s).ethRewinds = s.ethRewinds := rfl
@[simp] theorem modPage_assocNum (n : Nat) (f : PageDesc → PageDesc) : (modPage n f s).assocNum = s.assocNum := rfl
@[simp] theorem modPage_inq (n : Nat) (f : PageDesc → PageDesc) : (modPage n f s).inq = s.inq := rfl
@[simp] theorem modPage_outq (n : Nat) (f : PageDesc → PageDesc) : (modPage n f s).outq = s.outq := rfl
@[simp] theorem modPage_inSeq (n : Nat) (f : PageDesc → PageDesc) : (modPage n f s).inSeq = s.inSeq := rfl
@[simp] theorem modPage_outSeq (n : Nat) (f : PageDesc → PageDesc) : (modPage n f s).outSeq = s.outSeq := rfl
@[simp] theorem modPage_outStall (n : Nat) (f : PageDesc → PageDesc) : (modPage n f s).outStall = s.outStall := rfl
@[simp] theorem modPage_ackOwed (n : Nat) (f : PageDesc → PageDesc) : (modPage n f s).ackOwed = s.ackOwed := rfl
@[simp] theorem modPage_ackDup (n : Nat) (f : PageDesc → PageDesc) : (modPage n f s).ackDup = s.ackDup := rfl
@[simp] theorem modPage_sessions (n : Nat) (f : PageDesc → PageDesc) : (modPage n f s).sessions = s.sessions := rfl
@[simp] theorem modPage_linger (n : Nat) (f : PageDesc → PageDesc) : (modPage n f s).linger = s.linger := rfl
@[simp] theorem modPage_lingerDropped (n : Nat) (f : PageDesc → PageDesc) : (modPage n f s).lingerDropped = s.lingerDropped := rfl
@[simp] theorem modPage_winReads (n : Nat) (f : PageDesc → PageDesc) : (modPage n f s).winReads = s.winReads := rfl
@[simp] theorem modPage_cmdParts (n : Nat) (f : PageDesc → PageDesc) : (modPage n f s).cmdParts = s.cmdParts := rfl
@[simp] theorem modPage_accepted (n : Nat) (f : PageDesc → PageDesc) : (modPage n f s).accepted = s.accepted := rfl
@[simp] theorem modPage_replies (n : Nat) (f : PageDesc → PageDesc) : (modPage n f s).replies = s.replies := rfl
@[simp] theorem modPage_log (n : Nat) (f : PageDesc → PageDesc) : (modPage n f s).log = s.log := rfl
@[simp] theorem modPage_logStaged (n : Nat) (f : PageDesc → PageDesc) : (modPage n f s).logStaged = s.logStaged := rfl
@[simp] theorem modPage_logUnsigned (n : Nat) (f : PageDesc → PageDesc) : (modPage n f s).logUnsigned = s.logUnsigned := rfl
@[simp] theorem modPage_logSince (n : Nat) (f : PageDesc → PageDesc) : (modPage n f s).logSince = s.logSince := rfl
@[simp] theorem modPage_verdictRuns (n : Nat) (f : PageDesc → PageDesc) : (modPage n f s).verdictRuns = s.verdictRuns := rfl
@[simp] theorem modPage_refuseRuns (n : Nat) (f : PageDesc → PageDesc) : (modPage n f s).refuseRuns = s.refuseRuns := rfl
@[simp] theorem modPage_mons (n : Nat) (f : PageDesc → PageDesc) : (modPage n f s).mons = s.mons := rfl

/-! ## `atTime` -/

@[simp] theorem atTime_pending (t : Nat) : (atTime t s).pending = s.pending := rfl
@[simp] theorem atTime_free (t : Nat) : (atTime t s).free = s.free := rfl
@[simp] theorem atTime_dev (t : Nat) : (atTime t s).dev = s.dev := rfl
@[simp] theorem atTime_hands (t : Nat) : (atTime t s).hands = s.hands := rfl
@[simp] theorem atTime_pwr (t : Nat) : (atTime t s).pwr = s.pwr := rfl
@[simp] theorem atTime_nor (t : Nat) : (atTime t s).nor = s.nor := rfl
@[simp] theorem atTime_anchor (t : Nat) : (atTime t s).anchor = s.anchor := rfl
@[simp] theorem atTime_setup (t : Nat) : (atTime t s).setup = s.setup := rfl
@[simp] theorem atTime_cores (t : Nat) : (atTime t s).cores = s.cores := rfl
@[simp] theorem atTime_parts (t : Nat) : (atTime t s).parts = s.parts := rfl
@[simp] theorem atTime_slots (t : Nat) : (atTime t s).slots = s.slots := rfl
@[simp] theorem atTime_net (t : Nat) : (atTime t s).net = s.net := rfl
@[simp] theorem atTime_streams (t : Nat) : (atTime t s).streams = s.streams := rfl
@[simp] theorem atTime_mem (t : Nat) : (atTime t s).mem = s.mem := rfl
@[simp] theorem atTime_pages (t : Nat) : (atTime t s).pages = s.pages := rfl
@[simp] theorem atTime_versions (t : Nat) : (atTime t s).versions = s.versions := rfl
@[simp] theorem atTime_verRoot (t : Nat) : (atTime t s).verRoot = s.verRoot := rfl
@[simp] theorem atTime_regions (t : Nat) : (atTime t s).regions = s.regions := rfl
@[simp] theorem atTime_zeroing (t : Nat) : (atTime t s).zeroing = s.zeroing := rfl
@[simp] theorem atTime_hot (t : Nat) : (atTime t s).hot = s.hot := rfl
@[simp] theorem atTime_kv (t : Nat) : (atTime t s).kv = s.kv := rfl
@[simp] theorem atTime_staging (t : Nat) : (atTime t s).staging = s.staging := rfl
@[simp] theorem atTime_promoQ (t : Nat) : (atTime t s).promoQ = s.promoQ := rfl
@[simp] theorem atTime_base (t : Nat) : (atTime t s).base = s.base := rfl
@[simp] theorem atTime_ckpts (t : Nat) : (atTime t s).ckpts = s.ckpts := rfl
@[simp] theorem atTime_nextCkpt (t : Nat) : (atTime t s).nextCkpt = s.nextCkpt := rfl
@[simp] theorem atTime_tenants (t : Nat) : (atTime t s).tenants = s.tenants := rfl
@[simp] theorem atTime_devKeyGen (t : Nat) : (atTime t s).devKeyGen = s.devKeyGen := rfl
@[simp] theorem atTime_devOldGen (t : Nat) : (atTime t s).devOldGen = s.devOldGen := rfl
@[simp] theorem atTime_devRotWaits (t : Nat) : (atTime t s).devRotWaits = s.devRotWaits := rfl
@[simp] theorem atTime_registry (t : Nat) : (atTime t s).registry = s.registry := rfl
@[simp] theorem atTime_reqs (t : Nat) : (atTime t s).reqs = s.reqs := rfl
@[simp] theorem atTime_sess (t : Nat) : (atTime t s).sess = s.sess := rfl
@[simp] theorem atTime_tokens (t : Nat) : (atTime t s).tokens = s.tokens := rfl
@[simp] theorem atTime_ports (t : Nat) : (atTime t s).ports = s.ports := rfl
@[simp] theorem atTime_flows (t : Nat) : (atTime t s).flows = s.flows := rfl
@[simp] theorem atTime_peerPorts (t : Nat) : (atTime t s).peerPorts = s.peerPorts := rfl
@[simp] theorem atTime_linkWait (t : Nat) : (atTime t s).linkWait = s.linkWait := rfl
@[simp] theorem atTime_ethState (t : Nat) : (atTime t s).ethState = s.ethState := rfl
@[simp] theorem atTime_ethDiscards (t : Nat) : (atTime t s).ethDiscards = s.ethDiscards := rfl
@[simp] theorem atTime_ethAuthFail (t : Nat) : (atTime t s).ethAuthFail = s.ethAuthFail := rfl
@[simp] theorem atTime_ethRewinds (t : Nat) : (atTime t s).ethRewinds = s.ethRewinds := rfl
@[simp] theorem atTime_assocNum (t : Nat) : (atTime t s).assocNum = s.assocNum := rfl
@[simp] theorem atTime_inq (t : Nat) : (atTime t s).inq = s.inq := rfl
@[simp] theorem atTime_outq (t : Nat) : (atTime t s).outq = s.outq := rfl
@[simp] theorem atTime_inSeq (t : Nat) : (atTime t s).inSeq = s.inSeq := rfl
@[simp] theorem atTime_outSeq (t : Nat) : (atTime t s).outSeq = s.outSeq := rfl
@[simp] theorem atTime_outStall (t : Nat) : (atTime t s).outStall = s.outStall := rfl
@[simp] theorem atTime_ackOwed (t : Nat) : (atTime t s).ackOwed = s.ackOwed := rfl
@[simp] theorem atTime_ackDup (t : Nat) : (atTime t s).ackDup = s.ackDup := rfl
@[simp] theorem atTime_sessions (t : Nat) : (atTime t s).sessions = s.sessions := rfl
@[simp] theorem atTime_linger (t : Nat) : (atTime t s).linger = s.linger := rfl
@[simp] theorem atTime_lingerDropped (t : Nat) : (atTime t s).lingerDropped = s.lingerDropped := rfl
@[simp] theorem atTime_winReads (t : Nat) : (atTime t s).winReads = s.winReads := rfl
@[simp] theorem atTime_cmdParts (t : Nat) : (atTime t s).cmdParts = s.cmdParts := rfl
@[simp] theorem atTime_accepted (t : Nat) : (atTime t s).accepted = s.accepted := rfl
@[simp] theorem atTime_replies (t : Nat) : (atTime t s).replies = s.replies := rfl
@[simp] theorem atTime_log (t : Nat) : (atTime t s).log = s.log := rfl
@[simp] theorem atTime_logStaged (t : Nat) : (atTime t s).logStaged = s.logStaged := rfl
@[simp] theorem atTime_logUnsigned (t : Nat) : (atTime t s).logUnsigned = s.logUnsigned := rfl
@[simp] theorem atTime_logSince (t : Nat) : (atTime t s).logSince = s.logSince := rfl
@[simp] theorem atTime_verdictRuns (t : Nat) : (atTime t s).verdictRuns = s.verdictRuns := rfl
@[simp] theorem atTime_refuseRuns (t : Nat) : (atTime t s).refuseRuns = s.refuseRuns := rfl
@[simp] theorem atTime_mons (t : Nat) : (atTime t s).mons = s.mons := rfl

/-! ## `idleStep` -/

@[simp] theorem idleStep_pending : (idleStep s).pending = s.pending := rfl
@[simp] theorem idleStep_free : (idleStep s).free = s.free := rfl
@[simp] theorem idleStep_dev : (idleStep s).dev = s.dev := rfl
@[simp] theorem idleStep_hands : (idleStep s).hands = s.hands := rfl
@[simp] theorem idleStep_pwr : (idleStep s).pwr = s.pwr := rfl
@[simp] theorem idleStep_nor : (idleStep s).nor = s.nor := rfl
@[simp] theorem idleStep_anchor : (idleStep s).anchor = s.anchor := rfl
@[simp] theorem idleStep_setup : (idleStep s).setup = s.setup := rfl
@[simp] theorem idleStep_cores : (idleStep s).cores = s.cores := rfl
@[simp] theorem idleStep_parts : (idleStep s).parts = s.parts := rfl
@[simp] theorem idleStep_slots : (idleStep s).slots = s.slots := rfl
@[simp] theorem idleStep_net : (idleStep s).net = s.net := rfl
@[simp] theorem idleStep_streams : (idleStep s).streams = s.streams := rfl
@[simp] theorem idleStep_mem : (idleStep s).mem = s.mem := rfl
@[simp] theorem idleStep_pages : (idleStep s).pages = s.pages := rfl
@[simp] theorem idleStep_versions : (idleStep s).versions = s.versions := rfl
@[simp] theorem idleStep_verRoot : (idleStep s).verRoot = s.verRoot := rfl
@[simp] theorem idleStep_regions : (idleStep s).regions = s.regions := rfl
@[simp] theorem idleStep_zeroing : (idleStep s).zeroing = s.zeroing := rfl
@[simp] theorem idleStep_hot : (idleStep s).hot = s.hot := rfl
@[simp] theorem idleStep_kv : (idleStep s).kv = s.kv := rfl
@[simp] theorem idleStep_staging : (idleStep s).staging = s.staging := rfl
@[simp] theorem idleStep_promoQ : (idleStep s).promoQ = s.promoQ := rfl
@[simp] theorem idleStep_base : (idleStep s).base = s.base := rfl
@[simp] theorem idleStep_ckpts : (idleStep s).ckpts = s.ckpts := rfl
@[simp] theorem idleStep_nextCkpt : (idleStep s).nextCkpt = s.nextCkpt := rfl
@[simp] theorem idleStep_tenants : (idleStep s).tenants = s.tenants := rfl
@[simp] theorem idleStep_devKeyGen : (idleStep s).devKeyGen = s.devKeyGen := rfl
@[simp] theorem idleStep_devOldGen : (idleStep s).devOldGen = s.devOldGen := rfl
@[simp] theorem idleStep_devRotWaits : (idleStep s).devRotWaits = s.devRotWaits := rfl
@[simp] theorem idleStep_registry : (idleStep s).registry = s.registry := rfl
@[simp] theorem idleStep_reqs : (idleStep s).reqs = s.reqs := rfl
@[simp] theorem idleStep_sess : (idleStep s).sess = s.sess := rfl
@[simp] theorem idleStep_tokens : (idleStep s).tokens = s.tokens := rfl
@[simp] theorem idleStep_ports : (idleStep s).ports = s.ports := rfl
@[simp] theorem idleStep_flows : (idleStep s).flows = s.flows := rfl
@[simp] theorem idleStep_peerPorts : (idleStep s).peerPorts = s.peerPorts := rfl
@[simp] theorem idleStep_linkWait : (idleStep s).linkWait = s.linkWait := rfl
@[simp] theorem idleStep_ethState : (idleStep s).ethState = s.ethState := rfl
@[simp] theorem idleStep_ethDiscards : (idleStep s).ethDiscards = s.ethDiscards := rfl
@[simp] theorem idleStep_ethAuthFail : (idleStep s).ethAuthFail = s.ethAuthFail := rfl
@[simp] theorem idleStep_ethRewinds : (idleStep s).ethRewinds = s.ethRewinds := rfl
@[simp] theorem idleStep_assocNum : (idleStep s).assocNum = s.assocNum := rfl
@[simp] theorem idleStep_inq : (idleStep s).inq = s.inq := rfl
@[simp] theorem idleStep_outq : (idleStep s).outq = s.outq := rfl
@[simp] theorem idleStep_inSeq : (idleStep s).inSeq = s.inSeq := rfl
@[simp] theorem idleStep_outSeq : (idleStep s).outSeq = s.outSeq := rfl
@[simp] theorem idleStep_outStall : (idleStep s).outStall = s.outStall := rfl
@[simp] theorem idleStep_ackOwed : (idleStep s).ackOwed = s.ackOwed := rfl
@[simp] theorem idleStep_ackDup : (idleStep s).ackDup = s.ackDup := rfl
@[simp] theorem idleStep_sessions : (idleStep s).sessions = s.sessions := rfl
@[simp] theorem idleStep_linger : (idleStep s).linger = s.linger := rfl
@[simp] theorem idleStep_lingerDropped : (idleStep s).lingerDropped = s.lingerDropped := rfl
@[simp] theorem idleStep_winReads : (idleStep s).winReads = s.winReads := rfl
@[simp] theorem idleStep_cmdParts : (idleStep s).cmdParts = s.cmdParts := rfl
@[simp] theorem idleStep_accepted : (idleStep s).accepted = s.accepted := rfl
@[simp] theorem idleStep_replies : (idleStep s).replies = s.replies := rfl
@[simp] theorem idleStep_log : (idleStep s).log = s.log := rfl
@[simp] theorem idleStep_logStaged : (idleStep s).logStaged = s.logStaged := rfl
@[simp] theorem idleStep_logUnsigned : (idleStep s).logUnsigned = s.logUnsigned := rfl
@[simp] theorem idleStep_logSince : (idleStep s).logSince = s.logSince := rfl
@[simp] theorem idleStep_verdictRuns : (idleStep s).verdictRuns = s.verdictRuns := rfl
@[simp] theorem idleStep_refuseRuns : (idleStep s).refuseRuns = s.refuseRuns := rfl
@[simp] theorem idleStep_mons : (idleStep s).mons = s.mons := rfl

end Sys2Proof.Machine
end

