-- ==== Sys2Proof/Laws/Tables.lean ====
section
/-! SUPPORT. The laws of the sparse tables and of byte memory: what a read finds after a write, and that every memory
operation keeps the canonical form. -/

namespace Sys2Proof

/-! ## Tables -/

theorem Table.get_nil {α : Type} (k : Nat) : Table.get ([] : Table α) k = none := rfl

theorem Table.get_cons {α : Type} (p : Nat × α) (t : Table α) (k : Nat) :
    Table.get (p :: t) k = if p.1 = k then some p.2 else Table.get t k := by
  by_cases h : p.1 = k <;> simp [Table.get, h]

/-- A key just set reads as set. -/
@[simp] theorem Table.get_put_self {α : Type} (t : Table α) (k : Nat) (v : α) : (t.put k v).get k = some v := by
  induction t with
  | nil => simp [Table.put, Table.get_cons]
  | cons p t ih =>
    simp only [Table.put]
    split
    · simp [Table.get_cons]
    · split
      · simp [Table.get_cons]
      · rename_i h
        rw [Table.get_cons, if_neg (Ne.symm h), ih]

/-- Another key reads as before. -/
theorem Table.get_put_other {α : Type} (t : Table α) (k j : Nat) (v : α) (h : j ≠ k) :
    (t.put k v).get j = t.get j := by
  induction t with
  | nil => simp [Table.put, Table.get_cons, Table.get_nil, Ne.symm h]
  | cons p t ih =>
    simp only [Table.put]
    split
    · rw [Table.get_cons]; simp [Ne.symm h]
    · split
      · rename_i e; subst e; simp [Table.get_cons, Ne.symm h]
      · rw [Table.get_cons, Table.get_cons, ih]

@[simp] theorem Table.getD_put_self {α : Type} (t : Table α) (k : Nat) (v d : α) : (t.put k v).getD k d = v := by
  simp [Table.getD]

theorem Table.getD_put_other {α : Type} (t : Table α) (k j : Nat) (v d : α) (h : j ≠ k) :
    (t.put k v).getD j d = t.getD j d := by
  simp [Table.getD, Table.get_put_other t k j v h]

/-- A removed key reads as absent. -/
@[simp] theorem Table.get_del_self {α : Type} (t : Table α) (k : Nat) : (t.del k).get k = none := by
  induction t with
  | nil => rfl
  | cons p t ih =>
    simp only [Table.del, List.filter_cons] at *
    split
    · rename_i h
      rw [Table.get_cons, if_neg (by simpa using h), ih]
    · exact ih

theorem Table.get_del_other {α : Type} (t : Table α) (k j : Nat) (h : j ≠ k) : (t.del k).get j = t.get j := by
  induction t with
  | nil => rfl
  | cons p t ih =>
    simp only [Table.del, List.filter_cons] at *
    split
    · rw [Table.get_cons, Table.get_cons, ih]
    · rename_i e
      rw [ih, Table.get_cons, if_neg]
      intro q; simp at e; omega

/-! ## Byte memory -/

namespace Mem

theorem read_nil (a : Nat) : read [] a = 0 := rfl

theorem read_cons (p : Host.Cell) (m : List Host.Cell) (a : Nat) :
    read (p :: m) a = if p.1 = a then p.2 else read m a := by
  by_cases h : p.1 = a <;> simp [read, h]

/-- The canonical form, element by element. -/
theorem wf_cons (p : Host.Cell) (m : List Host.Cell) :
    wf (p :: m) = true ↔ p.2 ≠ 0 ∧ (∀ q ∈ m, p.1 < q.1) ∧ wf m = true := by
  induction m generalizing p with
  | nil => simp [wf]
  | cons q m ih =>
    simp only [wf, Bool.and_eq_true, bne_iff_ne, decide_eq_true_eq, List.mem_cons, forall_eq_or_imp]
    constructor
    · rintro ⟨⟨h0, h1⟩, h2⟩
      exact ⟨h0, ⟨h1, fun r hr => Nat.lt_trans h1 (((ih q).1 h2).2.1 r hr)⟩, h2⟩
    · rintro ⟨h0, ⟨h1, _⟩, h2⟩
      exact ⟨⟨h0, h1⟩, h2⟩

@[simp] theorem wf_nil : wf [] = true := rfl

/-- An address below every listed one reads 0. -/
theorem read_below (m : List Host.Cell) (a : Nat) (h : ∀ q ∈ m, a < q.1) : read m a = 0 := by
  induction m with
  | nil => rfl
  | cons p m ih =>
    rw [read_cons, if_neg, ih fun q hq => h q (List.mem_cons_of_mem _ hq)]
    have := h p (List.mem_cons_self ..)
    omega

/-- What a write can put in the list. -/
theorem mem_write (m : List Host.Cell) (a : Nat) (v : Byte) (q : Host.Cell) (h : q ∈ write m a v) :
    q.1 = a ∨ q ∈ m := by
  induction m with
  | nil =>
    simp only [write] at h
    split at h <;> simp_all
  | cons p m ih =>
    simp only [write] at h
    split at h
    · split at h <;> simp_all
      rcases h with rfl | h
      · exact Or.inl rfl
      · exact Or.inr h
    · split at h
      · split at h <;> simp_all
        rcases h with rfl | h
        · exact Or.inl rfl
        · exact Or.inr (Or.inr h)
      · rcases List.mem_cons.1 h with rfl | h
        · exact Or.inr (List.mem_cons_self ..)
        · rcases ih h with h | h
          · exact Or.inl h
          · exact Or.inr (List.mem_cons_of_mem _ h)

/-- A write keeps the canonical form. -/
theorem wf_write (m : List Host.Cell) (a : Nat) (v : Byte) (h : wf m = true) : wf (write m a v) = true := by
  induction m with
  | nil =>
    simp only [write]
    split
    · rfl
    · rename_i e; simpa [wf] using e
  | cons p m ih =>
    obtain ⟨h0, h1, h2⟩ := (wf_cons p m).1 h
    simp only [write]
    split
    · rename_i e
      split
      · exact h
      · rename_i n
        refine (wf_cons ..).2 ⟨n, ?_, h⟩
        intro q hq
        rcases List.mem_cons.1 hq with rfl | hq
        · exact e
        · exact Nat.lt_trans e (h1 q hq)
    · split
      · rename_i e
        split
        · exact h2
        · rename_i n
          exact (wf_cons ..).2 ⟨n, fun q hq => e ▸ h1 q hq, h2⟩
      · rename_i e1 e2
        refine (wf_cons ..).2 ⟨h0, ?_, ih h2⟩
        intro q hq
        rcases mem_write m a v q hq with e | hq
        · show p.1 < q.1
          have : ¬ a < p.1 := e1
          have : ¬ a = p.1 := e2
          omega
        · exact h1 q hq

/-- A byte just written reads back. -/
theorem read_write_self (m : List Host.Cell) (a : Nat) (v : Byte) (h : wf m = true) : read (write m a v) a = v := by
  induction m with
  | nil =>
    simp only [write]
    split
    · rename_i e; rw [e]; rfl
    · rw [read_cons]; simp
  | cons p m ih =>
    obtain ⟨_, h1, h2⟩ := (wf_cons p m).1 h
    simp only [write]
    split
    · rename_i e
      split
      · rename_i n
        rw [n]
        refine read_below _ _ fun q hq => ?_
        rcases List.mem_cons.1 hq with rfl | hq
        · exact e
        · exact Nat.lt_trans e (h1 q hq)
      · rw [read_cons]; simp
    · split
      · rename_i e
        split
        · rename_i n
          rw [n, e]
          exact read_below _ _ h1
        · rw [read_cons]; simp
      · rename_i e
        rw [read_cons, if_neg (Ne.symm e), ih h2]

/-- Every other byte reads as before. -/
theorem read_write_other (m : List Host.Cell) (a b : Nat) (v : Byte) (h : b ≠ a) : read (write m a v) b = read m b := by
  induction m with
  | nil =>
    simp only [write]
    split
    · rfl
    · rw [read_cons]; simp [Ne.symm h]
  | cons p m ih =>
    simp only [write]
    split
    · split
      · rfl
      · rw [read_cons]; simp [Ne.symm h]
    · split
      · rename_i e
        split
        · rw [read_cons, if_neg]; exact e ▸ Ne.symm h
        · rw [read_cons, read_cons, if_neg (Ne.symm h), if_neg]; exact e ▸ Ne.symm h
      · rw [read_cons, read_cons, ih]

/-- A string written keeps the canonical form. -/
theorem wf_writeN (m : List Host.Cell) (a : Nat) (bs : List Byte) (h : wf m = true) : wf (writeN m a bs) = true := by
  induction bs generalizing m a with
  | nil => exact h
  | cons b bs ih => exact ih _ _ (wf_write m a b h)

/-- A little-endian number written keeps the canonical form. -/
theorem wf_writeLe (m : List Host.Cell) (a n v : Nat) (h : wf m = true) : wf (writeLe m a n v) = true :=
  wf_writeN _ _ _ h

theorem wf_filter (m : List Host.Cell) (f : Host.Cell → Bool) (h : wf m = true) : wf (m.filter f) = true := by
  induction m with
  | nil => rfl
  | cons p m ih =>
    obtain ⟨h0, h1, h2⟩ := (wf_cons p m).1 h
    rw [List.filter_cons]
    split
    · exact (wf_cons ..).2 ⟨h0, fun q hq => h1 q (List.mem_filter.1 hq).1, ih h2⟩
    · exact ih h2

/-- A range set to zero keeps the canonical form. -/
theorem wf_clear (m : List Host.Cell) (a n : Nat) (h : wf m = true) : wf (clear m a n) = true := wf_filter _ _ h

theorem read_clear (m : List Host.Cell) (a n b : Nat) :
    read (clear m a n) b = if a ≤ b ∧ b < a + n then 0 else read m b := by
  induction m with
  | nil => simp [clear, read]
  | cons p m ih =>
    simp only [clear, List.filter_cons] at *
    split <;> rename_i c <;> by_cases e : p.1 = b <;> simp_all [read_cons] <;> omega

/-- Bytes outside a string written read as before. -/
theorem read_writeN_other (m : List Host.Cell) (a b : Nat) (bs : List Byte) (h : b < a ∨ a + bs.length ≤ b) :
    read (writeN m a bs) b = read m b := by
  induction bs generalizing m a with
  | nil => rfl
  | cons v bs ih =>
    simp only [List.length_cons] at h
    rw [writeN, ih _ _ (by omega), read_write_other _ _ _ _ (by omega)]

/-- A string just written reads back. -/
theorem readN_writeN (m : List Host.Cell) (a : Nat) (bs : List Byte) (h : wf m = true) :
    readN (writeN m a bs) a bs.length = bs := by
  induction bs generalizing m a with
  | nil => rfl
  | cons v bs ih =>
    rw [writeN, List.length_cons, readN, ih _ _ (wf_write m a v h),
      read_writeN_other _ _ _ _ (by omega), read_write_self m a v h]

end Mem

end Sys2Proof
end

