-- ==== Sys2Proof/Laws/Regs.lean ====
section
/-! SUPPORT. What the named operations over records and registers do: a record that was changed reads as changed, every
other one as before. -/

namespace Sys2Proof.Machine

/-! ## Records -/

@[simp] theorem getCore_modCore (s : State) (k : Nat) (f : Core → Core) :
    getCore (modCore k f s) k = f (getCore s k) := Table.getD_put_self ..

theorem getCore_modCore_other (s : State) (k j : Nat) (f : Core → Core) (h : j ≠ k) :
    getCore (modCore k f s) j = getCore s j := Table.getD_put_other _ _ _ _ _ h

@[simp] theorem getSlot_modSlot (s : State) (i : Nat) (f : Slot → Slot) :
    getSlot (modSlot i f s) i = f (getSlot s i) := Table.getD_put_self ..

theorem getSlot_modSlot_other (s : State) (i j : Nat) (f : Slot → Slot) (h : j ≠ i) :
    getSlot (modSlot i f s) j = getSlot s j := Table.getD_put_other _ _ _ _ _ h

@[simp] theorem getJob_modJob (s : State) (i : Nat) (f : Job → Job) :
    getJob (modJob i f s) i = (getJob s i).map f := by simp [getJob, modJob]

theorem getJob_modJob_other (s : State) (i j : Nat) (f : Job → Job) (h : j ≠ i) :
    getJob (modJob i f s) j = getJob s j := by simp [getJob, modJob, getSlot_modSlot_other _ _ _ _ h]

@[simp] theorem getPart_modPart (s : State) (p : Nat) (f : Part → Part) :
    getPart (modPart p f s) p = f (getPart s p) := Table.getD_put_self ..

theorem getPart_modPart_other (s : State) (p q : Nat) (f : Part → Part) (h : q ≠ p) :
    getPart (modPart p f s) q = getPart s q := Table.getD_put_other _ _ _ _ _ h

@[simp] theorem getPort_modPort (s : State) (p : Nat) (f : Port → Port) :
    getPort (modPort p f s) p = f (getPort s p) := Table.getD_put_self ..

theorem getPort_modPort_other (s : State) (p q : Nat) (f : Port → Port) (h : q ≠ p) :
    getPort (modPort p f s) q = getPort s q := Table.getD_put_other _ _ _ _ _ h

@[simp] theorem getPage_modPage (s : State) (n : Nat) (f : PageDesc → PageDesc) :
    getPage (modPage n f s) n = f (getPage s n) := Table.getD_put_self ..

theorem getPage_modPage_other (s : State) (n m : Nat) (f : PageDesc → PageDesc) (h : pageUnit s m ≠ pageUnit s n) :
    getPage (modPage n f s) m = getPage s m := Table.getD_put_other _ _ _ _ _ h

theorem getHand_modHand (s : State) (h j : Nat) (f : Hand → Hand) :
    getHand (modHand h f s) j = if (h = 0) = (j = 0) then f (getHand s j) else getHand s j := by
  by_cases a : h = 0 <;> by_cases b : j = 0 <;> simp [getHand, modHand, a, b]

/-! ## Registers of a core -/

@[simp] theorem ctxOf_setCtx (c : Core) (g : Bool) (x : CoreCtx) : ctxOf (setCtx c g x) g = x := by
  unfold ctxOf setCtx
  split <;> rename_i h
  · simp
  · cases g <;> simp_all

/-- The registers of the other score on a core stay. -/
theorem ctxOf_setCtx_other (c : Core) (g : Bool) (x : CoreCtx) : ctxOf (setCtx c g x) (!g) = ctxOf c (!g) := by
  unfold ctxOf setCtx
  cases g <;> cases h : c.ghostOn <;> simp

@[simp] theorem setCtx_sram (c : Core) (g : Bool) (x : CoreCtx) : (setCtx c g x).sram = c.sram := by
  unfold setCtx; repeat' split
  all_goals rfl

@[simp] theorem setCtx_inbox (c : Core) (g : Bool) (x : CoreCtx) : (setCtx c g x).inbox = c.inbox := by
  unfold setCtx; repeat' split
  all_goals rfl

@[simp] theorem setCtx_rest (c : Core) (g : Bool) (x : CoreCtx) : (setCtx c g x).rest = c.rest := by
  unfold setCtx; repeat' split
  all_goals rfl

@[simp] theorem setCtx_ghostOn (c : Core) (g : Bool) (x : CoreCtx) : (setCtx c g x).ghostOn = c.ghostOn := by
  unfold setCtx; repeat' split
  all_goals rfl

/-- The registers of a score on a core after a change. -/
theorem ctx_modCtx (s : State) (k : Nat) (g : Bool) (f : CoreCtx → CoreCtx) :
    ctxOf (getCore (modCtx k g f s) k) g = f (ctxOf (getCore s k) g) := by simp [modCtx]

@[simp] theorem xRead_zero (c : CoreCtx) : xRead c 0 = 0 := rfl

/-- A register reads as written, x0 as zero, every other one as before (R64). -/
theorem xRead_xWrite (c : CoreCtx) (d i : Nat) (w : Word) (h : d < 32) :
    xRead (xWrite c d w) i = if i = d ∧ d ≠ 0 then w else xRead c i := by
  unfold xRead xWrite
  by_cases a : i = 0 <;> by_cases b : d = 0 <;> by_cases e : i = d <;>
    simp_all [@eq_comm Nat d i]

@[simp] theorem mRead_zero (c : CoreCtx) : mRead c 0 = BitVec.allOnes 256 := rfl

/-- A mask register reads as written, m0 as all ones, every other one as before (R64). -/
theorem mRead_mWrite (c : CoreCtx) (d i : Nat) (w : Mask) (h : d < 8) :
    mRead (mWrite c d w) i = if i = d ∧ d ≠ 0 then w else mRead c i := by
  unfold mRead mWrite
  by_cases a : i = 0 <;> by_cases b : d = 0 <;> by_cases e : i = d <;>
    simp_all [@eq_comm Nat d i]

/-- A write of an index register changes nothing else. -/
theorem xWrite_frame (c : CoreCtx) (d : Nat) (w : Word) : xWrite c d w = { c with x := (xWrite c d w).x } := by
  unfold xWrite; split <;> rfl

/-- A write of a mask register changes nothing else. -/
theorem mWrite_frame (c : CoreCtx) (d : Nat) (w : Mask) : mWrite c d w = { c with m := (mWrite c d w).m } := by
  unfold mWrite; split <;> rfl

/-! ## The unit of a core step -/

/-- What `envOf` reads for the unit it answers. -/
theorem envOf_core {s : State} {c : CoreRef} {e : Env} (h : envOf s c = some e) :
    e.pid = c.part ∧ e.ghost = c.ghost ∧ e.part = getPart s c.part ∧ e.core = getCore s e.key ∧
      e.ctx = ctxOf (getCore s e.key) e.ghost ∧ (getSlot s e.slot).score = some e.score ∧
      getJob s e.slot = some e.job ∧ e.job.now = some e.run := by
  unfold envOf at h
  simp only at h
  repeat (split at h <;> try (first | contradiction | skip))
  all_goals first
    | (cases h; simp_all)
    | skip

/-- Whatever changes only records that a unit does not read leaves the unit. -/
theorem modCtx_const {s : State} {c : CoreRef} {e : Env} (h : envOf s c = some e) (f : CoreCtx → CoreCtx) :
    modCtx e.key e.ghost f s = modCtx e.key e.ghost (fun _ => f e.ctx) s := by
  obtain ⟨_, _, _, _, hc, _⟩ := envOf_core h
  simp [modCtx, modCore, hc]

end Sys2Proof.Machine
end

