-- ==== Sys2Proof/Laws/Issue.lean ====
section
/-! SUPPORT. What `issue` answers, once for all core steps: nothing for an instruction that cannot issue, the beat-wait
mode alone for a false predicate, and the body's end otherwise. -/

namespace Sys2Proof.Machine

open Sys2Proof.Safety

variable {s : State} {c : CoreRef} {k : Ctl} {insn : CoreInsn} {e : Env} {target : Env → Option Nat}
  {body : Env → State → Act}

/-- A core that the device does not have. -/
theorem issue_noCore (h : noCore c = true) : issue c k insn target body s = .fault .noSuchUnit := by
  simp [issue, h]

/-- No score's core stands there. -/
theorem issue_noEnv (h : noCore c = false) (he : envOf s c = none) : issue c k insn target body s = .next s := by
  simp [issue, h, he]

/-- The instruction is not the next to issue. -/
theorem issue_waits (h : noCore c = false) (he : envOf s c = some e) (hi : issues s e ⟨k, insn⟩ = false) :
    issue c k insn target body s = .next s := by simp [issue, h, he, hi]

/-- A false predicate leaves only the beat-wait mode (R75). -/
theorem issue_false (h : noCore c = false) (he : envOf s c = some e) (hi : issues s e ⟨k, insn⟩ = true)
    (hp : predHolds e.ctx k = false) :
    issue c k insn target body s = .next (applyBw e k none (modCtx e.key e.ghost stepPc s)) := by
  simp [issue, h, he, hi, hp]

theorem issue_ok {u : State} (h : Issuing s c k insn e) (hb : body e s = .ok u) :
    issue c k insn target body s = .next (applyBw e k (target e) u) := by
  obtain ⟨h0, h1, h2, h3⟩ := h; simp [issue, h0, h1, h2, h3, hb]

theorem issue_fault {code : Nat} (h : Issuing s c k insn e) (hb : body e s = .fault code) :
    issue c k insn target body s = .next (faultAt e code s) := by
  obtain ⟨h0, h1, h2, h3⟩ := h; simp [issue, h0, h1, h2, h3, hb]

theorem issue_wait (h : Issuing s c k insn e) (hb : body e s = .wait) :
    issue c k insn target body s = .next s := by
  obtain ⟨h0, h1, h2, h3⟩ := h; simp [issue, h0, h1, h2, h3, hb]

/-- Everything `issue` can do. -/
theorem issue_cases (c : CoreRef) (k : Ctl) (insn : CoreInsn) (target : Env → Option Nat) (body : Env → State → Act)
    (s : State) :
    (noCore c = true ∧ issue c k insn target body s = .fault .noSuchUnit) ∨
    issue c k insn target body s = .next s ∨
    (∃ e, envOf s c = some e ∧ issues s e ⟨k, insn⟩ = true ∧ predHolds e.ctx k = false ∧
      issue c k insn target body s = .next (applyBw e k none (modCtx e.key e.ghost stepPc s))) ∨
    (∃ e code, Issuing s c k insn e ∧ body e s = .fault code ∧
      issue c k insn target body s = .next (faultAt e code s)) ∨
    (∃ e u, Issuing s c k insn e ∧ body e s = .ok u ∧
      issue c k insn target body s = .next (applyBw e k (target e) u)) := by
  cases h : noCore c
  · cases he : envOf s c with
    | none => exact .inr (.inl (issue_noEnv h he))
    | some e =>
      cases hi : issues s e ⟨k, insn⟩
      · exact .inr (.inl (issue_waits h he hi))
      · cases hp : predHolds e.ctx k
        · exact .inr (.inr (.inl ⟨e, rfl, hi, hp, issue_false h he hi hp⟩))
        · have hs : Issuing s c k insn e := ⟨h, he, hi, hp⟩
          cases hb : body e s with
          | wait => exact .inr (.inl (issue_wait hs hb))
          | fault code => exact .inr (.inr (.inr (.inl ⟨e, code, hs, hb, issue_fault hs hb⟩)))
          | ok u => exact .inr (.inr (.inr (.inr ⟨e, u, hs, hb, issue_ok hs hb⟩)))
  · exact .inl ⟨rfl, issue_noCore h⟩

/-- A body that only changes registers retires with them. -/
theorem issue_reg {f : CoreCtx → CoreCtx} (h : Issuing s c k insn e) (hb : body e s = regBody f e s) :
    issue c k insn target body s = .next (retire e k (target e) (f e.ctx) s) := by
  rw [issue_ok h hb]
  unfold retire
  rw [modCtx_const h.2.1]

/-- Without an uncorrectable error the body is all there is. -/
@[simp] theorem withEcc_false (store : Nat) : withEcc c k insn false store body s = issue c k insn (fun _ => none) body s := by
  simp [withEcc]

end Sys2Proof.Machine
end

