-- ==== Sys2Proof/Laws/Command.lean ====
section
/-! SUPPORT. What `command` answers for a command that passes its gate: its body's state, or a refusal with the body's
code. -/

namespace Sys2Proof.Machine

open Sys2Proof.Safety

/-- Reading a command moves only the inbound queue. -/
theorem takeCmd_frame (h : Hdr) (s : State) : takeCmd h s = { s with inq := (takeCmd h s).inq } := by
  unfold takeCmd; simp only; split <;> rfl

@[simp] theorem takeCmd_accepted (h : Hdr) (s : State) : (takeCmd h s).accepted = s.accepted := by
  rw [takeCmd_frame]

/-- A command whose header passes is not among the accepted ones. -/
theorem gate_fresh {h : Hdr} {op : Nat} {who : Who} {snd : Sender} {s : State} (g : gate h op who snd s = none) :
    refBusy s h = false := by
  unfold gate at g
  cases hb : refBusy s h
  · rfl
  · simp [hb] at g
    split at g
    · contradiction
    · split at g <;> contradiction

variable {s : State} {h : Hdr} {op : Nat} {who : Who} {exempt : Bool} {wins : List Range} {again : Instr}
  {snd : Sender} {body : Wait → Sender → State → Except (Nat × Nat) State}

theorem command_settles (a : Accepts s h op who exempt again snd) :
    command h op who exempt wins again body s =
      .next (settleCmd h (waitOf s h op snd) wins again (body (waitOf s h op snd) snd (takeCmd h s)) (takeCmd h s)) := by
  obtain ⟨h1, h2, h3, h4, h5, h7, h6⟩ := a
  have hb : refBusy s h = false := by simpa [refBusy] using gate_fresh h6
  have hn : ¬ 2047 ≤ s.accepted.length := by omega
  have hw : ¬ (exempt = false ∧ waitsFor s again = true ∨ cmdAsleep s again = true) := by rcases h5 with e | e <;> simp [e, h7]
  have hf : s.accepted.find? (fun a => a.sess == h.sess && a.ref == h.ref) = none := by
    rw [List.find?_eq_none]
    intro a ha
    unfold refBusy at hb
    rw [List.any_eq_false] at hb
    exact hb a ha
  unfold command waitOf
  simp only [h1]
  simp [h2, h3, hn]
  rw [if_neg hw, h6]
  simp [hf]

/-- A command whose body takes effect. -/
theorem command_ok {u : State} (a : Accepts s h op who exempt again snd)
    (hb : body (waitOf s h op snd) snd (takeCmd h s) = .ok u) :
    command h op who exempt wins again body s = .next u := by
  rw [command_settles a, hb]; simp [settleCmd, a.2.1]

/-- A command that its own checks refuse, with a detail that the manual gives. -/
theorem command_refused {code detail : Nat} (a : Accepts s h op who exempt again snd)
    (hb : body (waitOf s h op snd) snd (takeCmd h s) = .error (code, detail)) (hd : detail ≠ anyDetail) :
    command h op who exempt wins again body s =
      .next (refuse (waitOf s h op snd) (code % contentCode) detail (takeCmd h s)) := by
  rw [command_settles a, hb]; simp [settleCmd, a.2.1, hd]

/-- A new command joins the accepted ones. -/
theorem accept_fresh {w : Wait} (g : (s.accepted.any fun a => a.sess == w.sess && a.ref == w.ref) = false) :
    accept w s = admitted w s := by simp [accept, admitted, g]

theorem accept_taken (a : Accepts s h op who exempt again snd) :
    accept (waitOf s h op snd) (takeCmd h s) = admitted (waitOf s h op snd) (takeCmd h s) :=
  accept_fresh (gate_fresh a.2.2.2.2.2.2)

@[simp] theorem require_true (code detail : Nat) (k : Except (Nat × Nat) State) : require true code detail k = k := rfl

@[simp] theorem require_false (code detail : Nat) (k : Except (Nat × Nat) State) :
    require false code detail k = .error (code, detail) := rfl

@[simp] theorem content_true (code detail : Nat) (k : Except (Nat × Nat) State) : content true code detail k = k := rfl

@[simp] theorem content_false (code detail : Nat) (k : Except (Nat × Nat) State) :
    content false code detail k = .error (code + contentCode, detail) := rfl

end Sys2Proof.Machine
end

