-- ==== Sys2Proof/Laws/Exec.lean ====
section
/-! SUPPORT. `exec` on each command is its meaning, by computation. -/

namespace Sys2Proof.Machine

variable (s : State)

theorem exec_nop (c : CoreRef) (k : Ctl) : exec (.nop c k) s = execNop c k s := rfl
theorem exec_loop (c : CoreRef) (k : Ctl) (xc : Nat) (count : Opnd) (body : Nat) : exec (.loop c k xc count body) s = execLoop c k xc count body s := rfl
theorem exec_waitBeat (c : CoreRef) (k : Ctl) (target : Nat) (rel : Bool) : exec (.waitBeat c k target rel) s = execWaitBeat c k target rel s := rfl
theorem exec_rest (c : CoreRef) (k : Ctl) (win : Nat) : exec (.rest c k win) s = execRest c k win s := rfl
theorem exec_finish (c : CoreRef) (k : Ctl) : exec (.finish c k) s = execFinish c k s := rfl
theorem exec_xOp (c : CoreRef) (k : Ctl) (xd xa xb fn : Nat) : exec (.xOp c k xd xa xb fn) s = execXOp c k xd xa xb fn s := rfl
theorem exec_xOpi (c : CoreRef) (k : Ctl) (xd xa fn : Nat) (imm : Word) : exec (.xOpi c k xd xa fn imm) s = execXOpi c k xd xa fn imm s := rfl
theorem exec_xSet (c : CoreRef) (k : Ctl) (xd : Nat) (imm : Word) : exec (.xSet c k xd imm) s = execXSet c k xd imm s := rfl
theorem exec_xGet (c : CoreRef) (k : Ctl) (xd src : Nat) : exec (.xGet c k xd src) s = execXGet c k xd src s := rfl
theorem exec_mCmp (c : CoreRef) (k : Ctl) (md xa : Nat) (rhs : CmpRhs) (cc : Nat) : exec (.mCmp c k md xa rhs cc) s = execMCmp c k md xa rhs cc s := rfl
theorem exec_mRange (c : CoreRef) (k : Ctl) (md : Nat) (lo hi : Opnd) : exec (.mRange c k md lo hi) s = execMRange c k md lo hi s := rfl
theorem exec_mLogic (c : CoreRef) (k : Ctl) (md ma mb fn : Nat) : exec (.mLogic c k md ma mb fn) s = execMLogic c k md ma mb fn s := rfl
theorem exec_ml (c : CoreRef) (k : Ctl) (f : MlF) (ecc : Bool) : exec (.ml c k f ecc) s = execMl c k f ecc s := rfl
theorem exec_mm (c : CoreRef) (k : Ctl) (f : MmF) (ecc : Bool) : exec (.mm c k f ecc) s = execMm c k f ecc s := rfl
theorem exec_mmCompletionToken (c : CoreRef) : exec (.mmCompletionToken c) s = execMmCompletionToken c s := rfl
theorem exec_md (c : CoreRef) (k : Ctl) (f : MdF) (ecc : Bool) : exec (.md c k f ecc) s = execMd c k f ecc s := rfl
theorem exec_mc (c : CoreRef) (k : Ctl) (f : McF) (ecc : Bool) : exec (.mc c k f ecc) s = execMc c k f ecc s := rfl
theorem exec_chainStreamArrival (ix : Nat) : exec (.chainStreamArrival ix) s = execChainStreamArrival ix s := rfl
theorem exec_vld (c : CoreRef) (k : Ctl) (f : VmF) (ecc : Bool) : exec (.vld c k f ecc) s = execVld c k f ecc s := rfl
theorem exec_vst (c : CoreRef) (k : Ctl) (f : VmF) (ecc : Bool) : exec (.vst c k f ecc) s = execVst c k f ecc s := rfl
theorem exec_roll (c : CoreRef) (k : Ctl) (f : RollF) (ecc : Bool) : exec (.roll c k f ecc) s = execRoll c k f ecc s := rfl
theorem exec_vperm (c : CoreRef) (k : Ctl) (f : VpermF) (ecc : Bool) : exec (.vperm c k f ecc) s = execVperm c k f ecc s := rfl
theorem exec_vflag (c : CoreRef) (k : Ctl) (xd : Nat) (clr : Bool) : exec (.vflag c k xd clr) s = execVflag c k xd clr s := rfl
theorem exec_send (c : CoreRef) (k : Ctl) (f : SendF) (ecc : Bool) : exec (.send c k f ecc) s = execSend c k f ecc s := rfl
theorem exec_recv (c : CoreRef) (k : Ctl) (f : RecvF) (ecc : Bool) : exec (.recv c k f ecc) s = execRecv c k f ecc s := rfl
theorem exec_messageArrival (ix : Nat) (ecc : Bool) : exec (.messageArrival ix ecc) s = execMessageArrival ix ecc s := rfl
theorem exec_ghostPause (part : Nat) : exec (.ghostPause part) s = execGhostPause part s := rfl
theorem exec_ghostSaveDone (part : Nat) : exec (.ghostSaveDone part) s = execGhostSaveDone part s := rfl
theorem exec_dma (c : CoreRef) (k : Ctl) (desc xo : Nat) : exec (.dma c k desc xo) s = execDma c k desc xo s := rfl
theorem exec_dmaComplete (c : CoreRef) (ix : Nat) (err : Bool) : exec (.dmaComplete c ix err) s = execDmaComplete c ix err s := rfl
theorem exec_dmaWait (c : CoreRef) (k : Ctl) (cnt : Nat) : exec (.dmaWait c k cnt) s = execDmaWait c k cnt s := rfl
theorem exec_partitionScrubDone (part : Nat) : exec (.partitionScrubDone part) s = execPartitionScrubDone part s := rfl
theorem exec_shadowCheckDone (c : CoreRef) : exec (.shadowCheckDone c) s = execShadowCheckDone c s := rfl
theorem exec_chainIntake (ix : Nat) : exec (.chainIntake ix) s = execChainIntake ix s := rfl
theorem exec_routeContribution (ix : Nat) : exec (.routeContribution ix) s = execRouteContribution ix s := rfl
theorem exec_gradientIntake (slot : Nat) (red : Nat) : exec (.gradientIntake slot red) s = execGradientIntake slot red s := rfl
theorem exec_updateElement (slot : Nat) (entry : Nat) (err : Bool) : exec (.updateElement slot entry err) s = execUpdateElement slot entry err s := rfl
theorem exec_outcomeReport (ix : Nat) : exec (.outcomeReport ix) s = execOutcomeReport ix s := rfl
theorem exec_shardFetchArrival (slot : Nat) (shard : Nat) (version : Version) (bytes : List Byte) : exec (.shardFetchArrival slot shard version bytes) s = execShardFetchArrival slot shard version bytes s := rfl
theorem exec_gatherArrival (slot : Nat) (gather : Nat) (version : Version) (bytes : List Byte) : exec (.gatherArrival slot gather version bytes) s = execGatherArrival slot gather version bytes s := rfl
theorem exec_handDrained (slot : Nat) (hand : Nat) : exec (.handDrained slot hand) s = execHandDrained slot hand s := rfl
theorem exec_barWordsCombined (slot : Nat) (others : List (Nat × Bool)) : exec (.barWordsCombined slot others) s = execBarWordsCombined slot others s := rfl
theorem exec_voteEnter (slot : Nat) : exec (.voteEnter slot) s = execVoteEnter slot s := rfl
theorem exec_downbeatVerdict (slot : Nat) (others : List Vote) (block : OutBlock) : exec (.downbeatVerdict slot others block) s = execDownbeatVerdict slot others block s := rfl
theorem exec_barOpen (slot : Nat) : exec (.barOpen slot) s = execBarOpen slot s := rfl
theorem exec_lookaheadOpen (slot : Nat) : exec (.lookaheadOpen slot) s = execLookaheadOpen slot s := rfl
theorem exec_barTimeout (slot t : Nat) : exec (.barTimeout slot t) s = execBarTimeout slot t s := rfl
theorem exec_verdictQueryReply (slot : Nat) (member : Nat) (verdict : Option (Nat × Nat)) (block : OutBlock) : exec (.verdictQueryReply slot member verdict block) s = execVerdictQueryReply slot member verdict block s := rfl
theorem exec_replicaComparison (slot : Nat) (recs : List (Nat × CmpRec)) : exec (.replicaComparison slot recs) s = execReplicaComparison slot recs s := rfl
theorem exec_samplerDraw (ix : Nat) : exec (.samplerDraw ix) s = execSamplerDraw ix s := rfl
theorem exec_promotionComplete (page : Nat) (err : Bool) : exec (.promotionComplete page err) s = execPromotionComplete page err s := rfl
theorem exec_demotionComplete (page : Nat) : exec (.demotionComplete page) s = execDemotionComplete page s := rfl
theorem exec_pageZeroingDone (page : Nat) : exec (.pageZeroingDone page) s = execPageZeroingDone page s := rfl
theorem exec_baseScrubRead (mapping : Nat) (err : Bool) : exec (.baseScrubRead mapping err) s = execBaseScrubRead mapping err s := rfl
theorem exec_baseReloadDone (mapping : Nat) (unread : List Nat) (peer : Option (List Byte)) : exec (.baseReloadDone mapping unread peer) s = execBaseReloadDone mapping unread peer s := rfl
theorem exec_pageRecoveryDone (page : Nat) (found : Option (List Byte)) : exec (.pageRecoveryDone page found) s = execPageRecoveryDone page found s := rfl
theorem exec_reencryptPage (page : Nat) (err : Bool) : exec (.reencryptPage page err) s = execReencryptPage page err s := rfl
theorem exec_glPortTraining (port : Nat) (lanes : Nat) (peerDev peerPort : Nat) : exec (.glPortTraining port lanes peerDev peerPort) s = execGlPortTraining port lanes peerDev peerPort s := rfl
theorem exec_glFrameReceive (port : Nat) (f : GlFrame) : exec (.glFrameReceive port f) s = execGlFrameReceive port f s := rfl
theorem exec_glControlFrame (port : Nat) (f : GlCtl) : exec (.glControlFrame port f) s = execGlControlFrame port f s := rfl
theorem exec_glControlSendTimer (port : Nat) : exec (.glControlSendTimer port) s = execGlControlSendTimer port s := rfl
theorem exec_glClassRewind (port : Nat) (cls : Nat) : exec (.glClassRewind port cls) s = execGlClassRewind port cls s := rfl
theorem exec_glPortDown (port : Nat) : exec (.glPortDown port) s = execGlPortDown port s := rfl
theorem exec_ethLinkTraining (l01 l23 : Bool) : exec (.ethLinkTraining l01 l23) s = execEthLinkTraining l01 l23 s := rfl
theorem exec_arpRequest (ip : Nat) : exec (.arpRequest ip) s = execArpRequest ip s := rfl
theorem exec_assoc (src : Nat) (nonce : List Byte) : exec (.assoc src nonce) s = execAssoc src nonce s := rfl
theorem exec_openStep1 (f : MbFrame) (key xkey nonce : List Byte) (contexts : List Nat) (window : Nat) : exec (.openStep1 f key xkey nonce contexts window) s = execOpenStep1 f key xkey nonce contexts window s := rfl
theorem exec_openStep3 (f : MbFrame) (sigOk : Bool) : exec (.openStep3 f sigOk) s = execOpenStep3 f sigOk s := rfl
theorem exec_cmdFrame (f : MbFrame) : exec (.cmdFrame f) s = execCmdFrame f s := rfl
theorem exec_ackFrame (f : MbFrame) (next : List Nat) : exec (.ackFrame f next) s = execAckFrame f next s := rfl
theorem exec_ackSendTimer : exec (.ackSendTimer) s = execAckSendTimer s := rfl
theorem exec_wdataFrame (f : MbFrame) : exec (.wdataFrame f) s = execWdataFrame f s := rfl
theorem exec_closeFrame (f : MbFrame) : exec (.closeFrame f) s = execCloseFrame f s := rfl
theorem exec_retransmitTimeout (cls t : Nat) : exec (.retransmitTimeout cls t) s = execRetransmitTimeout cls t s := rfl
theorem exec_outboundFrameSend : exec (.outboundFrameSend) s = execOutboundFrameSend s := rfl
theorem exec_noticePacketClose (sess t : Nat) : exec (.noticePacketClose sess t) s = execNoticePacketClose sess t s := rfl
theorem exec_sessionIdleTimeout (sess t : Nat) : exec (.sessionIdleTimeout sess t) s = execSessionIdleTimeout sess t s := rfl
theorem exec_lingerExpiry (ix t : Nat) : exec (.lingerExpiry ix t) s = execLingerExpiry ix t s := rfl
theorem exec_windowTimeout (sess ref t : Nat) : exec (.windowTimeout sess ref t) s = execWindowTimeout sess ref t s := rfl
theorem exec_parkedItemResume (cls : Nat) : exec (.parkedItemResume cls) s = execParkedItemResume cls s := rfl
theorem exec_ptpSync (domain : Nat) (time : Nat) (t : Nat) : exec (.ptpSync domain time t) s = execPtpSync domain time t s := rfl
theorem exec_ptpHoldover (t : Nat) : exec (.ptpHoldover t) s = execPtpHoldover t s := rfl
theorem exec_stateRead (h : Hdr) (words : List (Nat × Nat)) : exec (.stateRead h words) s = execStateRead h words s := rfl
theorem exec_deviceReset (h : Hdr) (confirm : List Byte) : exec (.deviceReset h confirm) s = execDeviceReset h confirm s := rfl
theorem exec_portLevel (h : Hdr) (queue kib : Nat) : exec (.portLevel h queue kib) s = execPortLevel h queue kib s := rfl
theorem exec_baseLoad (h : Hdr) (man image : Range) (golden : Nat) (m : Manifest) (bytes : List Byte) : exec (.baseLoad h man image golden m bytes) s = execBaseLoad h man image golden m bytes s := rfl
theorem exec_pwrCap (h : Hdr) (watts : Nat) : exec (.pwrCap h watts) s = execPwrCap h watts s := rfl
theorem exec_scoreLoad (h : Hdr) (slot : Nat) (r : Range) (file : List Byte) : exec (.scoreLoad h slot r file) s = execScoreLoad h slot r file s := rfl
theorem exec_scoreUnload (h : Hdr) (slot : Nat) : exec (.scoreUnload h slot) s = execScoreUnload h slot s := rfl
theorem exec_jobStart (h : Hdr) (f : StartF) : exec (.jobStart h f) s = execJobStart h f s := rfl
theorem exec_jobStop (h : Hdr) (slot mode after : Nat) (ckpt : Bool) : exec (.jobStop h slot mode after ckpt) s = execJobStop h slot mode after ckpt s := rfl
theorem exec_jobBind (h : Hdr) (slot part : Nat) : exec (.jobBind h slot part) s = execJobBind h slot part s := rfl
theorem exec_jobAdmit (h : Hdr) (slot rank epoch device : Nat) (ident : List Byte) (tables : Option JobTables) : exec (.jobAdmit h slot rank epoch device ident tables) s = execJobAdmit h slot rank epoch device ident tables s := rfl
theorem exec_jobReshard (h : Hdr) (old new : Nat) (forced : Bool) (map : List (Nat × Nat × List Byte)) (tables : Option JobTables) : exec (.jobReshard h old new forced map tables) s = execJobReshard h old new forced map tables s := rfl
theorem exec_jobNorms (h : Hdr) (slot first count : Nat) (r : Range) : exec (.jobNorms h slot first count r) s = execJobNorms h slot first count r s := rfl
theorem exec_jobCheckpoint (h : Hdr) (slot : Nat) (dest : Option Range) : exec (.jobCheckpoint h slot dest) s = execJobCheckpoint h slot dest s := rfl
theorem exec_jobInput (h : Hdr) (slot bar addr : Nat) (r : Range) (bytes : List Byte) : exec (.jobInput h slot bar addr r bytes) s = execJobInput h slot bar addr r bytes s := rfl
theorem exec_adaptRegister (h : Hdr) (f : AdaptF) (r : Range) (bytes : List Byte) : exec (.adaptRegister h f r bytes) s = execAdaptRegister h f r bytes s := rfl
theorem exec_adaptQuery (h : Hdr) (id : Nat) : exec (.adaptQuery h id) s = execAdaptQuery h id s := rfl
theorem exec_adaptRead (h : Hdr) (id : Nat) (r : Range) : exec (.adaptRead h id r) s = execAdaptRead h id r s := rfl
theorem exec_adaptUnregister (h : Hdr) (id : Nat) : exec (.adaptUnregister h id) s = execAdaptUnregister h id s := rfl
theorem exec_adaptClaim (h : Hdr) (slot aslot id prio : Nat) (cbar : Option Nat) : exec (.adaptClaim h slot aslot id prio cbar) s = execAdaptClaim h slot aslot id prio cbar s := rfl
theorem exec_adaptRelease (h : Hdr) (slot aslot : Nat) (cbar : Option Nat) : exec (.adaptRelease h slot aslot cbar) s = execAdaptRelease h slot aslot cbar s := rfl
theorem exec_adaptRevoke (h : Hdr) (id : Nat) : exec (.adaptRevoke h id) s = execAdaptRevoke h id s := rfl
theorem exec_adaptGrant (h : Hdr) (id : Nat) (add : Bool) (context : Nat) : exec (.adaptGrant h id add context) s = execAdaptGrant h id add context s := rfl
theorem exec_adaptProbe (h : Hdr) (id slot aslot items : Nat) (tol : Word) (set refs : Range) (ref : List Word) (setBytes : List Byte) : exec (.adaptProbe h id slot aslot items tol set refs ref setBytes) s = execAdaptProbe h id slot aslot items tol set refs ref setBytes s := rfl
theorem exec_reqSubmit (h : Hdr) (f : ReqF) : exec (.reqSubmit h f) s = execReqSubmit h f s := rfl
theorem exec_reqCancel (h : Hdr) (id : Nat) : exec (.reqCancel h id) s = execReqCancel h id s := rfl
theorem exec_sessOpen (h : Hdr) (maxPages : Nat) : exec (.sessOpen h maxPages) s = execSessOpen h maxPages s := rfl
theorem exec_sessClose (h : Hdr) (sid : Nat) : exec (.sessClose h sid) s = execSessClose h sid s := rfl
theorem exec_tenantOpen (h : Hdr) (context : Nat) (key : List Byte) : exec (.tenantOpen h context key) s = execTenantOpen h context key s := rfl
theorem exec_tenantQuota (h : Hdr) (context mask : Nat) (q : Quotas) : exec (.tenantQuota h context mask q) s = execTenantQuota h context mask q s := rfl
theorem exec_tenantClose (h : Hdr) (context : Nat) : exec (.tenantClose h context) s = execTenantClose h context s := rfl
theorem exec_attestReport (h : Hdr) (nonce : List Byte) (view : Nat) (r : Range) : exec (.attestReport h nonce view r) s = execAttestReport h nonce view r s := rfl
theorem exec_keyRotate (h : Hdr) (target cls : Nat) : exec (.keyRotate h target cls) s = execKeyRotate h target cls s := rfl
theorem exec_configStage (h : Hdr) (r : Range) (image : SetupImage) : exec (.configStage h r image) s = execConfigStage h r image s := rfl
theorem exec_fwStage (h : Hdr) (r : Range) (image : FwImage) : exec (.fwStage h r image) s = execFwStage h r image s := rfl
theorem exec_prinKey (h : Hdr) (retire : Bool) (key : List Byte) : exec (.prinKey h retire key) s = execPrinKey h retire key s := rfl
theorem exec_logRead (h : Hdr) (first count : Nat) (r : Range) : exec (.logRead h first count r) s = execLogRead h first count r s := rfl
theorem exec_sealReturn (h : Hdr) (confirm : List Byte) : exec (.sealReturn h confirm) s = execSealReturn h confirm s := rfl
theorem exec_powerUpStart (obs : StartObs) : exec (.powerUpStart obs) s = execPowerUpStart obs s := rfl
theorem exec_resetNAssert : exec (.resetNAssert) s = execResetNAssert s := rfl
theorem exec_pwrOkFall : exec (.pwrOkFall) s = execPwrOkFall s := rfl
theorem exec_inputPowerLoss : exec (.inputPowerLoss) s = execInputPowerLoss s := rfl
theorem exec_thermalComparatorTrip (hand : Nat) : exec (.thermalComparatorTrip hand) s = execThermalComparatorTrip hand s := rfl
theorem exec_refclkLoss (eth : Bool) (lost : Bool) : exec (.refclkLoss eth lost) s = execRefclkLoss eth lost s := rfl
theorem exec_batonConfirm (hand : Nat) (ok : Bool) (t : Nat) : exec (.batonConfirm hand ok t) s = execBatonConfirm hand ok t s := rfl
theorem exec_timekeeperResetTimeout (t : Nat) : exec (.timekeeperResetTimeout t) s = execTimekeeperResetTimeout t s := rfl
theorem exec_handFault (hand : Nat) (cause : Nat) (t : Nat) : exec (.handFault hand cause t) s = execHandFault hand cause t s := rfl
theorem exec_handRestartDone (hand : Nat) (obs : StartObs) : exec (.handRestartDone hand obs) s = execHandRestartDone hand obs s := rfl
theorem exec_hubSelfRestart (t : Nat) : exec (.hubSelfRestart t) s = execHubSelfRestart t s := rfl
theorem exec_powerControlWindow (t : Nat) (mean hand0 hand1 volts10mV : Nat) : exec (.powerControlWindow t mean hand0 hand1 volts10mV) s = execPowerControlWindow t mean hand0 hand1 volts10mV s := rfl
theorem exec_junctionTemperatureSample (hand sensor temp16 : Nat) (t : Nat) : exec (.junctionTemperatureSample hand sensor temp16 t) s = execJunctionTemperatureSample hand sensor temp16 t s := rfl
theorem exec_monitorPeriodicSample (block inst value : Nat) (t : Nat) : exec (.monitorPeriodicSample block inst value t) s = execMonitorPeriodicSample block inst value t s := rfl
theorem exec_retuneInterval (hand : Nat) (t : Nat) : exec (.retuneInterval hand t) s = execRetuneInterval hand t s := rfl
theorem exec_ageingMeasurementDone (hand : Nat) (obs : StartObs) : exec (.ageingMeasurementDone hand obs) s = execAgeingMeasurementDone hand obs s := rfl
theorem exec_logStageFlush : exec (.logStageFlush) s = execLogStageFlush s := rfl
theorem exec_logSignatureTimer : exec (.logSignatureTimer) s = execLogSignatureTimer s := rfl
theorem exec_verdictRunEntryClose (slot : Nat) : exec (.verdictRunEntryClose slot) s = execVerdictRunEntryClose slot s := rfl
theorem exec_ethLinkDown : exec (.ethLinkDown) s = execEthLinkDown s := rfl
theorem exec_nonMbaingFrame : exec (.nonMbaingFrame) s = execNonMbaingFrame s := rfl
theorem exec_tempoChangeComplete (hand : Nat) (t : Nat) : exec (.tempoChangeComplete hand t) s = execTempoChangeComplete hand t s := rfl
theorem exec_makerUnseal (responseOk : Bool) : exec (.makerUnseal responseOk) s = execMakerUnseal responseOk s := rfl

end Sys2Proof.Machine
end

