-- ==== Sys2Proof/Laws/Host.lean ====
section
/-! SUPPORT. The host's side of the device: records, notices, samples, log entries and completions change the peal queues,
sessions, kept records, the list of accepted commands, monitors and the change log, and nothing else. -/

namespace Sys2Proof.Machine

open Sys2Proof.Safety

/-- Only the host's side of the device may differ. -/
def HostOnly (s t : State) : Prop := withHostSide s t = s

@[simp] theorem HostOnly.refl (s : State) : HostOnly s s := rfl

theorem HostOnly.trans {s t u : State} (a : HostOnly s t) (b : HostOnly t u) : HostOnly s u := by
  have : withHostSide s u = withHostSide s (withHostSide t u) := rfl
  unfold HostOnly at *
  rw [this, b, a]

theorem HostOnly.after {s t u : State} (b : HostOnly t u) (a : HostOnly s t) : HostOnly s u := a.trans b

/-- What a fold over steps that keep all but the host's side does. -/
theorem HostOnly.foldl {α : Type} (f : State → α → State) (hf : ∀ s a, HostOnly s (f s a)) (l : List α) (s : State) :
    HostOnly s (l.foldl f s) := by
  induction l generalizing s with
  | nil => rfl
  | cons a l ih => exact (hf s a).trans (ih _)

theorem hostOnly_closeItem (c : Nat) (i : PealItem) (s : State) : HostOnly s (closeItem c i s).2 := rfl

theorem hostOnly_closeOpen (c : Nat) (s : State) : HostOnly s (closeOpen c s) := by
  unfold closeOpen; simp only
  repeat' split
  all_goals rfl

theorem hostOnly_outAppend0 (c : Nat) (i : PealItem) (s : State) : HostOnly s (outAppend0 c i s) := by
  unfold outAppend0; simp only
  refine (hostOnly_closeOpen c s).trans ?_
  repeat' split
  all_goals rfl

theorem hostOnly_outRecord0 (c sess ftype ref : Nat) (rec : List Byte) (reqs : List Nat) (s : State) :
    HostOnly s (outRecord0 c sess ftype ref rec reqs s) := by
  unfold outRecord0; simp only
  split
  · split
    · split
      · exact (hostOnly_closeOpen c _).after rfl
      · rfl
    · exact hostOnly_outAppend0 ..
  · exact hostOnly_outAppend0 ..

theorem hostOnly_noticeBy (put : Nat → Nat → Nat → Nat → List Byte → List Nat → State → State)
    (hp : ∀ a b c d e f s, HostOnly s (put a b c d e f s)) (n : Notice) (s : State) : HostOnly s (noticeBy put n s) := by
  unfold noticeBy; simp only
  split
  · rfl
  · exact HostOnly.foldl _ (fun s a => hp ..) _ _

theorem hostOnly_watchOut (b : Nat) (s : State) : HostOnly s (watchOut b s) := by
  unfold watchOut; simp only
  split
  · exact (hostOnly_noticeBy outRecord0 hostOnly_outRecord0 _ _).after rfl
  · rfl

theorem hostOnly_watchIn (b : Nat) (s : State) : HostOnly s (watchIn b s) := by
  unfold watchIn; simp only
  split
  · exact (hostOnly_noticeBy outRecord0 hostOnly_outRecord0 _ _).after rfl
  · rfl

theorem hostOnly_outAppend (c : Nat) (i : PealItem) (s : State) : HostOnly s (outAppend c i s) :=
  (hostOnly_outAppend0 c i s).trans (hostOnly_watchOut ..)

theorem hostOnly_outRecord (c sess ftype ref : Nat) (rec : List Byte) (reqs : List Nat) (s : State) :
    HostOnly s (outRecord c sess ftype ref rec reqs s) :=
  (hostOnly_outRecord0 c sess ftype ref rec reqs s).trans (hostOnly_watchOut ..)

theorem hostOnly_outDrain (n : Nat) (s : State) : HostOnly s (outDrain n s) := by
  induction n generalizing s with
  | zero => rfl
  | succ n ih =>
    unfold outDrain
    split
    · rfl
    · split
      · exact ((ih _).after (hostOnly_outAppend _ _ _)).after rfl
      · rfl

/-- A notice goes to sessions or to the kept records. -/
theorem hostOnly_notice (code scope subject bar : Nat) (detail : List Byte) (s : State) :
    HostOnly s (notice code scope subject bar detail s) :=
  hostOnly_noticeBy outRecord hostOnly_outRecord _ _

theorem hostOnly_sendCpl (sess cls ref opcode status kind detail : Nat) (prin result : List Byte) (s : State) :
    HostOnly s (sendCpl sess cls ref opcode status kind detail prin result s) := by
  unfold sendCpl; simp only
  repeat' split
  all_goals first
    | exact hostOnly_outAppend ..
    | rfl

theorem hostOnly_monSample (block inst x : Nat) (s : State) : HostOnly s (monSample block inst x s) := by
  unfold monSample; simp only
  split <;> rfl

theorem hostOnly_logPush (e : LogEntry) (s : State) : HostOnly s (logPush e s) := rfl

theorem hostOnly_logAdd (e : LogEntry) (s : State) : HostOnly s (logAdd e s) := by
  unfold logAdd logTruncate
  split
  · exact (hostOnly_logPush _ _).after rfl
  · rfl

theorem hostOnly_logChange (w : Wait) (slot bar : Nat) (detail : List Byte) (s : State) :
    HostOnly s (logChange w slot bar detail s) := hostOnly_logAdd ..

theorem hostOnly_logInternal (cause status slot context bar : Nat) (detail : List Byte) (s : State) :
    HostOnly s (logInternal cause status slot context bar detail s) := hostOnly_logAdd ..

theorem hostOnly_settleInq (s : State) : HostOnly s (settleInq s) := by
  unfold settleInq
  refine HostOnly.foldl _ (fun s c => ?_) _ _
  simp only
  split <;> rfl

/-- A completion leaves by the host's side and changes nothing else (16 R464, R465). -/
theorem hostOnly_complete (w : Wait) (status detail : Nat) (result : List Byte) (s : State) :
    HostOnly s (complete w status detail result s) := by
  unfold complete
  exact (((hostOnly_sendCpl ..).after (hostOnly_settleInq _)).after (hostOnly_monSample 2 6 _ _)).after rfl

theorem hostOnly_finished (w : Wait) (slot : Nat) (detail result : List Byte) (u : State) :
    HostOnly u (finished w slot detail result u) :=
  (hostOnly_logChange ..).trans (hostOnly_complete ..)

theorem hostOnly_takeCmd (h : Hdr) (s : State) : HostOnly s (takeCmd h s) := by rw [takeCmd_frame]; rfl

theorem hostOnly_sendEarly (w : Wait) (status kind : Nat) (result : List Byte) (s : State) :
    HostOnly s (sendEarly w status kind result s) := hostOnly_sendCpl ..

/-- Every field but the host's is as before. -/
theorem HostOnly.fields {s t : State} (h : HostOnly s t) :
    t.pending = s.pending ∧ t.dev = s.dev ∧ t.hands = s.hands ∧ t.pwr = s.pwr ∧ t.ptp = s.ptp ∧ t.nor = s.nor ∧
      t.setup = s.setup ∧ t.cores = s.cores ∧ t.parts = s.parts ∧ t.slots = s.slots ∧ t.net = s.net ∧
      t.streams = s.streams ∧ t.mem = s.mem ∧ t.pages = s.pages ∧ t.regions = s.regions ∧ t.base = s.base ∧
      t.tenants = s.tenants ∧ t.registry = s.registry ∧ t.reqs = s.reqs ∧ t.sess = s.sess ∧ t.ports = s.ports ∧
      t.free = s.free ∧ t.refuseRuns = s.refuseRuns ∧ t.winReads = s.winReads := by
  unfold HostOnly withHostSide at h
  rw [← h]
  exact ⟨rfl, rfl, rfl, rfl, rfl, rfl, rfl, rfl, rfl, rfl, rfl, rfl, rfl, rfl, rfl, rfl, rfl, rfl, rfl, rfl, rfl, rfl,
    rfl, rfl⟩

end Sys2Proof.Machine
end

