-- ==== Sys2Proof/Laws/PerInstr.lean ====
section
/-! SUPPORT. What holds of every command as syntax, constructor by constructor: no command is both a core step and a host
command, and the core, control bits and instruction of a well-formed core step, and the header of a well-formed host
command, are well formed. -/

namespace Sys2Proof.Laws.Parts

/-- A command's parts. -/
def Statement (i : Instr) : Prop :=
  (i.coreStep = none ∨ i.header = none) ∧
    (i.wf = true → (∀ p, i.coreStep = some p → p.1.wf = true ∧ p.2.1.wf = true ∧ p.2.2.wf = true) ∧
      ∀ h, i.header = some h → h.wf = true)

/-- The second clause follows from the definition of `wf` alone. -/
theorem of_apart (i : Instr) (h : i.coreStep = none ∨ i.header = none) : Statement i := by
  refine ⟨h, fun hw => ?_⟩
  simp only [Instr.wf, Bool.and_eq_true] at hw
  refine ⟨fun p hp => ?_, fun x hx => ?_⟩
  · have h1 := hw.1
    rw [hp] at h1
    simp only [Bool.and_eq_true] at h1
    exact ⟨h1.1.1, h1.1.2, h1.2⟩
  · have h2 := hw.2
    rw [hx] at h2
    exact h2

theorem nop (c : CoreRef) (k : Ctl) : Statement (.nop c k) := of_apart _ (.inr rfl)
theorem loop (c : CoreRef) (k : Ctl) (xc : Nat) (count : Opnd) (body : Nat) : Statement (.loop c k xc count body) := of_apart _ (.inr rfl)
theorem waitBeat (c : CoreRef) (k : Ctl) (target : Nat) (rel : Bool) : Statement (.waitBeat c k target rel) := of_apart _ (.inr rfl)
theorem rest (c : CoreRef) (k : Ctl) (win : Nat) : Statement (.rest c k win) := of_apart _ (.inr rfl)
theorem finish (c : CoreRef) (k : Ctl) : Statement (.finish c k) := of_apart _ (.inr rfl)
theorem xOp (c : CoreRef) (k : Ctl) (xd xa xb fn : Nat) : Statement (.xOp c k xd xa xb fn) := of_apart _ (.inr rfl)
theorem xOpi (c : CoreRef) (k : Ctl) (xd xa fn : Nat) (imm : Word) : Statement (.xOpi c k xd xa fn imm) := of_apart _ (.inr rfl)
theorem xSet (c : CoreRef) (k : Ctl) (xd : Nat) (imm : Word) : Statement (.xSet c k xd imm) := of_apart _ (.inr rfl)
theorem xGet (c : CoreRef) (k : Ctl) (xd src : Nat) : Statement (.xGet c k xd src) := of_apart _ (.inr rfl)
theorem mCmp (c : CoreRef) (k : Ctl) (md xa : Nat) (rhs : CmpRhs) (cc : Nat) : Statement (.mCmp c k md xa rhs cc) := of_apart _ (.inr rfl)
theorem mRange (c : CoreRef) (k : Ctl) (md : Nat) (lo hi : Opnd) : Statement (.mRange c k md lo hi) := of_apart _ (.inr rfl)
theorem mLogic (c : CoreRef) (k : Ctl) (md ma mb fn : Nat) : Statement (.mLogic c k md ma mb fn) := of_apart _ (.inr rfl)
theorem ml (c : CoreRef) (k : Ctl) (f : MlF) (ecc : Bool) : Statement (.ml c k f ecc) := of_apart _ (.inr rfl)
theorem mm (c : CoreRef) (k : Ctl) (f : MmF) (ecc : Bool) : Statement (.mm c k f ecc) := of_apart _ (.inr rfl)
theorem mmCompletionToken (c : CoreRef) : Statement (.mmCompletionToken c) := of_apart _ (.inl rfl)
theorem md (c : CoreRef) (k : Ctl) (f : MdF) (ecc : Bool) : Statement (.md c k f ecc) := of_apart _ (.inr rfl)
theorem mc (c : CoreRef) (k : Ctl) (f : McF) (ecc : Bool) : Statement (.mc c k f ecc) := of_apart _ (.inr rfl)
theorem chainStreamArrival (ix : Nat) : Statement (.chainStreamArrival ix) := of_apart _ (.inl rfl)
theorem vld (c : CoreRef) (k : Ctl) (f : VmF) (ecc : Bool) : Statement (.vld c k f ecc) := of_apart _ (.inr rfl)
theorem vst (c : CoreRef) (k : Ctl) (f : VmF) (ecc : Bool) : Statement (.vst c k f ecc) := of_apart _ (.inr rfl)
theorem roll (c : CoreRef) (k : Ctl) (f : RollF) (ecc : Bool) : Statement (.roll c k f ecc) := of_apart _ (.inr rfl)
theorem vperm (c : CoreRef) (k : Ctl) (f : VpermF) (ecc : Bool) : Statement (.vperm c k f ecc) := of_apart _ (.inr rfl)
theorem vflag (c : CoreRef) (k : Ctl) (xd : Nat) (clr : Bool) : Statement (.vflag c k xd clr) := of_apart _ (.inr rfl)
theorem send (c : CoreRef) (k : Ctl) (f : SendF) (ecc : Bool) : Statement (.send c k f ecc) := of_apart _ (.inr rfl)
theorem recv (c : CoreRef) (k : Ctl) (f : RecvF) (ecc : Bool) : Statement (.recv c k f ecc) := of_apart _ (.inr rfl)
theorem messageArrival (ix : Nat) (ecc : Bool) : Statement (.messageArrival ix ecc) := of_apart _ (.inl rfl)
theorem ghostPause (part : Nat) : Statement (.ghostPause part) := of_apart _ (.inl rfl)
theorem ghostSaveDone (part : Nat) : Statement (.ghostSaveDone part) := of_apart _ (.inl rfl)
theorem dma (c : CoreRef) (k : Ctl) (desc xo : Nat) : Statement (.dma c k desc xo) := of_apart _ (.inr rfl)
theorem dmaComplete (c : CoreRef) (ix : Nat) (err : Bool) : Statement (.dmaComplete c ix err) := of_apart _ (.inl rfl)
theorem dmaWait (c : CoreRef) (k : Ctl) (cnt : Nat) : Statement (.dmaWait c k cnt) := of_apart _ (.inr rfl)
theorem partitionScrubDone (part : Nat) : Statement (.partitionScrubDone part) := of_apart _ (.inl rfl)
theorem shadowCheckDone (c : CoreRef) : Statement (.shadowCheckDone c) := of_apart _ (.inl rfl)
theorem chainIntake (ix : Nat) : Statement (.chainIntake ix) := of_apart _ (.inl rfl)
theorem routeContribution (ix : Nat) : Statement (.routeContribution ix) := of_apart _ (.inl rfl)
theorem gradientIntake (slot : Nat) (red : Nat) : Statement (.gradientIntake slot red) := of_apart _ (.inl rfl)
theorem updateElement (slot : Nat) (entry : Nat) (err : Bool) : Statement (.updateElement slot entry err) := of_apart _ (.inl rfl)
theorem outcomeReport (ix : Nat) : Statement (.outcomeReport ix) := of_apart _ (.inl rfl)
theorem shardFetchArrival (slot : Nat) (shard : Nat) (version : Version) (bytes : List Byte) : Statement (.shardFetchArrival slot shard version bytes) := of_apart _ (.inl rfl)
theorem gatherArrival (slot : Nat) (gather : Nat) (version : Version) (bytes : List Byte) : Statement (.gatherArrival slot gather version bytes) := of_apart _ (.inl rfl)
theorem handDrained (slot : Nat) (hand : Nat) : Statement (.handDrained slot hand) := of_apart _ (.inl rfl)
theorem barWordsCombined (slot : Nat) (others : List (Nat × Bool)) : Statement (.barWordsCombined slot others) := of_apart _ (.inl rfl)
theorem voteEnter (slot : Nat) : Statement (.voteEnter slot) := of_apart _ (.inl rfl)
theorem downbeatVerdict (slot : Nat) (others : List Vote) (block : OutBlock) : Statement (.downbeatVerdict slot others block) := of_apart _ (.inl rfl)
theorem barOpen (slot : Nat) : Statement (.barOpen slot) := of_apart _ (.inl rfl)
theorem lookaheadOpen (slot : Nat) : Statement (.lookaheadOpen slot) := of_apart _ (.inl rfl)
theorem barTimeout (slot t : Nat) : Statement (.barTimeout slot t) := of_apart _ (.inl rfl)
theorem verdictQueryReply (slot : Nat) (member : Nat) (verdict : Option (Nat × Nat)) (block : OutBlock) : Statement (.verdictQueryReply slot member verdict block) := of_apart _ (.inl rfl)
theorem replicaComparison (slot : Nat) (recs : List (Nat × CmpRec)) : Statement (.replicaComparison slot recs) := of_apart _ (.inl rfl)
theorem samplerDraw (ix : Nat) : Statement (.samplerDraw ix) := of_apart _ (.inl rfl)
theorem promotionComplete (page : Nat) (err : Bool) : Statement (.promotionComplete page err) := of_apart _ (.inl rfl)
theorem demotionComplete (page : Nat) : Statement (.demotionComplete page) := of_apart _ (.inl rfl)
theorem pageZeroingDone (page : Nat) : Statement (.pageZeroingDone page) := of_apart _ (.inl rfl)
theorem baseScrubRead (mapping : Nat) (err : Bool) : Statement (.baseScrubRead mapping err) := of_apart _ (.inl rfl)
theorem baseReloadDone (mapping : Nat) (unread : List Nat) (peer : Option (List Byte)) : Statement (.baseReloadDone mapping unread peer) := of_apart _ (.inl rfl)
theorem pageRecoveryDone (page : Nat) (found : Option (List Byte)) : Statement (.pageRecoveryDone page found) := of_apart _ (.inl rfl)
theorem reencryptPage (page : Nat) (err : Bool) : Statement (.reencryptPage page err) := of_apart _ (.inl rfl)
theorem glPortTraining (port : Nat) (lanes : Nat) (peerDev peerPort : Nat) : Statement (.glPortTraining port lanes peerDev peerPort) := of_apart _ (.inl rfl)
theorem glFrameReceive (port : Nat) (f : GlFrame) : Statement (.glFrameReceive port f) := of_apart _ (.inl rfl)
theorem glControlFrame (port : Nat) (f : GlCtl) : Statement (.glControlFrame port f) := of_apart _ (.inl rfl)
theorem glControlSendTimer (port : Nat) : Statement (.glControlSendTimer port) := of_apart _ (.inl rfl)
theorem glClassRewind (port : Nat) (cls : Nat) : Statement (.glClassRewind port cls) := of_apart _ (.inl rfl)
theorem glPortDown (port : Nat) : Statement (.glPortDown port) := of_apart _ (.inl rfl)
theorem ethLinkTraining (l01 l23 : Bool) : Statement (.ethLinkTraining l01 l23) := of_apart _ (.inl rfl)
theorem arpRequest (ip : Nat) : Statement (.arpRequest ip) := of_apart _ (.inl rfl)
theorem assoc (src : Nat) (nonce : List Byte) : Statement (.assoc src nonce) := of_apart _ (.inl rfl)
theorem openStep1 (f : MbFrame) (key xkey nonce : List Byte) (contexts : List Nat) (window : Nat) : Statement (.openStep1 f key xkey nonce contexts window) := of_apart _ (.inl rfl)
theorem openStep3 (f : MbFrame) (sigOk : Bool) : Statement (.openStep3 f sigOk) := of_apart _ (.inl rfl)
theorem cmdFrame (f : MbFrame) : Statement (.cmdFrame f) := of_apart _ (.inl rfl)
theorem ackFrame (f : MbFrame) (next : List Nat) : Statement (.ackFrame f next) := of_apart _ (.inl rfl)
theorem ackSendTimer : Statement (.ackSendTimer) := of_apart _ (.inl rfl)
theorem wdataFrame (f : MbFrame) : Statement (.wdataFrame f) := of_apart _ (.inl rfl)
theorem closeFrame (f : MbFrame) : Statement (.closeFrame f) := of_apart _ (.inl rfl)
theorem retransmitTimeout (cls t : Nat) : Statement (.retransmitTimeout cls t) := of_apart _ (.inl rfl)
theorem outboundFrameSend : Statement (.outboundFrameSend) := of_apart _ (.inl rfl)
theorem noticePacketClose (sess t : Nat) : Statement (.noticePacketClose sess t) := of_apart _ (.inl rfl)
theorem sessionIdleTimeout (sess t : Nat) : Statement (.sessionIdleTimeout sess t) := of_apart _ (.inl rfl)
theorem lingerExpiry (ix t : Nat) : Statement (.lingerExpiry ix t) := of_apart _ (.inl rfl)
theorem windowTimeout (sess ref t : Nat) : Statement (.windowTimeout sess ref t) := of_apart _ (.inl rfl)
theorem parkedItemResume (cls : Nat) : Statement (.parkedItemResume cls) := of_apart _ (.inl rfl)
theorem ptpSync (domain : Nat) (time : Nat) (t : Nat) : Statement (.ptpSync domain time t) := of_apart _ (.inl rfl)
theorem ptpHoldover (t : Nat) : Statement (.ptpHoldover t) := of_apart _ (.inl rfl)
theorem stateRead (h : Hdr) (words : List (Nat × Nat)) : Statement (.stateRead h words) := of_apart _ (.inl rfl)
theorem deviceReset (h : Hdr) (confirm : List Byte) : Statement (.deviceReset h confirm) := of_apart _ (.inl rfl)
theorem portLevel (h : Hdr) (queue kib : Nat) : Statement (.portLevel h queue kib) := of_apart _ (.inl rfl)
theorem baseLoad (h : Hdr) (man image : Range) (golden : Nat) (m : Manifest) (bytes : List Byte) : Statement (.baseLoad h man image golden m bytes) := of_apart _ (.inl rfl)
theorem pwrCap (h : Hdr) (watts : Nat) : Statement (.pwrCap h watts) := of_apart _ (.inl rfl)
theorem scoreLoad (h : Hdr) (slot : Nat) (r : Range) (file : List Byte) : Statement (.scoreLoad h slot r file) := of_apart _ (.inl rfl)
theorem scoreUnload (h : Hdr) (slot : Nat) : Statement (.scoreUnload h slot) := of_apart _ (.inl rfl)
theorem jobStart (h : Hdr) (f : StartF) : Statement (.jobStart h f) := of_apart _ (.inl rfl)
theorem jobStop (h : Hdr) (slot mode after : Nat) (ckpt : Bool) : Statement (.jobStop h slot mode after ckpt) := of_apart _ (.inl rfl)
theorem jobBind (h : Hdr) (slot part : Nat) : Statement (.jobBind h slot part) := of_apart _ (.inl rfl)
theorem jobAdmit (h : Hdr) (slot rank epoch device : Nat) (ident : List Byte) (tables : Option JobTables) : Statement (.jobAdmit h slot rank epoch device ident tables) := of_apart _ (.inl rfl)
theorem jobReshard (h : Hdr) (old new : Nat) (forced : Bool) (map : List (Nat × Nat × List Byte)) (tables : Option JobTables) : Statement (.jobReshard h old new forced map tables) := of_apart _ (.inl rfl)
theorem jobNorms (h : Hdr) (slot first count : Nat) (r : Range) : Statement (.jobNorms h slot first count r) := of_apart _ (.inl rfl)
theorem jobCheckpoint (h : Hdr) (slot : Nat) (dest : Option Range) : Statement (.jobCheckpoint h slot dest) := of_apart _ (.inl rfl)
theorem jobInput (h : Hdr) (slot bar addr : Nat) (r : Range) (bytes : List Byte) : Statement (.jobInput h slot bar addr r bytes) := of_apart _ (.inl rfl)
theorem adaptRegister (h : Hdr) (f : AdaptF) (r : Range) (bytes : List Byte) : Statement (.adaptRegister h f r bytes) := of_apart _ (.inl rfl)
theorem adaptQuery (h : Hdr) (id : Nat) : Statement (.adaptQuery h id) := of_apart _ (.inl rfl)
theorem adaptRead (h : Hdr) (id : Nat) (r : Range) : Statement (.adaptRead h id r) := of_apart _ (.inl rfl)
theorem adaptUnregister (h : Hdr) (id : Nat) : Statement (.adaptUnregister h id) := of_apart _ (.inl rfl)
theorem adaptClaim (h : Hdr) (slot aslot id prio : Nat) (cbar : Option Nat) : Statement (.adaptClaim h slot aslot id prio cbar) := of_apart _ (.inl rfl)
theorem adaptRelease (h : Hdr) (slot aslot : Nat) (cbar : Option Nat) : Statement (.adaptRelease h slot aslot cbar) := of_apart _ (.inl rfl)
theorem adaptRevoke (h : Hdr) (id : Nat) : Statement (.adaptRevoke h id) := of_apart _ (.inl rfl)
theorem adaptGrant (h : Hdr) (id : Nat) (add : Bool) (context : Nat) : Statement (.adaptGrant h id add context) := of_apart _ (.inl rfl)
theorem adaptProbe (h : Hdr) (id slot aslot items : Nat) (tol : Word) (set refs : Range) (ref : List Word) (setBytes : List Byte) : Statement (.adaptProbe h id slot aslot items tol set refs ref setBytes) := of_apart _ (.inl rfl)
theorem reqSubmit (h : Hdr) (f : ReqF) : Statement (.reqSubmit h f) := of_apart _ (.inl rfl)
theorem reqCancel (h : Hdr) (id : Nat) : Statement (.reqCancel h id) := of_apart _ (.inl rfl)
theorem sessOpen (h : Hdr) (maxPages : Nat) : Statement (.sessOpen h maxPages) := of_apart _ (.inl rfl)
theorem sessClose (h : Hdr) (sid : Nat) : Statement (.sessClose h sid) := of_apart _ (.inl rfl)
theorem tenantOpen (h : Hdr) (context : Nat) (key : List Byte) : Statement (.tenantOpen h context key) := of_apart _ (.inl rfl)
theorem tenantQuota (h : Hdr) (context mask : Nat) (q : Quotas) : Statement (.tenantQuota h context mask q) := of_apart _ (.inl rfl)
theorem tenantClose (h : Hdr) (context : Nat) : Statement (.tenantClose h context) := of_apart _ (.inl rfl)
theorem attestReport (h : Hdr) (nonce : List Byte) (view : Nat) (r : Range) : Statement (.attestReport h nonce view r) := of_apart _ (.inl rfl)
theorem keyRotate (h : Hdr) (target cls : Nat) : Statement (.keyRotate h target cls) := of_apart _ (.inl rfl)
theorem configStage (h : Hdr) (r : Range) (image : SetupImage) : Statement (.configStage h r image) := of_apart _ (.inl rfl)
theorem fwStage (h : Hdr) (r : Range) (image : FwImage) : Statement (.fwStage h r image) := of_apart _ (.inl rfl)
theorem prinKey (h : Hdr) (retire : Bool) (key : List Byte) : Statement (.prinKey h retire key) := of_apart _ (.inl rfl)
theorem logRead (h : Hdr) (first count : Nat) (r : Range) : Statement (.logRead h first count r) := of_apart _ (.inl rfl)
theorem sealReturn (h : Hdr) (confirm : List Byte) : Statement (.sealReturn h confirm) := of_apart _ (.inl rfl)
theorem powerUpStart (obs : StartObs) : Statement (.powerUpStart obs) := of_apart _ (.inl rfl)
theorem resetNAssert : Statement (.resetNAssert) := of_apart _ (.inl rfl)
theorem pwrOkFall : Statement (.pwrOkFall) := of_apart _ (.inl rfl)
theorem inputPowerLoss : Statement (.inputPowerLoss) := of_apart _ (.inl rfl)
theorem thermalComparatorTrip (hand : Nat) : Statement (.thermalComparatorTrip hand) := of_apart _ (.inl rfl)
theorem refclkLoss (eth : Bool) (lost : Bool) : Statement (.refclkLoss eth lost) := of_apart _ (.inl rfl)
theorem batonConfirm (hand : Nat) (ok : Bool) (t : Nat) : Statement (.batonConfirm hand ok t) := of_apart _ (.inl rfl)
theorem timekeeperResetTimeout (t : Nat) : Statement (.timekeeperResetTimeout t) := of_apart _ (.inl rfl)
theorem handFault (hand : Nat) (cause : Nat) (t : Nat) : Statement (.handFault hand cause t) := of_apart _ (.inl rfl)
theorem handRestartDone (hand : Nat) (obs : StartObs) : Statement (.handRestartDone hand obs) := of_apart _ (.inl rfl)
theorem hubSelfRestart (t : Nat) : Statement (.hubSelfRestart t) := of_apart _ (.inl rfl)
theorem powerControlWindow (t : Nat) (mean hand0 hand1 volts10mV : Nat) : Statement (.powerControlWindow t mean hand0 hand1 volts10mV) := of_apart _ (.inl rfl)
theorem junctionTemperatureSample (hand sensor temp16 : Nat) (t : Nat) : Statement (.junctionTemperatureSample hand sensor temp16 t) := of_apart _ (.inl rfl)
theorem monitorPeriodicSample (block inst value : Nat) (t : Nat) : Statement (.monitorPeriodicSample block inst value t) := of_apart _ (.inl rfl)
theorem retuneInterval (hand : Nat) (t : Nat) : Statement (.retuneInterval hand t) := of_apart _ (.inl rfl)
theorem ageingMeasurementDone (hand : Nat) (obs : StartObs) : Statement (.ageingMeasurementDone hand obs) := of_apart _ (.inl rfl)
theorem logStageFlush : Statement (.logStageFlush) := of_apart _ (.inl rfl)
theorem logSignatureTimer : Statement (.logSignatureTimer) := of_apart _ (.inl rfl)
theorem verdictRunEntryClose (slot : Nat) : Statement (.verdictRunEntryClose slot) := of_apart _ (.inl rfl)
theorem ethLinkDown : Statement (.ethLinkDown) := of_apart _ (.inl rfl)
theorem nonMbaingFrame : Statement (.nonMbaingFrame) := of_apart _ (.inl rfl)
theorem tempoChangeComplete (hand : Nat) (t : Nat) : Statement (.tempoChangeComplete hand t) := of_apart _ (.inl rfl)
theorem makerUnseal (responseOk : Bool) : Statement (.makerUnseal responseOk) := of_apart _ (.inl rfl)

end Sys2Proof.Laws.Parts
end

