-- ==== Sys2Proof/Laws/Shared.lean ====
section
/-! SUPPORT. What the operations that the meanings share can do, said once: the writes of the tiers change memory and what
goes with its pages, the link interface and the collectives change the ports, flows and slots, and the lines that an
instruction waits for are those that its operands name. -/

namespace Sys2Proof.Machine

/-! ## Writes of the tiers -/

/-- Only memory, its pages and the versions of its lines may differ. -/
def TiersOnly (s t : State) : Prop :=
  { t with mem := s.mem, pages := s.pages, versions := s.versions, verRoot := s.verRoot } = s

theorem TiersOnly.trans {s t u : State} (a : TiersOnly s t) (b : TiersOnly t u) : TiersOnly s u := by
  unfold TiersOnly at *
  rw [← b] at a
  exact a

theorem setVersions_mem (t : Table PageVer) (s : State) : (setVersions t s).mem = s.mem := rfl

theorem setVersions_only (t : Table PageVer) (s : State) : TiersOnly s (setVersions t s) := rfl

@[simp] theorem stepLines_mem (l : List (Nat × Nat)) (s : State) : (stepLines l s).mem = s.mem := by
  unfold stepLines; simp only; split <;> rfl

@[simp] theorem stepPages_mem (l : List Nat) (s : State) : (stepPages l s).mem = s.mem := by
  unfold stepPages; simp only; split <;> rfl

theorem stepLines_only (l : List (Nat × Nat)) (s : State) : TiersOnly s (stepLines l s) := by
  unfold stepLines; simp only; split <;> rfl

theorem stepPages_only (l : List Nat) (s : State) : TiersOnly s (stepPages l s) := by
  unfold stepPages; simp only; split <;> rfl

/-- A write of the tiers leaves the memory that it names. -/
@[simp] theorem writeTiers_mem (l : List (Nat × Nat)) (m : List Host.Cell) (s : State) : (writeTiers l m s).mem = m := by
  simp [writeTiers, usePages]

/-- A write of the tiers changes nothing but memory, its pages and its versions. -/
theorem writeTiers_only (l : List (Nat × Nat)) (m : List Host.Cell) (s : State) : TiersOnly s (writeTiers l m s) := by
  have h : TiersOnly s (stepLines l { s with mem := m }) := TiersOnly.trans (t := { s with mem := m }) rfl (stepLines_only ..)
  exact h.trans rfl

@[simp] theorem storeAt_mem (a : Nat) (bs : List Byte) (s : State) : (storeAt a bs s).mem = Mem.writeN s.mem a bs :=
  writeTiers_mem ..

theorem storeAt_only (a : Nat) (bs : List Byte) (s : State) : TiersOnly s (storeAt a bs s) := writeTiers_only ..

@[simp] theorem storeBoth_mem (a : Nat) (bs : List Byte) (s : State) : (storeBoth a bs s).mem = Mem.writeN s.mem a bs := by
  simp [storeBoth]

/-- Bytes laid over ranges keep the canonical form. -/
theorem wf_layBytes (l : List (Nat × Nat)) (bs : List Byte) (m : List Host.Cell) (h : Mem.wf m = true) :
    Mem.wf (layBytes l bs m) = true := by
  induction l generalizing bs m with
  | nil => exact h
  | cons r l ih => exact ih _ _ (Mem.wf_writeN _ _ _ h)

/-! ## The link interface -/

/-- Only slots, flows and ports may differ. -/
def LinksOnly (s t : State) : Prop := { t with slots := s.slots, flows := s.flows, ports := s.ports } = s

theorem LinksOnly.trans {s t u : State} (a : LinksOnly s t) (b : LinksOnly t u) : LinksOnly s u := by
  unfold LinksOnly at *
  rw [← b] at a
  exact a

theorem LinksOnly.foldl {α : Type} (f : State → α → State) (hf : ∀ s a, LinksOnly s (f s a)) (l : List α) (s : State) :
    LinksOnly s (l.foldl f s) := by
  induction l generalizing s with
  | nil => rfl
  | cons a l ih => exact (hf s a).trans (ih _)

theorem linkEnqueue_only (f : GlFrame) (s : State) : LinksOnly s (linkEnqueue f s) := by
  unfold linkEnqueue; split <;> rfl

theorem sendFrame_only (slot : Nat) (f : GlFrame) (s : State) : LinksOnly s (sendFrame slot f s) :=
  LinksOnly.trans (t := modJob slot (fun j => { j with frameCtr := j.frameCtr + 1 }) s) rfl (linkEnqueue_only ..)

/-- A collective record that leaves changes the frame counter, its flow and the ports. -/
theorem collSend_only (slot code bar run dst : Nat) (bytes : List Byte) (s : State) :
    LinksOnly s (collSend slot code bar run dst bytes s) := by
  unfold collSend
  repeat' split
  · rfl
  · rfl
  · exact LinksOnly.trans (t := setFlow _ s) rfl (LinksOnly.foldl _ (fun s i => sendFrame_only ..) _ _)

theorem collDown_only (slot code bar run : Nat) (bytes : List Byte) (s : State) :
    LinksOnly s (collDown slot code bar run bytes s) := by
  unfold collDown
  split
  · refine LinksOnly.trans ?_ (LinksOnly.foldl _ (fun s c => collSend_only ..) _ _)
    split <;> rfl
  · rfl

theorem pumpColl_only (slot code bar run : Nat) (s : State) : LinksOnly s (pumpColl slot code bar run s) := by
  unfold pumpColl; simp only
  repeat' split
  any_goals rfl
  · exact LinksOnly.trans (t := modJob slot _ s) rfl (collSend_only ..)
  · exact LinksOnly.trans (t := modJob slot _ s) rfl (collDown_only ..)

/-- What a rank contributes to a collective changes slots, flows and ports alone. -/
theorem contribColl_only (slot code bar run : Nat) (bytes : List Byte) (s : State) :
    LinksOnly s (contribColl slot code bar run bytes s) :=
  LinksOnly.trans (t := modJob slot _ s) rfl (pumpColl_only ..)

theorem enterVote_only (slot : Nat) (sc : Score) (j : Job) (r : Run) (cause : Nat) (s : State) :
    LinksOnly s (enterVote slot sc j r cause s) :=
  LinksOnly.trans (t := modJob slot _ s) rfl ((contribColl_only ..).trans (contribColl_only ..))

theorem voteCause_only (slot cause : Nat) (s : State) : LinksOnly s (voteCause slot cause s) := by
  unfold voteCause
  repeat' split
  any_goals rfl
  exact enterVote_only ..

/-! ## Operand lines -/

/-- A range that passes its check starts at the physical line of its logical one. -/
theorem chkLines_phys {e : Env} {wr : Bool} {l n p : Nat} (h : chkLines e wr l n = some p) : p = physLine e l := by
  unfold chkLines at h
  simp only at h
  repeat' split at h
  all_goals first | exact (Option.some.inj h).symm | cases h

/-- The lines that an instruction waits for are those that its operand names. -/
theorem fieldLines_operand {e : Env} {wr : Bool} {base x n : Nat} {p : Nat × Nat}
    (h : operandLines e wr base x 0 n = some p) : fieldLines e base x n = [(p.2, n)] := by
  unfold operandLines at h
  unfold fieldLines
  split at h
  · cases h
  · obtain ⟨q, hq, rfl⟩ := Option.map_eq_some_iff.mp h
    simp [chkLines_phys hq]

theorem operandRows_fold {e : Env} {wr : Bool} {l stride n : Nat} (rows : List Nat) {r : List (Nat × Nat)}
    (h : rows.foldr (fun t acc =>
      match acc, chkLines e wr (l + t * stride) n with
      | some r, some p => some ((t, p) :: r)
      | _, _ => none) (some []) = some r) : r = rows.map fun t => (t, physLine e (l + t * stride)) := by
  induction rows generalizing r with
  | nil => simpa using h.symm
  | cons t rows ih =>
    simp only [List.foldr_cons] at h
    split at h
    · rename_i a b ha hb
      have h1 := ih ha
      have h2 := chkLines_phys hb
      simp only [List.map_cons, ← h1, ← h2]
      exact (Option.some.inj h).symm
    · cases h

/-- The rows that an instruction waits for are those that its matrix operand names. -/
theorem fieldRows_operand {e : Env} {wr : Bool} {base x stride n : Nat} {rows : List Nat} {r : List (Nat × Nat)}
    (hr : rows ≠ []) (h : operandRows e wr base x stride n rows = some r) :
    fieldRows e base x stride n rows = r.map fun p => (p.2, n) := by
  have hne : rows.isEmpty = false := by cases rows <;> simp_all
  unfold operandRows at h
  rw [hne] at h
  unfold fieldRows
  split at h
  · simp_all
  · cases h
  · rename_i l hb hl
    rw [hl, operandRows_fold rows h]
    simp

/-- The rows of a tile that `ml` waits for are those that it reads. -/
theorem fieldTile_rows {e : Env} {t : Int} (rows : List Nat) {l : List (Nat × Nat)} (h : tileRows e t rows = some l) :
    fieldTile e t rows = l := by
  induction rows generalizing l with
  | nil => exact Option.some.inj h
  | cons r rows ih =>
    unfold tileRows at h
    simp only [List.foldr_cons] at h
    split at h
    · cases h
    · rename_i a ha
      repeat' split at h
      · cases h
      · cases h
      · rename_i hv _
        obtain ⟨p, hp, rfl⟩ := Option.map_eq_some_iff.mp h
        have hn : (t + (r : Int)).toNat * 16 = t.toNat * 16 + r * 16 := by simp at hv; omega
        rw [← ih ha, chkLines_phys hp, hn]
        rfl

end Sys2Proof.Machine
end

