-- ==== Sys2Proof/Tests/Slice0.lean ====
section
/-! SUPPORT. The model's own tests: ill-formed terms that are refused, instruction words written out from the spec's tables, single steps on
small states, and states that meet the hypotheses of the statements. -/

namespace Sys2Proof.Tests

open Sys2Proof.Machine Sys2Proof.Safety

/-! ## Ill-formed terms are refused -/

theorem test_wf_core_ref : CoreRef.wf ⟨64, false, 0, 0⟩ = false ∧ CoreRef.wf ⟨0, false, 16, 0⟩ = false ∧
    CoreRef.wf ⟨0, false, 0, 64⟩ = false := by decide

theorem test_wf_ctl : Ctl.wf { pm := 8 } = false := by decide

theorem test_wf_opnd : Opnd.wf 256 (.imm 257) = false ∧ Opnd.wf 256 (.reg 32) = false := by decide

theorem test_wf_loop : CoreInsn.wf (.loop 0 (.imm 1) 1) = false ∧ CoreInsn.wf (.loop 32 (.imm 1) 1) = false ∧
    CoreInsn.wf (.loop 1 (.imm 1048575) 1) = false ∧ CoreInsn.wf (.loop 1 (.imm 1) 0) = false ∧
    CoreInsn.wf (.loop 1 (.imm 1) 16383) = false := by decide

theorem test_wf_waits : CoreInsn.wf (.waitBeat 65536 false) = false ∧ CoreInsn.wf (.rest 64) = false ∧
    CoreInsn.wf (.dmaWait 16) = false := by decide

theorem test_wf_index : CoreInsn.wf (.xOp 0 1 1 0) = false ∧ CoreInsn.wf (.xOp 32 1 1 0) = false ∧
    CoreInsn.wf (.xOp 1 32 1 0) = false ∧ CoreInsn.wf (.xOp 1 1 32 0) = false ∧ CoreInsn.wf (.xOp 1 1 1 13) = false ∧
    CoreInsn.wf (.xOpi 0 1 0 0) = false ∧ CoreInsn.wf (.xOpi 32 1 0 0) = false ∧ CoreInsn.wf (.xOpi 1 32 0 0) = false ∧
    CoreInsn.wf (.xOpi 1 1 13 0) = false ∧ CoreInsn.wf (.xSet 0 0) = false ∧ CoreInsn.wf (.xSet 32 0) = false ∧
    CoreInsn.wf (.xGet 0 0) = false ∧ CoreInsn.wf (.xGet 32 0) = false ∧ CoreInsn.wf (.xGet 1 11) = false := by decide

theorem test_wf_mask : CoreInsn.wf (.mCmp 0 1 (.reg 1) 0) = false ∧ CoreInsn.wf (.mCmp 8 1 (.reg 1) 0) = false ∧
    CoreInsn.wf (.mCmp 1 32 (.reg 1) 0) = false ∧ CoreInsn.wf (.mCmp 1 1 (.reg 32) 0) = false ∧
    CoreInsn.wf (.mCmp 1 1 (.reg 1) 6) = false ∧ CoreInsn.wf (.mRange 0 (.imm 0) (.imm 0)) = false ∧
    CoreInsn.wf (.mRange 8 (.imm 0) (.imm 0)) = false ∧ CoreInsn.wf (.mRange 1 (.imm 257) (.imm 0)) = false ∧
    CoreInsn.wf (.mRange 1 (.imm 0) (.reg 32)) = false ∧ CoreInsn.wf (.mLogic 0 0 0 0) = false ∧
    CoreInsn.wf (.mLogic 8 0 0 0) = false ∧ CoreInsn.wf (.mLogic 1 8 0 0) = false ∧ CoreInsn.wf (.mLogic 1 0 8 0) = false ∧
    CoreInsn.wf (.mLogic 1 0 0 5) = false := by decide

theorem test_wf_ml : CoreInsn.wf (.ml ⟨0, 0, 1, 0, 0, 1, 0, false⟩) = false ∧ CoreInsn.wf (.ml ⟨9, 0, 1, 0, 0, 1, 0, false⟩) = false ∧
    CoreInsn.wf (.ml ⟨1, 4, 1, 0, 0, 1, 0, false⟩) = false ∧ CoreInsn.wf (.ml ⟨1, 0, 129, 0, 0, 1, 0, false⟩) = false ∧
    CoreInsn.wf (.ml ⟨1, 0, 1, 32, 0, 1, 0, false⟩) = false ∧ CoreInsn.wf (.ml ⟨1, 0, 1, 0, 4096, 1, 0, false⟩) = false ∧
    CoreInsn.wf (.ml ⟨1, 0, 1, 0, 0, 1023, 0, false⟩) = false ∧ CoreInsn.wf (.ml ⟨1, 0, 1, 0, 0, 1, 2, false⟩) = false := by
  decide

theorem test_wf_mm : CoreInsn.wf (.mm ⟨6, 1, false, false, 0, 0, 0, 0, 0⟩) = false ∧
    CoreInsn.wf (.mm ⟨0, 0, false, false, 0, 0, 0, 0, 0⟩) = false ∧ CoreInsn.wf (.mm ⟨0, 9, false, false, 0, 0, 0, 0, 0⟩) = false ∧
    CoreInsn.wf (.mm ⟨0, 1, false, false, 8, 0, 0, 0, 0⟩) = false ∧ CoreInsn.wf (.mm ⟨0, 1, false, false, 0, 513, 0, 0, 0⟩) = false ∧
    CoreInsn.wf (.mm ⟨0, 1, false, false, 0, 0, 32, 0, 0⟩) = false ∧
    CoreInsn.wf (.mm ⟨0, 1, false, false, 0, 0, 0, 65536, 0⟩) = false ∧
    CoreInsn.wf (.mm ⟨0, 1, false, false, 0, 0, 0, 0, 255⟩) = false := by decide

theorem test_wf_drain : CoreInsn.wf (.md ⟨3, false, 0, 0, 0, 0, 0⟩) = false ∧ CoreInsn.wf (.md ⟨0, false, 8, 0, 0, 0, 0⟩) = false ∧
    CoreInsn.wf (.md ⟨0, false, 0, 32, 0, 0, 0⟩) = false ∧ CoreInsn.wf (.md ⟨0, false, 0, 0, 65536, 0, 0⟩) = false ∧
    CoreInsn.wf (.md ⟨0, false, 0, 0, 0, 129, 0⟩) = false ∧ CoreInsn.wf (.md ⟨0, false, 0, 0, 0, 0, 255⟩) = false ∧
    CoreInsn.wf (.mc ⟨false, 8, 0, 0⟩) = false ∧ CoreInsn.wf (.mc ⟨false, 0, 2, 0⟩) = false ∧
    CoreInsn.wf (.mc ⟨false, 0, 0, 129⟩) = false := by decide

theorem test_wf_vector : CoreInsn.wf (.vld ⟨64, 0, 0, 0, 0⟩) = false ∧ CoreInsn.wf (.vld ⟨0, 257, 0, 0, 0⟩) = false ∧
    CoreInsn.wf (.vld ⟨0, 0, 10, 0, 0⟩) = false ∧ CoreInsn.wf (.vld ⟨0, 0, 0, 32, 0⟩) = false ∧
    CoreInsn.wf (.vld ⟨0, 0, 0, 0, 65536⟩) = false ∧ CoreInsn.wf (.vst ⟨64, 0, 0, 0, 0⟩) = false ∧
    CoreInsn.wf (.vst ⟨0, 257, 0, 0, 0⟩) = false ∧ CoreInsn.wf (.vst ⟨0, 0, 10, 0, 0⟩) = false ∧
    CoreInsn.wf (.vst ⟨0, 0, 0, 32, 0⟩) = false ∧ CoreInsn.wf (.vst ⟨0, 0, 0, 0, 65536⟩) = false ∧
    CoreInsn.wf (.vflag 32 false) = false := by decide

theorem test_wf_slots : CoreInsn.wf (.roll ⟨256, 0, 0, 0, 0, 0, 0, 0⟩) = false ∧ CoreInsn.wf (.roll ⟨0, 64, 0, 0, 0, 0, 0, 0⟩) = false ∧
    CoreInsn.wf (.roll ⟨0, 0, 64, 0, 0, 0, 0, 0⟩) = false ∧ CoreInsn.wf (.roll ⟨0, 0, 0, 64, 0, 0, 0, 0⟩) = false ∧
    CoreInsn.wf (.roll ⟨0, 0, 0, 0, 64, 0, 0, 0⟩) = false ∧ CoreInsn.wf (.roll ⟨0, 0, 0, 0, 0, 64, 0, 0⟩) = false ∧
    CoreInsn.wf (.roll ⟨0, 0, 0, 0, 0, 0, 257, 0⟩) = false ∧ CoreInsn.wf (.roll ⟨0, 0, 0, 0, 0, 0, 0, 8⟩) = false ∧
    CoreInsn.wf (.vperm ⟨64, 0, 0, 0⟩) = false ∧ CoreInsn.wf (.vperm ⟨0, 64, 0, 0⟩) = false ∧
    CoreInsn.wf (.vperm ⟨0, 0, 64, 0⟩) = false ∧ CoreInsn.wf (.vperm ⟨0, 0, 0, 257⟩) = false := by decide

theorem test_wf_moves : CoreInsn.wf (.send ⟨2, 0, 0, 0, 0⟩) = false ∧ CoreInsn.wf (.send ⟨0, 1024, 0, 0, 0⟩) = false ∧
    CoreInsn.wf (.send ⟨0, 0, 32, 0, 0⟩) = false ∧ CoreInsn.wf (.send ⟨0, 0, 0, 65536, 0⟩) = false ∧
    CoreInsn.wf (.send ⟨0, 0, 0, 0, 257⟩) = false ∧ CoreInsn.wf (.recv ⟨2, 0, 0, 0, 0, false, 0⟩) = false ∧
    CoreInsn.wf (.recv ⟨0, 1024, 0, 0, 0, false, 0⟩) = false ∧ CoreInsn.wf (.recv ⟨0, 0, 32, 0, 0, false, 0⟩) = false ∧
    CoreInsn.wf (.recv ⟨0, 0, 0, 65536, 0, false, 0⟩) = false ∧ CoreInsn.wf (.recv ⟨0, 0, 0, 0, 257, false, 0⟩) = false ∧
    CoreInsn.wf (.recv ⟨0, 0, 0, 0, 0, true, 32⟩) = false ∧ CoreInsn.wf (.dma 4096 0) = false ∧
    CoreInsn.wf (.dma 0 32) = false := by decide

theorem test_wf_header : Hdr.wf { (default : Hdr) with sess := 4096 } = false ∧
    Hdr.wf { (default : Hdr) with cls := 8 } = false ∧ Hdr.wf { (default : Hdr) with context := 4096 } = false ∧
    Instr.wf (.sessClose { (default : Hdr) with cls := 8 } 0) = false ∧
    Instr.wf (.nop ⟨64, false, 0, 0⟩ {}) = false := by decide

/-! ## Words written out field by field (03 R79, R82 to R89) -/

/-- The surroundings of a core that the words below are read in. -/
def cx : CodeCtx := ⟨false, true, 1, 1, 32, []⟩

theorem test_word_control : (readInsn cx (0x02 * 2 ^ 58 + 3 * 2 ^ 56 + 9 * 2 ^ 36)).1 = ⟨{ bw := .bs }, .waitBeat 9 false⟩ ∧
    (readInsn cx (0x01 * 2 ^ 58 + 1 * 2 ^ 47 + 1 * 2 ^ 46 + 4 * 2 ^ 26 + 2 * 2 ^ 12)).1 = ⟨{}, .loop 1 (.reg 4) 2⟩ ∧
    (readInsn cx (0x03 * 2 ^ 58 + 5 * 2 ^ 46)).1 = ⟨{}, .rest 5⟩ := by decide

theorem test_word_index : (readInsn cx (0x09 * 2 ^ 58 + 2 * 2 ^ 47 + 3 * 2 ^ 42 + 6 * 2 ^ 38 + 31 * 2 ^ 6)).1 = ⟨{}, .xOpi 2 3 6 31#32⟩ ∧
    (readInsn cx (0x0B * 2 ^ 58 + 31 * 2 ^ 47 + 10 * 2 ^ 43)).1 = ⟨{}, .xGet 31 10⟩ := by decide

theorem test_word_mask : (readInsn cx (0x11 * 2 ^ 58 + 7 * 2 ^ 49 + 1 * 2 ^ 48 + 5 * 2 ^ 39 + 256 * 2 ^ 29)).1 =
      ⟨{}, .mRange 7 (.reg 5) (.imm 256)⟩ ∧
    (readInsn cx (0x12 * 2 ^ 58 + 1 * 2 ^ 49 + 2 * 2 ^ 46 + 3 * 2 ^ 43 + 4 * 2 ^ 40)).1 = ⟨{}, .mLogic 1 2 3 4⟩ := by decide

theorem test_word_matrix : (readInsn cx (0x15 * 2 ^ 58 + 5 * 2 ^ 48 + 8 * 2 ^ 44 + 1 * 2 ^ 43 + 1 * 2 ^ 39 + 512 * 2 ^ 29 + 2 * 2 ^ 24 +
      0x2000 * 2 ^ 8 + 254)).1 = ⟨{}, .mm ⟨5, 8, true, false, 1, 512, 2, 0x2000, 254⟩⟩ ∧
    (readInsn cx (0x17 * 2 ^ 58 + 1 * 2 ^ 51 + 3 * 2 ^ 48 + 1 * 2 ^ 46 + 128 * 2 ^ 38)).1 = ⟨{}, .mc ⟨true, 3, 1, 128⟩⟩ ∧
    (readInsn cx (0x16 * 2 ^ 58 + 2 * 2 ^ 50 + 1 * 2 ^ 49 + 5 * 2 ^ 41 + 7 * 2 ^ 25 + 16 * 2 ^ 17 + 3 * 2 ^ 9)).1 =
      ⟨{}, .md ⟨2, true, 0, 5, 7, 16, 3⟩⟩ := by decide

theorem test_word_vector : (readInsn cx (0x22 * 2 ^ 58 + 255 * 2 ^ 44 + 1 * 2 ^ 38 + 2 * 2 ^ 32 + 3 * 2 ^ 26 + 4 * 2 ^ 20 + 5 * 2 ^ 14 +
      256 * 2 ^ 5 + 7 * 2 ^ 2)).1 = ⟨{}, .roll ⟨255, 1, 2, 3, 4, 5, 256, 7⟩⟩ ∧
    (readInsn cx (0x23 * 2 ^ 58 + 1 * 2 ^ 46 + 2 * 2 ^ 40 + 3 * 2 ^ 34 + 64 * 2 ^ 25)).1 = ⟨{}, .vperm ⟨1, 2, 3, 64⟩⟩ ∧
    (readInsn cx (0x24 * 2 ^ 58 + 6 * 2 ^ 47 + 1 * 2 ^ 46)).1 = ⟨{}, .vflag 6 true⟩ := by decide

theorem test_word_moves : (readInsn cx (0x31 * 2 ^ 58 + 1 * 2 ^ 50 + 0 * 2 ^ 40 + 2 * 2 ^ 35 + 9 * 2 ^ 19 + 256 * 2 ^ 10 + 1 * 2 ^ 9 + 3 * 2 ^ 4)).1 =
      ⟨{}, .recv ⟨1, 0, 2, 9, 256, true, 3⟩⟩ ∧
    (readInsn cx (0x38 * 2 ^ 58 + 17 * 2 ^ 40 + 1 * 2 ^ 35)).1 = ⟨{}, .dma 17 1⟩ ∧
    (readInsn cx (0x39 * 2 ^ 58 + 15 * 2 ^ 48)).1 = ⟨{}, .dmaWait 15⟩ := by decide

/-- Reserved opcodes spell no instruction. -/
theorem test_word_reserved : (readInsn cx (0x3F * 2 ^ 58)).2 = [cScoreInvalid] ∧ (readInsn cx (0x05 * 2 ^ 58)).2 = [cScoreInvalid] := by
  decide

/-- The table gives no bits, so no word spells a command. -/
theorem test_no_table_word : decodeTableWord 64 0 = none := rfl

/-! ## Small states -/

/-- The wait of the job below. -/
def w0 : Wait := { sess := 1, ref := 1, cls := 0, context := 1, opcode := 0x0203, since := 0, prin := [] }

/-- A run of bar 5. -/
def run0 : Run := { bar := 5, run := 2, strict := false, look := false }

/-- A job of rank 0 on partition 0 whose bar is open. -/
def job0 : Job := { f := default, owner := 1, w := w0, rank := 0, part := some 0, cur := some run0, nextBar := 5, runs := 3 }

/-- A score of one core with a program. -/
def score0 (p : CoreProg) : Score := { rows := 1, cols := 1, beats := 4, cores := [p] }

/-- A running device with one job on a partition of one core. -/
def world (sc : Score) (j : Job) (core : Core) : State :=
  { State.reset with
    dev := { (default : Dev) with state := .ready, starting := false, batonValid := true }
    hands := ({ confirmed := true }, { confirmed := true })
    ptp := { (default : Ptp) with now := 1000 }
    parts := [(0, { state := .running, primary := some 0, owner := 1 })]
    slots := [(0, { state := .running, score := some sc, owner := 1, job := some j })]
    cores := [(0, core)] }

/-- The registers of a core whose bar runs. -/
def live0 : CoreCtx := { live := true }

def c0 : CoreRef := ⟨0, false, 0, 0⟩

/-- What `envOf` finds in `world`. -/
def envW (sc : Score) (j : Job) (r : Run) (core : Core) (p : CoreProg) : Env :=
  { pid := 0, part := getPart (world sc j core) 0, slot := 0, score := sc, job := j, run := r, ghost := false,
    win := partWin (world sc j core) (getPart (world sc j core) 0), row := 0, col := 0,
    key := coreKey (getPart (world sc j core) 0) false (partWin (world sc j core) (getPart (world sc j core) 0)) 0 0,
    core, ctx := core.ctx, prog := p }

theorem envOf_world (sc : Score) (j : Job) (r : Run) (core : Core) (p : CoreProg) (hr : sc.rows = 1) (hc : sc.cols = 1)
    (hp : sc.cores = [p]) (hj : j.now = some r) (hg : core.ghostOn = false) :
    envOf (world sc j core) c0 = some (envW sc j r core p) := by
  cases core
  simp only at hg
  subst hg
  simp [envOf, world, c0, getPart, getSlot, getJob, getCore, Table.getD, Table.get, hr, hc, hp, hj, envW, coreKey, ctxOf]

/-- Any instruction that stands next in the program of a live core issues. -/
theorem issuing_world (sc : Score) (j : Job) (r : Run) (core : Core) (p : CoreProg) (i : CoreInsn) (hr : sc.rows = 1)
    (hc : sc.cols = 1) (hp : sc.cores = [p]) (hj : j.now = some r) (hg : core.ghostOn = false) (hl : core.ctx.live = true)
    (he : core.ctx.ended = false) (hw : core.ctx.waitFor = none) (hs : core.rest = none)
    (hi : p.insns[core.ctx.pc]? = some ⟨{}, i⟩) :
    Issuing (world sc j core) c0 {} i (envW sc j r core p) := by
  refine ⟨rfl, envOf_world sc j r core p hr hc hp hj hg, ?_, by simp [predHolds]⟩
  simp [issues, envW, partRuns, hg, hl, he, hw, hs, hi]
  exact .inl rfl

/-- The same with a program of that one instruction. -/
theorem issuing0 (i : CoreInsn) (ctx : CoreCtx) (f : CoreProg → CoreProg) (h : (f {insns := [⟨{}, i⟩]}).insns = [⟨{}, i⟩])
    (hl : ctx.live = true) (he : ctx.ended = false) (hw : ctx.waitFor = none) (hpc : ctx.pc = 0) :
    Issuing (world (score0 (f {insns := [⟨{}, i⟩]})) job0 { ctx := ctx }) c0 {} i
      (envW (score0 (f {insns := [⟨{}, i⟩]})) job0 run0 { ctx := ctx } (f {insns := [⟨{}, i⟩]})) :=
  issuing_world _ _ _ _ _ _ rfl rfl rfl rfl rfl hl he hw rfl (by rw [h]; simp [hpc])

/-- An option that holds a value of a kind answers one. -/
theorem some_any {α : Type} {x : Option α} {P : α → Bool} (h : x.any P = true) : ∃ a, x = some a ∧ P a = true := by
  cases x with
  | none => exact absurd h (by simp)
  | some a => exact ⟨a, rfl, h⟩

/-! ## Hypotheses that are met: core instructions -/

/-- A program of one instruction issues from a fresh bar. -/
theorem issuing1 (i : CoreInsn) : Issuing (world (score0 {insns := [⟨{}, i⟩]}) job0 { ctx := live0 }) c0 {} i
    (envW (score0 {insns := [⟨{}, i⟩]}) job0 run0 { ctx := live0 } {insns := [⟨{}, i⟩]}) :=
  issuing0 i live0 id rfl rfl rfl rfl rfl

/-- The unit of `issuing1`. -/
def e1 (i : CoreInsn) : Env := envW (score0 {insns := [⟨{}, i⟩]}) job0 run0 { ctx := live0 } {insns := [⟨{}, i⟩]}

def s1 (i : CoreInsn) : State := world (score0 {insns := [⟨{}, i⟩]}) job0 { ctx := live0 }

theorem iss (i : CoreInsn) : Issuing (s1 i) c0 {} i (e1 i) := issuing1 i

theorem test_step_queue : (({ s1 .nop with pending := [.nop c0 {}] } : State).pending = .nop c0 {} :: []) ∧
    (s1 .nop).pending = [] := ⟨rfl, rfl⟩

theorem test_index_met : (1 < 32 ∧ 12 ≤ 12 ∧ Issuing (s1 (.xOp 1 2 3 12)) c0 {} (.xOp 1 2 3 12) (e1 (.xOp 1 2 3 12))) ∧
    Issuing (s1 (.xOpi 31 2 8 7)) c0 {} (.xOpi 31 2 8 7) (e1 (.xOpi 31 2 8 7)) ∧
    Issuing (s1 (.xSet 0 7)) c0 {} (.xSet 0 7) (e1 (.xSet 0 7)) ∧
    (10 ≤ 10 ∧ Issuing (s1 (.xGet 1 10)) c0 {} (.xGet 1 10) (e1 (.xGet 1 10))) :=
  ⟨⟨by decide, by decide, iss _⟩, iss _, iss _, by decide, iss _⟩

theorem test_mask_met : (7 < 8 ∧ 5 ≤ 5 ∧ Issuing (s1 (.mCmp 7 1 (.imm 0) 5)) c0 {} (.mCmp 7 1 (.imm 0) 5) (e1 (.mCmp 7 1 (.imm 0) 5))) ∧
    (256 ≤ 256 ∧ (xRead (e1 (.mRange 1 (.reg 2) (.imm 256))).ctx 2).toNat = 0 ∧
      Issuing (s1 (.mRange 1 (.reg 2) (.imm 256))) c0 {} (.mRange 1 (.reg 2) (.imm 256)) (e1 (.mRange 1 (.reg 2) (.imm 256)))) ∧
    (4 ≤ 4 ∧ Issuing (s1 (.mLogic 1 0 2 4)) c0 {} (.mLogic 1 0 2 4) (e1 (.mLogic 1 0 2 4))) :=
  ⟨⟨by decide, by decide, iss _⟩, ⟨by decide, by decide, iss _⟩, by decide, iss _⟩

theorem test_control_met : Issuing (s1 .nop) c0 {} .nop (e1 .nop) ∧
    Issuing (s1 (.loop 1 (.imm 1048574) 1)) c0 {} (.loop 1 (.imm 1048574) 1) (e1 (.loop 1 (.imm 1048574) 1)) ∧
    (xRead (e1 (.loop 1 (.reg 2) 1)).ctx 2 = 0 ∧
      Issuing (s1 (.loop 1 (.reg 2) 1)) c0 {} (.loop 1 (.reg 2) 1) (e1 (.loop 1 (.reg 2) 1))) ∧
    ((e1 (.waitBeat 0 false)).ctx.beat ≤ 0 ∧ Issuing (s1 (.waitBeat 0 false)) c0 {} (.waitBeat 0 false) (e1 (.waitBeat 0 false))) ∧
    ((∀ d ∈ (e1 (.dmaWait 15)).ctx.dmas, d.desc.counter ≠ 15) ∧
      Issuing (s1 (.dmaWait 15)) c0 {} (.dmaWait 15) (e1 (.dmaWait 15))) :=
  ⟨iss _, iss _, ⟨by decide, iss _⟩, ⟨by decide, iss _⟩, by simp [e1, envW, live0], iss _⟩

theorem test_retire_met : envOf (s1 .nop) c0 = some (e1 .nop) ∧
    ({ live0 with loops := [⟨0, 1, 2, 0, 1⟩] } : CoreCtx).loops = ⟨0, 1, 2, 0, 1⟩ :: [] ∧ (1 = live0.pc + 1) ∧ (0 + 1 < 2) ∧
    ({ live0 with loops := [⟨0, 1, 2, 1, 1⟩] } : CoreCtx).loops = ⟨0, 1, 2, 1, 1⟩ :: [] ∧ (2 ≤ 1 + 1) :=
  ⟨(iss .nop).2.1, rfl, rfl, by decide, rfl, by decide⟩

theorem test_issue_rules_met : (Instr.nop c0 {}).coreStep = some (c0, {}, .nop) ∧ noCore c0 = false ∧
    noCore ⟨64, false, 0, 0⟩ = true ∧ envOf (s1 .nop) ⟨1, false, 0, 0⟩ = none ∧ envOf (s1 .nop) c0 = some (e1 .nop) ∧
    issues (s1 .nop) (e1 .nop) ⟨{}, .finish⟩ = false ∧ issues (s1 .nop) (e1 .nop) ⟨{}, .nop⟩ = true ∧
    (mRead (e1 .nop).ctx 1).getLsbD 0 = false :=
  ⟨rfl, rfl, rfl, rfl, (iss .nop).2.1, rfl, (iss .nop).2.2.1, by decide⟩

theorem test_beat_modes_met : busyInBeat (regsOf (e1 .nop) (s1 .nop)) = false ∧
    busyInBeat { live0 with recvs := [⟨none, 0, 0, 0, 0, 1, 0⟩] } = true ∧ (e1 .nop).score.beats ≤ 4 := by decide

theorem test_ecc_met : (⟨0, 0, 0, 0, 0⟩ : VmF).vl = 0 ∧ Issuing (s1 (.vld ⟨0, 0, 0, 0, 0⟩)) c0 {} (.vld ⟨0, 0, 0, 0, 0⟩) (e1 (.vld ⟨0, 0, 0, 0, 0⟩)) :=
  ⟨rfl, iss _⟩

/-- Lanes 0 holds sixteen BF16 elements. -/
def lane0 : LaneStore := { wfmt := 1, blk := 0, elems := 16, codes := List.replicate 16 0x3F80, scales := [] }

/-- Registers with a loaded lane store. -/
def loaded0 : CoreCtx := { live0 with lanes := [(0, lane0)], lanesN := some 1 }

def mlA : MlF := ⟨1, 0, 1, 0, 0, 1, 0, false⟩
def mmA : MmF := ⟨2, 1, false, true, 0, 16, 0, 0, 0⟩

theorem issW (i : CoreInsn) (ctx : CoreCtx) (hl : ctx.live = true) (he : ctx.ended = false) (hw : ctx.waitFor = none)
    (hpc : ctx.pc = 0) : Issuing (world (score0 {insns := [⟨{}, i⟩]}) job0 { ctx := ctx }) c0 {} i
      (envW (score0 {insns := [⟨{}, i⟩]}) job0 run0 { ctx := ctx } {insns := [⟨{}, i⟩]}) :=
  issuing0 i ctx id rfl hl he hw hpc

/-- The unit of `issW`. -/
def eW (i : CoreInsn) (ctx : CoreCtx) : Env :=
  envW (score0 {insns := [⟨{}, i⟩]}) job0 run0 { ctx := ctx } {insns := [⟨{}, i⟩]}

def sW (i : CoreInsn) (ctx : CoreCtx) : State := world (score0 {insns := [⟨{}, i⟩]}) job0 { ctx := ctx }

theorem test_ml_met : (∃ lines, tileRows (e1 (.ml mlA)) ((mlA.trow : Int) + sint (xRead (e1 (.ml mlA)).ctx mlA.xa)) (mlRows mlA) = some lines ∧
      linesFree (e1 (.ml mlA)).ctx (mlCells mlA (mlChunks mlA) lines) [] = true) ∧ 0 < mlA.lanes ∧ mlA.ck ≠ mlA.cpl ∧
      (e1 (.ml mlA)).ctx.mmNow = none ∧ Issuing (s1 (.ml mlA)) c0 {} (.ml mlA) (e1 (.ml mlA)) :=
  ⟨⟨_, rfl, by decide⟩, by decide, by decide, rfl, iss _⟩

theorem test_mm_met : (∃ lines, mmRows (eW (.mm mmA) loaded0) mmA (liveRows loaded0 mmA.mrow (shapeT mmA.shape)) = some lines ∧
      linesFree loaded0 (lines.map fun l => (l.2.1, l.2.2)) [] = true) ∧ liveRows loaded0 mmA.mrow (shapeT mmA.shape) ≠ [] ∧
      loaded0.lanes.get 0 = some lane0 ∧ mmA.depth ≤ lane0.elems ∧ 0 < mmA.depth ∧ loaded0.mmNow = none ∧
      loaded0.chains = [] ∧ loaded0.mcOut = [] ∧ loaded0.lanesN = some 1 ∧ Issuing (sW (.mm mmA) loaded0) c0 {} (.mm mmA) (eW (.mm mmA) loaded0) :=
  ⟨⟨_, rfl, by decide⟩, by decide, rfl, by decide, by decide, rfl, rfl, rfl, rfl, issW _ _ rfl rfl rfl rfl⟩

/-- An `mm` in flight. -/
def flying0 : CoreCtx := { live0 with mmNow := some ⟨mmA, 0, [], [(0, 0x3F800000#32, 0#32)]⟩ }

theorem test_token_met : Standing (sW .nop flying0) c0 (eW .nop flying0) ∧
    (eW .nop flying0).ctx.mmNow = some ⟨mmA, 0, [], [(0, 0x3F800000#32, 0#32)]⟩ :=
  ⟨⟨rfl, (issW .nop flying0 rfl rfl rfl rfl).2.1⟩, rfl⟩

def mdA : MdF := ⟨0, false, 0, 0, 0x1000, 16, 0⟩

theorem test_md_met : (∃ lines, mdRows (e1 (.md mdA)) mdA (liveRows (e1 (.md mdA)).ctx mdA.mrow (shapeT (bankShape (e1 (.md mdA)).ctx mdA.bank))) =
      some lines ∧ linesFree (e1 (.md mdA)).ctx [] (lines.map fun l => (l.2, mdLines mdA)) = true) ∧ 0 < mdA.lanes ∧
      mdA.lanes ≤ shapeL (bankShape (e1 (.md mdA)).ctx mdA.bank) ∧ writeRoom (e1 (.md mdA)).ctx = true ∧
      Mem.wf (e1 (.md mdA)).core.sram = true ∧ Issuing (s1 (.md mdA)) c0 {} (.md mdA) (e1 (.md mdA)) :=
  ⟨some_any (by decide), by decide, by decide, by decide, rfl, iss _⟩

/-- A step that `envOf` and `issues` let take effect, with what holds of its unit. -/
theorem issuing_any {s : State} {c : CoreRef} {k : Ctl} {i : CoreInsn} {P : Env → Bool} (hc : noCore c = false)
    (h : ((envOf s c).any fun e => issues s e ⟨k, i⟩ && predHolds e.ctx k && P e) = true) :
    ∃ e, Issuing s c k i e ∧ P e = true := by
  obtain ⟨e, he, h⟩ := some_any h
  simp only [Bool.and_eq_true] at h
  exact ⟨e, ⟨hc, he, h.1.1, h.1.2⟩, h.2⟩

/-- The same for what `envOf` alone finds. -/
theorem standing_any {s : State} {c : CoreRef} {P : Env → Bool} (hc : noCore c = false)
    (h : (envOf s c).any P = true) : ∃ e, Standing s c e ∧ P e = true := by
  obtain ⟨e, he, h⟩ := some_any h
  exact ⟨e, ⟨hc, he⟩, h⟩

/-- A program of one instruction that is no chain's head. -/
def prog (i : CoreInsn) : CoreProg := { insns := [⟨{}, i⟩], chainHead := false }

/-- `world` with two rows of cores. -/
def world2 (i j : CoreInsn) (core : Core) : State :=
  let sc := { score0 (prog i) with rows := 2, anchored := true, cores := [prog i, prog j] }
  { world sc job0 core with cores := [(0, core), (64, core)] }

/-- The core of the second row. -/
def c1 : CoreRef := ⟨0, false, 1, 0⟩

def mcA : McF := ⟨false, 0, 0, 16⟩

def mcB : McF := ⟨false, 0, 1, 16⟩

/-- A stream from the first row. -/
def stream0 : ChainStream := { slot := 0, bar := 5, beat := 0, run := 2, row := 0, col := 0, toLink := false, rows := List.range 32, lanes := 16, pairs := [] }

theorem test_chain_issue_met :
    (∃ e, Issuing (world2 (.mc mcA) .nop { ctx := live0 }) c0 {} (.mc mcA) e ∧
      (e.ctx.mmNow == none && decide (mcA.lanes ≤ shapeL (bankShape e.ctx mcA.bank) ∧ e.row + 1 < e.score.rows) &&
        !isHead e (e.row + 1) && isHead e e.row) = true) ∧
    (∃ e, Issuing (world2 .nop (.mc mcB) { ctx := live0 }) c1 {} (.mc mcB) e ∧
      (decide (0 < mcB.lanes ∧ mcB.lanes ≤ shapeL (bankShape e.ctx mcB.bank) ∧ e.score.rows ≤ e.row + 1) && e.score.anchored &&
        !isHead e e.row && e.core.chainBuf.isEmpty) = true) :=
  ⟨issuing_any rfl (by decide), issuing_any rfl (by decide)⟩

theorem test_chain_arrival_met : let s := { world2 .nop .nop { ctx := live0 } with streams := [stream0] }
    let t := { world2 .nop .nop { ctx := { live0 with chains := [⟨mcB, List.range 32, 0⟩] } } with streams := [stream0] }
    s.streams[0]? = some stream0 ∧ s.streams.take 0 = [] ∧ stream0.toLink = false ∧
    ((envAt s stream0.slot stream0.row stream0.col).any fun g => g.ctx.waitFor == none) = true ∧
    ((envAt s stream0.slot (stream0.row + 1) stream0.col).any fun e => e.ctx.chains == [] && e.ctx.waitFor == none &&
      e.core.chainBuf.isEmpty && getCore (chainTaken stream0 { s with streams := s.streams.eraseIdx 0 }) e.key == e.core) = true ∧
    { stream0 with rows := [0, 1, 2, 3] }.rows.length ≤ 4 ∧ stream0.rows = List.range 32 ∧ stream0.lanes = mcB.lanes ∧
    ((envAt t stream0.slot (stream0.row + 1) stream0.col).any fun e =>
      e.core.chainBuf.isEmpty && e.ctx.chains == [⟨mcB, List.range 32, 0⟩] && e.slot == 0 && e.run.bar == 5 &&
        e.ctx.waitFor == none && getCore (chainTaken stream0 { t with streams := t.streams.eraseIdx 0 }) e.key == e.core &&
        e.run.run == 2 && e.row == 1 && e.col == 0) = true := by
  refine ⟨rfl, rfl, rfl, by decide, by decide, by decide, rfl, rfl, by decide⟩

def vmA : VmF := ⟨0, 16, 0, 0, 0x1000⟩

theorem test_vectors_met :
    (∃ e, Issuing (s1 (.vld vmA)) c0 {} (.vld vmA) e ∧ (decide (0 < vmA.vl) &&
      (operandLines e false vmA.line vmA.xa 0 (vecLines vmA.fmt vmA.vl)).any fun p =>
        linesFree e.ctx [(p.2, vecLines vmA.fmt vmA.vl)] []) = true) ∧
    (∃ e, Issuing (s1 (.vst vmA)) c0 {} (.vst vmA) e ∧ (decide (vmA.vl ≤ 256) && writeRoom e.ctx && Mem.wf e.core.sram &&
      (operandLines e true vmA.line vmA.xa 0 (vecLines vmA.fmt vmA.vl)).any fun p =>
        (tensorAt e p.1).isNone && linesFree e.ctx [] [(p.2, vecLines vmA.fmt vmA.vl)]) = true) :=
  ⟨issuing_any rfl (by decide), issuing_any rfl (by decide)⟩

def rollA : RollF := ⟨0, 0, 0, 0, 1, 2, 4, 0⟩

theorem test_ecc_reads_met :
    (∃ e, Issuing (s1 (.vld vmA)) c0 {} (.vld vmA) e ∧
      (linesFree e.ctx (fieldLines e vmA.line vmA.xa (vecLines vmA.fmt vmA.vl)) [] &&
        (operandLines e false vmA.line vmA.xa 0 (vecLines vmA.fmt vmA.vl)).isSome) = true) ∧ vmA.vl ≠ 0 ∧
    (∃ e, Issuing (s1 (.roll rollA)) c0 {} (.roll rollA) e ∧ rollA.vl ≠ 0) :=
  ⟨issuing_any rfl (by decide), by decide, e1 (.roll rollA), iss _, by decide⟩

/-- Slot 2 holds indices in range for a length of 2; slot 3 one out of range. -/
def slots0 : CoreCtx := { live0 with slots := [(2, [1#32, 1#32]), (3, [9#32])] }

theorem test_slot_ops_met :
    (∃ e, Issuing (sW (.roll rollA) live0) c0 {} (.roll rollA) e ∧ (e.prog.rolls[rollA.rd]?).isNone = true) ∧
    (∃ e, Issuing (world (score0 { prog (.roll rollA) with rolls := [⟨[⟨0, 0, 0, 0, 0, 0, 0⟩], 0, 0, 0, some (0, false), some (0, true)⟩] })
        job0 { ctx := live0 }) c0 {} (.roll rollA) e ∧ (e.prog.rolls[rollA.rd]?).isSome = true) ∧
    (∃ e, Issuing (sW (.vperm ⟨1, 2, 0, 2⟩) slots0) c0 {} (.vperm ⟨1, 2, 0, 2⟩) e ∧
      ((List.range 2).all fun j => decide (0 ≤ sint (slotWord e.ctx 2 j) ∧ sint (slotWord e.ctx 2 j) < 2)) = true) ∧
    (∃ e, Issuing (world { score0 (prog (.vperm ⟨1, 3, 0, 2⟩)) with permFaults := true } job0 { ctx := slots0 }) c0 {}
        (.vperm ⟨1, 3, 0, 2⟩) e ∧ (e.score.permFaults && decide (2 ≤ sint (slotWord e.ctx 3 0))) = true) ∧
    (∃ e, Issuing (s1 (.vflag 31 true)) c0 {} (.vflag 31 true) e ∧ decide (31 < 32) = true) :=
  ⟨issuing_any rfl (by decide), issuing_any rfl (by decide), issuing_any rfl (by decide), issuing_any rfl (by decide),
   issuing_any rfl (by decide)⟩

/-! ## Hypotheses that are met: messages, transfers and the ends of bars -/

def sendA : SendF := ⟨0, 0, 0, 0x1000, 1⟩

/-- A message of the open bar to core (0, 0), of one line. -/
def msg0 : Msg := { slot := 0, bar := 5, beat := 0, run := 2, prov := false, route := none, srcRank := 0, srcRow := 0, srcCol := 0, dstRow := 0, dstCol := 0, seq := 0, lines := 1, data := List.replicate 64 7#8 }

/-- A score with one link route to this rank's own core (0, 0). -/
def routed (p : CoreProg) : Score := { score0 p with hasLinks := true, routes := [⟨0, 0, 0, none, 0⟩] }

theorem test_send_met :
    (∃ e, Issuing (s1 (.send sendA)) c0 {} (.send sendA) e ∧ (decide (sendA.dest / 64 < e.score.rows ∧ sendA.dest % 64 < e.score.cols) &&
      inboxCredit (s1 (.send sendA)) (coreKey e.part e.ghost e.win 0 0) e.slot 0 0 e.ghost 1 &&
      (operandLines e false sendA.sline sendA.xa 0 sendA.len).any fun p => linesFree e.ctx [(p.2, sendA.len)] []) = true) ∧
    (∃ e, Issuing (s1 (.send { sendA with dest := 1 })) c0 {} (.send { sendA with dest := 1 }) e ∧
      decide (e.score.cols ≤ 1 % 64) = true) ∧
    (∃ e, Issuing (world (routed (prog (.send { sendA with dk := 1 }))) job0 { ctx := live0 }) c0 {} (.send { sendA with dk := 1 }) e ∧
      (((e.score.routes[0]?).any fun r => (routeDest e.score r e.job.rank).isSome) &&
        sendCredit (world (routed (prog (.send { sendA with dk := 1 }))) job0 { ctx := live0 }) e 0) = true) :=
  ⟨issuing_any rfl (by decide), issuing_any rfl (by decide), issuing_any rfl (by decide)⟩

def recvA : RecvF := ⟨0, 0, 0, 0x1000, 1, false, 0⟩

/-- The `recv` above as it waits. -/
def recvItem0 : RecvItem := ⟨none, 0, 0, 0, 0x1000, 1, 0⟩

theorem test_recv_met :
    (∃ e, Issuing (s1 (.recv recvA)) c0 {} (.recv recvA) e ∧ (writeRoom e.ctx && e.core.inbox.isEmpty &&
      (operandLines e true recvA.dline recvA.xa 0 recvA.len).any fun p => linesFree e.ctx [] [(p.2, recvA.len)]) = true) ∧
    (∃ e, Issuing (world (score0 (prog (.recv recvA))) job0 { ctx := live0, inbox := [msg0] }) c0 {} (.recv recvA) e ∧
      (writeRoom e.ctx && e.core.inbox == [msg0] && e.ctx.recvs == [] && answers e recvItem0 msg0 && Mem.wf e.core.sram) = true) :=
  ⟨issuing_any rfl (by decide), issuing_any rfl (by decide)⟩

theorem test_arrival_met : let s := { s1 .nop with net := [msg0] }
    let t := { world (routed (prog .nop)) job0 { ctx := { live0 with recvs := [recvItem0] } } with net := [{ msg0 with route := some 0 }] }
    let u := { world (score0 (prog .nop)) job0 { ctx := { live0 with recvs := [recvItem0] } } with net := [msg0] }
    s.net[0]? = some msg0 ∧ (getJob s 0).isSome = true ∧ (getSlot s 0).score.isSome = true ∧
    ((envAt s 0 0 0).any fun e => !allEnded s e.part e.ghost e.score && e.ctx.recvs == [] && e.ctx.waitFor == none &&
      e.core.rest == none) = true ∧
    ((envAt u 0 0 0).any fun e => !allEnded u e.part e.ghost e.score && e.ctx.recvs == [recvItem0] && e.core.inbox.isEmpty &&
      answers e recvItem0 msg0 && e.ctx.waitFor == none && e.core.rest == none) = true ∧
    (((getSlot t 0).score.bind fun sc => sc.routes[0]?).any fun rt => decide (rt.kind < 2) && decide (routeCore rt = (0, 0)) &&
      routeDest (routed (prog .nop)) rt 0 == some job0.rank) = true ∧ job0.runOf 5 2 = some run0 ∧ msg0.held = [] ∧
    routeTurn t (routed (prog .nop)) job0 run0 0 { msg0 with route := some 0 } = true ∧
    inboxCredit { t with net := [] } 0 0 0 0 false 1 = true := by
  refine ⟨rfl, rfl, rfl, by decide, by decide, by decide, rfl, rfl, by decide, by decide⟩

/-- One line from the local store to the local store. -/
def desc0 : Desc := { memAddr := 0x20000, memStride := 64, rowBytes := 64, rows := 1, coreLine := 0x1000, coreStride := 1, layout := 0, toMem := false, fmt := 0, queue := 0, counter := 1, xshift := 0 }

theorem test_dma_met :
    (∃ e, Issuing (world (score0 { prog (.dma 0 0) with plan := [desc0] }) job0 { ctx := live0 }) c0 {} (.dma 0 0) e ∧
      ((dmaItem (s1 .nop) e desc0 0).any fun it =>
        linesFree e.ctx (memSideLines it) (descLines it.desc) && writeRoom e.ctx) = true) ∧
    (∃ e, Issuing (world (score0 { prog (.dma 0 0) with plan := [{ desc0 with rows := 0 }] }) job0 { ctx := live0 }) c0 {} (.dma 0 0) e ∧
      (dmaItem (s1 .nop) e { desc0 with rows := 0 } 0).isSome = true) ∧
    (let it : DmaItem := ⟨desc0, 0x20000, 0, false⟩
     let s := world (score0 (prog .nop)) job0 { ctx := { live0 with dmas := [it] } }
     ∃ e, Standing s c0 e ∧ (e.ctx.dmas == [it] && dmaStarted e.ctx.dmas 0 && (dmaPages s e e.run it).isEmpty &&
       !dmaHeld s it false [] && Mem.wf (getCore s e.key).sram) = true) ∧
    0 < desc0.rowBytes ∧ ceilDiv desc0.rowBytes 64 ≤ desc0.coreStride :=
  ⟨issuing_any rfl (by decide), issuing_any rfl (by decide), standing_any rfl (by decide), by decide, by decide⟩

theorem test_end_met :
    (∃ e, Issuing (s1 .finish) c0 {} .finish e ∧
      (!orphans (modCtx e.key e.ghost (fun _ => { e.ctx with ended := true }) (s1 .finish)) e) = true) ∧
    (let s := world (score0 (prog .finish)) job0 { ctx := live0, inbox := [msg0] }
     ∃ e, Issuing s c0 {} .finish e ∧ (let u := modCtx e.key e.ghost (fun _ => { e.ctx with ended := true }) s
       allEnded u e.part e.ghost e.score && orphans u e) = true) :=
  ⟨issuing_any rfl (by decide), issuing_any rfl (by decide)⟩

/-- A rest window over core (0, 0). -/
def win0 : RestWin := ⟨0, 3, 0, 0, 0, 0, 0, 0, 0x22000, 0, 4⟩

/-- A partition with a primary and a ghost score, both with an open bar. -/
def restWorld (i : CoreInsn) (ghost : Option Nat) (core : Core) (claim : Option Nat) : State :=
  { world { score0 (prog i) with rests := [win0] } job0 core with
    parts := [(0, { state := .running, primary := some 0, owner := 1, ghost, claim })]
    slots := [(0, { state := .running, score := some { score0 (prog i) with rests := [win0] }, owner := 1, job := some job0 }),
              (1, { state := .running, score := some { score0 (prog .nop) with ghost := true }, owner := 1, job := some job0 })] }

theorem test_rest_met :
    (∃ e, Issuing (restWorld (.rest 0) none { ctx := live0 } none) c0 {} (.rest 0) e ∧
      (!e.ghost && e.score.rests == [win0] && decide (win0.first ≤ partBeatOf (restWorld (.rest 0) none { ctx := live0 } none) e.part e.ghost e.score) &&
        e.ctx.mmNow == none && e.ctx.chains.isEmpty && e.ctx.mcOut.isEmpty && !e.core.ghostOn && !ghostReady (restWorld (.rest 0) none { ctx := live0 } none) e.part) = true) ∧
    (∃ e, Issuing (restWorld (.rest 0) (some 1) { ctx := live0 } none) c0 {} (.rest 0) e ∧
      (!e.ghost && ghostReady (restWorld (.rest 0) (some 1) { ctx := live0 } none) e.part) = true) ∧
    (let s := restWorld .nop (some 1) { ctx := {}, rest := some 0, ghostOn := true } (some 0)
     (getPart s 0).claim.isSome = true ∧ (restingCores s (getPart s 0)).all (fun k => ghostStill (getCore s k.1)) = true) ∧
    (let s := restWorld .nop (some 1) { ctx := {}, rest := some 0, ghostOn := true, pausing := true } (some 0)
     (getPart s 0).claim.isSome = true ∧ restingCores s (getPart s 0) ≠ [] ∧
       (restingCores s (getPart s 0)).all (fun k => (getCore s k.1).pausing && ghostStill (getCore s k.1)) = true) :=
  ⟨issuing_any rfl (by decide), issuing_any rfl (by decide), by decide, by decide⟩

theorem test_scrub_shadow_met : (getPart { s1 .nop with parts := [(0, { state := .scrubbing, owner := 1 })] } 0).state = .scrubbing ∧
    ∃ e, Standing (world (score0 (prog .nop)) job0 { ctx := { live0 with shadow := some ⟨5, 0, []⟩ } }) c0 e ∧
      (e.ctx.shadow == some ⟨5, 0, []⟩ && e.job.ahead == none) = true :=
  ⟨rfl, standing_any rfl (by decide)⟩

/-! ## Hypotheses that are met: reductions, updates, bars and memory -/

/-- A score without a program's effect. -/
def plain : Score := score0 (prog .nop)

/-- A device whose job's bar runs, with every core at its end. -/
def jobW (sc : Score) (j : Job) : State := world sc j { ctx := { live0 with ended := true } }

/-- A job with a run in place of `run0`. -/
def jobR (r : Run) : Job := { job0 with cur := some r }

/-- A reduction of 512 elements over two streams of column 0. -/
def red0 : Reduction := ⟨512, 0, 0, 0, 0, [.chain 0 0, .chain 0 1]⟩

/-- A reduction of `n` elements over route 0. -/
def redR (n : Nat) : Reduction := ⟨n, 0, 0, 0, 0, [.route 0]⟩

/-- A score with reductions and one route of a kind. -/
def linked (kind : Nat) (reds : List Reduction) : Score :=
  { plain with hasLinks := true, routes := [⟨kind, 0, 0, none, 0⟩], reductions := reds }

theorem test_contribute_met : (getJob (jobW plain job0) 0).isSome = true ∧ (getRed run0 0).delivered = false ∧
    redSequence plain 0 red0 = [(0, 0), (1, 0)] ∧ (getRed run0 0).taken.length + 1 < (redSequence plain 0 red0).length ∧
    (getRed run0 0).held = [] ∧ 0 < red0.elements ∧ red0.mode ≠ 2 := by decide

theorem test_intake_met : let st := { stream0 with toLink := true }
    let s := { jobW { plain with reductions := [red0] } job0 with streams := [st] }
    s.streams[0]? = some st ∧ (getJob s 0).isSome = true ∧ run0.bar = st.bar ∧ run0.run = st.run ∧
    s.streams.take 0 = [] ∧ job0.runOf st.bar st.run = some run0 ∧
    chainTaker { plain with reductions := [red0] } st.col st.beat = some (0, 0) ∧ chainTaker plain st.col st.beat = none ∧
    st.rows.length * st.lanes = red0.elements ∧
    mayTake s 0 { plain with reductions := [red0] } job0 run0 0 red0 (0, 0) (8 * red0.elements) = true := by
  refine ⟨rfl, rfl, rfl, rfl, rfl, rfl, by decide, by decide, by decide, by decide⟩

/-- A message of route 0. -/
def routeMsg (lines : Nat) (data : List Byte) : Msg := { msg0 with route := some 0, lines, data }

theorem test_route_met : let m := routeMsg 1 (List.replicate 64 7#8)
    let sc := linked 2 [redR 16]
    let s := { jobW sc job0 with net := [m] }
    s.net[0]? = some m ∧ (getSlot s 0).score = some sc ∧ routeDest sc ⟨2, 0, 0, none, 0⟩ m.srcRank = some job0.rank ∧
    routeTurn s sc job0 run0 0 m = true ∧ lowerBeats s sc job0.rank m 0 = true ∧ routeEntry (redR 16) 0 = some 0 ∧
    job0.runOf m.bar m.run = some run0 ∧ mayTake s 0 sc job0 run0 0 (redR 16) (0, m.srcRank) m.data.length = true ∧
    m.data.length = ceilDiv (contribBytes sc (redR 16) 0) 64 * 64 ∧
    256 * 64 < ceilDiv (contribBytes (linked 2 [redR 8192]) (redR 8192) 0) 64 * 64 := by
  refine ⟨rfl, rfl, rfl, by decide, by decide, by decide, rfl, by decide, by decide, by decide⟩

/-- Four outcome records. -/
def outcomeBytes : List Byte := [0, 1, 2, 3].flatMap fun i => BitVec.ofNat 8 i :: 0#8 :: 1#8 :: List.replicate 13 0#8

theorem test_outcomes_met : let m := routeMsg 1 outcomeBytes
    ((outcomeRecords m).map (·.1)).Nodup ∧ (outcomeRecords m).length = 4 ∧
    (outcomeRecords m).all (fun r => decide (r.2.1 ≤ 3) && r.2.2 && (run0.outcomes.get r.1).isNone &&
      (((List.replicate 4 ⟨0, none, 0, 0, 0⟩ : List ShardEnt)[r.1]?).any fun e => e.owner == job0.rank)) = true := by decide

/-- A group that keeps no momentum and stores its weights. -/
def group0 : Group := { (default : Group) with wstate := 1 }

/-- An entry of four elements at a base address. -/
def entry0 (base : Nat) : Entry := ⟨base, 0, 0, 65536, 4, 0, 0, 0, 0, none⟩

/-- A training score: one reduction that feeds one entry of one shard. -/
def train (base : Nat) : Score :=
  { plain with groups := some [group0], entries := [entry0 base], shards := [⟨0, none, 0, 0, 16⟩],
               reductions := [⟨4, 0, 0, 0, 0xFFFE, [.chain 0 0]⟩] }

/-- A run whose reduction is delivered and waits for the intake. -/
def runD : Run := { run0 with reds := [(0, { delivered := true, acc := [(0, 0), (0, 0), (0, 0), (0, 0)] })] }

theorem test_gradient_met : let run : Run := { runD with areas := [⟨1, 1, [(0, 2 ^ 32)]⟩] }
    let s := jobW (train (2 ^ 53)) (jobR run)
    let t := jobW (train (2 ^ 52)) (jobR runD)
    (getRed runD 0).delivered = true ∧ runD.intake.get 0 = none ∧ (jobR runD).ahead = none ∧ runD.look = false ∧
    areaAsleep s 0 (train (2 ^ 53)) 0 0 = false ∧ areaShort s (train (2 ^ 53)) (jobR run) 0 = true ∧
    areaAsleep t 0 (train (2 ^ 52)) 0 0 = false ∧ areaShort t (train (2 ^ 52)) (jobR runD) 0 = false ∧ intakeFill t 0 = 0 ∧
    resultWaits runD (train (2 ^ 52)) 0 = true ∧ intakeMore t (train (2 ^ 52)) 0 0 ≤ intakeSize ∧
    (fedEntries (train (2 ^ 52)) 0 0).all (fun e => (holdTier t (entryPages group0 e.2)).isNone) = true := by
  refine ⟨rfl, rfl, rfl, rfl, by decide, by decide, by decide, by decide, by decide, by decide, by decide, by decide⟩

/-- A result that finds another in the intake and no room beside it. -/
theorem test_intake_full_met : let sc := { train (2 ^ 52) with
        entries := [{ entry0 (2 ^ 52) with elements := 524288 }, { entry0 (2 ^ 52) with red := 1 }],
        reductions := [⟨524288, 0, 0, 0, 0xFFFE, [.chain 0 0]⟩, ⟨4, 0, 0, 0, 0xFFFE, [.chain 0 0]⟩] }
    let run : Run := { run0 with reds := [(0, { delivered := true }), (1, { delivered := true })], intake := [(0, [])] }
    let s := jobW sc (jobR run)
    areaShort s sc (jobR run) 1 = false ∧ areaAsleep s 0 sc 0 1 = false ∧ 0 < intakeFill s 0 ∧
    2097152 < intakeFill s 0 + intakeMore s sc 0 1 := by decide

theorem test_element_met : let s := jobW (train (2 ^ 52)) (jobR { runD with intake := [(0, [0, 0, 0, 0])] })
    entryGroup (train (2 ^ 52)) (entry0 (2 ^ 52)) = some group0 ∧ (getPass runD 0).done = false ∧
    (entryPages group0 (entry0 (2 ^ 52))).all (fun q => inReach s q && !(getPage s q).poison && !asleep s q) = true ∧
    runD.areas = [] ∧ (getPass runD 0).next < (entry0 (2 ^ 52)).elements ∧
    group0.shardMode ≠ 2 ∧ group0.mstate = 0 ∧ group0.wstate ≠ 0 ∧ Mem.wf s.mem = true := by
  refine ⟨rfl, rfl, by decide, rfl, by decide, by decide, rfl, by decide, rfl⟩

/-- The first pass of shard mode 2 is under way, and then every first pass is done. -/
theorem test_clip_met : let g : Group := { group0 with shardMode := 2 }
    let sc := { train (2 ^ 52) with groups := some [g] }
    let run : Run := { runD with intake := [(0, [0, 0, 0, 0])] }
    entryGroup sc (entry0 (2 ^ 52)) = some g ∧ g.shardMode = 2 ∧ (getPass run 0).second = false ∧
    firstPassesDone sc { run with passes := [(0, { second := true })] } 0 = true := ⟨rfl, rfl, rfl, by decide⟩

/-- A drained run with its words combined. -/
def runC : Run := { run0 with drained0 := true, drained1 := true, combined := some [] }

theorem test_drain_met : let s := jobW plain job0
    (slotPart s 0).isSome = true ∧
    (jobCores s (getPart s 0) false plain).all (fun k => coreDrained (ctxOf (getCore s k.1) false) && (getCore s k.1).rest == none) = true ∧
    runTraffic s 0 5 2 = false ∧ framesOut s 0 5 2 = false ∧ shortContribution plain job0 run0 = false ∧
    linksDone plain job0 run0 = true ∧ timekeeper s = true ∧ ownedJudged plain (jobR runC) runC = true ∧
    (jobR runC).compare = none ∧ runC.voted = none := by decide

/-- A vote without a cause, an overflow or a doubt. -/
def vote0 : Vote := { bar := 5, job := 0, epoch := 0, score := [], mode := true, finite := true, ovf := false, cause := 0, voters := 1, ovfTensor := 0xFFFF, nonfin := 0, overs := 0 }

theorem test_verdict_met : (∀ v : Vote, (getJob (jobW plain (jobR { runC with voted := some v })) 0).bind (·.cur) =
      some { runC with voted := some v }) ∧ ([] : List Vote).length + 1 = plain.replicas ∧
    timekeeper (jobW plain job0) = true ∧ { vote0 with cause := 3 }.cause ≠ 0 ∧ { vote0 with ovf := true }.ovf = true ∧
    scoreTrains (train 0) = true ∧ scoreTrains plain = false ∧ { vote0 with finite := false }.mode = true ∧
    vote0.finite = true := ⟨fun _ => rfl, rfl, by decide, by decide, rfl, rfl, rfl, rfl, rfl⟩

theorem test_abort_met : getJob (jobW plain job0) 0 = some job0 ∧ job0.cur = some run0 := ⟨rfl, rfl⟩

theorem test_open_met : let j := { job0 with cur := none }
    let c := { plain with lookahead := true }
    mayOpen (jobW plain j) 0 plain j = true ∧ mayLook (jobW c (jobR runC)) 0 c (jobR runC) runC = true ∧
    timekeeper (jobW plain j) = true := by decide

theorem test_timeout_met : let j := { jobR { runC with voted := some vote0, query := true } with members := [(0, 0, []), (1, 1, [])] }
    let b (s : State) : State := { s with ptp := { s.ptp with now := max s.ptp.now (10 ^ 12) } }
    timekeeper (jobW plain j) = true ∧ (slotPart (jobW plain j) 0) = some (0, false) ∧ run0.voted = none ∧ run0.query = false ∧
    timerOver (b (jobW plain job0)) 0 job0 run0 = true ∧
    timerOver (b (jobW plain j)) 0 j { runC with voted := some vote0 } = true ∧
    1 ∈ queryMembers j ∧ 1 ∉ runC.replies ∧
    (queryMembers { j with members := [(0, 0, []), (1, 1, []), (2, 2, [])] }).contains 2 = true := by decide

theorem test_compare_met : let j := { job0 with compare := some 4 }
    let c := { plain with replicas := 2 }
    let recs := [(1, ownRecord (jobW c j) 0 j 4)]
    recs.length + 1 = c.replicas ∧ ∀ p ∈ recs, ∀ f ∈ CmpFields, f p.2 = f (ownRecord (jobW c j) 0 j 4) :=
  ⟨rfl, fun p hp f _ => by rw [List.mem_singleton.mp hp]⟩

/-- A score of two ranks whose shard 0 rank 1 owns and this rank keeps, with one gather of it. -/
def kept : Score := { plain with replicas := 2, dp := 2, shards := [⟨1, some 0, 0, 0, 16⟩], gathers := [⟨0, none, 0, 0, 0, 4, none, 1, 2 ^ 52⟩] }

theorem test_fetch_met : let bytes := [1#8, 2#8, 3#8, 4#8]
    (kept.shards[0]?).map (·.keeper) = some (some job0.rank) ∧ run0.keeperGot = [] ∧ run0.look = false ∧
    (∀ d, (⟨5, d⟩ : Version).digest = d) ∧ (⟨5, []⟩ : Version).bar = run0.bar ∧ (⟨4, []⟩ : Version).bar ≠ run0.bar ∧
    gatherMine kept job0.rank ⟨0, none, 0, 0, 0, 4, none, 1, 2 ^ 52⟩ = true ∧ 0 ∈ { run0 with gatherSent := [0] }.gatherSent ∧
    run0.gathers.get 0 = none ∧ bytes.take 4 ≠ [] ∧ isDue job0 0 ⟨5, []⟩ = false ∧ job0.admission = none ∧ run0.strict = false ∧
    isDue { job0 with keeperDue := [0], shards := [(0, { ver := ⟨5, []⟩ })] } 0 ⟨5, []⟩ = true ∧
    shardAsleep (jobW kept job0) 0 kept 0 0 = false ∧ shardAsleep (jobW kept job0) 0 kept 0 1 = false ∧
    (pageSpan (2 ^ 52) 4).all (fun n => !asleep (jobW kept job0) n) = true ∧
    0 ∈ ({ w := w0, rank := 1, spare := true, fetch := [0] } : Admission).fetch := by
  refine ⟨rfl, rfl, rfl, fun _ => rfl, rfl, by decide, by decide, by decide, rfl, by decide, by decide, rfl, rfl, by decide,
    by decide, by decide, by decide, by decide⟩

/-- A candidate message of row 0 with one candidate, token 5. -/
def candMsg : Msg :=
  routeMsg 33 (List.replicate 4 0#8 ++ [1#8, 0#8, 0#8, 0#8] ++ List.replicate 56 0#8 ++ [5#8] ++ List.replicate 2047 0#8)

theorem candMsg_words : candWords candMsg = (0, 1, [(5, 0)]) := by decide

theorem test_cand_ok : candOk 1 candMsg = true ∧ candOk 0 candMsg = false := by
  have h : candMsg.data.length = 33 * 64 := by
    simp only [candMsg, routeMsg, List.length_append, List.length_replicate, List.length_cons, List.length_nil]
  simp only [candOk, h, candMsg_words]
  decide

theorem test_sampler_met : let f : RowFeed := ⟨0, 1, 3, true, false⟩
    let run := { run0 with feeds := [(0, f)] }
    (candWords candMsg).1 = 0 ∧ run.feeds.get 0 = some f ∧ f.sample = true ∧ drawOf run 0 = none ∧ (jobR run).ahead = none ∧
    ((getSlot (jobW (linked 3 []) (jobR run)) 0).score.bind fun sc => sc.routes[0]?).map (·.kind) = some 3 :=
  ⟨congrArg (·.1) candMsg_words, rfl, rfl, rfl, rfl, rfl⟩

/-- Page 3 of the second tier. -/
def page0 : Nat := 2 ^ 29 + 3

theorem test_promotion_met : let q : PromoReq := { cls := 1, page := page0, pool := 0 }
    let s := { jobW plain job0 with promoQ := [q], hot := { base := 2 ^ 52, frames := 4 } }
    (pageGroup s page0).all (fun n => !asleep s n && !(getPage s n).poison) = true ∧
    ([0, 1, 2].findSome? fun p => (nextPromotion s p).filter fun q => q.page == page0) = some q ∧
    freeFramesOf (pageGroup s page0).length (getPool s 0) = some 0 ∧ placeAsleep s (pageNo (getPool s 0).base + 0) = false ∧
    freeFramesOf (pageGroup s page0).length ({} : Pool) = none := by decide

theorem test_demotion_met : let s (pin : Nat) := { jobW plain job0 with pages := [(page0, { pool := some 0, move := 2, pin })] }
    (pageGroup (s 0) page0).all (fun n => !asleep (s 0) n) = true ∧ (getPage (s 0) page0).move = 2 ∧
    (getPage (s 0) page0).pool.isSome = true ∧ mayLeave (s 0) page0 = true ∧ mayLeave (s 1) page0 = false := by decide

theorem test_page_work_met : let s := { jobW plain job0 with
        regions := [{ base := 2 ^ 53, size := 65536 * 8, kind := 0, owner := 1 }]
        tenants := [(1, { keyGen := 1, oldGen := some 0 })], zeroing := [(page0, 1)] }
    asleep s page0 = false ∧ isZeroing s page0 = true ∧
    ((pageRegion s page0).any fun r => keyGens s (keyContext s r) == (1, some 0) && pageGen s r page0 == 0) = true ∧
    (getPage s page0).move = 0 ∧ (getPage s page0).poison = false ∧
    (pageGroup s page0).all (fun n => !accessInFlight s n) = true := by decide

/-- A base of one mapping at the start of the third tier. -/
def base0 (d : List Byte) : Base := { man := { layers := [], extents := [(3 * 2 ^ 52, 1)], mapDigests := [d], mappings := 1, digest := [], sigKey := none } }

theorem awake (s : State) (n : Nat) (h : (getPage s n).pool = none) (hb : pageBlock n = 2) : asleep s n = false := by
  simp [asleep, placeAsleep, h, hb]

/-- A device with that base, whose one digest is `d`. -/
def baseW (d : List Byte) : State := { jobW plain job0 with base := some (base0 d) }

theorem mappingData_mem (s t : State) (a : Nat) (h : s.mem = t.mem) : mappingData s a = mappingData t a := by
  unfold mappingData
  rw [h]

theorem baseW_data (d : List Byte) : mappingData (baseW d) (3 * 2 ^ 52) = mappingData (baseW []) (3 * 2 ^ 52) :=
  mappingData_mem _ _ _ rfl

theorem base0_digest (d : List Byte) : (base0 d).man.mapDigests.getD 0 [] = d := rfl

/-- Two bases of that mapping: the first's turn in the scrub has come, the second reloads it and has a golden copy. -/
theorem test_base_met (d : List Byte) : mappingAddr (base0 d).man.extents 0 = some (3 * 2 ^ 52) ∧
    asleep (baseW d) (pageNo (3 * 2 ^ 52)) = false ∧ scrubTurn (base0 d) = some 0 ∧
    (base0 d).scrubSince + 0 * scrubInterval (baseW d) / (base0 d).man.mappings ≤ (baseW d).ptp.now ∧
    0 ∈ { base0 d with reloading := [0] }.reloading :=
  ⟨rfl, awake _ _ rfl (by decide), rfl, by simp [base0], by simp⟩

theorem test_reload_met (s : State) (c : List Byte) (h : c.length = mappingBytes) (hs : s.slots = []) :
    let b : Base := { base0 (digest64 c) with golden := [c], reloading := [0] }
    reloadSource s b 0 [] none = some (2, c) ∧ reloadSource s b 0 [2] none = none := by
  simp [reloadSource, reloadSources, base0, h, basePeer, hs]

/-- The digest of the mapping as it stands. -/
def baseDigest : List Byte := digest64 (mappingData (baseW []) (3 * 2 ^ 52))

theorem test_base_digests_met :
    digest64 (mappingData (baseW baseDigest) (3 * 2 ^ 52)) = (base0 baseDigest).man.mapDigests.getD 0 [] ∧
    digest64 (mappingData (baseW (baseDigest ++ [0#8])) (3 * 2 ^ 52)) ≠ (base0 (baseDigest ++ [0#8])).man.mapDigests.getD 0 [] := by
  rw [baseW_data, baseW_data (baseDigest ++ [0#8]), base0_digest, base0_digest]
  exact ⟨rfl, fun h => absurd (congrArg List.length (show baseDigest = baseDigest ++ [0#8] from h)) (by simp)⟩

/-- A device with a poisoned page of a committed shard whose version has the digest `d`. -/
def shardW (d : List Byte) : State :=
  { jobW plain { job0 with shards := [(0, { ver := ⟨4, d⟩ })] } with
    regions := [{ base := 2 ^ 53, size := 65536 * 8, alt := 65536 * 8, kind := 2, owner := 1, slot := some 0, shard := some 0 }]
    pages := [(page0, { poison := true })] }

theorem test_recovery_met (d : List Byte) : (getPage (shardW d) page0).poison = true ∧ (getPage (shardW d) page0).pool = none ∧
    shardOfPage (shardW d) page0 = some (0, 0) ∧ asleep (shardW d) page0 = false ∧
    ((getJob (shardW d) 0).map fun j => (j.shards.getD 0 {}).ver.digest) = some d := by
  refine ⟨rfl, rfl, ?_, awake _ _ rfl (by decide), rfl⟩
  have h : pageAddr page0 = 2 ^ 53 + 3 * 65536 := by decide
  simp [shardOfPage, pageRegion, regionAt, h, shardW, Region.holds, Region.stop, getJob, getSlot, Table.getD, Table.get, jobW, world, bufferOf]

/-! ## Hypotheses that are met: ports, starts, hands and power -/

/-- A job frame of class 4 that is in sequence at a fresh port. -/
def frame0 : GlFrame := { dstDev := 0, cls := 4, lseq := 0, ftype := 0, prov := false, last := true, run := 2, src := 0, dst := 0, job := 0, epoch := 0, bar := 5, beat := 0, route := 0, fseq := 0, payload := [1#8] }

/-- A device with port 0 in a state. -/
def portW (p : Port) : State := { jobW plain job0 with ports := [(0, p)] }

theorem test_training_met : (topoOf (portW {}) 0).unused = false ∧ (getPort (portW {}) 0).state < 2 ∧
    (portW {}).dev.refGl = true ∧ (portW {}).dev.stopped = false ∧ (portW {}).dev.starting = false ∧
    (getHand (portW {}) 0).mode = .running ∧ trainedState 0 = 0 ∧ trainedState 15 ≠ 0 ∧
    1 ≠ (topoOf (portW {}) 0).peerDev ∧ 0 = (topoOf (portW {}) 0).peerDev := by decide

theorem test_rewind_met (tries : Nat) : let k : GlClass := { frames := [frame0], read := 1, tries }
    (getPort (portW { state := 2, classes := [(4, k)] }) 0).isUp = true ∧
    (getPort (portW { state := 2, classes := [(4, k)] }) 0).classes.getD 4 {} = k ∧ 0 < k.read := ⟨rfl, rfl, Nat.one_pos⟩

theorem test_frames_met : (getPort (portW { state := 2 }) 0).isUp = true ∧ frame0.corrected = 0 ∧ frame0.sent = 0 ∧
    frame0.opened = false ∧ frame0.cls ≤ 6 ∧ frame0.crcOk = true ∧ frame0.uncorr = 0 ∧ { frame0 with crcOk := false }.crcOk = false ∧
    frame0.lseq = (getPort (portW { state := 2 }) 0).rxSeq.getD frame0.cls 0 ∧ { frame0 with lseq := 1 }.lseq ≠ 0 ∧
    frame0.dstDev = (portW { state := 2 }).setup.deviceId ∧ { frame0 with dstDev := 9 }.dstDev ≠ (portW { state := 2 }).setup.deviceId ∧
    slotOfJob (portW { state := 2 }) { frame0 with job := 9 }.job = none ∧ slotOfJob (portW { state := 2 }) frame0.job = some 0 ∧
    frame0.resvOk = true ∧ frame0.ftype = 0 ∧ frame0.payload.length ≤ 4096 := by decide

theorem test_control_frame_met : let f : GlCtl := { acks := [], dataCredits := 8, collCredits := 0, recs := [] }
    f.crcOk = true ∧ f.uncorr = 0 ∧ { f with uncorr := 1 }.uncorr ≠ 0 ∧ f.recs = [] ∧
    (List.range 7).all (fun c => (f.acks.getD c none).isNone) = true := by decide

theorem test_ack_met : let k : GlClass := { frames := [frame0, frame0], read := 0, sent := 2 }
    1 ≤ k.sent ∧ k.sent < 2 ^ 24 ∧ k.lseq < 2 ^ 24 ∧ (getPort (portW { classes := [(4, k)] }) 0).classes.getD 4 {} = k := by decide

theorem test_restarts_met : let s := jobW plain job0
    let sealed : State := { s with dev := { s.dev with state := .sealed, sealCounter := 1 } }
    s.verdictRuns = [] ∧ s.refuseRuns = [] ∧ { s.dev with thermLatch := true }.thermLatch = true ∧ sealed.dev.state = .sealed ∧ sealed.dev.sealCounter % 2 = 1 ∧
    sealed.dev.sealCounter < 15 ∧ s.dev.starting = false ∧ s.dev.stopped = false ∧ s.dev.hubRestarts = [] ∧
    max s.ptp.now 0 < 1000 + 86400000000000 := by
  refine ⟨rfl, rfl, rfl, rfl, rfl, by decide, rfl, rfl, rfl, by decide⟩

/-- The device after reset as its start finds it. -/
def startW : State :=
  takeSetup (takeFw {} { State.reset with dev := { State.reset.dev with pwrOk := true, resetN := true, cfgOutcome := 0, fwOutcome := 0 } })

theorem test_start_met : State.reset.dev.starting = true ∧ State.reset.dev.thermLatch = false ∧
    ({} : StartObs).selfTestOk = true ∧ ({} : StartObs).activeFwOk = true ∧ ({ selfTestOk := false } : StartObs).selfTestOk = false ∧
    setupBank startW (bootNow startW).cfg = some defaultSetup ∧ setupValid startW defaultSetup = true ∧
    State.reset.dev.state = .starting ∧ ({} : StartObs).confirm0 = true ∧ ({ confirm0 := false } : StartObs).confirm0 = false ∧
    State.reset.dev.sealCounter % 2 = 0 ∧ { State.reset.dev with sealCounter := 1 }.sealCounter % 2 = 1 := by
  refine ⟨rfl, rfl, rfl, rfl, rfl, rfl, by decide, rfl, rfl, rfl, rfl, rfl⟩

theorem test_clocks_met : let s := jobW plain job0
    (List.range 18).all (fun p => !(getPort s p).isUp && !(topoOf s p).unused && !(getPort s p).unused) = true ∧
    (getHand s (17 / 9)).mode = .running ∧ s.dev.starting = false ∧ s.dev.stopped = false ∧
    ethUp { s with dev := { s.dev with refEth := true } } = false := by decide

/-- A device whose hand 0 is in a state. -/
def handW (h : Hand) : State := { jobW plain job0 with hands := (h, { confirmed := true }), parts := [] }

theorem test_baton_met : (handW {}).dev.state = .ready ∧ (getHand (handW {}) 0).mode = .running ∧
    (handW {}).dev.batonCopies.1 = (handW {}).dev.batonCopies.2 ∧ (handW {}).dev.batonValid = true ∧
    (getHand (handW { mode := .resetting }) (handW {}).dev.baton).mode = .resetting ∧
    (getHand (handW { mode := .resetting }) 0).since + 10000000000 < max 1000 10000000001 := by decide

theorem test_hand_fault_met : (getHand (handW {}) 0).mode = .running ∧ handParts (handW {}) 0 = [] ∧
    (List.range 9).all (fun i => !(getPort (handW {}) (9 * 0 + i)).isUp) = true ∧ (getHand (handW {}) 0).lastFault = none ∧
    max 1000 0 < 900 + 3600000000000 ∧ (getHand (handW { lastFault := some 900 }) 0).lastFault = some 900 ∧
    (getHand (handW { mode := .resetting, faultCause := 1 }) 0).stuck = false ∧
    (getHand (handW { mode := .resetting, faultCause := 1 }) 0).faultCause ≠ 3 := by decide

theorem test_retune_met : (getHand (handW {}) 0).retuning = false ∧ (getHand (handW {}) 1).retuning = false ∧
    (getHand (handW {}) 0).lastRetune + retuneNs (handW {}) ≤ max (handW {}).ptp.now (10 ^ 15) ∧
    (getHand (handW { retuning := true }) 0).retuning = true ∧
    ([ceilMv 0] : List Nat).getD 0 0 ≤ ceilMv 0 ∧ 0 < ceilMv 0 ∧ (getHand (handW { changing := some 3 }) 0).changing = some 3 := by decide

/-- A device whose ten windows drew a tenth of the cap. -/
def windowW (t0 t1 : Nat) : State :=
  { jobW plain job0 with hands := ({ tempo := t0 }, { tempo := t1 })
                         ptp := { (default : Ptp) with now := 10 ^ 9 }
                         setup := { State.reset.setup with settings := { State.reset.setup.settings with isoOff := true } }
                         pwr := { capW := 960, wins := List.replicate 10 960, wins0 := List.replicate 10 400, wins1 := List.replicate 10 400 } }

theorem test_window_met : (windowW 0 0).dev.starting = false ∧ (windowW 0 0).dev.stopped = false ∧ 21 * 960 < 2 * 10081 ∧
    (getHand (windowW 0 0) 0).mode = .running ∧ (getHand (windowW 0 0) 1).mode = .running ∧ 0 < (getHand (windowW 3 3) 0).tempo ∧
    (getHand (windowW 0 0) 1).tempo = 0 := by decide

theorem test_raise_met : mayRaise (getHand (windowW 1 1) 0) 9600 4000 10 960 = true ∧
    sumNat (windowW 1 1).pwr.wins = 9600 ∧ sumNat (windowW 1 1).pwr.wins ≤ 960 * 10 * 10 ∧ 2 * 960 ≤ 21 * 960 ∧
    (windowW 1 1).pwr.hold ≤ (windowW 1 1).ptp.now ∧ (windowW 1 1).pwr.last + 10000000 ≤ (windowW 1 1).ptp.now ∧
    (windowW 1 1).setup.settings.isoOff = true ∧ ¬ (getHand (windowW 1 1) 1).tempo < (getHand (windowW 1 1) 0).tempo ∧
    ¬ (getHand (windowW 2 1) 0).tempo ≤ (getHand (windowW 2 1) 1).tempo ∧
    mayRaise (getHand (windowW 2 1) 1) 9600 4000 10 960 = true := by decide

theorem test_samples_met : ((((getHand (handW {}) 0).temps.put 2 1600).map (·.2)).foldl max 0) / 16 = 100 ∧ 100 < 105 ∧
    monLive (handW {}) 0 160 = true ∧ monKind 0 160 = 7 ∧ monKind 0 176 = 8 ∧ monKind 0 178 = 5 ∧ monKind 2 4 = 6 := by decide

theorem test_log_timers_met : let s := handW {}
    let v : VerdictRun := { (default : VerdictRun) with count := 1024 }
    let q : State := { s with dev := { s.dev with state := .sealing, sealWait := some w0 }, verdictRuns := [(0, v)], logUnsigned := 4096 }
    s.refuseRuns = [] ∧ s.dev.sealWait = none ∧ q.refuseRuns = [] ∧ q.dev.state = .sealing ∧ q.dev.sealWait = some w0 ∧
    4096 ≤ q.logUnsigned ∧ q.verdictRuns.get 0 = some v ∧ 1024 ≤ v.count := ⟨rfl, rfl, rfl, rfl, rfl, Nat.le_refl _, rfl, Nat.le_refl _⟩

theorem test_fault_met : (getPart (jobW plain job0) 0).primary = some 0 ∧ getJob (jobW plain job0) 0 = some job0 := ⟨rfl, rfl⟩

theorem test_memory_met : ({ s1 .nop with pending := [.nop c0 {}] } : State).pending = [.nop c0 {}] ∧
    memOk { s1 .nop with pending := [.nop c0 {}] } = true := by decide

/-! ## Hypotheses that are met: host commands -/

/-- The header of a command of session 1 in context 1. -/
def hd : Hdr := { sess := 1, ref := 1, context := 1 }

/-- The controlling host with context 1. -/
def sndA : Sender := ⟨[9#8], [1], true, 2 ^ 30⟩

/-- A context with room for everything. -/
def tenA : Tenant := { state := .opened, keys := [List.replicate 57 3#8], quotas := ⟨16, 2 ^ 40, 2 ^ 40, 2 ^ 40, 2 ^ 40, 16, 16, 4, 16⟩ }

/-- A device that has a session of the controlling host, contexts 1 and 2, and slots. -/
def host (slots : Table Slot) : State :=
  { world plain job0 {} with
    sessions := [(1, { phase := 2, prin := [9#8], contexts := [1], window := 2 ^ 30, credit := 65536, control := true })]
    tenants := [(1, tenA), (2, { state := .opened })], slots }

theorem accH (s : State) (op : Nat) (who : Who) (ex : Bool) (cmd : Instr) (hs : senderOf s hd = some sndA)
    (hp : (s.inq.cls 0).parked = false) (ha : s.accepted.length < 2047) (hw : waitsFor s cmd = false)
    (hg : gate hd op who sndA (takeCmd hd s) = none) (hz : cmdAsleep s cmd = false := by first | rfl | decide) :
    Accepts s hd op who ex cmd sndA := ⟨hs, rfl, hp, ha, .inr hw, hz, hg⟩

theorem test_device_met : Accepts (host []) hd 0x0101 .any true (.stateRead hd []) sndA ∧
    Accepts (host []) hd 0x0103 .control false (.portLevel hd 0 8192) sndA ∧
    Accepts (host []) hd 0x0103 .control false (.portLevel hd 1 16384) sndA ∧
    Accepts (host []) hd 0x0105 .control false (.pwrCap hd 960) sndA ∧
    Accepts (host []) hd 0x0102 .control false (.deviceReset hd (shake256 8 (host []).dev.idKey)) sndA ∧
    orDefault (host []).setup.settings.capMinW 250 ≤ 960 ∧ 960 ≤ orDefault (host []).setup.settings.capMaxW 960 ∧ 960 % 10 = 0 :=
  ⟨accH _ _ _ _ _ rfl rfl (by decide) rfl rfl, accH _ _ _ _ _ rfl rfl (by decide) rfl rfl, accH _ _ _ _ _ rfl rfl (by decide) rfl rfl,
   accH _ _ _ _ _ rfl rfl (by decide) rfl rfl, accH _ _ _ _ _ rfl rfl (by decide) rfl rfl, by decide, by decide, rfl⟩
theorem test_staging_met : let i : SetupImage := { defaultSetup with serial := 1 }
    Accepts (host []) hd 0x0603 .control false (.configStage { hd with win := 2 } ⟨0, 67602⟩ i) sndA ∧ setupRanges i = true ∧
    setupSigned (host []) i = true ∧ (setupBank (host []) (bootNow (host [])).cfg).map (·.serial) = some 0 ∧
    Accepts (host []) hd 0x0604 .control false (.fwStage { hd with win := 2 } ⟨0, 4096⟩ {}) sndA ∧
    (host []).dev.fwMinVersion ≤ ({} : FwImage).version ∧ ({} : FwImage).sigOk = true :=
  ⟨accH _ _ _ _ _ rfl rfl (by decide) rfl rfl, rfl, by decide, rfl, accH _ _ _ _ _ rfl rfl (by decide) rfl rfl, Nat.le_refl _, rfl⟩

theorem fitTo_length (n : Nat) (b : List Byte) : (fitTo n b).length = n := by
  simp [fitTo]

theorem leBytes_length (n v : Nat) : (leBytes n v).length = n := by
  induction n generalizing v with
  | zero => rfl
  | succ n ih => simp [leBytes, ih]

/-- A report of a device without scores is 978 bytes with its signature. -/
theorem report_length (s : State) (nonce : List Byte) (c n : Nat) (hl : s.slots = []) :
    (reportBytes s nonce false c ++ Config.freeBytes n 114).length = 978 := by
  have hw : (fwDigest s).length = 64 := fitTo_length ..
  have hh (i : Nat) : (if (getHand s i).mode = .resetting then List.replicate 64 0 else fwDigest s).length = 64 := by
    split
    · simp
    · exact hw
  have hs (v : Option (List Byte)) (b : Bool) (o : Nat) (d : List Byte) : (stageField v b o d).2.length = 64 := by
    unfold stageField
    split
    · exact fitTo_length ..
    · split
      · exact fitTo_length ..
      · simp
  unfold reportBytes
  simp only [List.length_append, leBytes_length, fitTo_length]
  simp only [hw, hh, hs, hl, List.filter_nil, List.flatMap_nil, List.length_nil, List.length_replicate, Config.freeBytes,
    List.length_map, List.length_range, Bool.false_eq_true, if_false]

theorem test_security_met (nonce : List Byte) : let e : LogEntry := { (default : LogEntry) with index := 0 }
    Accepts (host []) hd 0x0601 .any true (.attestReport hd nonce 0 ⟨0, 978⟩) sndA ∧ sndA.control = true ∧
    (reportBytes (takeCmd hd (host [])) nonce (0 == 1) hd.context ++ Config.freeBytes (host []).free 114).length ≤ 978 ∧
    Accepts { host [] with log := [e] } hd 0x0606 .any true (.logRead hd 0 1 ⟨0, 256⟩) sndA ∧ e.index ≤ 0 ∧
    0 + 1 ≤ logNext { host [] with log := [e] } ∧
    Accepts (host []) hd 0x0607 .control false (.sealReturn hd (shake256 16 (host []).dev.idKey)) sndA :=
  ⟨accH _ _ _ _ _ rfl rfl (by decide) rfl rfl, rfl, Nat.le_of_eq (report_length _ _ _ _ rfl),
   accH _ _ _ _ _ rfl rfl (by decide) rfl rfl, Nat.le_refl _, by decide, accH _ _ _ _ _ rfl rfl (by decide) rfl rfl⟩

/-- A key that no context holds. -/
def keyB : List Byte := List.replicate 57 7#8

theorem test_contexts_met :
    Accepts (host []) hd 0x0501 .control false (.tenantOpen hd 3 keyB) sndA ∧ keyB.length = 57 ∧ emptyKey keyB = false ∧
    ((host []).tenants.getD 3 {}).state = .closed ∧
    Accepts (host []) hd 0x0502 .control false (.tenantQuota hd 1 511 tenA.quotas) sndA ∧
    ((host []).tenants.getD 1 {}).state = .opened ∧ tenA.quotas.hot % 65536 = 0 ∧
    Accepts (host []) hd 0x0503 .control false (.tenantClose hd 2) sndA ∧ contextIdle (takeCmd hd (host [])) 2 = true ∧
    ((host []).tenants.getD 2 {}).state = .opened ∧
    Accepts (host []) hd 0x0605 .holder false (.prinKey hd false keyB) sndA ∧ keyB ∉ ((host []).tenants.getD 1 {}).keys ∧
    Accepts (host []) hd 0x0605 .holder false (.prinKey hd true (List.replicate 57 3#8)) sndA ∧
    List.replicate 57 3#8 ∈ ((host []).tenants.getD 1 {}).keys :=
  ⟨accH _ _ _ _ _ rfl rfl (by decide) rfl rfl, rfl, by decide, rfl, accH _ _ _ _ _ rfl rfl (by decide) rfl rfl, rfl, by decide,
   accH _ _ _ _ _ rfl rfl (by decide) rfl rfl, by decide, rfl, accH _ _ _ _ _ rfl rfl (by decide) rfl rfl, by decide,
   accH _ _ _ _ _ rfl rfl (by decide) rfl rfl, by decide⟩

/-- Slot 0 runs a job, slot 1 is loaded, slot 2 waits unbound. -/
def slotsH : Table Slot :=
  [(0, { state := .running, score := some plain, owner := 1, job := some job0 }),
   (1, { state := .loaded, score := some plain, owner := 1 }),
   (2, { state := .unbound, score := some { plain with ghost := true }, owner := 1, job := some { job0 with part := none } })]

theorem test_rotate_met : Accepts (host slotsH) hd 0x0602 .holderOrControl false (.keyRotate hd 1 0) sndA ∧
    Accepts (host slotsH) hd 0x0602 .holderOrControl false (.keyRotate hd 0 1) sndA ∧
    Accepts (host slotsH) hd 0x0602 .holderOrControl false (.keyRotate hd 0 2) sndA ∧
    ((host slotsH).tenants.getD 1 {}).oldGen = none ∧ (host slotsH).devOldGen = none ∧ getJob (host slotsH) 0 = some job0 ∧
    job0.keyAsk = false ∧ job0.oldKeys = [] :=
  ⟨accH _ _ _ _ _ rfl rfl (by decide) rfl rfl, accH _ _ _ _ _ rfl rfl (by decide) rfl rfl, accH _ _ _ _ _ rfl rfl (by decide) rfl rfl,
   rfl, rfl, rfl, rfl, rfl⟩

/-- The manifest of a base of one mapping of zeros. -/
def man0 : Manifest := { layers := [⟨[1], [0], [1]⟩], extents := [(3 * 2 ^ 52, 1)], mapDigests := [digest64 (List.replicate mappingBytes 0#8)], mappings := 1, digest := [], sigKey := some keyB }

theorem test_score_unload_met : Accepts (host slotsH) hd 0x0202 .holder false (.scoreUnload hd 1) sndA ∧
    (getSlot (host slotsH) 1).state = .loaded ∧ sndA.holds (getSlot (host slotsH) 1).owner = true :=
  ⟨accH _ _ _ _ _ rfl rfl (by decide) rfl rfl, rfl, rfl⟩

/-- A device whose setup image names the base's key. -/
def baseHost : State := { host [] with setup := { defaultSetup with baseKeys := [keyB] } }

theorem test_base_load_met (image : List Byte) : Accepts baseHost hd 0x0104 .control false
      (.baseLoad { hd with win := 2 } ⟨0, 4096⟩ ⟨4096, 2097152⟩ 0 man0 image) sndA ∧ extentsOk man0 = true ∧
    imageOk (takeCmd hd baseHost) man0 (List.replicate mappingBytes 0#8) = true ∧ baseHost.slots = [] ∧
    (baseRegions (takeCmd hd baseHost) man0).all (fun r => rangeFree (withoutBase (takeCmd hd baseHost)) r.base r.size &&
      outsideStore (takeCmd hd baseHost) r.base r.size) = true := by
  refine ⟨accH _ _ _ _ _ rfl rfl (by decide) rfl rfl, by decide, ?_, rfl, by decide⟩
  have h : (List.replicate mappingBytes 0#8).take mappingBytes = List.replicate mappingBytes 0#8 := by simp
  have hk : (!emptyKey keyB && (takeCmd hd baseHost).setup.baseKeys.contains keyB) = true := by decide
  have hl : ((List.replicate mappingBytes 0#8).length == 1 * mappingBytes) = true := by simp
  have hd : ((List.range 1).all fun i => digest64 (((List.replicate mappingBytes 0#8).drop (i * mappingBytes)).take mappingBytes) ==
      [digest64 (List.replicate mappingBytes 0#8)].getD i []) = true := by
    rw [show List.range 1 = [0] from rfl, List.all_cons, List.all_nil, Nat.zero_mul, List.drop_zero, h, List.getD_cons_zero]
    simp
  exact Bool.and_eq_true_iff.mpr ⟨Bool.and_eq_true_iff.mpr ⟨Bool.and_eq_true_iff.mpr ⟨Bool.and_eq_true_iff.mpr ⟨rfl, hk⟩, hl⟩, rfl⟩, hd⟩

/-- An output vector of sixteen BF16 elements for site 0 of layer 0. -/
def adaptF0 : AdaptF := { kind := 1, fmt := 1, planes := 0, site := 0, rank := 0, dIn := 0, dOut := 16, alpha := 0x3F800000#32, layers := [0], bytes := 32, tier := 2 }

/-- An adaptation that context 1 holds. -/
def adapt0 (st : AdState) (pins : Nat) : Adapt := { owner := 1, f := adaptF0, state := st, pins, home := 2 ^ 53 }

/-- A device with one adaptation and a base. -/
def adaptHost (a : Adapt) : State := { host slotsH with registry := [(7, a)], base := some { man := man0 } }

theorem test_registry_met : let s := adaptHost (adapt0 .ready 0)
    (s.registry.get 7).isSome = true ∧ sndA.holds 1 = true ∧
    Accepts s hd 0x0302 .any true (.adaptQuery hd 7) sndA ∧ Accepts s hd 0x0303 .holder false (.adaptRead hd 7 ⟨0, 32⟩) sndA ∧
    (adaptPages (adapt0 .ready 0)).all (fun n => !(getPage s n).poison) = true ∧
    Accepts s hd 0x0304 .holder false (.adaptUnregister hd 7) sndA ∧ (adapt0 .ready 0).bound = 0 ∧
    Accepts s hd 0x0308 .holder false (.adaptGrant hd 7 true 2) sndA ∧ 2 ∉ (adapt0 .ready 0).grantees ∧
    Accepts s hd 0x0308 .holder false (.adaptGrant hd 7 false 2) sndA ∧
    Accepts (adaptHost (adapt0 .ready 1)) hd 0x0307 .any false (.adaptRevoke hd 7) sndA ∧ 0 < (adapt0 .ready 1).pins :=
  ⟨rfl, rfl, accH _ _ _ _ _ rfl rfl (by decide) rfl rfl, accH _ _ _ _ _ rfl rfl (by decide) rfl rfl, by decide,
   accH _ _ _ _ _ rfl rfl (by decide) rfl rfl, rfl, accH _ _ _ _ _ rfl rfl (by decide) rfl rfl, by decide,
   accH _ _ _ _ _ rfl rfl (by decide) rfl rfl, accH _ _ _ _ _ rfl rfl (by decide) rfl rfl, by decide⟩

theorem test_register_met (bytes : List Byte) : let s := adaptHost (adapt0 .ready 0)
    Accepts s hd 0x0301 .holder false (.adaptRegister { hd with win := 2 } adaptF0 ⟨0, 32⟩ bytes) sndA ∧
    adaptF0.layers = (List.range 256).filter adaptF0.layers.contains ∧ s.winReads = [] ∧ loadingEntry s hd = none ∧
    adaptFieldsOk adaptF0 = true ∧ adaptBytes adaptF0 = adaptF0.bytes ∧ adaptPlaced (takeCmd hd s) adaptF0 = true ∧
    lowestFree s.registry < 65536 ∧ (s.registry.filter fun p => p.2.owner == hd.context).length < (s.tenants.getD hd.context {}).quotas.reg ∧
    (homeQuota (s.tenants.getD hd.context {}) adaptF0.tier).all (fun q => decide (q.1 + wholePages adaptF0.bytes ≤ q.2)) = true ∧
    (freeRange (takeCmd hd s) adaptF0.tier (wholePages adaptF0.bytes) pageBytes).isSome = true :=
  ⟨accH _ _ _ _ _ rfl rfl (by decide) rfl rfl, by decide, rfl, rfl, by decide, by decide, by decide, by decide, by decide, by decide, by decide⟩

/-- A slot descriptor that the adaptation fits. -/
def sdesc0 : SlotDesc := { window := 2 ^ 52, wsize := 2097152, sclass := 1, site := 0, fmt := 1, limit := 0 }

/-- A job with one adaptation slot. -/
def jobA (b : Table (List Binding)) : Job := { job0 with f := { (default : StartF) with slotList := [sdesc0] }, bindings := b }

/-- A device whose job has an adaptation slot. -/
def slotHost (st : AdState) (b : Table (List Binding)) : State :=
  { adaptHost (adapt0 st 0) with slots := [(0, { state := .running, score := some plain, owner := 1, job := some (jobA b) })] }

theorem test_slot_commands_met : let s := slotHost .ready []
    let t := slotHost .ready [(0, [⟨some 7, 3⟩])]
    Accepts s hd 0x0305 .any false (.adaptClaim hd 0 0 7 3 (some 6)) sndA ∧ mayClaim (claimCtx sndA hd.context) (jobA []).owner (adapt0 .ready 0) = true ∧
    adaptFits (takeCmd hd s) plain sdesc0 (adapt0 .ready 0) = true ∧ cbarOk (jobA []) (some 6) = true ∧
    pinFits (takeCmd hd s) (adapt0 .ready 0) = true ∧
    Accepts t hd 0x0306 .holderOrControl false (.adaptRelease hd 0 0 none) sndA ∧
    boundLast (jobA [(0, [⟨some 7, 3⟩])]) 0 = some 7 ∧ (jobA [(0, [⟨some 7, 3⟩])]).releases = [] :=
  ⟨accH _ _ _ _ _ rfl rfl (by decide) rfl rfl, by decide, by decide, by decide, by decide,
   accH _ _ _ _ _ rfl rfl (by decide) rfl rfl, by decide, rfl⟩

set_option maxRecDepth 8000 in
theorem test_probe_met (ref : List Word) (set : List Byte) : let s := slotHost .stale []
    Accepts s hd 0x0309 .holder false (.adaptProbe { hd with win := 2 } 7 0 0 1 0x3F800000#32 ⟨0, 64⟩ ⟨64, 4⟩ ref set) sndA ∧
    finite32 0x3F800000#32 = true ∧ gt64 (widen 0x3F800000#32) 0 = true ∧
    adaptFits (takeCmd hd s) plain sdesc0 { adapt0 .stale 0 with baseDigest := plain.baseDigest } = true ∧
    (adapt0 .stale 0).state = .stale ∧ (jobA []).owner = (adapt0 .stale 0).owner ∧ boundLast (jobA []) 0 = none ∧
    (jobA []).bindings = [] ∧ pinFits (takeCmd hd s) (adapt0 .stale 0) = true :=
  ⟨accH _ _ _ _ _ rfl rfl (by decide) rfl rfl, by decide, by decide, by decide, rfl, rfl, by decide, rfl, by decide⟩

/-- The parameters of a start of slot 1. -/
def startF0 : StartF := { slot := 1, job := 9, rank := 0 }

theorem test_start_job_met : let s := host slotsH
    let b := takeCmd hd s
    let regs := startRegions b 1 1 0 startF0 plain
    Accepts s hd 0x0203 .holder false (.jobStart { hd with win := 2 } startF0) sndA ∧ trainAuth b sndA startF0 = true ∧
    restoreAuth b sndA startF0 = true ∧ startFieldsOk startF0 (some plain.replicas) = true ∧
    startExtentsOk startF0 plain.shards.length = true ∧ regs.all regionInTier = true ∧ entriesFed plain startF0.rank = true ∧
    readsFlags plain = false ∧ startF0.restore = .none ∧ trainReady b 1 startF0 = true ∧ trainReadable b startF0 = true ∧
    regionsApart b regs = true ∧ (addHolding 1 1 startF0 { b with regions := b.regions ++ regs }).isSome = true ∧
    (s.tenants.getD 1 {}).partUsed < (s.tenants.getD 1 {}).quotas.parts ∧
    (findOrigin b plain startF0.origin).isSome = true ∧ (freePartNo b).isSome = true ∧
    s.regions.length + regs.length + 3 ≤ 262144 ∧ restoreWin startF0 = [] :=
  ⟨accH _ _ _ _ _ rfl rfl (by decide) rfl rfl, rfl, rfl, by decide, by decide, by decide, by decide, by decide, rfl, rfl, rfl,
   by decide, by decide, by decide, by decide, by decide, by decide, rfl⟩

/-- A device whose partition 0 has a primary with a rest window for the ghost score of slot 2. -/
def bindHost : State :=
  { host slotsH with slots := slotsH.put 0 { state := .running, score := some { plain with rests := [{ win0 with localSize := 0x10000 }] }, owner := 1, job := some job0 } }

theorem test_bind_met : Accepts bindHost hd 0x0205 .holder false (.jobBind hd 2 0) sndA ∧
    getJob bindHost 2 = some { job0 with part := none } ∧ slotPart bindHost 2 = none ∧ (getPart bindHost 0).state ≠ .free ∧
    sndA.holds (getPart bindHost 0).owner = true ∧
    mayBind (takeCmd hd bindHost) { plain with ghost := true } 1 (getPart bindHost 0) = true :=
  ⟨accH _ _ _ _ _ rfl rfl (by decide) rfl rfl, rfl, by decide, by decide, by decide, by decide⟩

theorem test_job_change_met : let s := host slotsH
    let j := { job0 with cur := none, lost := [1], epoch := 3 }
    let t := host [(0, { state := .awaiting, score := some { plain with replicas := 2 }, owner := 1, job := some j })]
    Accepts s hd 0x0204 .holderOrControl false (.jobStop hd 0 1 9 false) sndA ∧ newestOpened job0 = some 5 ∧
    Accepts s hd 0x0207 .control false (.jobReshard hd 0 1 false [] none) sndA ∧ compatible plain plain = true ∧
    newRank (takeCmd hd s) 0 [] plain = some 0 ∧ reshardFits (takeCmd hd s) 0 job0 0 1 plain = true ∧
    Accepts t hd 0x0206 .control false (.jobAdmit hd 0 1 4 9 [] none) sndA ∧ 9 ≠ t.setup.deviceId ∧ 1 ∈ j.lost ∧
    j.admission = none ∧ (getSlot t 0).state = .awaiting :=
  ⟨accH _ _ _ _ _ rfl rfl (by decide) rfl rfl, by decide, accH _ _ _ _ _ rfl rfl (by decide) rfl rfl, by decide,
   by decide, by decide, accH _ _ _ _ _ rfl rfl (by decide) rfl rfl, by decide, by decide, rfl, rfl⟩

theorem test_job_data_met (bytes : List Byte) : let j := { job0 with norms := [(0, {})] }
    let s := { host [(0, { state := .running, score := some plain, owner := 1, job := some j })] with
      regions := [{ base := 2 ^ 52, size := 65536, kind := 0, owner := 1, slot := some 0 }] }
    Accepts s hd 0x0208 .holder true (.jobNorms hd 0 0 1 ⟨0, 32⟩) sndA ∧ normCount j = 1 ∧
    Accepts s hd 0x0209 .holder false (.jobCheckpoint hd 0 (some ⟨0, 32⟩)) sndA ∧
    Accepts s hd 0x020A .holder false (.jobInput { hd with win := 2 } 0 6 (2 ^ 52) ⟨0, 32⟩ bytes) sndA ∧
    inputRegion (takeCmd hd s) 0 plain (2 ^ 52) 32 = true ∧ inputLate j 6 = false :=
  ⟨accH _ _ _ _ _ rfl rfl (by decide) rfl rfl, by decide, accH _ _ _ _ _ rfl rfl (by decide) rfl rfl,
   accH _ _ _ _ _ rfl rfl (by decide) rfl rfl, by decide, by decide⟩

/-- Tables of a job whose score the loaded slot holds. -/
def tables0 : JobTables := { (default : JobTables) with start := startF0, owner := 1 }

theorem test_spare_met : let s := { host slotsH with base := some { man := man0 } }
    let b := takeCmd hd s
    Accepts s hd 0x0206 .control false (.jobAdmit hd 1 0 1 s.setup.deviceId (shake256 16 s.dev.idKey) (some tables0)) sndA ∧
    tables0.score = (getSlot s 1).digest ∧ 0 < plain.replicas ∧ s.base.map (·.man.digest) = some plain.baseDigest ∧
    (startRegions b 1 1 0 { tables0.start with slot := 1, rank := 0 } plain) = [] ∧
    (addHolding 1 1 { tables0.start with slot := 1, rank := 0 } { b with regions := b.regions ++ [] }).isSome = true ∧
    (findOrigin b plain none).isSome = true ∧ (freePartNo b).isSome = true :=
  ⟨accH _ _ _ _ _ rfl rfl (by decide) rfl rfl, rfl, by decide, rfl, rfl, by decide, by decide, by decide⟩

theorem newRank_own (s : State) (n r : Nat) (sc : Score) :
    newRank s n [(r, s.setup.deviceId, shake256 16 s.dev.idKey)] sc = some r := by simp [newRank]

theorem test_fresh_met : let s := { host (slotsH.del 0) with base := some { man := man0 } }
    let b := takeCmd hd s
    Accepts s hd 0x0207 .control false (.jobReshard hd 0 1 false [] (some tables0)) sndA ∧ getJob s 0 = none ∧
    (getSlot s 0).score = none ∧ newRank b plain.replicas [(0, s.setup.deviceId, shake256 16 s.dev.idKey)] plain = some 0 ∧
    (getSlot s 1).state = .loaded ∧ s.base.map (·.man.digest) = some plain.baseDigest ∧
    (startRegions b 1 1 0 { tables0.start with slot := 1, rank := 0 } plain) = [] ∧ (findOrigin b plain none).isSome = true ∧
    (freePartNo b).isSome = true :=
  ⟨accH _ _ _ _ _ rfl rfl (by decide) rfl rfl, rfl, rfl, newRank_own (takeCmd hd { host (slotsH.del 0) with base := some { man := man0 } }) _ _ _, rfl, rfl, rfl, by decide, by decide⟩

/-- A generation block of one row. -/
def gen0 : GenBlock := { rows := 1, chunk := 16, kvPages := 4, pageBytes := 65536, kvBase := 2 ^ 53, rowBase := 2 ^ 52, plan := [none] }

/-- A request for that row. -/
def reqF0 : ReqF := { slot := 0, aslot := none, session := 3, maxNew := 4, temp := 0, topP := 0x3F800000#32, penalty := 0x3F800000#32, topK := 0, pwin := 0, prio := 0, stop := 0, key := 0, abar := none, ptok := 2, prompt := [5, 6] }

/-- A device with a generation job and an open session. -/
def genHost (reqs : Table Request) : State :=
  { host [(0, { state := .running, score := some plain, owner := 1, job := some { job0 with f := { (default : StartF) with gen := some gen0 } } })] with
    sess := [(3, { owner := 1, state := .opened, dir := 0, maxPages := 4 })], reqs }

/-- A request of context 1. -/
def req0 (st : ReqState) : Request := { owner := 1, f := reqF0, state := st, adapt := none, pos := 0, pend := 0, sess := 1 }

set_option maxRecDepth 8000 in
theorem test_submit_met : let j := { job0 with f := { (default : StartF) with gen := some gen0 } }
    Accepts (genHost []) hd 0x0401 .holder false (.reqSubmit hd reqF0) sndA ∧ getJob (genHost []) 0 = some j ∧
    servedBy j reqF0 = none ∧ reqFieldBad reqF0 = none ∧ reqExtents gen0 (0 + 2) reqF0 = none ∧
    aslotState (takeCmd hd (genHost [])) j gen0 reqF0 = none ∧
    (((genHost []).tenants.getD 1 {}).lpUsed + promptBytes reqF0 ≤ ((genHost []).tenants.getD 1 {}).quotas.lp) :=
  ⟨accH _ _ _ _ _ rfl rfl (by decide) rfl rfl, rfl, rfl, by decide, by decide, by decide, by decide⟩

theorem test_requests_met : Accepts (genHost [(0, req0 .live)]) hd 0x0402 .holder false (.reqCancel hd 0) sndA ∧
    (req0 .live).state = .live ∧ Accepts (genHost [(0, req0 .queued)]) hd 0x0402 .holder false (.reqCancel hd 0) sndA ∧
    Accepts (genHost []) hd 0x0403 .holder false (.sessOpen hd 16384) sndA ∧
    (freeDir (takeCmd hd (genHost [])) 16384).isSome = true ∧ lowestFree (genHost []).sess < 1048576 ∧
    Accepts (genHost []) hd 0x0404 .holder false (.sessClose hd 3) sndA ∧
    ((genHost []).sess.get 3).map (·.state) = some .opened :=
  ⟨accH _ _ _ _ _ rfl rfl (by decide) rfl rfl, rfl, accH _ _ _ _ _ rfl rfl (by decide) rfl rfl,
   accH _ _ _ _ _ rfl rfl (by decide) rfl rfl, by decide, by decide, accH _ _ _ _ _ rfl rfl (by decide) rfl rfl, rfl⟩

/-! ## Hypotheses that are met: the host port -/

theorem test_completion_met : ({ host [] with sessions := [] } : State).sessions.get w0.sess = none ∧
    ({ host [] with log := [] } : State).log.length < 1073741824 := by decide

theorem test_gate_met : State.reset.dev.state = .starting ∧ 0x0102 ≠ 0x0101 ∧ 0x0203 ∉ [0x0101, 0x0601, 0x0102] ∧
    0x0203 ∉ [0x0101, 0x0601, 0x0606] ∧ (host []).dev.state = .ready ∧ { hd with cver := 2 }.cver ≠ 1 ∧ hd.cver = 1 ∧
    hd.resvOk = true ∧ hd.ref ≠ 0 ∧ refBusy (host []) hd = false ∧ mayName (host []) .holder sndA 2 = false := by
  refine ⟨rfl, by decide, by decide, by decide, rfl, by decide, rfl, rfl, by decide, by decide, by decide⟩

/-- A device whose link is up and whose host is associated, with a session in a phase. -/
def hostUp (phase : Nat) : State :=
  { host [] with ethState := 2, assocNum := some (5, 77),
                 sessions := [(1, { phase, prin := [9#8], contexts := [1], window := 2 ^ 30, credit := 65536, control := true })] }

theorem test_link_met : ethUp (host []) = false ∧ (host []).dev.stopped = false ∧ (host []).dev.starting = false ∧ (host []).dev.refEth = true ∧
    (host []).setup.settings.ethMode = 0 ∧ ethUp (hostUp 2) = true ∧ (hostUp 2).setup.settings.encap = 0 ∧
    ({ (host []).setup.settings with encap := 1 } : Settings).encap ≠ 0 := by decide

theorem test_ptp_met : ethUp (hostUp 2) = true ∧ 0 = (hostUp 2).setup.settings.ptpDomain ∧ (hostUp 2).ptp.state = 0 ∧
    ({ (hostUp 2).ptp with state := 1 } : Ptp).state ≠ 0 ∧ (hostUp 2).ptp.lastSync + 4000000000 ≤ max 1000 4000000000 := by decide

/-- A frame of a type in session 1. -/
def mb0 (ftype cls : Nat) (hs : Bool) (payload : List Byte) : MbFrame :=
  { ftype, cls, first := true, last := true, session := if hs && cls == 7 then 0 else 1, hs, len := payload.length, seq := 0, assoc := 77, ctr := 0, ref := 1, srcAddr := 5, payload }

set_option maxRecDepth 40000 in
theorem test_open1_met : let s := { hostUp 2 with tenants := [(1, { tenA with keys := [keyB] })] }
    let f := mb0 2 7 true [1#8]
    frameBasic s f = true ∧ f.ftype = 2 ∧ f.hs = true ∧ f.session = 0 ∧ f.cls = 7 ∧ keyB.length = 57 ∧
    (List.replicate 56 1#8).length = 56 ∧ (List.replicate 32 1#8).length = 32 ∧
    s.sessions.all (fun p => p.2.transcript != f.payload) = true ∧ openStatus s keyB [1] = cOk ∧
    s.sessions.lowestFree 4096 = some 0 := by decide

theorem test_open3_met : let f := { mb0 2 7 true [1#8] with session := 1 }
    ((hostUp 1).sessions.get f.session).map (·.phase) = some 1 ∧ frameBasic (hostUp 1) f = true ∧ f.ftype = 2 ∧ f.hs = true ∧ f.cls = 7 := by decide

theorem test_cmd_frame_met : let s := hostUp 2
    let f := mb0 3 4 false (List.replicate 8 1#8)
    frameBasic s f = true ∧ f.hs = false ∧ f.gcmOk = true ∧ f.ref ≠ 0 ∧ 0 < f.len ∧ f.first = true ∧
    (s.sessions.get f.session).map (fun x => (x.phase, x.used, x.credit)) = some (2, 0, 65536) ∧
    f.seq = s.inSeq.getD f.cls 0 ∧ s.inq.hasSpace inCap f.cls (48 + f.payload.length) = true ∧ s.cmdParts = [] := by decide

theorem test_session_frames_met :
    (frameBasic (hostUp 2) (mb0 9 4 false []) = true ∧ (hostUp 2).inq.hasSpace inCap 4 48 = true) ∧
    (let r : WinRead := { sess := 1, ref := 1, left := 4096, since := 0, cmd := .stateRead hd [] }
     let f := mb0 7 4 false (List.replicate 24 0#8)
     frameBasic { hostUp 2 with winReads := [r] } f = true ∧ r.sess = f.session ∧ r.ref = f.ref ∧ 8 ≤ f.payload.length ∧
       f.payload.length < r.left + 8 ∧ ({ w0 with prin := [9#8] } : Wait).sess = r.sess ∧ w0.ref = r.ref ∧
       0 + 48 + f.payload.length ≤ 65536) ∧
    (frameBasic (hostUp 2) (mb0 8 4 false (List.replicate 32 0#8)) = true ∧
      (List.range 8).all (fun c => !serialBefore (sentEnd (hostUp 2) c) ((List.replicate 8 0).getD c 0)) = true) := by decide

/-- An outbound packet of session 1. -/
def item0 (opened : Bool) : PealItem := { sess := 1, ftype := 5, ref := 0, opened }

theorem test_host_timers_met : (controlSession { hostUp 2 with ackOwed := 1 }).isSome = true ∧
    0 < ({ items := [item0 false], read := 1, sent := 1 } : PealClass).read ∧
    (item0 false).since + retxNs (hostUp 2) ≤ max (hostUp 2).ptp.now (10 ^ 12) ∧
    ((hostUp 2).sessions.get 1).map (fun x => decide (x.last + idleNs (hostUp 2) ≤ 10 ^ 12)) = some true ∧ (hostUp 2).replies = [] ∧ (hostUp 2).outq.highest = none ∧
    ({ (hostUp 2).outq with classes := [(6, { items := [item0 false] })] } : Peal).highest = some 6 ∧
    (({ (hostUp 2).outq with classes := [(6, { items := [item0 true] })] } : Peal).cls 6).items.getLast? = some (item0 true) ∧
    ({ hostUp 2 with replies := [(1, [0#8])] } : State).replies = [(1, [0#8])] ∧
    ([{ prin := some [9#8], recs := [], expires := 5 }] : List Linger)[0]? = some { prin := some [9#8], recs := [], expires := 5 } ∧
    (hostUp 2).slots = [] := by decide

theorem test_window_timeout_met : let r : WinRead := { sess := 1, ref := 1, left := 4096, since := 0, cmd := .stateRead hd [] }
    [r].find? (fun x => x.sess == 1 && x.ref == 1) = some r ∧ [w0].find? (fun a => a.sess == 1 && a.ref == 1) = some w0 ∧
    0 < r.left ∧ r.since + windowNs (hostUp 2) ≤ max (hostUp 2).ptp.now (10 ^ 12) := ⟨rfl, rfl, by decide, by decide⟩

/-! ## A score file -/

/-- A score file of one core whose program is `end`: the header of R27, five sections and, from 0x080, the SHAKE256 digest of the bytes from
0x100 on. -/
def scoreBytes : List Byte :=
  ([67, 83, 84, 75, 2, 0, 5, 0, 0, 65, 162, 0, 0, 0, 0, 0, 1, 1, 0, 0, 4, 0, 1] ++ List.replicate 105 0 ++ [223, 197, 148, 77, 184, 221, 33,
    230, 66, 154, 159, 192, 211, 124, 39, 133, 239, 129, 175, 50, 79, 209, 164, 47, 3, 190, 118, 222, 179, 193, 19, 254, 170, 248, 123, 43, 177,
    225, 255, 253, 97, 121, 162, 49, 236, 7, 140, 206, 110, 91, 253, 241, 78, 221, 61, 6, 239, 66, 147, 109, 133, 42, 200, 180] ++
    List.replicate 64 0 ++ [1, 0, 0, 0, 1, 0, 0, 0, 160, 1, 0, 0, 0, 0, 0, 0, 24] ++ List.replicate 15 0 ++ [2, 0, 0, 0, 1, 0, 0, 0, 184, 1, 0,
    0, 0, 0, 0, 0, 8] ++ List.replicate 15 0 ++ [4, 0, 0, 0, 1, 0, 0, 0, 192, 1, 0, 0, 0, 0, 0, 0, 8] ++ List.replicate 15 0 ++ [6, 0, 0, 0, 1,
    0, 0, 0, 200, 1, 0, 0, 0, 0, 0, 0, 16] ++ List.replicate 15 0 ++ [8, 0, 0, 0, 1, 0, 0, 0, 216, 1, 0, 0, 0, 0, 0, 0, 16] ++ List.replicate 15
    0 ++ [16, 0, 0, 0, 1] ++ List.replicate 18 0 ++ [16, 3] ++ List.replicate 47 0 : List Nat).map (BitVec.ofNat 8)

/-- With physical row 3 fused out, software's row 3 is physical row 4 and there are sixteen (01 R11); of 132 lanes without lane 0,
logical lane 127 is physical lane 128 (04 R105). -/
theorem test_fuses : (rowMapOf { spareRow := 3 }).length = 16 ∧ (rowMapOf { spareRow := 3 }).getD 3 0 = 4 ∧
    (laneMapOf [0]).length = 128 ∧ (laneMapOf [0]).getD 127 0 = 128 := by decide +kernel

/-- The 128th write of a line renews its page's version: the major counter advances and every minor counter is 0 (17 R493). -/
theorem test_versions : let v : PageVer := { major := 6, lines := [(2, 127)] }
    v.step 2 = { major := 7 } ∧ (v.step 1).minor 1 = 1 ∧ (v.step 1).minor 2 = 127 := by decide

/-- The tree of a collective: rank 9 hangs from rank 1, and from rank 0 while rank 1 is lost (14 R416). -/
theorem test_tree : upRank [] 9 = some 1 ∧ upRank [1] 9 = some 0 ∧ downRanks 10 [] 1 = [9] ∧ downRanks 3 [] 0 = [1, 2] := by decide

theorem test_shake : (shake256 8 []).map (·.toNat) = [0x46, 0xB9, 0xDD, 0x2B, 0x0B, 0xA8, 0x8D, 0x13] := by decide +kernel

theorem test_score_load_ok : (match scoreVerdict (host slotsH).dev.ident [] scoreBytes with
    | .ok sc => sc.cores.map (·.insns)
    | .error _ => []) = [[⟨{}, .finish⟩]] := by decide +kernel

theorem test_score_load_met : Accepts (host slotsH) hd 0x0201 .holder false (.scoreLoad { hd with win := 2 } 5 ⟨0, 488⟩ scoreBytes) sndA ∧
    (getSlot (host slotsH) 5).state = .empty ∧ (host slotsH).winReads = [] ∧ fitTo 488 scoreBytes = scoreBytes ∧
    ((host slotsH).regions.filter fun q => q.kind == 4) = [] :=
  ⟨accH _ _ _ _ _ rfl rfl (by decide) rfl rfl, rfl, rfl, by decide +kernel, rfl⟩

end Sys2Proof.Tests
end

section
/-! The end of a scrub and of a shadow check (02 R53, 07 R230, R231): what a deletion of several keys leaves of a table, how
the newest run reads after a change, and what a shadow check writes. -/

namespace Sys2Proof

/-- Removed keys read as absent, every other one as before. -/
theorem Table.get_foldl_del {α : Type} (l : List Nat) (t : Table α) (k : Nat) :
    Table.get (l.foldl Table.del t) k = if k ∈ l then none else t.get k := by
  induction l generalizing t with
  | nil => simp
  | cons a l ih =>
    rw [List.foldl_cons, ih]
    by_cases hl : k ∈ l
    · simp [hl]
    · by_cases ha : k = a
      · simp [ha]
      · simp [hl, ha, Table.get_del_other t a k ha]

namespace Machine

open Sys2Proof.Safety

/-! ## The newest run -/

/-- The newest run changes wherever it stands. -/
theorem now_modNow (i : Nat) (f : Run → Run) (s : State) :
    (getJob (modNow i f s) i).bind Job.now = ((getJob s i).bind Job.now).map f := by
  cases hj : getJob s i with
  | none => simp [modNow, hj]
  | some j => cases ha : j.ahead <;> simp [modNow, hj, Job.now, ha]

/-- The score, job and run of a unit stand in the slot that its partition names, and its core is the one at its position. -/
theorem envOf_unit {s : State} {c : CoreRef} {e : Env} (h : envOf s c = some e) :
    (if c.ghost then (getPart s c.part).ghost else (getPart s c.part).primary) = some e.slot ∧
      e.key = coreKey (getPart s c.part) c.ghost (partWin s (getPart s c.part)) c.row c.col := by
  unfold envOf at h
  simp only at h
  split at h
  · cases h
  · rename_i hs
    repeat' split at h
    all_goals cases h
    exact ⟨hs, rfl⟩

/-! ## The scrub -/

theorem foldl_del_cores (l : List Nat) (s : State) :
    l.foldl (fun s k => { s with cores := s.cores.del k }) s = { s with cores := l.foldl Table.del s.cores } := by
  induction l generalizing s with
  | nil => rfl
  | cons k l ih => exact ih _

/-- A scrubbed core is empty, every other one as before. -/
theorem getCore_foldl_del (l : List Nat) (s : State) (key : Nat) :
    getCore { s with cores := l.foldl Table.del s.cores } key = if key ∈ l then {} else getCore s key := by
  simp only [getCore, Table.getD, Table.get_foldl_del]
  split <;> rfl

/-- The state that the end of a partition's scrub leaves (02 R53). -/
def partScrubbed (part : Nat) (s : State) : State :=
  let p := getPart s part
  let t := s.tenants.getD p.owner {}
  { s with cores := (partKeys p).foldl Table.del s.cores, parts := s.parts.del part,
           tenants := s.tenants.put p.owner { t with partUsed := t.partUsed - 1 } }

theorem exec_partitionScrubDone_scrubbing {s : State} {part : Nat} (hp : part < 64)
    (h : (getPart s part).state = .scrubbing) : exec (.partitionScrubDone part) s = .next (partScrubbed part s) := by
  simp [exec_partitionScrubDone, execPartitionScrubDone, Nat.not_le.mpr hp, h, foldl_del_cores, partScrubbed]

/-! ## The shadow check -/

/-- A check of an open run empties the buffer and adds one sample of its core and what it found to the run (07 R230, R231). -/
theorem exec_shadowCheckDone_open {s : State} {c : CoreRef} {e : Env} {b : ShadowBuf} (h : Standing s c e)
    (hb : e.ctx.shadow = some b) (ha : e.job.ahead = none) :
    let found := b.els.filterMap (shadowElem e.job.f.shadowT)
    ∃ sample n, (found = [] → sample = 63) ∧
      exec (.shadowCheckDone c) s =
        .next (modNow e.slot (Run.checked (found.any (·.2)) (handOfCol (e.key % 64) * 256 + 202, sample) n)
          (modCtx e.key e.ghost (fun c => { c with shadow := none }) s)) := by
  obtain ⟨hc, he⟩ := h
  obtain ⟨-, hg, -, -, hctx, -, hjob, hrun⟩ := envOf_core he
  obtain ⟨hslot, hkey⟩ := envOf_unit he
  have hcur : e.job.cur = some e.run := by simpa [Job.now, ha] using hrun
  rw [hctx, hg] at hb
  simp only [exec_shadowCheckDone, execShadowCheckDone, hc, hslot, ← hkey, hjob, hb, ha, hcur, hg]
  exact ⟨_, _, fun hf => by simp [hf], rfl⟩

/-! ## The obligation -/

/-- Settles O32: the scrub deletes the partition's cores, its record and one use of its owner; the check of an open run is
`exec_shadowCheckDone_open`. -/
theorem scrubsAndShadowChecksEnd : Obligations.ScrubsAndShadowChecksEnd := by
  intro s
  refine ⟨fun part hp h => ⟨_, exec_partitionScrubDone_scrubbing hp h, rfl, ?_, ?_, ?_, ?_, rfl⟩, ?_⟩
  · exact fun key hk => (getCore_foldl_del _ s key).trans (if_pos hk)
  · exact fun key hk => (getCore_foldl_del _ s key).trans (if_neg hk)
  · exact fun i hi => Table.get_put_other _ _ _ _ hi
  · simp [partScrubbed]
  · intro c e b h hb ha found
    obtain ⟨sample, n, hsample, hex⟩ := exec_shadowCheckDone_open h hb ha
    obtain ⟨-, -, -, -, hctx, -, hjob, hrun⟩ := envOf_core h.2
    have hnow : (getJob s e.slot).bind Job.now = some e.run := (congrArg (·.bind Job.now) hjob).trans hrun
    refine ⟨_, _, hex, ?_, (now_modNow _ _ _).trans (congrArg _ hnow), rfl, ⟨sample, rfl, hsample⟩, ?_, rfl⟩
    · rw [hctx]
      exact ctx_modCtx s e.key e.ghost fun c => { c with shadow := none }
    · intro hx
      have : found.any (·.2) = false := by simpa using hx
      simp [Run.checked, found, this]

end Machine

end Sys2Proof
end

section
/-! A bar's run drains, gets its combined words and is voted on (02 R39, 07 R216, 09 R275, R276): what the collectives leave
of every job, and what each of the three commands does where its conditions hold. -/

namespace Sys2Proof.Machine

/-! ## Changes of jobs alone -/

/-- Every slot differs at most in its job, and its job as `P` says. -/
structure JobsBy (P : Job → Job → Prop) (s t : State) : Prop where
  slot : ∀ i, ∃ f : Job → Job, (∀ j, P j (f j)) ∧ getSlot t i = { getSlot s i with job := (getJob s i).map f }

namespace JobsBy

variable {P : Job → Job → Prop} {s t u : State}

theorem of_slots (hP : ∀ j, P j j) (h : t.slots = s.slots) : JobsBy P s t :=
  ⟨fun i => ⟨id, hP, by simp [getSlot, getJob, h]⟩⟩

theorem trans (hP : ∀ {a b c}, P a b → P b c → P a c) (h : JobsBy P s t) (k : JobsBy P t u) : JobsBy P s u := by
  refine ⟨fun i => ?_⟩
  obtain ⟨f, hf, hs⟩ := h.slot i
  obtain ⟨g, hg, ht⟩ := k.slot i
  exact ⟨g ∘ f, fun j => hP (hf j) (hg _), by simp [ht, getJob, hs]⟩

theorem mono {Q : Job → Job → Prop} (hPQ : ∀ {a b}, P a b → Q a b) (h : JobsBy P s t) : JobsBy Q s t :=
  ⟨fun i =>
    have ⟨f, hf, hs⟩ := h.slot i
    ⟨f, fun j => hPQ (hf j), hs⟩⟩

theorem modJob (hP : ∀ j, P j j) (i : Nat) {f : Job → Job} (hf : ∀ j, P j (f j)) (s : State) :
    JobsBy P s (modJob i f s) := by
  refine ⟨fun k => ?_⟩
  by_cases h : k = i
  · subst h
    exact ⟨f, hf, by simp [Machine.modJob, getJob]⟩
  · exact ⟨id, hP, by simp [Machine.modJob, getSlot_modSlot_other _ _ _ _ h, getJob]⟩

theorem foldl {α : Type} (hP : ∀ j, P j j) (hT : ∀ {a b c}, P a b → P b c → P a c) {f : State → α → State}
    (hf : ∀ s a, JobsBy P s (f s a)) (l : List α) (s : State) : JobsBy P s (l.foldl f s) := by
  induction l generalizing s with
  | nil => exact of_slots hP rfl
  | cons a l ih => exact trans hT (hf s a) (ih _)

/-- The job of a slot after the changes. -/
theorem job (h : JobsBy P s t) (i : Nat) : ∃ f : Job → Job, (∀ j, P j (f j)) ∧ getJob t i = (getJob s i).map f :=
  let ⟨f, hf, hs⟩ := h.slot i
  ⟨f, hf, congrArg Slot.job hs⟩

end JobsBy

/-! ## What the collectives leave of a job (14 R416) -/

/-- A job differs at most in its collective records and its frame counter. -/
def Job.CollOnly (x y : Job) : Prop := { y with coll := x.coll, frameCtr := x.frameCtr } = x

theorem Job.CollOnly.refl (j : Job) : j.CollOnly j := rfl

theorem Job.CollOnly.trans {a b c : Job} (h : a.CollOnly b) (k : b.CollOnly c) : a.CollOnly c := by
  unfold Job.CollOnly at *
  rw [← k] at h
  exact h

theorem Job.CollOnly.cur {x y : Job} (h : x.CollOnly y) : y.cur = x.cur := by
  unfold Job.CollOnly at h
  rw [← h]

/-- Every job differs at most in its collective records and its frame counter. -/
abbrev CollsOnly (s t : State) : Prop := JobsBy Job.CollOnly s t

theorem CollsOnly.trans {s t u : State} (h : CollsOnly s t) (k : CollsOnly t u) : CollsOnly s u :=
  JobsBy.trans Job.CollOnly.trans h k

theorem collsOnly_of_slots {s t : State} (h : t.slots = s.slots) : CollsOnly s t := JobsBy.of_slots Job.CollOnly.refl h

theorem collsOnly_modJob (i : Nat) {f : Job → Job} (s : State) (hf : ∀ j : Job, j.CollOnly (f j) := by intro; rfl) :
    CollsOnly s (modJob i f s) :=
  JobsBy.modJob Job.CollOnly.refl i hf s

theorem collsOnly_foldl {α : Type} {f : State → α → State} (hf : ∀ s a, CollsOnly s (f s a)) (l : List α) (s : State) :
    CollsOnly s (l.foldl f s) := JobsBy.foldl Job.CollOnly.refl Job.CollOnly.trans hf l s

theorem linkEnqueue_slots (f : GlFrame) (s : State) : (linkEnqueue f s).slots = s.slots := by
  unfold linkEnqueue; split <;> rfl

theorem collsOnly_sendFrame (slot : Nat) (f : GlFrame) (s : State) : CollsOnly s (sendFrame slot f s) :=
  (collsOnly_modJob slot s).trans (collsOnly_of_slots (linkEnqueue_slots ..))

theorem collsOnly_collSend (slot code bar run dst : Nat) (bytes : List Byte) (s : State) :
    CollsOnly s (collSend slot code bar run dst bytes s) := by
  unfold collSend
  split
  · exact collsOnly_of_slots rfl
  · split
    · exact collsOnly_of_slots rfl
    · exact CollsOnly.trans (t := setFlow _ s) (collsOnly_of_slots rfl)
        (collsOnly_foldl (fun s _ => collsOnly_sendFrame _ _ s) _ _)

theorem collsOnly_collDown (slot code bar run : Nat) (bytes : List Byte) (s : State) :
    CollsOnly s (collDown slot code bar run bytes s) := by
  unfold collDown
  split
  · refine CollsOnly.trans ?_ (collsOnly_foldl (fun s _ => collsOnly_collSend _ _ _ _ _ _ s) _ _)
    split
    · exact collsOnly_modJob slot s
    · exact collsOnly_of_slots rfl
  · exact collsOnly_of_slots rfl

theorem collsOnly_pumpColl (slot code bar run : Nat) (s : State) : CollsOnly s (pumpColl slot code bar run s) := by
  unfold pumpColl; simp only
  repeat' split
  any_goals exact collsOnly_of_slots rfl
  · exact (collsOnly_modJob slot s).trans (collsOnly_collSend ..)
  · exact (collsOnly_modJob slot s).trans (collsOnly_collDown ..)

/-- What a rank contributes to a collective leaves every job but its records and its frame counter. -/
theorem collsOnly_contribColl (slot code bar run : Nat) (bytes : List Byte) (s : State) :
    CollsOnly s (contribColl slot code bar run bytes s) :=
  (collsOnly_modJob slot s).trans (collsOnly_pumpColl ..)

/-- The open run of a job is none of what the collectives change. -/
theorem CollsOnly.cur {s t : State} (h : CollsOnly s t) (i : Nat) :
    (getJob t i).bind (·.cur) = (getJob s i).bind (·.cur) := by
  obtain ⟨f, hf, hj⟩ := h.job i
  rw [hj]
  cases getJob s i with
  | none => rfl
  | some j => exact (hf j).cur

/-! ## The drain -/

/-- A core that completed the bar has executed `end`. -/
theorem ended_of_coreDrained {c : CoreCtx} (h : coreDrained c = true) : c.ended = true := by
  simp only [coreDrained, Bool.and_eq_true] at h
  obtain ⟨⟨⟨⟨⟨⟨⟨hended, -⟩, -⟩, -⟩, -⟩, -⟩, -⟩, -⟩ := h
  exact hended

section

variable {s : State} {slot : Nat} {j : Job} {sc : Score}

/-- With every core done and nothing of the run under way a hand reports drained (02 R39). -/
theorem exec_handDrained_done {hand p : Nat} {ghost : Bool} {r : Run} (hslot : slot < 128) (hhand : hand < 2)
    (hj : getJob s slot = some j) (hsc : (getSlot s slot).score = some sc) (hp : slotPart s slot = some (p, ghost))
    (hr : j.now = some r)
    (hcores : ∀ k ∈ jobCores s (getPart s p) ghost sc, coreDrained (ctxOf (getCore s k.1) ghost) = true ∧
      (ghost = true ∨ (getCore s k.1).rest = none))
    (htraffic : runTraffic s slot r.bar r.run = false) (hframes : framesOut s j.f.job r.bar r.run = false)
    (hshort : shortContribution sc j r = false) (hlinks : linksDone sc j r = true) :
    exec (.handDrained slot hand) s = .next (drainHand slot hand sc r s) := by
  have hended : allEnded s (getPart s p) ghost sc = true :=
    List.all_eq_true.mpr fun k hk => ended_of_coreDrained (hcores k hk).1
  have hhere : (((jobCores s (getPart s p) ghost sc).filter fun k => handOfCol (k.1 % 64) == hand).all fun k =>
      coreDrained (ctxOf (getCore s k.1) ghost) && (ghost || (getCore s k.1).rest.isNone)) = true :=
    List.all_eq_true.mpr fun k hk => by simpa using hcores k ((List.mem_filter.mp hk).1)
  simp [exec_handDrained, execHandDrained, Nat.not_le.mpr hslot, Nat.not_le.mpr hhand, hj, hsc, hp, hr, hhere, hended,
    htraffic, hframes, hshort, hlinks]

/-- The first hand's report changes the run alone. -/
theorem drainHand_first {hand : Nat} {r : Run} (h : (if hand = 0 then r.drained1 else r.drained0) = false) :
    drainHand slot hand sc r s = modNow slot (setDrained hand) s := by
  simp [drainHand, h]

/-! ## The combined words -/

/-- The words of a drained run combine with the other ranks' (07 R216). -/
theorem exec_barWordsCombined_drained {r : Run} (others : List (Nat × Bool)) (hslot : slot < 128)
    (hj : getJob s slot = some j) (hsc : (getSlot s slot).score = some sc) (hr : j.cur = some r)
    (h0 : r.drained0 = true) (h1 : r.drained1 = true) (hc : r.combined = none) :
    let words := combineWords (ownWords sc r) (if sc.replicas = 1 then [] else others)
    ∃ t, exec (.barWordsCombined slot others) s = .next t ∧ { t with slots := s.slots } = s ∧
      (getJob t slot).bind (·.cur) = some { r with combined := some words } := by
  simp only [exec_barWordsCombined, execBarWordsCombined, Nat.not_le.mpr hslot, hj, hsc, if_false]
  exact ⟨_, rfl, rfl, by simp [hj, hr, Run.drained, h0, h1, hc]⟩

/-! ## The vote -/

theorem exec_voteEnter_ready {r : Run} (hslot : slot < 128) (hk : timekeeper s = true)
    (hj : getJob s slot = some j) (hsc : (getSlot s slot).score = some sc) (hr : j.cur = some r)
    (h0 : r.drained0 = true) (h1 : r.drained1 = true) (hc : r.combined.isSome = true) (hv : r.voted = none)
    (hjudged : ownedJudged sc j r = true) (hcmp : j.compare = none) :
    exec (.voteEnter slot) s = .next (enterVote slot sc j r (if j.abortNext then 4 else r.cause) s) := by
  simp [exec_voteEnter, execVoteEnter, Nat.not_le.mpr hslot, hk, hj, hsc, hr, Run.drained, h0, h1, hc, hv, hjudged, hcmp]

/-- The device's vote stands in the open run once it has entered its collective (09 R275). -/
theorem enterVote_cur {r : Run} (hj : getJob s slot = some j) (hr : j.cur = some r) (cause : Nat) :
    (getJob (enterVote slot sc j r cause s) slot).bind (·.cur) =
      some { r with voted := some (ownVote sc (getSlot s slot).digest j r cause) } := by
  have h : CollsOnly _ (enterVote slot sc j r cause s) := (collsOnly_contribColl ..).trans (collsOnly_contribColl ..)
  rw [h.cur]
  simp [hj, hr]

end

/-! ## The obligation -/

/-- Settles O35, one command at a time. -/
theorem runsDrainCombineAndVote : Obligations.RunsDrainCombineAndVote := by
  intro s slot j sc hslot hj hsc
  refine ⟨?_, ?_, ?_⟩
  · intro hand p ghost r hhand hp hr hcores htraffic hframes hshort hlinks
    have hex := exec_handDrained_done hslot hhand hj hsc hp hr hcores htraffic hframes hshort hlinks
    exact ⟨hex, fun hfirst => hex.trans (congrArg _ (drainHand_first hfirst))⟩
  · intro others r hr h0 h1 hc
    obtain ⟨t, hex, hframe, hcur⟩ := exec_barWordsCombined_drained others hslot hj hsc hr h0 h1 hc
    exact ⟨t, _, hex, hcur, rfl, by rw [← hc], hframe⟩
  · intro r hk hr h0 h1 hc hv hjudged hcmp
    exact ⟨_, _, exec_voteEnter_ready hslot hk hj hsc hr h0 h1 hc hv hjudged hcmp, enterVote_cur hj hr _,
      rfl, rfl, rfl, rfl, rfl, rfl, enterVote_only ..⟩

end Sys2Proof.Machine
end

section
/-! A partition fault is contained (02 R52, R63; 20 R568, R573): a relation that every operation of a fault's containment
keeps, from the host's side and the links through the discarding of runs and the abort of a bar to the eviction of a ghost. -/

namespace Sys2Proof.Machine

open Sys2Proof.Safety

/-! ## What containment keeps -/

/-- No run of the job has taken a session page. -/
def Job.TakesNoPages (j : Job) : Prop := ∀ r, j.cur = some r ∨ j.ahead = some r → r.kvNew = []

/-- No run of any job has taken a session page. -/
def TakesNoPages (s : State) : Prop := ∀ i j, getJob s i = some j → j.TakesNoPages

/-- A fault with this code stays, no bar opens, and no run takes a session page. -/
structure Job.Contained (code : Nat) (x y : Job) : Prop where
  fault : x.fault = some code → y.fault = some code
  cur : x.cur = none → y.cur = none
  pages : x.TakesNoPages → y.TakesNoPages

namespace Job.Contained

variable {code : Nat} {x y z : Job}

/-- A job whose runs stay or go is contained. -/
theorem of_runs (hf : y.fault = x.fault) (hc : y.cur = x.cur ∨ y.cur = none) (ha : y.ahead = x.ahead ∨ y.ahead = none) :
    Contained code x y where
  fault h := hf.trans h
  cur h := hc.elim (·.trans h) id
  pages h r := by
    rintro (hr | hr)
    · exact h r (.inl (by rcases hc with hc | hc <;> simp_all))
    · exact h r (.inr (by rcases ha with ha | ha <;> simp_all))

theorem refl (x : Job) : Contained code x x := of_runs rfl (.inl rfl) (.inl rfl)

theorem trans (h : Contained code x y) (k : Contained code y z) : Contained code x z :=
  ⟨k.fault ∘ h.fault, k.cur ∘ h.cur, k.pages ∘ h.pages⟩

theorem of_collOnly (h : x.CollOnly y) : Contained code x y := by
  unfold Job.CollOnly at h
  rw [← h]
  exact of_runs rfl (.inl rfl) (.inl rfl)

/-- A vote that enters the open run changes nothing else. -/
theorem voted (v : Vote) (x : Job) :
    Contained code x { x with cur := x.cur.map fun r => { r with voted := some v } } where
  fault := id
  cur h := by simp [h]
  pages h r := by
    rintro (hr | hr)
    · obtain ⟨q, hq, rfl⟩ := Option.map_eq_some_iff.mp hr
      exact h q (.inl hq)
    · exact h r (.inr hr)

end Job.Contained

/-- What the containment of a fault of partition `p` may do: memory, the registry and every other partition stay, regions
only go, and only where a run took session pages, a faulted slot stays faulted and its job is contained. -/
structure Contained (code p : Nat) (s t : State) : Prop where
  mem : t.mem = s.mem
  registry : t.registry = s.registry
  parts : ∀ q, q ≠ p → getPart t q = getPart s q
  regions : ∀ q ∈ t.regions, q ∈ s.regions
  kept : TakesNoPages s → t.regions = s.regions ∧ t.tenants = s.tenants
  state : ∀ i, (getSlot s i).state = .faulted → (getSlot t i).state = .faulted
  job : ∀ i, ∃ f : Job → Job, (∀ j : Job, j.Contained code (f j)) ∧ getJob t i = (getJob s i).map f

/-- Memory, the registry, the slots and the partitions stay, and regions only go. -/
structure Released (s t : State) : Prop where
  mem : t.mem = s.mem
  registry : t.registry = s.registry
  slots : t.slots = s.slots
  parts : t.parts = s.parts
  regions : ∀ q ∈ t.regions, q ∈ s.regions

/-- Memory, the registry, the slots, the partitions, the regions and the contexts stay; `{}` proves it of an update of other
fields. -/
structure Beside (s t : State) : Prop where
  mem : t.mem = s.mem := by rfl
  registry : t.registry = s.registry := by rfl
  slots : t.slots = s.slots := by rfl
  parts : t.parts = s.parts := by rfl
  regions : t.regions = s.regions := by rfl
  tenants : t.tenants = s.tenants := by rfl

namespace Released

variable {s t u : State}

theorem refl (s : State) : Released s s := ⟨rfl, rfl, rfl, rfl, fun _ => id⟩

theorem trans (h : Released s t) (k : Released t u) : Released s u :=
  ⟨k.mem.trans h.mem, k.registry.trans h.registry, k.slots.trans h.slots, k.parts.trans h.parts,
    fun q hq => h.regions q (k.regions q hq)⟩

theorem foldl {α : Type} {f : State → α → State} (hf : ∀ s a, Released s (f s a)) (l : List α) (s : State) :
    Released s (l.foldl f s) := by
  induction l generalizing s with
  | nil => exact refl s
  | cons a l ih => exact (hf s a).trans (ih _)

end Released

namespace Beside

variable {s t u : State}

theorem refl (s : State) : Beside s s := {}

theorem trans (h : Beside s t) (k : Beside t u) : Beside s u :=
  ⟨k.mem.trans h.mem, k.registry.trans h.registry, k.slots.trans h.slots, k.parts.trans h.parts,
    k.regions.trans h.regions, k.tenants.trans h.tenants⟩

theorem foldl {α : Type} {f : State → α → State} (hf : ∀ s a, Beside s (f s a)) (l : List α) (s : State) :
    Beside s (l.foldl f s) := by
  induction l generalizing s with
  | nil => exact refl s
  | cons a l ih => exact (hf s a).trans (ih _)

theorem released (h : Beside s t) : Released s t :=
  ⟨h.mem, h.registry, h.slots, h.parts, fun _ hq => h.regions ▸ hq⟩

theorem of_hostOnly (h : HostOnly s t) : Beside s t := by
  unfold HostOnly at h
  rw [← h]
  exact {}

end Beside

namespace Contained

variable {code p : Nat} {s t u : State}

/-- Containment leaves no run with pages where there was none. -/
theorem takesNoPages (h : Contained code p s t) (hs : TakesNoPages s) : TakesNoPages t := by
  intro i j hj
  obtain ⟨f, hf, ht⟩ := h.job i
  obtain ⟨x, hx, rfl⟩ := Option.map_eq_some_iff.mp (ht.symm.trans hj)
  exact (hf x).pages (hs i x hx)

theorem trans (h : Contained code p s t) (k : Contained code p t u) : Contained code p s u where
  mem := k.mem.trans h.mem
  registry := k.registry.trans h.registry
  parts q hq := (k.parts q hq).trans (h.parts q hq)
  regions q hq := h.regions q (k.regions q hq)
  kept hs :=
    have ⟨r1, t1⟩ := h.kept hs
    have ⟨r2, t2⟩ := k.kept (h.takesNoPages hs)
    ⟨r2.trans r1, t2.trans t1⟩
  state i hi := k.state i (h.state i hi)
  job i :=
    have ⟨f, hf, ht⟩ := h.job i
    have ⟨g, hg, hu⟩ := k.job i
    ⟨g ∘ f, fun j => (hf j).trans (hg _), by rw [hu, ht, Option.map_map]⟩

theorem refl (s : State) : Contained code p s s :=
  ⟨rfl, rfl, fun _ _ => rfl, fun _ => id, fun _ => ⟨rfl, rfl⟩, fun _ => id,
    fun _ => ⟨id, .refl, (Option.map_id_apply ..).symm⟩⟩

/-- Regions may go where a run took session pages. -/
theorem trans_released (h : Contained code p s t) (k : Released t u)
    (hk : TakesNoPages s → u.regions = t.regions ∧ u.tenants = t.tenants) : Contained code p s u where
  mem := k.mem.trans h.mem
  registry := k.registry.trans h.registry
  parts q hq := by simpa [getPart, k.parts] using h.parts q hq
  regions q hq := h.regions q (k.regions q hq)
  kept hs := ⟨(hk hs).1.trans (h.kept hs).1, (hk hs).2.trans (h.kept hs).2⟩
  state i hi := by simpa [getSlot, k.slots] using h.state i hi
  job i := by simpa [getJob, getSlot, k.slots] using h.job i

theorem of_beside (h : Beside s t) : Contained code p s t :=
  (refl s).trans_released h.released fun _ => ⟨h.regions, h.tenants⟩

theorem foldl {α : Type} {f : State → α → State} (hf : ∀ s a, Contained code p s (f s a)) (l : List α) (s : State) :
    Contained code p s (l.foldl f s) := by
  induction l generalizing s with
  | nil => exact refl s
  | cons a l ih => exact (hf s a).trans (ih _)

/-- The links and what travels by them are not what a fault has to spare. -/
theorem of_links (h : LinksOnly s t) (k : JobsBy (Job.Contained code) s t) : Contained code p s t := by
  have hmem : t.mem = s.mem ∧ t.registry = s.registry ∧ t.parts = s.parts ∧ t.regions = s.regions ∧
      t.tenants = s.tenants := by
    unfold LinksOnly at h
    rw [← h]
    exact ⟨rfl, rfl, rfl, rfl, rfl⟩
  obtain ⟨hm, hg, hp, hr, ht⟩ := hmem
  refine ⟨hm, hg, fun _ _ => by simp [getPart, hp], fun q hq => hr ▸ hq, fun _ => ⟨hr, ht⟩, fun i hi => ?_, k.job⟩
  obtain ⟨f, -, hs⟩ := k.slot i
  rw [hs]
  exact hi

theorem modJob (i : Nat) {f : Job → Job} (s : State) (hf : ∀ j : Job, j.Contained code (f j)) :
    Contained code p s (modJob i f s) := of_links rfl (.modJob .refl i hf s)

/-- A change of a job that keeps its fault and its runs, or lets runs go. -/
theorem modJob_runs (i : Nat) {f : Job → Job} (s : State) (hf : ∀ j, (f j).fault = j.fault := by intro; rfl)
    (hc : ∀ j, (f j).cur = j.cur ∨ (f j).cur = none := by intro; exact .inl rfl)
    (ha : ∀ j, (f j).ahead = j.ahead ∨ (f j).ahead = none := by intro; exact .inl rfl) :
    Contained code p s (Machine.modJob i f s) := modJob i s fun j => .of_runs (hf j) (hc j) (ha j)

/-- A change of a slot's state that leaves a faulted slot faulted. -/
theorem modSlot_state (i : Nat) (f : Slot → JobState) (hf : ∀ sl, sl.state = .faulted → f sl = .faulted) (s : State) :
    Contained code p s (modSlot i (fun sl => { sl with state := f sl }) s) where
  mem := rfl
  registry := rfl
  parts _ _ := rfl
  regions _ := id
  kept _ := ⟨rfl, rfl⟩
  state k hk := by
    by_cases h : k = i
    · subst h
      simpa using hf _ hk
    · rwa [getSlot_modSlot_other _ _ _ _ h]
  job k := ⟨id, .refl, by
    by_cases h : k = i
    · subst h
      simp [getJob]
    · simp [getJob, getSlot_modSlot_other _ _ _ _ h]⟩

theorem modPart (f : Part → Part) (s : State) : Contained code p s (modPart p f s) :=
  ⟨rfl, rfl, fun _ hq => getPart_modPart_other _ _ _ _ hq, fun _ => id, fun _ => ⟨rfl, rfl⟩, fun _ => id,
    fun _ => ⟨id, .refl, (Option.map_id_apply ..).symm⟩⟩

/-- No bar opens. -/
theorem cur_none (h : Contained code p s t) {i : Nat} (hs : (getJob s i).bind (·.cur) = none) :
    (getJob t i).bind (·.cur) = none := by
  obtain ⟨f, hf, ht⟩ := h.job i
  rw [ht]
  cases hj : getJob s i with
  | none => rfl
  | some j => exact (hf j).cur (by simpa [hj] using hs)

/-- The fault stays. -/
theorem fault (h : Contained code p s t) {i : Nat} (hs : (getJob s i).bind (·.fault) = some code) :
    (getJob t i).bind (·.fault) = some code := by
  obtain ⟨f, hf, ht⟩ := h.job i
  obtain ⟨j, hj, hfault⟩ := Option.bind_eq_some_iff.mp hs
  rw [ht, hj]
  exact (hf j).fault hfault

end Contained

/-! ## Counters, notices, the log and the cores -/

theorem beside_modHand (h : Nat) (f : Hand → Hand) (s : State) : Beside s (modHand h f s) := {}

theorem beside_fltCount (block cls : Nat) (s : State) : Beside s (fltCount block cls s) := by
  unfold fltCount modFlt
  split <;> exact {}

theorem beside_logAdd (e : LogEntry) (s : State) : Beside s (logAdd e s) := .of_hostOnly (hostOnly_logAdd e s)

theorem beside_logCloseRun (slot : Nat) (s : State) : Beside s (logCloseRun slot s) := by
  unfold logCloseRun
  split
  · exact Beside.trans (t := { s with verdictRuns := s.verdictRuns.del slot }) {}
      (beside_logAdd _ _)
  · exact .refl s

/-- An abort has a log entry of its own. -/
theorem beside_logVerdict_abort (slot bar : Nat) (strict : Bool) (cause tensor : Nat) (s : State) :
    Beside s (logVerdict slot bar 4 strict cause tensor s) := by
  simp only [logVerdict, Nat.reduceEqDiff, decide_false, Bool.false_and, Bool.false_eq_true, if_false]
  exact (beside_logCloseRun slot s).trans (beside_logAdd _ _)

theorem beside_sampleBar (slot opened : Nat) (s : State) : Beside s (sampleBar slot opened s) := by
  unfold sampleBar
  split
  · exact .of_hostOnly (hostOnly_monSample ..)
  · exact .refl s

theorem beside_stopCores (slot : Nat) (s : State) : Beside s (stopCores slot s) := by
  unfold stopCores
  split
  · exact Beside.foldl (fun s _ => {}) _ s
  · exact .refl s

/-! ## Traffic, frames and pages of a run -/

theorem beside_returnUnits (coll : Bool) (l : List (Nat × Nat)) (s : State) : Beside s (returnUnits coll l s) :=
  Beside.foldl (fun s _ => {}) _ s

theorem beside_dropTraffic (slot : Nat) (keep : Nat × Nat → Bool) (s : State) : Beside s (dropTraffic slot keep s) :=
  (beside_returnUnits ..).trans {}

theorem beside_returnFrames (l : List (Nat × GlFrame)) (s : State) : Beside s (returnFrames l s) :=
  (beside_returnUnits ..).trans (beside_returnUnits ..)

theorem beside_freeFrame (n : Nat) (s : State) : Beside s (freeFrame n s) := by
  unfold freeFrame
  simp only
  split <;> exact {}

theorem beside_dropDescs (r : Region) (s : State) : Beside s (dropDescs r s) := by
  have hfold (l : List Nat) (s : State) := Beside.foldl (f := fun s n =>
    modPage n (fun d => { d with pin := 0, move := 0, holds := [] }) (freeFrame n s))
    (fun s n => (beside_freeFrame n s).trans {}) l s
  have hqueue (q : List PromoReq) : Beside s { s with promoQ := q } := {}
  unfold dropDescs
  simp only
  split
  · exact (hqueue _).trans (hfold _ _)
  · exact ((hqueue _).trans (hfold _ _)).trans {}

/-- A released region goes; its bytes are zeroed later (10 R297). -/
theorem released_releaseRegion (r : Region) (s : State) : Released s (releaseRegion r s) := by
  have hgone (s : State) : Released s { s with regions := s.regions.filter (· != r) } :=
    ⟨rfl, rfl, rfl, rfl, fun q hq => (List.mem_filter.mp hq).1⟩
  unfold releaseRegion
  simp only
  split
  · exact hgone s
  · exact (((beside_dropDescs r s).released.trans (hgone _)).trans
      (Beside.released (t := zeroRange r.base r.stop _) {})).trans
        (Beside.of_hostOnly (hostOnly_logInternal ..)).released

/-- A session page that a discarded run added is released (16 R479). -/
def releaseSessionPage (s : State) (p : Nat × Nat) : State :=
  match s.sess.get p.1, s.regions.find? fun q => q.base == p.2 with
  | some g, some q =>
    let s := modTenant g.owner (fun t => { t with lpUsed := t.lpUsed - g.pageBytes }) (releaseRegion q s)
    { s with sess := s.sess.put p.1 { g with pages := g.pages.filter (· != p.2) } }
  | _, _ => s

theorem released_releaseSessionPage (s : State) (p : Nat × Nat) : Released s (releaseSessionPage s p) := by
  unfold releaseSessionPage
  split
  · exact (released_releaseRegion ..).trans ⟨rfl, rfl, rfl, rfl, fun _ => id⟩
  · exact .refl s

/-- An admission of a discarded run is taken back: the request waits again and its row is free (13 R382). -/
def readmit (slot : Nat) (s : State) (a : Admit) : State :=
  modJob slot (fun j => { j with rowReq := j.rowReq.del a.row })
    (letSession a.req { s with reqs := s.reqs.upd a.req fun q =>
      if q.state = .live then { q with state := .queued, row := none, abar := none } else q })

/-- Requests whose `ABAR` a discarded run found past wait again. -/
def rewait (r : Run) (s : State) : State :=
  { s with reqs := s.reqs.map fun p => if r.lates.contains p.1 && p.2.why = 7 then (p.1, { p.2 with why := 0 }) else p }

theorem unadmit_eq (r : Run) (slot : Nat) (s : State) :
    unadmit r slot s = r.kvNew.foldl releaseSessionPage (rewait r (r.admits.foldl (readmit slot) s)) := rfl

section

variable {code p : Nat}

theorem contained_readmit (slot : Nat) (s : State) (a : Admit) : Contained code p s (readmit slot s a) :=
  Contained.trans (.of_beside {}) (.modJob_runs slot _)

/-- Only a run that took session pages releases any. -/
theorem contained_unadmit (r : Run) (slot : Nat) {s : State} (hr : TakesNoPages s → r.kvNew = []) :
    Contained code p s (unadmit r slot s) := by
  rw [unadmit_eq]
  have hwait : Contained code p s (rewait r (r.admits.foldl (readmit slot) s)) :=
    (Contained.foldl (contained_readmit slot) _ s).trans (.of_beside {})
  exact hwait.trans_released (.foldl released_releaseSessionPage _ _) fun hs => by simp [hr hs]

theorem contained_dropFrames (slot bar run : Nat) (s : State) : Contained code p s (dropFrames slot bar run s) := by
  unfold dropFrames
  split
  · exact .refl s
  · have hcoll (s : State) : Contained code p s _ := .modJob_runs slot (f := fun j => { j with
      coll := j.coll.filter fun c => !(decide (c.code ≤ 3) && c.bar == bar && c.run == run % 256) }) s
    exact ((Contained.of_beside (beside_returnFrames _ s)).trans (hcoll _)).trans (.of_beside {})

/-! ## Runs discarded and the bar aborted -/

theorem contained_discardRun (slot : Nat) (r : Run) {s : State} (hr : TakesNoPages s → r.kvNew = []) :
    Contained code p s (discardRun slot r s) := by
  have hunpin : Beside s (unpinPages r.pins s) := {}
  have hunadmit := contained_unadmit (code := code) (p := p) r slot (s := unpinPages r.pins s) hr
  have hhold (l : List (Nat × Nat × Nat)) (s : State) := Beside.foldl (f := fun s w =>
    modHand w.2.2 (fun h => { h with holdEntries := h.holdEntries - 1 }) s) (fun s w => beside_modHand _ _ s) l s
  exact (((Contained.of_beside hunpin).trans hunadmit).trans (.of_beside (hhold _ _))).trans (contained_dropFrames ..)

/-- The run of a job that took no session pages took none. -/
theorem TakesNoPages.run {s : State} {slot : Nat} {r : Run} (h : TakesNoPages s)
    (hr : (getJob s slot).bind (·.cur) = some r ∨ (getJob s slot).bind (·.ahead) = some r) : r.kvNew = [] := by
  rcases hr with hr | hr
  · obtain ⟨j, hj, hr⟩ := Option.bind_eq_some_iff.mp hr
    exact h slot j hj r (.inl hr)
  · obtain ⟨j, hj, hr⟩ := Option.bind_eq_some_iff.mp hr
    exact h slot j hj r (.inr hr)

/-- The cores stop, the traffic goes and a run of the slot is discarded. -/
theorem contained_discard_stopped (slot : Nat) (keep : Nat × Nat → Bool) {r : Run} {s : State}
    (hr : (getJob s slot).bind (·.cur) = some r ∨ (getJob s slot).bind (·.ahead) = some r) :
    Contained code p s (discardRun slot r (dropTraffic slot keep (stopCores slot s))) := by
  have hstop := (beside_stopCores slot s).trans (beside_dropTraffic slot keep _)
  refine (Contained.of_beside hstop).trans (contained_discardRun slot r fun ht => ht.run (slot := slot) ?_)
  simpa [getJob, getSlot, hstop.slots] using hr

theorem contained_dropLook (slot : Nat) (s : State) : Contained code p s (dropLook slot s) := by
  unfold dropLook
  split
  · exact .refl s
  · rename_i r hr
    exact (contained_discard_stopped slot _ (.inr hr)).trans (.modJob_runs slot _ (ha := fun _ => .inr rfl))

theorem contained_dropRuns (slot : Nat) (s : State) : Contained code p s (dropRuns slot s) := by
  refine (contained_dropLook slot s).trans ?_
  unfold dropRuns
  simp only
  split
  · exact .refl _
  · rename_i r hr
    exact (contained_discard_stopped slot _ (.inl hr)).trans (.modJob_runs slot _ (hc := fun _ => .inr rfl))

theorem dropRuns_cur (slot : Nat) (s : State) : (getJob (dropRuns slot s) slot).bind (·.cur) = none := by
  unfold dropRuns
  simp only
  split
  · assumption
  · simp

theorem contained_dropUnseen (slot : Nat) (r : Run) (seen : Bool) (s : State) :
    Contained code p s (dropUnseen slot r seen s) := by
  unfold dropUnseen
  split
  · split
    · exact .refl s
    · exact (contained_dropFrames ..).trans (.modJob_runs slot _)
  · exact .refl s

/-- What an abort counts, samples and logs. -/
def abortLogged (slot cause : Nat) (r : Run) (s : State) : State :=
  let s := sampleBar slot r.opened s
  let s := if cause = 1 || cause = 2 || cause = 4 then fltCount (slotBlock s slot) 2 s else s
  logVerdict slot r.bar 4 r.strict cause 0xFFFF s

theorem beside_abortLogged (slot cause : Nat) (r : Run) (s : State) : Beside s (abortLogged slot cause r s) := by
  refine ((beside_sampleBar slot r.opened s).trans ?_).trans (beside_logVerdict_abort ..)
  split
  · exact beside_fltCount ..
  · exact .refl _

/-- What an abort leaves to open next (09 R272, R281). -/
def Job.abortedAt (r : Run) (cause : Nat) (j : Job) : Job :=
  { j with nextBar := r.bar, last := 4, lastCause := cause, aborts := satAt 0x3FFF (j.aborts + 1),
           strictNext := j.strictNext || cause == 1 || cause == 3, abortNext := false }

/-- The abort of an open bar: it is logged, both runs go, and the bar is to be opened again. -/
theorem abortBar_open {slot : Nat} {r : Run} {s : State} (hr : (getJob s slot).bind (·.cur) = some r) (cause : Nat) :
    ∃ seen, abortBar slot cause s = modJob slot (Job.abortedAt r cause)
      (dropUnseen slot r seen (dropRuns slot (abortLogged slot cause r s))) := by
  unfold abortBar
  rw [hr]
  exact ⟨_, rfl⟩

theorem abortBar_closed {slot : Nat} {s : State} (hr : (getJob s slot).bind (·.cur) = none) (cause : Nat) :
    abortBar slot cause s = s := by
  unfold abortBar
  rw [hr]

theorem contained_abortBar (slot cause : Nat) (s : State) :
    Contained code p s (abortBar slot cause s) ∧ (getJob (abortBar slot cause s) slot).bind (·.cur) = none := by
  cases hr : (getJob s slot).bind (·.cur) with
  | none =>
    rw [abortBar_closed hr]
    exact ⟨.refl s, hr⟩
  | some r =>
    obtain ⟨seen, heq⟩ := abortBar_open hr cause
    have hruns : Contained code p s _ :=
      (Contained.of_beside (beside_abortLogged slot cause r s)).trans (contained_dropRuns slot _)
    have hlast : Contained code p (dropRuns slot (abortLogged slot cause r s)) _ :=
      (contained_dropUnseen slot r seen _).trans (.modJob_runs slot (f := Job.abortedAt r cause) _)
    rw [heq]
    exact ⟨hruns.trans hlast, hlast.cur_none (dropRuns_cur ..)⟩

/-! ## The vote, the ghost and the fault -/

theorem jobsBy_contribColl (slot kind bar run : Nat) (bytes : List Byte) (s : State) :
    JobsBy (Job.Contained code) s (contribColl slot kind bar run bytes s) :=
  (collsOnly_contribColl ..).mono .of_collOnly

theorem contained_voteCause (slot cause : Nat) (s : State) : Contained code p s (voteCause slot cause s) := by
  unfold voteCause
  repeat' split
  any_goals exact .refl s
  refine .of_links (enterVote_only ..) (.trans .trans (.trans .trans (.modJob .refl slot (fun j => ?_) s)
    (jobsBy_contribColl ..)) (jobsBy_contribColl ..))
  exact .voted _ j

/-- A ghost that loses the faulted partition goes with its bar, and nothing else does (02 R63). -/
theorem contained_evictGhost (cause : Nat) (s : State) : Contained code p s (evictGhost p cause s) := by
  unfold evictGhost
  split
  · exact .refl s
  · rename_i g _
    have hghost : Contained code p s (modPart p (fun q => { q with ghost := none }) (dropRuns g (abortBar g cause s))) :=
      ((contained_abortBar g cause s).1.trans (contained_dropRuns g _)).trans (.modPart _ _)
    simp only
    split
    · exact hghost
    · refine ((hghost.trans (.modSlot_state g _ (fun sl h => ?_) _)).trans (.modJob_runs g _)).trans
        (.of_beside (.of_hostOnly (hostOnly_sendEarly ..)))
      simp [h]

/-- The job of a slot enters Faulted with a code (02 R52). -/
def enterFaulted (code slot : Nat) (s : State) : State :=
  modSlot slot (fun sl => { sl with state := .faulted }) (modJob slot (fun j => { j with fault := some code }) s)

theorem contained_enterFaulted (slot : Nat) (s : State) : Contained code p s (enterFaulted code slot s) := by
  have hjob : Contained code p s (modJob slot (fun j => { j with fault := some code }) s) :=
    .modJob slot s fun _ => ⟨fun _ => rfl, id, id⟩
  exact hjob.trans (.modSlot_state slot _ (fun _ _ => rfl) _)

theorem enterFaulted_state (slot : Nat) (s : State) : (getSlot (enterFaulted code slot s) slot).state = .faulted := by
  simp [enterFaulted]

theorem enterFaulted_fault {slot : Nat} {j : Job} {s : State} (hj : getJob s slot = some j) :
    (getJob (enterFaulted code slot s) slot).bind (·.fault) = some code := by
  have h : getJob (enterFaulted code slot s) slot = getJob (modJob slot (fun j => { j with fault := some code }) s) slot := by
    simp [enterFaulted, getJob]
  rw [h, getJob_modJob, hj]
  rfl

/-- The partition scrubs after a fault with a code (02 R52). -/
def Part.faulted (code : Nat) (q : Part) : Part := { q with state := .scrubbing, fault := some code }

/-- The job of a partition faults: once its bar has aborted and its cores have stopped, the slot enters Faulted, the ghost goes
and the partition scrubs (02 R52). -/
theorem partFault_primary {slot : Nat} {s : State} (row col : Nat) (h : (getPart s p).primary = some slot) :
    ∃ a, Contained code p s a ∧ (getJob a slot).bind (·.cur) = none ∧
      partFault p false code row col s = modPart p (Part.faulted code) (evictGhost p 3 (enterFaulted code slot a)) := by
  unfold partFault
  simp only [h, Bool.false_eq_true, if_false]
  refine ⟨_, ?_, ?_, rfl⟩
  · refine Contained.trans (.of_beside ?_) ((contained_abortBar slot 3 _).1.trans (.of_beside (beside_stopCores slot _)))
    exact ((beside_fltCount ..).trans (.of_hostOnly (hostOnly_notice ..))).trans (.of_hostOnly (hostOnly_logInternal ..))
  · exact (Contained.of_beside (code := code) (p := p) (beside_stopCores slot _)).cur_none
      (contained_abortBar (code := code) (p := p) slot 3 _).2

/-- A fault of a partition with a job is contained: it leaves the job Faulted with the code and no bar open, and the partition
scrubs. -/
theorem faultPart_contained {slot : Nat} {j : Job} {s : State} (row col : Nat) (hp : (getPart s p).primary = some slot)
    (hj : getJob s slot = some j) :
    let t := faultPart p false code row col s
    Contained code p s t ∧ (getPart t p).state = .scrubbing ∧ (getPart t p).fault = some code ∧
      (getSlot t slot).state = .faulted ∧ (getJob t slot).bind (·.fault) = some code ∧
      (getJob t slot).bind (·.cur) = none := by
  have hvote : Contained code p s (voteCause slot 3 s) := contained_voteCause slot 3 s
  have hparts : (voteCause slot 3 s).parts = s.parts := (congrArg State.parts (voteCause_only slot 3 s) :)
  have hp' : (getPart (voteCause slot 3 s) p).primary = some slot := by simpa [getPart, hparts] using hp
  obtain ⟨a, ha, hcur, heq⟩ := partFault_primary (code := code) row col hp'
  obtain ⟨f, -, hfa⟩ := (hvote.trans ha).job slot
  rw [hj, Option.map_some] at hfa
  have henter : Contained code p a (enterFaulted code slot a) := contained_enterFaulted slot a
  have hfault : faultPart p false code row col s =
      modPart p (Part.faulted code) (evictGhost p 3 (enterFaulted code slot a)) := by
    simp only [faultPart, hp, Bool.false_eq_true, if_false, heq]
  have hrest : Contained code p (enterFaulted code slot a) (faultPart p false code row col s) :=
    hfault ▸ (contained_evictGhost 3 _).trans (.modPart _ _)
  obtain ⟨q, hpart⟩ : ∃ q, getPart (faultPart p false code row col s) p = Part.faulted code q :=
    ⟨_, hfault ▸ getPart_modPart ..⟩
  exact ⟨((hvote.trans ha).trans henter).trans hrest, congrArg Part.state hpart, congrArg Part.fault hpart,
    hrest.state slot (enterFaulted_state slot a), hrest.fault (enterFaulted_fault hfa),
    hrest.cur_none (henter.cur_none hcur)⟩

end

/-! ## Errors in a core store (20 R568) -/

section

variable {s : State} {c : CoreRef} {k : Ctl} {insn : CoreInsn} {e : Env} {store : Nat} {body : Env → State → Act}

/-- An instruction that would run meets the error. -/
theorem withEcc_error (h : Issuing s c k insn e) (ht : touchesNone e insn = false) (hb : ∃ u, body e s = .ok u) :
    withEcc c k insn true store body s = .next (coreError e.pid e.ghost store e.key e.row e.col s) := by
  obtain ⟨hc, he, hi, hk⟩ := h
  obtain ⟨u, hb⟩ := hb
  simp [withEcc, hc, he, hi, hk, ht, hb, eccFault]

/-- An instruction that touches no store meets none. -/
theorem withEcc_touchesNone (h : Issuing s c k insn e) (ht : touchesNone e insn = true) :
    withEcc c k insn true store body s = withEcc c k insn false store body s := by
  simp [withEcc, h.2.1, ht]

end

/-! ## The obligation -/

/-- Settles O59: the fault is `faultPart_contained`, and a `vld` or a `roll` that would run meets the error of its store. -/
theorem partitionFaultsAreContained : Obligations.PartitionFaultsAreContained := by
  refine ⟨?_, ?_, ?_⟩
  · intro s p slot code row col j hp hj t
    obtain ⟨h, hstate, hpfault, hslot, hfault, hcur⟩ := faultPart_contained (code := code) row col hp hj
    exact ⟨hstate, hpfault, hslot, hfault, hcur, h.mem, h.registry, h.regions,
      fun hpages => h.kept fun i x hx r => hpages i x r hx, h.parts⟩
  · intro s c k e f h n
    refine ⟨fun hvl hfree hop => ?_, fun hvl => withEcc_touchesNone h (by simp [touchesNone, hvl])⟩
    obtain ⟨q, hq⟩ := Option.isSome_iff_exists.mp hop
    refine withEcc_error h (by simpa [touchesNone] using hvl) ?_
    simp only [n] at hfree hq
    simp only [hvl, hfree, hq, if_false, Bool.not_true, Bool.false_eq_true]
    exact ⟨_, rfl⟩
  · intro s c k e f hvl h
    rw [exec_roll, execRoll]
    cases hrd : e.prog.rolls[f.rd]? with
    | none => exact withEcc_error h (by simpa [touchesNone] using hvl) (by simp only [hrd]; exact ⟨_, rfl⟩)
    | some r => exact withEcc_error h (by simpa [touchesNone] using hvl) (by simp only [hrd]; exact ⟨_, rfl⟩)

end Sys2Proof.Machine
end

section
/-! The matrix unit (04 R109 to R132): what the banks read after a completion token, what `md` leaves in core SRAM, and the
registers with which `ml`, `mm` and `md` retire. -/

namespace Sys2Proof

/-! ## Tables -/

/-- A table listed over a range reads as listed. -/
theorem Table.get_map_range {α : Type} (g : Nat → α) (n i : Nat) :
    Table.get ((List.range n).map fun j => (j, g j)) i = if i < n then some (g i) else none := by
  induction n with
  | zero => simp [Table.get]
  | succ n ih =>
    unfold Table.get at ih ⊢
    rw [List.range_succ, List.map_append, List.find?_append, Option.map_or, ih]
    by_cases hlt : i < n
    · simp [hlt, Nat.lt_succ_of_lt hlt]
    · by_cases heq : n = i
      · simp [heq]
      · simp [hlt, heq, show ¬ i < n + 1 by omega]

/-- Keys that are not among those put read as before. -/
theorem Table.get_foldl_put_other {α : Type} {cells : Table α} (t : Table α) {k : Nat} (h : k ∉ cells.map (·.1)) :
    Table.get (cells.foldl (fun t p => t.put p.1 p.2) t) k = t.get k := by
  induction cells generalizing t with
  | nil => rfl
  | cons p cells ih =>
    obtain ⟨hp, hcells⟩ : k ≠ p.1 ∧ k ∉ cells.map (·.1) := by simpa using h
    rw [List.foldl_cons, ih _ hcells, Table.get_put_other _ _ _ _ hp]

/-- Of several values put at a key the last one reads. -/
theorem Table.get_foldl_put_last {α : Type} (a b t : Table α) {k : Nat} (v : α) (h : k ∉ b.map (·.1)) :
    Table.get ((a ++ (k, v) :: b).foldl (fun t p => t.put p.1 p.2) t) k = some v := by
  rw [List.foldl_append, List.foldl_cons, Table.get_foldl_put_other _ h, Table.get_put_self]

/-! ## Bytes -/

theorem length_leBytes (n v : Nat) : (leBytes n v).length = n := by
  induction n generalizing v with
  | zero => rfl
  | succ n ih => simp [leBytes, ih]

/-- A string reads the same from two memories that agree on its bytes. -/
theorem Mem.readN_congr {m m' : List Host.Cell} {a n : Nat} (h : ∀ x, a ≤ x → x < a + n → read m x = read m' x) :
    readN m a n = readN m' a n := by
  induction n generalizing a with
  | zero => rfl
  | succ n ih =>
    rw [readN, readN, h a (Nat.le_refl a) (by omega), ih fun x _ _ => h x (by omega) (by omega)]

namespace Machine

open Sys2Proof.Safety

/-! ## Banks (R125 to R129) -/

theorem bankOf_bankWrite_self (c : CoreCtx) (b : Bool) (sh : Nat) (cells : Table (Word × Word)) :
    bankOf (bankWrite c b sh cells) b = cells.foldl (fun t p => t.put p.1 p.2) (bankOf c b) := by
  cases b <;> rfl

theorem bankOf_bankWrite_other (c : CoreCtx) (b : Bool) (sh : Nat) (cells : Table (Word × Word)) :
    bankOf (bankWrite c b sh cells) (!b) = bankOf c (!b) := by
  cases b <;> rfl

/-- A bank's entries follow from its table and its free contents. -/
theorem bankRead_congr {c d : CoreCtx} {b : Bool} {key : Nat} (hget : (bankOf c b).get key = (bankOf d b).get key)
    (hfree : c.bankFree = d.bankFree) : bankRead c b key = bankRead d b key := by
  unfold bankRead
  rw [hget, hfree]

theorem bankRead_of_get {c : CoreCtx} {b : Bool} {key : Nat} {v : Word × Word} (h : (bankOf c b).get key = some v) :
    bankRead c b key = v := by
  unfold bankRead
  rw [h]

/-- The registers once the `mm` in flight has entered its bank (R129). -/
def mmEntered (c : CoreCtx) (m : MmItem) : CoreCtx := { bankWrite c m.f.bank m.f.shape m.cells with mmNow := none }

section

variable (c : CoreCtx) (m : MmItem)

theorem bankOf_mmEntered (b : Bool) : bankOf (mmEntered c m) b = bankOf (bankWrite c m.f.bank m.f.shape m.cells) b := rfl

@[simp] theorem mmEntered_bankFree : (mmEntered c m).bankFree = c.bankFree := by
  unfold mmEntered bankWrite
  split <;> rfl

@[simp] theorem bankShape_mmEntered_self : bankShape (mmEntered c m) m.f.bank = m.f.shape := by
  unfold bankShape mmEntered bankWrite
  cases m.f.bank <;> rfl

@[simp] theorem bankShape_mmEntered_other : bankShape (mmEntered c m) (!m.f.bank) = bankShape c (!m.f.bank) := by
  unfold bankShape mmEntered bankWrite
  cases m.f.bank <;> rfl

theorem bankRead_mmEntered_other (key : Nat) : bankRead (mmEntered c m) (!m.f.bank) key = bankRead c (!m.f.bank) key :=
  bankRead_congr (by rw [bankOf_mmEntered, bankOf_bankWrite_other]) (mmEntered_bankFree c m)

theorem bankRead_mmEntered_kept {key : Nat} (h : key ∉ m.cells.map (·.1)) :
    bankRead (mmEntered c m) m.f.bank key = bankRead c m.f.bank key :=
  bankRead_congr (by rw [bankOf_mmEntered, bankOf_bankWrite_self, Table.get_foldl_put_other _ h]) (mmEntered_bankFree c m)

theorem bankRead_mmEntered_last {a b : Table (Word × Word)} {key : Nat} {v : Word × Word}
    (hcells : m.cells = a ++ (key, v) :: b) (h : key ∉ b.map (·.1)) : bankRead (mmEntered c m) m.f.bank key = v :=
  bankRead_of_get (by rw [bankOf_mmEntered, bankOf_bankWrite_self, hcells, Table.get_foldl_put_last _ _ _ _ h])

/-- The token changes the registers of the banks and ends the `mm` in flight. -/
theorem mmEntered_frame (h : c.mmNow = some m) :
    { mmEntered c m with mmNow := some m, bankA := c.bankA, bankB := c.bankB, shapeA := c.shapeA, shapeB := c.shapeB,
                         heldA := c.heldA, heldB := c.heldB } = c := by
  rw [← h]
  unfold mmEntered bankWrite
  split <;> rfl

end

/-! ## Drained rows (R130 to R132) -/

theorem length_flatMap_const {α β : Type} {g : α → List β} {n : Nat} {l : List α} (h : ∀ a, (g a).length = n) :
    (l.flatMap g).length = l.length * n := by
  induction l with
  | nil => rw [List.flatMap_nil, List.length_nil, List.length_nil, Nat.zero_mul]
  | cons a l ih => rw [List.flatMap_cons, List.length_append, h, ih, List.length_cons, Nat.succ_mul, Nat.add_comm]

theorem two_le_drainWidth : ∀ dfmt, 2 ≤ drainWidth dfmt
  | 0 => by decide
  | 1 => by decide
  | 2 => by decide
  | _ + 3 => by simp [drainWidth]

/-- A drained row fits its lines. -/
theorem length_drainRow_le (c : CoreCtx) (f : MdF) (t : Nat) : (drainRow c f t).1.length ≤ mdLines f * 64 := by
  have hlen : (drainRow c f t).1.length ≤ f.lanes * drainWidth f.dfmt := by
    unfold drainRow
    split
    case h_1 h =>
      simp only [h, length_flatMap_const fun _ => length_leBytes 4 _, List.length_map, List.length_range]
      exact Nat.le_refl _
    case h_2 h =>
      have hpair (p : Word × Word) : (leBytes 4 p.1.toNat ++ leBytes 4 p.2.toNat).length = 8 := by
        rw [List.length_append, length_leBytes, length_leBytes]
      simp only [h, length_flatMap_const hpair, List.length_map, List.length_range]
      exact Nat.le_refl _
    case h_3 =>
      simp only [length_flatMap_const fun _ => length_leBytes 2 _, List.length_map, List.length_range]
      exact Nat.mul_le_mul_left f.lanes (two_le_drainWidth f.dfmt)
  unfold mdLines ceilDiv
  omega

/-- Rows written to a core's store one after another: each its first line and its bytes. -/
def writeRows (rows : List (Nat × List Byte)) (core : Core) : Core :=
  rows.foldl (fun core r => sramWrite core r.1 0 r.2) core

/-- Rows change the store alone. -/
theorem writeRows_frame (rows : List (Nat × List Byte)) (core : Core) :
    writeRows rows core = { core with sram := (writeRows rows core).sram } := by
  induction rows generalizing core with
  | nil => rfl
  | cons r rows ih => exact ih (sramWrite core r.1 0 r.2)

theorem ctxOf_writeRows (rows : List (Nat × List Byte)) (core : Core) (g : Bool) :
    ctxOf (writeRows rows core) g = ctxOf core g := by
  rw [writeRows_frame]
  rfl

theorem wf_writeRows {rows : List (Nat × List Byte)} {core : Core} (h : Mem.wf core.sram = true) :
    Mem.wf (writeRows rows core).sram = true := by
  induction rows generalizing core with
  | nil => exact h
  | cons r rows ih => exact ih (Mem.wf_writeN _ _ _ h)

/-- A byte of none of the rows reads as before. -/
theorem read_writeRows_other {rows : List (Nat × List Byte)} {core : Core} {x : Nat}
    (h : ∀ r ∈ rows, x < r.1 * 64 ∨ r.1 * 64 + r.2.length ≤ x) :
    Mem.read (writeRows rows core).sram x = Mem.read core.sram x := by
  induction rows generalizing core with
  | nil => rfl
  | cons r rows ih =>
    obtain ⟨hr, hrows⟩ := List.forall_mem_cons.mp h
    exact (ih (core := sramWrite core r.1 0 r.2) hrows).trans (Mem.read_writeN_other _ _ _ _ hr)

/-- A row that no later one meets reads back. -/
theorem readN_writeRows {a b : List (Nat × List Byte)} {p : Nat} {bytes : List Byte} {core : Core}
    (hwf : Mem.wf core.sram = true)
    (h : ∀ r ∈ b, p * 64 + bytes.length ≤ r.1 * 64 ∨ r.1 * 64 + r.2.length ≤ p * 64) :
    Mem.readN (writeRows (a ++ (p, bytes) :: b) core).sram (p * 64) bytes.length = bytes := by
  have hrows : writeRows (a ++ (p, bytes) :: b) core = writeRows b (sramWrite (writeRows a core) p 0 bytes) := by
    simp [writeRows]
  rw [hrows, Mem.readN_congr fun x _ _ => read_writeRows_other fun r hr => by have := h r hr; omega]
  exact Mem.readN_writeN _ _ _ (wf_writeRows hwf)

/-- What `md` writes: the bytes of each live row at its line. -/
def drainedRows (c : CoreCtx) (f : MdF) (lines : List (Nat × Nat)) : List (Nat × List Byte) :=
  lines.map fun l => (l.2, (drainRow c f l.1).1)

section

variable {c : CoreCtx} {f : MdF} {core : Core}

/-- The rows of an `md` are written in the order of its lines. -/
theorem foldl_drained (lines : List (Nat × Nat)) :
    (lines.map fun l => (l.2, drainRow c f l.1)).foldl (fun core o => sramWrite core o.1 0 o.2.1) core =
      writeRows (drainedRows c f lines) core := by
  simp only [writeRows, drainedRows, List.foldl_map]

/-- Every byte outside the lines of the live rows stays (R132). -/
theorem sramKept_drainedRows (lines : List (Nat × Nat)) :
    SramKept core (writeRows (drainedRows c f lines) core) (lines.map fun l => (l.2, mdLines f)) := by
  intro x hx
  refine read_writeRows_other fun r hr => ?_
  obtain ⟨l, hl, rfl⟩ := List.mem_map.mp hr
  have hout := hx (l.2, mdLines f) (List.mem_map_of_mem hl)
  have hlen := length_drainRow_le c f l.1
  simp only at hout ⊢
  omega

/-- A live row whose lines no later one shares stands in them (R131). -/
theorem readN_drainedRows {a b : List (Nat × Nat)} {t p : Nat} (hwf : Mem.wf core.sram = true)
    (h : ∀ x ∈ b, p + mdLines f ≤ x.2 ∨ x.2 + mdLines f ≤ p) :
    Mem.readN (writeRows (drainedRows c f (a ++ (t, p) :: b)) core).sram (p * 64) (drainRow c f t).1.length =
      (drainRow c f t).1 := by
  rw [drainedRows, List.map_append, List.map_cons]
  refine readN_writeRows hwf fun r hr => ?_
  obtain ⟨l, hl, rfl⟩ := List.mem_map.mp hr
  have hdisj := h l hl
  have ht := length_drainRow_le c f t
  have hlen := length_drainRow_le c f l.1
  simp only
  omega

end

/-! ## Lines of no rows -/

theorem fieldRows_nil (e : Env) (base x stride n : Nat) : fieldRows e base x stride n [] = [] := by
  unfold fieldRows
  split <;> rfl

/-- The rows that an instruction waits for are those that its matrix operand names, also where no row is live. -/
theorem fieldRows_of_operandRows {e : Env} {wr : Bool} {base x stride n : Nat} {rows : List Nat} {r : List (Nat × Nat)}
    (h : operandRows e wr base x stride n rows = some r) : fieldRows e base x stride n rows = r.map fun p => (p.2, n) := by
  cases rows with
  | nil => rw [fieldRows_nil, ← Option.some.inj h, List.map_nil]
  | cons t rows => exact fieldRows_operand (List.cons_ne_nil t rows) h

theorem fieldRows_of_mmRows {e : Env} {f : MmF} {rows : List Nat} {lines : List (Nat × Nat × Nat)}
    (h : mmRows e f rows = some lines) :
    fieldRows e f.aline f.xa (mmStride f) (rowLines f.afmt f.depth) rows = lines.map fun l => (l.2.1, l.2.2) := by
  obtain ⟨r, hr, rfl⟩ := Option.map_eq_some_iff.mp h
  rw [fieldRows_of_operandRows hr, List.map_map]
  rfl

/-- Nothing to read or write is always free. -/
theorem linesFree_nil (c : CoreCtx) : linesFree c [] [] = true := rfl

/-! ## The three instructions -/

section

variable {s : State} {c : CoreRef} {k : Ctl} {insn : CoreInsn} {e : Env} {target : Env → Option Nat}
  {body : Env → State → Act}

/-- A body that changes the state beside the unit's registers, and then those, retires with them there. -/
theorem issue_regAfter {f : CoreCtx → CoreCtx} {u : State} (h : Issuing s c k insn e) (hb : body e s = regBody f e u)
    (hu : ctxOf (getCore u e.key) e.ghost = e.ctx) :
    issue c k insn target body s = .next (retire e k (target e) (f e.ctx) u) := by
  rw [issue_ok h hb]
  simp [retire, modCtx, modCore, hu]

/-- The registers that the unit answers are those of its core. -/
theorem ctx_of_issuing (h : Issuing s c k insn e) : ctxOf (getCore s e.key) e.ghost = e.ctx := by
  obtain ⟨-, -, -, -, hctx, -⟩ := envOf_core h.2.1
  exact hctx.symm

/-! ### `ml` -/

theorem exec_ml_noop {f : MlF} (hf : f.lanes = 0 ∨ f.ck = f.cpl) (h : Issuing s c k (.ml f) e) :
    exec (.ml c k f false) s = .next (retire e k none e.ctx s) := by
  rw [exec_ml, execMl, withEcc_false]
  exact issue_reg (f := id) h (by simp [hf])

/-- The registers once an `ml` has read its tile (R110, R113). -/
def mlLoaded (e : Env) (f : MlF) (lines : List (Nat × Nat)) (c : CoreCtx) : CoreCtx :=
  { c with lanes := (List.range f.lanes).map fun i => (i, laneSlice e.core f (mlChunks f) lines i), lanesN := some f.lanes }

theorem exec_ml_loads {f : MlF} {lines : List (Nat × Nat)} (hlanes : 0 < f.lanes) (hck : f.ck ≠ f.cpl)
    (hmm : e.ctx.mmNow = none)
    (hlines : tileRows e ((f.trow : Int) + sint (xRead e.ctx f.xa)) (mlRows f) = some lines)
    (hfree : linesFree e.ctx (mlCells f (mlChunks f) lines) [] = true) (h : Issuing s c k (.ml f) e) :
    exec (.ml c k f false) s = .next (retire e k none (mlLoaded e f lines e.ctx) s) := by
  rw [exec_ml, execMl, withEcc_false]
  refine issue_reg (f := mlLoaded e f lines) h ?_
  refine (if_neg (by simp [Nat.ne_of_gt hlanes, hck])).trans ((if_neg (by simp [hmm])).trans
    ((if_neg (by simp [fieldTile_rows _ hlines, hfree])).trans ?_))
  simp only [hlines]
  rfl

/-! ### `mm` -/

section

variable {f : MmF}

/-- An `mm` that finds no other in flight and its bank free of chains does not wait for them (R73). -/
theorem mm_bank_free (hmm : e.ctx.mmNow = none) (hch : ∀ m ∈ e.ctx.chains, m.f.bank ≠ f.bank)
    (hmc : ∀ m ∈ e.ctx.mcOut, m.2 ≠ f.bank) :
    (e.ctx.mmNow.isSome || e.ctx.chains.any (fun m => m.f.bank == f.bank) || e.ctx.mcOut.any (·.2 == f.bank)) = false := by
  simp only [hmm, Option.isSome_none, Bool.false_or, Bool.or_eq_false_iff, List.any_eq_false, beq_iff_eq]
  exact ⟨hch, hmc⟩

theorem exec_mm_noop (hrows : liveRows e.ctx f.mrow (shapeT f.shape) = [] ∨ f.depth = 0) (hmm : e.ctx.mmNow = none)
    (hch : ∀ m ∈ e.ctx.chains, m.f.bank ≠ f.bank) (hmc : ∀ m ∈ e.ctx.mcOut, m.2 ≠ f.bank) (h : Issuing s c k (.mm f) e) :
    exec (.mm c k f false) s = .next (retire e k none { e.ctx with mmCount := e.ctx.mmCount + 1 } s) := by
  rw [exec_mm, execMm, withEcc_false]
  refine issue_reg (f := fun c => { c with mmCount := c.mmCount + 1 }) h ?_
  simp only [mm_bank_free hmm hch hmc, Bool.false_or]
  rcases hrows with hrows | hdepth
  · simp [hrows, fieldRows_nil, linesFree_nil]
  · simp [hdepth]

/-- The issue of an `mm` is checked (07 R229). -/
def mmPicked (e : Env) : Bool :=
  e.job.f.shadowEn && shadowPick e.run.bar e.row e.col e.ctx.mmCount e.job.f.shadowK

/-- What the issue of an `mm` adds to its run's counts of checks (07 R232). -/
def mmCounted (e : Env) (s : State) : State :=
  if mmPicked e then modNow e.slot (fun r => { r with
    shadowSel := r.shadowSel + 1, shadowDrop := r.shadowDrop + bit e.ctx.shadow.isSome }) s else s

/-- The `mm` that an issue puts in flight (R127, R128). -/
def mmIssued (e : Env) (f : MmF) (lines : List (Nat × Nat × Nat)) (beat : Nat) : MmItem :=
  ⟨f, beat, lines.map fun l => (l.2.1, l.2.2), (mmCells e f lines).map fun x => (x.1, x.2.1)⟩

/-- The registers once an `mm` with live rows has issued. -/
def mmFlying (e : Env) (f : MmF) (lines : List (Nat × Nat × Nat)) (c : CoreCtx) : CoreCtx :=
  { c with
    mmCount := c.mmCount + 1, mmNow := some (mmIssued e f lines c.beat)
    shadow := if mmPicked e && c.shadow.isNone then
      some ⟨e.run.bar, c.mmCount, (mmCells e f lines).map fun x => (x.2.2.1, x.2.2.2)⟩ else c.shadow }

/-- Each live row and each lane that computes brings its sums to its entry (R127). -/
theorem mem_mmIssued_cells {lines : List (Nat × Nat × Nat)} {beat : Nat} {r : Nat × Nat × Nat} {l0 p : Nat × LaneStore}
    (hr : r ∈ lines) (hl0 : l0 ∈ e.ctx.lanes.head?) (hp : p ∈ e.ctx.lanes) (hshape : p.1 < shapeL f.shape)
    (helems : 0 < p.2.elems) :
    let key := bankKey f.shape p.1 r.1
    (key, enterSums f.zero (bankRead e.ctx f.bank key) (stepSums p.2.wfmt f.afmt p.2.blk (mmProducts p.2
      (activation f.afmt l0.2.blk f.depth (sramBytes e.core r.2.1 0 (r.2.2 * 64))) f.depth))) ∈
      (mmIssued e f lines beat).cells := by
  intro key
  have hcomputing : p ∈ e.ctx.lanes.filter fun p => decide (p.1 < shapeL f.shape) && decide (0 < p.2.elems) :=
    List.mem_filter.mpr ⟨hp, by simp [hshape, helems]⟩
  simp only [mmIssued, mmCells, Option.mem_def.mp hl0, List.map_flatMap, List.map_map]
  exact List.mem_flatMap.mpr ⟨r, hr, List.mem_map.mpr ⟨p, hcomputing, rfl⟩⟩

theorem exec_mm_issues {lines : List (Nat × Nat × Nat)} {n : Nat} (hrows : liveRows e.ctx f.mrow (shapeT f.shape) ≠ [])
    (hdepth : 0 < f.depth) (hmm : e.ctx.mmNow = none) (hch : ∀ m ∈ e.ctx.chains, m.f.bank ≠ f.bank)
    (hmc : ∀ m ∈ e.ctx.mcOut, m.2 ≠ f.bank) (hn : e.ctx.lanesN = some n) (hpos : 0 < n)
    (hst : ∀ i, i < shapeL f.shape → i < n → ∃ st, e.ctx.lanes.get i = some st ∧ f.depth ≤ st.elems)
    (hlines : mmRows e f (liveRows e.ctx f.mrow (shapeT f.shape)) = some lines)
    (hfree : linesFree e.ctx (lines.map fun l => (l.2.1, l.2.2)) [] = true) (h : Issuing s c k (.mm f) e) :
    exec (.mm c k f false) s = .next (retire e k none (mmFlying e f lines e.ctx) (mmCounted e s)) := by
  rw [exec_mm, execMm, withEcc_false]
  have hcores : ctxOf (getCore (mmCounted e s) e.key) e.ghost = e.ctx := by
    have hctx := ctx_of_issuing h
    unfold mmCounted
    split <;> exact hctx
  refine issue_regAfter (f := mmFlying e f lines) h ?_ hcores
  refine (if_neg (by simp [mm_bank_free hmm hch hmc, fieldRows_of_mmRows hlines, hfree])).trans
    ((if_neg (by simp [hrows, Nat.ne_of_gt hdepth])).trans ((if_neg ?_).trans ?_))
  · simp only [hn, Option.getD_some, Bool.or_eq_true, not_or, decide_eq_true_eq, List.any_eq_true, not_exists, not_and,
      List.mem_range, Nat.lt_min]
    refine ⟨Nat.ne_of_gt hpos, fun i ⟨hshape, hlt⟩ => ?_⟩
    obtain ⟨st, hget, hle⟩ := hst i hshape hlt
    simp [hget, hle]
  · simp only [hlines]
    rfl

end

/-! ### The completion token -/

theorem exec_mmCompletionToken_flying {m : MmItem} (h : Standing s c e) (hm : e.ctx.mmNow = some m) :
    exec (.mmCompletionToken c) s = .next (settle e (modCtx e.key e.ghost (fun _ => mmEntered e.ctx m) s)) := by
  obtain ⟨hc, he⟩ := h
  rw [exec_mmCompletionToken, execMmCompletionToken, onCore]
  simp only [hc, he, hm]
  exact congrArg (fun u => Host.Outcome.next (settle e u)) (modCtx_const he fun c => mmEntered c m)

/-! ### `md` -/

section

variable {f : MdF}

/-- An `md` waits for no `mm` in flight into the other bank (R130). -/
theorem md_bank_free (hmm : ∀ m ∈ e.ctx.mmNow, m.f.bank ≠ f.bank) :
    (match e.ctx.mmNow with
      | some m => m.f.bank == f.bank
      | none => false) = false := by
  cases hm : e.ctx.mmNow with
  | none => rfl
  | some m => simpa using hmm m hm

theorem exec_md_noop (hmm : ∀ m ∈ e.ctx.mmNow, m.f.bank ≠ f.bank) (hlanes : f.lanes = 0) (h : Issuing s c k (.md f) e) :
    exec (.md c k f false) s = .next (retire e k none e.ctx s) := by
  rw [exec_md, execMd, withEcc_false]
  refine issue_reg (f := id) h ?_
  exact (if_neg (ne_true_of_eq_false (md_bank_free hmm))).trans (if_pos hlanes)

/-- The state once an `md` has written its rows. -/
def mdWritten (e : Env) (f : MdF) (lines : List (Nat × Nat)) (s : State) : State :=
  modCore e.key (writeRows (drainedRows e.ctx f lines)) s

theorem exec_md_drains {lines : List (Nat × Nat)} (hmm : ∀ m ∈ e.ctx.mmNow, m.f.bank ≠ f.bank) (hlanes : 0 < f.lanes)
    (hshape : f.lanes ≤ shapeL (bankShape e.ctx f.bank))
    (hlines : mdRows e f (liveRows e.ctx f.mrow (shapeT (bankShape e.ctx f.bank))) = some lines)
    (hfree : linesFree e.ctx [] (lines.map fun l => (l.2, mdLines f)) = true) (hroom : writeRoom e.ctx = true)
    (h : Issuing s c k (.md f) e) :
    exec (.md c k f false) s = .next (retire e k none (bankDrained f.bank e.ctx) (modNow e.slot (fun r => { r with
      sats := r.sats + sumNat (lines.map fun l => (drainRow e.ctx f l.1).2) }) (mdWritten e f lines s))) := by
  rw [exec_md, execMd, withEcc_false]
  have hctx : ctxOf (getCore (mdWritten e f lines s) e.key) e.ghost = e.ctx := by
    rw [mdWritten, getCore_modCore, ctxOf_writeRows, ctx_of_issuing h]
  refine issue_regAfter (f := bankDrained f.bank) h ?_ hctx
  have hwait : fieldRows e f.dline f.xa (mdStride f) (mdLines f) (liveRows e.ctx f.mrow (shapeT (bankShape e.ctx f.bank))) =
      lines.map fun l => (l.2, mdLines f) := fieldRows_of_operandRows hlines
  refine (if_neg (ne_true_of_eq_false (md_bank_free hmm))).trans ((if_neg (Nat.ne_of_gt hlanes)).trans
    ((if_neg (by simp [hwait, hfree, hroom])).trans ((if_neg (Nat.not_lt.mpr hshape)).trans ?_)))
  simp only [hlines, List.map_map, foldl_drained]
  rfl

end

end

/-! ## The obligations -/

/-- Settles O24: `exec_ml_loads` and `exec_mm_issues`, and their cases without effect. -/
theorem matrixIssuesComplete : Obligations.MatrixIssuesComplete := by
  intro s c k e
  refine ⟨fun f hf h => exec_ml_noop hf h, ?_, fun f hrows hmm hch hmc h => exec_mm_noop hrows hmm hch hmc h, ?_⟩
  · intro f lines hlanes hck hmm hlines hfree h
    refine ⟨_, exec_ml_loads hlanes hck hmm hlines hfree h, rfl, fun i hi => ?_, fun i hi => ?_⟩
    · exact (Table.get_map_range _ _ i).trans (if_pos hi)
    · exact (Table.get_map_range _ _ i).trans (if_neg (Nat.not_lt.mpr hi))
  · intro f lines n hrows hdepth hmm hch hmc hn hpos hst hlines hfree h
    refine ⟨_, _, _, exec_mm_issues hrows hdepth hmm hch hmc hn hpos hst hlines hfree h, ?_, fun hen => ?_, rfl, rfl, rfl,
      fun r hr l0 hl0 p hp hshape helems => mem_mmIssued_cells hr hl0 hp hshape helems⟩
    · unfold mmCounted
      split
      · exact .inr rfl
      · exact .inl rfl
    · simp [mmCounted, mmFlying, mmPicked, hen]

/-- Settles O25: `exec_mmCompletionToken_flying` and `exec_md_drains`, with what a read finds in the banks and in the
store. -/
theorem banksFillAndDrain : Obligations.BanksFillAndDrain := by
  refine ⟨?_, ?_⟩
  · intro s c e m h hm
    exact ⟨_, exec_mmCompletionToken_flying h hm, rfl, bankShape_mmEntered_self .., bankShape_mmEntered_other ..,
      bankRead_mmEntered_other _ m, fun _ hkey => bankRead_mmEntered_kept _ m hkey,
      fun _ _ _ _ hcells hkey => bankRead_mmEntered_last _ m hcells hkey, mmEntered_frame _ m hm⟩
  · intro s c k e f hmm
    refine ⟨fun hlanes h => exec_md_noop hmm hlanes h, ?_⟩
    intro lines hlanes hshape hlines hfree hroom hwf h
    obtain ⟨-, -, -, hcore, -⟩ := envOf_core h.2.1
    have hwritten : getCore (mdWritten e f lines s) e.key = writeRows (drainedRows e.ctx f lines) e.core := by
      rw [mdWritten, getCore_modCore, hcore]
    refine ⟨_, exec_md_drains hmm hlanes hshape hlines hfree hroom h, rfl,
      fun i hi => getCore_modCore_other s e.key i _ hi, ?_, ?_, ?_⟩
    · rw [hwritten, writeRows_frame]
    · rw [hwritten]
      exact sramKept_drainedRows lines
    · rintro a t p b rfl hdisj
      rw [hwritten]
      exact readN_drainedRows hwf hdisj

end Machine

end Sys2Proof
end

section
/-! Column chains (05 R141 to R146): what an `mc` sends on and leaves in its registers, which waiting `mc` takes which
stream, and the state in which the port of a core has taken a stream. -/

namespace Sys2Proof

/-! ## Tables -/

/-- Of two values put at a key the second stands. -/
theorem Table.put_put {α : Type} (t : Table α) (k : Nat) (v w : α) : (t.put k v).put k w = t.put k w := by
  induction t with
  | nil => simp [Table.put]
  | cons p t ih =>
    by_cases hlt : k < p.1
    · simp [Table.put, hlt]
    · by_cases heq : k = p.1
      · simp [Table.put, heq]
      · simp [Table.put, hlt, heq, ih]

namespace Machine

open Sys2Proof.Safety

/-! ## Cores -/

@[simp] theorem setCtx_chainBuf (c : Core) (g : Bool) (x : CoreCtx) : (setCtx c g x).chainBuf = c.chainBuf := by
  unfold setCtx
  repeat' split
  all_goals rfl

@[simp] theorem setCtx_setCtx (c : Core) (g : Bool) (x y : CoreCtx) : setCtx (setCtx c g x) g y = setCtx c g y := by
  unfold setCtx
  by_cases h : c.ghostOn = g
  · simp [h]
  · cases g <;> simp [h]

/-- Two changes of a core are one. -/
theorem modCore_modCore (key : Nat) (f h : Core → Core) (s : State) :
    modCore key f (modCore key h s) = modCore key (fun c => f (h c)) s := by
  simp only [modCore, getCore, Table.getD_put_self, Table.put_put]

/-- Two changes of a core's registers are one. -/
theorem modCtx_modCtx (key : Nat) (g : Bool) (f h : CoreCtx → CoreCtx) (s : State) :
    modCtx key g f (modCtx key g h s) = modCtx key g (fun c => f (h c)) s := by
  simp only [modCtx, modCore_modCore, ctxOf_setCtx, setCtx_setCtx]

/-- A change of a core is what it makes of the core that stands there. -/
theorem modCore_congr {key : Nat} {f h : Core → Core} {s : State} (hc : f (getCore s key) = h (getCore s key)) :
    modCore key f s = modCore key h s := by
  simp only [modCore, hc]

theorem modCtx_congr {key : Nat} {g : Bool} {f : CoreCtx → CoreCtx} {s : State} {c : CoreCtx}
    (hc : ctxOf (getCore s key) g = c) : modCtx key g f s = modCtx key g (fun _ => f c) s :=
  modCore_congr (by rw [hc])

/-! ## The next instruction (R76) -/

/-- The next instruction moves the program counter, the loops and an index register alone. -/
theorem loopBack_frame (n : Nat) (c : CoreCtx) :
    loopBack n c = { c with pc := (loopBack n c).pc, loops := (loopBack n c).loops, x := (loopBack n c).x } := by
  induction n generalizing c with
  | zero => rfl
  | succ n ih =>
    unfold loopBack
    split
    · split
      · split
        · rw [xWrite_frame]
        · rename_i f r _ _ _
          rw [ih { c with loops := r }]
      · rfl
    · rfl

theorem stepPc_frame (c : CoreCtx) :
    stepPc c = { c with pc := (stepPc c).pc, loops := (stepPc c).loops, x := (stepPc c).x } :=
  loopBack_frame 5 { c with pc := c.pc + 1 }

/-- The beats and banks of what was sent play no part in the next instruction. -/
theorem loopBack_withMcOut (n : Nat) (c : CoreCtx) (l : List (Nat × Bool)) :
    loopBack n { c with mcOut := l } = { loopBack n c with mcOut := l } := by
  induction n generalizing c with
  | zero => rfl
  | succ n ih =>
    cases hl : c.loops with
    | nil => simp only [loopBack, hl]
    | cons f r =>
      by_cases hs : f.stop = c.pc
      · by_cases hi : f.iter + 1 < f.count
        · simp only [loopBack, hl, hs, hi, if_true, xWrite]
          split <;> rfl
        · simpa only [loopBack, hl, hs, hi, if_true, if_false] using ih { c with loops := r }
      · simp only [loopBack, hl, hs, if_false]

theorem stepPc_withMcOut (c : CoreCtx) (l : List (Nat × Bool)) :
    stepPc { c with mcOut := l } = { stepPc c with mcOut := l } :=
  loopBack_withMcOut 5 { c with pc := c.pc + 1 } l

section

variable (c : CoreCtx)

@[simp] theorem stepPc_mcOut : (stepPc c).mcOut = c.mcOut := by rw [stepPc_frame]

@[simp] theorem stepPc_waitFor : (stepPc c).waitFor = c.waitFor := by rw [stepPc_frame]

@[simp] theorem bankShape_stepPc (b : Bool) : bankShape (stepPc c) b = bankShape c b := by
  rw [stepPc_frame]
  rfl

@[simp] theorem bankRead_stepPc (b : Bool) (key : Nat) : bankRead (stepPc c) b key = bankRead c b key := by
  rw [stepPc_frame]
  rfl

end

/-- An advance that is not pending does not take place (R80). -/
theorem settle_idle {e : Env} {s : State} (h : (ctxOf (getCore s e.key) e.ghost).waitFor = none) : settle e s = s := by
  simp only [settle, h]

/-- No advance is pending where an instruction issues. -/
theorem waitFor_of_issuing {s : State} {c : CoreRef} {k : Ctl} {insn : CoreInsn} {e : Env} (h : Issuing s c k insn e) :
    e.ctx.waitFor = none := by
  obtain ⟨-, -, hissues, -⟩ := h
  simp only [issues, Bool.and_eq_true, Option.isNone_iff_eq_none] at hissues
  obtain ⟨⟨⟨-, hwait⟩, -⟩, -⟩ := hissues
  exact hwait

/-! ## What an `mc` sends (R142, R143, R145) -/

/-- The stream of an `mc` on registers `c`, with the pairs that came in from above. -/
def mcStream (e : Env) (m : McItem) (incoming : List (Word × Word)) (c : CoreCtx) : ChainStream :=
  { slot := e.slot, bar := e.run.bar, beat := m.beat, run := e.run.run, row := e.row, col := e.col,
    toLink := m.f.dir == 1, rows := if m.f.lanes = 0 then [] else m.rows, lanes := m.f.lanes,
    pairs := chainPairs c m.f m.rows incoming }

/-- The registers of an `mc` that has sent: its bank counts as drained where it was read (R39), and the stream is one that
the port below has still to take (R146). -/
def mcSent (m : McItem) (c : CoreCtx) : CoreCtx :=
  { (if m.f.lanes = 0 then c else bankDrained m.f.bank c) with mcOut := c.mcOut ++ [(m.beat, m.f.bank)] }

theorem bankDrained_mcOut (b : Bool) (c : CoreCtx) : (bankDrained b c).mcOut = c.mcOut := by
  cases b <;> rfl

theorem mcSent_noLanes {m : McItem} (h : m.f.lanes = 0) (c : CoreCtx) :
    mcSent m c = { c with mcOut := c.mcOut ++ [(m.beat, m.f.bank)] } := by
  rw [mcSent, if_pos h]

theorem mcSent_lanes {m : McItem} (h : 0 < m.f.lanes) (c : CoreCtx) :
    mcSent m c = { bankDrained m.f.bank c with mcOut := c.mcOut ++ [(m.beat, m.f.bank)] } := by
  rw [mcSent, if_neg (Nat.ne_of_gt h)]

/-- An `mc` without lanes retires with the registers that it would retire with had it sent before. -/
theorem mcSent_stepPc {m : McItem} (h : m.f.lanes = 0) (c : CoreCtx) :
    mcSent m (stepPc c) = stepPc { c with mcOut := c.mcOut ++ [(m.beat, m.f.bank)] } := by
  rw [mcSent_noLanes h, stepPc_mcOut]
  exact (stepPc_withMcOut c _).symm

theorem mcSent_chains (m : McItem) (c : CoreCtx) : (mcSent m c).chains = c.chains := by
  unfold mcSent bankDrained
  repeat' split
  all_goals rfl

theorem mcSent_waitFor (m : McItem) (c : CoreCtx) : (mcSent m c).waitFor = c.waitFor := by
  unfold mcSent bankDrained
  repeat' split
  all_goals rfl

/-- A stream joins those in transit. -/
def sendStream (st : ChainStream) (s : State) : State := { s with streams := s.streams ++ [st] }

@[simp] theorem getCore_sendStream (st : ChainStream) (s : State) (key : Nat) :
    getCore (sendStream st s) key = getCore s key := rfl

theorem chainSend_eq (e : Env) (m : McItem) (incoming : List (Word × Word)) (s : State) :
    chainSend e m incoming s =
      sendStream (mcStream e m incoming (ctxOf (getCore s e.key) e.ghost)) (modCtx e.key e.ghost (mcSent m) s) := by
  unfold chainSend
  by_cases h : m.f.lanes = 0
  · simp only [h, if_true, funext (mcSent_noLanes h)]
    simp [sendStream, mcStream, h]
  · simp only [h, if_false, modCtx_modCtx, funext (mcSent_lanes (Nat.pos_of_ne_zero h)), bankDrained_mcOut]
    simp [sendStream, mcStream, h]

/-- Each pair of a stream is the incoming one and the bank's, added in this order (R142). -/
theorem chainPairs_getD {c : CoreCtx} {f : McF} {rows : List Nat} (incoming : List (Word × Word)) {j : Nat}
    (hj : j < rows.length * f.lanes) :
    (chainPairs c f rows incoming).getD j (0, 0) = pairAdd (incoming.getD j (0, 0))
      (bankRead c f.bank (bankKey (bankShape c f.bank) (j % f.lanes) (rows.getD (j / f.lanes) 0))) := by
  simp [chainPairs, List.getD_eq_getElem?_getD, List.getElem?_range hj]

theorem chainPairs_noLanes {f : McF} (h : f.lanes = 0) (c : CoreCtx) (rows : List Nat) (incoming : List (Word × Word)) :
    chainPairs c f rows incoming = [] := by
  simp [chainPairs, h]

theorem chainPairs_stepPc (c : CoreCtx) (f : McF) (rows : List Nat) (incoming : List (Word × Word)) :
    chainPairs (stepPc c) f rows incoming = chainPairs c f rows incoming := by
  simp [chainPairs]

/-! ## Which `mc` takes which stream (R143) -/

/-- A waiting `mc` awaits the stream: it carries the `mc`'s beat and comes from the core above in the same run. -/
def awaits (e : Env) (m : McItem) (st : ChainStream) : Bool :=
  st.slot == e.slot && st.bar == e.run.bar && st.run == e.run.run && st.col == e.col && st.row + 1 == e.row &&
    st.beat == m.beat

/-- Where no `mc` awaits a stream in the buffer nothing is taken. -/
theorem chainMatch_none {e : Env} {s : State} (n : Nat)
    (h : ∀ m ∈ (ctxOf (getCore s e.key) e.ghost).chains, ∀ st ∈ (getCore s e.key).chainBuf, awaits e m st = false) :
    chainMatch (n + 1) e s = settle e s := by
  have hfind : ((ctxOf (getCore s e.key) e.ghost).chains.find? fun m =>
      (getCore s e.key).chainBuf.any fun st => awaits e m st) = none := by
    simpa using h
  unfold awaits at hfind
  simp only [chainMatch, hfind]

/-- Where no `mc` waits and no advance is pending nothing happens. -/
theorem chainMatch_idle {e : Env} {s : State} (n : Nat) (hchains : (ctxOf (getCore s e.key) e.ghost).chains = [])
    (hwait : (ctxOf (getCore s e.key) e.ghost).waitFor = none) : chainMatch (n + 1) e s = s := by
  rw [chainMatch_none n (by simp [hchains]), settle_idle hwait]

/-- The state once an `mc` has taken a stream from the buffer. -/
def streamMet (e : Env) (m : McItem) (st : ChainStream) (s : State) : State :=
  modCtx e.key e.ghost (fun c => { c with chains := c.chains.erase m })
    (modCore e.key (fun core => { core with chainBuf := core.chainBuf.erase st }) s)

/-- The only waiting `mc` takes the only stream in the buffer, which has its shape, and sends on. -/
theorem chainMatch_one {e : Env} {s : State} {m : McItem} {st : ChainStream} (n : Nat)
    (hchains : (ctxOf (getCore s e.key) e.ghost).chains = [m]) (hbuf : (getCore s e.key).chainBuf = [st])
    (h : awaits e m st = true) (hpos : 0 < m.f.lanes) (hrows : st.rows = m.rows) (hlanes : st.lanes = m.f.lanes) :
    chainMatch (n + 1) e s = chainMatch n e (chainSend e m st.pairs (streamMet e m st s)) := by
  unfold awaits at h
  simp [chainMatch, streamMet, hchains, hbuf, h, Nat.ne_of_gt hpos, hrows, hlanes]

/-! ## `mc` (R142) -/

section

variable {s : State} {c : CoreRef} {k : Ctl} {e : Env} {f : McF}

/-- The `mc` that issues, with its live rows and its beat. -/
def mcIssued (e : Env) (f : McF) : McItem :=
  ⟨f, liveRows e.ctx f.mrow (shapeT (bankShape e.ctx f.bank)), e.ctx.beat⟩

/-- What stands in the way of no `mc` that issues: no `mm` is in flight into its bank (R133), the bank has its lanes, and
the stream may leave in its direction (R144). -/
structure McPasses (e : Env) (f : McF) : Prop where
  bank : ∀ m ∈ e.ctx.mmNow, m.f.bank ≠ f.bank
  lanes : f.lanes ≤ shapeL (bankShape e.ctx f.bank)
  toLink : f.dir = 1 → e.score.rows ≤ e.row + 1 ∧ e.score.anchored = true
  toCore : f.dir = 0 → e.row + 1 < e.score.rows ∧ isHead e (e.row + 1) = false

theorem exec_mc_passes (hf : McPasses e f) (h : Issuing s c k (.mc f) e) :
    exec (.mc c k f false) s = .next (applyBw e k none (if isHead e e.row then
      chainSend e (mcIssued e f) [] (modCtx e.key e.ghost stepPc s)
    else chainMatch (e.ctx.chains.length + 1) e (modCtx e.key e.ghost
      (fun c => { c with chains := c.chains ++ [mcIssued e f] }) (modCtx e.key e.ghost stepPc s)))) := by
  rw [exec_mc, execMc, withEcc_false]
  refine issue_ok h ((if_neg ?_).trans ((if_neg (Nat.not_lt.mpr hf.lanes)).trans ((if_neg ?_).trans ((if_neg ?_).trans ?_))))
  · cases hm : e.ctx.mmNow with
    | none => exact Bool.false_ne_true
    | some m => simpa using hf.bank m hm
  · simp only [Bool.and_eq_true, decide_eq_true_eq, Bool.or_eq_true, Bool.not_eq_true', not_and, not_or, Nat.not_lt,
      Bool.not_eq_false]
    exact hf.toLink
  · simp only [Bool.and_eq_true, decide_eq_true_eq, Bool.or_eq_true, not_and, not_or, Nat.not_le, Bool.not_eq_true]
    exact hf.toCore
  · split <;> rfl

/-- A chain's head sends its bank's pairs on. -/
theorem exec_mc_head (hf : McPasses e f) (hhead : isHead e e.row = true) (h : Issuing s c k (.mc f) e) :
    exec (.mc c k f false) s = .next (applyBw e k none (sendStream (mcStream e (mcIssued e f) [] (stepPc e.ctx))
      (modCtx e.key e.ghost (fun _ => mcSent (mcIssued e f) (stepPc e.ctx)) s))) := by
  rw [exec_mc_passes hf h, if_pos hhead, chainSend_eq, modCtx_modCtx, ctx_modCtx, ctx_of_issuing h,
    modCtx_congr (ctx_of_issuing h)]

/-- A core within a chain keeps its `mc` waiting while no stream is in its buffer. -/
theorem exec_mc_inner (hf : McPasses e f) (hhead : isHead e e.row = false) (hbuf : e.core.chainBuf = [])
    (h : Issuing s c k (.mc f) e) :
    exec (.mc c k f false) s = .next (applyBw e k none (modCtx e.key e.ghost (fun _ => { stepPc e.ctx with
      chains := (stepPc e.ctx).chains ++ [mcIssued e f] }) s)) := by
  obtain ⟨-, -, -, hcore, -⟩ := envOf_core h.2.1
  have hbuf' (q : CoreCtx → CoreCtx) : (getCore (modCtx e.key e.ghost q s) e.key).chainBuf = [] := by
    simp [modCtx, ← hcore, hbuf]
  rw [exec_mc_passes hf h, if_neg (by simp [hhead]), modCtx_modCtx, chainMatch_none _ (by simp [hbuf']), settle_idle,
    modCtx_congr (ctx_of_issuing h)]
  rw [ctx_modCtx, ctx_of_issuing h]
  exact (stepPc_waitFor e.ctx).trans (waitFor_of_issuing h)

end

/-! ## The arrival of a stream (R143, R146) -/

theorem envAt_core {s : State} {slot row col : Nat} {e : Env} (h : envAt s slot row col = some e) :
    e.core = getCore s e.key ∧ e.ctx = ctxOf (getCore s e.key) e.ghost := by
  unfold envAt at h
  split at h
  · obtain ⟨-, -, -, hcore, hctx, -⟩ := envOf_core h
    exact ⟨hcore, hctx⟩
  · cases h

/-- The sender's `mc` is complete once its stream is taken. -/
theorem chainTaken_idle {s : State} {st : ChainStream} {e : Env} (h : envAt s st.slot st.row st.col = some e)
    (hwait : e.ctx.waitFor = none) :
    chainTaken st s = modCtx e.key e.ghost (fun q => { q with mcOut := q.mcOut.drop 1 }) s := by
  unfold chainTaken
  rw [h]
  refine settle_idle ?_
  rw [ctx_modCtx, ← (envAt_core h).2]
  exact hwait

/-- The first stream of its sender in transit comes next. -/
theorem chainNext_first {s : State} {ix : Nat} {st : ChainStream}
    (h : ∀ q ∈ s.streams.take ix, q.slot ≠ st.slot ∨ q.row ≠ st.row ∨ q.col ≠ st.col) : chainNext s ix st = true := by
  simp only [chainNext, Bool.not_eq_true', List.any_eq_false, Bool.and_eq_true, beq_iff_eq]
  rintro q hq ⟨⟨hslot, hrow⟩, hcol⟩
  rcases h q hq with hne | hne | hne
  · exact hne hslot
  · exact hne hrow
  · exact hne hcol

section

variable {s : State} {ix : Nat} {st : ChainStream} {e : Env}

/-- The state once stream `ix` has left those in transit and its sender's `mc` is complete. -/
def streamTaken (ix : Nat) (st : ChainStream) (s : State) : State := chainTaken st { s with streams := s.streams.eraseIdx ix }

/-- Stream `ix` comes next to the unit below its sender, which the sender's completion leaves as it was and where no advance
is pending. -/
structure Arrives (s : State) (ix : Nat) (st : ChainStream) (e : Env) : Prop where
  stream : s.streams[ix]? = some st
  toCore : st.toLink = false
  next : chainNext s ix st = true
  unit : envAt s st.slot (st.row + 1) st.col = some e
  core : getCore (streamTaken ix st s) e.key = e.core
  idle : e.ctx.waitFor = none

theorem Arrives.ctx (h : Arrives s ix st e) : ctxOf e.core e.ghost = e.ctx := by
  obtain ⟨hcore, hctx⟩ := envAt_core h.unit
  rw [hcore, hctx]

theorem exec_chainStreamArrival_enters (h : Arrives s ix st e) (hroom : chainRoom e st = true) :
    exec (.chainStreamArrival ix) s = .next (chainMatch (e.ctx.chains.length + 1) e
      (modCore e.key (fun core => { core with chainBuf := core.chainBuf ++ [st] }) (streamTaken ix st s))) := by
  simp [exec_chainStreamArrival, execChainStreamArrival, h.stream, h.toCore, h.next, h.unit, hroom, streamTaken]

/-- The registers are those of the core, whatever its buffer holds. -/
theorem ctxOf_chainBuf (core : Core) (g : Bool) (l : List ChainStream) : ctxOf { core with chainBuf := l } g = ctxOf core g := rfl

/-- A stream that no `mc` waits for stays in the buffer. -/
theorem exec_chainStreamArrival_kept (h : Arrives s ix st e) (hchains : e.ctx.chains = [])
    (hroom : sumNat ((e.core.chainBuf.filter (·.slot == st.slot)).map (·.rows.length)) + st.rows.length ≤ 4) :
    exec (.chainStreamArrival ix) s =
      .next (modCore e.key (fun core => { core with chainBuf := core.chainBuf ++ [st] }) (streamTaken ix st s)) := by
  rw [exec_chainStreamArrival_enters h (by simp [chainRoom, hroom]),
    chainMatch_idle _ (by simp [h.core, ctxOf_chainBuf, h.ctx, hchains]) (by simp [h.core, ctxOf_chainBuf, h.ctx, h.idle])]

/-- A stream that enters an empty buffer and is taken at once leaves it empty. -/
theorem streamMet_arrived {m : McItem} {v : State} (hbuf : (getCore v e.key).chainBuf = [])
    (hctx : ctxOf (getCore v e.key) e.ghost = e.ctx) (hchains : e.ctx.chains = [m]) :
    streamMet e m st (modCore e.key (fun core => { core with chainBuf := core.chainBuf ++ [st] }) v) =
      modCtx e.key e.ghost (fun _ => { e.ctx with chains := [] }) v := by
  simp only [streamMet, modCtx, modCore_modCore]
  refine modCore_congr ?_
  simp only [ctxOf_chainBuf, hctx, hchains, hbuf, List.nil_append, List.erase_cons_head]
  rw [← hbuf]

/-- The `mc` that waits for a stream takes it and sends its sums on (R142). -/
theorem exec_chainStreamArrival_sums {m : McItem} (h : Arrives s ix st e) (hbuf : e.core.chainBuf = [])
    (hchains : e.ctx.chains = [m]) (hm : awaits e m st = true) (hpos : 0 < m.f.lanes) (hrows : st.rows = m.rows)
    (hlanes : st.lanes = m.f.lanes) :
    exec (.chainStreamArrival ix) s = .next (sendStream (mcStream e m st.pairs { e.ctx with chains := [] })
      (modCtx e.key e.ghost (fun _ => mcSent m { e.ctx with chains := [] }) (streamTaken ix st s))) := by
  have hbeat : st.beat = m.beat := by
    simp only [awaits, Bool.and_eq_true, beq_iff_eq] at hm
    exact hm.2
  rw [exec_chainStreamArrival_enters h (by simp [chainRoom, hchains, hbeat]), hchains, List.length_singleton,
    chainMatch_one 1 (by simp [h.core, ctxOf_chainBuf, h.ctx, hchains]) (by simp [h.core, hbuf]) hm hpos hrows hlanes,
    streamMet_arrived (by rw [h.core, hbuf]) (by rw [h.core, h.ctx]) hchains, chainSend_eq, modCtx_modCtx, ctx_modCtx,
    chainMatch_idle 0 (by rw [getCore_sendStream, ctx_modCtx, mcSent_chains])
      (by rw [getCore_sendStream, ctx_modCtx, mcSent_waitFor, h.idle])]

end

/-! ## The obligation -/

/-- Settles O26: an `mc` of a head and of a core within a chain, the sender of a stream, and the two ways in which a stream
arrives. -/
theorem chainsAddDownTheColumn : Obligations.ChainsAddDownTheColumn := by
  intro s c e
  refine ⟨?_, fun st g hg hwait => chainTaken_idle hg hwait, ?_⟩
  · intro k f hbank hlanes hlink hbelow rows m h
    have hf : McPasses e f := ⟨hbank, hlanes, hlink, hbelow⟩
    refine ⟨fun hhead hno => ?_, fun hhead hpos => ?_, fun hhead hbuf => exec_mc_inner hf hhead hbuf h⟩
    · refine ⟨mcStream e (mcIssued e f) [] (stepPc e.ctx), (exec_mc_head hf hhead h).trans ?_, chainPairs_noLanes hno ..,
        if_pos hno⟩
      rw [mcSent_stepPc (m := mcIssued e f) hno]
      rfl
    · refine ⟨_, _, exec_mc_head hf hhead h, ?_, rfl, rfl, if_neg (Nat.ne_of_gt hpos), rfl, rfl, rfl, fun j hj => ?_⟩
      · rw [mcSent_lanes (m := mcIssued e f) hpos, stepPc_mcOut]
        rfl
      · rw [mcStream, chainPairs_stepPc]
        exact chainPairs_getD [] hj
  · intro ix st v hst hlink hfirst he hcore hwait
    have h : Arrives s ix st e := ⟨hst, hlink, chainNext_first hfirst, he, hcore, hwait⟩
    refine ⟨fun hchains hroom => exec_chainStreamArrival_kept h hchains hroom, ?_⟩
    intro m hbuf hchains hslot hbar hrun hrow hcol hbeat hpos hrows hlanes
    have hm : awaits e m st = true := by simp [awaits, hslot, hbar, hrun, hrow, hcol, hbeat]
    exact ⟨_, _, exec_chainStreamArrival_sums h hbuf hchains hm hpos hrows hlanes, mcSent_lanes hpos _, rfl, rfl,
      fun j hj => chainPairs_getD st.pairs hj⟩

end Machine

end Sys2Proof
end

section
/-! Reductions (05 R149 to R155, R605) and outcome messages (08 R604): what a contribution that is not the last leaves of
its reduction, what the link interface makes of a chain stream and of a message on a route, and which outcomes a run has
after a message. -/

namespace Sys2Proof.Machine

/-! ## Additions (R150, R151, R154, R155) -/

@[simp] theorem getRed_setRed (i : Nat) (x : RedState) (r : Run) : getRed (setRed i x r) i = x := Table.getD_put_self ..

/-- With nothing held nothing is added. -/
theorem addOrdered_noneHeld (n : Nat) (seq : List (Nat × Nat)) {x : RedState} (h : x.held = []) :
    addOrdered n seq x = x := by
  cases n with
  | zero => rfl
  | succ n =>
    unfold addOrdered
    split
    · rfl
    · simp [h]

/-- A reduction after a contribution to it was added in its turn. -/
def RedState.added (c : Contrib) (x : RedState) : RedState :=
  { x with
    held := [], taken := x.taken ++ [(c.entry, c.rank)]
    acc := (List.range c.pairs.length).map fun j => pairAdd (x.acc.getD j (0, 0)) (c.pairs.getD j (0, 0)) }

/-- The contribution whose turn has come is added. -/
theorem addOrdered_turn (n : Nat) {seq : List (Nat × Nat)} {x : RedState} {c : Contrib}
    (h : seq[x.taken.length]? = some (c.entry, c.rank)) :
    addOrdered (n + 1) seq { x with held := [c] } = x.added c := by
  simp only [addOrdered, h, List.find?_cons, beq_self_eq_true, Bool.and_self, List.erase_cons_head]
  exact addOrdered_noneHeld n seq rfl

/-- A contribution before its turn is kept. -/
theorem addOrdered_early (n : Nat) {seq : List (Nat × Nat)} {x : RedState} {c : Contrib}
    (h : seq[x.taken.length]? ≠ some (c.entry, c.rank)) :
    addOrdered (n + 1) seq { x with held := [c] } = { x with held := [c] } := by
  cases ht : seq[x.taken.length]? with
  | none => simp only [addOrdered, ht]
  | some t =>
    have hne : (c.entry == t.1 && c.rank == t.2) = false := by
      refine Bool.eq_false_iff.mpr fun heq => h ?_
      obtain ⟨hentry, hrank⟩ : c.entry = t.1 ∧ c.rank = t.2 := by
        simpa only [Bool.and_eq_true, beq_iff_eq] using heq
      rw [ht, hentry, hrank]
    simp only [addOrdered, ht, List.find?_cons, hne, List.find?_nil]

theorem added_acc (c : Contrib) (x : RedState) {n : Nat} (h : n < c.pairs.length) :
    (x.added c).acc.getD n (0, 0) = pairAdd (x.acc.getD n (0, 0)) (c.pairs.getD n (0, 0)) := by
  simp [RedState.added, List.getD_eq_getElem?_getD, List.getElem?_range h]

/-- A leaf's element is converted and added as an integer. -/
theorem addExact_ints {d : Reduction} {c : Contrib} (x : RedState) (r : Run) (hleaf : c.leaf = true)
    (hlen : c.pairs.length = d.elements) {n : Nat} (h : n < d.elements) :
    (addExact d c x r).1.ints.getD n 0 =
      (satInt (x.ints.getD n 0 + (leafInt (qOf r d.tensor) (c.pairs.getD n (0, 0))).1)).1 := by
  have hn : n < c.pairs.length := hlen ▸ h
  simp [addExact, hleaf, List.getD_eq_getElem?_getD, List.getElem?_range h, hn]

/-! ## Contributions (R150, R155) -/

/-- A run whose reduction `i`, which stood at `x`, got a contribution. -/
def takeContrib (seq : List (Nat × Nat)) (i : Nat) (d : Reduction) (c : Contrib) (x : RedState) (r : Run) : Run :=
  if d.mode = 2 then setRed i (addExact d c x r).1 (addExact d c x r).2
  else setRed i (addOrdered (seq.length + 1) seq { x with held := x.held ++ [c] }) r

section

variable {seq : List (Nat × Nat)} {d : Reduction} {c : Contrib} {x : RedState}

theorem takeContrib_exact (i : Nat) (hmode : d.mode = 2) :
    takeContrib seq i d c x = fun r => setRed i (addExact d c x r).1 (addExact d c x r).2 :=
  funext fun _ => if_pos hmode

theorem takeContrib_ordered (i : Nat) (hmode : d.mode ≠ 2) :
    takeContrib seq i d c x = setRed i (addOrdered (seq.length + 1) seq { x with held := x.held ++ [c] }) :=
  funext fun _ => if_neg hmode

theorem getRed_takeContrib_exact (i : Nat) (r : Run) (hmode : d.mode = 2) :
    getRed (takeContrib seq i d c x r) i = (addExact d c x r).1 := by
  rw [takeContrib_exact i hmode, getRed_setRed]

theorem getRed_takeContrib_turn (i : Nat) (r : Run) (hmode : d.mode ≠ 2) (hheld : x.held = [])
    (h : seq[x.taken.length]? = some (c.entry, c.rank)) : getRed (takeContrib seq i d c x r) i = x.added c := by
  rw [takeContrib_ordered i hmode, getRed_setRed, hheld, List.nil_append, addOrdered_turn _ h]

theorem getRed_takeContrib_early (i : Nat) (r : Run) (hmode : d.mode ≠ 2) (hheld : x.held = [])
    (h : seq[x.taken.length]? ≠ some (c.entry, c.rank)) :
    getRed (takeContrib seq i d c x r) i = { x with held := [c] } := by
  rw [takeContrib_ordered i hmode, getRed_setRed, hheld, List.nil_append, addOrdered_early _ h]

/-- A contribution delivers nothing and adds at most itself to what is taken. -/
theorem getRed_takeContrib_kept (seq : List (Nat × Nat)) (i : Nat) (d : Reduction) (c : Contrib) (r : Run)
    (hheld : x.held = []) :
    let y := getRed (takeContrib seq i d c x r) i
    y.delivered = x.delivered ∧ y.beat = x.beat ∧ y.taken.length ≤ x.taken.length + 1 := by
  intro y
  by_cases hmode : d.mode = 2
  · have hy : y = (addExact d c x r).1 := getRed_takeContrib_exact i r hmode
    rw [hy]
    exact ⟨rfl, rfl, by simp [addExact]⟩
  · by_cases hturn : seq[x.taken.length]? = some (c.entry, c.rank)
    · have hy : y = x.added c := getRed_takeContrib_turn i r hmode hheld hturn
      rw [hy]
      exact ⟨rfl, rfl, by simp [RedState.added]⟩
    · have hy : y = { x with held := [c] } := getRed_takeContrib_early i r hmode hheld hturn
      rw [hy]
      exact ⟨rfl, rfl, Nat.le_succ _⟩

end

/-- A reduction that waits for more contributions delivers nothing. -/
theorem finishRed_waits {s : State} {slot i : Nat} {sc : Score} {d : Reduction} {seq : List (Nat × Nat)} {run : Run}
    (hrun : (getJob s slot).bind Job.now = some run) (helements : 0 < d.elements)
    (hmore : (getRed run i).taken.length ≠ seq.length) : finishRed slot i sc d seq s = s := by
  simp [finishRed, hrun, Nat.ne_of_gt helements, hmore]

/-- A reduction that knows the beat of a contribution. -/
def RedState.met (c : Contrib) (x : RedState) : RedState := { x with beat := max x.beat c.beat }

section

variable {s : State} {slot i : Nat} {d : Reduction} {j : Job} {run : Run} {c : Contrib} (sc : Score)
  (hj : getJob s slot = some j) (hrun : j.now = some run) (hopen : (getRed run i).delivered = false)
  (hfresh : (c.entry, c.rank) ∉ (getRed run i).taken) (hheld : (getRed run i).held = [])

include hj hrun hopen hfresh hheld

/-- A contribution that its reduction has not got is taken. -/
theorem contribute_fresh :
    contribute slot i sc d c s = finishRed slot i sc d (redSequence sc j.rank d)
      (modNow slot (takeContrib (redSequence sc j.rank d) i d c ((getRed run i).met c)) s) := by
  simp only [contribute, hj, hrun]
  refine (if_neg (by simp [hopen, hfresh, hheld])).trans ?_
  by_cases hmode : d.mode = 2
  · rw [takeContrib_exact i hmode]
    exact if_pos hmode
  · rw [takeContrib_ordered i hmode]
    exact if_neg hmode

/-- After a contribution that is not the last one its reduction stands where the contribution left it. -/
theorem now_contribute (helements : 0 < d.elements)
    (hmore : (getRed run i).taken.length + 1 < (redSequence sc j.rank d).length) :
    (getJob (contribute slot i sc d c s) slot).bind Job.now =
      some (takeContrib (redSequence sc j.rank d) i d c ((getRed run i).met c) run) := by
  have hnow (f : Run → Run) : (getJob (modNow slot f s) slot).bind Job.now = some (f run) := by
    rw [now_modNow, hj, Option.bind_some, hrun, Option.map_some]
  obtain ⟨-, -, hlen⟩ := getRed_takeContrib_kept (x := (getRed run i).met c) (redSequence sc j.rank d) i d c run hheld
  rw [contribute_fresh sc hj hrun hopen hfresh hheld,
    finishRed_waits (hnow _) helements (Nat.ne_of_lt (Nat.lt_of_le_of_lt hlen hmore)), hnow]

end

/-! ## What the link interface takes (R149, R603, R605) -/

/-- A run found by its bar and its number has them. -/
theorem runOf_some {j : Job} {bar run : Nat} {r : Run} (h : j.runOf bar run = some r) : r.bar = bar ∧ r.run = run := by
  have hfilter {a : Option Run} (ha : (a.filter fun q => q.bar = bar && q.run = run) = some r) :
      r.bar = bar ∧ r.run = run := by
    simpa using (Option.filter_eq_some_iff.mp ha).2
  unfold Job.runOf at h
  split at h
  · split at h
    · rename_i hr
      cases h
      simpa using hr
    · exact hfilter h
  · exact hfilter h

section

variable {s : State} {ix : Nat} {st : ChainStream} {j : Job} {sc : Score} {run : Run}

/-- Stream `ix` comes next to the link interface of its job, whose cores are in its run. -/
structure LeavesChain (s : State) (ix : Nat) (st : ChainStream) (j : Job) (sc : Score) (run : Run) : Prop where
  stream : s.streams[ix]? = some st
  toLink : st.toLink = true
  next : chainNext s ix st = true
  job : getJob s st.slot = some j
  score : (getSlot s st.slot).score = some sc
  now : j.now = some run
  found : j.runOf st.bar st.run = some run

/-- A stream that no source names faults the partition (R149). -/
theorem exec_chainIntake_unnamed (h : LeavesChain s ix st j sc run) (hno : chainTaker sc st.col st.beat = none) :
    exec (.chainIntake ix) s = .next (slotFault st.slot cBounds (streamTaken ix st s)) := by
  obtain ⟨hbar, hnum⟩ := runOf_some h.found
  simp [exec_chainIntake, execChainIntake, h.stream, h.toLink, h.next, h.job, h.score, h.now, h.found, hbar, hnum, hno,
    streamTaken]

/-- A stream of the reduction's size enters it as a leaf (R605). -/
theorem exec_chainIntake_enters {i k : Nat} {d : Reduction} (h : LeavesChain s ix st j sc run)
    (htaker : chainTaker sc st.col st.beat = some (i, k)) (hd : sc.reductions[i]? = some d)
    (hsize : st.rows.length * st.lanes = d.elements)
    (hroom : mayTake s st.slot sc j run i d (k, j.rank) (8 * d.elements) = true) :
    exec (.chainIntake ix) s =
      .next (contribute st.slot i sc d ⟨k, j.rank, st.beat, st.pairs, [], 0, true⟩ (streamTaken ix st s)) := by
  obtain ⟨hbar, hnum⟩ := runOf_some h.found
  simp [exec_chainIntake, execChainIntake, h.stream, h.toLink, h.next, h.job, h.score, h.now, h.found, hbar, hnum, htaker, hd,
    hsize, hroom, streamTaken]

end

section

variable {s : State} {ix route k : Nat} {m : Msg} {j : Job} {sc : Score} {rt : Route} {run : Run} {d : Reduction}

/-- Message `ix` is the next of its rank on a route into reduction `d`, as source `k`, of the run that the cores are in. -/
structure NextOnRoute (s : State) (ix : Nat) (m : Msg) (route : Nat) (j : Job) (sc : Score) (rt : Route) (run : Run)
    (d : Reduction) (k : Nat) : Prop where
  msg : s.net[ix]? = some m
  onRoute : m.route = some route
  job : getJob s m.slot = some j
  score : (getSlot s m.slot).score = some sc
  descriptor : sc.routes[route]? = some rt
  found : j.runOf m.bar m.run = some run
  now : j.now = some run
  kind : rt.kind = 2
  dest : routeDest sc rt m.srcRank = some j.rank
  turn : routeTurn s sc j run route m = true
  beats : lowerBeats s sc j.rank m route = true
  reduction : sc.reductions[rt.target]? = some d
  entry : routeEntry d route = some k
  room : mayTake s m.slot sc j run rt.target d (k, m.srcRank) m.data.length = true

/-- The message has left the fabric and its credits are back. -/
def msgTaken (ix : Nat) (m : Msg) (s : State) : State := returnUnits false m.held { s with net := s.net.eraseIdx ix }

/-- Credits that go back change the ports alone. -/
theorem returnUnits_only (coll : Bool) (l : List (Nat × Nat)) (s : State) : LinksOnly s (returnUnits coll l s) := by
  unfold returnUnits
  refine LinksOnly.foldl _ (fun s h => ?_) l s
  rfl

theorem msgTaken_only (ix : Nat) (m : Msg) (s : State) : LinksOnly { s with net := s.net.eraseIdx ix } (msgTaken ix m s) :=
  returnUnits_only ..

@[simp] theorem getJob_msgTaken (ix : Nat) (m : Msg) (s : State) (slot : Nat) :
    getJob (msgTaken ix m s) slot = getJob s slot := by
  simp [msgTaken, getJob, getSlot, (beside_returnUnits ..).slots]

/-- The bytes of a rank's contribution with those of its next message. -/
def bytesWith (x : RedState) (k : Nat) (m : Msg) : List Byte := x.partials.getD (k * 1024 + m.srcRank) [] ++ m.data

/-- A reduction that keeps these bytes of a rank's contribution. -/
def RedState.keeps (x : RedState) (k : Nat) (m : Msg) : RedState :=
  { x with partials := x.partials.put (k * 1024 + m.srcRank) (bytesWith x k m), beat := max x.beat m.beat }

/-- Bytes of a whole contribution, in whole lines. -/
def wholeBytes (sc : Score) (d : Reduction) (route : Nat) : Nat := ceilDiv (contribBytes sc d route) 64 * 64

/-- The next message of a route is refused where it does not fit its rank's contribution, and joins it otherwise (R605). -/
theorem exec_routeContribution_next (h : NextOnRoute s ix m route j sc rt run d k) :
    let x := getRed run rt.target
    let bs := bytesWith x k m
    let u := modNow m.slot (setRed rt.target (x.keeps k m)) (msgTaken ix m s)
    exec (.routeContribution ix) s =
      if x.delivered || wholeBytes sc d route < bs.length || (bs.length < wholeBytes sc d route && m.lines != 256) then
        .next (slotFault m.slot cBounds (msgTaken ix m s))
      else if bs.length < wholeBytes sc d route then .next u
      else .next (contribute m.slot rt.target sc d (routeContrib sc d run route k m.srcRank m.beat bs) u) := by
  obtain ⟨hbar, hnum⟩ := runOf_some h.found
  simp only [exec_routeContribution, execRouteContribution, h.msg, h.onRoute, h.job, h.score, h.descriptor, h.found]
  refine (if_neg ?_).trans ?_
  · simp [h.kind, h.dest, h.turn, h.beats, h.now, hbar, hnum]
  · simp only [h.reduction, h.entry]
    exact if_neg (by simp [h.room])

/-- A part of a contribution waits for the rest. -/
theorem exec_routeContribution_part (h : NextOnRoute s ix m route j sc rt run d k)
    (hopen : (getRed run rt.target).delivered = false)
    (hpart : (bytesWith (getRed run rt.target) k m).length < wholeBytes sc d route) (hlines : m.lines = 256) :
    exec (.routeContribution ix) s =
      .next (modNow m.slot (setRed rt.target ((getRed run rt.target).keeps k m)) (msgTaken ix m s)) :=
  (exec_routeContribution_next h).trans
    ((if_neg (by simp [hopen, hlines, Nat.le_of_lt hpart])).trans (if_pos hpart))

/-- A whole contribution enters its reduction. -/
theorem exec_routeContribution_whole (h : NextOnRoute s ix m route j sc rt run d k)
    (hopen : (getRed run rt.target).delivered = false)
    (hwhole : (bytesWith (getRed run rt.target) k m).length = wholeBytes sc d route) :
    exec (.routeContribution ix) s = .next (contribute m.slot rt.target sc d
      (routeContrib sc d run route k m.srcRank m.beat (bytesWith (getRed run rt.target) k m))
      (modNow m.slot (setRed rt.target ((getRed run rt.target).keeps k m)) (msgTaken ix m s))) :=
  (exec_routeContribution_next h).trans ((if_neg (by simp [hopen, hwhole])).trans (if_neg (by simp [hwhole])))

end

/-! ## Outcomes (08 R604) -/

/-- A run with the outcome of a shard, and the digest that goes with it. -/
def Run.reported (shard outcome : Nat) (digest : List Byte) (r : Run) : Run :=
  { r with outcomes := r.outcomes.put shard outcome, digests := r.digests.put shard digest }

/-- A record that R604 admits: a shard of this rank, updated by its cores and without an outcome, gets one that is defined. -/
def Reportable (sc : Score) (rank : Nat) (run : Run) (rec_ : Nat × Nat × Bool) : Prop :=
  rec_.2.1 ≤ 3 ∧ rec_.2.2 = true ∧ engineShard sc rec_.1 = false ∧ run.outcomes.get rec_.1 = none ∧
    ∃ e, sc.shards[rec_.1]? = some e ∧ e.owner = rank

section

variable {s : State} {slot : Nat} {sc : Score} {j : Job} {run : Run}

theorem takeOutcome_reportable {rec_ : Nat × Nat × Bool} (hrun : (getJob s slot).bind Job.now = some run)
    (h : Reportable sc j.rank run rec_) :
    ∃ digest, takeOutcome slot sc j rec_ s = some (modNow slot (Run.reported rec_.1 rec_.2.1 digest) s) := by
  obtain ⟨hdefined, hclear, hcores, hnone, e, he, howner⟩ := h
  refine ⟨coreShardDigest s slot j rec_.1 1, ?_⟩
  simp only [takeOutcome, he, hrun]
  exact if_neg (by simp [hdefined, hclear, hcores, hnone, howner])

/-- Records taken one after another; a breach of R604 by one of them is none. -/
def takeOutcomes (slot : Nat) (sc : Score) (j : Job) (recs : List (Nat × Nat × Bool)) (s : State) : Option State :=
  recs.foldl (fun (a : Option State) r => a.bind (takeOutcome slot sc j r)) (some s)

/-- Records that R604 admits are all taken: each shard named has its outcome, every other shard stays. -/
theorem takeOutcomes_reportable (recs : List (Nat × Nat × Bool)) (hrun : (getJob s slot).bind Job.now = some run)
    (hnodup : (recs.map (·.1)).Nodup) (h : ∀ r ∈ recs, Reportable sc j.rank run r) :
    ∃ t r, takeOutcomes slot sc j recs s = some t ∧
      (getJob t slot).bind Job.now = some r ∧ (∀ x ∈ recs, r.outcomes.get x.1 = some x.2.1) ∧
      (∀ sh, sh ∉ recs.map (·.1) → r.outcomes.get sh = run.outcomes.get sh) ∧ LinksOnly s t := by
  induction recs generalizing s run with
  | nil => exact ⟨s, run, rfl, hrun, by simp, fun _ _ => rfl, rfl⟩
  | cons a recs ih =>
    obtain ⟨hfirst, hrest⟩ := List.forall_mem_cons.mp h
    obtain ⟨hnew, hnodup⟩ := List.nodup_cons.mp hnodup
    obtain ⟨digest, ha⟩ := takeOutcome_reportable hrun hfirst
    have hother {sh : Nat} (hsh : sh ≠ a.1) : (run.reported a.1 a.2.1 digest).outcomes.get sh = run.outcomes.get sh :=
      Table.get_put_other _ _ _ _ hsh
    have hnow : (getJob (modNow slot (Run.reported a.1 a.2.1 digest) s) slot).bind Job.now =
        some (run.reported a.1 a.2.1 digest) := by
      rw [now_modNow, hrun, Option.map_some]
    have hready : ∀ r ∈ recs, Reportable sc j.rank (run.reported a.1 a.2.1 digest) r := by
      intro r hr
      obtain ⟨hdefined, hclear, hcores, hnone, howner⟩ := hrest r hr
      have hne : r.1 ≠ a.1 := fun heq => hnew (List.mem_map.mpr ⟨r, hr, heq⟩)
      exact ⟨hdefined, hclear, hcores, (hother hne).trans hnone, howner⟩
    obtain ⟨t, r, hfold, hr, hin, hout, honly⟩ := ih hnow hnodup hready
    refine ⟨t, r, ?_, hr, ?_, ?_, LinksOnly.trans (t := modNow slot (Run.reported a.1 a.2.1 digest) s) rfl honly⟩
    · rw [takeOutcomes, List.foldl_cons, Option.bind_some, ha]
      exact hfold
    · exact List.forall_mem_cons.mpr ⟨(hout a.1 hnew).trans (Table.get_put_self ..), hin⟩
    · intro sh hsh
      obtain ⟨hne, hsh⟩ : sh ≠ a.1 ∧ sh ∉ recs.map (·.1) := by simpa using hsh
      exact (hout sh hsh).trans (hother hne)

end

/-- What travels, the memory and the cores are none of what the links change. -/
theorem LinksOnly.fields {s t : State} (h : LinksOnly s t) : t.net = s.net ∧ t.mem = s.mem ∧ t.cores = s.cores := by
  unfold LinksOnly at h
  rw [← h]
  exact ⟨rfl, rfl, rfl⟩

/-- A message on a route of kind 4 whose records can all be taken leaves them taken. -/
theorem exec_outcomeReport_taken {s t : State} {ix route : Nat} {m : Msg} {j : Job} {sc : Score} {rt : Route} {run : Run}
    (hm : s.net[ix]? = some m) (hroute : m.route = some route) (hj : getJob s m.slot = some j)
    (hsc : (getSlot s m.slot).score = some sc) (hrt : sc.routes[route]? = some rt) (hkind : rt.kind = 4)
    (hrun : j.now = some run) (hbar : run.bar = m.bar) (hnum : run.run = m.run)
    (ht : takeOutcomes m.slot sc j (outcomeRecords m) (msgTaken ix m s) = some t) :
    exec (.outcomeReport ix) s = .next t := by
  simp only [exec_outcomeReport, execOutcomeReport, hm, hroute, hj, hsc, hrt]
  refine (if_neg (by simp [hkind, hrun, hbar, hnum])).trans ?_
  unfold takeOutcomes msgTaken at ht
  simp only [ht]

/-! ## The obligation -/

/-- Settles O33: the contributions by `now_contribute` and what a mode makes of one, the three ways into a reduction, and the
records of an outcome message in their order. -/
theorem reductionsTakeTheirContributions : Obligations.ReductionsTakeTheirContributions := by
  refine ⟨?_, ?_, ?_⟩
  · intro s slot i sc d j run c hj hrun x seq hopen hfresh helements hmore hheld
    have hmet : (x.met c).held = [] := hheld
    obtain ⟨hdelivered, hbeat, -⟩ := getRed_takeContrib_kept seq i d c run hmet
    refine ⟨_, _, now_contribute sc hj hrun hopen hfresh hheld helements hmore, rfl, hdelivered.trans hopen, hbeat,
      ?_, ?_, ?_⟩
    · intro hmode hturn
      rw [getRed_takeContrib_turn i run hmode hmet hturn]
      exact ⟨rfl, rfl, fun n hn => added_acc c (x.met c) hn⟩
    · intro hmode hturn
      rw [getRed_takeContrib_early i run hmode hmet hturn]
      exact ⟨rfl, rfl, rfl⟩
    · intro hmode hleaf hlen
      rw [getRed_takeContrib_exact i run hmode]
      exact ⟨rfl, fun n hn => addExact_ints (x.met c) run hleaf hlen hn⟩
  · intro s ix
    refine ⟨?_, ?_⟩
    · intro st j sc run hst hlink hj hfirst hsc hnow hrun v
      have h : LeavesChain s ix st j sc run := ⟨hst, hlink, chainNext_first hfirst, hj, hsc, hnow, hrun⟩
      exact ⟨fun hno => exec_chainIntake_unnamed h hno,
        fun i k d htaker hd hsize hroom => exec_chainIntake_enters h htaker hd hsize hroom⟩
    · intro m route j sc rt run d k hm hroute hj hsc hrt hfound hnow _ _ hkind hdest hturn hbeats hd hentry hroom
        s' x bs want u hopen
      have h : NextOnRoute s ix m route j sc rt run d k :=
        ⟨hm, hroute, hj, hsc, hrt, hfound, hnow, hkind, hdest, hturn, hbeats, hd, hentry, hroom⟩
      exact ⟨fun hpart hlines => exec_routeContribution_part h hopen hpart hlines,
        fun hwhole => exec_routeContribution_whole h hopen hwhole⟩
  · intro s ix m route j sc rt run hm hroute hj hsc hrt hkind hrun hbar hnum hnodup hrecs
    have hnow : (getJob (msgTaken ix m s) m.slot).bind Job.now = some run := by
      rw [getJob_msgTaken, hj, Option.bind_some, hrun]
    obtain ⟨t, r, ht, hr, hin, hout, honly⟩ := takeOutcomes_reportable _ hnow hnodup hrecs
    exact ⟨t, r, exec_outcomeReport_taken hm hroute hj hsc hrt hkind hrun hbar hnum ht, hr, hin, hout,
      ((msgTaken_only ix m s).trans honly).fields⟩

end Sys2Proof.Machine
end

section
/-! The vector engine (06 R165 to R193): what a slot reads after words were put into it, how long the bytes of a stored
vector are and where they stand, and the registers with which `vld`, `vst`, `roll`, `vperm` and `vflag` retire. -/

namespace Sys2Proof.Machine

open Sys2Proof.Safety

/-! ## Slots (R165, R167) -/

section

variable (c : CoreCtx)

@[simp] theorem slotWord_raise (f i j : Nat) : slotWord (c.raise f) i j = slotWord c i j := rfl

/-- Of a slot the words that the list gives are replaced; every other word of every slot reads as before (R167). -/
theorem slotWord_slotWrite (slot : Nat) (ws : List (Option Word)) (i j : Nat) :
    slotWord (slotWrite c slot ws) i j =
      if i = slot then (ws.getD j none).getD (slotWord c i j) else slotWord c i j := by
  unfold slotWord slotWrite
  by_cases hi : i = slot
  · subst hi
    rw [if_pos rfl, Table.getD_put_self]
    by_cases hj : j < max (c.slots.getD i []).length ws.length
    · simp only [List.getD_eq_getElem?_getD, List.getElem?_map, List.getElem?_range hj, Option.map_some,
        Option.getD_some]
      cases ws[j]?.getD none <;> rfl
    · obtain ⟨hold, hws⟩ : (c.slots.getD i []).length ≤ j ∧ ws.length ≤ j := by omega
      have hnew : (List.range (max (c.slots.getD i []).length ws.length))[j]? = none :=
        List.getElem?_eq_none (by rw [List.length_range]; omega)
      simp only [List.getD_eq_getElem?_getD, List.getElem?_map, hnew, List.getElem?_eq_none hold,
        List.getElem?_eq_none hws, Option.map_none, Option.getD_none]
  · rw [if_neg hi, Table.getD_put_other _ _ _ _ _ hi]

end

/-! ## `vld` (R170) -/

section

variable {s : State} {c : CoreRef} {k : Ctl} {e : Env} {f : VmF}

theorem exec_vld_noop (hvl : f.vl = 0) (h : Issuing s c k (.vld f) e) :
    exec (.vld c k f false) s = .next (retire e k none e.ctx s) := by
  rw [exec_vld, execVld, withEcc_false]
  exact issue_reg (f := id) h (if_pos hvl)

/-- The elements that a `vld` reads from a physical line on, with their flags. -/
def vldElems (e : Env) (f : VmF) (line : Nat) : List (Word × Nat) :=
  (List.range f.vl).map (loadElem f.fmt (sramBytes e.core line 0 (vecLines f.fmt f.vl * 64)) f.vl)

/-- The registers with loaded elements in a slot. -/
def vldLoaded (slot : Nat) (els : List (Word × Nat)) (c : CoreCtx) : CoreCtx :=
  (slotWrite c slot (els.map fun x => some x.1)).raise (orAll (els.map (·.2)))

/-- An element stands at its place of the slot; the words beyond the elements stay. -/
theorem slotWord_vldLoaded_self (slot : Nat) (els : List (Word × Nat)) (c : CoreCtx) (j : Nat) :
    slotWord (vldLoaded slot els c) slot j = ((els[j]?).map (·.1)).getD (slotWord c slot j) := by
  rw [vldLoaded, slotWord_raise, slotWord_slotWrite, if_pos rfl, List.getD_eq_getElem?_getD, List.getElem?_map]
  cases els[j]? <;> rfl

theorem slotWord_vldLoaded_other (slot : Nat) (els : List (Word × Nat)) (c : CoreCtx) {i : Nat} (hi : i ≠ slot) (j : Nat) :
    slotWord (vldLoaded slot els c) i j = slotWord c i j := by
  rw [vldLoaded, slotWord_raise, slotWord_slotWrite, if_neg hi]

theorem exec_vld_loads {p : Nat × Nat} (hvl : 0 < f.vl)
    (hp : operandLines e false f.line f.xa 0 (vecLines f.fmt f.vl) = some p)
    (hfree : linesFree e.ctx [(p.2, vecLines f.fmt f.vl)] [] = true) (h : Issuing s c k (.vld f) e) :
    exec (.vld c k f false) s = .next (retire e k none (vldLoaded f.slot (vldElems e f p.2) e.ctx) s) := by
  rw [exec_vld, execVld, withEcc_false]
  refine issue_reg (f := vldLoaded f.slot (vldElems e f p.2)) h ?_
  refine (if_neg (Nat.ne_of_gt hvl)).trans ((if_neg (by simp [fieldLines_operand hp, hfree])).trans ?_)
  simp only [hp]
  rfl

end

/-! ## The bytes of a stored vector (R171, R212) -/

theorem length_overlay (w : Nat) (codes : List Nat) (old : List Byte) :
    (overlay w codes old).length = ceilDiv (codes.length * w) 8 := length_leBytes ..

/-- The first blocks of a vector are its first words. -/
theorem flatten_blocks (ws : List Word) (n : Nat) :
    ((List.range n).map fun b => (ws.drop (b * 32)).take 32).flatten = ws.take (n * 32) := by
  induction n with
  | zero => simp
  | succ n ih => simp [List.range_succ, ih, Nat.succ_mul, List.take_add]

/-- The blocks of a vector are its words in their order. -/
theorem flatten_blocksOf (ws : List Word) : (blocksOf ws).flatten = ws := by
  rw [blocksOf, flatten_blocks, List.take_of_length_le]
  unfold ceilDiv
  omega

theorem length_storeBlock (f : FpFmt) (native : Option Int) (ws : List Word) :
    (storeBlock f native ws).1.length = ws.length := by
  unfold storeBlock
  simp only
  split <;> simp

/-- The blocks' codes are as many as the vector's words. -/
theorem length_blockCodes (f : FpFmt) (native : Option Int) (ws : List Word) :
    (((blocksOf ws).map (storeBlock f native)).flatMap (·.1)).length = ws.length :=
  calc (((blocksOf ws).map (storeBlock f native)).flatMap (·.1)).length
    _ = ((blocksOf ws).map List.length).sum := by
      simp only [List.length_flatMap, List.map_map, Function.comp_def, length_storeBlock]
    _ = (blocksOf ws).flatten.length := List.length_flatten.symm
    _ = ws.length := congrArg List.length (flatten_blocksOf ws)

/-- A store makes one code of each word, and in an MX format one scale byte of each block. -/
theorem length_vstCodes (fmt : Nat) (sc : VstScale) (ws : List Word) :
    (vstCodes fmt sc ws).1.length = ws.length ∧
      (vstCodes fmt sc ws).2.1.length = if fmtIsMx fmt then ceilDiv ws.length 32 else 0 := by
  unfold vstCodes
  split
  case isTrue h0 => simp [h0, fmtIsMx]
  case isFalse =>
    split
    case isTrue h9 => simp [h9, fmtIsMx]
    case isFalse =>
      split
      case isTrue => exact ⟨length_blockCodes .., by simp [blocksOf]⟩
      case isFalse => simp

/-! ## `vst` (R171, R211, R215, R218) -/

section

variable {s : State} {c : CoreRef} {k : Ctl} {e : Env} {f : VmF}

theorem exec_vst_noop (hvl : f.vl = 0) (h : Issuing s c k (.vst f) e) :
    exec (.vst c k f false) s = .next (retire e k none e.ctx s) := by
  rw [exec_vst, execVst, withEcc_false]
  exact issue_reg (f := id) h (if_pos hvl)

/-- The words that a `vst` stores. -/
def vstWords (e : Env) (f : VmF) : List Word := (List.range f.vl).map (slotWord e.ctx f.slot)

theorem length_vstWords (e : Env) (f : VmF) : (vstWords e f).length = f.vl := by simp [vstWords]

/-- What a `vst` makes of its words: codes, scale bytes and flags. -/
def vstOut (e : Env) (f : VmF) (sc : VstScale) : List Nat × List Byte × Nat := vstCodes f.fmt sc (vstWords e f)

/-- What a `vst` writes: its codes over the bytes of its element lines, and its scale bytes in the line behind them. -/
def vstRows (e : Env) (f : VmF) (line : Nat) (sc : VstScale) : List (Nat × List Byte) :=
  [(line, overlay (fmtBits f.fmt) (vstOut e f sc).1 (sramBytes e.core line 0 (vecLines f.fmt f.vl * 64))),
   (line + ceilDiv (f.vl * fmtBits f.fmt) 512, (vstOut e f sc).2.1)]

/-- What a stored vector of a scaled tensor leaves in its run: its part of the bar maximum, and the overflow where it
saturates (R215, R218). -/
def vstCounted (e : Env) (sc : VstScale) (ws : List Word) (flags : Nat) (s : State) : State :=
  match sc.tensor with
  | none => s
  | some i => modNow e.slot (fun r =>
      let r := r.sawMax i (ws.foldl (fun a x => if finite32 x then max a (abs32 x).toNat else a) 0)
      if flags / fSat % 2 == 1 then r.overflowed i else r) s

theorem vstCounted_frame (e : Env) (sc : VstScale) (ws : List Word) (flags : Nat) (s : State) :
    vstCounted e sc ws flags s = { s with slots := (vstCounted e sc ws flags s).slots } := by
  unfold vstCounted
  split <;> rfl

@[simp] theorem getCore_vstCounted (e : Env) (sc : VstScale) (ws : List Word) (flags : Nat) (s : State) (i : Nat) :
    getCore (vstCounted e sc ws flags s) i = getCore s i := by
  rw [vstCounted_frame]
  rfl

theorem vstCounted_unscaled {sc : VstScale} (hsc : sc.tensor = none) (ws : List Word) (flags : Nat) (s : State) :
    vstCounted e sc ws flags s = s := by
  rw [vstCounted, hsc]

/-- The state once a `vst` has written its vector. -/
def vstStored (e : Env) (f : VmF) (p : Nat × Nat) (s : State) : State :=
  let sc := vstScale e f.fmt (tensorAt e p.1)
  vstCounted e sc (vstWords e f) (vstOut e f sc).2.2 (modCore e.key (writeRows (vstRows e f p.2 sc)) s)

theorem exec_vst_stores {p : Nat × Nat} (hvl : 0 < f.vl)
    (hp : operandLines e true f.line f.xa 0 (vecLines f.fmt f.vl) = some p)
    (hfree : linesFree e.ctx [] [(p.2, vecLines f.fmt f.vl)] = true) (hroom : writeRoom e.ctx = true)
    (hbound : ∀ b ∈ tensorAt e p.1, p.1 + vecLines f.fmt f.vl ≤ b.2.2.first + b.2.2.lines)
    (h : Issuing s c k (.vst f) e) :
    exec (.vst c k f false) s = .next (retire e k none
      (e.ctx.raise (vstOut e f (vstScale e f.fmt (tensorAt e p.1))).2.2) (vstStored e f p s)) := by
  rw [exec_vst, execVst, withEcc_false]
  have hctx : ctxOf (getCore (vstStored e f p s) e.key) e.ghost = e.ctx := by
    rw [vstStored, getCore_vstCounted, getCore_modCore, ctxOf_writeRows, ctx_of_issuing h]
  refine issue_regAfter (f := CoreCtx.raise _) h ?_ hctx
  refine (if_neg (Nat.ne_of_gt hvl)).trans ((if_neg (by simp [fieldLines_operand hp, hfree, hroom])).trans ?_)
  simp only [hp]
  refine (if_neg ?_).trans rfl
  cases hb : tensorAt e p.1 with
  | none => exact Bool.false_ne_true
  | some b => simpa using hbound b hb

section

variable {line : Nat} {sc : VstScale} {core : Core}

/-- The codes end before the scale line, the scale bytes with the vector's lines. -/
theorem vst_lengths (hvl : f.vl ≤ 256) :
    ceilDiv ((vstOut e f sc).1.length * fmtBits f.fmt) 8 ≤ ceilDiv (f.vl * fmtBits f.fmt) 512 * 64 ∧
      ceilDiv (f.vl * fmtBits f.fmt) 512 * 64 + (vstOut e f sc).2.1.length ≤ vecLines f.fmt f.vl * 64 := by
  obtain ⟨hcodes, hscales⟩ := length_vstCodes f.fmt sc (vstWords e f)
  rw [length_vstWords] at hcodes hscales
  simp only [vstOut, hcodes, hscales, vecLines, rowLines]
  generalize f.vl * fmtBits f.fmt = bits
  unfold ceilDiv
  split <;> omega

/-- Every byte outside the vector's lines stays (R171). -/
theorem sramKept_vstRows (hvl : f.vl ≤ 256) :
    SramKept core (writeRows (vstRows e f line sc) core) [(line, vecLines f.fmt f.vl)] := by
  intro x hx
  obtain ⟨hcodes, hscales⟩ := vst_lengths (e := e) (sc := sc) hvl
  have hout := hx _ (List.mem_singleton.mpr rfl)
  refine read_writeRows_other fun r hr => ?_
  simp only [vstRows, List.mem_cons, List.not_mem_nil, or_false] at hr hout
  rcases hr with rfl | rfl <;> simp only [length_overlay] <;> omega

/-- The codes stand over the bytes that were there (R171). -/
theorem readN_vstRows_codes (hvl : f.vl ≤ 256) (hwf : Mem.wf core.sram = true) :
    Mem.readN (writeRows (vstRows e f line sc) core).sram (line * 64)
        (ceilDiv ((vstOut e f sc).1.length * fmtBits f.fmt) 8) =
      overlay (fmtBits f.fmt) (vstOut e f sc).1 (sramBytes e.core line 0 (vecLines f.fmt f.vl * 64)) := by
  obtain ⟨hcodes, -⟩ := vst_lengths (e := e) (sc := sc) hvl
  rw [← length_overlay _ _ (sramBytes e.core line 0 (vecLines f.fmt f.vl * 64))]
  refine readN_writeRows (a := []) hwf fun r hr => .inl ?_
  obtain rfl := List.mem_singleton.mp hr
  simp only [length_overlay]
  omega

/-- The scale bytes stand in the line behind the codes (R170). -/
theorem readN_vstRows_scales (hwf : Mem.wf core.sram = true) :
    Mem.readN (writeRows (vstRows e f line sc) core).sram ((line + ceilDiv (f.vl * fmtBits f.fmt) 512) * 64)
      (vstOut e f sc).2.1.length = (vstOut e f sc).2.1 :=
  readN_writeRows (a := [(line, overlay _ _ _)]) (b := []) hwf nofun

end

end

/-! ## `roll` (R178, R183) -/

/-- The registers with one output of a roll in its slot. -/
def rollPut (res : List (List Word)) (live : List Bool) (o : Option (Nat × Bool)) (slot : Nat) (c : CoreCtx) : CoreCtx :=
  match o with
  | none => c
  | some q => (slotWrite c slot (rollOut res live q).1).raise (rollOut res live q).2

section

variable (res : List (List Word)) (live : List Bool) (o : Option (Nat × Bool)) (slot : Nat) (c : CoreCtx)

/-- An output's live words alone are written. -/
theorem slotWord_rollPut (i j : Nat) :
    slotWord (rollPut res live o slot c) i j =
      if i = slot then (o.bind fun o => (rollOut res live o).1.getD j none).getD (slotWord c i j)
      else slotWord c i j := by
  cases o with
  | none => exact (ite_self _).symm
  | some q => exact slotWord_slotWrite ..

theorem rollPut_flags :
    (rollPut res live o slot c).flags =
      c.flags ||| (o.map fun o => BitVec.ofNat 32 (rollOut res live o).2).getD 0 := by
  cases o with
  | none => exact BitVec.or_zero.symm
  | some q => rfl

theorem rollPut_frame :
    rollPut res live o slot c =
      { c with slots := (rollPut res live o slot c).slots, flags := (rollPut res live o slot c).flags } := by
  cases o <;> rfl

end

/-- The elements of a roll that are live (R183). -/
def rollLive (c : CoreCtx) (f : RollF) : List Bool := (List.range f.vl).map fun j => (mRead c f.mv).getLsbD j

/-- The words of an input slot as a roll views them (R178). -/
def rollInput (c : CoreCtx) (vl v slot : Nat) : List Word := (List.range vl).map fun j => viewWord v (slotWord c slot j)

/-- The results and flags of a roll's stages, computed from the slots as they are (R169). -/
def rolled (c : CoreCtx) (f : RollF) (r : Roll) : List (List Word) × Nat :=
  rollStages ⟨rollInput c f.vl r.viewA f.sa, rollInput c f.vl r.viewB f.sb, rollInput c f.vl r.viewC f.sc⟩
    (rollLive c f) f.vl r.stages [] 0

/-- The registers with both outputs of a roll put, the second behind the first, from results already computed. -/
def rollPuts (f : RollF) (r : Roll) (live : List Bool) (res : List (List Word) × Nat) (c : CoreCtx) : CoreCtx :=
  (rollPut res.1 live r.outE f.se (rollPut res.1 live r.outD f.sd c)).raise res.2

theorem rollPuts_frame (f : RollF) (r : Roll) (live : List Bool) (res : List (List Word) × Nat) (c : CoreCtx) :
    rollPuts f r live res c =
      { c with slots := (rollPuts f r live res c).slots, flags := (rollPuts f r live res c).flags } := by
  unfold rollPuts CoreCtx.raise
  rw [rollPut_frame, rollPut_frame _ _ r.outD]

section

variable {s : State} {c : CoreRef} {k : Ctl} {e : Env} {f : RollF}

theorem exec_roll_unlisted (hrd : e.prog.rolls[f.rd]? = none) (h : Issuing s c k (.roll f) e) :
    exec (.roll c k f false) s = .next (retire e k none e.ctx s) := by
  rw [exec_roll, execRoll, withEcc_false]
  exact issue_reg (f := id) h (by simp only [hrd])

theorem exec_roll_puts {r : Roll} (hrd : e.prog.rolls[f.rd]? = some r) (h : Issuing s c k (.roll f) e) :
    exec (.roll c k f false) s =
      .next (retire e k none (rollPuts f r (rollLive e.ctx f) (rolled e.ctx f r) e.ctx) s) := by
  rw [exec_roll, execRoll, withEcc_false]
  refine issue_reg (f := rollPuts f r (rollLive e.ctx f) (rolled e.ctx f r)) h ?_
  simp only [hrd]
  rfl

end

/-! ## `vperm` (R188, R189) -/

/-- The index at an element names a word below VL. -/
def permInside (c : CoreCtx) (f : VpermF) (j : Nat) : Prop :=
  0 ≤ sint (slotWord c f.idx j) ∧ sint (slotWord c f.idx j) < f.vl

/-- An index lies outside the words below VL. -/
def permOutside (f : VpermF) (i : Int) : Bool := i < 0 || (f.vl : Int) ≤ i

theorem permOutside_iff (c : CoreCtx) (f : VpermF) (j : Nat) :
    permOutside f (sint (slotWord c f.idx j)) = true ↔ ¬ permInside c f j := by
  simp only [permOutside, permInside, Bool.or_eq_true, decide_eq_true_eq]
  omega

/-- The indices of a permutation. -/
def permIndices (c : CoreCtx) (f : VpermF) : List Int := (List.range f.vl).map fun j => sint (slotWord c f.idx j)

/-- The word that an index names. -/
def permWord (c : CoreCtx) (f : VpermF) (i : Int) : Word := if permOutside f i then 0 else slotWord c f.src i.toNat

theorem any_permOutside_iff (c : CoreCtx) (f : VpermF) :
    (permIndices c f).any (permOutside f) = true ↔ ∃ j, j < f.vl ∧ ¬ permInside c f j := by
  simp [permIndices, permOutside_iff]

theorem any_permOutside_eq_false {c : CoreCtx} {f : VpermF} (h : ∀ j, j < f.vl → permInside c f j) :
    (permIndices c f).any (permOutside f) = false := by
  rw [Bool.eq_false_iff, Ne, any_permOutside_iff]
  exact fun ⟨j, hj, hout⟩ => hout (h j hj)

/-- The registers with the words in a permutation's destination and its flag. -/
def permPut (f : VpermF) (ixs : List Int) (src : CoreCtx) (c : CoreCtx) : CoreCtx :=
  (slotWrite c f.dst (ixs.map fun i => some (permWord src f i))).raise (flagIf (ixs.any (permOutside f)) fPermRange)

section

variable {src c : CoreCtx} {f : VpermF} {j : Nat}

theorem slotWord_permPut_below (hj : j < f.vl) :
    slotWord (permPut f (permIndices src f) src c) f.dst j = permWord src f (sint (slotWord src f.idx j)) := by
  simp [permPut, slotWord_slotWrite, permIndices, List.getD_eq_getElem?_getD, List.getElem?_range hj]

theorem slotWord_permPut_beyond (hj : f.vl ≤ j) :
    slotWord (permPut f (permIndices src f) src c) f.dst j = slotWord c f.dst j := by
  simp [permPut, slotWord_slotWrite, permIndices, List.getD_eq_getElem?_getD, hj]

theorem slotWord_permPut_other {i : Nat} (hi : i ≠ f.dst) (ixs : List Int) :
    slotWord (permPut f ixs src c) i j = slotWord c i j := by
  rw [permPut, slotWord_raise, slotWord_slotWrite, if_neg hi]

theorem permPut_flags (ixs : List Int) :
    (permPut f ixs src c).flags = if ixs.any (permOutside f) then c.flags ||| 1#32 else c.flags := by
  unfold permPut flagIf
  split
  · rfl
  · exact BitVec.or_zero

end

section

variable {s : State} {c : CoreRef} {k : Ctl} {e : Env} {f : VpermF}

theorem exec_vperm_faults (hfaults : e.score.permFaults = true) (hout : (permIndices e.ctx f).any (permOutside f) = true)
    (h : Issuing s c k (.vperm f) e) : exec (.vperm c k f false) s = .next (faultAt e cPermRange s) := by
  rw [exec_vperm, execVperm, withEcc_false]
  exact issue_fault h (if_pos (Bool.and_eq_true_iff.mpr ⟨hout, hfaults⟩))

theorem exec_vperm_puts (hgo : e.score.permFaults = true → (permIndices e.ctx f).any (permOutside f) = false)
    (h : Issuing s c k (.vperm f) e) :
    exec (.vperm c k f false) s = .next (retire e k none (permPut f (permIndices e.ctx f) e.ctx e.ctx) s) := by
  rw [exec_vperm, execVperm, withEcc_false]
  refine issue_reg (f := permPut f (permIndices e.ctx f) e.ctx) h (if_neg fun hfault => ?_)
  obtain ⟨hout, hfaults⟩ := Bool.and_eq_true_iff.mp hfault
  exact ne_true_of_eq_false (hgo hfaults) hout

end

/-! ## `vflag` (R193) -/

/-- The registers once `vflag` has read the sticky flags into an index register. -/
def flagsRead (xd : Nat) (clr : Bool) (c : CoreCtx) : CoreCtx :=
  if clr then { xWrite c xd c.flags with flags := 0 } else xWrite c xd c.flags

theorem exec_vflag_reads {s : State} {c : CoreRef} {k : Ctl} {e : Env} {xd : Nat} {clr : Bool}
    (h : Issuing s c k (.vflag xd clr) e) :
    exec (.vflag c k xd clr) s = .next (retire e k none (flagsRead xd clr e.ctx) s) := by
  rw [exec_vflag, execVflag]
  exact issue_reg (f := flagsRead xd clr) h rfl

theorem xRead_flagsRead (xd : Nat) (clr : Bool) (c : CoreCtx) (i : Nat) :
    xRead (flagsRead xd clr c) i = xRead (xWrite c xd c.flags) i := by
  cases clr <;> rfl

theorem indexWritten_flagsRead {xd : Nat} (hxd : xd < 32) (clr : Bool) (c : CoreCtx) :
    IndexWritten { c with flags := if clr then 0 else c.flags } (flagsRead xd clr c) xd (· = c.flags) := by
  refine ⟨?_, fun i hi => ?_, xRead_zero _, fun h0 => ?_⟩
  · unfold flagsRead
    rw [xWrite_frame]
    cases clr <;> rfl
  · rw [xRead_flagsRead, xRead_xWrite c xd i _ hxd, if_neg fun h => hi h.1]
    rfl
  · rw [xRead_flagsRead, xRead_xWrite c xd xd _ hxd, if_pos ⟨rfl, h0⟩]

/-! ## The obligations -/

/-- Settles O27: `exec_vld_loads` and `exec_vst_stores`, with what the slots and the store read afterwards. -/
theorem vectorsMoveBetweenSlotsAndSram : Obligations.VectorsMoveBetweenSlotsAndSram := by
  intro s c k e f n
  refine ⟨fun hvl => ⟨fun h => exec_vld_noop hvl h, fun h => exec_vst_noop hvl h⟩, ?_, ?_⟩
  · intro p hvl hp hfree h els
    exact ⟨_, exec_vld_loads hvl hp hfree h, slotWord_vldLoaded_self f.slot els e.ctx,
      fun i j hi => slotWord_vldLoaded_other f.slot els e.ctx hi j, rfl⟩
  · intro p hvl hmax hp hfree hroom hbound hwf h sc out w
    obtain ⟨-, -, -, hcore, -⟩ := envOf_core h.2.1
    have hstored : getCore (vstStored e f p s) e.key = writeRows (vstRows e f p.2 sc) e.core := by
      rw [vstStored, getCore_vstCounted, getCore_modCore, hcore]
    refine ⟨_, exec_vst_stores hvl hp hfree hroom hbound h, ?_, fun hsc => ?_, fun i hi => ?_, ?_, ?_, ?_, ?_⟩
    · rw [vstStored, vstCounted_frame]
      rfl
    · rw [vstStored, vstCounted_unscaled hsc]
      rfl
    · rw [vstStored, getCore_vstCounted]
      exact getCore_modCore_other s e.key i _ hi
    · rw [hstored, writeRows_frame]
    · rw [hstored]
      exact sramKept_vstRows hmax
    · rw [hstored]
      exact readN_vstRows_codes hmax hwf
    · rw [hstored]
      exact readN_vstRows_scales hwf

/-- Settles O28: `exec_roll_puts`, `exec_vperm_puts` and `exec_vflag_reads`, with what the slots read afterwards. -/
theorem slotOperationsComplete : Obligations.SlotOperationsComplete := by
  intro s c k e
  refine ⟨fun f hrd h => exec_roll_unlisted hrd h, ?_, ?_, ?_⟩
  · intro f r hrd h live input res word flags
    refine ⟨_, exec_roll_puts hrd h, rollPuts_frame .., ?_, fun i j => ?_⟩
    · exact congrArg (· ||| BitVec.ofNat 32 res.2) ((rollPut_flags ..).trans (congrArg (· ||| _) (rollPut_flags ..)))
    · rw [rollPuts, slotWord_raise, slotWord_rollPut, slotWord_rollPut]
      rfl
  · intro f h inside
    refine ⟨fun hfaults hout => exec_vperm_faults hfaults ((any_permOutside_iff e.ctx f).mpr hout) h, fun hgo => ?_⟩
    refine ⟨_, exec_vperm_puts (fun hfaults => any_permOutside_eq_false (hgo hfaults)) h, fun j hj hin => ?_,
      fun j hj hout => ?_, fun j hj => slotWord_permPut_beyond hj, fun i j hi => slotWord_permPut_other hi _, rfl,
      fun hin => ?_, fun hout => ?_⟩
    · rw [slotWord_permPut_below hj, permWord, if_neg fun hout => (permOutside_iff e.ctx f j).mp hout hin]
    · rw [slotWord_permPut_below hj, permWord, if_pos ((permOutside_iff e.ctx f j).mpr hout)]
    · rw [permPut_flags, any_permOutside_eq_false hin, if_neg Bool.false_ne_true]
    · rw [permPut_flags, if_pos ((any_permOutside_iff e.ctx f).mpr hout)]
  · intro xd clr hxd h
    exact ⟨_, exec_vflag_reads h, indexWritten_flagsRead hxd clr e.ctx⟩

end Sys2Proof.Machine
end

section
/-! Data of a job and spares (08 R256, 11 R336, R339, 15 R452, 16 R466, R476, R480, R485): what the commands on norm records,
checkpoints and inputs leave, and what a spare and a device new to a job begin once their place is found. -/

namespace Sys2Proof.Machine

open Sys2Proof.Safety

/-! ## What reading a command leaves -/

section

variable (h : Hdr) (s : State)

@[simp] theorem takeCmd_slots : (takeCmd h s).slots = s.slots := by rw [takeCmd_frame]

@[simp] theorem takeCmd_setup : (takeCmd h s).setup = s.setup := by rw [takeCmd_frame]

@[simp] theorem takeCmd_dev : (takeCmd h s).dev = s.dev := by rw [takeCmd_frame]

@[simp] theorem takeCmd_base : (takeCmd h s).base = s.base := by rw [takeCmd_frame]

@[simp] theorem takeCmd_tenants : (takeCmd h s).tenants = s.tenants := by rw [takeCmd_frame]

@[simp] theorem takeCmd_regions : (takeCmd h s).regions = s.regions := by rw [takeCmd_frame]

@[simp] theorem getSlot_takeCmd (i : Nat) : getSlot (takeCmd h s) i = getSlot s i := by simp [getSlot]

@[simp] theorem getJob_takeCmd (i : Nat) : getJob (takeCmd h s) i = getJob s i := by simp [getJob]

end

/-! ## Norm records, checkpoints and inputs -/

section

variable {s : State} {h : Hdr} {snd : Sender} {slot : Nat} {j : Job} {sc : Score} {r : Range}

/-- The holder of a slot that is not Empty may send a command on it. -/
theorem slotAuth_takeCmd (hslot : slot < 128) (hstate : (getSlot s slot).state ≠ .empty)
    (hholds : snd.holds (getSlot s slot).owner = true) : slotAuth snd (takeCmd h s) slot = true := by
  simp [slotAuth, hslot, hstate, hholds]

theorem exec_jobNorms_replies {first count : Nat} (hslot : slot < 128) (hauth : slotAuth snd (takeCmd h s) slot = true)
    (hj : getJob s slot = some j) (hpos : 0 < r.len) (hlen : r.len < 0xFFFFFFFF) (hin : r.off + r.len ≤ snd.window)
    (hacc : Accepts s h 0x0208 .holder true (.jobNorms h slot first count r) snd) (hsome : 0 < count)
    (hcount : count < 0xFFFF) (hlast : first + count ≤ normCount j) (hroom : 32 * count ≤ r.len) :
    exec (.jobNorms h slot first count r) s = .next (replied (waitOf s h 0x0208 snd) []
      (windowWrite (waitOf s h 0x0208 snd) r.off
        ((List.range count).flatMap fun i => (j.norms.getD (first + i) {}).bytes) (takeCmd h s))) := by
  rw [exec_jobNorms, execJobNorms]
  refine command_ok hacc ?_
  have hnone : (count == 0 || r.len == 0) = false := by simp [Nat.ne_of_gt hsome, Nat.ne_of_gt hpos]
  simp [hauth, hcount, rangeLen, hlen, hslot, rangeOk, hin, hj, hnone, hlast, hroom, answered, replied]

theorem exec_jobCheckpoint_joins {dest : Option Range} (hslot : slot < 128)
    (hauth : slotAuth snd (takeCmd h s) slot = true) (hstate : (getSlot s slot).state = .running)
    (hdest : ∀ r ∈ dest, 0 < r.len ∧ r.len < 0xFFFFFFFF ∧ r.off + r.len ≤ snd.window)
    (hacc : Accepts s h 0x0209 .holder false (.jobCheckpoint h slot dest) snd) :
    exec (.jobCheckpoint h slot dest) s = .next (modJob slot
      (fun j => { j with ckpts := j.ckpts ++ [⟨waitOf s h 0x0209 snd, dest⟩] })
      (admitted (waitOf s h 0x0209 snd) (takeCmd h s))) := by
  rw [exec_jobCheckpoint, execJobCheckpoint]
  refine command_ok hacc ?_
  rw [accept_taken hacc]
  cases dest with
  | none => simp [hauth, hslot, hstate]
  | some r =>
    obtain ⟨hpos, hlen, hin⟩ := hdest r rfl
    simp [hauth, hslot, hstate, rangeLen, hlen, rangeOk, hin, Nat.ne_of_gt hpos]

theorem exec_jobInput_parks {bar addr : Nat} {bytes : List Byte} (hslot : slot < 128)
    (hauth : slotAuth snd (takeCmd h s) slot = true) (hj : getJob s slot = some j)
    (hsc : (getSlot s slot).score = some sc) (hpos : 0 < r.len) (hlen : r.len < 0xFFFFFFFF)
    (hin : r.off + r.len ≤ snd.window)
    (hacc : Accepts s h 0x020A .holder false (.jobInput { h with win := 2 } slot bar addr r bytes) snd)
    (hregion : inputRegion (takeCmd h s) slot sc addr r.len = true) (hstate : (getSlot s slot).state = .running)
    (hlate : inputLate j bar = false) :
    exec (.jobInput h slot bar addr r bytes) s = .next (parkClass h.cls (modJob slot
      (fun j => { j with inputs := j.inputs ++ [⟨some (waitOf s h 0x020A snd), bar, addr, fitTo r.len bytes, false⟩] })
      (admitted (waitOf s h 0x020A snd) (takeCmd h s)))) := by
  rw [exec_jobInput, execJobInput]
  refine command_ok hacc ?_
  rw [accept_taken hacc]
  simp [hauth, hslot, rangeLen, hlen, rangeOk, hin, Nat.ne_of_gt hpos, hj, hsc, hregion, hstate, hlate, waitOf]

end

/-! ## Spares and devices new to a job (11 R336, R339) -/

/-- The resources that a start or an admission asks for are there (02 R48, 10 R295, R296, 12 R368). -/
structure PlaceFound (slot owner rank : Nat) (f : StartF) (sc : Score) (place : Option (Nat × Nat × Nat))
    (b : State) : Prop where
  apart : regionsApart b (startRegions b slot owner rank f sc) = true
  holding : (addHolding slot owner f { b with regions := b.regions ++ startRegions b slot owner rank f sc }).isSome = true
  place : if sc.ghost then place = none
    else (b.tenants.getD owner {}).partUsed < (b.tenants.getD owner {}).quotas.parts ∧
      ∃ o p, findOrigin b sc f.origin = some o ∧ freePartNo b = some p ∧ place = some (p, o)
  room : b.regions.length + (startRegions b slot owner rank f sc).length + 3 ≤ maxRegions

/-- With its resources there, a start or an admission goes on with its place. -/
theorem withPlace_found {slot owner rank : Nat} {f : StartF} {sc : Score} {place : Option (Nat × Nat × Nat)} {b : State}
    (hfound : PlaceFound slot owner rank f sc place b) (k : Option (Nat × Nat × Nat) → Except (Nat × Nat) State) :
    withPlace slot owner rank f sc k b = k place := by
  obtain ⟨hapart, hholding, hplace, hroom⟩ := hfound
  unfold withPlace
  simp only [hapart, hholding, hroom, content_true, decide_true]
  cases hghost : sc.ghost with
  | true =>
    obtain rfl : place = none := by simpa [hghost] using hplace
    simp
  | false =>
    rw [hghost, if_neg Bool.false_ne_true] at hplace
    obtain ⟨hquota, o, p, horigin, hpart, rfl⟩ := hplace
    simp [horigin, hpart, hquota]

section

variable {s : State} {h : Hdr} {snd : Sender} {slot rank : Nat} {t : JobTables} {sc : Score}
  {place : Option (Nat × Nat × Nat)}

theorem exec_jobAdmit_spare {epoch device : Nat} {ident : List Byte}
    (hacc : Accepts s h 0x0206 .control false (.jobAdmit h slot rank epoch device ident (some t)) snd) (hslot : slot < 128)
    (hdevice : device = s.setup.deviceId) (hident : ident = shake256 16 s.dev.idKey)
    (hsc : (getSlot s slot).score = some sc) (hstate : (getSlot s slot).state = .loaded)
    (hscore : t.score = (getSlot s slot).digest) (hrank : rank < sc.replicas)
    (hbase : s.base.map (·.man.digest) = some sc.baseDigest)
    (htier : (startRegions (takeCmd h s) slot t.owner rank { t.start with slot := slot, rank := rank } sc).all
      regionInTier = true)
    (hfound : PlaceFound slot t.owner rank { t.start with slot := slot, rank := rank } sc place (takeCmd h s)) :
    exec (.jobAdmit h slot rank epoch device ident (some t)) s = .next (keysAround slot false
      (beginSpare slot rank epoch device ident (waitOf s h 0x0206 snd) t sc place
        (admitted (waitOf s h 0x0206 snd) (takeCmd h s)))) := by
  rw [exec_jobAdmit, execJobAdmit]
  refine command_ok hacc ?_
  simp only [admitSpare, withPlace_found hfound, accept_taken hacc, htier, takeCmd_setup, takeCmd_dev, takeCmd_base,
    getSlot_takeCmd, hsc]
  simp [hslot, hdevice, hident, hstate, hscore, hrank, hbase]

theorem exec_jobReshard_fresh {old : Nat} {forced : Bool} {map : List (Nat × Nat × List Byte)}
    (hacc : Accepts s h 0x0207 .control false (.jobReshard h old slot forced map (some t)) snd) (hold : old < 128)
    (hslot : slot < 128) (hj : getJob s old = none) (hsc : (getSlot s slot).score = some sc)
    (hcompatible : ∀ sc', (getSlot s old).score = some sc' → compatible sc' sc = true)
    (hrank : newRank (takeCmd h s) sc.replicas map sc = some rank) (hstate : (getSlot s slot).state = .loaded)
    (hbase : s.base.map (·.man.digest) = some sc.baseDigest)
    (htier : (startRegions (takeCmd h s) slot t.owner rank { t.start with slot := slot, rank := rank } sc).all
      regionInTier = true)
    (hfound : PlaceFound slot t.owner rank { t.start with slot := slot, rank := rank } sc place (takeCmd h s)) :
    exec (.jobReshard h old slot forced map (some t)) s = .next (beginFresh slot rank (waitOf s h 0x0207 snd) map t sc place
      (admitted (waitOf s h 0x0207 snd) (takeCmd h s))) := by
  rw [exec_jobReshard, execJobReshard]
  refine command_ok hacc ?_
  have hj' : (getSlot s old).job = none := hj
  have hfresh : reshardFresh (waitOf s h 0x0207 snd) slot map t (takeCmd h s) =
      .ok (beginFresh slot rank (waitOf s h 0x0207 snd) map t sc place
        (admitted (waitOf s h 0x0207 snd) (takeCmd h s))) := by
    simp only [reshardFresh, withPlace_found hfound, accept_taken hacc, htier, takeCmd_base, getSlot_takeCmd, hsc,
      Option.bind_some, hrank]
    simp [hstate, hbase]
  simp only [getSlot_takeCmd, hsc, hj', hfresh, hold, hslot]
  cases hold : (getSlot s old).score with
  | none => simp
  | some sc' => simp [hcompatible sc' hold]

end

/-! ## The obligation -/

/-- Settles O16, one command at a time; the job tables and the rank map come as operands (log entries 40 and 41). -/
theorem jobDataAndSparesComplete : Obligations.JobDataAndSparesComplete := by
  refine ⟨?_, ?_, ?_⟩
  · intro s h snd slot j sc r b hslot hj hsc hstate hholds hpos hlen hin
    have hauth := slotAuth_takeCmd (h := h) hslot hstate hholds
    refine ⟨fun first count hacc => exec_jobNorms_replies hslot hauth hj hpos hlen hin hacc, ?_, ?_⟩
    · rintro dest hdest hacc hrunning
      refine exec_jobCheckpoint_joins hslot hauth hrunning (fun q hq => ?_) hacc
      obtain rfl | rfl := hdest
      · cases hq
      · cases hq
        exact ⟨hpos, hlen, hin⟩
    · exact fun bar addr bytes hacc => exec_jobInput_parks hslot hauth hj hsc hpos hlen hin hacc
  · intro s h snd slot rank epoch device ident t sc place b w f regs hacc hslot hdevice hident hsc hstate hscore hrank hbase
      htier hapart hholding hplace hroom
    exact exec_jobAdmit_spare hacc hslot hdevice hident hsc hstate hscore hrank hbase htier
      ⟨hapart, hholding, by rw [takeCmd_tenants]; exact hplace, by rw [takeCmd_regions]; exact hroom⟩
  · intro s h snd old slot rank forced map t sc place b w f regs hacc hold hslot hj hsc hcompatible hrank hstate hbase htier
      hapart hholding hplace hroom
    exact exec_jobReshard_fresh hacc hold hslot hj hsc hcompatible hrank hstate hbase htier
      ⟨hapart, hholding, by rw [takeCmd_tenants]; exact hplace, by rw [takeCmd_regions]; exact hroom⟩

end Sys2Proof.Machine
end

section
/-! The intake of gradients (08 R237, R238, R257 to R262): what the operations on holding areas, pages and hands keep of a
run, and which of its three answers the intake gives. -/

namespace Sys2Proof

/-! ## Tables and bytes -/

/-- A value found at a key stands in the table. -/
theorem Table.mem_of_get {α : Type} {t : Table α} {k : Nat} {v : α} (h : t.get k = some v) : (k, v) ∈ t := by
  obtain ⟨p, hp, rfl⟩ := Option.map_eq_some_iff.mp h
  obtain rfl : p.1 = k := by simpa using List.find?_some hp
  exact List.mem_of_find?_eq_some hp

/-- The bytes of a number give it back, as far as they reach. -/
theorem leNat_leBytes (n v : Nat) : leNat (leBytes n v) = v % 256 ^ n := by
  induction n generalizing v with
  | zero => simp [leBytes, leNat, Nat.mod_one]
  | succ n ih => rw [leBytes, leNat, ih, Nat.pow_succ', Nat.mod_mul, BitVec.toNat_ofNat]

theorem bit_not (b : Bool) : bit (!b) = if b then 0 else 1 := by cases b <;> rfl

/-- A word just written reads back. -/
theorem Mem.readLe_writeLe_word {m : List Host.Cell} (h : wf m = true) (a : Nat) (w : Word) :
    BitVec.ofNat 32 (readLe (writeLe m a 4 w.toNat) a 4) = w := by
  have hread : readN (writeLe m a 4 w.toNat) a 4 = leBytes 4 w.toNat := by
    simpa only [length_leBytes, writeLe] using readN_writeN m a (leBytes 4 w.toNat) h
  rw [readLe, hread, leNat_leBytes]
  exact BitVec.eq_of_toNat_eq (by have := w.isLt; simp; omega)

namespace Machine

open Sys2Proof.Safety

/-! ## What changes keep of the newest run -/

/-- What every step of a fold keeps, the fold keeps. -/
theorem foldl_keeps {α β : Type} {R : α → α → Prop} (hrefl : ∀ a, R a a) (htrans : ∀ {a b c}, R a b → R b c → R a c)
    {f : α → β → α} (hf : ∀ a b, R a (f a b)) (l : List β) (a : α) : R a (l.foldl f a) := by
  induction l generalizing a with
  | nil => exact hrefl a
  | cons b l ih => exact htrans (hf a b) (ih _)

/-- What `π` reads of the newest run of a slot stays. -/
def RunKeeps {α : Type} (π : Run → α) (slot : Nat) (s t : State) : Prop :=
  ((getJob t slot).bind Job.now).map π = ((getJob s slot).bind Job.now).map π

namespace RunKeeps

variable {α : Type} {π : Run → α} {slot : Nat} {s t u : State}

theorem of_slots (h : t.slots = s.slots) : RunKeeps π slot s t := by simp only [RunKeeps, getJob, getSlot, h]

theorem trans (h : RunKeeps π slot s t) (k : RunKeeps π slot t u) : RunKeeps π slot s u := Eq.trans k h

theorem modNow {f : Run → Run} (hf : ∀ r, π (f r) = π r) (s : State) : RunKeeps π slot s (modNow slot f s) := by
  rw [RunKeeps, now_modNow, Option.map_map]
  exact congrArg (Option.map · _) (funext hf)

/-- The newest run afterwards, of which `π` reads the same. -/
theorem run (h : RunKeeps π slot s t) {r : Run} (hr : (getJob s slot).bind Job.now = some r) :
    ∃ r', (getJob t slot).bind Job.now = some r' ∧ π r' = π r := by
  rw [RunKeeps, hr] at h
  exact Option.map_eq_some_iff.mp h

end RunKeeps

theorem now_of_job {s : State} {slot : Nat} {j : Job} {run : Run} (hj : getJob s slot = some j) (hrun : j.now = some run) :
    (getJob s slot).bind Job.now = some run := (congrArg (·.bind Job.now) hj).trans hrun

/-- A job stands in the list of slots. -/
theorem slot_mem_of_job {s : State} {slot : Nat} {j : Job} (hj : getJob s slot = some j) :
    (slot, getSlot s slot) ∈ s.slots := by
  refine Table.mem_of_get ?_
  cases hget : s.slots.get slot with
  | none => simp [getJob, getSlot, Table.getD, hget] at hj
  | some sl => simp [getSlot, Table.getD, hget]

theorem TiersOnly.slots {s t : State} (h : TiersOnly s t) : t.slots = s.slots := by
  unfold TiersOnly at h
  rw [← h]

theorem TiersOnly.cores {s t : State} (h : TiersOnly s t) : t.cores = s.cores := by
  unfold TiersOnly at h
  rw [← h]

/-! ## Pages that the engine pins and asks for (R257, R258) -/

/-- Only page descriptors and the promotion queue may differ. -/
def MovesOnly (s t : State) : Prop := { t with pages := s.pages, promoQ := s.promoQ } = s

theorem MovesOnly.trans {s t u : State} (h : MovesOnly s t) (k : MovesOnly t u) : MovesOnly s u := by
  unfold MovesOnly at *
  rw [← k] at h
  exact h

theorem MovesOnly.fields {s t : State} (h : MovesOnly s t) : t.slots = s.slots ∧ t.cores = s.cores := by
  unfold MovesOnly at h
  rw [← h]
  exact ⟨rfl, rfl⟩

theorem movesOnly_askPromotion (q : PromoReq) (s : State) : MovesOnly s (askPromotion q s) := by
  unfold askPromotion
  simp only
  repeat' split
  all_goals rfl

theorem movesOnly_askPages (pages : List Nat) (s : State) : MovesOnly s (askPages pages s) :=
  foldl_keeps (R := MovesOnly) (fun _ => rfl) .trans (fun s _ => movesOnly_askPromotion _ s) _ s

/-- A change of descriptors changes nothing else. -/
theorem modPages_frame (l : List Nat) (f : PageDesc → PageDesc) (s : State) :
    modPages l f s = { s with pages := (modPages l f s).pages } := by
  unfold modPages
  induction pageUnits s l generalizing s with
  | nil => rfl
  | cons n l ih => exact ih (modPage n f s)

theorem pinPages_cores (slot : Nat) (l : List Nat) (s : State) : (pinPages slot l s).cores = s.cores := by
  rw [pinPages, modPages_frame]
  rfl

/-- A pin adds its pages to the run and keeps whatever is not a pin. -/
theorem runKeeps_pinPages {α : Type} {π : Run → α} (hπ : ∀ (r : Run) p, π { r with pins := p } = π r) (slot : Nat)
    (l : List Nat) (s : State) : RunKeeps π slot s (pinPages slot l s) := by
  refine RunKeeps.trans (RunKeeps.of_slots ?_) (RunKeeps.modNow (fun r => hπ r _) _)
  rw [modPages_frame]

/-! ## The intake of a gradient (R237, R238, R257 to R260) -/

/-- The cores stay, and the newest run of a slot keeps its bar and its intake. -/
structure IntakeKept (slot : Nat) (s t : State) : Prop where
  cores : t.cores = s.cores
  run : RunKeeps (fun r => (r.bar, r.intake)) slot s t

namespace IntakeKept

variable {slot : Nat} {s t u : State}

theorem of_fields (hslots : t.slots = s.slots) (hcores : t.cores = s.cores) : IntakeKept slot s t :=
  ⟨hcores, RunKeeps.of_slots hslots⟩

theorem trans (h : IntakeKept slot s t) (k : IntakeKept slot t u) : IntakeKept slot s u :=
  ⟨k.cores.trans h.cores, h.run.trans k.run⟩

theorem modNow {f : Run → Run} (s : State) (hf : ∀ r : Run, (f r).bar = r.bar ∧ (f r).intake = r.intake := by
    exact fun _ => ⟨rfl, rfl⟩) : IntakeKept slot s (modNow slot f s) :=
  ⟨rfl, RunKeeps.modNow (fun r => by rw [(hf r).1, (hf r).2]) s⟩

theorem of_tiersOnly (h : TiersOnly s t) : IntakeKept slot s t := of_fields h.slots h.cores

theorem of_movesOnly (h : MovesOnly s t) : IntakeKept slot s t := of_fields h.fields.1 h.fields.2

theorem of_hostOnly (h : HostOnly s t) : IntakeKept slot s t := by
  unfold HostOnly withHostSide at h
  rw [← h]
  exact of_fields rfl rfl

end IntakeKept

theorem intakeKept_modHand (slot hand : Nat) (f : Hand → Hand) (s : State) : IntakeKept slot s (modHand hand f s) :=
  .of_fields rfl rfl

theorem intakeKept_putArea (slot entry tier n : Nat) (gs : Option (List Word)) (s : State) :
    IntakeKept slot s (putArea slot entry tier n gs s) := by
  unfold putArea
  split
  · exact .of_fields rfl rfl
  · cases gs with
    | none => exact .modNow s
    | some gs => exact (IntakeKept.modNow s).trans (.of_tiersOnly (writeTiers_only ..))

theorem intakeKept_pinPages (slot : Nat) (l : List Nat) (s : State) : IntakeKept slot s (pinPages slot l s) :=
  ⟨pinPages_cores slot l s, runKeeps_pinPages (fun _ _ => rfl) slot l s⟩

/-- The notice of a bar's first held entry (R260) keeps the runs. -/
theorem intakeKept_told (slot : Nat) (bar : Option Nat) (s : State) :
    IntakeKept slot s (modJob slot (fun j => { j with holdTold := bar }) s) := by
  refine ⟨rfl, ?_⟩
  rw [RunKeeps, getJob_modJob]
  cases getJob s slot <;> rfl

/-- An entry of shard mode 2 gets its place in HBM (R255). -/
def reserveClip (slot : Nat) (c : Group) (e : Nat × Entry) (s : State) : State :=
  if c.shardMode = 2 then putArea slot e.1 0 (4 * e.2.elements) none s else s

/-- An entry whose state rests in a slow tier is held there: its gradient written, its pages asked for and pinned, its hand's
counters advanced (R257, R258). -/
def holdSlow (slot hand : Nat) (c : Group) (gs : List Word) (e : Nat × Entry) (tier : Nat) (s : State) : State :=
  let g := (gs.drop e.2.rFirst).take e.2.elements
  let u := pinPages slot (entryPages c e.2)
    (askPages (entryPages c e.2) (putArea slot e.1 tier (4 * e.2.elements) (some g) s))
  modNow slot (fun r => { r with heldEntries := r.heldEntries + 1, waiting := r.waiting ++ [(e.1, tier, hand)],
                                  passes := r.passes.put e.1 { getPass r e.1 with held := true } })
    (modHand hand (fun h => { h with holdEvents := satAt 0xFFFF (h.holdEvents + 1), holdsMs := h.holdsMs + 1,
                                     holdEntries := satAt 0xFFFF (h.holdEntries + 1) }) u)

/-- The notice of a bar's first held entry (R260). -/
def tellHeld (slot : Nat) (sc : Score) (s : State) : State :=
  match getJob s slot with
  | none => s
  | some j => match j.now with
    | none => s
    | some run =>
      if j.holdTold = some run.bar then s
      else notice 0x31 1 slot run.bar (leBytes 1 slot ++ leBytes 8 run.bar ++ leBytes 4 run.waiting.length ++
          leBytes 8 (sumNat (run.waiting.map fun w => 4 * ((sc.entries[w.1]?).map (·.elements)).getD 0)))
        (modJob slot (fun j => { j with holdTold := some run.bar }) s)

section

variable {slot hand : Nat} {sc : Score} {gs : List Word} {e : Nat × Entry} {c : Group} {s : State}

theorem holdEntry_ungrouped (hc : entryGroup sc e.2 = none) : holdEntry slot hand sc gs e s = s := by
  simp only [holdEntry, hc]

theorem holdEntry_near (hc : entryGroup sc e.2 = some c) (htier : holdTier s (entryPages c e.2) = none) :
    holdEntry slot hand sc gs e s = reserveClip slot c e s := by
  simp only [holdEntry, hc, htier, reserveClip]

theorem holdEntry_slow {tier : Nat} (hc : entryGroup sc e.2 = some c) (htier : holdTier s (entryPages c e.2) = some tier) :
    holdEntry slot hand sc gs e s = tellHeld slot sc (holdSlow slot hand c gs e tier (reserveClip slot c e s)) := by
  simp only [holdEntry, hc, htier, holdSlow, reserveClip]
  generalize modNow slot _ (modHand hand _ _) = u
  rfl

end

theorem intakeKept_reserveClip (slot : Nat) (c : Group) (e : Nat × Entry) (s : State) :
    IntakeKept slot s (reserveClip slot c e s) := by
  unfold reserveClip
  split
  · exact intakeKept_putArea ..
  · exact .of_fields rfl rfl

theorem intakeKept_holdSlow (slot hand : Nat) (c : Group) (gs : List Word) (e : Nat × Entry) (tier : Nat) (s : State) :
    IntakeKept slot s (holdSlow slot hand c gs e tier s) := by
  have hput := intakeKept_putArea slot e.1 tier (4 * e.2.elements) (some ((gs.drop e.2.rFirst).take e.2.elements)) s
  have hask := hput.trans (.of_movesOnly (movesOnly_askPages (entryPages c e.2) _))
  have hpin := hask.trans (intakeKept_pinPages slot (entryPages c e.2) _)
  refine (hpin.trans (intakeKept_modHand slot hand _ _)).trans (.modNow _ ?_)
  exact fun _ => ⟨rfl, rfl⟩

theorem intakeKept_tellHeld (slot : Nat) (sc : Score) (s : State) : IntakeKept slot s (tellHeld slot sc s) := by
  unfold tellHeld
  repeat' split
  any_goals exact .of_fields rfl rfl
  exact (intakeKept_told ..).trans (.of_hostOnly (hostOnly_notice ..))

/-- Holding an entry keeps the intake. -/
theorem intakeKept_holdEntry (slot hand : Nat) (sc : Score) (gs : List Word) (e : Nat × Entry) (s : State) :
    IntakeKept slot s (holdEntry slot hand sc gs e s) := by
  cases hc : entryGroup sc e.2 with
  | none =>
    rw [holdEntry_ungrouped hc]
    exact .of_fields rfl rfl
  | some c =>
    cases htier : holdTier s (entryPages c e.2) with
    | none =>
      rw [holdEntry_near hc htier]
      exact intakeKept_reserveClip ..
    | some tier =>
      rw [holdEntry_slow hc htier]
      exact ((intakeKept_reserveClip ..).trans (intakeKept_holdSlow ..)).trans (intakeKept_tellHeld ..)

/-! ### Entries that the engine reaches at once -/

/-- Only the slots may differ. -/
def SlotsOnly (s t : State) : Prop := { t with slots := s.slots } = s

theorem SlotsOnly.trans {s t u : State} (h : SlotsOnly s t) (k : SlotsOnly t u) : SlotsOnly s u := by
  unfold SlotsOnly at *
  rw [← k] at h
  exact h

theorem SlotsOnly.mem {s t : State} (h : SlotsOnly s t) : t.mem = s.mem := by
  unfold SlotsOnly at h
  rw [← h]

/-- Where a page rests is none of what the slots say. -/
theorem SlotsOnly.holdTier {s t : State} (h : SlotsOnly s t) (pages : List Nat) : holdTier t pages = holdTier s pages := by
  unfold SlotsOnly at h
  rw [← h]
  rfl

/-- A place that is only reserved takes no bytes. -/
theorem slotsOnly_putArea (slot entry tier n : Nat) (s : State) : SlotsOnly s (putArea slot entry tier n none s) := by
  unfold putArea
  split
  · rfl
  · rfl

theorem slotsOnly_reserveClip (slot : Nat) (c : Group) (e : Nat × Entry) (s : State) :
    SlotsOnly s (reserveClip slot c e s) := by
  unfold reserveClip
  split
  · exact slotsOnly_putArea ..
  · rfl

/-- Entries whose state the engine reaches at once change the slots alone. -/
theorem slotsOnly_holdEntries (slot hand : Nat) (sc : Score) (gs : List Word) (l : List (Nat × Entry)) {s : State}
    (hnear : ∀ e ∈ l, ∀ c, entryGroup sc e.2 = some c → holdTier s (entryPages c e.2) = none) :
    SlotsOnly s (l.foldl (fun s e => holdEntry slot hand sc gs e s) s) := by
  induction l generalizing s with
  | nil => rfl
  | cons e l ih =>
    obtain ⟨he, hl⟩ := List.forall_mem_cons.mp hnear
    have hone : SlotsOnly s (holdEntry slot hand sc gs e s) := by
      cases hc : entryGroup sc e.2 with
      | none =>
        rw [holdEntry_ungrouped hc]
        rfl
      | some c =>
        rw [holdEntry_near hc (he c hc)]
        exact slotsOnly_reserveClip ..
    exact hone.trans (ih fun e' he' c hc => (hone.holdTier _).trans (hl e' he' c hc))

/-! ### The command -/

/-- A gradient stands in the intake, and the hand counts it where it fills the buffer (R237, R238). -/
def intakeEntered (slot hand red : Nat) (d : Reduction) (run : Run) (size : Nat) (s : State) : State :=
  modNow slot (fun r => { r with
      intake := r.intake.put red (gradWords d (qOf run d.tensor) (getRed run red)),
      intakeFlags := r.intakeFlags.put red (if d.mode = 2 then (getRed run red).flags else 0) })
    (modHand hand (fun h => { h with
      intakeHeld := false, intakeFull := satAt 0xFFFF (h.intakeFull + bit (decide (intakeSize ≤ size))) }) s)

theorem now_intakeEntered {s : State} {slot : Nat} {run r : Run} (hand red : Nat) (d : Reduction) (size : Nat)
    (h : (getJob s slot).bind Job.now = some r) :
    (getJob (intakeEntered slot hand red d run size s) slot).bind Job.now = some { r with
      intake := r.intake.put red (gradWords d (qOf run d.tensor) (getRed run red)),
      intakeFlags := r.intakeFlags.put red (if d.mode = 2 then (getRed run red).flags else 0) } := by
  rw [intakeEntered, now_modNow]
  exact congrArg _ h

theorem holdTier_intakeEntered (slot hand red : Nat) (d : Reduction) (run : Run) (size : Nat) (s : State)
    (pages : List Nat) : holdTier (intakeEntered slot hand red d run size s) pages = holdTier s pages := rfl

/-- A result of the open run waits for the intake of its hand. -/
structure ResultReady (s : State) (slot red : Nat) (j : Job) (sc : Score) (run : Run) (d : Reduction) : Prop where
  job : getJob s slot = some j
  score : (getSlot s slot).score = some sc
  now : j.now = some run
  alone : j.ahead = none
  reduction : sc.reductions[red]? = some d
  waits : resultWaits run sc red = true
  awake : areaAsleep s slot sc j.rank red = false

section

variable {s : State} {slot red : Nat} {j : Job} {sc : Score} {run : Run} {d : Reduction}

theorem resultWaits_of (hd : sc.reductions[red]? = some d) (hdest : d.dest = 0xFFFE)
    (hdelivered : (getRed run red).delivered = true) (hnew : run.intake.get red = none) :
    resultWaits run sc red = true := by
  simp [resultWaits, hd, hdest, hdelivered, hnew]

/-- A result waits only where its reduction is one of the score's. -/
theorem reduction_of_resultWaits (h : resultWaits run sc red = true) : ∃ d, sc.reductions[red]? = some d := by
  cases hd : sc.reductions[red]? with
  | none => simp [resultWaits, hd] at h
  | some d => exact ⟨d, rfl⟩

/-- A holding area without room stops a result and tells its hand (R259, R262). -/
theorem ResultReady.backpressure (h : ResultReady s slot red j sc run d) (hshort : areaShort s sc j red = true) :
    backpressure s (redHand s slot sc d) = true := by
  obtain ⟨hj, hsc, hrun, -, hd, hwaits, -⟩ := h
  have hjob : (getSlot s slot).job = some j := hj
  obtain ⟨hlt, -⟩ := List.getElem?_eq_some_iff.mp hd
  refine List.any_eq_true.mpr ⟨_, slot_mem_of_job hj, ?_⟩
  simp only [hsc, hjob, hrun, Bool.or_eq_true]
  refine .inr (List.any_eq_true.mpr ⟨red, List.mem_range.mpr hlt, ?_⟩)
  simp [hd, hwaits, hshort]

theorem exec_gradientIntake_short (h : ResultReady s slot red j sc run d) (hshort : areaShort s sc j red = true) :
    exec (.gradientIntake slot red) s = .next s := by
  obtain ⟨hj, hsc, hrun, -, hd, -, -⟩ := h
  simp [exec_gradientIntake, execGradientIntake, hj, hsc, hrun, hd, hshort]

theorem exec_gradientIntake_full (h : ResultReady s slot red j sc run d) (hroom : areaShort s sc j red = false)
    (hsome : intakeFill s (redHand s slot sc d) ≠ 0)
    (hfull : intakeSize < intakeFill s (redHand s slot sc d) + intakeMore s sc j.rank red) :
    exec (.gradientIntake slot red) s = .next (modHand (redHand s slot sc d) (fun h => { h with
      intakeHeld := true, intakeFull := satAt 0xFFFF (h.intakeFull + bit (!h.intakeHeld)) }) s) := by
  obtain ⟨hj, hsc, hrun, halone, hd, hwaits, hawake⟩ := h
  simp [exec_gradientIntake, execGradientIntake, hj, hsc, hrun, hd, hwaits, hawake, hroom, halone, hsome, hfull]

theorem exec_gradientIntake_enters (h : ResultReady s slot red j sc run d) (hroom : areaShort s sc j red = false)
    (hfits : intakeFill s (redHand s slot sc d) = 0 ∨
      intakeFill s (redHand s slot sc d) + intakeMore s sc j.rank red ≤ intakeSize) :
    exec (.gradientIntake slot red) s = .next ((fedEntries sc j.rank red).foldl
      (fun u e => holdEntry slot (redHand s slot sc d) sc (gradWords d (qOf run d.tensor) (getRed run red)) e u)
      (intakeEntered slot (redHand s slot sc d) red d run
        (intakeFill s (redHand s slot sc d) + intakeMore s sc j.rank red) s)) := by
  obtain ⟨hj, hsc, hrun, halone, hd, hwaits, hawake⟩ := h
  have hgo : (intakeFill s (redHand s slot sc d) != 0 &&
      decide (intakeSize < intakeFill s (redHand s slot sc d) + intakeMore s sc j.rank red)) = false := by
    rcases hfits with h | h
    · simp [h]
    · simp [Nat.not_lt.mpr h]
  simp only [exec_gradientIntake, execGradientIntake, hj, hsc, hrun, hd, intakeEntered]
  rw [if_neg (by simp [hwaits, hawake, hroom]), if_neg (by simp [halone]), if_neg (by simp [hgo])]

/-- The run once a waiting gradient has entered the intake (R237, R257). -/
theorem gradientIntake_entered (h : ResultReady s slot red j sc run d) (hroom : areaShort s sc j red = false)
    (hfits : intakeFill s (redHand s slot sc d) = 0 ∨
      intakeFill s (redHand s slot sc d) + intakeMore s sc j.rank red ≤ intakeSize) :
    ∃ t r, exec (.gradientIntake slot red) s = .next t ∧ (getJob t slot).bind Job.now = some r ∧ r.bar = run.bar ∧
      r.intake = run.intake.put red (gradWords d (qOf run d.tensor) (getRed run red)) ∧ t.cores = s.cores ∧
      ((∀ e ∈ fedEntries sc j.rank red, ∀ c, entryGroup sc e.2 = some c → holdTier s (entryPages c e.2) = none) →
        t.mem = s.mem) := by
  have hentered := now_intakeEntered (redHand s slot sc d) red d
    (intakeFill s (redHand s slot sc d) + intakeMore s sc j.rank red) (run := run) (now_of_job h.job h.now)
  obtain ⟨hcores, hrun⟩ := foldl_keeps (R := IntakeKept slot) (fun _ => .of_fields rfl rfl) .trans
    (fun u e => intakeKept_holdEntry slot (redHand s slot sc d) sc
      (gradWords d (qOf run d.tensor) (getRed run red)) e u) (fedEntries sc j.rank red)
    (intakeEntered slot (redHand s slot sc d) red d run
      (intakeFill s (redHand s slot sc d) + intakeMore s sc j.rank red) s)
  obtain ⟨r, hr, heq⟩ := hrun.run hentered
  obtain ⟨hbar, hintake⟩ := Prod.mk.inj heq
  exact ⟨_, r, exec_gradientIntake_enters h hroom hfits, hr, hbar, hintake, hcores,
    fun hnear => (slotsOnly_holdEntries _ _ _ _ _ fun e he c hc =>
      (holdTier_intakeEntered ..).trans (hnear e he c hc)).mem⟩

end

end Machine

end Sys2Proof
end

section
/-! The update of elements (08 R239 to R262): the pass over an entry's elements, what one element's update writes and counts,
and the statements on the update engine. -/

namespace Sys2Proof.Machine

/-! ## A pass over the elements of an entry (R249, R254, R255) -/

/-- Only slots, page descriptors and hands may differ. -/
def PassOnly (s t : State) : Prop := { t with slots := s.slots, pages := s.pages, hands := s.hands } = s

theorem PassOnly.trans {s t u : State} (h : PassOnly s t) (k : PassOnly t u) : PassOnly s u := by
  unfold PassOnly at *
  rw [← k] at h
  exact h

theorem passOnly_pinPages (slot : Nat) (l : List Nat) (s : State) : PassOnly s (pinPages slot l s) := by
  rw [pinPages, modPages_frame]
  rfl

theorem passOnly_unhold (slot entry : Nat) (s : State) : PassOnly s (unhold slot entry s) := by
  unfold unhold
  repeat' split
  all_goals rfl

theorem runKeeps_modHand {α : Type} {π : Run → α} (slot hand : Nat) (f : Hand → Hand) (s : State) :
    RunKeeps π slot s (modHand hand f s) := .of_slots rfl

theorem runKeeps_unhold (slot entry : Nat) (s : State) : RunKeeps (·.passes) slot s (unhold slot entry s) := by
  unfold unhold
  split
  · exact .of_slots rfl
  · split
    · exact .of_slots rfl
    · refine (runKeeps_modHand ..).trans (.modNow ?_ _)
      exact fun _ => rfl

/-- A pass begins: its entry waits no more, and its pages are pinned where no area held its gradient (R257, R258). -/
def passBegun (slot entry : Nat) (pages : List Nat) (p : EntryPass) (s : State) : State :=
  if p.next = 0 && !p.second then unhold slot entry (if p.held then s else pinPages slot pages s) else s

theorem passOnly_passBegun (slot entry : Nat) (pages : List Nat) (p : EntryPass) (s : State) :
    PassOnly s (passBegun slot entry pages p s) := by
  unfold passBegun
  split
  · refine PassOnly.trans ?_ (passOnly_unhold slot entry _)
    split
    · rfl
    · exact passOnly_pinPages ..
  · rfl

theorem runKeeps_passBegun (slot entry : Nat) (pages : List Nat) (p : EntryPass) (s : State) :
    RunKeeps (·.passes) slot s (passBegun slot entry pages p s) := by
  unfold passBegun
  split
  · refine RunKeeps.trans ?_ (runKeeps_unhold slot entry _)
    split
    · exact .of_slots rfl
    · exact runKeeps_pinPages (fun _ _ => rfl) ..
  · exact .of_slots rfl

/-- A pass reads its gradient from its run, the memory and the regions. -/
theorem PassOnly.passGrad {s t : State} (h : PassOnly s t) (slot : Nat) (c : Group) (r : Run) (entry : Nat) (e : Entry)
    (gs : List Word) : passGrad t slot c r entry e gs = passGrad s slot c r entry e gs := by
  unfold PassOnly at h
  rw [← h]
  rfl

/-- The next element of an owned entry can be updated: its gradient has come, and its state and its held gradient are within
reach (R249, R257, 01 R24). -/
structure ElementReady (s : State) (slot entry : Nat) (j : Job) (sc : Score) (run : Run) (t : Entry) (c : Group)
    (gs : List Word) : Prop where
  job : getJob s slot = some j
  score : (getSlot s slot).score = some sc
  now : j.now = some run
  alone : j.ahead = none
  settled : run.look = false
  listed : sc.entries[entry]? = some t
  group : entryGroup sc t = some c
  owned : ∃ sh, sc.shards[t.shard]? = some sh ∧ sh.owner = j.rank
  gradient : run.intake.get t.red = some gs
  elements : 0 < t.elements
  undone : (getPass run entry).done = false
  pages : ∀ q ∈ entryPages c t, inReach s q = true ∧ (getPage s q).poison = false ∧ asleep s q = false
  areas : ∀ a ∈ run.areas, a.entry = entry → ∀ q ∈ rangePages (heldRanges s slot a), asleep s q = false

section

variable {s : State} {slot entry : Nat} {j : Job} {sc : Score} {run : Run} {t : Entry} {c : Group} {gs : List Word}

theorem ElementReady.areasAwake (h : ElementReady s slot entry j sc run t c gs) :
    (rangePages ((run.areas.filter fun a => a.entry == entry).flatMap (heldRanges s slot))).any (asleep s) = false := by
  rw [List.any_eq_false]
  intro q hq
  obtain ⟨r, hr, hqr⟩ := List.mem_flatMap.mp hq
  obtain ⟨a, ha, hra⟩ := List.mem_flatMap.mp hr
  obtain ⟨hmem, hentry⟩ := List.mem_filter.mp ha
  simp [h.areas a hmem (by simpa using hentry) q (List.mem_flatMap.mpr ⟨r, hra, hqr⟩)]

/-- An element that can be updated is, or its first pass forms its sum, or it waits for the other first passes. -/
theorem exec_updateElement_ready (h : ElementReady s slot entry j sc run t c gs) :
    exec (.updateElement slot entry false) s =
      let p := getPass run entry
      let u := passBegun slot entry (entryPages c t) p s
      let g := passGrad s slot c run entry t gs
      let v := updateOne slot entry c t (shardCur j t.shard) (run.etas.getD t.group (one64, one64))
        (prescaleOf sc run t.shard) (widen g) p.next u
      if c.shardMode = 2 && !p.second then .next (firstPass slot entry g t.elements u)
      else if c.shardMode = 2 && !firstPassesDone sc run t.shard then .next u
      else .next (settleShards slot (if p.next + 1 = t.elements then letArea slot entry (fun _ => true) v else v)) := by
  have hareas := h.areasAwake
  obtain ⟨hj, hsc, hrun, halone, hopen, hentry, hgroup, ⟨sh, hshard, howner⟩, hgrad, helements, hundone, hpages, -⟩ := h
  have hreach : ((entryPages c t).any fun q => !inReach s q) = false := by
    rw [List.any_eq_false]
    exact fun q hq => by simp [(hpages q hq).1]
  have hawake : ((entryPages c t).any fun q => (getPage s q).poison || asleep s q) = false := by
    rw [List.any_eq_false]
    exact fun q hq => by simp [(hpages q hq).2]
  simp only [exec_updateElement, execUpdateElement, hj, hsc, hrun, hentry, hgroup, hshard, hgrad]
  rw [if_neg (by simp [hopen, halone, howner, Nat.ne_of_gt helements, hundone]), if_neg (by simp [hreach]),
    if_neg (by simp [hawake, hareas]), if_neg Bool.false_ne_true,
    ← (passOnly_passBegun slot entry (entryPages c t) (getPass run entry) s).passGrad]
  rfl

/-- A first pass of shard mode 2 forms its sum (R255). -/
theorem exec_updateElement_first (h : ElementReady s slot entry j sc run t c gs) (hmode : c.shardMode = 2)
    (hfirst : (getPass run entry).second = false) :
    exec (.updateElement slot entry false) s = .next (firstPass slot entry (passGrad s slot c run entry t gs) t.elements
      (passBegun slot entry (entryPages c t) (getPass run entry) s)) :=
  (exec_updateElement_ready h).trans (if_pos (by simp [hmode, hfirst]))

/-- A pass whose shard needs no sum, or has it, updates its element (R249, R255). -/
theorem exec_updateElement_updates (h : ElementReady s slot entry j sc run t c gs)
    (hsum : c.shardMode = 2 → (getPass run entry).second = true ∧ firstPassesDone sc run t.shard = true) :
    exec (.updateElement slot entry false) s =
      let n := (getPass run entry).next
      let v := updateOne slot entry c t (shardCur j t.shard) (run.etas.getD t.group (one64, one64))
        (prescaleOf sc run t.shard) (widen (passGrad s slot c run entry t gs)) n
        (passBegun slot entry (entryPages c t) (getPass run entry) s)
      .next (settleShards slot (if n + 1 = t.elements then letArea slot entry (fun _ => true) v else v)) := by
  refine (exec_updateElement_ready h).trans ((if_neg ?_).trans (if_neg ?_))
  · simp only [Bool.and_eq_true, decide_eq_true_eq, Bool.not_eq_true', not_and, Bool.not_eq_false]
    exact fun hmode => (hsum hmode).1
  · simp only [Bool.and_eq_true, decide_eq_true_eq, Bool.not_eq_true', not_and, Bool.not_eq_false]
    exact fun hmode => (hsum hmode).2

end

/-! ### What is written and counted -/

/-- The weight and the momentum that the recurrence makes of an element (R239). -/
def elementNew (c : Group) (t : Entry) (cur : Nat) (eta : W64 × W64) (pre g : W64) (i : Nat) (s : State) : W64 × W64 :=
  recurrence c eta.1 eta.2 pre g (round64 (readWeight s c t cur i)) (round64 (readMoment s c t cur i))

/-- A new element stands in the alternate buffer (R242, R254). -/
def elementStored (c : Group) (t : Entry) (cur : Nat) (eta : W64 × W64) (pre g : W64) (i : Nat) (s : State) : State :=
  let x := elementNew c t cur eta pre g i s
  writeTiers (elementRanges c t (1 - cur) i) (writeElement c t (1 - cur) i (num64 x.1) (num64 x.2) s.mem) s

/-- An entry's pass after an element: the element before the update is read from `s`, the stored one from `u` (R254). -/
def passCounted (c : Group) (t : Entry) (cur : Nat) (eta : W64 × W64) (pre g : W64) (i : Nat) (s u : State)
    (p : EntryPass) : EntryPass :=
  let w := round64 (readWeight s c t cur i)
  let m := round64 (readMoment s c t cur i)
  let x := elementNew c t cur eta pre g i s
  let w' := round64 (readWeight u c t (1 - cur) i)
  let m' := round64 (readMoment u c t (1 - cur) i)
  let diff := sub64 w' w
  { p with
    next := i + 1, done := i + 1 == t.elements,
    nonfin := p.nonfin || !([mul64 g pre, w, m, x.2, x.1, w', m'].all finite64),
    parts := { w2 := add64 p.parts.w2 (mul64 w' w'), w2Old := add64 p.parts.w2Old (mul64 w w),
               g2 := if c.shardMode = 2 then p.parts.g2 else add64 p.parts.g2 (mul64 g g),
               d2 := add64 p.parts.d2 (mul64 diff diff) } }

section

variable (slot entry : Nat) (c : Group) (t : Entry) (cur : Nat) (eta : W64 × W64) (pre g : W64) (i : Nat) (s : State)

/-- An element's update stores the new one and counts it in the entry's pass. -/
theorem updateOne_eq : updateOne slot entry c t cur eta pre g i s =
    modNow slot (fun r => setPass entry (passCounted c t cur eta pre g i s (elementStored c t cur eta pre g i s)
      (getPass r entry)) r) (elementStored c t cur eta pre g i s) := rfl

theorem updateOne_mem :
    (updateOne slot entry c t cur eta pre g i s).mem = (elementStored c t cur eta pre g i s).mem := by
  rw [updateOne_eq, modNow_mem]

theorem tiersOnly_elementStored : TiersOnly s (elementStored c t cur eta pre g i s) := writeTiers_only ..

/-- An element's update changes the memory, with its pages and versions, and the run. -/
theorem updateOne_only : { updateOne slot entry c t cur eta pre g i s with
    mem := s.mem, slots := s.slots, pages := s.pages, versions := s.versions, verRoot := s.verRoot } = s := by
  have h := tiersOnly_elementStored c t cur eta pre g i s
  rw [updateOne_eq]
  generalize elementStored c t cur eta pre g i s = u at h ⊢
  unfold TiersOnly at h
  rw [← h]
  rfl

/-- The newest run after an element's update has the entry's pass counted. -/
theorem now_updateOne {run : Run} (h : (getJob s slot).bind Job.now = some run) :
    ∃ r, (getJob (updateOne slot entry c t cur eta pre g i s) slot).bind Job.now = some r ∧
      getPass r entry = passCounted c t cur eta pre g i s (elementStored c t cur eta pre g i s) (getPass run entry) := by
  have hslots := (tiersOnly_elementStored c t cur eta pre g i s).slots
  rw [updateOne_eq, now_modNow]
  simp only [getJob, getSlot, hslots] at h ⊢
  rw [h]
  exact ⟨_, rfl, Table.getD_put_self ..⟩

end

/-! ### Elements that keep no tail and no momentum (R242) -/

section

variable {c : Group} (hmstate : c.mstate = 0) (hwstate : c.wstate ≠ 0)

include hwstate in
theorem readWeight_word (s : State) (t : Entry) (buf i : Nat) :
    readWeight s c t buf i = num32 (readWord s (t.wBase + buf * t.alt + 4 * i)) := if_neg hwstate

include hmstate in
/-- Without a momentum plane the momentum is zero. -/
theorem round64_readMoment (s : State) (t : Entry) (buf i : Nat) : round64 (readMoment s c t buf i) = 0 := by
  have hzero : round64 (.fin false 0 0) = 0 := by decide
  simpa only [readMoment, hmstate] using hzero

include hmstate hwstate

theorem writeElement_word (t : Entry) (buf i : Nat) (wn mn : Num) (m : List Host.Cell) :
    writeElement c t buf i wn mn m = Mem.writeLe m (t.wBase + buf * t.alt + 4 * i) 4 (round32 wn).toNat := by
  simp only [writeElement, hmstate, if_neg hwstate]

theorem elementNew_word (t : Entry) (cur : Nat) (eta : W64 × W64) (pre g : W64) (i : Nat) (s : State) :
    elementNew c t cur eta pre g i s = recurrence c eta.1 eta.2 pre g
      (round64 (num32 (readWord s (t.wBase + cur * t.alt + 4 * i)))) 0 := by
  rw [elementNew, readWeight_word hwstate, round64_readMoment hmstate]

theorem elementStored_mem (t : Entry) (cur : Nat) (eta : W64 × W64) (pre g : W64) (i : Nat) (s : State) :
    (elementStored c t cur eta pre g i s).mem = Mem.writeLe s.mem (t.wBase + (1 - cur) * t.alt + 4 * i) 4
      (round32 (num64 (elementNew c t cur eta pre g i s).1)).toNat := by
  rw [elementStored, writeTiers_mem, writeElement_word hmstate hwstate]

/-- The stored weight reads back from the alternate buffer. -/
theorem readWord_elementStored (t : Entry) (cur : Nat) (eta : W64 × W64) (pre g : W64) (i : Nat) {s : State}
    (hwf : Mem.wf s.mem = true) :
    readWord (elementStored c t cur eta pre g i s) (t.wBase + (1 - cur) * t.alt + 4 * i) =
      round32 (num64 (elementNew c t cur eta pre g i s).1) := by
  rw [readWord, elementStored_mem hmstate hwstate]
  exact Mem.readLe_writeLe_word hwf ..

/-- Every byte but those of the stored weight stays. -/
theorem read_elementStored (t : Entry) (cur : Nat) (eta : W64 × W64) (pre g : W64) (i : Nat) (s : State) (b : Nat)
    (hb : b < t.wBase + (1 - cur) * t.alt + 4 * i ∨ t.wBase + (1 - cur) * t.alt + 4 * i + 4 ≤ b) :
    Mem.read (elementStored c t cur eta pre g i s).mem b = Mem.read s.mem b := by
  rw [elementStored_mem hmstate hwstate]
  exact Mem.read_writeN_other _ _ _ _ (by rwa [length_leBytes])

end

/-! ### After the last element -/

theorem runKeeps_letArea (slot entry : Nat) (which : HeldGrad → Bool) (s : State) :
    RunKeeps (·.passes) slot s (letArea slot entry which s) := by
  refine .modNow ?_ s
  exact fun _ => rfl

/-- Shards that take their outcome keep the passes (R255). -/
theorem runKeeps_settleShards (slot : Nat) (s : State) : RunKeeps (·.passes) slot s (settleShards slot s) := by
  unfold settleShards
  split
  · split
    · exact .of_slots rfl
    · refine foldl_keeps (R := RunKeeps _ slot) (fun _ => .of_slots rfl) .trans (fun s sh => ?_) _ s
      split
      · exact .of_slots rfl
      · simp only
        split
        · exact .of_slots rfl
        · refine .modNow ?_ s
          exact fun _ => rfl
  · exact .of_slots rfl

theorem getPass_congr {r q : Run} (h : r.passes = q.passes) (entry : Nat) : getPass r entry = getPass q entry := by
  rw [getPass, getPass, h]

/-- An updated element brings its entry's pass one element further (R249). -/
theorem updateElement_counted {s : State} {slot entry : Nat} {j : Job} {sc : Score} {run : Run} {t : Entry} {c : Group}
    {gs : List Word} (h : ElementReady s slot entry j sc run t c gs)
    (hsum : c.shardMode = 2 → (getPass run entry).second = true ∧ firstPassesDone sc run t.shard = true) :
    ∃ u r, exec (.updateElement slot entry false) s = .next u ∧ (getJob u slot).bind Job.now = some r ∧
      (getPass r entry).next = (getPass run entry).next + 1 ∧
      (getPass r entry).done = decide ((getPass run entry).next + 1 = t.elements) := by
  obtain ⟨r₀, hr₀, -⟩ := (runKeeps_passBegun slot entry (entryPages c t) (getPass run entry) s).run
    (now_of_job h.job h.now)
  obtain ⟨r₁, hr₁, hcounted⟩ := now_updateOne slot entry c t (shardCur j t.shard)
    (run.etas.getD t.group (one64, one64)) (prescaleOf sc run t.shard) (widen (passGrad s slot c run entry t gs))
    (getPass run entry).next _ hr₀
  have hlet (v : State) : RunKeeps (·.passes) slot v
      (if (getPass run entry).next + 1 = t.elements then letArea slot entry (fun _ => true) v else v) := by
    split
    · exact runKeeps_letArea ..
    · exact .of_slots rfl
  obtain ⟨r, hr, hpasses⟩ := ((hlet _).trans (runKeeps_settleShards ..)).run hr₁
  have hpass := (getPass_congr hpasses entry).trans hcounted
  exact ⟨_, r, exec_updateElement_updates h hsum, hr, congrArg EntryPass.next hpass, congrArg EntryPass.done hpass⟩

/-! ## The obligations -/

/-- Settles O34: the intake's three answers, the two kinds of passes, and the element that `updateOne` stores and counts.
That a result goes in whole where the intake is empty is the model's reading (log entry 28). -/
theorem updatesRunElementByElement : Obligations.UpdatesRunElementByElement := by
  refine ⟨?_, ?_⟩
  · intro s slot j sc run hj hsc hrun halone hlook
    refine ⟨?_, ?_⟩
    · intro red d hd hdest hdelivered hnew hawake hand fill more
      have h : ResultReady s slot red j sc run d :=
        ⟨hj, hsc, hrun, halone, hd, resultWaits_of hd hdest hdelivered hnew, hawake⟩
      refine ⟨fun hshort => ⟨exec_gradientIntake_short h hshort, h.backpressure hshort⟩, ?_, ?_⟩
      · intro hroom hsome hfull
        simpa only [satAt, bit_not] using exec_gradientIntake_full h hroom (Nat.ne_of_gt hsome) hfull
      · intro hroom hfits
        obtain ⟨t, r, hex, hr, -, hintake, hcores, hmem⟩ := gradientIntake_entered h hroom hfits
        refine ⟨t, r, hex, hr, ?_, fun i hi => ?_, hcores, hmem⟩
        · rw [hintake, Table.get_put_self]
        · rw [hintake, Table.get_put_other _ _ _ _ hi]
    · intro entry t c sh gs ht hc hsh hgs howner helements hundone hpages hareas n gr
      have h : ElementReady s slot entry j sc run t c gs :=
        ⟨hj, hsc, hrun, halone, hlook, ht, hc, ⟨sh, hsh, howner⟩, hgs, helements, hundone, hpages, hareas⟩
      refine ⟨fun hmode hfirst => ⟨_, exec_updateElement_first h hmode hfirst, passOnly_passBegun ..⟩, fun hsum => ?_⟩
      exact ⟨_, exec_updateElement_updates h fun hmode => hsum.resolve_left (not_not_intro hmode), passOnly_passBegun ..⟩
  · intro s slot entry c t cur eta pre g i j run hj hrun hwf hmstate hwstate hmode u a w new
    have hnew : round32 (num64 (elementNew c t cur eta pre g i s).1) = new := by rw [elementNew_word hmstate hwstate]
    have hword : readWord (elementStored c t cur eta pre g i s) a = new :=
      (readWord_elementStored hmstate hwstate t cur eta pre g i hwf).trans hnew
    obtain ⟨r, hr, hpass⟩ := now_updateOne slot entry c t cur eta pre g i s (now_of_job hj hrun)
    have hmem : u.mem = (elementStored c t cur eta pre g i s).mem := updateOne_mem ..
    have hold : round64 (readWeight s c t cur i) = w := by rw [readWeight_word hwstate]
    have hstored : round64 (readWeight (elementStored c t cur eta pre g i s) c t (1 - cur) i) = widen new := by
      rw [readWeight_word hwstate, ← hword]
      rfl
    refine ⟨?_, fun b hb => ?_, updateOne_only .., r, hr, ?_⟩
    · rw [← hword, readWord, hmem, readWord]
    · rw [hmem]
      exact read_elementStored hmstate hwstate t cur eta pre g i s b hb
    · rw [hpass]
      refine ⟨rfl, rfl, if_neg hmode, ?_, ?_⟩
      · simp only [passCounted, hold]
      · simp only [passCounted, hstored]

/-- Settles O52: a gradient enters by `gradientIntake_entered`, and what follows an element's update keeps its pass. -/
theorem gradientsAndElementsGoThrough : Obligations.GradientsAndElementsGoThrough := by
  intro s slot j sc run hj hsc hrun halone hlook
  refine ⟨?_, ?_⟩
  · intro red hwaits hawake hroom hfits
    obtain ⟨d, hd⟩ := reduction_of_resultWaits hwaits
    obtain ⟨t, r, hex, hr, hbar, hintake, -⟩ :=
      gradientIntake_entered ⟨hj, hsc, hrun, halone, hd, hwaits, hawake⟩ hroom (.inr (hfits d hd))
    exact ⟨t, r, hex, hr, by rw [hintake, Table.get_put_self]; rfl, hbar⟩
  · intro entry t c sh gs ht hc hsh hgs howner hnext hundone hdone hsecond hpages hareas
    have h : ElementReady s slot entry j sc run t c gs :=
      ⟨hj, hsc, hrun, halone, hlook, ht, hc, ⟨sh, hsh, howner⟩, hgs, Nat.zero_lt_of_lt hnext, hundone, hpages, hareas⟩
    exact updateElement_counted h fun hmode => ⟨hsecond hmode, hdone hmode⟩

end Sys2Proof.Machine
end

section
/-! The verdict of a bar (09 R276, R278, R279): what the combined record of a list of votes holds, and the row of R278 that it
takes. -/

namespace Sys2Proof.Machine

/-! ## Votes combined (09 R276) -/

theorem foldl_combineVote_voters (others : List Vote) (own : Vote) :
    (others.foldl combineVote own).voters = own.voters + (others.map (·.voters)).sum := by
  induction others generalizing own with
  | nil => rfl
  | cons o others ih => rw [List.foldl_cons, ih, List.map_cons, List.sum_cons, ← Nat.add_assoc]; rfl

/-- The combined outcome is finite where every device's is. -/
theorem foldl_combineVote_finite (others : List Vote) (own : Vote) :
    (others.foldl combineVote own).finite = true ↔ own.finite = true ∧ ∀ o ∈ others, o.finite = true := by
  induction others generalizing own with
  | nil => simp
  | cons o others ih =>
    rw [List.foldl_cons, ih, List.forall_mem_cons, ← and_assoc]
    exact and_congr_left' (Bool.and_eq_true_iff (x := own.finite))

/-- The combined record shows an overflow where some device's does. -/
theorem foldl_combineVote_ovf (others : List Vote) (own : Vote) :
    (others.foldl combineVote own).ovf = true ↔ own.ovf = true ∨ ∃ o ∈ others, o.ovf = true := by
  induction others generalizing own with
  | nil => simp
  | cons o others ih =>
    simp only [List.foldl_cons, ih, List.mem_cons, exists_eq_or_imp, ← or_assoc]
    exact or_congr_left (Bool.or_eq_true_iff (x := own.ovf))

/-- Single votes count as many as there are devices. -/
theorem voters_of_single {others : List Vote} {own : Vote} (hown : own.voters = 1) (hothers : ∀ o ∈ others, o.voters = 1) :
    (others.foldl combineVote own).voters = others.length + 1 := by
  rw [foldl_combineVote_voters, hown, List.map_congr_left hothers, List.map_const', List.sum_replicate_nat,
    Nat.mul_one, Nat.add_comm]

/-! ## The rows of R278, in their order -/

section

variable {trains : Bool} {v : Vote}

theorem verdictOf_cause (hc : v.cause ≠ 0) : verdictOf trains v = 4 := by simp [verdictOf, hc]

theorem verdictOf_overflow (hc : v.cause = 0) (ho : v.ovf = true) : verdictOf trains v = if trains then 2 else 3 := by
  simp [verdictOf, hc, ho]

theorem verdictOf_notFinite (hc : v.cause = 0) (ho : v.ovf = false) (hm : v.mode = true) (hf : v.finite = false) :
    verdictOf trains v = 2 := by simp [verdictOf, hc, ho, hm, hf]

theorem verdictOf_commit (hc : v.cause = 0) (ho : v.ovf = false) (h : v.mode = false ∨ v.finite = true) :
    verdictOf trains v = 1 := by
  rcases h with h | h <;> simp [verdictOf, hc, ho, h]

end

/-- Once every device's vote is in, the verdict takes effect at once (09 R279). -/
theorem exec_downbeatVerdict_voted {s : State} {slot : Nat} {j : Job} {sc : Score} {r : Run} {own : Vote}
    {others : List Vote} (block : OutBlock) (hslot : slot < 128) (hk : timekeeper s = true) (hj : getJob s slot = some j)
    (hsc : (getSlot s slot).score = some sc) (hr : j.cur = some r) (hv : r.voted = some own)
    (hall : others.length + 1 = sc.replicas) :
    let v := others.foldl combineVote own
    exec (.downbeatVerdict slot others block) s = .next (applyVerdict slot (verdictOf (scoreTrains sc) v) v.cause
      v.ovfTensor (mergeBlock (ownBlock sc j r) block) s) := by
  simp [exec_downbeatVerdict, execDownbeatVerdict, Nat.not_le.mpr hslot, hk, hj, hsc, hr, hv, hall]

/-! ## The obligation -/

/-- Settles O36: the verdict that forms is `verdictOf` of the combined record, and each row of R278 is a case of it. -/
theorem verdictsFollowTheVotes : Obligations.VerdictsFollowTheVotes := by
  intro s slot j sc r own others block hslot hk hj hsc hr hv hall v b ends
  have hends : ∀ {n}, verdictOf (scoreTrains sc) v = n → ends n := fun h =>
    h ▸ exec_downbeatVerdict_voted block hslot hk hj hsc hr hv hall
  refine ⟨fun hc => hends (verdictOf_cause hc), fun hc ho ht => hends ?_, fun hc ho ht => hends ?_,
    fun hc ho hm hf => hends (verdictOf_notFinite hc ho hm hf), fun hc ho h => hends (verdictOf_commit hc ho h),
    foldl_combineVote_voters .., fun hown hothers => (voters_of_single hown hothers).trans hall,
    foldl_combineVote_finite .., foldl_combineVote_ovf ..⟩
  · rw [verdictOf_overflow hc ho, ht]
    rfl
  · rw [verdictOf_overflow hc ho, ht]
    rfl

end Sys2Proof.Machine
end

section
/-! An aborted bar leaves the committed state (09 R272, R277, R283, R286): a relation that the discarding of runs keeps, slot by
slot, where the containment of a fault speaks of every job. -/

namespace Sys2Proof

/-- A change of the values of a table changes what a read finds, and no key. -/
theorem Table.get_map_values {α β : Type} (f : α → β) (t : Table α) (k : Nat) :
    Table.get (t.map fun p => (p.1, f p.2)) k = (t.get k).map f := by
  induction t with
  | nil => rfl
  | cons p t ih =>
    rw [List.map_cons, Table.get_cons, Table.get_cons, ih]
    split <;> rfl

namespace Machine

/-! ## What an abort keeps of a job -/

/-- Runs only go, and what verdicts have committed stays. -/
structure Job.KeepsCommitted (x y : Job) : Prop where
  cur : y.cur = x.cur ∨ y.cur = none := by exact .inl rfl
  ahead : y.ahead = x.ahead ∨ y.ahead = none := by exact .inl rfl
  done : y.done = x.done := by rfl
  strictNext : y.strictNext = x.strictNext := by rfl
  regionCur : y.regionCur = x.regionCur := by rfl
  shards : ∀ sh, (y.shards.get sh).map (fun v => (v.cur, v.ver)) = (x.shards.get sh).map (fun v => (v.cur, v.ver)) := by
    exact fun _ => rfl

namespace Job.KeepsCommitted

variable {x y z : Job}

theorem refl (x : Job) : x.KeepsCommitted x := {}

theorem trans (h : x.KeepsCommitted y) (k : y.KeepsCommitted z) : x.KeepsCommitted z where
  cur := k.cur.elim (fun e => h.cur.imp e.trans e.trans) .inr
  ahead := k.ahead.elim (fun e => h.ahead.imp e.trans e.trans) .inr
  done := k.done.trans h.done
  strictNext := k.strictNext.trans h.strictNext
  regionCur := k.regionCur.trans h.regionCur
  shards sh := (k.shards sh).trans (h.shards sh)

end Job.KeepsCommitted

/-- The runs of a slot have taken no session page. -/
def SlotTakesNoPages (slot : Nat) (s : State) : Prop :=
  ∀ r, (getJob s slot).bind (·.cur) = some r ∨ (getJob s slot).bind (·.ahead) = some r → r.kvNew = []

/-- What the discarding of a slot's runs may do: every job keeps what is committed, and regions go only where a run of the
slot took session pages. -/
structure Discarded (slot : Nat) (s t : State) : Prop where
  regions : SlotTakesNoPages slot s → t.regions = s.regions
  jobs : JobsBy Job.KeepsCommitted s t

namespace Discarded

variable {slot : Nat} {s t u : State}

theorem refl (s : State) : Discarded slot s s := ⟨fun _ => rfl, .of_slots .refl rfl⟩

theorem of_beside (h : Beside s t) : Discarded slot s t := ⟨fun _ => h.regions, .of_slots .refl h.slots⟩

theorem modJob (i : Nat) {f : Job → Job} (s : State) (hf : ∀ j : Job, j.KeepsCommitted (f j) := by exact fun _ => {}) :
    Discarded slot s (modJob i f s) := ⟨fun _ => rfl, .modJob .refl i hf s⟩

/-- The job of a slot afterwards. -/
theorem job (h : Discarded slot s t) {i : Nat} {x : Job} (hx : getJob s i = some x) :
    ∃ y, getJob t i = some y ∧ x.KeepsCommitted y := by
  obtain ⟨f, hf, hy⟩ := h.jobs.job i
  exact ⟨f x, by rw [hy, hx]; rfl, hf x⟩

/-- Runs only go. -/
theorem takesNoPages (h : Discarded slot s t) (hs : SlotTakesNoPages slot s) : SlotTakesNoPages slot t := by
  obtain ⟨f, hf, hy⟩ := h.jobs.job slot
  rw [SlotTakesNoPages, hy]
  cases hx : getJob s slot with
  | none => simp
  | some x =>
    rw [SlotTakesNoPages, hx] at hs
    rintro r (hr | hr)
    · exact hs r (.inl ((hf x).cur.elim (fun e => e.symm.trans hr) fun e => absurd (e.symm.trans hr) (by simp)))
    · exact hs r (.inr ((hf x).ahead.elim (fun e => e.symm.trans hr) fun e => absurd (e.symm.trans hr) (by simp)))

theorem trans (h : Discarded slot s t) (k : Discarded slot t u) : Discarded slot s u :=
  ⟨fun hs => (k.regions (h.takesNoPages hs)).trans (h.regions hs), h.jobs.trans .trans k.jobs⟩

theorem foldl {α : Type} {f : State → α → State} (hf : ∀ s a, Discarded slot s (f s a)) (l : List α) (s : State) :
    Discarded slot s (l.foldl f s) := foldl_keeps refl trans hf l s

/-- No look-ahead run opens. -/
theorem ahead_none (h : Discarded slot s t) (hs : (getJob s slot).bind (·.ahead) = none) :
    (getJob t slot).bind (·.ahead) = none := by
  obtain ⟨f, hf, hy⟩ := h.jobs.job slot
  rw [hy]
  cases hx : getJob s slot with
  | none => rfl
  | some x => exact (hf x).ahead.elim (·.trans (by simpa [hx] using hs)) id

end Discarded

/-! ## Runs discarded -/

section

variable {slot : Nat}

theorem discarded_unadmit (r : Run) {s : State} (hr : SlotTakesNoPages slot s → r.kvNew = []) :
    Discarded slot s (unadmit r slot s) := by
  rw [unadmit_eq]
  have hreadmit : Discarded slot s (r.admits.foldl (readmit slot) s) :=
    .foldl (fun s a => Discarded.trans (.of_beside {}) (.modJob slot _)) _ s
  have hwait : Discarded slot s (rewait r (r.admits.foldl (readmit slot) s)) := hreadmit.trans (.of_beside {})
  have hpages := Released.foldl released_releaseSessionPage r.kvNew (rewait r (r.admits.foldl (readmit slot) s))
  refine ⟨fun hs => ?_, hwait.jobs.trans .trans (.of_slots .refl hpages.slots)⟩
  rw [hr hs]
  exact hwait.regions hs

theorem discarded_dropFrames (bar run : Nat) (s : State) : Discarded slot s (dropFrames slot bar run s) := by
  unfold dropFrames
  split
  · exact .refl s
  · have hcoll (s : State) : Discarded slot s _ := .modJob slot (f := fun j => { j with
      coll := j.coll.filter fun c => !(decide (c.code ≤ 3) && c.bar == bar && c.run == run % 256) }) s
    exact ((Discarded.of_beside (beside_returnFrames _ s)).trans (hcoll _)).trans (.of_beside {})

theorem discarded_discardRun (r : Run) {s : State} (hr : SlotTakesNoPages slot s → r.kvNew = []) :
    Discarded slot s (discardRun slot r s) := by
  have hunpin : Beside s (unpinPages r.pins s) := {}
  have hhold (l : List (Nat × Nat × Nat)) (s : State) := Beside.foldl (f := fun s w =>
    modHand w.2.2 (fun h => { h with holdEntries := h.holdEntries - 1 }) s) (fun s w => beside_modHand _ _ s) l s
  exact (((Discarded.of_beside hunpin).trans (discarded_unadmit r hr)).trans (.of_beside (hhold _ _))).trans
    (discarded_dropFrames ..)

/-- The cores stop, the traffic goes and a run of the slot is discarded. -/
theorem discarded_stopped (keep : Nat × Nat → Bool) {r : Run} {s : State}
    (hr : (getJob s slot).bind (·.cur) = some r ∨ (getJob s slot).bind (·.ahead) = some r) :
    Discarded slot s (discardRun slot r (dropTraffic slot keep (stopCores slot s))) := by
  have hstop := (beside_stopCores slot s).trans (beside_dropTraffic slot keep _)
  refine (Discarded.of_beside hstop).trans (discarded_discardRun r fun hs => hs r ?_)
  simpa [getJob, getSlot, hstop.slots] using hr

/-- Shards that are looked at in their current buffers keep these and their versions. -/
theorem shards_lookAtCurrent (t : Table ShardVer) (sh : Nat) :
    (Table.get (t.map fun p => (p.1, { p.2 with look := p.2.cur })) sh).map (fun v => (v.cur, v.ver)) =
      (t.get sh).map fun v => (v.cur, v.ver) :=
  (congrArg (Option.map _) (Table.get_map_values (fun v : ShardVer => { v with look := v.cur }) t sh)).trans
    (Option.map_map ..)

theorem discarded_dropLook (s : State) : Discarded slot s (dropLook slot s) := by
  unfold dropLook
  split
  · exact .refl s
  · rename_i r hr
    exact (discarded_stopped _ (.inr hr)).trans (.modJob slot _ fun j =>
      { ahead := .inr rfl, shards := shards_lookAtCurrent j.shards })

theorem dropLook_ahead (s : State) : (getJob (dropLook slot s) slot).bind (·.ahead) = none := by
  unfold dropLook
  split
  · assumption
  · simp

/-- After the look-ahead run the open bar's goes. -/
theorem discarded_dropRuns_dropLook (s : State) : Discarded slot (dropLook slot s) (dropRuns slot s) := by
  unfold dropRuns
  simp only
  split
  · exact .refl _
  · rename_i r hr
    exact (discarded_stopped _ (.inl hr)).trans (.modJob slot _ fun j => { cur := .inr rfl })

theorem discarded_dropUnseen (r : Run) (seen : Bool) (s : State) : Discarded slot s (dropUnseen slot r seen s) := by
  unfold dropUnseen
  split
  · split
    · exact .refl s
    · exact (discarded_dropFrames ..).trans (.modJob slot _)
  · exact .refl s

/-- An aborted bar keeps what is committed and leaves no run, and what opens next is what `Job.abortedAt` says. -/
theorem abortBar_discards {s : State} {j : Job} {r : Run} (cause : Nat) (hj : getJob s slot = some j)
    (hr : j.cur = some r) :
    ∃ y, getJob (abortBar slot cause s) slot = some (y.abortedAt r cause) ∧ j.KeepsCommitted y ∧ y.ahead = none ∧
      (SlotTakesNoPages slot s → (abortBar slot cause s).regions = s.regions) := by
  obtain ⟨seen, heq⟩ := abortBar_open (s := s) (slot := slot) (r := r) (by rw [hj]; exact hr) cause
  have hlook : Discarded slot s (dropLook slot (abortLogged slot cause r s)) :=
    (Discarded.of_beside (beside_abortLogged slot cause r s)).trans (discarded_dropLook _)
  have hruns := (discarded_dropRuns_dropLook (slot := slot) (abortLogged slot cause r s)).trans
    (discarded_dropUnseen r seen _)
  obtain ⟨y, hy, hkeeps⟩ := (hlook.trans hruns).job hj
  have hahead := hruns.ahead_none (dropLook_ahead _)
  rw [hy] at hahead
  rw [heq, getJob_modJob, hy]
  exact ⟨y, rfl, hkeeps, hahead, (hlook.trans hruns).regions⟩

end

/-! ## The obligation -/

/-- Settles O37: `contained_abortBar` gives memory and the regions left, `abortBar_discards` the rest. -/
theorem abortedBarsLeaveCommittedState : Obligations.AbortedBarsLeaveCommittedState := by
  intro s slot cause j r hj hr t
  obtain ⟨hcontained, hcur⟩ := contained_abortBar (code := 0) (p := 0) slot cause s
  obtain ⟨y, hy, hkeeps, hahead, hregions⟩ := abortBar_discards cause hj hr
  rw [hy] at hcur
  refine ⟨hcontained.mem, hcontained.regions, fun hnew hnewAhead => hregions ?_, _, hy, hcur, hahead, rfl, hkeeps.done, rfl,
    rfl, ?_, hkeeps.regionCur, hkeeps.shards⟩
  · rw [SlotTakesNoPages, hj]
    rintro q (hq | hq)
    · obtain rfl : r = q := Option.some.inj (hr.symm.trans hq)
      exact hnew
    · exact hnewAhead q hq
  · exact congrArg (· || cause == 1 || cause == 3) hkeeps.strictNext

end Machine

end Sys2Proof
end

section
/-! A bar and a look-ahead run open (09 R281, R282, R286; 02 R41): what the rows of a run, its fresh cores and a ghost's timer
leave of the job, and the run that then stands in it. -/

namespace Sys2Proof.Machine

/-! ## The rows that a run opens with (13 R375, R377, R384) -/

/-- A job differs at most in the requests on its rows. -/
def Job.RowsOnly (x y : Job) : Prop := { y with rowReq := x.rowReq } = x

theorem Job.RowsOnly.refl (j : Job) : j.RowsOnly j := rfl

theorem Job.rowsOnly_put (row id : Nat) (j : Job) : j.RowsOnly { j with rowReq := j.rowReq.put row id } := rfl

theorem Job.RowsOnly.trans {a b c : Job} (h : a.RowsOnly b) (k : b.RowsOnly c) : a.RowsOnly c := by
  unfold Job.RowsOnly at *
  rw [← k] at h
  exact h

theorem Job.RowsOnly.eq {x y : Job} (h : x.RowsOnly y) : y = { x with rowReq := y.rowReq } := by
  unfold Job.RowsOnly at h
  rw [← h]

/-- Partitions stay, and jobs but for the requests on their rows. -/
structure RowsTaken (s t : State) : Prop where
  parts : t.parts = s.parts
  jobs : JobsBy Job.RowsOnly s t

namespace RowsTaken

variable {s t u : State}

theorem of_fields (hparts : t.parts = s.parts) (hslots : t.slots = s.slots) : RowsTaken s t :=
  ⟨hparts, .of_slots .refl hslots⟩

theorem refl (s : State) : RowsTaken s s := of_fields rfl rfl

theorem of_beside (h : Beside s t) : RowsTaken s t := of_fields h.parts h.slots

theorem trans (h : RowsTaken s t) (k : RowsTaken t u) : RowsTaken s u :=
  ⟨k.parts.trans h.parts, h.jobs.trans .trans k.jobs⟩

theorem foldl {α : Type} {f : State → α → State} (hf : ∀ s a, RowsTaken s (f s a)) (l : List α) (s : State) :
    RowsTaken s (l.foldl f s) := foldl_keeps refl trans hf l s

/-- The job of a slot afterwards. -/
theorem job (h : RowsTaken s t) {slot : Nat} {j : Job} (hj : getJob s slot = some j) :
    ∃ rows, getJob t slot = some { j with rowReq := rows } := by
  obtain ⟨f, hf, ht⟩ := h.jobs.job slot
  exact ⟨(f j).rowReq, by rw [ht, hj, Option.map_some, ← (hf j).eq]⟩

end RowsTaken

theorem rowsTaken_askPromotion (q : PromoReq) (s : State) : RowsTaken s (askPromotion q s) := by
  have h := movesOnly_askPromotion q s
  exact .of_fields (congrArg State.parts h :) h.fields.1

theorem rowsTaken_askPromotions {α : Type} (q : α → PromoReq) (l : List α) (s : State) :
    RowsTaken s (l.foldl (fun s n => askPromotion (q n) s) s) := .foldl (fun _ _ => rowsTaken_askPromotion ..) l s

theorem rowsTaken_promoteAdapt (id : Nat) (s : State) : RowsTaken s (promoteAdapt id s) := by
  unfold promoteAdapt
  split
  · exact .refl s
  · refine .foldl (fun s n => ?_) _ s
    split
    · exact .refl s
    · exact rowsTaken_askPromotion ..

theorem rowsTaken_putRow (slot row id : Nat) (s : State) :
    RowsTaken s (modJob slot (fun j => { j with rowReq := j.rowReq.put row id }) s) :=
  ⟨rfl, .modJob Job.RowsOnly.refl slot (fun j => j.rowsOnly_put row id) s⟩

theorem rowsTaken_admitTo (slot B row id : Nat) (q : Request) (s : State) : RowsTaken s (admitTo slot B row id q s) := by
  unfold admitTo
  extract_lets size held taken asked
  have htaken : RowsTaken s taken :=
    RowsTaken.trans (t := held) (.of_fields rfl rfl) (rowsTaken_putRow slot row id held)
  have hasked : RowsTaken taken asked := by
    simp only [asked]
    split
    · exact rowsTaken_askPromotions ..
    · exact .refl _
  split
  · exact (htaken.trans hasked).trans (rowsTaken_promoteAdapt ..)
  · exact htaken.trans hasked

/-- A request is passed over, ends late, finds the rows full, or takes one (13 R382). -/
theorem rowsTaken_admitAll (slot B : Nat) (g : GenBlock) (full : Bool) (l : List (Nat × Request)) (s : State) :
    RowsTaken s (admitAll slot B g full l s).1 := by
  fun_induction admitAll slot B g full l s with
  | case1 => exact .refl _
  | case2 _ _ _ _ _ _ ih => exact ih
  | case3 _ _ _ _ _ _ _ _ _ ih => exact RowsTaken.trans (by exact .of_fields rfl rfl) ih
  | case4 => assumption
  | case5 => assumption
  | case6 => exact (rowsTaken_admitTo ..).trans ‹_›

/-! ## Session pages -/

theorem rowsTaken_setPool (s : State) (i : Nat) (p : Pool) : RowsTaken s (setPool s i p) := by
  unfold setPool
  repeat' split
  all_goals exact .of_fields rfl rfl

theorem rowsTaken_modPage (n : Nat) (f : PageDesc → PageDesc) (s : State) : RowsTaken s (modPage n f s) :=
  .of_fields rfl rfl

theorem rowsTaken_takeFrames {pool : Nat} {l : List Nat} {s t : State} (h : takeFrames pool l s = some t) :
    RowsTaken s t := by
  induction l generalizing s with
  | nil => exact Option.some.inj h ▸ .refl s
  | cons n l ih =>
    simp only [takeFrames] at h
    split at h
    · cases h
    · exact ((rowsTaken_setPool ..).trans (rowsTaken_modPage ..)).trans (ih h)

theorem rowsTaken_newKvPage {sid : Nat} {g : GenSess} {s t : State} (h : newKvPage sid g s = some t) : RowsTaken s t := by
  simp only [newKvPage] at h
  repeat' split at h
  any_goals cases h
  rename_i hframes
  exact (rowsTaken_takeFrames hframes).trans (.of_fields rfl rfl)

theorem rowsTaken_makeRoom (pool : Nat) (s : State) : RowsTaken s (makeRoom pool s) := by
  unfold makeRoom
  repeat' split
  · exact rowsTaken_modPage ..
  · exact .of_beside (beside_freeFrame ..)
  · exact .refl s

theorem rowsTaken_kvPageReady (sid i : Nat) (s : State) : RowsTaken s (kvPageReady sid i s).1 := by
  unfold kvPageReady
  split
  · exact .refl s
  · split
    · simp only
      split
      · exact .refl s
      · exact rowsTaken_askPromotions ..
    · split
      · exact .refl s
      · split
        · exact rowsTaken_newKvPage ‹_›
        · simp only
          split
          · exact rowsTaken_makeRoom ..
          · exact .refl s

theorem rowsTaken_feedReady (sid : Nat) (f : RowFeed) (s : State) : RowsTaken s (feedReady sid f s).1 :=
  foldl_keeps (R := fun a b : State × Bool => RowsTaken a.1 b.1) (fun _ => .refl _) .trans
    (f := fun a i => ((kvPageReady sid i a.1).1, a.2 && (kvPageReady sid i a.1).2))
    (fun a i => rowsTaken_kvPageReady sid i a.1) _ (s, true)

theorem rowsTaken_openFeeds (slot : Nat) (g : GenBlock) (open_ : Option Run) (s : State) :
    RowsTaken s (openFeeds slot g open_ s).1 := by
  refine foldl_keeps (R := fun a b : State × Table RowFeed × List Nat => RowsTaken a.1 b.1) (fun _ => .refl _) .trans
    (fun a p => ?_) _ (s, [], [])
  split
  · exact .refl _
  · exact rowsTaken_feedReady ..

theorem rowsTaken_storeAt (a : Nat) (bs : List Byte) (s : State) : RowsTaken s (storeAt a bs s) := by
  have h := storeAt_only a bs s
  exact .of_fields (congrArg State.parts h :) h.slots

theorem rowsTaken_writeRowBlock (slot row : Nat) (look wr : Bool) (bytes : List Byte) (s : State) :
    RowsTaken s (writeRowBlock slot row look wr bytes s) := by
  unfold writeRowBlock
  split
  · exact rowsTaken_storeAt ..
  · exact .refl s

theorem rowsTaken_writeRowBlocks (slot : Nat) (look wr : Bool) (bytes : State → Nat → List Byte) (l : List Nat)
    (s : State) : RowsTaken s (l.foldl (fun s r => writeRowBlock slot r look wr (bytes s r) s) s) :=
  .foldl (fun s r => rowsTaken_writeRowBlock slot r look wr (bytes s r) s) l s

theorem rowsTaken_modPages (l : List Nat) (f : PageDesc → PageDesc) (s : State) : RowsTaken s (modPages l f s) := by
  rw [modPages_frame]
  exact .of_fields rfl rfl

/-- The rows of a run that opens. -/
theorem rowsTaken_openRows (slot B : Nat) (look : Bool) (open_ : Option Run) (run : Run) (s : State) :
    RowsTaken s (openRows slot B look open_ run s).1 := by
  unfold openRows
  split
  · exact .refl s
  · rename_i g _
    exact (((rowsTaken_admitAll slot B g false _ s).trans (rowsTaken_openFeeds slot g open_ _)).trans
      (rowsTaken_writeRowBlocks ..)).trans (rowsTaken_modPages ..)

/-- A run with its rows is the run but for what its rows bring. -/
theorem openRows_run (slot B : Nat) (look : Bool) (open_ : Option Run) (run : Run) (s : State) :
    ∃ feeds admits lates kvNew pins stalls,
      (openRows slot B look open_ run s).2 = { run with feeds, admits, lates, kvNew, pins, stalls } := by
  unfold openRows
  split
  · exact ⟨_, _, _, _, _, _, rfl⟩
  · exact ⟨_, _, _, _, _, _, rfl⟩

/-! ## Fresh cores (02 R41, 07 R232) -/

theorem slotPart_congr {s t : State} (h : t.parts = s.parts) (slot : Nat) : slotPart t slot = slotPart s slot := by
  simp only [slotPart, h]

/-- A change of cores alone leaves slots and partitions. -/
theorem coresOnly_foldl {α : Type} (key : α → Nat) (f : α → Core → Core) (l : List α) (s : State) :
    (l.foldl (fun s a => modCore (key a) (f a) s) s).slots = s.slots ∧
      (l.foldl (fun s a => modCore (key a) (f a) s) s).parts = s.parts :=
  foldl_keeps (R := fun s t : State => t.slots = s.slots ∧ t.parts = s.parts) (fun _ => ⟨rfl, rfl⟩)
    (fun h k => ⟨k.1.trans h.1, k.2.trans h.2⟩) (f := fun s a => modCore (key a) (f a) s) (fun _ _ => ⟨rfl, rfl⟩) l s

theorem getJob_congr {s t : State} (h : t.slots = s.slots) (slot : Nat) : getJob t slot = getJob s slot := by
  simp only [getJob, getSlot, h]

/-- Fresh cores drop the shadow checks that are pending, and leave everything else of the slots and partitions. -/
theorem freshCores_cases (slot : Nat) (s : State) :
    freshCores slot s = s ∨
      ∃ n, (freshCores slot s).slots = (dropChecks slot n s).slots ∧
        (freshCores slot s).parts = (dropChecks slot n s).parts := by
  unfold freshCores
  split
  · exact .inr ⟨_, coresOnly_foldl ..⟩
  · exact .inl rfl

theorem dropChecks_parts (slot n : Nat) (s : State) : (dropChecks slot n s).parts = s.parts := by
  unfold dropChecks
  split <;> rfl

theorem freshCores_parts (slot : Nat) (s : State) : (freshCores slot s).parts = s.parts := by
  rcases freshCores_cases slot s with h | ⟨n, -, h⟩
  · rw [h]
  · exact h.trans (dropChecks_parts ..)

/-- With no bar open the dropped checks count in the job. -/
theorem freshCores_job_closed {s : State} {slot : Nat} {j : Job} (hj : getJob s slot = some j) (hc : j.cur = none) :
    ∃ n, getJob (freshCores slot s) slot = some { j with shadowDrop := n } := by
  rcases freshCores_cases slot s with h | ⟨n, h, -⟩
  · exact ⟨j.shadowDrop, by rw [h, hj]⟩
  · refine ⟨satAt 0xFFFF (j.shadowDrop + n), (getJob_congr h slot).trans ?_⟩
    simp only [dropChecks, hj, hc, Option.bind_some, getJob_modJob, Option.map_some]

/-- With a bar open and no look-ahead run they count in its run. -/
theorem freshCores_job_open {s : State} {slot : Nat} {j : Job} {r : Run} (hj : getJob s slot = some j)
    (hc : j.cur = some r) (ha : j.ahead = none) :
    ∃ n, getJob (freshCores slot s) slot = some { j with cur := some { r with shadowDrop := n } } := by
  rcases freshCores_cases slot s with h | ⟨n, h, -⟩
  · exact ⟨r.shadowDrop, by rw [h, hj, ← hc]⟩
  · refine ⟨r.shadowDrop + n, (getJob_congr h slot).trans ?_⟩
    simp only [dropChecks, modNow, hj, hc, ha, Option.bind_some, getJob_modJob, Option.map_some]

/-! ## A ghost that starts (02 R59, R61) -/

/-- The ghost whose bar opens runs where its cores rest, and its timer with it. -/
def ghostStarts (slot : Nat) (s : State) : State :=
  match slotPart s slot with
  | some (p, true) => tickGhost p (startGhost p s)
  | _ => s

theorem startGhost_slots (p : Nat) (s : State) : (startGhost p s).slots = s.slots := by
  unfold startGhost
  simp only
  repeat' split
  · rfl
  · exact (coresOnly_foldl ..).1
  · rfl

theorem Run.unpaused {r : Run} (h : r.pausedAt = none) : { r with pausedAt := none } = r := by rw [← h]

/-- A ghost's timer changes at most the time of a pause in a run that has none. -/
theorem tickGhost_job {s : State} {slot : Nat} {j : Job} {r : Run} (p : Nat) (hj : getJob s slot = some j)
    (hr : j.cur = some r) (hp : r.pausedAt = none) :
    ∃ a ahead, getJob (tickGhost p s) slot = some { j with cur := some { r with pausedAt := a }, ahead } := by
  unfold tickGhost
  split
  · exact ⟨none, j.ahead, by rw [Run.unpaused hp, hj, ← hr]⟩
  · rename_i g _
    by_cases h : slot = g
    · subst h
      simp only [getJob_modJob, hj, Option.map_some, hr, hp]
      cases ghostPaused s slot
      · exact ⟨none, _, by rw [Run.unpaused hp]; rfl⟩
      · exact ⟨some s.ptp.now, _, rfl⟩
    · exact ⟨none, j.ahead, by rw [Run.unpaused hp, ← hr]; exact (getJob_modJob_other _ _ _ _ h).trans hj⟩

/-- A run that has just opened differs at most in the time of its ghost's pause, and only a ghost's does. -/
theorem ghostStarts_job {s : State} {slot : Nat} {j : Job} {r : Run} (hj : getJob s slot = some j) (hr : j.cur = some r)
    (hp : r.pausedAt = none) :
    ∃ a ahead, getJob (ghostStarts slot s) slot = some { j with cur := some { r with pausedAt := a }, ahead } ∧
      ((∀ p, slotPart s slot ≠ some (p, true)) → a = none) := by
  unfold ghostStarts
  split
  · rename_i p hghost
    obtain ⟨a, ahead, h⟩ := tickGhost_job p ((getJob_congr (startGhost_slots p s) slot).trans hj) hr hp
    exact ⟨a, ahead, h, fun hnone => absurd hghost (hnone p)⟩
  · exact ⟨none, j.ahead, by rw [Run.unpaused hp, hj, ← hr], fun _ => rfl⟩

/-! ## A bar opens (09 R281, R286) -/

section

variable {s : State} {slot : Nat} {j : Job} {sc : Score}

/-- The run of a bar that opens, with the state that its rows leave. -/
def barRows (slot : Nat) (sc : Score) (j : Job) (s : State) : State × Run :=
  openRows slot j.nextBar false none ((startRun sc j j.nextBar j.runs false s.ptp.now).withScales sc j.hists j.cold) s

theorem barRows_run (slot : Nat) (sc : Score) (j : Job) (s : State) :
    ∃ feeds admits lates kvNew pins stalls, (barRows slot sc j s).2 =
      { (startRun sc j j.nextBar j.runs false s.ptp.now).withScales sc j.hists j.cold with
        feeds, admits, lates, kvNew, pins, stalls } := openRows_run ..

/-- The state in which the run of a bar stands in its job. -/
def barOpened (slot : Nat) (sc : Score) (j : Job) (s : State) : State :=
  ghostStarts slot (modJob slot (fun k => { k with cur := some (barRows slot sc j s).2, runs := k.runs + 1 })
    (freshCores slot (barRows slot sc j s).1))

theorem exec_barOpen_may (hslot : slot < 128) (hk : timekeeper s = true) (hj : getJob s slot = some j)
    (hsc : (getSlot s slot).score = some sc) (hmay : mayOpen s slot sc j = true) :
    exec (.barOpen slot) s = .next (enterRun slot sc j.hists j.cold (barRows slot sc j s).2 (barOpened slot sc j s)) := by
  simp only [exec_barOpen, execBarOpen, Nat.not_le.mpr hslot, hk, hj, hsc, hmay, Bool.not_true, Bool.false_eq_true, if_false]
  rfl

theorem mayOpen_cur (h : mayOpen s slot sc j = true) : j.cur = none := by
  cases hc : j.cur with
  | none => rfl
  | some r => simp [mayOpen, hc] at h

/-- The run stands in the job with the job's next run number taken. -/
theorem barOpened_job (hj : getJob s slot = some j) (hc : j.cur = none) (hp : (barRows slot sc j s).2.pausedAt = none) :
    ∃ k a, getJob (barOpened slot sc j s) slot = some k ∧ k.runs = j.runs + 1 ∧
      k.cur = some { (barRows slot sc j s).2 with pausedAt := a } ∧
      ((∀ p, slotPart s slot ≠ some (p, true)) → a = none) := by
  have hrows : RowsTaken s (barRows slot sc j s).1 := rowsTaken_openRows ..
  obtain ⟨rows, hrowsJob⟩ := hrows.job hj
  obtain ⟨n, hfresh⟩ := freshCores_job_closed hrowsJob hc
  obtain ⟨a, ahead, hjob, hghost⟩ := ghostStarts_job (s := modJob slot (fun k => { k with
      cur := some (barRows slot sc j s).2, runs := k.runs + 1 }) (freshCores slot (barRows slot sc j s).1))
    (by rw [getJob_modJob, hfresh, Option.map_some]) rfl hp
  have hparts := (freshCores_parts slot _).trans hrows.parts
  exact ⟨_, a, hjob, rfl, rfl, fun hnone => hghost fun p hp => hnone p ((slotPart_congr hparts slot).symm.trans hp)⟩

/-! ## A look-ahead run opens (09 R282) -/

/-- The histories that the commit of the open bar would leave. -/
def lookHists (j : Job) (cur : Run) : List Hist × Nat := histsAfter j.cold j.hists (cur.combined.getD []) true

/-- A look-ahead run that opens, with the state that its rows leave. -/
def lookRows (slot : Nat) (sc : Score) (j : Job) (cur : Run) (s : State) : State × Run :=
  openRows slot (cur.bar + 1) true (some cur)
    ((startRun sc j (cur.bar + 1) j.runsNext true s.ptp.now).withScales sc (lookHists j cur).1 (lookHists j cur).2)
    (modJob slot (fun k => { k with shards := lookIndices sc k cur }) s)

theorem lookRows_run (slot : Nat) (sc : Score) (j : Job) (cur : Run) (s : State) :
    ∃ feeds admits lates kvNew pins stalls, (lookRows slot sc j cur s).2 =
      { (startRun sc j (cur.bar + 1) j.runsNext true s.ptp.now).withScales sc (lookHists j cur).1 (lookHists j cur).2 with
        feeds, admits, lates, kvNew, pins, stalls } := openRows_run ..

/-- The state in which a look-ahead run stands in its job. -/
def lookOpened (slot : Nat) (sc : Score) (j : Job) (cur : Run) (s : State) : State :=
  modJob slot (fun k => { k with ahead := some (lookRows slot sc j cur s).2, runsNext := k.runsNext + 1 })
    (freshCores slot (lookRows slot sc j cur s).1)

theorem exec_lookaheadOpen_may {cur : Run} (hslot : slot < 128) (hk : timekeeper s = true) (hj : getJob s slot = some j)
    (hsc : (getSlot s slot).score = some sc) (hcur : j.cur = some cur) (hmay : mayLook s slot sc j cur = true) :
    exec (.lookaheadOpen slot) s = .next (enterRun slot sc (lookHists j cur).1 (lookHists j cur).2
      (lookRows slot sc j cur s).2 (lookOpened slot sc j cur s)) := by
  simp only [exec_lookaheadOpen, execLookaheadOpen, Nat.not_le.mpr hslot, hk, hj, hsc, hcur, hmay, Bool.not_true,
    Bool.false_eq_true, if_false]
  rfl

theorem mayLook_ahead {cur : Run} (h : mayLook s slot sc j cur = true) : j.ahead = none := by
  cases ha : j.ahead with
  | none => rfl
  | some r => simp [mayLook, ha] at h

/-- The look-ahead run stands in the job beside the open bar's, which may have lost shadow checks. -/
theorem lookOpened_job {cur : Run} (hj : getJob s slot = some j) (hcur : j.cur = some cur) (ha : j.ahead = none) :
    ∃ k n, getJob (lookOpened slot sc j cur s) slot = some k ∧ k.ahead = some (lookRows slot sc j cur s).2 ∧
      k.cur = some { cur with shadowDrop := n } ∧ k.runsNext = j.runsNext + 1 := by
  have hrows : RowsTaken _ (lookRows slot sc j cur s).1 := rowsTaken_openRows ..
  obtain ⟨rows, hrowsJob⟩ := hrows.job (by rw [getJob_modJob, hj, Option.map_some])
  obtain ⟨n, hfresh⟩ := freshCores_job_open hrowsJob hcur ha
  exact ⟨_, n, by rw [lookOpened, getJob_modJob, hfresh, Option.map_some], rfl, rfl, rfl⟩

end

/-! ## The obligation -/

/-- Settles O38: the run that opens is `startRun`'s but for what its scales and rows bring, and stands in the job by
`barOpened_job` and `lookOpened_job`. -/
theorem barsOpenWithFreshRuns : Obligations.BarsOpenWithFreshRuns := by
  intro s slot j sc hslot hk hj hsc
  refine ⟨?_, ?_⟩
  · intro hmay
    obtain ⟨feeds, admits, lates, kvNew, pins, stalls, hr⟩ := barRows_run slot sc j s
    obtain ⟨k, a, hjob, hruns, hcur, hghost⟩ := barOpened_job (sc := sc) hj (mayOpen_cur hmay) (by rw [hr]; rfl)
    refine ⟨_, _, k, exec_barOpen_may hslot hk hj hsc hmay, hjob, ⟨a, hcur, hghost⟩, ?_⟩
    rw [hr]
    exact ⟨rfl, hruns, rfl, rfl, rfl, rfl, rfl, rfl, rfl, rfl⟩
  · intro cur hcur hmay h
    obtain ⟨feeds, admits, lates, kvNew, pins, stalls, hr⟩ := lookRows_run slot sc j cur s
    obtain ⟨k, n, hjob, hahead, hopen, hruns⟩ := lookOpened_job (sc := sc) hj hcur (mayLook_ahead hmay)
    refine ⟨_, _, k, exec_lookaheadOpen_may hslot hk hj hsc hcur hmay, hjob, hahead, ⟨n, hopen⟩, hruns, ?_⟩
    rw [hr]
    exact ⟨rfl, rfl, rfl, rfl⟩

end Sys2Proof.Machine
end

section
/-! Timeouts, the verdict query and the comparison of replicas (09 R284, R285; 11 R334, R335): a query goes on while a member's
answer is out, and records that agree give each field the majority of all. -/

namespace Sys2Proof.Machine

/-! ## The query (09 R285) -/

theorem collsOnly_askQuery (slot bar : Nat) (s : State) : CollsOnly s (askQuery slot bar s) := by
  unfold askQuery
  split
  · exact collsOnly_foldl (fun s _ => collsOnly_collSend _ _ _ _ _ _ s) _ _
  · exact collsOnly_of_slots rfl

theorem Job.CollOnly.queryMembers {x y : Job} (h : x.CollOnly y) : Machine.queryMembers y = Machine.queryMembers x := by
  unfold Job.CollOnly at h
  rw [← h]
  rfl

/-- While a member's answer is out the query goes on. -/
theorem endQuery_waits {s : State} {slot : Nat} {j : Job} {r : Run} (hj : getJob s slot = some j) (hr : j.cur = some r)
    (hout : ∃ m ∈ queryMembers j, m ∉ r.replies) : endQuery slot s = s := by
  have hall : (queryMembers j).all r.replies.contains = false := by simpa using hout
  simp [endQuery, hj, hr, hall]

/-- A query that has just been asked goes on while a member has not answered. -/
theorem endQuery_askQuery {s : State} {slot : Nat} {j : Job} {r : Run} (bar : Nat) (hj : getJob s slot = some j)
    (hr : j.cur = some r) (hout : ∃ m ∈ queryMembers j, m ∉ r.replies) :
    endQuery slot (askQuery slot bar s) = askQuery slot bar s := by
  obtain ⟨f, hf, hask⟩ := (collsOnly_askQuery slot bar s).job slot
  rw [hj, Option.map_some] at hask
  exact endQuery_waits hask ((hf j).cur.trans hr) (by rwa [(hf j).queryMembers])

section

variable {s : State} {slot : Nat} {j : Job} {sc : Score} {r : Run}

/-! ## The timer (09 R284) -/

/-- A bar whose vote is still out as its timer expires is voted on and aborts. -/
theorem exec_barTimeout_unvoted {now : Nat} (hslot : slot < 128) (hk : timekeeper s = true) (hj : getJob s slot = some j)
    (hsc : (getSlot s slot).score = some sc) (hp : (slotPart s slot).isSome = true) (hr : j.cur = some r)
    (hq : r.query = false) (hover : timerOver (atTime now s) slot j r = true) (hv : r.voted = none) :
    exec (.barTimeout slot now) s =
      .next (applyVerdict slot 4 1 0xFFFF {} (enterVote slot sc j r 1 (atTime now s))) := by
  obtain ⟨p, hp⟩ := Option.isSome_iff_exists.mp hp
  have hk' : timekeeper (atTime now s) = true := hk
  have hj' : getJob (atTime now s) slot = some j := hj
  have hsc' : (getSlot (atTime now s) slot).score = some sc := hsc
  have hp' : slotPart (atTime now s) slot = some p := hp
  simp [exec_barTimeout, execBarTimeout, Nat.not_le.mpr hslot, hk', hj', hsc', hp', hr, hq, hover, hv]

/-- A bar whose vote is in asks the other members for its verdict. -/
theorem exec_barTimeout_voted {now : Nat} (hslot : slot < 128) (hk : timekeeper s = true) (hj : getJob s slot = some j)
    (hp : (slotPart s slot).isSome = true) (hr : j.cur = some r) (hq : r.query = false)
    (hover : timerOver (atTime now s) slot j r = true) (hv : r.voted.isSome = true)
    (hout : ∃ m ∈ queryMembers j, m ∉ r.replies) :
    exec (.barTimeout slot now) s = .next (askQuery slot r.bar (modJob slot (fun j => { j with
      cur := j.cur.map fun r => { r with query := true } }) (atTime now s))) := by
  obtain ⟨p, hp⟩ := Option.isSome_iff_exists.mp hp
  obtain ⟨v, hv⟩ := Option.isSome_iff_exists.mp hv
  have hk' : timekeeper (atTime now s) = true := hk
  have hj' : getJob (atTime now s) slot = some j := hj
  have hp' : slotPart (atTime now s) slot = some p := hp
  have hasked := endQuery_askQuery r.bar (s := modJob slot (fun j => { j with
      cur := j.cur.map fun r => { r with query := true } }) (atTime now s)) (slot := slot)
    (j := { j with cur := some { r with query := true } }) (by rw [getJob_modJob, hj']; simp [hr]) rfl hout
  simp [exec_barTimeout, execBarTimeout, Nat.not_le.mpr hslot, hk', hj', hp', hr, hq, hover, hv, hasked]

/-! ## Answers -/

/-- A member's verdict is adopted with the block that it was formed on. -/
theorem exec_verdictQueryReply_verdict {m : Nat} (v : Nat × Nat) (block : OutBlock) (hslot : slot < 128)
    (hk : timekeeper s = true) (hj : getJob s slot = some j) (hsc : (getSlot s slot).score = some sc)
    (hr : j.cur = some r) (hq : r.query = true) (hm : m ∈ queryMembers j) :
    exec (.verdictQueryReply slot m (some v) block) s = .next (applyVerdict slot v.1 v.2
      (lowestOvf (r.combined.getD [])) (mergeBlock (ownBlock sc j r) block) s) := by
  simp [exec_verdictQueryReply, execVerdictQueryReply, Nat.not_le.mpr hslot, hk, hj, hsc, hr, hq, hm]

/-- An answer without a verdict is counted while another member's is out. -/
theorem exec_verdictQueryReply_none {m : Nat} (block : OutBlock) (hslot : slot < 128) (hk : timekeeper s = true)
    (hj : getJob s slot = some j) (hsc : (getSlot s slot).score = some sc) (hr : j.cur = some r) (hq : r.query = true)
    (hm : m ∈ queryMembers j) (hout : ∃ n ∈ queryMembers j, n ∉ r.replies ∧ n ≠ m) :
    exec (.verdictQueryReply slot m none block) s = .next (modJob slot (fun j => { j with
      cur := j.cur.map fun r => { r with replies := r.replies ++ [m] } }) s) := by
  obtain ⟨n, hn, hnew, hother⟩ := hout
  have hwaits := endQuery_waits (s := modJob slot (fun j => { j with
      cur := j.cur.map fun r => { r with replies := r.replies ++ [m] } }) s) (slot := slot)
    (j := { j with cur := some { r with replies := r.replies ++ [m] } }) (by rw [getJob_modJob, hj]; simp [hr]) rfl
    ⟨n, hn, by simp [hnew, hother]⟩
  simp [exec_verdictQueryReply, execVerdictQueryReply, Nat.not_le.mpr hslot, hk, hj, hsc, hr, hq, hm, hwaits]

/-! ## Replicas (11 R334, R335) -/

/-- A value that every device holds has the majority. -/
theorem majority_replicate {n : Nat} (hn : n ≠ 0) (v : List Byte) : majority n (List.replicate n v) = some v := by
  have hmost : n < 2 * n := by omega
  simp [majority, hn, hmost]

/-- A field in which every record agrees with one has that record's value for its majority. -/
theorem majority_agreed {all : List (Nat × CmpRec)} {own : CmpRec} {f : CmpRec → List Byte} (hne : all ≠ [])
    (h : ∀ p ∈ all, f p.2 = f own) : majority all.length (all.map fun p => f p.2) = some (f own) := by
  rw [List.map_congr_left h, List.map_const']
  exact majority_replicate (mt List.length_eq_zero_iff.mp hne) _

/-- Records that agree give every field the majority of all. -/
theorem majorities_agreed {all : List (Nat × CmpRec)} {own : CmpRec} (hne : all ≠ [])
    (h : ∀ p ∈ all, ∀ f ∈ CmpFields, f p.2 = f own) :
    (CmpFields.map fun f => (f, majority all.length (all.map fun p => f p.2))) = CmpFields.map fun f => (f, some (f own)) :=
  List.map_congr_left fun f hf => congrArg (f, ·) (majority_agreed hne fun p hp => h p hp f hf)

/-- Records that agree end the comparison. -/
theorem exec_replicaComparison_agreed {b : Nat} {recs : List (Nat × CmpRec)} (hslot : slot < 128)
    (hj : getJob s slot = some j) (hsc : (getSlot s slot).score = some sc) (hc : j.compare = some b)
    (hall : recs.length + 1 = sc.replicas)
    (hagree : ∀ p ∈ recs, ∀ f ∈ CmpFields, f p.2 = f (ownRecord s slot j b)) :
    exec (.replicaComparison slot recs) s = .next (modJob slot (fun j => { j with compare := none }) s) := by
  have hsame : ∀ p ∈ (j.rank, ownRecord s slot j b) :: recs, ∀ f ∈ CmpFields, f p.2 = f (ownRecord s slot j b) :=
    List.forall_mem_cons.mpr ⟨fun _ _ => rfl, hagree⟩
  simp only [exec_replicaComparison, execReplicaComparison, Nat.not_le.mpr hslot, hj, hsc, hc, hall, bne_self_eq_false,
    Bool.false_eq_true, if_false, majorities_agreed (List.cons_ne_nil _ _) hsame]
  refine if_pos (List.isEmpty_iff.mpr (List.filter_eq_nil_iff.mpr fun p hp => ?_))
  simpa using hsame p hp

end

/-! ## The obligation -/

/-- Settles O39, one command at a time. -/
theorem timeoutsQueriesAndComparisonsComplete : Obligations.TimeoutsQueriesAndComparisonsComplete := by
  intro s slot j sc hslot hj hsc
  refine ⟨?_, ?_, ?_⟩
  · intro r now b hk hp hr hq hover
    exact ⟨exec_barTimeout_unvoted hslot hk hj hsc hp hr hq hover, exec_barTimeout_voted hslot hk hj hp hr hq hover⟩
  · intro r m verdict block hk hr hq hm
    refine ⟨?_, ?_⟩
    · rintro v rfl
      exact exec_verdictQueryReply_verdict v block hslot hk hj hsc hr hq hm
    · rintro rfl hout
      exact exec_verdictQueryReply_none block hslot hk hj hsc hr hq hm hout
  · intro recs b hc hall hagree
    exact exec_replicaComparison_agreed hslot hj hsc hc hall hagree

end Sys2Proof.Machine
end

section
/-! Pages, pools and lines that rest in memory (10 R298, R310, 17 R493): what the operations on a page's descriptor and on
the versions of its lines leave alone. -/

namespace Sys2Proof.Machine

/-! ## Versions of lines and pages -/

/-- Lines that advance change the versions and their root alone. -/
theorem stepLines_frame (l : List (Nat × Nat)) (s : State) :
    stepLines l s = { s with versions := (stepLines l s).versions, verRoot := (stepLines l s).verRoot } := by
  unfold stepLines
  simp only
  split <;> rfl

theorem stepPages_frame (l : List Nat) (s : State) :
    stepPages l s = { s with versions := (stepPages l s).versions, verRoot := (stepPages l s).verRoot } := by
  unfold stepPages
  simp only
  split <;> rfl

@[simp] theorem getPage_stepPages (l : List Nat) (s : State) (n : Nat) : getPage (stepPages l s) n = getPage s n := by
  rw [stepPages_frame]
  rfl

@[simp] theorem stepPages_promoQ (l : List Nat) (s : State) : (stepPages l s).promoQ = s.promoQ := by
  rw [stepPages_frame]

/-- Bytes that a page's copy and its home both take change memory and the versions alone. -/
theorem storeBoth_frame (a : Nat) (bs : List Byte) (s : State) : storeBoth a bs s =
    { s with mem := Mem.writeN s.mem a bs, versions := (storeBoth a bs s).versions,
             verRoot := (storeBoth a bs s).verRoot } := by
  unfold storeBoth
  rw [stepLines_frame]

/-! ## The place of a page -/

/-- Only page descriptors, pools and versions may differ. -/
def PlacesOnly (s t : State) : Prop :=
  { t with pages := s.pages, hot := s.hot, kv := s.kv, staging := s.staging, versions := s.versions,
           verRoot := s.verRoot } = s

namespace PlacesOnly

variable {s t u : State}

theorem trans (h : PlacesOnly s t) (k : PlacesOnly t u) : PlacesOnly s u := by
  unfold PlacesOnly at *
  rw [← k] at h
  exact h

theorem fields (h : PlacesOnly s t) :
    t.mem = s.mem ∧ t.regions = s.regions ∧ t.promoQ = s.promoQ ∧ t.ptp = s.ptp := by
  unfold PlacesOnly at h
  rw [← h]
  exact ⟨rfl, rfl, rfl, rfl⟩

end PlacesOnly

theorem placesOnly_stepPages (l : List Nat) (s : State) : PlacesOnly s (stepPages l s) := by
  rw [stepPages_frame]
  rfl

theorem placesOnly_modPage (n : Nat) (f : PageDesc → PageDesc) (s : State) : PlacesOnly s (modPage n f s) := rfl

theorem placesOnly_setPool (s : State) (i : Nat) (p : Pool) : PlacesOnly s (setPool s i p) := by
  unfold setPool
  repeat' split
  all_goals rfl

theorem placesOnly_freeFrame (n : Nat) (s : State) : PlacesOnly s (freeFrame n s) := by
  unfold freeFrame
  simp only
  split <;> rfl

/-- A page that gives up its frame rests at home, with nothing to write back and no move. -/
@[simp] theorem getPage_freeFrame (n : Nat) (s : State) :
    getPage (freeFrame n s) n = { getPage s n with pool := none, frame := 0, dirty := false, move := 0 } := by
  unfold freeFrame
  simp only
  rw [getPage_modPage]
  split <;> rfl

end Sys2Proof.Machine
end

section
/-! `BASE.LOAD`, `SCORE.LOAD` and `SCORE.UNLOAD` (10 R303, 12 R364, 16 R471, R473, 17 R500; log entries 53 and 58): each
command's answer once its checks hold, and what a loaded base leaves alone. -/

namespace Sys2Proof.Machine

open Sys2Proof.Safety

/-! ## Loads whose window reads are answered in their own step -/

theorem HostOnly.winReads {s t : State} (h : HostOnly s t) : t.winReads = s.winReads := by
  unfold HostOnly withHostSide at h
  rw [← h]

@[simp] theorem takeCmd_registry (h : Hdr) (s : State) : (takeCmd h s).registry = s.registry := by rw [takeCmd_frame]

@[simp] theorem takeCmd_winReads (h : Hdr) (s : State) : (takeCmd h s).winReads = s.winReads := (hostOnly_takeCmd h s).winReads

@[simp] theorem finished_winReads (w : Wait) (slot : Nat) (detail result : List Byte) (u : State) :
    (finished w slot detail result u).winReads = u.winReads := (hostOnly_finished w slot detail result u).winReads

/-- A change of one slot leaves every other slot and field as it was. -/
theorem modSlot_frame (i : Nat) (f : Slot → Slot) (s : State) :
    (∀ k, k ≠ i → getSlot (modSlot i f s) k = getSlot s k) ∧ { modSlot i f s with slots := s.slots } = s :=
  ⟨fun k hk => getSlot_modSlot_other s i k f hk, rfl⟩

theorem loadingState_done {h : Hdr} {t : State} (slot : Nat) (hwin : h.win = 0) (hreads : t.winReads = []) :
    loadingState h slot t = t := by
  simp [loadingState, hwin, hreads]

theorem baseLoadState_done {h : Hdr} {t : State} (hwin : h.win = 0) (hreads : t.winReads = []) : baseLoadState h t = t := by
  simp [baseLoadState, hwin, hreads]

/-! ## Scores (16 R473; 02 R27, R597) -/

/-- A slot that holds a checked file (R473): its owner is the context of the command. -/
def heldScore (h : Hdr) (sc : Score) (digest : List Byte) : Slot :=
  { state := .loaded, score := some sc, digest, owner := h.context }

section

variable {s : State} {h : Hdr} {snd : Sender} {slot : Nat}

theorem exec_scoreUnload_empties (hacc : Accepts s h 0x0202 .holder false (.scoreUnload h slot) snd) (hslot : slot < 128)
    (hstate : (getSlot s slot).state = .loaded) (hholds : snd.holds (getSlot s slot).owner = true) :
    exec (.scoreUnload h slot) s = .next (finished (waitOf s h 0x0202 snd) slot (getSlot s slot).digest []
      (modSlot slot (fun _ => {}) (takeCmd h s))) := by
  rw [exec_scoreUnload, execScoreUnload]
  refine command_ok hacc ?_
  have hauth : slotAuth snd (takeCmd h s) slot = true := slotAuth_takeCmd hslot (by simp [hstate]) hholds
  simp only [hauth, hslot, getSlot_takeCmd, hstate, decide_true, require_true]
  rfl

theorem exec_scoreLoad_holds {r : Range} {file : List Byte} {sc : Score} (hreads : s.winReads = [])
    (hacc : Accepts s h 0x0201 .holder false (.scoreLoad { h with win := 2 } slot r file) snd) (hslot : slot < 128)
    (hstate : (getSlot s slot).state = .empty) (hpos : 0 < r.len) (hlen : r.len < 0xFFFFFFFF)
    (hin : r.off + r.len ≤ snd.window)
    (hscore : scoreVerdict s.dev.ident (s.regions.filter fun q => q.kind == 4) (fitTo r.len file) = .ok sc) :
    let d := digest64 (fitTo r.len file)
    exec (.scoreLoad h slot r file) s =
      .next (finished (waitOf s h 0x0201 snd) slot d d (modSlot slot (fun _ => heldScore h sc d) (takeCmd h s))) := by
  intro d
  rw [exec_scoreLoad, execScoreLoad]
  simp only
  rw [command_ok hacc (u := finished (waitOf s h 0x0201 snd) slot d d
    (modSlot slot (fun _ => heldScore h sc d) (takeCmd h s)))]
  · simp only [hslot, if_true]
    rw [loadingState_done slot hacc.2.1 (by simp [hreads])]
  · have hauth : loadAuth snd (takeCmd h s) slot = true := by simp [loadAuth, hslot, hstate]
    simp only [hauth, rangeLen, hlen, hslot, rangeOk, hin, Nat.ne_of_gt hpos, takeCmd_dev, takeCmd_regions, hscore,
      getSlot_takeCmd, hstate, decide_true, Bool.true_or, beq_self_eq_true, require_true, if_false]
    rfl

end

/-! ## What a loaded base leaves alone (10 R303) -/

/-- Only memory with its pages, pools, promotions and versions, and the change log may differ. -/
def StoreOnly (s t : State) : Prop :=
  { t with mem := s.mem, pages := s.pages, promoQ := s.promoQ, versions := s.versions, verRoot := s.verRoot, hot := s.hot,
           kv := s.kv, staging := s.staging, log := s.log, logStaged := s.logStaged, logUnsigned := s.logUnsigned,
           logSince := s.logSince } = s

namespace StoreOnly

variable {s t u : State}

theorem trans (h : StoreOnly s t) (k : StoreOnly t u) : StoreOnly s u := by
  unfold StoreOnly at *
  rw [← k] at h
  exact h

theorem foldl {α : Type} {f : State → α → State} (hf : ∀ s a, StoreOnly s (f s a)) (l : List α) (s : State) :
    StoreOnly s (l.foldl f s) := foldl_keeps (R := StoreOnly) (fun _ => rfl) trans hf l s

theorem of_placesOnly (h : PlacesOnly s t) : StoreOnly s t := by
  unfold PlacesOnly at h
  rw [← h]
  rfl

/-- A list of regions laid over both sides. -/
theorem withRegions (rs : List Region) (h : StoreOnly s t) :
    StoreOnly { s with regions := rs } { t with regions := rs } := by
  unfold StoreOnly at *
  exact congrArg (fun x : State => { x with regions := rs }) h

theorem fields (h : StoreOnly s t) : t.regions = s.regions ∧ t.registry = s.registry ∧ t.devKeyGen = s.devKeyGen ∧
    t.winReads = s.winReads := by
  unfold StoreOnly at h
  rw [← h]
  exact ⟨rfl, rfl, rfl, rfl⟩

end StoreOnly

theorem storeOnly_logInternal (cause status slot context bar : Nat) (detail : List Byte) (s : State) :
    StoreOnly s (logInternal cause status slot context bar detail s) := by
  unfold logInternal logAdd logTruncate
  split <;> rfl

theorem storeOnly_storeBoth (a : Nat) (bs : List Byte) (s : State) : StoreOnly s (storeBoth a bs s) := by
  rw [storeBoth_frame]
  rfl

theorem storeOnly_dropDescs (r : Region) (s : State) : StoreOnly s (dropDescs r s) := by
  have hfold (l : List Nat) (s : State) := StoreOnly.foldl (f := fun s n =>
    modPage n (fun d => { d with pin := 0, move := 0, holds := [] }) (freeFrame n s))
    (fun s n => .of_placesOnly ((placesOnly_freeFrame n s).trans (placesOnly_modPage ..))) l s
  have hqueue (q : List PromoReq) : StoreOnly s { s with promoQ := q } := rfl
  unfold dropDescs
  simp only
  split
  · exact (hqueue _).trans (hfold _ _)
  · exact ((hqueue _).trans (hfold _ _)).trans rfl

/-- Without its base the device has lost the base's regions, and what their pages and bytes were. -/
theorem storeOnly_withoutBase (s : State) : StoreOnly { s with regions := (withoutBase s).regions } (withoutBase s) :=
  (StoreOnly.foldl (fun s r => storeOnly_dropDescs r s) (s.regions.filter (ofBase s)) s).withRegions _

theorem storeOnly_logGoldenGone (s t : State) : StoreOnly t (logGoldenGone s t) :=
  StoreOnly.foldl (fun _ _ => storeOnly_logInternal ..) _ _

/-- The bytes of an image stand at the mappings of its manifest. -/
def putMappings (m : Manifest) (bytes : List Byte) (s : State) : State :=
  (List.range m.mappings).foldl (fun s i => match mappingAddr m.extents i with
    | some a => storeBoth a ((bytes.drop (i * mappingBytes)).take mappingBytes) s
    | none => s) s

theorem storeOnly_putMappings (m : Manifest) (bytes : List Byte) (s : State) : StoreOnly s (putMappings m bytes s) := by
  refine StoreOnly.foldl (fun s i => ?_) _ _
  split
  · exact storeOnly_storeBoth ..
  · rfl

/-- A base loaded without a golden copy in LPDDR: its manifest is current over its regions, and the registry follows it. -/
theorem putBase_bare (m : Manifest) (bytes : List Byte) (s : State) : ∃ t : State,
    StoreOnly { s with regions := (withoutBase s).regions ++ baseRegions s m } t ∧
    putBase m 0 bytes s = { t with
      base := some { man := m, prev := s.base.map (·.man), lpGolden := none,
                     golden := (List.range m.mappings).map fun i => (bytes.drop (i * mappingBytes)).take mappingBytes,
                     scrubSince := t.ptp.now },
      registry := staleEntries (s.base.map (·.man)) m s.registry } := by
  have hlogged := (storeOnly_withoutBase s).trans (storeOnly_logGoldenGone s _)
  obtain ⟨hregions, -, hgen, -⟩ := hlogged.fields
  have hbase : baseRegions (logGoldenGone s (withoutBase s)) m = baseRegions s m := by
    unfold baseRegions
    rw [hgen]
  have hput := (hlogged.withRegions ((withoutBase s).regions ++ baseRegions s m)).trans (storeOnly_putMappings m bytes _)
  refine ⟨_, hput, ?_⟩
  obtain ⟨-, hregistry, -, -⟩ := hput.fields
  unfold putBase
  simp only [Nat.zero_ne_one, if_false, hregions, hbase]
  congr 1
  exact congrArg _ hregistry

/-- Beside the manifest, the regions and the registry a load changes the tiers and the change log alone. -/
theorem storeOnly_putBase (m : Manifest) (bytes : List Byte) (s : State) :
    StoreOnly s { putBase m 0 bytes s with base := s.base, regions := s.regions, registry := s.registry } := by
  obtain ⟨t, ht, hput⟩ := putBase_bare m bytes s
  rw [hput]
  exact congrArg (fun x : State => { x with base := s.base, regions := s.regions, registry := s.registry }) ht

theorem putBase_fields (m : Manifest) (bytes : List Byte) (s : State) :
    (putBase m 0 bytes s).base.map (·.man) = some m ∧ (putBase m 0 bytes s).base.bind (·.prev) = s.base.map (·.man) ∧
      (putBase m 0 bytes s).regions = (withoutBase s).regions ++ baseRegions s m ∧
      (putBase m 0 bytes s).registry = staleEntries (s.base.map (·.man)) m s.registry ∧
      (putBase m 0 bytes s).winReads = s.winReads := by
  obtain ⟨t, ht, hput⟩ := putBase_bare m bytes s
  obtain ⟨hregions, -, -, hreads⟩ := ht.fields
  rw [hput]
  exact ⟨rfl, rfl, hregions, rfl, hreads⟩

/-! ## `BASE.LOAD` -/

/-- What a load without a golden copy in LPDDR asks of its manifest and image, in the state that it finds (R303, R500). -/
structure BaseFits (b : State) (m : Manifest) (bytes : List Byte) : Prop where
  extents : extentsOk m = true
  image : imageOk b m bytes = true
  idle : ∀ p ∈ b.slots, p.2.state.code < 3
  room : (withoutBase b).regions.length + (baseRegions b m).length ≤ 262144
  free : ∀ r ∈ baseRegions b m, rangeFree (withoutBase b) r.base r.size = true ∧ outsideStore b r.base r.size = true

theorem exec_baseLoad_puts {s : State} {h : Hdr} {snd : Sender} {man image : Range} {m : Manifest} {bytes : List Byte}
    (hreads : s.winReads = [])
    (hacc : Accepts s h 0x0104 .control false (.baseLoad { h with win := 2 } man image 0 m bytes) snd)
    (hman : 0 < man.len ∧ man.len < 0xFFFFFFFF ∧ man.off + man.len ≤ snd.window)
    (himage : 0 < image.len ∧ image.len < 0xFFFFFFFF ∧ image.off + image.len ≤ snd.window)
    (hfits : BaseFits (takeCmd h s) m bytes) :
    exec (.baseLoad h man image 0 m bytes) s = .next (finished (waitOf s h 0x0104 snd) 0xFF (fitTo 64 m.digest)
      (fitTo 64 m.digest) (putBase m 0 bytes (takeCmd h s))) := by
  obtain ⟨hpos, hlen, hin⟩ := hman
  obtain ⟨hpos', hlen', hin'⟩ := himage
  have hidle : ((takeCmd h s).slots.all fun p => decide (p.2.state.code < 3)) = true := by
    simpa only [List.all_eq_true, decide_eq_true_eq] using hfits.idle
  have hfree : ((baseRegions (takeCmd h s) m).all fun r =>
      rangeFree (withoutBase (takeCmd h s)) r.base r.size && outsideStore (takeCmd h s) r.base r.size) = true := by
    simpa only [List.all_eq_true, Bool.and_eq_true] using hfits.free
  have hroom : ((withoutBase (takeCmd h s)).regions ++ baseRegions (takeCmd h s) m).length + bit false ≤ maxRegions := by
    simpa [bit, maxRegions] using hfits.room
  rw [exec_baseLoad, execBaseLoad]
  simp only
  rw [command_ok hacc (u := finished (waitOf s h 0x0104 snd) 0xFF (fitTo 64 m.digest) (fitTo 64 m.digest)
    (putBase m 0 bytes (takeCmd h s)))]
  · obtain ⟨-, -, -, -, hkept⟩ := putBase_fields m bytes (takeCmd h s)
    simp only
    rw [baseLoadState_done hacc.2.1 (by simp [hkept, hreads])]
  · have hsome : (man.len == 0 || image.len == 0) = false := by simp [Nat.ne_of_gt hpos, Nat.ne_of_gt hpos']
    simp only [hsome, rangeLen, rangeOk, hlen, hlen', hin, hin', hfits.extents, hfits.image, hidle, hfree, hroom,
      Nat.zero_lt_two, Nat.zero_ne_one, decide_true, decide_false, Bool.and_self, Bool.true_or, require_true, content_true,
      Bool.false_eq_true, if_false]
    rfl

/-! ## The obligation -/

/-- Settles O12: each command's answer by its own lemma, and the rest of the state by `modSlot_frame` and
`storeOnly_putBase`. -/
theorem baseAndScoreCommandsComplete : Obligations.BaseAndScoreCommandsComplete := by
  intro s h snd b
  refine ⟨?_, fun hreads => ⟨?_, ?_⟩⟩
  · intro slot hacc hslot hstate hholds
    obtain ⟨hother, hframe⟩ := modSlot_frame slot (fun _ => {}) b
    exact ⟨_, exec_scoreUnload_empties hacc hslot hstate hholds, getSlot_modSlot ..,
      fun i hi => (hother i hi).trans (getSlot_takeCmd h s i), by rw [← takeCmd_slots h s]; exact hframe⟩
  · intro slot r file sc hacc hslot hstate hpos hlen hin hscore d
    obtain ⟨hother, hframe⟩ := modSlot_frame slot (fun _ => heldScore h sc d) b
    exact ⟨_, exec_scoreLoad_holds hreads hacc hslot hstate hpos hlen hin hscore, getSlot_modSlot ..,
      fun i hi => (hother i hi).trans (getSlot_takeCmd h s i), by rw [← takeCmd_slots h s]; exact hframe⟩
  · intro man image m bytes hacc hpos hpos' hlen hlen' hin hin' hextents himage hidle hroom hfree
    obtain ⟨hcurrent, hprev, hregions, hregistry, -⟩ := putBase_fields m bytes b
    refine ⟨_, exec_baseLoad_puts hreads hacc ⟨hpos, hlen, hin⟩ ⟨hpos', hlen', hin'⟩
      ⟨hextents, himage, by rwa [takeCmd_slots], hroom, hfree⟩, hcurrent, ?_, hregions, ?_, ?_⟩
    · rw [hprev, takeCmd_base]
    · rw [hregistry, takeCmd_base, takeCmd_registry]
    · have hframe := storeOnly_putBase m bytes (takeCmd h s)
      change _ = takeCmd h s
      generalize putBase m 0 bytes (takeCmd h s) = u at hframe ⊢
      rw [takeCmd_frame] at hframe ⊢
      exact hframe

end Sys2Proof.Machine
end

section
/-! Pages that move, that are zeroed and that are re-encrypted (10 R297, R308, R310, R311, 17 R495, R496, 20 R572; log
entries 30, 42 and 73): the state that the completion of each leaves, and what stands in it. -/

namespace Sys2Proof.Machine

/-! ## Promotion (R308) -/

/-- The page has taken frames from `f` on in the pool of its request, which has left the queue. -/
def promoted (page : Nat) (q : PromoReq) (f : Nat) (s : State) : State :=
  let l := pageGroup s page
  let d := getPage s page
  let s := freeFrame page { s with promoQ := s.promoQ.filter (· != q) }
  let p := getPool s q.pool
  let s := setPool s q.pool { p with used := p.used ++ (List.range l.length).map (f + ·) }
  stepPages l (modPage page (fun _ => { d with
    pool := some q.pool, frame := f, move := bit (s.promoQ.any fun x => x.page == q.page),
    holds := joinHolds d.holds q.holds, lastUse := s.ptp.now }) s)

theorem placesOnly_promoted (page : Nat) (q : PromoReq) (f : Nat) (s : State) :
    PlacesOnly { s with promoQ := s.promoQ.filter (· != q) } (promoted page q f s) :=
  (((placesOnly_freeFrame ..).trans (placesOnly_setPool ..)).trans (placesOnly_modPage ..)).trans (placesOnly_stepPages ..)

/-- A page that another request in the queue names is in motion again at once. -/
theorem getPage_promoted (page : Nat) (q : PromoReq) (f : Nat) (s : State) :
    getPage (promoted page q f s) page = { getPage s page with
      pool := some q.pool, frame := f, move := bit ((s.promoQ.filter (· != q)).any fun x => x.page == q.page),
      holds := joinHolds (getPage s page).holds q.holds, lastUse := s.ptp.now } := by
  obtain ⟨-, -, hqueue, hptp⟩ := ((placesOnly_freeFrame page { s with promoQ := s.promoQ.filter (· != q) }).trans
    (placesOnly_setPool _ q.pool _)).fields
  unfold promoted
  simp only [getPage_stepPages, getPage_modPage]
  rw [hqueue, hptp]

/-- The request that is served next for a page names that page. -/
theorem page_of_served {s : State} {page : Nat} {q : PromoReq}
    (hq : ([0, 1, 2].findSome? fun p => (nextPromotion s p).filter fun q => q.page == page) = some q) : q.page = page := by
  obtain ⟨p, -, hp⟩ := List.exists_of_findSome?_eq_some hq
  simpa using (Option.filter_eq_some_iff.mp hp).2

section

variable {s : State} {page : Nat} {q : PromoReq}
  (hq : ([0, 1, 2].findSome? fun p => (nextPromotion s p).filter fun q => q.page == page) = some q)
  (hgroup : ∀ n ∈ pageGroup s page, (getPage s n).poison = false ∧ asleep s n = false)
include hq hgroup

theorem exec_promotionComplete_full (hframe : freeFramesOf (pageGroup s page).length (getPool s q.pool) = none) :
    exec (.promotionComplete page false) s = .next (makeRoom q.pool (countPoolWait q s)) := by
  have hready : ((pageGroup s page).any fun n => (getPage s n).poison || asleep s n) = false := by
    simpa using hgroup
  simp [exec_promotionComplete, execPromotionComplete, hq, hready, hframe]

theorem exec_promotionComplete_takes {f : Nat} (hframe : freeFramesOf (pageGroup s page).length (getPool s q.pool) = some f)
    (hplace : placeAsleep s (pageNo (getPool s q.pool).base + f) = false) :
    exec (.promotionComplete page false) s = .next (promoted page q f s) := by
  have hready : ((pageGroup s page).any fun n => (getPage s n).poison || asleep s n) = false := by
    simpa using hgroup
  simp only [exec_promotionComplete, execPromotionComplete, hq, hready, hframe, hplace, Bool.false_eq_true, if_false]
  rfl

end

/-! ## Demotion (R310, R311) -/

/-- The page has given up its frame, and its home has advanced where the copy was written back. -/
def demoted (page : Nat) (s : State) : State :=
  if (getPage s page).dirty then stepPages (pageGroup s page) (freeFrame page s) else freeFrame page s

theorem placesOnly_demoted (page : Nat) (s : State) : PlacesOnly s (demoted page s) := by
  unfold demoted
  split
  · exact (placesOnly_freeFrame page s).trans (placesOnly_stepPages ..)
  · exact placesOnly_freeFrame page s

theorem getPage_demoted (page : Nat) (s : State) :
    getPage (demoted page s) page = { getPage s page with pool := none, frame := 0, dirty := false, move := 0 } := by
  unfold demoted
  split <;> simp

section

variable {s : State} {page : Nat} (hawake : ∀ n ∈ pageGroup s page, asleep s n = false) (hmove : (getPage s page).move = 2)
  (hpool : (getPage s page).pool.isSome = true)
include hawake hmove hpool

theorem exec_demotionComplete_cancels (hleave : mayLeave s page = false) :
    exec (.demotionComplete page) s = .next (modPage page (fun d => { d with move := 0 }) s) := by
  have hready : ((pageGroup s page).any (asleep s)) = false := by simpa using hawake
  simp [exec_demotionComplete, execDemotionComplete, hmove, Option.isSome_iff_ne_none.mp hpool, hready, hleave]

theorem exec_demotionComplete_leaves (hleave : mayLeave s page = true) :
    exec (.demotionComplete page) s = .next (demoted page s) := by
  have hready : ((pageGroup s page).any (asleep s)) = false := by simpa using hawake
  simp only [exec_demotionComplete, execDemotionComplete, demoted, hmove, Option.isNone_eq_false_iff.mpr hpool, hready, hleave,
    bne_self_eq_false, Bool.or_self, Bool.not_true, Bool.false_eq_true, if_false]
  split <;> rfl

end

/-! ## Zeroing (R297, R572) -/

/-- Every page but the one that left stays in the list. -/
theorem any_zeroedPage (page n : Nat) (z : List (Nat × Nat)) :
    ((zeroedPage page z).any fun r => decide (r.1 ≤ n) && decide (n < r.1 + r.2)) =
      (n != page && z.any fun r => decide (r.1 ≤ n) && decide (n < r.1 + r.2)) := by
  induction z with
  | nil => simp [zeroedPage]
  | cons r z ih =>
    rw [List.any_cons, Bool.and_or_distrib_left, ← ih, zeroedPage, List.flatMap_cons, List.any_append]
    refine congrArg (· || _) ?_
    rw [Bool.eq_iff_iff]
    simp only [Bool.and_eq_true, decide_eq_true_eq, bne_iff_ne, List.any_eq_true]
    split
    · rename_i hin
      simp only [List.mem_append, or_and_right, exists_or]
      split <;> split <;> simp <;> omega
    · simp only [List.mem_singleton, exists_eq_left]
      omega

/-- The page holds zeros, has lost its poison and its place in the list. -/
def pageZeroed (page : Nat) (s : State) : State :=
  let times := (getPage s page).poisonTimes
  stepPages [page] { s with
    mem := Mem.clear s.mem (pageAddr page) pageBytes, zeroing := zeroedPage page s.zeroing,
    pages := if times.isEmpty then s.pages.del page else s.pages.put page { poisonTimes := times } }

/-- The page has left its descriptor's table, or kept there the times of its poisonings alone. -/
theorem pageZeroed_pages (page : Nat) (s : State) : (pageZeroed page s).pages = s.pages.del page ∨
    ∃ times, (pageZeroed page s).pages = s.pages.put page { poisonTimes := times } := by
  unfold pageZeroed
  simp only
  rw [stepPages_frame]
  split
  · exact .inl rfl
  · exact .inr ⟨_, rfl⟩

theorem pageZeroed_poison (page : Nat) (s : State) : ((pageZeroed page s).pages.getD page {}).poison = false := by
  rcases pageZeroed_pages page s with h | ⟨times, h⟩
  · simp [h, Table.getD]
  · simp [h]

theorem pageZeroed_pages_other (s : State) {page n : Nat} (hn : n ≠ page) :
    (pageZeroed page s).pages.get n = s.pages.get n := by
  rcases pageZeroed_pages page s with h | ⟨times, h⟩
  · rw [h, Table.get_del_other _ _ _ hn]
  · rw [h, Table.get_put_other _ _ _ _ hn]

theorem isZeroing_pageZeroed (page : Nat) (s : State) (n : Nat) :
    isZeroing (pageZeroed page s) n = (n != page && isZeroing s n) := by
  rw [pageZeroed, stepPages_frame]
  exact any_zeroedPage page n s.zeroing

theorem read_pageZeroed (page : Nat) (s : State) (a : Nat) : Mem.read (pageZeroed page s).mem a =
    if pageAddr page ≤ a ∧ a < pageAddr page + pageBytes then 0 else Mem.read s.mem a := by
  rw [pageZeroed, stepPages_mem]
  exact Mem.read_clear ..

theorem pageZeroed_frame (page : Nat) (s : State) : { pageZeroed page s with
    mem := s.mem, zeroing := s.zeroing, pages := s.pages, versions := s.versions, verRoot := s.verRoot } = s := by
  rw [pageZeroed, stepPages_frame]

theorem exec_pageZeroingDone_zeroes {s : State} {page : Nat} (hawake : asleep s page = false)
    (hzero : isZeroing s page = true) :
    exec (.pageZeroingDone page) s = .next (retireAll (resumeStarts (closeZeroed (pageZeroed page s)))) := by
  simp only [exec_pageZeroingDone, execPageZeroingDone, hawake, hzero, Bool.not_true, Bool.or_self, Bool.false_eq_true,
    if_false]
  rfl

/-! ## Re-encryption (17 R495, R496) -/

/-- The page is of the new generation, with its bytes as they were. -/
def reencrypted (page new : Nat) (s : State) : State :=
  stepPages (pageGroup s page) (modPage page (fun d => { d with kgen := some new }) s)

theorem reencrypted_frame (page new : Nat) (s : State) :
    { reencrypted page new s with pages := s.pages, versions := s.versions, verRoot := s.verRoot } = s := by
  rw [reencrypted, stepPages_frame]
  rfl

theorem exec_reencryptPage_moves {s : State} {page new old : Nat} {r : Region} (hregion : pageRegion s page = some r)
    (hgens : keyGens s (keyContext s r) = (new, some old)) (hold : pageGen s r page = old)
    (hmove : (getPage s page).move ≠ 1 ∧ (getPage s page).move ≠ 2) (hawake : asleep s page = false)
    (hidle : ∀ n ∈ pageGroup s page, accessInFlight s n = false) (hpoison : (getPage s page).poison = false) :
    exec (.reencryptPage page false) s = .next (retireKey (keyContext s r) (reencrypted page new s)) := by
  obtain ⟨hpromoting, hleaving⟩ := hmove
  have hquiet : (pageGroup s page).any (accessInFlight s) = false := by simpa using hidle
  simp [exec_reencryptPage, execReencryptPage, reencrypted, hregion, hgens, hold, hpromoting, hleaving, hawake, hquiet,
    hpoison]

/-! ## The obligation -/

/-- Settles O42: a page's own descriptor by the `getPage_` lemmas of each state, the rest of the state by its frame. -/
theorem pagesMoveZeroAndReencrypt : Obligations.PagesMoveZeroAndReencrypt := by
  refine ⟨fun s page hawake => ⟨?_, ?_⟩, fun s page hawake => ⟨?_, ?_⟩⟩
  · intro q hq hpoison
    have hgroup n (hn : n ∈ pageGroup s page) := And.intro (hpoison n hn) (hawake n hn)
    refine ⟨exec_promotionComplete_full hq hgroup, fun f hframe hplace => ?_⟩
    obtain ⟨hmem, -, hqueue, -⟩ := (placesOnly_promoted page q f s).fields
    refine ⟨_, exec_promotionComplete_takes hq hgroup hframe hplace, hqueue, hmem, ?_⟩
    rw [getPage_promoted, hqueue]
    refine ⟨rfl, rfl, rfl, rfl, rfl, fun halone => ?_⟩
    have hmore : ((s.promoQ.filter (· != q)).any fun x => x.page == q.page) = false := by
      simpa only [List.any_eq_false, beq_iff_eq, page_of_served hq] using halone
    simp [hmore, bit]
  · intro hmove hpool
    refine ⟨exec_demotionComplete_cancels hawake hmove hpool, fun hleave =>
      ⟨_, exec_demotionComplete_leaves hawake hmove hpool hleave, placesOnly_demoted page s, ?_⟩⟩
    rw [getPage_demoted]
    exact ⟨rfl, rfl, rfl⟩
  · intro hzero
    refine ⟨_, exec_pageZeroingDone_zeroes hawake hzero, ?_, pageZeroed_poison page s, fun n hn => ?_, fun a hlow hhigh => ?_,
      fun a hout => ?_, pageZeroed_frame page s⟩
    · simp [isZeroing_pageZeroed]
    · exact ⟨by simp [isZeroing_pageZeroed, hn], pageZeroed_pages_other s hn⟩
    · rw [read_pageZeroed, if_pos ⟨hlow, hhigh⟩]
    · rw [read_pageZeroed, if_neg (by omega)]
  · intro r new old hregion hgens hold hpromoting hleaving hidle hpoison
    exact ⟨_, exec_reencryptPage_moves hregion hgens hold ⟨hpromoting, hleaving⟩ hawake hidle hpoison,
      by simp [reencrypted], fun n hn => by simp [reencrypted, getPage_modPage_other _ _ _ _ hn],
      reencrypted_frame page new s⟩

end Sys2Proof.Machine
end

section
/-! The scrub and the reload of the base, and the recovery of shard pages (10 R304 to R306, 20 R570, R571; log entries 42, 64
and 73): which source a reload takes, and what the recovered pages hold. -/

namespace Sys2Proof

theorem Mem.length_readN (m : List Host.Cell) (a n : Nat) : (readN m a n).length = n := by
  induction n generalizing a with
  | zero => rfl
  | succ n ih => exact congrArg (· + 1) (ih (a + 1))

namespace Machine

/-! ## What the host's side leaves of the tiers -/

theorem HostOnly.tiers {s t : State} (h : HostOnly s t) : t.mem = s.mem ∧ t.base = s.base := by
  unfold HostOnly Safety.withHostSide at h
  rw [← h]
  exact ⟨rfl, rfl⟩

theorem HostOnly.getPage {s t : State} (h : HostOnly s t) (n : Nat) : getPage t n = Machine.getPage s n := by
  unfold HostOnly Safety.withHostSide at h
  rw [← h]
  rfl

@[simp] theorem storeBoth_base (a : Nat) (bs : List Byte) (s : State) : (storeBoth a bs s).base = s.base := by
  rw [storeBoth_frame]

@[simp] theorem getPage_storeBoth (a : Nat) (bs : List Byte) (s : State) (n : Nat) :
    getPage (storeBoth a bs s) n = getPage s n := by
  rw [storeBoth_frame]
  rfl

/-! ## The scrub in its turn (R304) -/

@[simp] theorem scrubbed_man (s : State) (m : Nat) (b : Base) : (scrubbed s m b).man = b.man := by
  unfold scrubbed
  split <;> rfl

@[simp] theorem scrubbed_scrub (s : State) (m : Nat) (b : Base) : (scrubbed s m b).scrub = b.scrub := by
  unfold scrubbed
  split <;> rfl

/-- The digest that the scrub found at a mapping is kept, and the pass has gone on. -/
def scrubbedState (s : State) (m a : Nat) (b : Base) : State :=
  { s with base := some { scrubbed s m b with scrub := b.scrub.put m (digest64 (mappingData s a)) } }

/-- A mapping read in its turn differs from the manifest or not. -/
theorem exec_baseScrubRead_turn {s : State} {b : Base} {m a : Nat} (hb : s.base = some b)
    (ha : mappingAddr b.man.extents m = some a) (hturn : scrubTurn b = some m) (hawake : asleep s (pageNo a) = false)
    (hdue : b.scrubSince + m * scrubInterval s / b.man.mappings ≤ s.ptp.now) :
    exec (.baseScrubRead m false) s = .next (
      if digest64 (mappingData s a) = b.man.mapDigests.getD m [] then scrubbedState s m a b
      else logInternal 5 0 0xFF 0 0 (leBytes 8 a) (poisonPage (pageNo a) (scrubbedState s m a b))) := by
  simp only [exec_baseScrubRead, execBaseScrubRead, hb, ha, hturn, hawake, Nat.not_lt.mpr hdue, scrubbed_man, scrubbed_scrub,
    scrubbedState, bne_self_eq_false, Bool.or_self, decide_false, Bool.false_eq_true, if_false]
  split <;> rfl

/-! ## The reload of a mapping (R305, R306) -/

@[simp] theorem mappingData_length (s : State) (a : Nat) : (mappingData s a).length = mappingBytes :=
  Mem.length_readN ..

/-- The golden copy in LPDDR is read before the others. -/
theorem reloadSource_golden {s : State} {b : Base} {m g : Nat} {unread : List Nat} (peer : Option (List Byte))
    (hg : b.lpGolden = some g) (hread : 1 ∉ unread)
    (hdigest : digest64 (mappingData s (g + m * mappingBytes)) = b.man.mapDigests.getD m []) :
    reloadSource s b m unread peer = some (1, mappingData s (g + m * mappingBytes)) := by
  unfold reloadSource reloadSources
  rw [List.filter_cons_of_pos (by simpa using hread), List.filterMap_cons_some (by rw [hg]; rfl), List.find?_cons_of_pos]
  simp [hdigest]

theorem digest_of_reloadSource {s : State} {b : Base} {m k : Nat} {unread : List Nat} {peer : Option (List Byte)}
    {data : List Byte} (h : reloadSource s b m unread peer = some (k, data)) :
    digest64 data = b.man.mapDigests.getD m [] := by
  have hfound := List.find?_some h
  simp only [Bool.and_eq_true, beq_iff_eq] at hfound
  exact hfound.2

/-- The mapping is no longer reloading, and its page tells what became of it. -/
def reloadEnded (a : Nat) (b : Base) (poison : Bool) (s : State) : State :=
  modPage (pageNo a) (fun d => { d with poison := poison, move := 0 }) { s with base := some b }

/-- The base after a mapping has been reloaded with some bytes. -/
def Base.reloadedWith (b : Base) (m : Nat) (data : List Byte) : Base :=
  { b with reloading := b.reloading.filter (· != m), scrub := b.scrub.put m (digest64 data) }

/-- The base after no source yielded a mapping. -/
def Base.reloadFailed (b : Base) (m : Nat) : Base :=
  { b with reloading := b.reloading.filter (· != m), failed := b.failed ++ [m] }

theorem Base.not_mem_reloadedWith (b : Base) (m : Nat) (data : List Byte) : m ∉ (b.reloadedWith m data).reloading := by
  simp [reloadedWith]

theorem Base.not_mem_reloadFailed (b : Base) (m : Nat) : m ∉ (b.reloadFailed m).reloading := by
  simp [reloadFailed]

section

variable {s : State} {b : Base} {m a : Nat} {unread : List Nat} {peer : Option (List Byte)} (hb : s.base = some b)
  (ha : mappingAddr b.man.extents m = some a) (hm : m ∈ b.reloading) (hawake : asleep s (pageNo a) = false)
include hb ha hm hawake

theorem exec_baseReloadDone_writes {k : Nat} {data : List Byte} (h : reloadSource s b m unread peer = some (k, data)) :
    ∃ t, exec (.baseReloadDone m unread peer) s = .next t ∧
      HostOnly (storeBoth a data (reloadEnded a (b.reloadedWith m data) false s)) t := by
  have hlisted : b.reloading.contains m = true := by simpa using hm
  simp only [exec_baseReloadDone, execBaseReloadDone, hb, ha, hlisted, hawake, h, Bool.not_true, Bool.or_self,
    Bool.false_eq_true, if_false]
  exact ⟨_, rfl, ((hostOnly_notice ..).trans (hostOnly_notice ..)).trans (hostOnly_logInternal ..)⟩

theorem exec_baseReloadDone_fails (h : reloadSource s b m unread peer = none) :
    exec (.baseReloadDone m unread peer) s =
      .next (notice 0x81 0 0 0 (leBytes 8 a ++ leBytes 1 2) (reloadEnded a (b.reloadFailed m) true s)) := by
  have hlisted : b.reloading.contains m = true := by simpa using hm
  simp only [exec_baseReloadDone, execBaseReloadDone, hb, ha, hlisted, hawake, h, Bool.not_true, Bool.or_self,
    Bool.false_eq_true, if_false]
  rfl

end

/-! ## Pages of a committed shard buffer (R570, R571) -/

section

variable {s : State} {page slot sh : Nat} {j : Job} {sc : Score} (hpoison : (getPage s page).poison = true)
  (hawake : asleep s page = false) (hdata : (getPage s page).pool = none ∨ (getPage s page).dirty = true)
  (hshard : shardOfPage s page = some (slot, sh)) (hj : getJob s slot = some j)
  (hsc : (getSlot s slot).score = some sc)
include hpoison hawake hdata hshard hj hsc

/-- Without a copy that the version table knows the data is lost. -/
theorem exec_pageRecoveryDone_lost {found : Option (List Byte)}
    (hfound : ∀ bytes, found = some bytes → shake256 16 bytes ≠ (j.shards.getD sh {}).ver.digest) :
    exec (.pageRecoveryDone page found) s = .next (slotFault slot cDataLost
      (notice 0x81 0 0 0 (leBytes 8 (pageAddr page) ++ leBytes 1 2) s)) := by
  have hkept : ((getPage s page).pool.isSome && !(getPage s page).dirty) = false := by rcases hdata with h | h <;> simp [h]
  simp only [exec_pageRecoveryDone, execPageRecoveryDone, hpoison, hawake, hkept, hshard, hj, hsc, Bool.not_true, Bool.or_self,
    Bool.false_eq_true, if_false]
  cases found with
  | none => rfl
  | some bytes => exact if_pos (bne_iff_ne.mpr (hfound bytes rfl))

/-- A copy that agrees with the version table refills the page, or the whole mapping that moves with it. -/
theorem exec_pageRecoveryDone_refills {bytes : List Byte} (hdigest : shake256 16 bytes = (j.shards.getD sh {}).ver.digest) :
    ∃ t, exec (.pageRecoveryDone page (some bytes)) s = .next t ∧
      let a := pageAddr (pageUnit s page)
      HostOnly (modPage page (fun d => { d with poison := false }) (storeAt a
        (Mem.readN (layShard s slot sc sh (shardCur j sh) bytes) a ((pageGroup s page).length * pageBytes)) s)) t := by
  have hkept : ((getPage s page).pool.isSome && !(getPage s page).dirty) = false := by rcases hdata with h | h <;> simp [h]
  simp only [exec_pageRecoveryDone, execPageRecoveryDone, hpoison, hawake, hkept, hshard, hj, hsc, Bool.not_true, Bool.or_self,
    Bool.false_eq_true, if_false, copyDigest, hdigest, bne_self_eq_false]
  exact ⟨_, rfl, hostOnly_notice ..⟩

end

/-! ## The obligation -/

/-- Settles O43: the scrub by `exec_baseScrubRead_turn`, the reload by what its source yields, and a shard page by whether a
copy agrees with the version table. -/
theorem theBaseAndShardsRecover : Obligations.TheBaseAndShardsRecover := by
  refine fun s => ⟨?_, ?_, ?_⟩
  · intro b m a hb ha hturn hawake hdue
    have hscrub := exec_baseScrubRead_turn hb ha hturn hawake hdue
    exact ⟨fun hsame => by rw [hscrub, if_pos hsame]; rfl, fun hdiffers => by rw [hscrub, if_neg hdiffers]; rfl⟩
  · intro b m a unread peer hb ha hm hawake
    refine ⟨fun g => reloadSource_golden peer, fun k data hsource => ⟨digest_of_reloadSource hsource, ?_⟩, fun hnone => ?_⟩
    · obtain ⟨t, ht, hhost⟩ := exec_baseReloadDone_writes hb ha hm hawake hsource
      obtain ⟨hmem, hbase⟩ := hhost.tiers
      refine ⟨t, b.reloadedWith m data, ht, by simp [hmem, reloadEnded], by simp [hbase, reloadEnded],
        b.not_mem_reloadedWith m data, rfl, rfl, ?_⟩
      rw [hhost.getPage, getPage_storeBoth, reloadEnded, getPage_modPage]
      exact ⟨rfl, rfl⟩
    · have hhost := hostOnly_notice 0x81 0 0 0 (leBytes 8 a ++ leBytes 1 2) (reloadEnded a (b.reloadFailed m) true s)
      obtain ⟨hmem, hbase⟩ := hhost.tiers
      refine ⟨_, b.reloadFailed m, exec_baseReloadDone_fails hb ha hm hawake hnone, hmem, hbase, b.not_mem_reloadFailed m,
        List.mem_append_right _ (List.mem_singleton.mpr rfl), ?_⟩
      rw [hhost.getPage, reloadEnded, getPage_modPage]
  · intro page slot sh j sc hpoison hawake hdata hshard hj hsc
    refine ⟨fun bytes hdigest => ?_, fun found => exec_pageRecoveryDone_lost hpoison hawake hdata hshard hj hsc⟩
    obtain ⟨t, ht, hhost⟩ := exec_pageRecoveryDone_refills hpoison hawake hdata hshard hj hsc hdigest
    refine ⟨t, ht, ?_, ?_⟩
    · rw [hhost.getPage, getPage_modPage]
    · rw [hhost.tiers.1, modPage_mem, storeAt_mem]

end Machine

end Sys2Proof
end

section
/-! Shards and slices that arrive (11 R323 to R325, R328; log entries 32 and 38): which fetch an arriving shard serves, and what
a copy or a slice leaves once its version has been checked. -/

namespace Sys2Proof.Machine

/-! ## A shard's bytes and their version (R321, R323) -/

theorem fetchOk_iff (v : Version) (bytes : List Byte) : fetchOk v bytes = true ↔ shake256 16 bytes = v.digest := by
  simp [fetchOk, copyDigest]

@[simp] theorem storeShard_mem (slot : Nat) (sc : Score) (sh buf : Nat) (bs : List Byte) (s : State) :
    (storeShard slot sc sh buf bs s).mem = layShard s slot sc sh buf bs :=
  writeTiers_mem ..

theorem storeShard_only (slot : Nat) (sc : Score) (sh buf : Nat) (bs : List Byte) (s : State) :
    TiersOnly s (storeShard slot sc sh buf bs s) :=
  writeTiers_only ..

/-! ## A copy that a strict bar left due (09 R281) -/

section

variable {j : Job} {r : Run} {sh : Nat} {v : Version} {bytes : List Byte} (slot : Nat) (sc : Score) (s : State)

theorem dueFetch_agrees (hdigest : shake256 16 bytes = v.digest) (hver : v = (j.shards.getD sh {}).ver) :
    dueFetch slot sh sc j v bytes s = wakeJob slot
      (modJob slot (fun j => { j with keeperDue := j.keeperDue.filter (· != sh) })
        (storeShard slot sc sh (shardCur j sh) bytes s)) := by
  have hok : fetchOk v bytes = true := (fetchOk_iff v bytes).mpr hdigest
  have hsame : (v != (j.shards.getD sh {}).ver) = false := bne_eq_false_iff_eq.mpr hver
  simp [dueFetch, hok, hsame]

theorem dueFetch_differs (hnow : j.now = some r) (hdigest : shake256 16 bytes ≠ v.digest) :
    dueFetch slot sh sc j v bytes s = versionFault slot s := by
  have hbad : fetchOk v bytes = false := Bool.eq_false_iff.mpr (mt (fetchOk_iff v bytes).mp hdigest)
  simp [dueFetch, hbad, hnow]

end

/-! ## The keeper's copy of an open bar (R324) -/

/-- A keeper holds the copy of a shard for its bar, with its digest. -/
def Run.keeps (sh : Nat) (digest : List Byte) (r : Run) : Run :=
  { r with keeperGot := r.keeperGot ++ [sh], digests := r.digests.put sh digest }

section

variable {j : Job} {r : Run} {sh : Nat} {v : Version} {bytes : List Byte} (slot : Nat) (sc : Score) (s : State)

/-- The owner's shard keeps its buffer for the bar, so that no bytes come. -/
theorem keeperFetch_empty : keeperFetch slot sh sc j r v [] s =
    modNow slot (fun r => { r with keeperGot := r.keeperGot ++ [sh] }) s := rfl

theorem keeperFetch_differs (hbytes : bytes ≠ []) (h : shake256 16 bytes ≠ v.digest ∨ v.bar ≠ r.bar) :
    keeperFetch slot sh sc j r v bytes s = versionFault slot s := by
  have hbad : (!fetchOk v bytes || v.bar != r.bar) = true := by
    rw [Bool.or_eq_true, Bool.not_eq_true', bne_iff_ne, Bool.eq_false_iff, ne_eq, fetchOk_iff]
    exact h
  simp [keeperFetch, hbytes, hbad]

theorem keeperFetch_agrees (hbytes : bytes ≠ []) (hdigest : shake256 16 bytes = v.digest) (hbar : v.bar = r.bar) :
    keeperFetch slot sh sc j r v bytes s = modNow slot (fun r => { r with digests := r.digests.put sh v.digest })
      (modNow slot (fun r => { r with keeperGot := r.keeperGot ++ [sh] })
        (storeShard slot sc sh (1 - shardCur j sh) bytes s)) := by
  have hok : fetchOk v bytes = true := (fetchOk_iff v bytes).mpr hdigest
  simp [keeperFetch, hbytes, hok, hbar]

/-- Changes of the newest run after a write of the tiers leave all but the tiers and the slots as it was. -/
theorem TiersOnly.modNow_frame {s t : State} (h : TiersOnly s t) (i : Nat) (f g : Run → Run) :
    { modNow i f (modNow i g t) with
      mem := s.mem, slots := s.slots, pages := s.pages, versions := s.versions, verRoot := s.verRoot } = s := by
  unfold TiersOnly at h
  rw [← h]
  rfl

/-- A copy that agrees changes the alternate buffer and the run, and nothing beside the slots and the tiers. -/
theorem keeperFetch_keeps (hj : getJob s slot = some j) (hnow : j.now = some r) (hbytes : bytes ≠ [])
    (hdigest : shake256 16 bytes = v.digest) (hbar : v.bar = r.bar) :
    let t := keeperFetch slot sh sc j r v bytes s
    t.mem = layShard s slot sc sh (1 - shardCur j sh) bytes ∧
      (getJob t slot).bind Job.now = some (r.keeps sh v.digest) ∧
      { t with mem := s.mem, slots := s.slots, pages := s.pages, versions := s.versions, verRoot := s.verRoot } = s := by
  have honly : TiersOnly s (storeShard slot sc sh (1 - shardCur j sh) bytes s) := storeShard_only ..
  rw [keeperFetch_agrees slot sc s hbytes hdigest hbar]
  refine ⟨by rw [modNow_mem, modNow_mem, storeShard_mem], ?_, honly.modNow_frame ..⟩
  rw [now_modNow, now_modNow, getJob_congr honly.slots, now_of_job hj hnow]
  rfl

end

/-! ## `SHARD_FETCH_ARRIVAL`: the fetch that an arrival serves -/

section

variable {s : State} {slot sh : Nat} {j : Job} {sc : Score} {v : Version} (hslot : slot < 128)
  (hj : getJob s slot = some j) (hsc : (getSlot s slot).score = some sc) (bytes : List Byte)
include hslot hj hsc

theorem exec_shardFetchArrival_due (hdue : isDue j sh v = true)
    (hawake : shardAsleep s slot sc sh (shardCur j sh) = false) :
    exec (.shardFetchArrival slot sh v bytes) s = .next (dueFetch slot sh sc j v bytes s) := by
  simp [exec_shardFetchArrival, execShardFetchArrival, Nat.not_le.mpr hslot, hj, hsc, hdue, hawake]

theorem exec_shardFetchArrival_admission {a : Admission} (hdue : isDue j sh v = false) (ha : j.admission = some a)
    (hfetch : sh ∈ a.fetch) (hawake : shardAsleep s slot sc sh 0 = false) :
    exec (.shardFetchArrival slot sh v bytes) s = .next (spareFetch slot sh sc v bytes s) := by
  simp [exec_shardFetchArrival, execShardFetchArrival, Nat.not_le.mpr hslot, hj, hsc, hdue, ha, hfetch, hawake]

/-- While a bar is open a permutation takes no copy, so that the arrival is the keeper's. -/
theorem exec_shardFetchArrival_keeper {e : ShardEnt} {r : Run} (hdue : isDue j sh v = false) (ha : j.admission = none)
    (hnow : j.now = some r) (he : sc.shards[sh]? = some e) (hkeeper : e.keeper = some j.rank) (hlook : r.look = false)
    (hstrict : r.strict = false) (hgot : sh ∉ r.keeperGot)
    (hawake : shardAsleep s slot sc sh (1 - shardCur j sh) = false) :
    exec (.shardFetchArrival slot sh v bytes) s = .next (keeperFetch slot sh sc j r v bytes s) := by
  simp [exec_shardFetchArrival, execShardFetchArrival, Nat.not_le.mpr hslot, hj, hsc, hdue, ha, hnow, he, hkeeper, hlook,
    hstrict, hgot, hawake]

end

/-! ## `GATHER_ARRIVAL` (R325, R328) -/

/-- A slice is delivered and the run holds its version. -/
def gatherTaken (slot : Nat) (sc : Score) (owner : Nat) (r : Run) (g : Gather) (i : Nat) (v : Version) (bytes : List Byte)
    (s : State) : State :=
  deliverSlice slot sc owner r g (bytes.take g.bytes) (modNow slot (fun r => { r with gathers := r.gathers.put i v }) s)

/-- A slice is taken where nothing is to be checked or its version is that of the gather that the check names, which it waits
for; another version is a fault. -/
def gatherSettled (slot : Nat) (sc : Score) (owner : Nat) (r : Run) (g : Gather) (i : Nat) (v : Version) (bytes : List Byte)
    (s : State) : State :=
  match g.check with
  | none => gatherTaken slot sc owner r g i v bytes s
  | some c => match r.gathers.get c with
    | none => s
    | some w => if w = v then gatherTaken slot sc owner r g i v bytes s else versionFault slot s

section

variable {r : Run} {g : Gather} {v : Version} (slot : Nat) (sc : Score) (owner i : Nat) (bytes : List Byte) (s : State)

theorem gatherSettled_unchecked (hcheck : g.check = none) :
    gatherSettled slot sc owner r g i v bytes s = gatherTaken slot sc owner r g i v bytes s := by
  simp [gatherSettled, hcheck]

theorem gatherSettled_checked {c : Nat} {w : Version} (hcheck : g.check = some c) (hw : r.gathers.get c = some w) :
    gatherSettled slot sc owner r g i v bytes s =
      if w = v then gatherTaken slot sc owner r g i v bytes s else versionFault slot s := by
  simp [gatherSettled, hcheck, hw]

end

/-- A slice without a route is stored at its destination. -/
theorem deliverSlice_dest {g : Gather} {bytes : List Byte} (slot : Nat) (sc : Score) (owner : Nat) (r : Run) (s : State)
    (hroute : g.route = none) (hbytes : bytes ≠ []) : deliverSlice slot sc owner r g bytes s = storeAt g.dest bytes s := by
  simp [deliverSlice, hroute, hbytes]

theorem TiersOnly.net {s t : State} (h : TiersOnly s t) : t.net = s.net := by
  unfold TiersOnly at h
  rw [← h]

theorem gatherTaken_dest {g : Gather} {bytes : List Byte} (slot : Nat) (sc : Score) (owner : Nat) (r : Run) (i : Nat)
    (v : Version) (s : State) (hroute : g.route = none) (hbytes : bytes.take g.bytes ≠ []) :
    (gatherTaken slot sc owner r g i v bytes s).mem = Mem.writeN s.mem g.dest (bytes.take g.bytes) ∧
      (gatherTaken slot sc owner r g i v bytes s).net = s.net := by
  rw [gatherTaken, deliverSlice_dest slot sc owner r _ hroute hbytes]
  exact ⟨storeAt_mem .., (storeAt_only ..).net⟩

section

variable {s : State} {slot i : Nat} {j : Job} {sc : Score} {r : Run} {g : Gather} {e : ShardEnt} (hslot : slot < 128)
  (hj : getJob s slot = some j) (hsc : (getSlot s slot).score = some sc) (hnow : j.now = some r)
  (hg : sc.gathers[i]? = some g) (he : sc.shards[g.shard]? = some e) (hmine : gatherMine sc j.rank g = true)
  (hsent : i ∈ r.gatherSent) (hopen : r.gathers.get i = none) (howner : e.owner ≠ j.rank)
  (hawake : g.route = none → ∀ n ∈ pageSpan g.dest g.bytes, asleep s n = false) (v : Version) (bytes : List Byte)
include hslot hj hsc hnow hg he hmine hsent hopen howner hawake

/-- A gather that is out to another rank is settled by its check alone. -/
theorem exec_gatherArrival_out : exec (.gatherArrival slot i v bytes) s =
    .next (gatherSettled slot sc e.owner r g i v bytes s) := by
  have hready : (g.route.isNone && (pageSpan g.dest g.bytes).any (asleep s)) = false := by
    simpa using hawake
  simp only [exec_gatherArrival, execGatherArrival, Nat.not_le.mpr hslot, hj, hsc, hnow, hg, he, hmine, hopen, howner, hready,
    List.contains_iff_mem.mpr hsent, Option.bind_some, Option.isSome_none, Bool.not_true, Bool.or_self, Bool.false_eq_true,
    if_false]
  unfold gatherSettled
  cases g.check with
  | none => rfl
  | some c =>
    cases hw : r.gathers.get c with
    | none => simp only [hw]
    | some w => simp only [hw, apply_ite Host.Outcome.next, gatherTaken]

end

/-! ## The obligation -/

/-- Settles O40: an arrival is told by the fetch that waits for it, and its copy or slice by whether it agrees with its version. -/
theorem fetchedShardsAndSlicesAreChecked : Obligations.FetchedShardsAndSlicesAreChecked := by
  refine fun s slot j sc r hslot hj hsc hnow => ⟨?_, ?_, ?_, ?_⟩
  · intro sh v bytes a hdue ha hfetch hawake
    exact exec_shardFetchArrival_admission hslot hj hsc bytes hdue ha hfetch hawake
  · intro sh v bytes hdue hawake
    rw [exec_shardFetchArrival_due hslot hj hsc bytes hdue hawake]
    exact ⟨fun hdigest hver => congrArg _ (dueFetch_agrees slot sc s hdigest hver),
      fun hdigest => congrArg _ (dueFetch_differs slot sc s hnow hdigest)⟩
  · intro sh v bytes e hdue ha he hkeeper hlook hstrict hgot hawake
    rw [exec_shardFetchArrival_keeper hslot hj hsc bytes hdue ha hnow he hkeeper hlook hstrict hgot hawake]
    refine ⟨fun hempty => ?_, fun hbytes hbad => congrArg _ (keeperFetch_differs slot sc s hbytes hbad),
      fun hbytes hdigest hbar => ?_⟩
    · rw [hempty, keeperFetch_empty]
    · obtain ⟨hmem, hrun, hframe⟩ := keeperFetch_keeps (sh := sh) slot sc s hj hnow hbytes hdigest hbar
      exact ⟨_, r.keeps sh v.digest, rfl, hmem, hrun, rfl, rfl, hframe⟩
  · intro i v bytes g e hg he hmine hsent hopen howner hawake
    have harrival := exec_gatherArrival_out hslot hj hsc hnow hg he hmine hsent hopen howner hawake v bytes
    refine ⟨fun hcheck => ?_, fun c w hcheck hw => ?_, gatherTaken_dest slot sc e.owner r i v s⟩
    · exact harrival.trans (congrArg _ (gatherSettled_unchecked slot sc e.owner i bytes s hcheck))
    · rw [harrival, gatherSettled_checked slot sc e.owner i bytes s hcheck hw]
      exact ⟨fun hsame => congrArg _ (if_pos hsame), fun hdiffers => congrArg _ (if_neg hdiffers)⟩

end Sys2Proof.Machine
end

section
/-! `ADAPT.CLAIM`, `ADAPT.RELEASE` and `ADAPT.PROBE` (12 R354, R358, R361, R366; log entry 61): the checks of each, and where
the claim, release or probe stands until its downbeat or the end of its job. -/

namespace Sys2Proof.Machine

open Sys2Proof.Safety

/-! ## What the checks read -/

section

variable {s : State} {h : Hdr} {snd : Sender} {id : Nat} {a : Adapt}

/-- The owner of an entry may send a command on it (R482). -/
theorem adaptAuth_takeCmd (ha : s.registry.get id = some a) (hholds : snd.holds a.owner = true) :
    adaptAuth snd (takeCmd h s) id = true := by
  simp only [adaptAuth, takeCmd_registry, ha, hholds]

/-- The controlling host, too, may send a command that R482 opens to it. -/
theorem control_or_adaptAuth_takeCmd (ha : s.registry.get id = some a)
    (hholds : snd.control = true ∨ snd.holds a.owner = true) :
    (snd.control || adaptAuth snd (takeCmd h s) id) = true :=
  Bool.or_eq_true_iff.mpr (hholds.imp_right (adaptAuth_takeCmd ha))

end

/-! ## The three commands -/

section

variable {s : State} {h : Hdr} {snd : Sender} {slot aslot : Nat} {j : Job} {sc : Score} {d : SlotDesc}

theorem exec_adaptClaim_joins {id prio : Nat} {a : Adapt} {cbar : Option Nat} (hslot : slot < 128)
    (hj : getJob s slot = some j) (hsc : (getSlot s slot).score = some sc) (hd : j.f.slotList[aslot]? = some d)
    (hacc : Accepts s h 0x0305 .any false (.adaptClaim h slot aslot id prio cbar) snd) (hid : id < 65536)
    (ha : s.registry.get id = some a) (hmay : mayClaim (claimCtx snd h.context) j.owner a = true) (hprio : prio ≤ 7)
    (hfits : adaptFits (takeCmd h s) sc d a = true) (hready : a.state = .ready) (hcbar : cbarOk j cbar = true)
    (hpin : pinFits (takeCmd h s) a = true) :
    exec (.adaptClaim h slot aslot id prio cbar) s = .next (modJob slot
      (fun j => { j with
        claims := j.claims ++ [⟨waitOf s h 0x0305 snd, aslot, id, prio, cbar, claimCtx snd h.context, false, false⟩] })
      (admitted (waitOf s h 0x0305 snd) (takeCmd h s))) := by
  have hjob : (getSlot s slot).job = some j := hj
  rw [exec_adaptClaim, execAdaptClaim]
  refine command_ok hacc ?_
  simp only [takeCmd_registry, getSlot_takeCmd, ha, hjob, hsc, hd, hmay, hprio, hslot, hid, hfits, hready, hcbar, hpin,
    accept_taken hacc, decide_true, Bool.and_self, require_true]
  rfl

theorem exec_adaptRelease_joins {id : Nat} {cbar : Option Nat} (hslot : slot < 128) (hj : getJob s slot = some j)
    (hd : j.f.slotList[aslot]? = some d)
    (hacc : Accepts s h 0x0306 .holderOrControl false (.adaptRelease h slot aslot cbar) snd)
    (hauth : snd.control = true ∨ slotAuth snd (takeCmd h s) slot = true) (hbound : boundLast j aslot = some id)
    (hnone : ∀ r ∈ j.releases, r.aslot ≠ aslot) (hcbar : cbarOk j cbar = true) :
    exec (.adaptRelease h slot aslot cbar) s = .next (modJob slot
      (fun j => { j with releases := j.releases ++ [⟨some (waitOf s h 0x0306 snd), aslot, id, cbar, false, none⟩] })
      (admitted (waitOf s h 0x0306 snd) (takeCmd h s))) := by
  obtain ⟨hlt, -⟩ := List.getElem?_eq_some_iff.mp hd
  have hfresh : (j.releases.any fun r => r.aslot == aslot) = false := by simpa using hnone
  rw [exec_adaptRelease, execAdaptRelease]
  refine command_ok hacc ?_
  simp only [Bool.or_eq_true_iff.mpr hauth, hslot, getJob_takeCmd, hj, hlt, hbound, hfresh, hcbar, accept_taken hacc,
    decide_true, Bool.not_false, Bool.and_self, require_true]

theorem exec_adaptProbe_begins {id items : Nat} {a : Adapt} {tol : Word} {set refs : Range} {ref : List Word}
    {setBytes : List Byte} (hslot : slot < 128) (hj : getJob s slot = some j) (hsc : (getSlot s slot).score = some sc)
    (hd : j.f.slotList[aslot]? = some d)
    (hacc : Accepts s h 0x0309 .holder false
      (.adaptProbe { h with win := 2 } id slot aslot items tol set refs ref setBytes) snd)
    (hid : id < 65536) (ha : s.registry.get id = some a) (hadapt : adaptAuth snd (takeCmd h s) id = true)
    (hauth : slotAuth snd (takeCmd h s) slot = true) (hitems : 0 < items ∧ items ≤ 65536)
    (htol : finite32 tol = true ∧ gt64 (widen tol) 0 = true)
    (hset : 0 < set.len ∧ set.len < 0xFFFFFFFF ∧ set.off + set.len ≤ snd.window)
    (hrefs : refs.len < 0xFFFFFFFF ∧ refs.off + refs.len ≤ snd.window) (hroom : 4 * items ≤ refs.len)
    (hfits : adaptFits (takeCmd h s) sc d { a with baseDigest := sc.baseDigest } = true) (hstale : a.state = .stale)
    (howner : j.owner = a.owner) (hfaulted : (getSlot s slot).state ≠ .faulted) (hfree : boundLast j aslot = none)
    (hunbound : ∀ p ∈ j.bindings, boundLast j p.1 ≠ some id) (hpin : pinFits (takeCmd h s) a = true) :
    exec (.adaptProbe h id slot aslot items tol set refs ref setBytes) s = .next (beginProbe (waitOf s h 0x0309 snd) id slot
      aslot items tol (ref.take items) (fitTo set.len setBytes) (takeCmd h s)) := by
  obtain ⟨hsome, hmost⟩ := hitems
  obtain ⟨hfinite, hpositive⟩ := htol
  obtain ⟨hpos, hlen, hin⟩ := hset
  obtain ⟨hlen', hin'⟩ := hrefs
  have hjob : (getSlot s slot).job = some j := hj
  have hcount : (items != 0 && items != 0xFFFFFFFF) = true := by
    rw [Bool.and_eq_true, bne_iff_ne, bne_iff_ne]
    omega
  have hzero : (set.len == 0 || refs.len == 0) = false := by
    rw [Bool.or_eq_false_iff, beq_eq_false_iff_ne, beq_eq_false_iff_ne]
    omega
  have hstate : (a.state == .stale) = true := beq_iff_eq.mpr hstale
  have hnot : (j.bindings.any fun p => boundLast j p.1 == some id) = false := by simpa using hunbound
  rw [exec_adaptProbe, execAdaptProbe]
  refine command_ok hacc ?_
  simp only [hadapt, hauth, hcount, hfinite, hpositive, rangeLen, hlen, hlen', rangeOk, hin, hin', hslot, hid, hmost, hzero,
    hroom, takeCmd_registry, getSlot_takeCmd, ha, hjob, hsc, hd, hfits, hstate, howner, bne_iff_ne.mpr hfaulted, hfree, hnot,
    hpin, beq_self_eq_true, decide_true, Option.isNone_none, Bool.not_false, Bool.and_self, require_true, content_true,
    Bool.false_eq_true, if_false]

end

/-! ## The obligation -/

/-- Settles O14, one command at a time. -/
theorem slotCommandsWaitForTheDownbeat : Obligations.SlotCommandsWaitForTheDownbeat := by
  intro s h snd slot aslot j sc d b hslot hj hsc hd
  refine ⟨?_, ?_, ?_⟩
  · exact fun id a prio cbar hacc => exec_adaptClaim_joins hslot hj hsc hd hacc
  · intro id cbar hacc hauth
    exact exec_adaptRelease_joins hslot hj hd hacc
      (hauth.imp_right fun ⟨hstate, hholds⟩ => slotAuth_takeCmd hslot hstate hholds)
  · intro id a items tol set refs ref setBytes hacc hid ha hholds hstate hslotHolds hsome hmost hfinite hpositive hpos hlen
      hlen' hin hin' hroom
    exact exec_adaptProbe_begins hslot hj hsc hd hacc hid ha (adaptAuth_takeCmd ha hholds)
      (slotAuth_takeCmd hslot hstate hslotHolds) ⟨hsome, hmost⟩ ⟨hfinite, hpositive⟩ ⟨hpos, hlen, hin⟩ ⟨hlen', hin'⟩ hroom

end Sys2Proof.Machine
end

section
/-! The list of accepted commands (16 R464, R469): writers of the host port, samples and log entries leave it, and a
completion only takes commands from it. -/

namespace Sys2Proof.Machine

open Sys2Proof.Safety

/-! ## What leaves the accepted commands alone -/

section

variable (s : State)

@[simp] theorem logAdd_accepted (e : LogEntry) : (logAdd e s).accepted = s.accepted := by
  unfold logAdd logTruncate
  split <;> rfl

@[simp] theorem logChange_accepted (w : Wait) (slot bar : Nat) (detail : List Byte) :
    (logChange w slot bar detail s).accepted = s.accepted := logAdd_accepted ..

@[simp] theorem closeOpen_accepted (c : Nat) : (closeOpen c s).accepted = s.accepted := by
  unfold closeOpen
  simp only
  repeat' split
  all_goals rfl

@[simp] theorem outAppend0_accepted (c : Nat) (i : PealItem) : (outAppend0 c i s).accepted = s.accepted := by
  unfold outAppend0
  simp only
  repeat' split
  all_goals exact closeOpen_accepted ..

@[simp] theorem outRecord0_accepted (c sess ftype ref : Nat) (rec : List Byte) (reqs : List Nat) :
    (outRecord0 c sess ftype ref rec reqs s).accepted = s.accepted := by
  unfold outRecord0
  simp only
  repeat' split
  any_goals exact outAppend0_accepted ..
  · exact closeOpen_accepted ..
  · rfl

theorem foldl_accepted {α : Type} {f : State → α → State} (hf : ∀ s a, (f s a).accepted = s.accepted) (l : List α) :
    (l.foldl f s).accepted = s.accepted :=
  foldl_keeps (R := fun s t : State => t.accepted = s.accepted) (fun _ => rfl) (fun h k => k.trans h) hf l s

@[simp] theorem fillNotice_accepted (q : Nat) : (fillNotice q s).accepted = s.accepted := by
  unfold fillNotice noticeBy
  simp only
  split
  · rfl
  · exact foldl_accepted _ (fun s i => outRecord0_accepted s ..) _

@[simp] theorem outAppend_accepted (c : Nat) (i : PealItem) : (outAppend c i s).accepted = s.accepted := by
  unfold outAppend watchOut
  simp only
  split <;> simp

@[simp] theorem sendCpl_accepted (sess cls ref opcode status kind detail : Nat) (prin result : List Byte) :
    (sendCpl sess cls ref opcode status kind detail prin result s).accepted = s.accepted := by
  unfold sendCpl
  simp only
  repeat' split
  · exact outAppend_accepted ..
  · rfl
  · rfl

@[simp] theorem monSample_accepted (block inst x : Nat) : (monSample block inst x s).accepted = s.accepted := by
  unfold monSample
  simp only
  split <;> rfl

@[simp] theorem settleInq_accepted : (settleInq s).accepted = s.accepted := by
  unfold settleInq
  refine foldl_accepted _ (fun s c => ?_) _
  simp only
  split <;> rfl

@[simp] theorem logRefuse_accepted (prin : List Byte) (opcode context code detail : Nat) :
    (logRefuse prin opcode context code detail s).accepted = s.accepted := by
  have hruns : (logRefusals s).accepted = s.accepted := foldl_accepted _ (fun s r => logAdd_accepted s _) _
  unfold logRefuse
  simp only
  split <;> exact hruns

@[simp] theorem countRefuse_accepted (w : Wait) (code detail : Nat) :
    (countRefuse w code detail s).accepted = s.accepted := by
  simp [countRefuse]

/-! ## Completions and acceptance -/

/-- A completed command is no longer among the accepted ones (R469). -/
@[simp] theorem complete_accepted (w : Wait) (status detail : Nat) (result : List Byte) :
    (complete w status detail result s).accepted = s.accepted.filter fun a => !(a.sess == w.sess && a.ref == w.ref) := by
  simp [complete]

theorem hostOnly_accept (w : Wait) : HostOnly s (accept w s) := by
  unfold accept
  split <;> rfl

end

/-- Commands may complete, and the registry stays. -/
structure OnlyEnds (s t : State) : Prop where
  accepted : ∀ w ∈ t.accepted, w ∈ s.accepted
  registry : t.registry = s.registry

namespace OnlyEnds

variable {s t u : State}

theorem of_same (hacc : t.accepted = s.accepted) (hreg : t.registry = s.registry) : OnlyEnds s t :=
  ⟨fun _ hw => hacc ▸ hw, hreg⟩

theorem refl (s : State) : OnlyEnds s s := of_same rfl rfl

theorem trans (h : OnlyEnds s t) (k : OnlyEnds t u) : OnlyEnds s u :=
  ⟨fun w hw => h.accepted w (k.accepted w hw), k.registry.trans h.registry⟩

theorem foldl {α : Type} {f : State → α → State} (hf : ∀ s a, OnlyEnds s (f s a)) (l : List α) (s : State) :
    OnlyEnds s (l.foldl f s) := foldl_keeps refl trans hf l s

end OnlyEnds

/-- A command joins the accepted ones although others may have completed since it was read. -/
theorem mem_accept {s t : State} {h : Hdr} {op : Nat} {who : Who} {exempt : Bool} {again : Instr} {snd : Sender}
    (hacc : Accepts s h op who exempt again snd) (hold : ∀ w ∈ t.accepted, w ∈ s.accepted) :
    waitOf s h op snd ∈ (accept (waitOf s h op snd) t).accepted := by
  have hfresh : (t.accepted.any fun a => a.sess == h.sess && a.ref == h.ref) = false := by
    obtain ⟨-, -, -, -, -, -, hgate⟩ := hacc
    have hnone := gate_fresh hgate
    rw [refBusy, takeCmd_accepted, List.any_eq_false] at hnone
    exact List.any_eq_false.mpr fun a ha => hnone a (hold a ha)
  rw [accept_fresh hfresh]
  exact List.mem_append_right _ (List.mem_singleton_self _)

theorem onlyEnds_complete (w : Wait) (status detail : Nat) (result : List Byte) (s : State) :
    OnlyEnds s (complete w status detail result s) where
  accepted a ha := by
    rw [complete_accepted] at ha
    exact (List.mem_filter.mp ha).1
  registry := (Beside.of_hostOnly (hostOnly_complete w status detail result s)).registry

theorem countRefuse_registry (w : Wait) (code detail : Nat) (s : State) :
    (countRefuse w code detail s).registry = s.registry := by
  have hruns (s : State) : (logRefusals s).registry = s.registry :=
    (Beside.of_hostOnly (HostOnly.foldl _ (fun s r => hostOnly_logAdd (refusalEntry r) s) _ _)).registry
  have hsample (s : State) : (monSample 2 7 code s).registry = s.registry :=
    (Beside.of_hostOnly (hostOnly_monSample 2 7 code s)).registry
  unfold countRefuse logRefuse
  simp only
  split <;> exact (hruns _).trans (hsample _)

theorem onlyEnds_endWith (w : Wait) (status : Nat) (s : State) : OnlyEnds s (endWith w status s) := by
  unfold endWith refuse
  split
  · exact (OnlyEnds.of_same (countRefuse_accepted ..) (countRefuse_registry ..)).trans (onlyEnds_complete ..)
  · exact onlyEnds_complete ..

end Sys2Proof.Machine
end

section
/-! The commands on the adaptation registry (12 R348 to R350, R355, R362, R366, R367, R372; 17 R490, R507): the answer of
each once its checks hold, and what a registration leaves alone. -/

namespace Sys2Proof

/-- A key that a table holds reads as changed. -/
theorem Table.get_upd {α : Type} {t : Table α} {k : Nat} {v : α} (hv : t.get k = some v) (f : α → α) :
    (t.upd k f).get k = some (f v) := by
  simp [Table.upd, hv]

namespace Machine

open Sys2Proof.Safety

@[simp] theorem getPage_takeCmd (h : Hdr) (s : State) (n : Nat) : getPage (takeCmd h s) n = getPage s n := by
  rw [takeCmd_frame]
  rfl

@[simp] theorem takeCmd_mem (h : Hdr) (s : State) : (takeCmd h s).mem = s.mem := by rw [takeCmd_frame]

@[simp] theorem takeCmd_devKeyGen (h : Hdr) (s : State) : (takeCmd h s).devKeyGen = s.devKeyGen := by rw [takeCmd_frame]

theorem modAdapt_accepted (id : Nat) (f : Adapt → Adapt) (s : State) : (modAdapt id f s).accepted = s.accepted := rfl

/-! ## Queries and reads (R349, R367) -/

section

variable {s : State} {h : Hdr} {snd : Sender} {id : Nat} {a : Adapt}

theorem exec_adaptQuery_replies (hid : id < 65536) (ha : s.registry.get id = some a)
    (hacc : Accepts s h 0x0302 .any true (.adaptQuery h id) snd) (hholds : snd.control = true ∨ snd.holds a.owner = true) :
    exec (.adaptQuery h id) s =
      .next (replied (waitOf s h 0x0302 snd) (adaptEntry id a (snd.holds a.owner)) (takeCmd h s)) := by
  rw [exec_adaptQuery, execAdaptQuery]
  refine command_ok hacc ?_
  simp only [control_or_adaptAuth_takeCmd ha hholds, hid, takeCmd_registry, ha, decide_true, require_true]
  rfl

theorem exec_adaptRead_writes {r : Range} (hid : id < 65536) (ha : s.registry.get id = some a)
    (hacc : Accepts s h 0x0303 .holder false (.adaptRead h id r) snd) (hholds : snd.holds a.owner = true)
    (hroom : a.f.bytes ≤ r.len) (hpos : 0 < r.len) (hlen : r.len < 0xFFFFFFFF) (hin : r.off + r.len ≤ snd.window)
    (hstate : a.state ≠ .loading) (hclean : ∀ n ∈ adaptPages a, (getPage s n).poison = false) :
    exec (.adaptRead h id r) s = .next (replied (waitOf s h 0x0303 snd) []
      (windowWrite (waitOf s h 0x0303 snd) r.off (Mem.readN s.mem a.home a.f.bytes) (takeCmd h s))) := by
  have hnone : ((adaptPages a).any fun n => (getPage s n).poison) = false := by simpa using hclean
  rw [exec_adaptRead, execAdaptRead]
  refine command_ok hacc ?_
  simp only [adaptAuth_takeCmd ha hholds, rangeLen, hlen, hid, rangeOk, hin, Nat.ne_of_gt hpos, takeCmd_registry, ha, hroom,
    bne_iff_ne.mpr hstate, getPage_takeCmd, hnone, takeCmd_mem, decide_true, require_true, Bool.false_eq_true, if_false]
  rfl

/-! ## Entries that go (R350) -/

/-- The region that holds an entry's contents is released, if there is one. -/
def homeReleased (a : Adapt) (s : State) : State :=
  match s.regions.find? fun r => r.base == a.home && r.slot.isNone with
  | some r => releaseRegion r s
  | none => s

theorem homeReleased_registry (a : Adapt) (s : State) : (homeReleased a s).registry = s.registry := by
  unfold homeReleased
  split
  · exact (released_releaseRegion _ s).registry
  · rfl

/-- The entry is free, and its home no longer counts against the owner's quota (R350, R368). -/
def unregistered (id : Nat) (a : Adapt) (s : State) : State :=
  modTenant a.owner (useHome a.f.tier (· - wholePages a.f.bytes))
    { homeReleased a s with registry := (homeReleased a s).registry.del id }

theorem unregistered_registry (id : Nat) (a : Adapt) (s : State) : (unregistered id a s).registry = s.registry.del id :=
  congrArg (Table.del · id) (homeReleased_registry a s)

theorem exec_adaptUnregister_frees (hid : id < 65536) (ha : s.registry.get id = some a)
    (hacc : Accepts s h 0x0304 .holder false (.adaptUnregister h id) snd) (hholds : snd.holds a.owner = true)
    (hpins : a.pins = 0) (hbound : a.bound = 0) (hstate : a.state = .ready ∨ a.state = .stale ∨ a.state = .invalid) :
    exec (.adaptUnregister h id) s = .next (finished (waitOf s h 0x0304 snd) 0xFF (leBytes 2 id) []
      (unregistered id a (takeCmd h s))) := by
  have hrest : (a.state == .ready || a.state == .stale || a.state == .invalid) = true := by
    simpa [or_assoc] using hstate
  rw [exec_adaptUnregister, execAdaptUnregister]
  refine command_ok hacc ?_
  simp only [adaptAuth_takeCmd ha hholds, hid, takeCmd_registry, ha, hpins, hbound, hrest, beq_self_eq_true, decide_true,
    Bool.and_self, require_true]
  rfl

/-! ## Grants (R355, R372) -/

theorem exec_adaptGrant_adds {context : Nat} (hid : id < 65536) (ha : s.registry.get id = some a)
    (hacc : Accepts s h 0x0308 .holder false (.adaptGrant h id true context) snd) (hholds : snd.holds a.owner = true)
    (hcontext : context < 4096) (hstate : a.state ≠ .loading) (hnew : context ∉ a.grantees)
    (hroom : a.grantees.length < 15) :
    exec (.adaptGrant h id true context) s =
      .next (finished (waitOf s h 0x0308 snd) 0xFF (leBytes 2 id ++ leBytes 1 1 ++ leBytes 2 context) []
        { takeCmd h s with registry := s.registry.put id { a with grantees := a.grantees ++ [context] } }) := by
  have hrest : a.grantees.filter (· != context) = a.grantees :=
    List.filter_eq_self.mpr fun c hc => bne_iff_ne.mpr fun e => hnew (e ▸ hc)
  have hnot : a.grantees.contains context = false := by simpa using hnew
  rw [exec_adaptGrant, execAdaptGrant]
  refine command_ok hacc ?_
  simp only [adaptAuth_takeCmd ha hholds, hcontext, hid, takeCmd_registry, ha, bne_iff_ne.mpr hstate, hrest, hroom, hnot,
    decide_true, Bool.or_true, require_true, if_true, Bool.false_eq_true, if_false]
  rfl

theorem exec_adaptGrant_removes {context : Nat} (hid : id < 65536) (ha : s.registry.get id = some a)
    (hacc : Accepts s h 0x0308 .holder false (.adaptGrant h id false context) snd) (hholds : snd.holds a.owner = true)
    (hcontext : context < 4096) (hstate : a.state ≠ .loading) :
    let a' : Adapt := { a with grantees := a.grantees.filter (· != context) }
    exec (.adaptGrant h id false context) s =
      .next (finished (waitOf s h 0x0308 snd) 0xFF (leBytes 2 id ++ leBytes 1 0 ++ leBytes 2 context) []
        (denyClaims id a' { takeCmd h s with registry := s.registry.put id a' })) := by
  intro a'
  rw [exec_adaptGrant, execAdaptGrant]
  refine command_ok hacc ?_
  simp only [adaptAuth_takeCmd ha hholds, hcontext, hid, takeCmd_registry, ha, bne_iff_ne.mpr hstate, decide_true,
    Bool.not_false, Bool.true_or, require_true, Bool.false_eq_true, if_false]
  rfl

/-! ## Revocation (R362) -/

/-- The claims of a job on a revoked entry end, and its registry entry stays. -/
theorem onlyEnds_revokeIn (slot id : Nat) (s : State) : OnlyEnds s (revokeIn slot id s) := by
  unfold revokeIn
  split
  · exact .refl s
  · exact OnlyEnds.trans (t := modJob slot _ s) (.of_same rfl rfl) (OnlyEnds.foldl (fun s c => onlyEnds_endWith ..) _ _)

/-- What a revocation does before its entry waits for the last pin: it is logged, and claims and requests end. -/
def claimsRevoked (w : Wait) (id : Nat) (s : State) : State :=
  ((logChange w 0xFF 0 (leBytes 2 id) s).slots.map (·.1)).foldl (fun s i => revokeIn i id s)
    (revokeRequests id (logChange w 0xFF 0 (leBytes 2 id) s))

theorem onlyEnds_claimsRevoked (w : Wait) (id : Nat) (s : State) : OnlyEnds s (claimsRevoked w id s) := by
  have hlog : OnlyEnds s (revokeRequests id (logChange w 0xFF 0 (leBytes 2 id) s)) :=
    .of_same (logChange_accepted s w 0xFF 0 (leBytes 2 id))
      (Beside.of_hostOnly (hostOnly_logChange w 0xFF 0 (leBytes 2 id) s)).registry
  exact hlog.trans (.foldl (fun s i => onlyEnds_revokeIn i id s) _ _)

/-- An entry with pins is revoking, and the command waits for the last of them. -/
def Adapt.revokedBy (w : Wait) (a : Adapt) : Adapt := { a with state := .revoking, revokeWaits := a.revokeWaits ++ [w] }

/-- The state in which a revocation waits. -/
def revoking (w : Wait) (id : Nat) (s : State) : State := modAdapt id (Adapt.revokedBy w) (accept w (claimsRevoked w id s))

/-- A revocation that waits is among the accepted commands and in its entry. -/
theorem revoked_waits (ha : s.registry.get id = some a) (hacc : Accepts s h 0x0307 .any false (.adaptRevoke h id) snd) :
    waitOf s h 0x0307 snd ∈ (revoking (waitOf s h 0x0307 snd) id (takeCmd h s)).accepted ∧
      (revoking (waitOf s h 0x0307 snd) id (takeCmd h s)).registry.get id = some (a.revokedBy (waitOf s h 0x0307 snd)) := by
  have hends : OnlyEnds s (claimsRevoked (waitOf s h 0x0307 snd) id (takeCmd h s)) :=
    (OnlyEnds.of_same (takeCmd_accepted h s) (takeCmd_registry h s)).trans (onlyEnds_claimsRevoked ..)
  rw [revoking, modAdapt_accepted]
  refine ⟨mem_accept hacc hends.accepted, Table.get_upd ?_ _⟩
  rw [(Beside.of_hostOnly (hostOnly_accept _ _)).registry, hends.registry, ha]

theorem exec_adaptRevoke_waits (hid : id < 65536) (ha : s.registry.get id = some a)
    (hacc : Accepts s h 0x0307 .any false (.adaptRevoke h id) snd) (hholds : snd.control = true ∨ snd.holds a.owner = true)
    (hstate : a.state = .ready ∨ a.state = .revoking) (hpins : 0 < a.pins) :
    exec (.adaptRevoke h id) s = .next (revoking (waitOf s h 0x0307 snd) id (takeCmd h s)) := by
  have hrest : (a.state == .ready || a.state == .revoking) = true := by simpa using hstate
  rw [exec_adaptRevoke, execAdaptRevoke]
  refine command_ok hacc ?_
  simp only [control_or_adaptAuth_takeCmd ha hholds, hid, takeCmd_registry, ha, hrest, Nat.ne_of_gt hpins, decide_true,
    require_true, if_false]
  rfl

end

/-! ## Registration (R348, R490) -/

/-- The entry that a registration makes (R347, R348). -/
def registered (home : Nat) (h : Hdr) (f : AdaptF) (bytes : List Byte) (s : State) : Adapt :=
  { newEntry h f with state := .ready, home, digest := digest64 bytes, registered := s.ptp.now, loadRef := none,
                      baseDigest := (s.base.map (·.man.digest)).getD [] }

/-- The region of an entry's contents, under the device's memory key (R490). -/
def adaptRegion (home : Nat) (h : Hdr) (f : AdaptF) (s : State) : Region :=
  { base := home, size := wholePages f.bytes, kind := 0, owner := h.context, kgen := s.devKeyGen }

/-- The entry and its region stand, the contents are still to be written. -/
def adaptPut (id home : Nat) (h : Hdr) (f : AdaptF) (bytes : List Byte) (s : State) : State :=
  { s with regions := s.regions ++ [adaptRegion home h f s],
           registry := s.registry.put id (registered home h f bytes s) }

/-- Writing the contents changes memory with its pages and versions; the owner's context then counts the home (R368). -/
theorem putAdapt_store (id home : Nat) (h : Hdr) (f : AdaptF) (bytes : List Byte) (s : State) :
    { putAdapt id home h f bytes s with mem := s.mem, pages := s.pages, versions := s.versions, verRoot := s.verRoot } =
      modTenant h.context (useHome f.tier (· + wholePages f.bytes)) (adaptPut id home h f bytes s) := by
  have hstore : TiersOnly _ _ := storeAt_only home bytes (adaptPut id home h f bytes s)
  exact congrArg (modTenant h.context (useHome f.tier (· + wholePages f.bytes))) hstore

theorem putAdapt_fields (id home : Nat) (h : Hdr) (f : AdaptF) (bytes : List Byte) (s : State) :
    (putAdapt id home h f bytes s).registry = s.registry.put id (registered home h f bytes s) ∧
      (putAdapt id home h f bytes s).mem = Mem.writeN s.mem home bytes ∧
      (putAdapt id home h f bytes s).regions = s.regions ++ [adaptRegion home h f s] ∧
      (putAdapt id home h f bytes s).tenants =
        s.tenants.put h.context (useHome f.tier (· + wholePages f.bytes) (s.tenants.getD h.context {})) ∧
      (putAdapt id home h f bytes s).winReads = s.winReads := by
  have hstore := putAdapt_store id home h f bytes s
  have hreads := congrArg State.winReads hstore
  exact ⟨congrArg State.registry hstore, storeAt_mem home bytes (adaptPut id home h f bytes s),
    congrArg State.regions hstore, congrArg State.tenants hstore, hreads⟩

/-- A registration changes the registry, the regions, its context and the tiers alone. -/
theorem putAdapt_frame (id home : Nat) (h : Hdr) (f : AdaptF) (bytes : List Byte) (s : State) :
    { putAdapt id home h f bytes s with
      registry := s.registry, mem := s.mem, regions := s.regions, tenants := s.tenants, pages := s.pages,
      versions := s.versions, verRoot := s.verRoot } = s :=
  congrArg (fun u : State => { u with registry := s.registry, regions := s.regions, tenants := s.tenants })
    (putAdapt_store id home h f bytes s)

/-- Fields whose layers are those below 256 are taken as they come. -/
theorem layers_in_order {f : AdaptF} (hlayers : f.layers = (List.range 256).filter f.layers.contains) :
    { f with layers := (List.range 256).filter f.layers.contains ++ f.layers.filter fun l => decide (256 ≤ l) } = f := by
  have hsmall : f.layers.filter (fun l => decide (256 ≤ l)) = [] := by
    refine List.filter_eq_nil_iff.mpr fun l hl => ?_
    rw [hlayers] at hl
    have := List.mem_range.mp (List.mem_filter.mp hl).1
    simpa using this
  rw [hsmall, List.append_nil, ← hlayers]

theorem registerState_done {h : Hdr} {t : State} (f : AdaptF) (hwin : h.win = 0) (hreads : t.winReads = []) :
    registerState h f t = t := by
  unfold registerState
  simp only [hreads, hwin, List.any_nil]
  cases loadingEntry t h <;> rfl

theorem saltedDigest_winReads (d : List Byte) (s : State) : (saltedDigest d s).2.winReads = s.winReads := rfl

/-- What a registration asks of its fields and contents (R345, R346, R348). -/
structure AdaptFits (b : State) (f : AdaptF) (r : Range) (bytes : List Byte) : Prop where
  fields : adaptFieldsOk f = true
  shape : adaptBytes f = f.bytes
  range : r.len = f.bytes
  length : bytes.length = f.bytes
  placed : adaptPlaced b f = true

/-- What a registration asks of the context's quotas and of the device's tables (R348, R368). -/
structure AdaptRoom (s : State) (c : Nat) (f : AdaptF) : Prop where
  entries : (s.registry.filter fun p => p.2.owner == c).length < (s.tenants.getD c {}).quotas.reg
  home : ∀ q, homeQuota (s.tenants.getD c {}) f.tier = some q → q.1 + wholePages f.bytes ≤ q.2
  regions : s.regions.length < maxRegions
  number : lowestFree s.registry < 65536

/-- The entries that a registration counts are among those of its context. -/
theorem AdaptRoom.entryFits {s : State} {c : Nat} {f : AdaptF} (hroom : AdaptRoom s c f) (h : Hdr) :
    (s.registry.filter fun p => p.2.owner == c && p.2.loadRef != some (h.sess, h.ref)).length <
      (s.tenants.getD c {}).quotas.reg := by
  have hamong : (s.registry.filter fun p => p.2.owner == c && p.2.loadRef != some (h.sess, h.ref)) =
      (s.registry.filter fun p => p.2.owner == c).filter fun p => p.2.loadRef != some (h.sess, h.ref) :=
    (List.filter_congr fun _ _ => Bool.and_comm ..).trans List.filter_filter.symm
  rw [hamong]
  exact Nat.lt_of_le_of_lt (List.length_filter_le _ _) hroom.entries

theorem AdaptRoom.homeFits {s : State} {c : Nat} {f : AdaptF} (hroom : AdaptRoom s c f) :
    ((homeQuota (s.tenants.getD c {}) f.tier).map fun q => decide (q.1 + wholePages f.bytes ≤ q.2)).getD true = true := by
  cases hq : homeQuota (s.tenants.getD c {}) f.tier with
  | none => rw [Option.map_none, Option.getD_none]
  | some q => rw [Option.map_some, Option.getD_some, decide_eq_true (hroom.home q hq)]

theorem exec_adaptRegister_puts {s : State} {h : Hdr} {snd : Sender} {f : AdaptF} {r : Range} {bytes : List Byte}
    {home : Nat} (hlayers : f.layers = (List.range 256).filter f.layers.contains)
    (hacc : Accepts s h 0x0301 .holder false (.adaptRegister { h with win := 2 } f r bytes) snd) (hreads : s.winReads = [])
    (hloading : loadingEntry s h = none) (hmine : h.context ∈ snd.contexts) (hcontext : 0 < h.context)
    (hrange : 0 < r.len ∧ r.len < 0xFFFFFFFF ∧ r.off + r.len ≤ snd.window) (hfits : AdaptFits (takeCmd h s) f r bytes)
    (hroom : AdaptRoom s h.context f)
    (hfree : freeRange (takeCmd h s) f.tier (wholePages f.bytes) pageBytes = some home) {u : State}
    (hu : putAdapt (lowestFree s.registry) home h f bytes (takeCmd h s) = u) :
    exec (.adaptRegister h f r bytes) s = .next (finished (waitOf s h 0x0301 snd) 0xFF
      (leBytes 2 (lowestFree s.registry) ++ (saltedDigest (digest64 bytes) u).1) (leBytes 2 (lowestFree s.registry))
      (saltedDigest (digest64 bytes) u).2) := by
  obtain ⟨hpos, hlen, hin⟩ := hrange
  have hsender : (snd.contexts.contains h.context && h.context != 0) = true := by
    simpa [Nat.ne_of_gt hcontext] using hmine
  have hfresh : loadingEntry (takeCmd h s) h = none := by rwa [loadingEntry, takeCmd_registry]
  have hcontents : fitTo f.bytes bytes = bytes := by
    rw [fitTo, ← hfits.length, List.take_left]
  have hshape : (f.bytes == adaptBytes f && r.len == f.bytes) = true := by simp [hfits.shape, hfits.range]
  rw [exec_adaptRegister, execAdaptRegister, layers_in_order hlayers]
  rw [command_ok hacc (u := finished (waitOf s h 0x0301 snd) 0xFF
    (leBytes 2 (lowestFree s.registry) ++ (saltedDigest (digest64 bytes) u).1) (leBytes 2 (lowestFree s.registry))
    (saltedDigest (digest64 bytes) u).2)]
  · simp only
    have hkept : u.winReads = [] := by
      obtain ⟨-, -, -, -, hwaits⟩ := putAdapt_fields (lowestFree s.registry) home h f bytes (takeCmd h s)
      rw [← hu, hwaits, takeCmd_winReads, hreads]
    rw [registerState_done f hacc.2.1 (by rw [finished_winReads, saltedDigest_winReads, hkept])]
  · simp only [hsender, hfits.fields, rangeLen, hlen, rangeOk, hin, Nat.ne_of_gt hpos, hshape, hfits.placed,
      takeCmd_registry, takeCmd_tenants, takeCmd_regions, hroom.entryFits h, hroom.homeFits, hroom.regions, hfresh,
      hroom.number, hfree, hcontents, hu, Option.getD_none, decide_true, Bool.and_self, require_true, content_true, if_false]
    rfl

/-! ## The obligation -/

/-- Settles O13: each command's answer by its own lemma; what a revocation ends by `onlyEnds_claimsRevoked`, and what a
registration leaves by `putAdapt_fields` and `putAdapt_frame`. -/
theorem registryCommandsComplete : Obligations.RegistryCommandsComplete := by
  constructor
  · intro s h snd id a b hid ha
    refine ⟨exec_adaptQuery_replies hid ha, fun r hacc => exec_adaptRead_writes hid ha hacc, ?_,
      fun context hacc => exec_adaptGrant_adds hid ha hacc, fun context hacc => exec_adaptGrant_removes hid ha hacc, ?_⟩
    · intro hacc hholds hpins hbound hstate
      refine ⟨_, exec_adaptUnregister_frees hid ha hacc hholds hpins hbound hstate, ?_, fun j hj => ?_⟩
      · rw [unregistered_registry, Table.get_del_self]
      · rw [unregistered_registry, Table.get_del_other _ _ _ hj, takeCmd_registry]
    · intro hacc hholds hstate hpins
      obtain ⟨hwaits, hentry⟩ := revoked_waits ha hacc
      exact ⟨_, exec_adaptRevoke_waits hid ha hacc hholds hstate hpins, hwaits, by rw [hentry]; rfl, by rw [hentry]; rfl⟩
  · intro s h snd f r bytes home b id hlayers hacc hreads hloading hmine hcontext hfields hshape hr hpos hlen hin hbytes
      hplaced hid hquota hhome hroom hfree
    obtain ⟨hregistry, hmem, hregions, htenants, -⟩ := putAdapt_fields id home h f bytes b
    have hexec := exec_adaptRegister_puts hlayers hacc hreads hloading hmine hcontext ⟨hpos, hlen, hin⟩
      ⟨hfields, hshape, hr, hbytes, hplaced⟩ ⟨hquota, hhome, hroom, hid⟩ hfree rfl
    refine ⟨putAdapt id home h f bytes b, registered home h f bytes b, hexec, ?_, rfl, rfl, rfl, rfl, rfl, rfl, rfl,
      fun j hj => ?_, ?_, ?_, ?_, ?_⟩
    · rw [hregistry, Table.get_put_self]
    · rw [hregistry, Table.get_put_other _ _ _ _ hj, takeCmd_registry]
    · rw [hmem, takeCmd_mem]
    · rw [hregions, takeCmd_regions, adaptRegion, takeCmd_devKeyGen]
    · rw [htenants, takeCmd_tenants]
    · have hframe := putAdapt_frame id home h f bytes (takeCmd h s)
      change _ = takeCmd h s
      generalize putAdapt id home h f bytes (takeCmd h s) = u at hframe ⊢
      rw [takeCmd_frame] at hframe ⊢
      exact hframe

end Machine

end Sys2Proof
end

section
/-! Contexts, principal keys and key rotation (12 R368 to R370, 17 R488, R495 to R498; log entry 54): the answer of each
command once its checks hold, and the state in which a close or a rotation waits. -/

namespace Sys2Proof.Machine

open Sys2Proof.Safety

/-! ## What leaves the contexts alone -/

theorem HostOnly.tenants {s t : State} (h : HostOnly s t) : t.tenants = s.tenants := (Beside.of_hostOnly h).tenants

theorem HostOnly.slots {s t : State} (h : HostOnly s t) : t.slots = s.slots := (Beside.of_hostOnly h).slots

theorem HostOnly.deviceKey {s t : State} (h : HostOnly s t) :
    t.devKeyGen = s.devKeyGen ∧ t.devOldGen = s.devOldGen ∧ t.devRotWaits = s.devRotWaits := by
  unfold HostOnly withHostSide at h
  rw [← h]
  exact ⟨rfl, rfl, rfl⟩

/-- A session that closes changes the host's side alone (15 R437). -/
theorem hostOnly_closeSession (i : Nat) (s : State) : HostOnly s (closeSession i s) := by
  unfold closeSession
  split
  · rfl
  · simp only
    refine HostOnly.trans ?_ (hostOnly_outDrain ..)
    split
    · exact ((hostOnly_logAdd ..).after (hostOnly_watchOut ..)).after rfl
    · exact (hostOnly_watchOut ..).after rfl

theorem hostOnly_closeKeySessions (c : Nat) (keys : List (List Byte)) (s : State) :
    HostOnly s (closeKeySessions c keys s) := by
  unfold closeKeySessions
  exact HostOnly.foldl (fun s (p : Nat × Session) => closeSession p.1 s) (fun s p => hostOnly_closeSession p.1 s) _ _

/-- A released region leaves every context as it was. -/
theorem releaseRegion_tenants (r : Region) (s : State) : (releaseRegion r s).tenants = s.tenants := by
  unfold releaseRegion
  simp only
  split
  · rfl
  · exact (hostOnly_logInternal ..).tenants.trans (beside_dropDescs r s).tenants

theorem foldl_releaseRegion_tenants (l : List Region) (s : State) :
    (l.foldl (fun s r => releaseRegion r s) s).tenants = s.tenants :=
  foldl_keeps (R := fun s t : State => t.tenants = s.tenants) (fun _ => rfl) (fun h k => k.trans h)
    (fun s r => releaseRegion_tenants r s) l s

theorem modTenant_takeCmd (h : Hdr) (s : State) (c : Nat) (f : Tenant → Tenant) :
    modTenant c f (takeCmd h s) = { takeCmd h s with tenants := s.tenants.put c (f (s.tenants.getD c {})) } := by
  rw [modTenant, takeCmd_tenants]

/-! ## `TENANT.OPEN`, `TENANT.QUOTA` and `TENANT.CLOSE` (R368 to R370) -/

section

variable {s : State} {h : Hdr} {snd : Sender} {context : Nat}

/-- A context as it opens: the setup image's quotas, one principal key, and a memory key (R369, R488). -/
def openedTenant (key : List Byte) (s : State) : Tenant :=
  { state := .opened, quotas := s.setup.quotas, keys := [key], key := Config.freeBytes s.free 32 }

def contextOpened (context : Nat) (key : List Byte) (s : State) : State :=
  { s with free := s.free + 1, tenants := s.tenants.put context (openedTenant key s) }

theorem contextOpened_frame (context : Nat) (key : List Byte) (s : State) :
    { contextOpened context key s with tenants := s.tenants, free := s.free } = s := rfl

theorem exec_tenantOpen_opens {key : List Byte} (hacc : Accepts s h 0x0501 .control false (.tenantOpen h context key) snd)
    (hpos : 0 < context) (hmax : context < 4096) (hlength : key.length = 57) (hkey : emptyKey key = false)
    (hclosed : (s.tenants.getD context {}).state = .closed) :
    exec (.tenantOpen h context key) s = .next (finished (waitOf s h 0x0501 snd) 0xFF (leBytes 2 context ++ prinTag key) []
      (contextOpened context key (takeCmd h s))) := by
  rw [exec_tenantOpen, execTenantOpen]
  refine command_ok hacc ?_
  simp only [bne_iff_ne.mpr (Nat.ne_of_gt hpos), hlength, hkey, contextOk, hmax, takeCmd_tenants, hclosed, decide_true,
    Bool.not_false, Bool.and_self, require_true]
  rfl

theorem require_pos {c : Bool} {code detail : Nat} {k : Except (Nat × Nat) State} (hc : c = true) :
    require c code detail k = k := by
  rw [hc, require_true]

/-- Quotas within their ranges (R368, R480). -/
structure QuotasOk (n : Quotas) : Prop where
  hotPages : n.hot % 65536 = 0
  reg : n.reg ≤ 65536
  parts : n.parts ≤ 64
  prin : n.prin ≤ 4096
  hot : n.hot < 2 ^ 64 - 1
  kv : n.kv < 2 ^ 64 - 1
  lp : n.lp < 2 ^ 64 - 1
  fl : n.fl < 2 ^ 64 - 1
  req : n.req < 2 ^ 32 - 1
  sess : n.sess < 2 ^ 32 - 1

theorem exec_tenantQuota_sets {mask : Nat} {q : Quotas}
    (hacc : Accepts s h 0x0502 .control false (.tenantQuota h context mask q) snd) (hmax : context < 4096)
    (hmask : mask < 512) (hopen : (s.tenants.getD context {}).state = .opened)
    (hok : QuotasOk (maskQuotas mask q (s.tenants.getD context {}).quotas)) :
    exec (.tenantQuota h context mask q) s =
      .next (finished (waitOf s h 0x0502 snd) 0xFF (leBytes 2 context ++ leBytes 2 mask) []
        { takeCmd h s with
          tenants := s.tenants.put context
            (withQuotas (s.tenants.getD context {}) (maskQuotas mask q (s.tenants.getD context {}).quotas)) }) := by
  rw [exec_tenantQuota, execTenantQuota]
  refine command_ok hacc ?_
  simp only [takeCmd_tenants]
  generalize maskQuotas mask q (s.tenants.getD context {}).quotas = n at hok ⊢
  obtain ⟨hpages, hreg, hparts, hprin, hhot, hkv, hlp, hfl, hreq, hsess⟩ := hok
  refine (require_pos ?_).trans ((require_pos ?_).trans ((require_pos ?_).trans ?_))
  · simp only [contextOk, Bool.and_eq_true, decide_eq_true_eq, Bool.not_eq_true', beq_eq_false_iff_ne, bne_iff_ne]
    omega
  · simp only [Bool.and_eq_true, decide_eq_true_eq]
    omega
  · rw [openCtx, takeCmd_tenants, hopen, beq_self_eq_true]
  · rw [modTenant_takeCmd]
    rfl

/-- A context that closes: its keys are gone, and a rotation under way completes with the close (R370, R498). -/
def closingTenant (w : Wait) (ranges : List (Nat × Nat)) (t : Tenant) : Tenant :=
  { t with state := .closing, keys := [], key := [], oldGen := none, closeWaits := t.rotWaits ++ [w], closeRanges := ranges }

/-- The regions that a context gives up as it closes. -/
def contextRegions (c : Nat) (s : State) : List Region :=
  s.regions.filter fun r => r.owner == c && r.kind != 4 && r.kind != 5

/-- The context's regions are released and its keys gone (R370). -/
def contextReleased (w : Wait) (c : Nat) (s : State) : State :=
  modTenant c (closingTenant w ((contextRegions c s).map fun r => (r.base, r.stop - r.base)))
    ((contextRegions c s).foldl (fun s r => releaseRegion r s) { s with ckpts := s.ckpts.filter fun p => p.owner != c })

/-- The close is accepted, and the sessions of the context's keys close (15 R437). -/
def contextClosing (w : Wait) (c : Nat) (s : State) : State :=
  closeKeySessions c (s.tenants.getD c {}).keys (accept w (contextReleased w c s))

theorem contextClosing_tenant (w : Wait) (c : Nat) (s : State) : (contextClosing w c s).tenants.getD c {} =
    closingTenant w ((contextRegions c s).map fun r => (r.base, r.stop - r.base)) (s.tenants.getD c {}) := by
  have hhost : HostOnly (contextReleased w c s) (contextClosing w c s) :=
    (hostOnly_closeKeySessions ..).after (hostOnly_accept ..)
  rw [hhost.tenants, contextReleased, modTenant, Table.getD_put_self, foldl_releaseRegion_tenants]

theorem exec_tenantClose_closes (hacc : Accepts s h 0x0503 .control false (.tenantClose h context) snd) (hpos : 0 < context)
    (hmax : context < 4096) (hopen : (s.tenants.getD context {}).state = .opened)
    (hidle : contextIdle (takeCmd h s) context = true) :
    exec (.tenantClose h context) s =
      .next (closeZeroed (contextClosing (waitOf s h 0x0503 snd) context (takeCmd h s))) := by
  rw [exec_tenantClose, execTenantClose]
  refine command_ok hacc ?_
  simp only [bne_iff_ne.mpr (Nat.ne_of_gt hpos), contextOk, hmax, openCtx, takeCmd_tenants, hopen, hidle, beq_self_eq_true,
    decide_true, Bool.and_self, require_true]
  rw [contextClosing, contextReleased, takeCmd_tenants]
  rfl

/-! ## `PRIN.KEY` (R488) -/

theorem exec_prinKey_enrols {key : List Byte} (hacc : Accepts s h 0x0605 .holder false (.prinKey h false key) snd)
    (hlength : key.length = 57) (hkey : emptyKey key = false) (hnew : key ∉ (s.tenants.getD h.context {}).keys)
    (hroom : (s.tenants.getD h.context {}).keys.length < 16) :
    exec (.prinKey h false key) s = .next (finished (waitOf s h 0x0605 snd) 0xFF (leBytes 1 0 ++ prinTag key) []
      { takeCmd h s with
        tenants := s.tenants.put h.context
          (withKeys (s.tenants.getD h.context {}) ((s.tenants.getD h.context {}).keys ++ [key])) }) := by
  have hnot : (s.tenants.getD h.context {}).keys.contains key = false := by simpa using hnew
  rw [exec_prinKey, execPrinKey]
  refine command_ok hacc ?_
  simp only [hlength, hkey, takeCmd_tenants, hnot, hroom, beq_self_eq_true, decide_true, Bool.not_false, Bool.and_self,
    Bool.or_true, require_true, modTenant_takeCmd, Bool.false_eq_true, if_false]
  rfl

theorem exec_prinKey_retires {key : List Byte} (hacc : Accepts s h 0x0605 .holder false (.prinKey h true key) snd)
    (hlength : key.length = 57) (hkey : emptyKey key = false) (hold : key ∈ (s.tenants.getD h.context {}).keys) :
    exec (.prinKey h true key) s = .next (closeKeySessions h.context [key]
      (finished (waitOf s h 0x0605 snd) 0xFF (leBytes 1 1 ++ prinTag key) []
        { takeCmd h s with
          tenants := s.tenants.put h.context
            (withKeys (s.tenants.getD h.context {}) ((s.tenants.getD h.context {}).keys.filter (· != key))) })) := by
  have hheld : (s.tenants.getD h.context {}).keys.contains key = true := by simpa using hold
  rw [exec_prinKey, execPrinKey]
  refine command_ok hacc ?_
  simp only [hlength, hkey, takeCmd_tenants, hheld, beq_self_eq_true, decide_true, Bool.not_false, Bool.and_self,
    Bool.true_or, require_true, modTenant_takeCmd, if_true]
  rfl

end

/-! ## `KEY.ROTATE` (R488, R495 to R498) -/

section

variable {s : State} {h : Hdr} {snd : Sender} {target : Nat}

/-- A context whose memory key takes its next generation: the old one stays for the pages that still use it (R495). -/
def rotatedTenant (w : Wait) (key : List Byte) (t : Tenant) : Tenant :=
  { t with keyGen := t.keyGen + 1, oldGen := some t.keyGen, key, rotWaits := [w] }

def contextRotated (w : Wait) (c : Nat) (s : State) : State :=
  modTenant c (rotatedTenant w (Config.freeBytes s.free 32)) { s with free := s.free + 1 }

theorem contextRotated_tenant (w : Wait) (c : Nat) (s : State) : (contextRotated w c s).tenants.getD c {} =
    rotatedTenant w (Config.freeBytes s.free 32) (s.tenants.getD c {}) := Table.getD_put_self ..

/-- The device's memory key takes its next generation (R496). -/
def deviceRotated (w : Wait) (s : State) : State :=
  { s with devKeyGen := s.devKeyGen + 1, devOldGen := some s.devKeyGen, devRotWaits := [w] }

theorem deviceRotated_takeCmd (w : Wait) (h : Hdr) (s : State) :
    (deviceRotated w (takeCmd h s)).devKeyGen = s.devKeyGen + 1 ∧
      (deviceRotated w (takeCmd h s)).devOldGen = some s.devKeyGen := by
  rw [← takeCmd_devKeyGen h s]
  exact ⟨rfl, rfl⟩

/-- A job is asked for a new link key (R497). -/
def linkKeyAsked (w : Wait) (slot : Nat) (s : State) : State :=
  modJob slot (fun j => { j with keyAsk := true, keyWaits := [w] }) s

/-- A rotation is logged, and its command waits. -/
def rotationWaits (w : Wait) (slot : Nat) (detail : List Byte) (u : State) : State := accept w (logChange w slot 0 detail u)

theorem hostOnly_rotationWaits (w : Wait) (slot : Nat) (detail : List Byte) (u : State) :
    HostOnly u (rotationWaits w slot detail u) := (hostOnly_logChange ..).trans (hostOnly_accept ..)

theorem mem_rotationWaits {cls : Nat} (hacc : Accepts s h 0x0602 .holderOrControl false (.keyRotate h target cls) snd)
    (slot : Nat) (detail : List Byte) {u : State} (hu : u.accepted = s.accepted) :
    waitOf s h 0x0602 snd ∈ (rotationWaits (waitOf s h 0x0602 snd) slot detail u).accepted :=
  mem_accept hacc fun w hw => by rwa [logChange_accepted, hu] at hw

theorem exec_keyRotate_context (hacc : Accepts s h 0x0602 .holderOrControl false (.keyRotate h target 0) snd)
    (hmax : target < 4096) (hauth : snd.control = true ∨ snd.holds target = true)
    (hopen : (s.tenants.getD target {}).state = .opened) (hold : (s.tenants.getD target {}).oldGen = none) :
    exec (.keyRotate h target 0) s = .next (retireAll (rotationWaits (waitOf s h 0x0602 snd) 0xFF
      (leBytes 2 target ++ leBytes 4 ((s.tenants.getD target {}).keyGen + 1))
      (contextRotated (waitOf s h 0x0602 snd) target (takeCmd h s)))) := by
  rw [exec_keyRotate, execKeyRotate]
  refine command_ok hacc ?_
  simp only [Bool.or_eq_true_iff.mpr hauth, Nat.zero_lt_succ, contextOk, hmax, takeCmd_tenants, hopen, hold,
    Option.isNone_none, decide_true, Bool.and_self, require_true, if_true]
  rfl

theorem exec_keyRotate_device (hacc : Accepts s h 0x0602 .holderOrControl false (.keyRotate h target 2) snd)
    (hcontrol : snd.control = true) (hold : s.devOldGen = none) :
    exec (.keyRotate h target 2) s = .next (retireAll (rotationWaits (waitOf s h 0x0602 snd) 0xFF
      (leBytes 2 0xFFFF ++ leBytes 4 (s.devKeyGen + 1)) (deviceRotated (waitOf s h 0x0602 snd) (takeCmd h s)))) := by
  have hnone : (takeCmd h s).devOldGen = none := by rw [takeCmd_frame, hold]
  rw [exec_keyRotate, execKeyRotate]
  refine command_ok hacc ?_
  simp only [hcontrol, hnone, Nat.reduceLT, Nat.reduceEqDiff, Option.isNone_none, decide_true, Bool.true_or,
    require_true, if_true, if_false]
  rw [rotationWaits, deviceRotated, takeCmd_devKeyGen]

theorem exec_keyRotate_job {j : Job} (hacc : Accepts s h 0x0602 .holderOrControl false (.keyRotate h target 1) snd)
    (hslot : target < 128) (hauth : snd.control = true ∨ snd.holds (getSlot s target).owner = true)
    (hj : getJob s target = some j) (hrunning : (getSlot s target).state = .running) (hask : j.keyAsk = false)
    (hold : j.oldKeys = []) :
    exec (.keyRotate h target 1) s = .next (rotationWaits (waitOf s h 0x0602 snd) target
      (leBytes 1 target ++ leBytes 4 (j.keyGen + 1)) (linkKeyAsked (waitOf s h 0x0602 snd) target (takeCmd h s))) := by
  rw [exec_keyRotate, execKeyRotate]
  refine command_ok hacc ?_
  simp only [Bool.or_eq_true_iff.mpr hauth, Option.isSome_some, Bool.true_and, getJob_takeCmd, getSlot_takeCmd, hj,
    hask, hold, hrunning, hslot, Nat.reduceLT, Nat.reduceEqDiff, List.isEmpty_nil, decide_true,
    Bool.or_true, Bool.not_false, Bool.and_self, require_true, if_true, if_false]
  rfl

end

/-! ## The obligation -/

/-- Settles O11: each command's answer by its own lemma, and the state in which a close or a rotation waits by
`contextClosing_tenant`, `hostOnly_rotationWaits` and `mem_rotationWaits`. -/
theorem contextsAndKeysTakeEffect : Obligations.ContextsAndKeysTakeEffect := by
  constructor
  · intro s h snd b
    refine ⟨?_, ?_, ?_, fun key hacc => exec_prinKey_enrols hacc, fun key hacc => exec_prinKey_retires hacc⟩
    · intro context key hacc hpos hmax hlength hkey hclosed
      have hexec := exec_tenantOpen_opens hacc hpos hmax hlength hkey hclosed
      refine ⟨contextOpened context key b, openedTenant key b, hexec, Table.get_put_self .., rfl, ?_, rfl, fun c hc => ?_,
        ?_⟩
      · rw [openedTenant, takeCmd_setup]
      · rw [contextOpened, Table.get_put_other _ _ _ _ hc, takeCmd_tenants]
      · have hframe := contextOpened_frame context key (takeCmd h s)
        change _ = takeCmd h s
        generalize contextOpened context key (takeCmd h s) = u at hframe ⊢
        rw [takeCmd_frame] at hframe ⊢
        exact hframe
    · intro context mask q hacc hmax hmask hopen old pick n hpages hreg hparts hprin hhot hkv hlp hfl hreq hsess
      exact exec_tenantQuota_sets hacc hmax hmask hopen ⟨hpages, hreg, hparts, hprin, hhot, hkv, hlp, hfl, hreq, hsess⟩
    · intro context hacc hpos hmax hopen hidle
      have htenant := contextClosing_tenant (waitOf s h 0x0503 snd) context b
      rw [takeCmd_tenants] at htenant
      exact ⟨_, exec_tenantClose_closes hacc hpos hmax hopen hidle, by rw [htenant]; rfl, by rw [htenant]; rfl,
        by rw [htenant]; rfl, by rw [htenant]; rfl⟩
  · intro s h snd target cls w hacc
    refine ⟨?_, ?_, ?_⟩
    · rintro rfl hmax hauth hopen hold
      have htenant : ((rotationWaits w 0xFF (leBytes 2 target ++ leBytes 4 ((s.tenants.getD target {}).keyGen + 1))
          (contextRotated w target (takeCmd h s))).tenants.getD target {}) =
            rotatedTenant w (Config.freeBytes (takeCmd h s).free 32) (s.tenants.getD target {}) := by
        rw [(hostOnly_rotationWaits ..).tenants, contextRotated_tenant, takeCmd_tenants]
      exact ⟨_, exec_keyRotate_context hacc hmax hauth hopen hold, mem_rotationWaits hacc _ _ (takeCmd_accepted h s),
        by rw [htenant]; rfl, by rw [htenant]; rfl, by rw [htenant]; rfl⟩
    · rintro rfl hcontrol hold
      obtain ⟨hgen, holdGen, hwaits⟩ := (hostOnly_rotationWaits w 0xFF (leBytes 2 0xFFFF ++ leBytes 4 (s.devKeyGen + 1))
        (deviceRotated w (takeCmd h s))).deviceKey
      obtain ⟨hnext, hprev⟩ := deviceRotated_takeCmd w h s
      exact ⟨_, exec_keyRotate_device hacc hcontrol hold, mem_rotationWaits hacc _ _ (takeCmd_accepted h s),
        hgen.trans hnext, holdGen.trans hprev, hwaits⟩
    · rintro j rfl hslot hauth hj hrunning hask hold
      have hjob : getJob (rotationWaits w target (leBytes 1 target ++ leBytes 4 (j.keyGen + 1))
          (linkKeyAsked w target (takeCmd h s))) target = some { j with keyAsk := true, keyWaits := [w] } := by
        rw [getJob_congr (hostOnly_rotationWaits ..).slots, linkKeyAsked, getJob_modJob, getJob_takeCmd, hj]
        rfl
      exact ⟨_, _, exec_keyRotate_job hacc hslot hauth hj hrunning hask hold,
        mem_rotationWaits hacc _ _ (takeCmd_accepted h s), hjob, rfl, rfl, rfl⟩

end Sys2Proof.Machine
end

section
/-! The token sampler (13 R384 to R387): which candidate messages it takes, and the draw that the run then holds. -/

namespace Sys2Proof.Machine

/-! ## The draw of a row (R384, R386) -/

section

variable (slot row : Nat) (j : Job) (run : Run) (g : GenBlock) (fd : RowFeed) (q : Request) (cands : List (Nat × Word))
  (s : State)

/-- The penalty set of a row is read from the regions and memory alone. -/
theorem ringOf_congr {s t : State} (hregions : t.regions = s.regions) (hmem : t.mem = s.mem) :
    ringOf t slot row j run = ringOf s slot row j run := by
  simp only [ringOf, rowRegion, hregions, hmem]

theorem tiersOnly_writeRowBlock (look wr : Bool) (bytes : List Byte) :
    TiersOnly s (writeRowBlock slot row look wr bytes s) := by
  unfold writeRowBlock
  split
  · exact storeAt_only ..
  · rfl

/-- A run with one more draw. -/
def Run.withDraw (d : Draw) (r : Run) : Run := { r with draws := r.draws ++ [d] }

/-- The draw of a row before the bar's end reason is known (R384 order 4). -/
def tokenDrawn : Draw :=
  { row, req := fd.req, position := fd.p + fd.n,
    token := drawToken q.f (fd.p + fd.n) (ringOf s slot row j run) cands, reason := 0 }

/-- The draw of a row, with the reason for which its request ends there (R389). -/
def rowDraw : Draw :=
  let d := tokenDrawn slot row j run fd q cands s
  { d with reason := (afterBar g (run.withDraw d) row fd { q with pos := fd.p }).2 }

/-- The draw enters the run, and then at most the row's next block is written. -/
theorem drawRow_only :
    TiersOnly (modNow slot (Run.withDraw (rowDraw slot row j run g fd q cands s)) s)
      (drawRow slot j run g row fd q cands s) := by
  unfold drawRow
  extract_lets position token d run' after t
  split
  · rfl
  · exact tiersOnly_writeRowBlock ..

end

/-! ## The candidate message (R385) -/

@[simp] theorem msgTaken_reqs (ix : Nat) (m : Msg) (s : State) : (msgTaken ix m s).reqs = s.reqs := by
  have h := msgTaken_only ix m s
  unfold LinksOnly at h
  rw [← congrArg State.reqs h]

section

variable {s : State} {ix route p : Nat} {m : Msg} {ghost : Bool} {j : Job} {sc : Score} {rt : Route} {run : Run}
  {g : GenBlock}

/-- Message `ix` lies on a route to the sampler of a generation job, and belongs to the run that its cores are in. -/
structure ForSampler (s : State) (ix : Nat) (m : Msg) (route : Nat) (j : Job) (sc : Score) (p : Nat) (ghost : Bool)
    (rt : Route) (run : Run) (g : GenBlock) : Prop where
  msg : s.net[ix]? = some m
  onRoute : m.route = some route
  job : getJob s m.slot = some j
  score : (getSlot s m.slot).score = some sc
  part : slotPart s m.slot = some (p, ghost)
  descriptor : sc.routes[route]? = some rt
  kind : rt.kind = 3
  now : j.now = some run
  bar : run.bar = m.bar
  num : run.run = m.run
  gen : j.f.gen = some g

/-- A message that R385 does not take faults its partition. -/
theorem exec_samplerDraw_refuses (h : ForSampler s ix m route j sc p ghost rt run g) (hbad : candOk g.rows m = false) :
    exec (.samplerDraw ix) s = .next (faultPart p ghost cBounds m.srcRow m.srcCol (msgTaken ix m s)) := by
  simp [exec_samplerDraw, execSamplerDraw, h.msg, h.onRoute, h.job, h.score, h.part, h.descriptor, h.kind, h.now, h.bar,
    h.num, h.gen, hbad, msgTaken]

/-- A message that R385 takes makes the draw of a row that samples and has not drawn yet. -/
theorem exec_samplerDraw_draws {f : RowFeed} {q : Request} (h : ForSampler s ix m route j sc p ghost rt run g)
    (hahead : j.ahead = none) (hok : candOk g.rows m = true) (hfeed : run.feeds.get (candWords m).1 = some f)
    (hreq : s.reqs.get f.req = some q) (hsample : f.sample = true) (hnew : drawOf run (candWords m).1 = none) :
    exec (.samplerDraw ix) s =
      .next (drawRow m.slot j run g (candWords m).1 f q (candWords m).2.2 (msgTaken ix m s)) := by
  have hreq' : (msgTaken ix m s).reqs.get f.req = some q := by rw [msgTaken_reqs, hreq]
  rw [msgTaken] at hreq' ⊢
  simp [exec_samplerDraw, execSamplerDraw, h.msg, h.onRoute, h.job, h.score, h.part, h.descriptor, h.kind, h.now, h.bar,
    h.num, h.gen, hok, hfeed, hreq', hsample, hnew, hahead]

end

/-! ## The obligation -/

/-- Settles O41: `exec_samplerDraw_refuses`, and `exec_samplerDraw_draws` with what `drawRow_only` says of the draw. -/
theorem samplerDrawsOneToken : Obligations.SamplerDrawsOneToken := by
  intro s ix m route j sc p ghost rt run g hmsg hroute hjob hscore hpart hrt hkind hnow hbar hnum hgen hahead s' c
  have h : ForSampler s ix m route j sc p ghost rt run g :=
    ⟨hmsg, hroute, hjob, hscore, hpart, hrt, hkind, hnow, hbar, hnum, hgen⟩
  refine ⟨exec_samplerDraw_refuses h, fun f q hok hfeed hreq hsample hnew => ?_⟩
  have hdrawn := drawRow_only m.slot c.1 j run g f q c.2.2 (msgTaken ix m s)
  have hrun : (getJob (msgTaken ix m s) m.slot).bind Job.now = some run := by
    rw [getJob_msgTaken, now_of_job hjob hnow]
  have hring : ringOf (msgTaken ix m s) m.slot c.1 j run = ringOf s m.slot c.1 j run :=
    ringOf_congr _ _ _ _ (beside_returnUnits ..).regions (beside_returnUnits ..).mem
  let d := rowDraw m.slot c.1 j run g f q c.2.2 (msgTaken ix m s)
  refine ⟨_, run.withDraw d, d, exec_samplerDraw_draws h hahead hok hfeed hreq hsample hnew, ?_, ?_, rfl, rfl, rfl, rfl,
    ?_⟩
  · rw [hdrawn.net, modNow_net, (msgTaken_only ix m s).fields.1]
  · rw [getJob_congr hdrawn.slots, now_modNow, hrun, Option.map_some]
  · simp only [d, rowDraw, tokenDrawn, hring]

end Sys2Proof.Machine
end

section
/-! The commands on requests and sessions (13 R379 to R381, R389, R392; log entry 62): the answer of each once its checks
hold, the entry that a submission makes, and the state in which a session closes. -/

namespace Sys2Proof

/-- A changed key leaves every other one as it was. -/
theorem Table.get_upd_other {α : Type} (t : Table α) (k i : Nat) (f : α → α) (hi : i ≠ k) :
    (t.upd k f).get i = t.get i := by
  unfold Table.upd
  split
  · exact Table.get_put_other _ _ _ _ hi
  · rfl

namespace Machine

open Sys2Proof.Safety

@[simp] theorem takeCmd_reqs (h : Hdr) (s : State) : (takeCmd h s).reqs = s.reqs := by rw [takeCmd_frame]

@[simp] theorem takeCmd_sess (h : Hdr) (s : State) : (takeCmd h s).sess = s.sess := by rw [takeCmd_frame]

@[simp] theorem takeCmd_ptp (h : Hdr) (s : State) : (takeCmd h s).ptp = s.ptp := by rw [takeCmd_frame]

/-! ## `REQ.SUBMIT` (R379) -/

/-- What a job, its generation block and a session ask of a request, in the state that it finds (R379, R380). -/
structure RequestFits (h : Hdr) (f : ReqF) (j : Job) (g : GenBlock) (x : GenSess) (b : State) : Prop where
  adapt : ∀ a, servedBy j f = some a → ∃ ad, b.registry.get a = some ad ∧ mayClaim h.context j.owner ad = true
  fields : reqFieldBad f = none
  extents : reqExtents g (x.tokens + f.ptok) f = none
  tokens : 0 < f.maxNew ∨ 0 < f.ptok
  slot : aslotState b j g f = none
  session : x.state ≠ .closing
  count : (b.reqs.filter fun p => p.2.owner == h.context).length < (b.tenants.getD h.context {}).quotas.req
  prompt : (b.tenants.getD h.context {}).lpUsed + promptBytes f ≤ (b.tenants.getD h.context {}).quotas.lp
  number : lowestFree b.reqs < 1048576

section

variable {h : Hdr} {w : Wait} {f : ReqF} {j : Job} {g : GenBlock} {x : GenSess} {b : State}

/-- A request that fits takes the lowest free entry. -/
theorem submitTo_enters (hfits : RequestFits h f j g x b) (hctx : w.context = h.context) :
    submitTo w f j g x b = changed w f.slot (leBytes 4 (lowestFree b.reqs)) (leBytes 4 (lowestFree b.reqs))
      (enterRequest w (lowestFree b.reqs) f x.tokens (servedBy j f) b) := by
  obtain ⟨hadapt, hfields, hextents, htokens, hslot, hsession, hcount, hprompt, hnumber⟩ := hfits
  have hsome : (decide (f.maxNew = 0) && decide (f.ptok = 0)) = false := by
    rw [Bool.and_eq_false_iff, decide_eq_false_iff_not, decide_eq_false_iff_not]
    omega
  simp only [submitTo, hctx]
  refine (require_pos ?_).trans ?_
  · cases ha : servedBy j f with
    | none => rfl
    | some a =>
      obtain ⟨ad, had, hmay⟩ := hadapt a ha
      simpa [had] using hmay
  · simp only [hfields, hextents, hsome, hslot, bne_iff_ne.mpr hsession, hcount, hprompt, hnumber,
      decide_true, Bool.and_self, require_true, Bool.false_eq_true, if_false]

end

/-- A pin on an adaptation leaves the requests. -/
@[simp] theorem pinAdapt_reqs (id : Nat) (s : State) : (pinAdapt id s).reqs = s.reqs := by
  unfold pinAdapt
  split
  · rfl
  · simp only
    split
    · rfl
    · rw [modPages_frame]
      rfl

/-- The entry of a request as it is accepted (R378, R379). -/
def queuedRequest (w : Wait) (f : ReqF) (tokens : Nat) (adapt : Option Nat) : Request :=
  { owner := w.context, f, state := .queued, adapt, pos := tokens, pend := tokens + f.ptok, sess := w.sess, prin := w.prin,
    tokens := f.prompt }

theorem enterRequest_reqs (w : Wait) (id : Nat) (f : ReqF) (tokens : Nat) (adapt : Option Nat) (s : State) :
    (enterRequest w id f tokens adapt s).reqs = s.reqs.put id (queuedRequest w f tokens adapt) := by
  unfold enterRequest
  cases adapt with
  | none => rfl
  | some a => exact pinAdapt_reqs ..

section

variable {s : State} {h : Hdr} {snd : Sender}

/-- A submitted request that fits is Queued in the lowest free entry. -/
theorem exec_reqSubmit_enters {f : ReqF} {j : Job} {g : GenBlock} {x : GenSess}
    (hacc : Accepts s h 0x0401 .holder false (.reqSubmit { h with win := 2 } f) snd) (hj : getJob s f.slot = some j)
    (hg : j.f.gen = some g) (hwin : f.inline = true ∨ (0 < f.win.len ∧ f.win.len < 0xFFFFFFFF ∧
      4 * f.ptok ≤ f.win.len ∧ f.win.off + f.win.len ≤ snd.window))
    (hx : s.sess.get f.session = some x) (howner : x.owner = h.context) (hholds : snd.holds x.owner = true)
    (hserve : j.owner = 0 ∨ snd.holds j.owner = true) (hfits : RequestFits h f j g x (takeCmd h s)) :
    exec (.reqSubmit h f) s = .next (finished (waitOf s h 0x0401 snd) f.slot (leBytes 4 (lowestFree s.reqs))
      (leBytes 4 (lowestFree s.reqs))
      (enterRequest (waitOf s h 0x0401 snd) (lowestFree s.reqs) f x.tokens (servedBy j f) (takeCmd h s))) := by
  have hmay : mayServe snd (takeCmd h s) f.slot = true := by
    simp [mayServe, hj, hserve]
  have hsess : (sessAuth snd (takeCmd h s) f.session && x.owner == (waitOf s h 0x0401 snd).context) = true := by
    simp [sessAuth, hx, hholds, waitOf, ← howner]
  have hlen : (f.inline || rangeLen f.win) = true := by
    simp only [rangeLen, Bool.or_eq_true, decide_eq_true_eq]
    exact hwin.imp_right fun ⟨_, hmax, _⟩ => hmax
  have hread : (!f.inline && decide (f.win.len = 0)) = false := by
    obtain hin | ⟨hpos, -⟩ := hwin
    · simp [hin]
    · simp [Nat.ne_of_gt hpos]
  have hrange : (f.inline || (rangeOk snd f.win && decide (4 * f.ptok ≤ f.win.len))) = true := by
    simp only [rangeOk, Bool.or_eq_true, Bool.and_eq_true, decide_eq_true_eq]
    exact hwin.imp_right fun ⟨_, _, hroom, hfits⟩ => ⟨hfits, hroom⟩
  rw [exec_reqSubmit, execReqSubmit]
  refine command_ok hacc ?_
  simp only [hmay, hsess, hlen, hread, hrange, getJob_takeCmd, takeCmd_sess, hj, hx, hg, require_true, Bool.false_eq_true,
    if_false, submitTo_enters (w := waitOf s h 0x0401 snd) hfits rfl, takeCmd_reqs]
  rfl

/-! ## `REQ.CANCEL` (R389, R392) -/

section

variable {id : Nat} {q : Request}

/-- A live request that is cancelled ends at its next boundary. -/
theorem exec_reqCancel_live (hacc : Accepts s h 0x0402 .holder false (.reqCancel h id) snd) (hid : id < 1048576)
    (hq : s.reqs.get id = some q) (hholds : snd.holds q.owner = true) (hstate : q.state = .live) :
    exec (.reqCancel h id) s = .next (finished (waitOf s h 0x0402 snd) q.f.slot (leBytes 4 id) []
      { takeCmd h s with reqs := s.reqs.put id { q with why := lowestReason q.why 2 } }) := by
  rw [exec_reqCancel, execReqCancel]
  refine command_ok hacc ?_
  simp only [takeCmd_reqs, hq, hholds, hid, hstate, decide_true, require_true, reduceCtorEq, if_false]
  rfl

/-- A queued request that is cancelled ends at once. -/
theorem exec_reqCancel_queued (hacc : Accepts s h 0x0402 .holder false (.reqCancel h id) snd) (hid : id < 1048576)
    (hq : s.reqs.get id = some q) (hholds : snd.holds q.owner = true) (hstate : q.state = .queued) :
    exec (.reqCancel h id) s = .next (finished (waitOf s h 0x0402 snd) q.f.slot (leBytes 4 id) []
      (cancelQueued q.f.slot id (takeCmd h s))) := by
  rw [exec_reqCancel, execReqCancel]
  refine command_ok hacc ?_
  simp only [takeCmd_reqs, hq, hholds, hid, hstate, decide_true, require_true, if_true]
  rfl

end

/-! ## `SESS.OPEN` and `SESS.CLOSE` (R381) -/

/-- A session as it opens: its run of the page directory, and no pages yet. -/
def openedSession (h : Hdr) (dir maxPages : Nat) (s : State) : GenSess :=
  { owner := h.context, state := .opened, dir, maxPages, last := s.ptp.now }

/-- A session opens in the lowest free entry, with a run of the page directory. -/
theorem exec_sessOpen_opens {maxPages dir : Nat} (hacc : Accepts s h 0x0403 .holder false (.sessOpen h maxPages) snd)
    (hpos : 0 < maxPages) (hmax : maxPages ≤ 16384)
    (hquota : (s.sess.filter fun p => p.2.owner == h.context).length < (s.tenants.getD h.context {}).quotas.sess)
    (hdir : freeDir (takeCmd h s) maxPages = some dir) (hnumber : lowestFree s.sess < 1048576) :
    exec (.sessOpen h maxPages) s = .next (finished (waitOf s h 0x0403 snd) 0xFF (leBytes 4 (lowestFree s.sess))
      (leBytes 4 (lowestFree s.sess))
      { takeCmd h s with sess := s.sess.put (lowestFree s.sess) (openedSession h dir maxPages s) }) := by
  have hpages : (maxPages != 0 && maxPages != 0xFFFF) = true := by
    rw [Bool.and_eq_true, bne_iff_ne, bne_iff_ne]
    omega
  have hctx : (waitOf s h 0x0403 snd).context = h.context := rfl
  rw [exec_sessOpen, execSessOpen]
  refine command_ok hacc ?_
  simp only [hpages, hmax, hctx, takeCmd_sess, takeCmd_tenants, takeCmd_ptp, hquota, hdir, hnumber, decide_true,
    require_true]
  rfl

end

/-- The sessions and the accepted commands stay. -/
def SessionsKept (s t : State) : Prop := t.sess = s.sess ∧ t.accepted = s.accepted

theorem SessionsKept.trans {s t u : State} (h : SessionsKept s t) (k : SessionsKept t u) : SessionsKept s u :=
  ⟨k.1.trans h.1, k.2.trans h.2⟩

theorem StoreOnly.sessionsKept {s t : State} (h : StoreOnly s t) : SessionsKept s t := by
  unfold StoreOnly at h
  rw [← h]
  exact ⟨rfl, rfl⟩

/-- A released region leaves every session as it was (10 R297). -/
theorem sessionsKept_releaseRegion (r : Region) (s : State) : SessionsKept s (releaseRegion r s) := by
  unfold releaseRegion
  extract_lets gone t
  split
  · exact ⟨rfl, rfl⟩
  · have hzeroing : SessionsKept (dropDescs r s) t := ⟨rfl, rfl⟩
    exact ((storeOnly_dropDescs r s).sessionsKept.trans hzeroing).trans (storeOnly_logInternal ..).sessionsKept

/-- A session that lets its pages go is Closing in a state that otherwise keeps sessions and accepted commands, and the
close goes on with what is zeroed already. -/
theorem letPages_closing (sid : Nat) (g : GenSess) (s : State) : ∃ v, letPages sid g s = closeZeroed v ∧
    v.accepted = s.accepted ∧ v.sess = s.sess.upd sid fun x => { x with state := .closing } := by
  unfold letPages
  extract_lets released size counted
  have hreleased : SessionsKept s released := by
    refine foldl_keeps (R := SessionsKept) (fun _ => ⟨rfl, rfl⟩) .trans (fun s a => ?_) _ s
    split
    · exact sessionsKept_releaseRegion ..
    · exact ⟨rfl, rfl⟩
  obtain ⟨hsess, hacc⟩ := hreleased
  refine ⟨_, rfl, hacc, ?_⟩
  rw [← hsess]
  rfl

/-- An open session closes: it is Closing until its pages are zeroed, and the command waits for that (R381). -/
theorem exec_sessClose_closing {s : State} {h : Hdr} {snd : Sender} {sid : Nat} {g : GenSess}
    (hacc : Accepts s h 0x0404 .holder false (.sessClose h sid) snd) (hsid : sid < 1048576) (hg : s.sess.get sid = some g)
    (hholds : snd.holds g.owner = true) (hstate : g.state = .opened) :
    let w := waitOf s h 0x0404 snd
    ∃ v, exec (.sessClose h sid) s = .next (closeZeroed v) ∧ v.accepted = s.accepted ++ [w] ∧
      v.sess = (s.sess.put sid { g with closeWait := some w }).upd sid fun x => { x with state := .closing } := by
  intro w
  obtain ⟨v, hlet, haccepted, hsess⟩ := letPages_closing sid g
    { admitted w (takeCmd h s) with sess := s.sess.put sid { g with closeWait := some w } }
  refine ⟨v, ?_, by rw [haccepted, ← takeCmd_accepted h s]; rfl, hsess⟩
  have hauth : sessAuth snd (takeCmd h s) sid = true := by simp [sessAuth, hg, hholds]
  have hopen : (g.state == .opened) = true := beq_iff_eq.mpr hstate
  rw [exec_sessClose, execSessClose]
  refine command_ok hacc ?_
  simp only [hauth, hsid, takeCmd_sess, hg, hopen, decide_true, require_true, accept_taken hacc]
  rw [← hlet, ← takeCmd_sess h s]
  rfl

/-! ## The obligation -/

/-- Settles O17, one command at a time; the entry of a submission by `enterRequest_reqs`. -/
theorem requestAndSessionCommandsComplete : Obligations.RequestAndSessionCommandsComplete := by
  intro s h snd b
  refine ⟨?_, ?_, ?_, ?_, ?_⟩
  · intro f j g x hacc hj hg hwin hx howner hholds hserve hadapt hfields hextents htokens hslot hsession hcount hprompt
      hnumber id w
    have hfits : RequestFits h f j g x b :=
      ⟨by rwa [takeCmd_registry], hfields, hextents, htokens, hslot, hsession, by rwa [takeCmd_reqs, takeCmd_tenants],
        by rwa [takeCmd_tenants], by rwa [takeCmd_reqs]⟩
    have hreqs : (enterRequest w id f x.tokens (servedBy j f) b).reqs =
        s.reqs.put id (queuedRequest w f x.tokens (servedBy j f)) := by rw [enterRequest_reqs, takeCmd_reqs]
    refine ⟨_, queuedRequest w f x.tokens (servedBy j f),
      exec_reqSubmit_enters hacc hj hg hwin hx howner hholds hserve hfits, ?_, rfl, rfl, rfl, rfl, rfl, rfl, fun i hi => ?_⟩
    · rw [hreqs, Table.get_put_self]
    · rw [hreqs, Table.get_put_other _ _ _ _ hi]
  · exact fun id q hacc => exec_reqCancel_live hacc
  · exact fun id q hacc => exec_reqCancel_queued hacc
  · exact fun maxPages dir hacc => exec_sessOpen_opens hacc
  · intro sid g hacc hsid hg hholds hstate w
    obtain ⟨v, hexec, haccepted, hsess⟩ := exec_sessClose_closing hacc hsid hg hholds hstate
    refine ⟨v, hexec, by simp [haccepted, w], ?_, fun i hi => ?_⟩
    · rw [hsess, Table.get_upd (Table.get_put_self ..)]
    · rw [hsess, Table.get_upd_other _ _ _ _ hi, Table.get_put_other _ _ _ _ hi]

end Machine

end Sys2Proof
end

section
/-! The queue and the machine right after reset (95; 18 R519, R521; log entries 2 to 4, 8 and 16), and the order of a
command's first checks (16 R471, R481). -/

namespace Sys2Proof.Machine

open Sys2Proof.Safety

/-! ## The queue (95) -/

theorem step_command {c : Instr} {rest : List Instr} {s : State} (h : s.pending = c :: rest) :
    step s = exec c { s with pending := rest } := by
  rw [step, h]

theorem step_idle {s : State} (h : s.pending = []) : step s = .next (idleStep s) := by
  rw [step, h]

/-- Settles O1. -/
theorem stepRunsTheFrontCommand : Obligations.StepRunsTheFrontCommand :=
  fun _ _ _ h => step_command h

/-- Settles O2: `idleStep` moves the timebase alone. -/
theorem emptyQueueTicksTheTimebase : Obligations.EmptyQueueTicksTheTimebase :=
  fun s h => ⟨idleStep s, step_idle h, rfl, rfl⟩

/-! ## Reset -/

/-- A core that nothing has written reads zero in every index register (log entry 8). -/
theorem xRead_fresh (i : Nat) : xRead ({} : Core).ctx i = 0 := by
  unfold xRead
  split
  · rfl
  · by_cases h : i < 32
    · simp [h]
    · simp [h]

/-- Settles O57: the tables of `State.reset` are empty, so that every core and port is the default one. -/
theorem resetHoldsNothing : Obligations.ResetHoldsNothing :=
  ⟨rfl, rfl, rfl, rfl, rfl, rfl, rfl, rfl, rfl, rfl, rfl, rfl, fun _ => xRead_fresh, fun _ => rfl⟩

/-! ## The first checks (R471, R481) -/

section

variable {h : Hdr} {op : Nat} {who : Who} {snd : Sender} {s : State}

/-- What the device state refuses is refused before all else (R471). -/
theorem gate_state {code : Nat} (hstate : stateRefusal s.dev.state op = some code) :
    gate h op who snd s = some (code, noDetail) := by
  rw [gate, hstate]

theorem gate_cver (hready : s.dev.state = .ready) (hcver : h.cver ≠ 1) : gate h op who snd s = some (cBadCommand, 2) := by
  simp [gate, stateRefusal, hready, hcver]

theorem gate_sender (hready : s.dev.state = .ready) (hcver : h.cver = 1) (hresv : h.resvOk = true) (href : h.ref ≠ 0)
    (hbusy : refBusy s h = false) (hname : mayName s who snd h.context = false) :
    gate h op who snd s = some (cDenied, 4) := by
  simp [gate, stateRefusal, hready, hcver, hresv, href, hbusy, hname]

end

/-- Settles O19: the device state's own refusal by `gate_state`, then the header's version, then the sender. -/
theorem deviceStateRefusesFirst : Obligations.DeviceStateRefusesFirst := by
  intro h op who snd s
  refine ⟨?_, ?_, ?_, gate_cver, gate_sender⟩
  · intro hstate hop
    exact gate_state (by simp [stateRefusal, hstate, hop])
  · intro hstate hop
    exact gate_state (by simpa [stateRefusal, hstate] using hop)
  · rintro (hstate | hstate) hop
    · exact gate_state (by simpa [stateRefusal, hstate] using hop)
    · exact gate_state (by simpa [stateRefusal, hstate] using hop)

end Sys2Proof.Machine
end

section
/-! Writers of the outbound queue (15 R444, R448, R453) and completions (16 R464): they leave all but the queue, its sequences and
the kept records, and every session but for what it counts. The change log: what an entry adds (17 R505). -/

namespace Sys2Proof

/-- A change of the value at one key. -/
theorem Table.get_upd_map {α : Type} (t : Table α) (k i : Nat) (f : α → α) :
    (t.upd k f).get i = (t.get i).map (if i = k then f else id) := by
  by_cases hi : i = k
  · subst hi
    cases hv : t.get i with
    | none => simp [Table.upd, hv]
    | some v => simp [Table.get_upd hv]
  · simp [Table.get_upd_other _ _ _ _ hi, hi]

/-- A change of the values of a table, each by its key, changes what a read finds, and no key. -/
theorem Table.get_map_keyed {α β : Type} (f : Nat → α → β) (t : Table α) (k : Nat) :
    Table.get (t.map fun p => (p.1, f p.1 p.2)) k = (t.get k).map (f k) := by
  induction t with
  | nil => rfl
  | cons p t ih =>
    rw [List.map_cons, Table.get_cons, Table.get_cons, ih]
    split
    · next hk => rw [← hk]; rfl
    · rfl

namespace Machine

open Sys2Proof.Safety

/-! ## Sessions and what they count -/

/-- A session differs at most in what it counts: its frames sent, and the bytes that the inbound queue holds for it. -/
def Session.Counts (x y : Session) : Prop := { y with ctrOut := x.ctrOut, used := x.used } = x

theorem Session.Counts.refl (x : Session) : x.Counts x := rfl

theorem Session.Counts.trans {x y z : Session} (h : x.Counts y) (k : y.Counts z) : x.Counts z := by
  unfold Session.Counts at *
  rw [← k] at h
  exact h

/-- Every session stands as it stood but for what it counts, and no other one stands. -/
def SessionsCount (s t : State) : Prop :=
  ∀ i, ∃ f : Session → Session, (∀ x : Session, x.Counts (f x)) ∧ t.sessions.get i = (s.sessions.get i).map f

namespace SessionsCount

variable {s t u : State}

theorem of_same (h : t.sessions = s.sessions) : SessionsCount s t :=
  fun _ => ⟨id, .refl, by simp [h]⟩

theorem trans (h : SessionsCount s t) (k : SessionsCount t u) : SessionsCount s u := fun i =>
  have ⟨f, hf, ht⟩ := h i
  have ⟨g, hg, hu⟩ := k i
  ⟨g ∘ f, fun x => (hf x).trans (hg _), by rw [hu, ht, Option.map_map]⟩

theorem after (k : SessionsCount t u) (h : SessionsCount s t) : SessionsCount s u := h.trans k

theorem of_upd {k : Nat} {f : Session → Session} (hf : ∀ x : Session, x.Counts (f x))
    (h : t.sessions = s.sessions.upd k f) : SessionsCount s t := fun i => by
  refine ⟨if i = k then f else id, fun x => ?_, by rw [h, Table.get_upd_map]⟩
  split
  · exact hf x
  · exact .refl x

theorem none (h : SessionsCount s t) {i : Nat} (hi : s.sessions.get i = none) : t.sessions.get i = none := by
  obtain ⟨f, -, ht⟩ := h i
  rw [ht, hi]
  rfl

theorem some (h : SessionsCount s t) {i : Nat} {x : Session} (hi : s.sessions.get i = some x) :
    ∃ y, t.sessions.get i = some y ∧ x.Counts y := by
  obtain ⟨f, hf, ht⟩ := h i
  exact ⟨f x, by rw [ht, hi]; rfl, hf x⟩

end SessionsCount

/-! ## Writers of the outbound queue (15 R444) -/

/-- Only the outbound queue, its sequences and stalled writers, the kept records and what sessions count may differ. -/
structure OutKeeps (s t : State) : Prop where
  only : { t with outq := s.outq, outSeq := s.outSeq, outStall := s.outStall, sessions := s.sessions,
                  linger := s.linger } = s
  sessions : SessionsCount s t

namespace OutKeeps

variable {s t u : State}

theorem of_same (h : { t with outq := s.outq, outSeq := s.outSeq, outStall := s.outStall, linger := s.linger } = s) :
    OutKeeps s t :=
  have hsame : t.sessions = s.sessions := (congrArg State.sessions h :)
  ⟨by rw [← hsame]; exact h, .of_same hsame⟩

theorem refl (s : State) : OutKeeps s s := of_same rfl

theorem trans (h : OutKeeps s t) (k : OutKeeps t u) : OutKeeps s u := by
  refine ⟨?_, h.sessions.trans k.sessions⟩
  have hs := h.only
  rw [← k.only] at hs
  exact hs

theorem after (k : OutKeeps t u) (h : OutKeeps s t) : OutKeeps s u := h.trans k

theorem foldl {α : Type} {f : State → α → State} (hf : ∀ s a, OutKeeps s (f s a)) (l : List α) (s : State) :
    OutKeeps s (l.foldl f s) := foldl_keeps refl trans hf l s

theorem inq (h : OutKeeps s t) : t.inq = s.inq := (congrArg State.inq h.only :)

theorem accepted (h : OutKeeps s t) : t.accepted = s.accepted := (congrArg State.accepted h.only :)

theorem winReads (h : OutKeeps s t) : t.winReads = s.winReads := (congrArg State.winReads h.only :)

theorem inSeq (h : OutKeeps s t) : t.inSeq = s.inSeq := (congrArg State.inSeq h.only :)

theorem ptp (h : OutKeeps s t) : t.ptp = s.ptp := (congrArg State.ptp h.only :)

theorem log (h : OutKeeps s t) : t.log = s.log := (congrArg State.log h.only :)

end OutKeeps

/-- A packet that closes takes its sequence value and its session's next counter (R439, R444). -/
theorem outKeeps_closeItem (c : Nat) (i : PealItem) (s : State) : OutKeeps s (closeItem c i s).2 where
  only := rfl
  sessions := .of_upd (f := fun x => { x with ctrOut := x.ctrOut + 1 }) (fun _ => rfl) rfl

theorem outKeeps_closeOpen (c : Nat) (s : State) : OutKeeps s (closeOpen c s) := by
  unfold closeOpen
  simp only
  split
  · split
    · exact OutKeeps.after (t := (closeItem c _ s).2) (.of_same rfl) (outKeeps_closeItem ..)
    · exact .refl s
  · exact .refl s

theorem outKeeps_outAppend0 (c : Nat) (i : PealItem) (s : State) : OutKeeps s (outAppend0 c i s) := by
  unfold outAppend0
  simp only
  refine (outKeeps_closeOpen c s).trans ?_
  split
  · exact .of_same rfl
  · split
    · exact .of_same rfl
    · exact OutKeeps.after (t := (closeItem c i (closeOpen c s)).2) (.of_same rfl) (outKeeps_closeItem ..)

theorem outKeeps_outRecord0 (c sess ftype ref : Nat) (rec : List Byte) (reqs : List Nat) (s : State) :
    OutKeeps s (outRecord0 c sess ftype ref rec reqs s) := by
  unfold outRecord0
  simp only
  split
  · split
    · split
      · exact (outKeeps_closeOpen ..).after (.of_same rfl)
      · exact .of_same rfl
    · exact outKeeps_outAppend0 ..
  · exact outKeeps_outAppend0 ..

theorem outKeeps_noticeBy {put : Nat → Nat → Nat → Nat → List Byte → List Nat → State → State}
    (hput : ∀ c i ftype ref rec reqs s, OutKeeps s (put c i ftype ref rec reqs s)) (n : Notice) (s : State) :
    OutKeeps s (noticeBy put n s) := by
  unfold noticeBy
  simp only
  split
  · exact .of_same rfl
  · exact OutKeeps.foldl (fun s i => hput ..) _ s

theorem outKeeps_fillNotice (q : Nat) (s : State) : OutKeeps s (fillNotice q s) :=
  outKeeps_noticeBy outKeeps_outRecord0 ..

theorem outKeeps_watchOut (before : Nat) (s : State) : OutKeeps s (watchOut before s) := by
  unfold watchOut
  simp only
  split
  · exact (outKeeps_fillNotice ..).after (.of_same rfl)
  · exact .of_same rfl

theorem outKeeps_outAppend (c : Nat) (i : PealItem) (s : State) : OutKeeps s (outAppend c i s) :=
  (outKeeps_outAppend0 ..).trans (outKeeps_watchOut ..)

theorem outKeeps_outRecord (c sess ftype ref : Nat) (rec : List Byte) (reqs : List Nat) (s : State) :
    OutKeeps s (outRecord c sess ftype ref rec reqs s) :=
  (outKeeps_outRecord0 ..).trans (outKeeps_watchOut ..)

theorem outKeeps_outDrain (n : Nat) (s : State) : OutKeeps s (outDrain n s) := by
  induction n generalizing s with
  | zero => exact .refl s
  | succ n ih =>
    unfold outDrain
    split
    · exact .refl s
    · split
      · exact ((ih _).after (outKeeps_outAppend ..)).after (.of_same rfl)
      · exact .refl s

theorem outKeeps_notice (code scope subject bar : Nat) (detail : List Byte) (s : State) :
    OutKeeps s (notice code scope subject bar detail s) := outKeeps_noticeBy outKeeps_outRecord ..

/-! ## Completions (16 R464, R465) -/

/-- A session that gets the bytes of its items back when they go (15 R440, R447). -/
def Session.credited (gone : List PealItem) (i : Nat) (x : Session) : Session :=
  { x with used := x.used - sumNat ((gone.filter fun g => g.sess == i && g.prin == x.prin).map PealItem.size) }

theorem get_giveCredit (gone : List PealItem) (t : Table Session) (i : Nat) :
    (giveCredit gone t).get i = (t.get i).map (Session.credited gone i) :=
  Table.get_map_keyed (Session.credited gone) t i

/-- Items that leave the inbound queue change what their sessions count (15 R447). -/
theorem sessionsCount_settleInq (s : State) : SessionsCount s (settleInq s) := by
  refine foldl_keeps (R := SessionsCount) (fun s => .of_same rfl) .trans (fun s c => ?_) _ s
  simp only
  split
  · exact .of_same rfl
  · exact fun i => ⟨Session.credited _ i, fun _ => rfl, get_giveCredit _ s.sessions i⟩

/-- The state in which a completion's record is written: the command has left the accepted ones. -/
def completed (w : Wait) (s : State) : State :=
  settleInq (monSample 2 6 ((s.ptp.now - w.since) / 1000)
    { s with accepted := s.accepted.filter fun a => !(a.sess == w.sess && a.ref == w.ref) })

theorem complete_eq (w : Wait) (status detail : Nat) (result : List Byte) (s : State) :
    complete w status detail result s =
      sendCpl w.sess w.cls w.ref w.opcode status 0 detail w.prin result (completed w s) := rfl

theorem monSample_sessions (block inst x : Nat) (s : State) : (monSample block inst x s).sessions = s.sessions := by
  unfold monSample
  simp only
  split <;> rfl

theorem sessionsCount_completed (w : Wait) (s : State) : SessionsCount s (completed w s) :=
  (sessionsCount_settleInq _).after (.of_same (monSample_sessions ..))

/-- Without its session a record is kept for its principal (15 R437). -/
theorem sendCpl_kept {sess : Nat} {s : State} (hsess : s.sessions.get sess = none) (cls ref opcode status kind detail : Nat)
    (prin result : List Byte) :
    sendCpl sess cls ref opcode status kind detail prin result s = { s with
      linger := s.linger ++ [{ prin := some prin, recs := [(cls, 4, ref, cplBytes opcode status kind detail result)],
                               expires := s.ptp.now + lingerNs s }] } := by
  unfold sendCpl
  simp only [hsess]

theorem complete_kept {w : Wait} {s : State} (hsess : s.sessions.get w.sess = none) (status detail : Nat)
    (result : List Byte) :
    ∃ l ∈ (complete w status detail result s).linger, l.prin = some w.prin ∧
      l.recs = [(w.cls, 4, w.ref, cplBytes w.opcode status 0 detail result)] := by
  rw [complete_eq, sendCpl_kept ((sessionsCount_completed w s).none hsess)]
  exact ⟨_, List.mem_append_right _ (List.mem_singleton_self _), rfl, rfl⟩

/-- A command that completes is no longer among the accepted ones. -/
theorem left_complete {w a : Wait} {status detail : Nat} {result : List Byte} {s : State}
    (ha : a ∈ (complete w status detail result s).accepted) : a ∈ s.accepted ∧ (a.sess ≠ w.sess ∨ a.ref ≠ w.ref) := by
  rw [complete_accepted] at ha
  obtain ⟨hmem, hgone⟩ := List.mem_filter.mp ha
  simp only [Bool.not_eq_true', Bool.and_eq_false_iff, beq_eq_false_iff_ne] at hgone
  exact ⟨hmem, hgone⟩

/-! ## The change log (17 R505) -/

/-- The chain value before the next entry. -/
def logPrev (s : State) : List Byte := match s.log.getLast? with
  | some p => p.chain
  | none => []

theorem logPush_log (e : LogEntry) (s : State) :
    (logPush e s).log = s.log ++ [{ e with index := logNext s, time := s.ptp.now, prev := logPrev s }] := rfl

/-- An area that is not full keeps all its entries (R509). -/
theorem logTruncate_room {s : State} (h : s.log.length < logArea) : logTruncate s = s :=
  if_neg (Nat.not_le.mpr h)

theorem logAdd_room {s : State} (h : s.log.length < logArea) (e : LogEntry) : logAdd e s = logPush e s := by
  rw [logAdd, logTruncate_room h]

/-- The newest entry is the one appended, whether or not old ones went. -/
theorem logAdd_last (e : LogEntry) (s : State) : ∃ x, (logAdd e s).log.getLast? = some x ∧
    x = { e with index := x.index, time := x.time, prev := x.prev } :=
  ⟨_, by rw [logAdd, logPush_log, List.getLast?_concat], rfl⟩

theorem logPush_follows {s : State} {p : LogEntry} (h : s.log.getLast? = some p) :
    logNext s = p.index + 1 ∧ logPrev s = p.chain := by
  simp [logNext, logPrev, h]

/-! ## The obligation -/

/-- Settles O18: what a completion leaves by `hostOnly_complete`, its record by `complete_kept` (a completion takes its
command's class, log entry 19), and the entry of an area with room by `logPush_log`. -/
theorem completionsAndLogEntries : Obligations.CompletionsAndLogEntries := by
  refine ⟨fun w status detail result slot note s =>
    ⟨hostOnly_complete .., hostOnly_finished .., fun a ha => left_complete ha, fun hsess => ?_⟩, fun e s hroom => ?_⟩
  · obtain ⟨l, hl, hprin, hrecs⟩ := complete_kept hsess status detail result
    exact ⟨l, hl, hprin, hrecs⟩
  · rw [logAdd_room hroom]
    exact ⟨_, logPush_log e s, rfl, fun p hp => logPush_follows hp, rfl⟩

end Machine

end Sys2Proof
end

section
/-! Commands on the device, its images and its security (16 R466, R468, 15 R450, 17 R501, R510, R516, 18 R526, R528, 19 R541;
log entry 58): the answer of each once its checks hold, what the boot records and banks read after a staging, and the state
that a seal leaves. -/

namespace Sys2Proof.Machine

open Sys2Proof.Safety

/-! ## Boot records and banks (R522, R523) -/

section

variable (s : State)

/-- The record just written is the one in force (R523). -/
theorem bootNow_writeBoot (f : BootRec → BootRec) :
    bootNow (writeBoot f s) = { f (bootNow s) with seq := (bootNow s).seq + 1, ok := true } := by
  cases ha : s.nor.bootA.ok <;> cases hb : s.nor.bootB.ok
  · simp [writeBoot, bootNow, bootInA, ha, hb]
  · simp [writeBoot, bootNow, bootInA, ha, hb]
  · simp [writeBoot, bootNow, bootInA, ha, hb]
  · by_cases hseq : s.nor.bootA.seq < s.nor.bootB.seq
    · simp [writeBoot, bootNow, bootInA, ha, hb, hseq, Nat.not_le.mpr hseq]
    · simp [writeBoot, bootNow, bootInA, ha, hb, hseq, Nat.le_of_not_lt hseq]

@[simp] theorem setupBank_writeBoot (f : BootRec → BootRec) (b : Nat) : setupBank (writeBoot f s) b = setupBank s b := by
  unfold setupBank writeBoot
  simp only
  split <;> split <;> rfl

@[simp] theorem fwBank_writeBoot (f : BootRec → BootRec) (b : Nat) : fwBank (writeBoot f s) b = fwBank s b := by
  unfold fwBank writeBoot
  simp only
  split <;> split <;> rfl

@[simp] theorem setupBank_putSetup (b : Nat) (i : SetupImage) : setupBank (putSetup b i s) b = some i := by
  unfold setupBank putSetup
  split <;> rfl

@[simp] theorem fwBank_putFw (b : Nat) (i : FwImage) : fwBank (putFw b i s) b = some i := by
  unfold fwBank putFw
  split <;> rfl

@[simp] theorem bootNow_putSetup (b : Nat) (i : SetupImage) : bootNow (putSetup b i s) = bootNow s := by
  unfold bootNow putSetup
  split <;> rfl

@[simp] theorem bootNow_putFw (b : Nat) (i : FwImage) : bootNow (putFw b i s) = bootNow s := by
  unfold bootNow putFw
  split <;> rfl

/-- A setup image waits in the bank that is not active (R526, R528). -/
def setupStaged (image : SetupImage) : State :=
  writeBoot (fun b => { b with cfgStaged := true }) (putSetup (1 - (bootNow s).cfg) image s)

/-- A firmware image waits in the bank that is not active (R528). -/
def fwStagedIn (image : FwImage) : State :=
  writeBoot (fun b => { b with fwStaged := true }) (putFw (1 - (bootNow s).fw) image s)

theorem bootNow_setupStaged (image : SetupImage) : bootNow (setupStaged s image) =
    { bootNow s with cfgStaged := true, seq := (bootNow s).seq + 1, ok := true } := by
  rw [setupStaged, bootNow_writeBoot, bootNow_putSetup]

theorem bootNow_fwStagedIn (image : FwImage) : bootNow (fwStagedIn s image) =
    { bootNow s with fwStaged := true, seq := (bootNow s).seq + 1, ok := true } := by
  rw [fwStagedIn, bootNow_writeBoot, bootNow_putFw]

theorem setupStaged_frame (image : SetupImage) : { setupStaged s image with nor := s.nor } = s := rfl

theorem fwStagedIn_frame (image : FwImage) : { fwStagedIn s image with nor := s.nor } = s := rfl

end

/-! ## The device's own commands (R466, R468) -/

section

variable {s : State} {h : Hdr} {snd : Sender}

@[simp] theorem bootNow_takeCmd : bootNow (takeCmd h s) = bootNow s := by
  rw [takeCmd_frame]
  rfl

@[simp] theorem setupBank_takeCmd (b : Nat) : setupBank (takeCmd h s) b = setupBank s b := by
  rw [takeCmd_frame]
  rfl

@[simp] theorem takeCmd_nor : (takeCmd h s).nor = s.nor := by rw [takeCmd_frame]

@[simp] theorem takeCmd_free : (takeCmd h s).free = s.free := by rw [takeCmd_frame]

@[simp] theorem takeCmd_log : (takeCmd h s).log = s.log := by rw [takeCmd_frame]

theorem exec_stateRead_replies {words : List (Nat × Nat)} (hacc : Accepts s h 0x0101 .any true (.stateRead h words) snd)
    (hcount : words.length ≤ 64) :
    exec (.stateRead h words) s = .next (replied (waitOf s h 0x0101 snd)
      (words.flatMap (wordResult (takeCmd h s) snd)) (takeCmd h s)) := by
  have hreserved : (words.length != 255) = true := bne_iff_ne.mpr (by omega)
  rw [exec_stateRead, execStateRead]
  refine command_ok hacc ?_
  simp only [hreserved, hcount, decide_true, require_true]
  rfl

/-- The reserved level is refused, and every other one within the queue's size is taken. -/
theorem level_ok {kib cap : Nat} (hpos : 0 < kib) (hcap : kib ≤ cap) (hmax : cap ≤ 16384) :
    (kib != 0 && kib != 0xFFFFFFFF) = true := by
  simp only [Bool.and_eq_true, bne_iff_ne]
  omega

theorem exec_portLevel_inbound {kib : Nat} (hacc : Accepts s h 0x0103 .control false (.portLevel h 0 kib) snd)
    (hpos : 0 < kib) (hmax : kib ≤ 8192) :
    exec (.portLevel h 0 kib) s = .next (finished (waitOf s h 0x0103 snd) 0xFF (leBytes 1 0 ++ leBytes 4 kib) []
      { takeCmd h s with inq := { (takeCmd h s).inq with
          levelKib := kib, above := decide (kib * 1024 < (takeCmd h s).inq.fill) } }) := by
  rw [exec_portLevel, execPortLevel]
  refine command_ok hacc ?_
  simp only [level_ok hpos hmax (by decide), hmax, Nat.zero_lt_two, decide_true, require_true, if_true]
  rfl

theorem exec_portLevel_outbound {kib : Nat} (hacc : Accepts s h 0x0103 .control false (.portLevel h 1 kib) snd)
    (hpos : 0 < kib) (hmax : kib ≤ 16384) :
    exec (.portLevel h 1 kib) s = .next (finished (waitOf s h 0x0103 snd) 0xFF (leBytes 1 1 ++ leBytes 4 kib) []
      { takeCmd h s with outq := { (takeCmd h s).outq with
          levelKib := kib, above := decide (kib * 1024 < (takeCmd h s).outq.fill) } }) := by
  rw [exec_portLevel, execPortLevel]
  refine command_ok hacc ?_
  simp only [level_ok hpos hmax (Nat.le_refl _), hmax, Nat.one_lt_two, Nat.one_ne_zero, decide_true, require_true, if_false]
  rfl

theorem exec_pwrCap_waits {watts : Nat} (hacc : Accepts s h 0x0105 .control false (.pwrCap h watts) snd)
    (hstep : watts % 10 = 0) (hmin : orDefault s.setup.settings.capMinW 250 ≤ watts)
    (hmax : watts ≤ orDefault s.setup.settings.capMaxW 960) :
    exec (.pwrCap h watts) s = .next (admitted (waitOf s h 0x0105 snd) { takeCmd h s with
      pwr := { (takeCmd h s).pwr with
        nextCaps := (takeCmd h s).pwr.nextCaps ++ [(watts, waitOf s h 0x0105 snd)] } }) := by
  obtain ⟨-, -, -, -, -, -, hgate⟩ := id hacc
  have hfresh : refBusy (takeCmd h s) h = false := gate_fresh hgate
  rw [exec_pwrCap, execPwrCap]
  refine command_ok hacc ?_
  simp only [hstep, takeCmd_setup, hmin, hmax, decide_true, Bool.and_self, require_true]
  exact congrArg Except.ok (accept_fresh hfresh)

theorem exec_deviceReset_restarts {confirm : List Byte}
    (hacc : Accepts s h 0x0102 .control false (.deviceReset h confirm) snd) (hconfirm : confirm = shake256 8 s.dev.idKey) :
    exec (.deviceReset h confirm) s =
      .next (restart 2 true (logChange (waitOf s h 0x0102 snd) 0xFF 0 [] (takeCmd h s))) := by
  rw [exec_deviceReset, execDeviceReset]
  refine command_ok hacc ?_
  rw [takeCmd_dev]
  exact require_pos (beq_iff_eq.mpr hconfirm)

/-! ## Images (R526, R528) -/

theorem exec_configStage_stages {r : Range} {image : SetupImage} (hlen : r.len < 0xFFFFFFFF)
    (hin : r.off + r.len ≤ snd.window)
    (hacc : Accepts s h 0x0603 .control false (.configStage { h with win := 2 } r image) snd) (hroom : 67602 ≤ r.len)
    (hranges : setupRanges image = true) (hsigned : setupSigned (takeCmd h s) image = true)
    (hnewer : ∀ i, setupBank s (bootNow s).cfg = some i → i.serial < image.serial) :
    exec (.configStage h r image) s = .next (finished (waitOf s h 0x0603 snd) 0xFF (fitTo 64 image.digest)
      (fitTo 64 image.digest) (setupStaged (takeCmd h s) image)) := by
  have hsome : r.len ≠ 0 := by omega
  rw [exec_configStage, execConfigStage]
  refine command_ok hacc ?_
  simp only [rangeLen, hlen, rangeOk, hin, hsome, hroom, hranges, hsigned, setupBank_takeCmd, bootNow_takeCmd,
    Bool.true_and, decide_true, require_true, content_true, if_false]
  cases hold : setupBank s (bootNow s).cfg with
  | none => simp only [content_true]; rw [setupStaged, bootNow_takeCmd]; rfl
  | some i =>
    simp only [hnewer i hold, decide_true, content_true]
    rw [setupStaged, bootNow_takeCmd]
    rfl

theorem exec_fwStage_stages {r : Range} {image : FwImage} (hlen : r.len < 0xFFFFFFFF) (hin : r.off + r.len ≤ snd.window)
    (hacc : Accepts s h 0x0604 .control false (.fwStage { h with win := 2 } r image) snd) (hpos : 0 < r.len)
    (hmax : r.len ≤ 25165824) (hsig : image.sigOk = true) (hmin : s.dev.fwMinVersion ≤ image.version) :
    exec (.fwStage h r image) s = .next (finished (waitOf s h 0x0604 snd) 0xFF (fitTo 64 image.digest)
      (fitTo 64 image.digest) (fwStagedIn (takeCmd h s) image)) := by
  rw [exec_fwStage, execFwStage]
  refine command_ok hacc ?_
  simp only [rangeLen, hlen, rangeOk, hin, hmax, Nat.ne_of_gt hpos, fwValid, hsig, takeCmd_dev, hmin, Bool.and_self,
    decide_true, require_true, content_true, if_false]
  rfl

end

/-- Settles O9: each command's answer by its own lemma; a staged image by what banks and boot records read. -/
theorem deviceAndStagingComplete : Obligations.DeviceAndStagingComplete := by
  refine ⟨fun s h snd => ⟨fun words => exec_stateRead_replies, fun kib => exec_portLevel_inbound,
    fun kib => exec_portLevel_outbound, fun watts => exec_pwrCap_waits, fun confirm => exec_deviceReset_restarts⟩,
    fun s h snd r => fun hlen hin => ⟨?_, ?_⟩⟩
  · intro image hacc hroom hranges hsigned hnewer
    refine ⟨_, exec_configStage_stages hlen hin hacc hroom hranges hsigned hnewer, ?_, ?_⟩
    · simp [setupStaged]
    · rw [bootNow_setupStaged, bootNow_takeCmd]
      exact ⟨rfl, rfl, rfl, takeCmd_nor (s := s) ▸ setupStaged_frame (takeCmd h s) image⟩
  · intro image hacc hpos hmax hsig hmin
    refine ⟨_, exec_fwStage_stages hlen hin hacc hpos hmax hsig hmin, ?_, ?_⟩
    · simp [fwStagedIn]
    · rw [bootNow_fwStagedIn, bootNow_takeCmd]
      exact ⟨rfl, rfl, rfl, takeCmd_nor (s := s) ▸ fwStagedIn_frame (takeCmd h s) image⟩

/-! ## Reports, log reads and seals (17 R501, R510, R516) -/

section

variable {s : State} {h : Hdr} {snd : Sender}

section

variable {nonce : List Byte} {view : Nat} {r : Range}

/-- The sender of a report may read its view (R501). -/
structure ReportAllowed (h : Hdr) (snd : Sender) (view : Nat) (r : Range) : Prop where
  known : view < 2
  device : view = 0 → snd.control = true
  tenant : view = 1 → snd.holds h.context = true
  len : rangeLen r = true
  inside : rangeOk snd r = true

theorem ReportAllowed.reader (a : ReportAllowed h snd view r) :
    (if view = 0 then snd.control else view != 1 || snd.holds h.context) = true := by
  split
  · next h0 => exact a.device h0
  · next h0 =>
    have h1 : view = 1 := by have := a.known; omega
    simp [a.tenant h1]

theorem exec_attestReport_empty (hacc : Accepts s h 0x0601 .any true (.attestReport h nonce view r) snd)
    (a : ReportAllowed h snd view r) (hlen : r.len = 0) :
    exec (.attestReport h nonce view r) s = .next (replied (waitOf s h 0x0601 snd) [] (takeCmd h s)) := by
  rw [exec_attestReport, execAttestReport]
  refine command_ok hacc ?_
  simp only [a.reader, a.known, a.len, a.inside, hlen, Bool.and_self, decide_true, require_true, if_true]
  rfl

theorem exec_attestReport_writes (hacc : Accepts s h 0x0601 .any true (.attestReport h nonce view r) snd)
    (a : ReportAllowed h snd view r) (hpos : 0 < r.len)
    (hfits : (reportBytes (takeCmd h s) nonce (view == 1) h.context ++ Config.freeBytes s.free 114).length ≤ r.len) :
    exec (.attestReport h nonce view r) s = .next (replied (waitOf s h 0x0601 snd) [] (windowWrite
      (waitOf s h 0x0601 snd) r.off (reportBytes (takeCmd h s) nonce (view == 1) h.context ++ Config.freeBytes s.free 114)
      { takeCmd h s with free := s.free + 1 })) := by
  rw [exec_attestReport, execAttestReport]
  refine command_ok hacc ?_
  simp only [a.reader, a.known, a.len, a.inside, Nat.ne_of_gt hpos, nextFree, takeCmd_free, hfits,
    Bool.and_self, decide_true, require_true, if_false]
  rfl

end

section

variable {first count : Nat} {r : Range}

theorem exec_logRead_empty (hacc : Accepts s h 0x0606 .any true (.logRead h first count r) snd) (hmax : count < 0xFFFF)
    (hlen : r.len < 0xFFFFFFFF) (hin : r.off + r.len ≤ snd.window) (hnone : count = 0 ∨ r.len = 0) :
    exec (.logRead h first count r) s = .next (replied (waitOf s h 0x0606 snd) [] (takeCmd h s)) := by
  have hcount : (count != 0xFFFF) = true := bne_iff_ne.mpr (Nat.ne_of_lt hmax)
  have hempty : (decide (count = 0) || decide (r.len = 0)) = true := by simpa using hnone
  rw [exec_logRead, execLogRead]
  refine command_ok hacc ?_
  simp only [hcount, rangeLen, hlen, rangeOk, hin, hempty, Bool.and_self, decide_true, require_true, if_true]
  rfl

/-- The index of the oldest entry that the log holds. -/
def logOldest (s : State) : Nat := (s.log.head?.map (·.index)).getD 0

theorem logOldest_le {n : Nat} (hfirst : ∀ e ∈ s.log.head?, e.index ≤ n) : logOldest s ≤ n := by
  unfold logOldest
  cases he : s.log.head? with
  | none => exact Nat.zero_le n
  | some e => exact hfirst e he

theorem exec_logRead_writes (hacc : Accepts s h 0x0606 .any true (.logRead h first count r) snd) (hmax : count < 0xFFFF)
    (hlen : r.len < 0xFFFFFFFF) (hin : r.off + r.len ≤ snd.window) (hcount : 0 < count) (hpos : 0 < r.len)
    (hfirst : ∀ e ∈ s.log.head?, e.index ≤ first) (hlast : first + count ≤ logNext s) (hroom : 256 * count ≤ r.len) :
    exec (.logRead h first count r) s = .next (replied (waitOf s h 0x0606 snd) [] (windowWrite (waitOf s h 0x0606 snd) r.off
      (((s.log.drop (first - (s.log.head?.map (·.index)).getD 0)).take count).flatMap (entryView snd)) (takeCmd h s))) := by
  have hreserved : (count != 0xFFFF) = true := bne_iff_ne.mpr (Nat.ne_of_lt hmax)
  have hsome : (decide (count = 0) || decide (r.len = 0)) = false := by simp [Nat.ne_of_gt hcount, Nat.ne_of_gt hpos]
  have hnext : logNext (takeCmd h s) = logNext s := by rw [logNext, takeCmd_log, logNext]
  have hold : (s.log.head?.map (·.index)).getD 0 ≤ first := logOldest_le hfirst
  rw [exec_logRead, execLogRead]
  refine command_ok hacc ?_
  simp only [hreserved, rangeLen, hlen, rangeOk, hin, hsome, takeCmd_log, hold, hnext, hlast, hroom, Bool.and_self,
    decide_true, require_true, Bool.false_eq_true, if_false]
  rfl

end

/-- What a seal ends before it clears anything (R516, R498): the commands that wait complete, jobs stop, rotations are over,
and every session but the controlling one closes. -/
def sealEnded (s : State) : State :=
  let starts := s.slots.filterMap fun p => p.2.job.map fun j => (j.w.sess, j.w.ref)
  let waiting := s.accepted.filter fun a => a.opcode != 0x0602 && !starts.contains (a.sess, a.ref)
  let s := cancelJobs (waiting.foldl (fun s a => complete a cSealed noDetail [] (countRefuse a cSealed noDetail s))
    { s with winReads := [], pwr := { s.pwr with nextCaps := [] } })
  let keep := (controlSession s).map (·.1)
  let s := (s.accepted.filter fun a => a.opcode == 0x0602).foldl (fun s a => complete a cOk 0 [] s) s
  (s.sessions.filter fun p => keep != some p.1).foldl (fun s p => closeSession p.1 s) s

/-- The device as it seals: what a seal clears is gone, and its command waits for the log to be written (R516). -/
def sealing (w : Wait) (u : State) : State :=
  { wipe u with dev := { (wipe u).dev with state := .sealing, sealWait := some w } }

/-- The entries that a seal appends as it waits. -/
def sealLogged (w : Wait) (t : State) : State :=
  accept w (logSign (logAdd
    { index := 0, time := 0, kind := 9, prev := [], detail := leBytes 1 (t.dev.sealCounter + 1) } t))

theorem exec_sealReturn_seals {confirm : List Byte} (hacc : Accepts s h 0x0607 .control false (.sealReturn h confirm) snd)
    (hconfirm : confirm = shake256 16 s.dev.idKey) :
    exec (.sealReturn h confirm) s = .next (sealLogged (waitOf s h 0x0607 snd) (sealing (waitOf s h 0x0607 snd)
      (logInternal 6 0 0xFF 0 0 [] (sealEnded (takeCmd h s))))) := by
  have hright : (confirm == shake256 16 (takeCmd h s).dev.idKey) = true := by
    rw [takeCmd_dev]
    exact beq_iff_eq.mpr hconfirm
  rw [exec_sealReturn, execSealReturn]
  refine command_ok hacc ((require_pos hright).trans ?_)
  simp only [sealLogged, sealing, sealEnded]

theorem hostOnly_logSign (s : State) : HostOnly { s with free := s.free + 1 } (logSign s) := hostOnly_logAdd ..

theorem freeBytes_length (n len : Nat) : (Config.freeBytes n len).length = len := by
  simp [Config.freeBytes]

theorem hostOnly_windowWrite (w : Wait) (off : Nat) (data : List Byte) (s : State) :
    HostOnly s (windowWrite w off data s) := by
  unfold windowWrite
  split
  · rfl
  · exact (hostOnly_outAppend ..).trans
      (HostOnly.foldl (fun s i => outAppend w.cls _ s) (fun s i => hostOnly_outAppend ..) _ _)

theorem HostOnly.dev {s t : State} (h : HostOnly s t) : t.dev = s.dev := by
  unfold HostOnly withHostSide at h
  rw [← h]

/-- The entries of a seal and its wait leave the device's own state, the slots and memory. -/
theorem sealLogged_keeps (w : Wait) (t : State) :
    (sealLogged w t).dev = t.dev ∧ (sealLogged w t).slots = t.slots ∧ (sealLogged w t).mem = t.mem := by
  have hentry := hostOnly_logAdd
    { index := 0, time := 0, kind := 9, prev := [], detail := leBytes 1 (t.dev.sealCounter + 1) } t
  have hsigned := (hostOnly_accept _ w).after (hostOnly_logSign (logAdd
    { index := 0, time := 0, kind := 9, prev := [], detail := leBytes 1 (t.dev.sealCounter + 1) } t))
  exact ⟨hsigned.dev.trans hentry.dev, hsigned.slots.trans hentry.slots,
    (Beside.of_hostOnly hsigned).mem.trans (Beside.of_hostOnly hentry).mem⟩

/-- A read changes no memory, no slot and nothing of the device, and its command waits no more. -/
theorem read_leaves (w : Wait) (result : List Byte) {s u : State} (hmem : u.mem = s.mem) (hslots : u.slots = s.slots)
    (hdev : u.dev = s.dev) :
    (replied w result u).mem = s.mem ∧ (replied w result u).slots = s.slots ∧ (replied w result u).dev = s.dev ∧
      ∀ a ∈ (replied w result u).accepted, ¬ (a.sess = w.sess ∧ a.ref = w.ref) := by
  have hhost : HostOnly u (replied w result u) := hostOnly_complete ..
  refine ⟨(Beside.of_hostOnly hhost).mem.trans hmem, hhost.slots.trans hslots, hhost.dev.trans hdev, fun a ha => ?_⟩
  · obtain ⟨-, hother⟩ := left_complete ha
    exact not_and_or.mpr hother

end

/-- Settles O10: each read's answer by its own lemma; an empty range answers before its length is checked (log entry 58).
The seal's state is `sealing`, whose tables are empty by `wipe`. -/
theorem securityCommandsComplete : Obligations.SecurityCommandsComplete := by
  refine fun s h snd => ⟨fun nonce view r hacc hview hdevice htenant hlen hin => ?_,
    fun first count r hacc hmax hlen hin => ⟨exec_logRead_empty hacc hmax hlen hin, exec_logRead_writes hacc hmax hlen hin⟩,
    fun confirm hacc hconfirm => ?_⟩
  · have hallowed : ReportAllowed h snd view r := ⟨hview, hdevice, htenant, decide_eq_true hlen, decide_eq_true hin⟩
    refine ⟨exec_attestReport_empty hacc hallowed, fun hpos => ?_⟩
    exact exec_attestReport_writes hacc hallowed hpos
  · exact ⟨_, exec_sealReturn_seals hacc hconfirm, rfl, rfl, rfl, rfl, rfl, rfl, rfl, rfl, rfl, rfl, rfl, rfl, rfl⟩

/-- Settles O53: the reads by `read_leaves`, and a seal's entries leave what `sealing` cleared. -/
theorem reportsReadsAndSealsGoThrough : Obligations.ReportsReadsAndSealsGoThrough := by
  refine fun s h snd => ⟨fun nonce r hacc hcontrol hlen hin hfits => ?_,
    fun first count r hacc hmax hlen hin hfirst hlast hroom => ?_, fun hacc => ?_⟩
  · have hallowed : ReportAllowed h snd 0 r :=
      ⟨Nat.zero_lt_two, fun _ => hcontrol, nofun, decide_eq_true hlen, decide_eq_true hin⟩
    have hsize : (reportBytes (takeCmd h s) nonce (0 == 1) h.context ++ Config.freeBytes s.free 114).length ≤ r.len := by
      rw [List.length_append, freeBytes_length]
      exact hfits
    have hwrite := hostOnly_windowWrite (waitOf s h 0x0601 snd) r.off
      (reportBytes (takeCmd h s) nonce (0 == 1) h.context ++ Config.freeBytes s.free 114)
      { takeCmd h s with free := s.free + 1 }
    refine ⟨_, exec_attestReport_writes hacc hallowed (by omega) hsize, read_leaves _ _ ?_ ?_ ?_⟩
    · exact (Beside.of_hostOnly hwrite).mem.trans (takeCmd_mem h s)
    · exact hwrite.slots.trans (takeCmd_slots h s)
    · exact hwrite.dev.trans (takeCmd_dev h s)
  · by_cases hnone : count = 0 ∨ r.len = 0
    · exact ⟨_, exec_logRead_empty hacc hmax hlen hin hnone,
        read_leaves _ _ (takeCmd_mem h s) (takeCmd_slots h s) (takeCmd_dev h s)⟩
    · have hwrite (data : List Byte) := hostOnly_windowWrite (waitOf s h 0x0606 snd) r.off data (takeCmd h s)
      refine ⟨_, exec_logRead_writes hacc hmax hlen hin (by omega) (by omega) hfirst hlast hroom,
        read_leaves _ _ ?_ ?_ ?_⟩
      · exact (Beside.of_hostOnly (hwrite _)).mem.trans (takeCmd_mem h s)
      · exact (hwrite _).slots.trans (takeCmd_slots h s)
      · exact (hwrite _).dev.trans (takeCmd_dev h s)
  · obtain ⟨hdev, hslots, hmem⟩ := sealLogged_keeps (waitOf s h 0x0607 snd)
      (sealing (waitOf s h 0x0607 snd) (logInternal 6 0 0xFF 0 0 [] (sealEnded (takeCmd h s))))
    refine ⟨_, exec_sealReturn_seals hacc rfl, ?_⟩
    rw [hdev, hslots, hmem]
    exact ⟨rfl, rfl, rfl, rfl⟩

end Sys2Proof.Machine
end

section
/-! The Ethernet link and the timebase (15 R424 to R426, R456, R457, R460; log entries 46 and 78): what each of their commands
answers. -/

namespace Sys2Proof.Machine

open Sys2Proof.Safety

/-! ## The link (R424 to R426) -/

section

variable {s : State}

theorem exec_ethLinkTraining_down (l01 l23 : Bool) (hup : ethUp s = false) (hstopped : s.dev.stopped = false)
    (hstarting : s.dev.starting = false) (hclock : s.dev.refEth = true) :
    exec (.ethLinkTraining l01 l23) s = .next { s with ethState := ethTrained s l01 l23 } := by
  simp [exec_ethLinkTraining, execEthLinkTraining, hup, hstopped, hstarting, hclock]

/-- Four lanes give the wide mode and two the narrow one where the setup image allows both, and lanes 2 and 3 alone none
(R424). -/
theorem ethTrained_modes (l01 l23 : Bool) :
    (s.setup.settings.ethMode = 0 → l01 = true → l23 = true → ethTrained s l01 l23 = 2) ∧
      (s.setup.settings.ethMode = 0 → l01 = true → l23 = false → ethTrained s l01 l23 = 3) ∧
      (l01 = false → ethTrained s l01 l23 = 0) := by
  refine ⟨fun hmode h01 h23 => ?_, fun hmode h01 h23 => ?_, fun h01 => ?_⟩
  · simp [ethTrained, hmode, h01, h23]
  · simp [ethTrained, hmode, h01, h23]
  · simp [ethTrained, h01]

theorem exec_nonMbaingFrame_up (hup : ethUp s = true) : exec .nonMbaingFrame s = .next (ethDiscard s) := by
  rw [exec_nonMbaingFrame, execNonMbaingFrame, if_pos hup]

theorem exec_arpRequest_ours {ip : Nat} (hup : ethUp s = true) (hencap : s.setup.settings.encap ≠ 0)
    (hip : ip = s.setup.settings.ip) :
    exec (.arpRequest ip) s = .next (sendPlain 0 (leBytes 16 ip ++ leBytes 6
      (if s.setup.settings.macSet then s.setup.settings.mac else s.dev.fusedMac)) s) := by
  simp [exec_arpRequest, execArpRequest, hup, hencap, hip]

theorem exec_arpRequest_foreign {ip : Nat} (hup : ethUp s = true)
    (hother : s.setup.settings.encap = 0 ∨ ip ≠ s.setup.settings.ip) :
    exec (.arpRequest ip) s = .next (ethDiscard s) := by
  have hours : (s.setup.settings.encap != 0 && ip == s.setup.settings.ip) = false := by
    rcases hother with h | h <;> simp [h]
  simp [exec_arpRequest, execArpRequest, hup, hours]

/-! ## The timebase (R456, R457) -/

/-- A Sync's offset at a time: the timebase less the transmitter's time. -/
def syncOffset (time t : Nat) (s : State) : Int := (max s.ptp.now t : Nat) - (time : Int)

/-- The timebase after the domain's first Sync: it steps forward to the transmitter's time (R457). -/
def syncedFirst (time t : Nat) (s : State) : Ptp :=
  { s.ptp with now := max (max s.ptp.now t) time, state := 1, offset := syncOffset time t s,
               syncs := satAt 0xFFFF (s.ptp.syncs + 1), lastSync := max (max s.ptp.now t) time, slew := 0,
               stepTold := false }

/-- The timebase after a later Sync: it slews by the offset (R457). -/
def syncedLater (time t : Nat) (s : State) : Ptp :=
  { s.ptp with now := max s.ptp.now t, state := 1, offset := syncOffset time t s,
               syncs := satAt 0xFFFF (s.ptp.syncs + 1), lastSync := max s.ptp.now t, slew := -syncOffset time t s,
               stepTold := decide (1000000 < (syncOffset time t s).natAbs) }

/-- A sample changes the monitors alone. -/
theorem monSample_frame (block inst x : Nat) (s : State) :
    monSample block inst x s = { s with mons := (monSample block inst x s).mons } := by
  unfold monSample
  simp only
  split <;> rfl

/-- The state after the sample of a Sync's offset (19 R550), at the Sync's time. -/
def syncSampled (time t : Nat) (s : State) : State := sampleOffset (syncOffset time t s) (atTime t s)

theorem syncSampled_frame (time t : Nat) (s : State) :
    syncSampled time t s = { atTime t s with mons := (syncSampled time t s).mons } :=
  monSample_frame 2 5 (syncOffset time t s).natAbs (atTime t s)

/-- A Sync of the setup image's domain on a link that is up is taken (R456). -/
theorem sync_taken {domain : Nat} (t : Nat) (hup : ethUp s = true) (hdomain : domain = s.setup.settings.ptpDomain) :
    (!ethUp (atTime t s) || domain != (atTime t s).setup.settings.ptpDomain) = false := by
  change (!ethUp s || domain != s.setup.settings.ptpDomain) = false
  simp [hup, hdomain]

theorem exec_ptpSync_first {domain time t : Nat} (hup : ethUp s = true) (hdomain : domain = s.setup.settings.ptpDomain)
    (hfree : s.ptp.state = 0) :
    exec (.ptpSync domain time t) s = .next { s with
      ptp := syncedFirst time t s, mons := (syncSampled time t s).mons } := by
  have hin := sync_taken t hup hdomain
  have hsample : sampleOffset ((atTime t s).ptp.now - time) (atTime t s) = _ := syncSampled_frame time t s
  have hfirst : (atTime t s).ptp.state = 0 := hfree
  rw [exec_ptpSync, execPtpSync]
  simp only [hin, hfirst, Bool.false_eq_true, if_false, beq_self_eq_true, if_true, Bool.not_true, Bool.false_and]
  rw [hsample]
  rfl

/-- A later Sync may raise the notice of a far offset, which is the host's side of the device (R457, log entry 46). -/
theorem exec_ptpSync_later {domain time t : Nat} (hup : ethUp s = true) (hdomain : domain = s.setup.settings.ptpDomain)
    (hlocked : s.ptp.state ≠ 0) :
    ∃ u, exec (.ptpSync domain time t) s = .next u ∧ u.ptp = syncedLater time t s ∧
      { withHostSide s u with ptp := s.ptp } = s := by
  have hin := sync_taken t hup hdomain
  have hsample : sampleOffset ((atTime t s).ptp.now - time) (atTime t s) = _ := syncSampled_frame time t s
  have hlater : ((atTime t s).ptp.state == 0) = false := by simpa [atTime] using hlocked
  let v : State := { s with ptp := syncedLater time t s, mons := (syncSampled time t s).mons }
  have hexec : exec (.ptpSync domain time t) s =
      .next (if decide (1000000 < (syncOffset time t s).natAbs) && !s.ptp.stepTold
        then notice 0x60 0 0 0 (leBytes 8 (syncOffset time t s % 2 ^ 64).toNat) v else v) := by
    rw [exec_ptpSync, execPtpSync]
    simp only [hin, hlater, Bool.false_eq_true, if_false, Bool.not_false, Bool.true_and]
    rw [hsample]
    rfl
  have hkeeps : ∀ u, HostOnly v u → u.ptp = syncedLater time t s ∧ { withHostSide s u with ptp := s.ptp } = s :=
    fun u hu => ⟨(congrArg State.ptp hu :), (congrArg (fun x : State => { withHostSide s x with ptp := s.ptp }) hu :)⟩
  refine ⟨_, hexec, hkeeps _ ?_⟩
  split
  · exact hostOnly_notice ..
  · exact .refl v

theorem exec_ptpHoldover_late {t : Nat} (hlocked : s.ptp.state ≠ 0) (hlate : s.ptp.lastSync + 4000000000 ≤ max s.ptp.now t) :
    exec (.ptpHoldover t) s = .next { s with ptp := { s.ptp with
      now := max s.ptp.now t, state := 2,
      holdFrom := if s.ptp.state = 2 then s.ptp.holdFrom else s.ptp.lastSync + 4000000000 } } := by
  simp [exec_ptpHoldover, execPtpHoldover, atTime, hlocked, Nat.not_lt.mpr hlate]
  rfl

end

/-- Settles O20: the timebase after a Sync is `syncedFirst` or `syncedLater`; an offset is positive where the timebase is ahead, and
holdover counts from 4 s after the last Sync (log entries 46 and 78). -/
theorem linkAndTimebaseComplete : Obligations.LinkAndTimebaseComplete := by
  refine ⟨fun s => ⟨fun l01 l23 hup hstopped hstarting hclock => ?_, rfl, exec_nonMbaingFrame_up,
      fun ip => exec_arpRequest_ours, fun ip => exec_arpRequest_foreign⟩,
    fun s t => ⟨fun domain time hup hdomain hfree => ?_, fun domain time hup hdomain hlocked => ?_,
      fun hlocked hlate => ?_⟩⟩
  · exact ⟨_, exec_ethLinkTraining_down l01 l23 hup hstopped hstarting hclock, ethTrained_modes l01 l23⟩
  · exact ⟨_, exec_ptpSync_first hup hdomain hfree, rfl, rfl, rfl, rfl, rfl, rfl⟩
  · obtain ⟨u, hexec, hptp, hframe⟩ := exec_ptpSync_later hup hdomain hlocked (time := time) (t := t)
    refine ⟨u, hexec, ?_⟩
    rw [hptp]
    exact ⟨rfl, rfl, rfl, by simp only [syncedLater, syncOffset]; omega, hframe⟩
  · refine ⟨_, exec_ptpHoldover_late hlocked hlate, rfl, rfl, fun hsync => ?_, fun hheld => by simp [hheld], rfl⟩
    simp [holdSeconds, hsync, satAt, Nat.sub_add_eq]

end Sys2Proof.Machine
end

section
/-! Sessions (15 R433 to R437; log entry 45): what a session that closes leaves, the end of the inbound queue at an association,
and the steps of `OPEN`. -/

namespace Sys2Proof.Machine

open Sys2Proof.Safety

/-! ## A session that closes (R437) -/

theorem logAdd_sessions (e : LogEntry) (s : State) : (logAdd e s).sessions = s.sessions := by
  unfold logAdd logTruncate
  split <;> rfl

/-- A session that closes leaves the table; the others stand as they stood but for what they count. -/
theorem sessionsCount_closeSession (i : Nat) (s : State) :
    SessionsCount { s with sessions := s.sessions.del i } (closeSession i s) := by
  unfold closeSession
  split
  · next hnone =>
    refine fun k => ⟨id, .refl, ?_⟩
    by_cases hk : k = i
    · subst hk
      simp [hnone]
    · simp [Table.get_del_other _ _ _ hk]
  · simp only
    refine SessionsCount.trans ?_ (outKeeps_outDrain ..).sessions
    split
    · exact (SessionsCount.of_same (logAdd_sessions ..)).after ((outKeeps_watchOut ..).sessions.after (.of_same rfl))
    · exact (outKeeps_watchOut ..).sessions.after (.of_same rfl)

theorem closeSession_gone (i : Nat) (s : State) : (closeSession i s).sessions.get i = none :=
  (sessionsCount_closeSession i s).none (Table.get_del_self ..)

theorem closeSession_none {i k : Nat} {s : State} (h : s.sessions.get k = none) :
    (closeSession i s).sessions.get k = none := by
  by_cases hk : k = i
  · exact hk ▸ closeSession_gone i s
  · exact (sessionsCount_closeSession i s).none ((Table.get_del_other _ _ _ hk).trans h)

/-- Every session of a list is closed, and no other one opens. -/
theorem closeSessions_none {l : List Nat} {s : State} {k : Nat} (h : k ∈ l ∨ s.sessions.get k = none) :
    (l.foldl (fun s i => closeSession i s) s).sessions.get k = none := by
  induction l generalizing s with
  | nil => simpa using h
  | cons i l ih =>
    refine ih ?_
    rcases h with hk | hk
    · rcases List.mem_cons.mp hk with rfl | hk
      · exact .inr (closeSession_gone ..)
      · exact .inl hk
    · exact .inr (closeSession_none hk)

theorem closeAll_none (s : State) (k : Nat) :
    ((s.sessions.map (·.1)).foldl (fun s i => closeSession i s) s).sessions.get k = none := by
  refine closeSessions_none ?_
  cases hk : s.sessions.get k with
  | none => exact .inr rfl
  | some x => exact .inl (List.mem_map_of_mem (f := (·.1)) (Table.mem_of_get hk))

/-! ## The end of the inbound queue (R433) -/

/-- What a command that reads its window has in progress lies in the device state, the slots and the registry. -/
theorem undoRead_frame (c : Instr) (s : State) :
    { undoRead c s with dev := s.dev, slots := s.slots, registry := s.registry } = s := by
  cases c with
  | baseLoad h man image golden m bytes =>
    unfold undoRead baseLoadState
    simp only
    repeat' split
    all_goals rfl
  | scoreLoad h slot r file =>
    unfold undoRead loadingState
    simp only
    repeat' split
    all_goals rfl
  | adaptRegister h f r bytes =>
    unfold undoRead registerState
    simp only
    repeat' split
    all_goals rfl
  | _ => rfl

/-- Inputs that wait for no bar stay (R452). -/
def Job.withoutWaiting (j : Job) : Job := { j with inputs := j.inputs.filter (·.w.isNone) }

/-- The inputs of the slots of a list that wait for their bar go. -/
def inputsDropped (l : List Nat) (s : State) : State := l.foldl (fun s i => modJob i Job.withoutWaiting s) s

theorem inputsDropped_frame (l : List Nat) (s : State) : { inputsDropped l s with slots := s.slots } = s := by
  induction l generalizing s with
  | nil => rfl
  | cons i l ih => exact (congrArg (fun x : State => { x with slots := s.slots }) (ih (modJob i Job.withoutWaiting s)) :)

/-- A job that is not changed leaves its slot as it was. -/
theorem getSlot_modJob_same {i : Nat} {f : Job → Job} {s : State} (h : ∀ j, getJob s i = some j → f j = j) (k : Nat) :
    getSlot (modJob i f s) k = getSlot s k := by
  by_cases hk : k = i
  · subst hk
    rw [modJob, getSlot_modSlot]
    have hjob : (getSlot s k).job.map f = (getSlot s k).job := by
      cases hj : (getSlot s k).job with
      | none => rfl
      | some j => rw [Option.map_some, h j hj]
    rw [hjob]
  · exact getSlot_modSlot_other _ _ _ _ hk

theorem getSlot_inputsDropped {l : List Nat} {s : State} (h : ∀ i j, getJob s i = some j → j.withoutWaiting = j) (k : Nat) :
    getSlot (inputsDropped l s) k = getSlot s k := by
  induction l generalizing s with
  | nil => rfl
  | cons i l ih =>
    have hsame := getSlot_modJob_same (h i)
    exact (ih fun k j hj => h k j (by rw [← hj, getJob, getJob, hsame])).trans (hsame k)

theorem withoutWaiting_of_none {j : Job} (h : ∀ i ∈ j.inputs, i.w = none) : j.withoutWaiting = j := by
  have hall : j.inputs.filter (·.w.isNone) = j.inputs :=
    List.filter_eq_self.mpr fun i hi => by rw [h i hi]; rfl
  rw [Job.withoutWaiting, hall]

/-- The commands that still read their window, undone. -/
def readsUndone (s : State) : State := s.winReads.foldl (fun s r => undoRead r.cmd s) s

theorem readsUndone_frame (s : State) :
    { readsUndone s with dev := s.dev, slots := s.slots, registry := s.registry } = s :=
  foldl_keeps (R := fun s t : State => { t with dev := s.dev, slots := s.slots, registry := s.registry } = s)
    (fun _ => rfl) (fun h k => by rw [← h, ← k]) (fun s r => undoRead_frame r.cmd s) s.winReads s

/-- What the end of the inbound queue may change. -/
theorem emptyInbound_frame (s : State) :
    { emptyInbound s with dev := s.dev, slots := s.slots, registry := s.registry, winReads := s.winReads,
                          accepted := s.accepted, cmdParts := s.cmdParts, inq := s.inq } = s := by
  have hdrop := inputsDropped_frame ((readsUndone s).slots.map (·.1)) (readsUndone s)
  have hundo := readsUndone_frame s
  rw [← hdrop] at hundo
  exact (congrArg (fun x : State => { x with
    winReads := s.winReads, accepted := s.accepted, cmdParts := s.cmdParts, inq := s.inq }) hundo :)

theorem getSlot_emptyInbound {s : State} (hreads : s.winReads = [])
    (hwait : ∀ p ∈ s.slots, ∀ j, p.2.job = some j → ∀ i ∈ j.inputs, i.w = none) (k : Nat) :
    getSlot (emptyInbound s) k = getSlot s k := by
  have hnone : readsUndone s = s := by rw [readsUndone, hreads]; rfl
  have hdrop : getSlot (emptyInbound s) k = getSlot (inputsDropped ((readsUndone s).slots.map (·.1)) (readsUndone s)) k := rfl
  rw [hdrop, hnone]
  refine getSlot_inputsDropped (fun i j hj => withoutWaiting_of_none ?_) k
  cases hi : s.slots.get i with
  | none => simp [getJob, getSlot, Table.getD, hi] at hj
  | some sl => exact hwait (i, sl) (Table.mem_of_get hi) j (by simpa [getJob, getSlot, Table.getD, hi] using hj)

/-! ## Association (R433) -/

/-- Every session closed. -/
def sessionsClosed (s : State) : State := (s.sessions.map (·.1)).foldl (fun s i => closeSession i s) s

theorem hostOnly_sessionsClosed (s : State) : HostOnly s (sessionsClosed s) :=
  HostOnly.foldl _ (fun s i => hostOnly_closeSession i s) _ s

/-- The association number that a source draws. -/
def assocDrawn (s : State) : Nat := Config.freeNat (nextFree (emptyInbound (sessionsClosed s))).1 % (2 ^ 32 - 1) + 1

/-- The state after an association. -/
def associated (src : Nat) (nonce : List Byte) (s : State) : State :=
  sendPlain 1 (nonce ++ leBytes 4 (assocDrawn s)) { (nextFree (emptyInbound (sessionsClosed s))).2 with
    inSeq := [], outSeq := [], assocNum := some (src, assocDrawn s), ackOwed := 0, ackDup := false }

theorem exec_assoc_up {s : State} {nonce : List Byte} (hup : ethUp s = true) (hnonce : nonce.length = 16) (src : Nat) :
    exec (.assoc src nonce) s = .next (associated src nonce s) := by
  rw [exec_assoc, execAssoc, if_neg (by simp [hup]), if_neg (by simp [hnonce])]
  rfl

theorem associated_sessions (src : Nat) (nonce : List Byte) (s : State) (i : Nat) :
    (associated src nonce s).sessions.get i = none := by
  have hkept : (associated src nonce s).sessions = (sessionsClosed s).sessions :=
    (congrArg State.sessions (emptyInbound_frame (sessionsClosed s)) :)
  rw [hkept]
  exact closeAll_none s i

theorem associated_machine (src : Nat) (nonce : List Byte) (s : State) :
    (associated src nonce s).cores = s.cores ∧ (associated src nonce s).mem = s.mem :=
  ⟨(congrArg State.cores (emptyInbound_frame (sessionsClosed s)) :).trans (congrArg State.cores (hostOnly_sessionsClosed s) :),
    (congrArg State.mem (emptyInbound_frame (sessionsClosed s)) :).trans (congrArg State.mem (hostOnly_sessionsClosed s) :)⟩

theorem getSlot_associated {s : State} (src : Nat) (nonce : List Byte) (hreads : s.winReads = [])
    (hwait : ∀ p ∈ s.slots, ∀ j, p.2.job = some j → ∀ i ∈ j.inputs, i.w = none) (i : Nat) :
    getSlot (associated src nonce s) i = getSlot s i := by
  have hslots := (hostOnly_sessionsClosed s).slots
  have hempty : getSlot (associated src nonce s) i = getSlot (emptyInbound (sessionsClosed s)) i := rfl
  rw [hempty, getSlot_emptyInbound ((hostOnly_sessionsClosed s).winReads.trans hreads) (by rw [hslots]; exact hwait),
    getSlot, hslots]
  rfl

/-! ## The steps of `OPEN` (R434 to R436) -/

/-- The session that step 1 enters. -/
def openedOne (f : MbFrame) (key xkey : List Byte) (contexts : List Nat) (window i : Nat) (s : State) : Session :=
  { phase := 1, prin := key, contexts, window, credit := creditBytes s, xkey,
    reply := leBytes 2 i ++ leBytes 1 cOk ++ Config.freeBytes s.free 56 ++ leBytes 4 (creditBytes s) ++
      Config.freeBytes s.free 114,
    transcript := f.payload, control := s.setup.hostKeys.contains key, last := s.ptp.now }

/-- Step 1 of a sender that may open a session enters it in the lowest free index and answers with step 2 (R435). -/
theorem exec_openStep1_opens {s : State} {f : MbFrame} {key xkey nonce : List Byte} {contexts : List Nat} {window i : Nat}
    (hup : ethUp s = true) (hbasic : frameBasic s f = true) (hopen : f.ftype = 2 ∧ f.hs = true ∧ f.session = 0 ∧ f.cls = 7)
    (hkeys : key.length = 57 ∧ xkey.length = 56 ∧ nonce.length = 32)
    (hcontexts : contexts ≠ [] ∧ contexts.length ≤ 16 ∧ ∀ c ∈ contexts, c < 4096) (hwindow : window ≤ 2 ^ 40)
    (hfirst : ∀ p ∈ s.sessions, p.2.transcript ≠ f.payload) (hok : openStatus s key contexts = cOk)
    (hfree : s.sessions.lowestFree 4096 = some i) :
    exec (.openStep1 f key xkey nonce contexts window) s =
      .next (sendPlain 2 (openedOne f key xkey contexts window i s).reply
        { (nextFree s).2 with sessions := s.sessions.put i (openedOne f key xkey contexts window i s) }) := by
  obtain ⟨htype, hhs, hsession, hcls⟩ := hopen
  obtain ⟨hkey, hxkey, hnonce⟩ := hkeys
  obtain ⟨hsome, hlen, hsmall⟩ := hcontexts
  have hform : (!frameBasic s f || f.ftype != 2 || !f.hs || f.session != 0 || f.cls != 7 || key.length != 57 ||
      xkey.length != 56 || nonce.length != 32 || contexts.isEmpty || decide (16 < contexts.length) ||
      contexts.any (4096 ≤ ·) || decide (2 ^ 40 < window)) = false := by
    have hempty : contexts.isEmpty = false := by simpa using hsome
    have hany : contexts.any (4096 ≤ ·) = false :=
      List.any_eq_false.mpr fun c hc => by simpa using Nat.not_le.mpr (hsmall c hc)
    have hfits : decide (2 ^ 40 < window) = false := decide_eq_false (Nat.not_lt.mpr hwindow)
    rw [hempty, hany, hfits]
    simp [hbasic, htype, hhs, hsession, hcls, hkey, hxkey, hnonce, hlen]
  have hnew : (s.sessions.find? fun p => p.2.transcript == f.payload) = none :=
    List.find?_eq_none.mpr fun p hp => by simpa using hfirst p hp
  rw [exec_openStep1, execOpenStep1, if_neg (by simp [hup]), if_neg (by rw [hform]; exact Bool.false_ne_true), hnew]
  simp only
  rw [if_neg (by simp [hok]), hok, hfree]
  rfl

/-- Records kept for a principal join the outbound queue of its new session (R437). -/
theorem outKeeps_deliverLinger (i : Nat) (s : State) : OutKeeps s (deliverLinger i s) := by
  unfold deliverLinger
  split
  · exact .refl s
  · refine (OutKeeps.foldl (fun s l => OutKeeps.foldl (fun s r => ?_) _ s) _ _).after (.of_same rfl)
    split
    · exact outKeeps_outAppend ..
    · exact outKeeps_outRecord ..

/-- The session that step 3 opens: its keys come from the transcript. -/
def openedThree (f : MbFrame) (x : Session) (s : State) : Session :=
  { x with
    phase := 2, xkey := [], last := s.ptp.now,
    keys := shake256 64 (Config.freeBytes s.free 56 ++ digest64 (x.transcript ++ x.reply ++ f.payload) ++
      "MBAING-KEYS".toList.map fun c => BitVec.ofNat 8 c.toNat) }

/-- The state with the session open, before its entry in the change log. -/
def sessionEntered (f : MbFrame) (x : Session) (s : State) : State :=
  { (nextFree s).2 with sessions := s.sessions.put f.session (openedThree f x s) }

/-- The entry of a session that opens (17 R505). -/
def openEntry (f : MbFrame) (x : Session) : LogEntry :=
  { index := 0, time := 0, kind := 7, origin := 0, prin := prinTag x.prin, prev := [],
    detail := leBytes 2 f.session ++ leBytes 1 1 }

theorem exec_openStep3_right {s : State} {f : MbFrame} {x : Session} (hup : ethUp s = true)
    (hx : s.sessions.get f.session = some x) (hbasic : frameBasic s f = true)
    (hopen : f.ftype = 2 ∧ f.hs = true ∧ f.cls = 7) (hphase : x.phase = 1) :
    exec (.openStep3 f true) s = .next (deliverLinger f.session (logAdd (openEntry f x) (sessionEntered f x s))) := by
  obtain ⟨htype, hhs, hcls⟩ := hopen
  rw [exec_openStep3, execOpenStep3, if_neg (by simp [hup]), hx]
  simp only
  rw [if_neg (by simp [hbasic, htype, hhs, hcls]), if_neg (by simp [hphase]), if_neg (by simp)]
  rfl

/-- The entry in the change log and the kept records that join its queue leave the session open. -/
theorem stands_sessionEntered (e : LogEntry) (f : MbFrame) (x : Session) (s : State) :
    ∃ y, (deliverLinger f.session (logAdd e (sessionEntered f x s))).sessions.get f.session = some y ∧
      (openedThree f x s).Counts y :=
  ((SessionsCount.of_same (logAdd_sessions e (sessionEntered f x s))).trans
    (outKeeps_deliverLinger ..).sessions).some (Table.get_put_self ..)

/-- With a wrong signature the index is free again, and the failure counts (R435). -/
theorem exec_openStep3_wrong {s : State} {f : MbFrame} {x : Session} (hup : ethUp s = true)
    (hx : s.sessions.get f.session = some x) (hbasic : frameBasic s f = true)
    (hopen : f.ftype = 2 ∧ f.hs = true ∧ f.cls = 7) (hphase : x.phase = 1) :
    exec (.openStep3 f false) s = .next { s with
      sessions := s.sessions.del f.session, ethAuthFail := min 0xFFFF (s.ethAuthFail + 1) } := by
  obtain ⟨htype, hhs, hcls⟩ := hopen
  rw [exec_openStep3, execOpenStep3, if_neg (by simp [hup]), hx]
  simp only
  rw [if_neg (by simp [hbasic, htype, hhs, hcls]), if_neg (by simp [hphase]), if_pos (by simp)]
  rfl

/-- Settles O21: an association leaves `associated`, step 1 of `OPEN` enters `openedOne`, whose answer is laid out as log entry 45
gives it, and step 3 opens the session or frees its index. -/
theorem sessionsOpenByHandshake : Obligations.SessionsOpenByHandshake := by
  refine fun s hup => ⟨fun src nonce hnonce => ?_, ?_, ?_⟩
  · obtain ⟨hcores, hmem⟩ := associated_machine src nonce s
    exact ⟨_, assocDrawn s, exec_assoc_up hup hnonce src, Nat.succ_pos _, rfl, associated_sessions src nonce s, rfl, rfl, rfl,
      rfl, List.mem_append_right _ (List.mem_singleton_self _), rfl, hcores, hmem, getSlot_associated src nonce⟩
  · intro f key xkey nonce contexts window i hbasic htype hhs hsession hcls hkey hxkey hnonce hsome hlen hsmall hwindow
      hfirst hok hfree
    refine ⟨_, _, _, exec_openStep1_opens hup hbasic ⟨htype, hhs, hsession, hcls⟩ ⟨hkey, hxkey, hnonce⟩
      ⟨hsome, hlen, hsmall⟩ hwindow hfirst hok hfree, Table.get_put_self .., rfl, rfl, rfl, rfl, rfl, ?_, rfl⟩
    simp [openedOne, leBytes, cOk]
  · intro f x hx hbasic htype hhs hcls hphase
    obtain ⟨y, hy, hcounts⟩ := stands_sessionEntered (openEntry f x) f x s
    exact ⟨⟨_, y, exec_openStep3_right hup hx hbasic ⟨htype, hhs, hcls⟩ hphase, hy, (congrArg Session.phase hcounts :),
        (congrArg Session.prin hcounts :), (congrArg Session.contexts hcounts :)⟩,
      exec_openStep3_wrong hup hx hbasic ⟨htype, hhs, hcls⟩ hphase⟩

end Sys2Proof.Machine
end

section
/-! Frames of a session (15 R432, R437 to R440, R447): what a write to one class of the outbound queue leaves of the others, the
acceptance of a frame in sequence, and what an acknowledgement releases. -/

namespace Sys2Proof.Machine

open Sys2Proof.Safety

/-! ## Classes of a queue (R443) -/

@[simp] theorem Peal.cls_setCls (q : Peal) (c : Nat) (p : PealClass) : (q.setCls c p).cls c = p := Table.getD_put_self ..

theorem Peal.cls_setCls_other (q : Peal) {c k : Nat} (p : PealClass) (hk : k ≠ c) : (q.setCls c p).cls k = q.cls k :=
  Table.getD_put_other _ _ _ _ _ hk

/-- A watched queue keeps its items. -/
theorem Peal.watch_cls (q : Peal) (now before c : Nat) : (q.watch now before).1.cls c = q.cls c := by
  unfold Peal.watch
  simp only
  repeat' split
  all_goals rfl

theorem Peal.watch_classes (q : Peal) (now before : Nat) : (q.watch now before).1.classes = q.classes := by
  unfold Peal.watch
  simp only
  repeat' split
  all_goals rfl

/-- Only one outbound class may change, and no writer of another one comes to stall. -/
structure OneClass (c : Nat) (s t : State) : Prop where
  others : ∀ k, k ≠ c → t.outq.cls k = s.outq.cls k
  stalled : (∀ p ∈ s.outStall, p.1 = c) → ∀ p ∈ t.outStall, p.1 = c

namespace OneClass

variable {c : Nat} {s t u : State}

theorem of_outq (h : t.outq = s.outq) (hstall : t.outStall = s.outStall) : OneClass c s t :=
  ⟨fun k _ => by rw [h], fun hs => by rw [hstall]; exact hs⟩

theorem refl (s : State) : OneClass c s s := of_outq rfl rfl

theorem trans (h : OneClass c s t) (k : OneClass c t u) : OneClass c s u :=
  ⟨fun j hj => (k.others j hj).trans (h.others j hj), fun hs => k.stalled (h.stalled hs)⟩

theorem after (k : OneClass c t u) (h : OneClass c s t) : OneClass c s u := h.trans k

theorem foldl {α : Type} {f : State → α → State} (hf : ∀ s a, OneClass c s (f s a)) (l : List α) (s : State) :
    OneClass c s (l.foldl f s) := foldl_keeps refl trans hf l s

/-- A class that is set leaves the others. -/
theorem of_setCls {p : PealClass} (h : t.outq = s.outq.setCls c p) (hstall : t.outStall = s.outStall) : OneClass c s t :=
  ⟨fun k hk => by rw [h, Peal.cls_setCls_other _ _ hk], fun hs => by rw [hstall]; exact hs⟩

end OneClass

theorem oneClass_closeOpen (c : Nat) (s : State) : OneClass c s (closeOpen c s) := by
  unfold closeOpen
  simp only
  split
  · split
    · exact .of_setCls rfl rfl
    · exact .refl s
  · exact .refl s

theorem oneClass_outAppend0 (c : Nat) (i : PealItem) (s : State) : OneClass c s (outAppend0 c i s) := by
  unfold outAppend0
  simp only
  refine (oneClass_closeOpen c s).trans ?_
  split
  · refine ⟨fun _ _ => rfl, fun hs p hp => ?_⟩
    rcases List.mem_append.mp hp with hp | hp
    · exact hs p hp
    · rw [List.mem_singleton.mp hp]
  · split
    · exact .of_setCls rfl rfl
    · exact .of_setCls rfl rfl

theorem oneClass_outRecord0 (c sess ftype ref : Nat) (rec : List Byte) (reqs : List Nat) (s : State) :
    OneClass c s (outRecord0 c sess ftype ref rec reqs s) := by
  unfold outRecord0
  simp only
  split
  · split
    · split
      · exact (oneClass_closeOpen ..).after (.of_setCls rfl rfl)
      · exact .of_setCls rfl rfl
    · exact oneClass_outAppend0 ..
  · exact oneClass_outAppend0 ..

/-- `QUEUE_FILL` goes in class 6 (R450, R454). -/
theorem oneClass_fillNotice (q : Nat) (s : State) : OneClass 6 s (fillNotice q s) := by
  unfold fillNotice noticeBy
  simp only
  split
  · exact .of_outq rfl rfl
  · exact OneClass.foldl (fun s i => oneClass_outRecord0 6 i 5 0 _ [] s) _ s

theorem oneClass_watchOut (before : Nat) (s : State) : OneClass 6 s (watchOut before s) := by
  have hwatched : OneClass 6 s { s with outq := (s.outq.watch s.ptp.now before).1 } :=
    ⟨fun k _ => Peal.watch_cls .., fun hs => hs⟩
  unfold watchOut
  simp only
  split
  · exact hwatched.trans (oneClass_fillNotice ..)
  · exact hwatched

/-- Where only writers of class 6 stall, only class 6 goes on (R448). -/
theorem oneClass_outDrain (n : Nat) {s : State} (h : ∀ p ∈ s.outStall, p.1 = 6) : OneClass 6 s (outDrain n s) := by
  induction n generalizing s with
  | zero => exact .refl s
  | succ n ih =>
    unfold outDrain
    split
    · exact .refl s
    · next c i r hr =>
      rw [hr] at h
      obtain rfl : c = 6 := h (c, i) List.mem_cons_self
      have hrest : OneClass 6 s { s with outStall := r } :=
        ⟨fun _ _ => rfl, fun _ p hp => h p (List.mem_cons_of_mem _ hp)⟩
      have hwrite : OneClass 6 s (outAppend 6 i { s with outStall := r }) :=
        hrest.trans ((oneClass_outAppend0 6 i _).trans (oneClass_watchOut ..))
      split
      · exact hwrite.trans (ih (hwrite.stalled (by rw [hr]; exact h)))
      · exact .refl s

/-! ## A frame in sequence (R432, R439, R440) -/

/-- An acknowledgement that leaves changes what is owed, what sessions count and the unsequenced frames (R439). -/
theorem sendAck_frame (s : State) :
    { sendAck s with ackOwed := s.ackOwed, ackDup := s.ackDup, sessions := s.sessions, replies := s.replies } = s := by
  unfold sendAck
  split <;> rfl

/-- The state that takes a frame in sequence, before an acknowledgement that is due at once. -/
def frameTaken (f : MbFrame) (x : Session) (s : State) : State :=
  { s with inSeq := s.inSeq.put f.cls ((f.seq + 1) % 2 ^ 32), ackOwed := s.ackOwed + 1,
           sessions := s.sessions.put f.session { x with last := s.ptp.now, ctrIn := x.ctrIn + 1 } }

/-- The state after a frame in sequence is accepted. -/
def frameAccepted (f : MbFrame) (x : Session) (s : State) : State :=
  if 32 ≤ s.ackOwed + 1 then sendAck (frameTaken f x s) else frameTaken f x s

theorem frameAccepted_frame (f : MbFrame) (x : Session) (s : State) :
    { frameAccepted f x s with inSeq := s.inSeq, ackOwed := s.ackOwed, ackDup := s.ackDup, sessions := s.sessions,
                               replies := s.replies } = s := by
  unfold frameAccepted
  split
  · exact (congrArg (fun y : State => { y with
      inSeq := s.inSeq, ackOwed := s.ackOwed, ackDup := s.ackDup, sessions := s.sessions, replies := s.replies })
      (sendAck_frame (frameTaken f x s)) :)
  · rfl

theorem frameAccepted_inSeq (f : MbFrame) (x : Session) (s : State) :
    (frameAccepted f x s).inSeq = s.inSeq.put f.cls ((f.seq + 1) % 2 ^ 32) := by
  unfold frameAccepted
  split
  · exact (congrArg State.inSeq (sendAck_frame (frameTaken f x s)) :)
  · rfl

section

variable {s : State} {f : MbFrame} {x : Session}

/-- A frame that meets every check and is next in its class is accepted. -/
theorem acceptSeq_next {ftype : Nat} (hbasic : frameBasic s f = true) (htype : f.ftype = ftype) (hhs : f.hs = false)
    (hgcm : f.gcmOk = true) (hx : s.sessions.get f.session = some x) (hphase : x.phase = 2)
    (hseq : f.seq = s.inSeq.getD f.cls 0) (hspace : s.inq.hasSpace inCap f.cls (48 + f.payload.length) = true)
    (hcredit : x.used + 48 + f.payload.length ≤ x.credit) :
    acceptSeq ftype f s = (frameAccepted f x s, some x) := by
  have hahead : (f.seq + 2 ^ 32 - s.inSeq.getD f.cls 0) % 2 ^ 32 = 0 := by rw [← hseq]; omega
  unfold acceptSeq
  rw [if_neg (by simp [hbasic, htype, hhs]), hx]
  simp only [hahead]
  rw [if_neg (by simp [hphase]), if_neg (by simp [hgcm]), if_neg (by omega),
    if_neg (by simp [hspace]; omega)]
  rfl

/-- A frame that fails a basic check is discarded and counted (R432). -/
theorem acceptSeq_discard (ftype : Nat) (hbasic : frameBasic s f = false) : acceptSeq ftype f s = (ethDiscard s, none) := by
  unfold acceptSeq
  rw [if_pos (by simp [hbasic])]

end

/-! ## A command's frame (R440, 16 R461) -/

/-- The item that a command's first frame becomes. -/
def firstItem (f : MbFrame) (x : Session) : PealItem :=
  { sess := f.session, ftype := 3, ref := f.ref, first := f.first, last := f.last, seq := f.seq, ctr := f.ctr,
    payload := f.payload, prin := x.prin, contexts := x.contexts, control := x.control }

/-- The state with a frame at the tail of its class, before the queue's fill is watched. -/
def itemJoined (f : MbFrame) (x : Session) (s : State) : State :=
  { s with inq := s.inq.setCls f.cls { s.inq.cls f.cls with items := (s.inq.cls f.cls).items ++ [firstItem f x] },
           sessions := s.sessions.upd f.session (fun y => { y with used := y.used + (firstItem f x).size }),
           cmdParts := let rest := s.cmdParts.filter fun p => !(p.sess == f.session && p.cls == f.cls)
             if f.last then rest else rest ++ [⟨f.session, f.cls, f.ref, 0 + f.payload.length⟩] }

/-- Where the session has no unfinished command in the class, a first frame joins the class's tail. -/
theorem exec_cmdFrame_first {s : State} {f : MbFrame} {x : Session} (hup : ethUp s = true) (href : f.ref ≠ 0)
    (hlen : 0 < f.len ∨ f.last = true) (hfirst : f.first = true)
    (hparts : ∀ p ∈ s.cmdParts, p.sess ≠ f.session ∨ p.cls ≠ f.cls)
    (haccept : acceptSeq 3 f s = (frameAccepted f x s, some x)) :
    exec (.cmdFrame f) s = .next (watchIn s.inq.fill (itemJoined f x (frameAccepted f x s))) := by
  have hkept := frameAccepted_frame f x s
  have hcmd : (frameAccepted f x s).cmdParts = s.cmdParts := (congrArg State.cmdParts hkept :)
  have hinq : (frameAccepted f x s).inq = s.inq := (congrArg State.inq hkept :)
  have hold : (s.cmdParts.find? fun p => p.sess == f.session && p.cls == f.cls) = none := by
    refine List.find?_eq_none.mpr fun p hp => ?_
    rcases hparts p hp with h | h <;> simp [h]
  have hlast : ¬(f.ref = 0 ∨ (f.len = 0 ∧ f.last = false)) := by
    rintro (h | ⟨hzero, hmore⟩)
    · exact href h
    · rcases hlen with h | h
      · omega
      · simp [h] at hmore
  rw [exec_cmdFrame, execCmdFrame, if_neg (by simp [hup]), if_neg (by simpa using hlast)]
  simp only [haccept, hcmd, hold, hfirst, Bool.not_true, Bool.false_and, Bool.false_eq_true, if_false]
  rw [hinq]
  simp only [itemJoined, firstItem, hinq, hcmd, hfirst]

/-- The fill of the inbound queue is watched: the queue keeps its items, and only the outbound side may change beside it. -/
theorem watchIn_keeps (before : Nat) (s : State) :
    (watchIn before s).inq.classes = s.inq.classes ∧ (watchIn before s).inSeq = s.inSeq := by
  unfold watchIn
  simp only
  split
  · have hout := outKeeps_fillNotice 0 { s with inq := (s.inq.watch s.ptp.now before).1 }
    exact ⟨by rw [hout.inq]; exact Peal.watch_classes .., hout.inSeq⟩
  · exact ⟨Peal.watch_classes .., rfl⟩

/-! ## Acknowledgements (R447) -/

/-- A release changes its class and, where requests have ended, the table of requests. -/
theorem releaseTo_frame (s : State) (c v : Nat) : { releaseTo s c v with outq := s.outq, reqs := s.reqs } = s := by
  unfold releaseTo
  simp only
  split <;> rfl

theorem releaseTo_items (s : State) (c v : Nat) :
    ((releaseTo s c v).outq.cls c).items = (s.outq.cls c).items.drop (ackCount s c v) := by
  unfold releaseTo
  simp only
  split
  · next hn => rw [hn, List.drop_zero]
  · exact congrArg PealClass.items (Peal.cls_setCls ..)

theorem releaseTo_other (s : State) {c k : Nat} (v : Nat) (hk : k ≠ c) : (releaseTo s c v).outq.cls k = s.outq.cls k := by
  unfold releaseTo
  simp only
  split
  · rfl
  · exact Peal.cls_setCls_other _ _ hk

theorem releaseTo_level (s : State) (c v : Nat) : (releaseTo s c v).outq.levelKib = s.outq.levelKib := by
  unfold releaseTo
  simp only
  split <;> rfl

/-- The classes of a list released up to what the host names. -/
def released (l next : List Nat) (s : State) : State := l.foldl (fun s c => releaseTo s c (next.getD c 0)) s

theorem released_frame (l next : List Nat) (s : State) : { released l next s with outq := s.outq, reqs := s.reqs } = s := by
  induction l generalizing s with
  | nil => rfl
  | cons c l ih =>
    have hstep := releaseTo_frame s c (next.getD c 0)
    exact (congrArg (fun y : State => { y with outq := s.outq, reqs := s.reqs }) (ih (releaseTo s c (next.getD c 0))) :).trans
      hstep

theorem released_level (l next : List Nat) (s : State) : (released l next s).outq.levelKib = s.outq.levelKib := by
  induction l generalizing s with
  | nil => rfl
  | cons c l ih => exact (ih _).trans (releaseTo_level ..)

theorem released_fields (l next : List Nat) (s : State) :
    (released l next s).sessions = s.sessions ∧ (released l next s).outStall = s.outStall ∧
      (released l next s).inq = s.inq ∧ (released l next s).outq.levelKib = s.outq.levelKib :=
  have hkept := released_frame l next s
  ⟨(congrArg State.sessions hkept :), (congrArg State.outStall hkept :), (congrArg State.inq hkept :),
    released_level l next s⟩

theorem released_other {l : List Nat} (next : List Nat) (s : State) {c : Nat} (hc : c ∉ l) :
    (released l next s).outq.cls c = s.outq.cls c := by
  induction l generalizing s with
  | nil => rfl
  | cons k l ih =>
    obtain ⟨hk, hl⟩ : c ≠ k ∧ c ∉ l := by simpa using hc
    exact (ih _ hl).trans (releaseTo_other s _ hk)

/-- What is released of a class depends on that class alone. -/
theorem released_items {l : List Nat} (next : List Nat) {c : Nat} (hl : l.Nodup) (hc : c ∈ l) (s : State) :
    ((released l next s).outq.cls c).items = (s.outq.cls c).items.drop (ackCount s c (next.getD c 0)) := by
  induction l generalizing s with
  | nil => cases hc
  | cons k l ih =>
    obtain ⟨hk, hl⟩ := List.nodup_cons.mp hl
    rcases List.mem_cons.mp hc with rfl | hc
    · exact (congrArg PealClass.items (released_other next _ hk)).trans (releaseTo_items ..)
    · have hne : c ≠ k := fun h => hk (h ▸ hc)
      have hcls := releaseTo_other s (next.getD k 0) hne
      refine (ih hl hc (releaseTo s k (next.getD k 0))).trans ?_
      rw [ackCount, hcls]
      rfl

/-- The state with a session refreshed by its frame (R437, R439). -/
def sessionHeard (f : MbFrame) (x : Session) (s : State) : State :=
  { s with sessions := s.sessions.put f.session { x with last := s.ptp.now, ctrIn := x.ctrIn + 1 } }

/-- The state after an acknowledgement has refreshed its session and released what it covers. -/
def ackTaken (f : MbFrame) (next : List Nat) (x : Session) (s : State) : State :=
  released (List.range 8) next (sessionHeard f x s)

theorem ackTaken_frame (f : MbFrame) (next : List Nat) (x : Session) (s : State) :
    (ackTaken f next x s).sessions = (sessionHeard f x s).sessions ∧ (ackTaken f next x s).outStall = s.outStall ∧
      (ackTaken f next x s).inq = s.inq ∧ (ackTaken f next x s).outq.levelKib = s.outq.levelKib := by
  obtain ⟨hsessions, hstall, hinq, hlevel⟩ := released_fields (List.range 8) next (sessionHeard f x s)
  have hheard : (sessionHeard f x s).outStall = s.outStall ∧ (sessionHeard f x s).inq = s.inq ∧
      (sessionHeard f x s).outq.levelKib = s.outq.levelKib := ⟨rfl, rfl, rfl⟩
  rw [ackTaken]
  exact ⟨hsessions, hstall.trans hheard.1, hinq.trans hheard.2.1, hlevel.trans hheard.2.2⟩

theorem ackTaken_items (f : MbFrame) (next : List Nat) (x : Session) (s : State) {c : Nat} (hc : c < 8) :
    ((ackTaken f next x s).outq.cls c).items = (s.outq.cls c).items.drop (ackCount s c (next.getD c 0)) :=
  released_items next List.nodup_range (List.mem_range.mpr hc) (sessionHeard f x s)

/-- The fill watched after a release, and the stalled writers that go on. -/
def ackDrained (before : Nat) (s : State) : State :=
  outDrain (watchOut before s).outStall.length (watchOut before s)

theorem exec_ackFrame_control {s : State} {f : MbFrame} {x : Session} {next : List Nat} (hup : ethUp s = true)
    (hbasic : frameBasic s f = true) (htype : f.ftype = 8) (hhs : f.hs = false) (hgcm : f.gcmOk = true)
    (hx : s.sessions.get f.session = some x) (hphase : x.phase = 2) (hcontrol : x.control = true)
    (hnext : next.length = 8) (hsent : ∀ c, c < 8 → serialBefore (sentEnd s c) (next.getD c 0) = false) :
    exec (.ackFrame f next) s = .next (ackDrained s.outq.fill (ackTaken f next x s)) := by
  have hany : ((List.range 8).any fun c => serialBefore (sentEnd s c) (next.getD c 0)) = false :=
    List.any_eq_false.mpr fun c hc => by rw [hsent c (List.mem_range.mp hc)]; exact Bool.false_ne_true
  rw [exec_ackFrame, execAckFrame, if_neg (by simp [hup]), hx]
  simp only [hany]
  rw [if_neg (by simp [hbasic, htype, hhs, hphase, hcontrol, hnext]), if_neg (by simp [hgcm]), if_neg (by simp)]
  rfl

theorem outKeeps_ackDrained (before : Nat) (s : State) : OutKeeps s (ackDrained before s) :=
  (outKeeps_watchOut before s).trans (outKeeps_outDrain ..)

/-- Without stalled writers the fill's notice may reach class 6 alone. -/
theorem ackDrained_other {before : Nat} {s : State} {c : Nat} (hstall : s.outStall = []) (hc : c ≠ 6) :
    (ackDrained before s).outq.cls c = s.outq.cls c := by
  have hwatch := oneClass_watchOut before s
  have hsix := hwatch.stalled (by rw [hstall]; exact fun p hp => absurd hp List.not_mem_nil)
  exact ((oneClass_outDrain _ hsix).others c hc).trans (hwatch.others c hc)

/-- A fill that was above the level raises no notice. -/
theorem ackDrained_above {before : Nat} {s : State} (hstall : s.outStall = []) (habove : s.outq.levelKib * 1024 < before)
    (c : Nat) : (ackDrained before s).outq.cls c = s.outq.cls c := by
  have hquiet : (s.outq.watch s.ptp.now before).2 = false := by
    unfold Peal.watch
    simp only
    rw [if_neg (by simp; omega)]
    split <;> rfl
  have hwatch : watchOut before s = { s with outq := (s.outq.watch s.ptp.now before).1 } := by
    unfold watchOut
    simp only [hquiet, Bool.false_eq_true, if_false]
  rw [ackDrained, hwatch]
  simp only [hstall, List.length_nil, outDrain]
  exact Peal.watch_cls ..

/-- An acknowledgement of the controlling session refreshes it, releases what each class is covered up to, and leaves the inbound
queue (R439, R447). -/
theorem ack_covers {s : State} (f : MbFrame) (x : Session) (next : List Nat) :
    (∃ y, (ackDrained s.outq.fill (ackTaken f next x s)).sessions.get f.session = some y ∧ y.last = s.ptp.now) ∧
      (∀ c, c < 8 → (c ≠ 6 ∨ s.outq.levelKib * 1024 < s.outq.fill) → s.outStall = [] →
        ((ackDrained s.outq.fill (ackTaken f next x s)).outq.cls c).items =
          (s.outq.cls c).items.drop (ackCount s c (next.getD c 0))) ∧
      (ackDrained s.outq.fill (ackTaken f next x s)).inq.classes = s.inq.classes := by
  obtain ⟨hsessions, hstalled, hinq, hlevel⟩ := ackTaken_frame f next x s
  have hkeeps := outKeeps_ackDrained s.outq.fill (ackTaken f next x s)
  refine ⟨?_, fun c hc hside hstall => ?_, by rw [hkeeps.inq, hinq]⟩
  · obtain ⟨y, hy, hcounts⟩ := hkeeps.sessions.some (by rw [hsessions]; exact Table.get_put_self s.sessions f.session _)
    exact ⟨y, hy, (congrArg Session.last hcounts :)⟩
  · rw [← ackTaken_items f next x s hc]
    refine congrArg PealClass.items ?_
    rcases hside with hsix | habove
    · exact ackDrained_other (hstalled.trans hstall) hsix
    · exact ackDrained_above (hstalled.trans hstall) (by rw [hlevel]; exact habove) c

/-! ## Data for a window read (R438) -/

/-- Data that answer a window read and leave some of it to come are counted (R438). -/
theorem exec_wdataFrame_more {s : State} {f : MbFrame} {x : Session} {r : WinRead} (hup : ethUp s = true)
    (haccept : acceptSeq 7 f s = (frameAccepted f x s, some x)) (hreads : s.winReads = [r])
    (hmine : r.sess = f.session ∧ r.ref = f.ref)
    (hasked : ∃ a ∈ s.accepted, a.sess = r.sess ∧ a.ref = r.ref ∧ a.prin = x.prin) (hword : 8 ≤ f.payload.length)
    (hmore : f.payload.length < r.left + 8) :
    exec (.wdataFrame f) s = .next { frameAccepted f x s with
      winReads := [{ r with left := r.left + 8 - f.payload.length }] } := by
  have hkept := frameAccepted_frame f x s
  have hwin : (frameAccepted f x s).winReads = [r] := (congrArg State.winReads hkept :).trans hreads
  have hacc : (frameAccepted f x s).accepted = s.accepted := (congrArg State.accepted hkept :)
  obtain ⟨sess, ref, left, since, cmd⟩ := r
  obtain ⟨rfl, rfl⟩ := hmine
  have hany : (s.accepted.any fun a => a.sess == f.session && a.ref == f.ref && a.prin == x.prin) = true := by
    obtain ⟨a, ha, h⟩ := hasked
    exact List.any_eq_true.mpr ⟨a, ha, by simp [h]⟩
  have hleft : left - (f.payload.length - 8) = left + 8 - f.payload.length := by omega
  have hrest : left + 8 - f.payload.length ≠ 0 := Nat.sub_ne_zero_of_lt hmore
  rw [exec_wdataFrame, execWdataFrame, if_neg (by simp [hup])]
  simp only [haccept, hwin, hacc, Option.bind_some, List.find?_cons, beq_self_eq_true, Bool.true_and, hany,
    List.map_cons, List.map_nil, if_true, hleft, hrest, if_false]

/-! ## Frames that are discarded (R432) -/

theorem exec_discard {s : State} {f : MbFrame} (hup : ethUp s = true) (hbasic : frameBasic s f = false) :
    exec (.cmdFrame f) s = .next (ethDiscard s) ∧ exec (.closeFrame f) s = .next (ethDiscard s) ∧
      exec (.wdataFrame f) s = .next (ethDiscard s) ∧ ∀ next, exec (.ackFrame f next) s = .next (ethDiscard s) := by
  refine ⟨?_, ?_, ?_, fun next => ?_⟩
  · rw [exec_cmdFrame, execCmdFrame, if_neg (by simp [hup]), acceptSeq_discard 3 hbasic]
    split <;> rfl
  · rw [exec_closeFrame, execCloseFrame, if_neg (by simp [hup]), acceptSeq_discard 9 hbasic]
    rfl
  · rw [exec_wdataFrame, execWdataFrame, if_neg (by simp [hup]), acceptSeq_discard 7 hbasic]
    rfl
  · rw [exec_ackFrame, execAckFrame, if_neg (by simp [hup])]
    split
    · rfl
    · rw [if_pos (by simp [hbasic])]

/-! ## The obligation -/

/-- A command's first frame stands at its class's tail, and the machine is as it was. -/
theorem itemJoined_stands (s : State) (f : MbFrame) (x : Session) :
    ((watchIn s.inq.fill (itemJoined f x (frameAccepted f x s))).inq.cls f.cls).items =
        (s.inq.cls f.cls).items ++ [firstItem f x] ∧
      (watchIn s.inq.fill (itemJoined f x (frameAccepted f x s))).inSeq.getD f.cls 0 = (f.seq + 1) % 2 ^ 32 := by
  obtain ⟨hclasses, hinSeq⟩ := watchIn_keeps s.inq.fill (itemJoined f x (frameAccepted f x s))
  have hinq : (frameAccepted f x s).inq = s.inq := (congrArg State.inq (frameAccepted_frame f x s) :)
  constructor
  · rw [Peal.cls, hclasses, ← Peal.cls, itemJoined]
    simp only [Peal.cls_setCls, hinq]
  · rw [hinSeq]
    exact (congrArg (Table.getD · f.cls 0) (frameAccepted_inSeq f x s)).trans (Table.getD_put_self ..)

/-- Settles O22: a frame in sequence by `acceptSeq_next`, its place in the queue by `itemJoined_stands`, and an acknowledgement by
`ack_covers`: the queue's own notice may reach class 6 alone. -/
theorem framesOfSessionsComplete : Obligations.FramesOfSessionsComplete := by
  refine ⟨?_, ?_, fun s f hup hbasic => exec_discard hup hbasic⟩
  · intro s f x hup hbasic htype hhs hgcm href hlen hfirst hx hphase hseq _ hspace hcredit hparts
    have hexec := exec_cmdFrame_first hup href hlen hfirst hparts
      (acceptSeq_next hbasic htype hhs hgcm hx hphase hseq hspace hcredit)
    have hkept := frameAccepted_frame f x s
    have hhost := hostOnly_watchIn s.inq.fill (itemJoined f x (frameAccepted f x s))
    obtain ⟨hitems, hnext⟩ := itemJoined_stands s f x
    exact ⟨_, firstItem f x, hexec, hitems, rfl, rfl, rfl, rfl, hnext,
      (congrArg State.cores hhost :).trans (congrArg State.cores hkept :),
      (congrArg State.mem hhost :).trans (congrArg State.mem hkept :),
      (congrArg State.slots hhost :).trans (congrArg State.slots hkept :)⟩
  · intro s f x hup hbasic hhs hgcm hx hphase
    refine ⟨fun htype hseq _ hspace hcredit => ?_, fun r htype hseq _ hspace hcredit hreads hsess href hasked hword hmore => ?_,
      fun next htype hcontrol hnext hsent => ?_⟩
    · refine ⟨closeSession f.session (frameAccepted f x s), ?_, closeSession_gone ..⟩
      rw [exec_closeFrame, execCloseFrame, if_neg (by simp [hup]),
        acceptSeq_next hbasic htype hhs hgcm hx hphase hseq hspace hcredit]
      rfl
    · refine ⟨_, exec_wdataFrame_more hup (acceptSeq_next hbasic htype hhs hgcm hx hphase hseq hspace hcredit) hreads
        ⟨hsess, href⟩ hasked hword hmore, rfl, ?_⟩
      exact (congrArg (Table.getD · f.cls 0) (frameAccepted_inSeq f x s)).trans (Table.getD_put_self ..)
    · obtain ⟨⟨y, hy, hlast⟩, hitems, hclasses⟩ := ack_covers f x next (s := s)
      exact ⟨_, y, exec_ackFrame_control hup hbasic htype hhs hgcm hx hphase hcontrol hnext hsent, hy, hlast, hitems, hclasses⟩

end Sys2Proof.Machine
end

section
/-! The host port's timers and its sending side (15 R437 to R439, R441, R445, R449, R452, R453; log entry 46). -/

namespace Sys2Proof.Machine

open Sys2Proof.Safety

section

variable {s : State}

/-! ## Sending (R439, R441, R445, R449) -/

/-- The state after an owed acknowledgement has left under the controlling session's keys (R439). -/
def ackLeft (p : Nat × Session) (s : State) : State :=
  sendPlain 8 ((List.range 8).flatMap fun c => leBytes 4 (s.inSeq.getD c 0))
    { s with ackOwed := 0, ackDup := false, sessions := s.sessions.put p.1 { p.2 with ctrOut := p.2.ctrOut + 1 } }

theorem exec_ackSendTimer_owed {p : Nat × Session} (hup : ethUp s = true) (hcontrol : controlSession s = some p)
    (howed : 0 < s.ackOwed ∨ s.ackDup = true) : exec .ackSendTimer s = .next (ackLeft p s) := by
  have hdue : (s.ackOwed != 0 || s.ackDup) = true := by
    rcases howed with h | h
    · simp [Nat.pos_iff_ne_zero.mp h]
    · simp [h]
  rw [exec_ackSendTimer, execAckSendTimer, hup, hdue, sendAck, hcontrol]
  rfl

theorem exec_retransmitTimeout_due {cls t : Nat} {i : PealItem} (hcls : cls < 8) (hread : 0 < (s.outq.cls cls).read)
    (hi : (s.outq.cls cls).items[0]? = some i) (hdue : i.since + retxNs s ≤ max s.ptp.now t) :
    exec (.retransmitTimeout cls t) s = .next { s with
      ptp := { s.ptp with now := max s.ptp.now t },
      outq := s.outq.setCls cls { s.outq.cls cls with read := (s.outq.cls cls).mark },
      ethRewinds := min 0xFFFF (s.ethRewinds + 1) } := by
  have hretx : retxDue (atTime t s) cls = true := by
    have hold : i.since + retxNs (atTime t s) ≤ (atTime t s).ptp.now := hdue
    have hitem : ((atTime t s).outq.cls cls).items[0]? = some i := hi
    have hsent : ((atTime t s).outq.cls cls).read ≠ 0 := Nat.pos_iff_ne_zero.mp hread
    simp only [retxDue, hitem, decide_eq_true hold, bne_iff_ne.mpr hsent, Bool.true_and]
  rw [exec_retransmitTimeout, execRetransmitTimeout, if_neg (Nat.not_le.mpr hcls)]
  simp only [hretx, Bool.not_true, Bool.false_eq_true, if_false]
  rfl

theorem exec_outboundFrameSend_reply {r : Nat × List Byte} {l : List (Nat × List Byte)} (hup : ethUp s = true)
    (hreplies : s.replies = r :: l) : exec .outboundFrameSend s = .next { s with replies := l } := by
  rw [exec_outboundFrameSend, execOutboundFrameSend, if_neg (by simp [hup]), hreplies]

theorem exec_outboundFrameSend_stalls (hup : ethUp s = true) (hreplies : s.replies = []) (hnone : s.outq.highest = none) :
    exec .outboundFrameSend s = .next { s with outq := { s.outq with stalled := true } } := by
  rw [exec_outboundFrameSend, execOutboundFrameSend, if_neg (by simp [hup]), hreplies, hnone]

theorem exec_outboundFrameSend_item {c : Nat} (hup : ethUp s = true) (hreplies : s.replies = [])
    (hsome : s.outq.highest = some c) :
    exec .outboundFrameSend s = .next { s with
      outq := { s.outq.setCls c ((s.outq.cls c).sendNext s.ptp.now) with stalled := false } } := by
  rw [exec_outboundFrameSend, execOutboundFrameSend, if_neg (by simp [hup]), hreplies, hsome]

/-! ## A notice packet that closes (R453) -/

/-- A session's packet of notices that is open and whose first record is 10 µs old. -/
def noticeDue (sess : Nat) (s : State) (i : PealItem) : Bool :=
  i.opened && i.ftype == 5 && i.sess == sess && decide (i.since + 10000 ≤ s.ptp.now)

/-- The class's last packet closes where it is due. -/
def noticeClosed (sess : Nat) (s : State) (c : Nat) : State := match (s.outq.cls c).items.getLast? with
  | some i => if noticeDue sess s i then closeOpen c s else s
  | none => s

theorem outKeeps_noticeClosed (sess : Nat) (s : State) (c : Nat) : OutKeeps s (noticeClosed sess s c) := by
  unfold noticeClosed
  split
  · split
    · exact outKeeps_closeOpen ..
    · exact .refl s
  · exact .refl s

theorem oneClass_noticeClosed (sess : Nat) (s : State) (c : Nat) : OneClass c s (noticeClosed sess s c) := by
  unfold noticeClosed
  split
  · split
    · exact oneClass_closeOpen ..
    · exact .refl s
  · exact .refl s

/-- A class that has been closed ends with a closed packet. -/
theorem closeOpen_last {c : Nat} {i : PealItem} (h : ((closeOpen c s).outq.cls c).items.getLast? = some i) :
    i.opened = false := by
  cases hlast : (s.outq.cls c).items.getLast? with
  | none =>
    have hsame : closeOpen c s = s := by simp only [closeOpen, hlast]
    rw [hsame, hlast] at h
    cases h
  | some j =>
    by_cases hopen : j.opened = true
    · have hclosed : closeOpen c s = { (closeItem c j s).2 with
          outq := (closeItem c j s).2.outq.setCls c { s.outq.cls c with
            items := (s.outq.cls c).items.dropLast ++ [(closeItem c j s).1] } } := by
        simp only [closeOpen, hlast, hopen, if_true]
      rw [hclosed] at h
      simp only [Peal.cls_setCls, List.getLast?_concat, Option.some.injEq] at h
      rw [← h]
      rfl
    · have hsame : closeOpen c s = s := by simp only [closeOpen, hlast, hopen, if_false, Bool.false_eq_true]
      rw [hsame, hlast] at h
      obtain rfl := Option.some.inj h
      exact Bool.not_eq_true _ ▸ hopen

/-- No packet that is due stays open in its class. -/
theorem noticeClosed_last {sess c : Nat} {i : PealItem}
    (h : ((noticeClosed sess s c).outq.cls c).items.getLast? = some i) (htype : i.ftype = 5) (hsess : i.sess = sess)
    (hdue : i.since + 10000 ≤ s.ptp.now) : i.opened = false := by
  unfold noticeClosed at h
  split at h
  · next j hj =>
    split at h
    · exact closeOpen_last h
    · next hnot =>
      obtain rfl := Option.some.inj (hj.symm.trans h)
      simpa [noticeDue, htype, hsess, hdue] using hnot
  · next hnone =>
    rw [hnone] at h
    cases h

/-- The state after a session's notice packets of classes 6 and 7 have closed where they are due. -/
def noticesClosed (sess t : Nat) (s : State) : State := noticeClosed sess (noticeClosed sess (atTime t s) 6) 7

theorem exec_noticePacketClose_at {sess : Nat} (hsess : sess < 4096) (t : Nat) :
    exec (.noticePacketClose sess t) s = .next (noticesClosed sess t s) := by
  rw [exec_noticePacketClose, execNoticePacketClose, if_neg (Nat.not_le.mpr hsess)]
  rfl

theorem noticesClosed_now (sess t : Nat) (s : State) :
    (noticesClosed sess t s).ptp = (atTime t s).ptp ∧ (noticeClosed sess (atTime t s) 6).ptp = (atTime t s).ptp :=
  have hsix := (outKeeps_noticeClosed sess (atTime t s) 6).ptp
  ⟨(outKeeps_noticeClosed sess _ 7).ptp.trans hsix, hsix⟩

theorem noticesClosed_last {sess t c : Nat} {i : PealItem} (hc : c = 6 ∨ c = 7)
    (h : ((noticesClosed sess t s).outq.cls c).items.getLast? = some i) (htype : i.ftype = 5) (hsess : i.sess = sess)
    (hdue : i.since + 10000 ≤ (noticesClosed sess t s).ptp.now) : i.opened = false := by
  obtain ⟨hnow, hsix⟩ := noticesClosed_now sess t s
  rw [hnow] at hdue
  rcases hc with rfl | rfl
  · rw [noticesClosed, (oneClass_noticeClosed sess _ 7).others 6 (by decide)] at h
    exact noticeClosed_last h htype hsess hdue
  · exact noticeClosed_last h htype hsess (by rw [hsix]; exact hdue)

/-! ## Idle sessions, kept records, parked classes and window reads (R437, R438, R452) -/

theorem exec_sessionIdleTimeout_idle {sess t : Nat} {x : Session} (hsess : sess < 4096) (hx : s.sessions.get sess = some x)
    (hidle : x.last + idleNs s ≤ max s.ptp.now t) :
    exec (.sessionIdleTimeout sess t) s = .next (closeSession sess (atTime t s)) := by
  have hget : (atTime t s).sessions.get sess = some x := hx
  have hold : x.last + idleNs (atTime t s) ≤ (atTime t s).ptp.now := hidle
  rw [exec_sessionIdleTimeout, execSessionIdleTimeout, if_neg (Nat.not_le.mpr hsess), hget]
  simp only [if_pos hold]

theorem exec_lingerExpiry_expired {ix t : Nat} {l : Linger} (hl : s.linger[ix]? = some l)
    (hexpired : l.expires ≤ max s.ptp.now t) :
    exec (.lingerExpiry ix t) s = .next { atTime t s with
      linger := s.linger.eraseIdx ix,
      lingerDropped := s.lingerDropped + (if l.told = [] then l.recs.length else 0) } := by
  have hget : (atTime t s).linger[ix]? = some l := hl
  have hold : ¬(atTime t s).ptp.now < l.expires := Nat.not_lt.mpr hexpired
  rw [exec_lingerExpiry, execLingerExpiry, hget]
  simp only [if_neg hold, List.isEmpty_iff]
  rfl

/-- An input that waits for its bar in a class. -/
def waitsIn (s : State) (cls : Nat) : Bool := s.slots.any fun p => match p.2.job with
  | some j => j.inputs.any fun i => match i.w with
    | some w => w.cls == cls
    | none => false
  | none => false

theorem waitsIn_none {cls : Nat}
    (h : ∀ p ∈ s.slots, ∀ j, p.2.job = some j → ∀ i ∈ j.inputs, ∀ w, i.w = some w → w.cls ≠ cls) : waitsIn s cls = false := by
  refine List.any_eq_false.mpr fun p hp => ?_
  split
  · next j hj =>
    rw [List.any_eq_true]
    rintro ⟨i, hi, hw⟩
    split at hw
    · next w hw' => exact h p hp j hj i hi w hw' (beq_iff_eq.mp hw)
    · exact Bool.false_ne_true hw
  · exact Bool.false_ne_true

theorem exec_parkedItemResume_free {cls : Nat} (hcls : cls < 8) (hfree : waitsIn s cls = false) :
    exec (.parkedItemResume cls) s =
      .next { s with inq := s.inq.setCls cls { s.inq.cls cls with parked := false } } := by
  rw [exec_parkedItemResume, execParkedItemResume, if_neg (Nat.not_le.mpr hcls)]
  exact (if_neg (by rw [Bool.not_eq_true]; exact hfree))

theorem exec_windowTimeout_late {sess ref t : Nat} {x : WinRead} {w : Wait}
    (hx : s.winReads.find? (fun x => x.sess == sess && x.ref == ref) = some x) (hleft : 0 < x.left)
    (hw : s.accepted.find? (fun a => a.sess == sess && a.ref == ref) = some w)
    (hlate : x.since + windowNs s ≤ max s.ptp.now t) :
    exec (.windowTimeout sess ref t) s = .next (complete w cHostTimeout noDetail [] (undoRead x.cmd { atTime t s with
      winReads := s.winReads.filter fun y => !(y.sess == sess && y.ref == ref) })) := by
  have hfind : (atTime t s).winReads.find? (fun x => x.sess == sess && x.ref == ref) = some x := hx
  have hwait : (atTime t s).accepted.find? (fun a => a.sess == sess && a.ref == ref) = some w := hw
  have hover : (decide (x.left = 0) || decide ((atTime t s).ptp.now < x.since + windowNs (atTime t s))) = false := by
    have hold : ¬(atTime t s).ptp.now < x.since + windowNs (atTime t s) := Nat.not_lt.mpr hlate
    rw [decide_eq_false hold, decide_eq_false (Nat.pos_iff_ne_zero.mp hleft)]
    rfl
  rw [exec_windowTimeout, execWindowTimeout]
  simp only [hfind, hwait, hover]
  rfl

end

/-! ## The obligation -/

/-- Settles O23: a packet of notices that is due closes by `noticesClosed_last`, and records that had been told to a principal do not
count as dropped (log entry 46). -/
theorem hostPortTimersComplete : Obligations.HostPortTimersComplete := by
  refine fun s => ⟨fun p hup hcontrol howed => ⟨_, exec_ackSendTimer_owed hup hcontrol howed, rfl, rfl, rfl⟩,
    fun cls t i hcls hread hi hdue => exec_retransmitTimeout_due hcls hread hi hdue, exec_outboundFrameSend_stalls,
    fun c hup hreplies hsome => ⟨_, exec_outboundFrameSend_item hup hreplies hsome, ?_, ?_, rfl, rfl⟩,
    fun r l hup hreplies => exec_outboundFrameSend_reply hup hreplies,
    fun sess now hsess => ⟨_, exec_noticePacketClose_at hsess now, ?_,
      fun c hc i hi htype hmine hdue => noticesClosed_last hc hi htype hmine hdue⟩,
    fun sess now x hsess hx hidle => ⟨_, exec_sessionIdleTimeout_idle hsess hx hidle, closeSession_gone ..⟩,
    fun ix now l hl hexpired => ⟨_, exec_lingerExpiry_expired hl hexpired, rfl, rfl, rfl⟩,
    fun cls hcls hfree => exec_parkedItemResume_free hcls (waitsIn_none hfree),
    fun sess ref now x w hx hleft hw hlate => exec_windowTimeout_late hx hleft hw hlate⟩
  · exact congrArg PealClass.read (Peal.cls_setCls ..)
  · exact congrArg PealClass.items (Peal.cls_setCls ..)
  · exact congrArg Ptp.now (noticesClosed_now sess now s).1

end Sys2Proof.Machine
end

section
/-! The Grerdo ports (14 R399 to R411, R420; log entry 43): training, ports that fall, rewinds, frames and control frames. -/

namespace Sys2Proof.Machine

open Sys2Proof.Safety

section

variable {s : State} {port : Nat}

/-- What a record that floods the ports leaves of one: all but the records that it owes (R420). -/
theorem getPort_floodRec (r : PortRec) (s : State) (p : Nat) :
    ∃ l, getPort (floodRec r s) p = { getPort s p with ctlOwed := l } := by
  let flood (p : Port) : Port := if p.isUp then { p with ctlOwed := p.ctlOwed ++ [r] } else p
  have hports : (floodRec r s).ports = s.ports.map fun p => (p.1, flood p.2) := by
    refine List.map_congr_left fun p _ => ?_
    change (if p.2.isUp then _ else p) = (p.1, if p.2.isUp then _ else p.2)
    split <;> rfl
  have hget : getPort (floodRec r s) p = ((s.ports.get p).map flood).getD {} := by
    rw [getPort, Table.getD, hports, Table.get_map_values]
  have hold : getPort s p = (s.ports.get p).getD {} := rfl
  rw [hget, hold]
  cases s.ports.get p with
  | none => exact ⟨_, rfl⟩
  | some q =>
    by_cases hup : q.isUp = true
    · exact ⟨q.ctlOwed ++ [r], if_pos hup⟩
    · exact ⟨q.ctlOwed, if_neg hup⟩

theorem getPort_hostOnly {s t : State} (h : HostOnly s t) (p : Nat) : getPort t p = getPort s p := by
  rw [getPort, getPort, show t.ports = s.ports from (congrArg State.ports h :)]

/-! ## Training (R399, R401) -/

theorem exec_glPortTraining_ends {lanes dev peer : Nat} (hport : port < 18) (hused : (topoOf s port).unused = false)
    (hpart : (getPort s port).unused = false) (hdown : (getPort s port).state < 2) (hclock : s.dev.refGl = true)
    (hstopped : s.dev.stopped = false) (hstarting : s.dev.starting = false)
    (hhand : (getHand s (port / 9)).mode = .running) :
    exec (.glPortTraining port lanes dev peer) s = .next (trainPort port lanes dev peer s) := by
  have hfree : ((topoOf s port).unused || (getPort s port).unused || decide (2 ≤ (getPort s port).state) || !s.dev.refGl ||
      s.dev.stopped || s.dev.starting || (getHand s (port / 9)).mode != .running) = false := by
    rw [hused, hpart, decide_eq_false (Nat.not_le.mpr hdown), hclock, hstopped, hstarting, hhand]
    rfl
  rw [exec_glPortTraining, execGlPortTraining, if_neg (Nat.not_le.mpr hport)]
  exact if_neg (by rw [hfree]; exact Bool.false_ne_true)

/-- Without lanes that train together the port stays down (R399). -/
theorem trainPort_fails {lanes dev peer : Nat} (h : trainedState lanes = 0) :
    trainPort port lanes dev peer s = modPort port (fun p => { p with state := 0, lanes := lanes % 16 }) s := by
  rw [trainPort, if_pos h]

/-- A peer that is not the topology's is reported, and the port stays down (R401). -/
theorem trainPort_mismatch {lanes dev peer : Nat} (h : trainedState lanes ≠ 0)
    (hpeer : dev ≠ (topoOf s port).peerDev ∨ peer ≠ (topoOf s port).peerPort) :
    trainPort port lanes dev peer s = notice 0x20 3 port 0 (leBytes 2 port ++ leBytes 2 dev ++ leBytes 2 peer)
      (modPort port (fun p => { p with state := 0, lanes := lanes % 16, peerDev := dev, peerPort := peer }) s) := by
  have hother : (dev != (topoOf s port).peerDev || peer != (topoOf s port).peerPort) = true := by
    rcases hpeer with h | h <;> simp [h]
  rw [trainPort, if_neg h]
  exact if_pos hother

theorem trainPort_up {lanes dev peer : Nat} (h : trainedState lanes ≠ 0) (hdev : dev = (topoOf s port).peerDev)
    (hpeer : peer = (topoOf s port).peerPort) : trainPort port lanes dev peer s = portUp port lanes dev peer s := by
  rw [trainPort, if_neg h, hdev, hpeer]
  exact if_neg (by simp)

/-- A port comes up with fresh credits, empty classes and its generation one higher (R410, R411, R420). -/
theorem getPort_portUp (lanes dev peer : Nat) : ∃ l, getPort (portUp port lanes dev peer s) port =
    { getPort s port with
      state := trainedState lanes, lanes, peerDev := dev, peerPort := peer, classes := [], rxSeq := [],
      dataCredits := 3072, collCredits := 1024, rxData := 0, rxColl := 0, gen := ((getPort s port).gen + 1) % 65536,
      ctlOwed := l } := by
  unfold portUp
  simp only
  obtain ⟨l, hl⟩ := getPort_floodRec ⟨s.setup.deviceId, port, true, _⟩ (modPort port (fun p => { p with
    state := trainedState lanes, lanes, peerDev := dev, peerPort := peer, classes := [], rxSeq := [],
    dataCredits := 3072, collCredits := 1024, rxData := 0, rxColl := 0, gen := (p.gen + 1) % 65536, ctlOwed := [] }) s) port
  exact ⟨l, hl.trans (by rw [getPort_modPort])⟩

/-! ## A port that falls (R410, R420) -/

/-- The state with a port down, its record and its notice out, before its frames move. -/
def portFallen (port : Nat) (s : State) : State :=
  let fell := modPort port (fun p => { p with
    state := 0, lanes := 0, downs := satAt 0xFF (p.downs + 1), gen := (p.gen + 1) % 65536, classes := [], rxSeq := [],
    dataCredits := 0, collCredits := 0, rxData := 0, rxColl := 0, ctlOwed := [] }) s
  let told := notice 0x21 3 port 0 (leBytes 2 port) fell
  floodRec ⟨told.setup.deviceId, port, false, (getPort told port).gen⟩ told

theorem getPort_portFallen : ∃ l, getPort (portFallen port s) port = { getPort s port with
    state := 0, lanes := 0, downs := satAt 0xFF ((getPort s port).downs + 1), gen := ((getPort s port).gen + 1) % 65536,
    classes := [], rxSeq := [], dataCredits := 0, collCredits := 0, rxData := 0, rxColl := 0, ctlOwed := l } := by
  unfold portFallen
  simp only
  obtain ⟨l, hl⟩ := getPort_floodRec ⟨_, port, false, _⟩ (notice 0x21 3 port 0 (leBytes 2 port) (modPort port (fun p => { p with
    state := 0, lanes := 0, downs := satAt 0xFF (p.downs + 1), gen := (p.gen + 1) % 65536, classes := [], rxSeq := [],
    dataCredits := 0, collCredits := 0, rxData := 0, rxColl := 0, ctlOwed := [] }) s)) port
  exact ⟨l, hl.trans (by rw [getPort_hostOnly (hostOnly_notice ..), getPort_modPort])⟩

theorem exec_glPortDown_up (hport : port < 18) (hup : (getPort s port).isUp = true) :
    exec (.glPortDown port) s = .next (checkLost (getPort s port).peerDev (moveFrames
      ([0, 1, 2, 3, 4, 5, 6].flatMap fun c => ((getPort s port).classes.getD c {}).frames) (portFallen port s))) := by
  rw [exec_glPortDown, execGlPortDown, if_neg (Nat.not_le.mpr hport), if_pos hup]
  rfl

/-! ## A class that rewinds (R410, R411; log entry 43) -/

/-- The state after a class has gone back to its oldest frame with the credits that it had used. -/
def rewound (port cls : Nat) (s : State) : State :=
  let k := (getPort s port).classes.getD cls {}
  let units := sumNat ((k.frames.take k.read).map frameUnits)
  modPort port (fun p => { p with
    rewinds := satAt 0xFFFF (p.rewinds + 1),
    dataCredits := if cls = 6 then p.dataCredits else p.dataCredits + units,
    collCredits := if cls = 6 then p.collCredits + units else p.collCredits,
    classes := p.classes.put cls { k with read := 0, tries := k.tries + 1 } }) s

theorem exec_glClassRewind_due {cls : Nat} (hport : port < 18) (hcls : cls < 7) (hup : (getPort s port).isUp = true)
    (hread : 0 < ((getPort s port).classes.getD cls {}).read) :
    exec (.glClassRewind port cls) s = .next (if 4 ≤ ((getPort s port).classes.getD cls {}).tries + 1
      then portDown port (rewound port cls s)
      else modPort port (fun p => portPump s.ptp.now (p.load + 1) p) (rewound port cls s)) := by
  have hok : (decide (18 ≤ port) || decide (7 ≤ cls)) = false := by
    rw [decide_eq_false (Nat.not_le.mpr hport), decide_eq_false (Nat.not_le.mpr hcls)]
    rfl
  have hdue : (!(getPort s port).isUp || decide (((getPort s port).classes.getD cls {}).read = 0)) = false := by
    rw [hup, decide_eq_false (Nat.pos_iff_ne_zero.mp hread)]
    rfl
  rw [exec_glClassRewind, execGlClassRewind, hok]
  simp only [hdue, Bool.false_eq_true, if_false]
  split <;> rfl

/-- What a rewind gives its port back. -/
theorem rewound_port (port cls : Nat) (s : State) : let k := (getPort s port).classes.getD cls {}
    (getPort (rewound port cls s) port).rewinds = satAt 0xFFFF ((getPort s port).rewinds + 1) ∧
      (getPort (rewound port cls s) port).classes.get cls = some { k with read := 0, tries := k.tries + 1 } ∧
      (getPort (rewound port cls s) port).dataCredits + (getPort (rewound port cls s) port).collCredits =
        (getPort s port).dataCredits + (getPort s port).collCredits + sumNat ((k.frames.take k.read).map frameUnits) := by
  intro k
  have hget : getPort (rewound port cls s) port = { getPort s port with
      rewinds := satAt 0xFFFF ((getPort s port).rewinds + 1),
      dataCredits := if cls = 6 then (getPort s port).dataCredits
        else (getPort s port).dataCredits + sumNat ((k.frames.take k.read).map frameUnits),
      collCredits := if cls = 6 then (getPort s port).collCredits + sumNat ((k.frames.take k.read).map frameUnits)
        else (getPort s port).collCredits,
      classes := (getPort s port).classes.put cls { k with read := 0, tries := k.tries + 1 } } := getPort_modPort ..
  rw [hget]
  refine ⟨rfl, Table.get_put_self .., ?_⟩
  by_cases hsix : cls = 6
  · simp only [hsix, if_true]
    omega
  · simp only [hsix, if_false]
    omega

/-! ## Frames (R400, R404, R405, R409) -/

/-- The state with a frame's errors counted at its port (R400). -/
def errorsCounted (port : Nat) (f : GlFrame) (s : State) : State :=
  modPort port (fun p => { p with uncorr := satAt 0x3FFF (p.uncorr + f.uncorr) })
    (modPort port (fun p => { p with corrected := p.corrected + 0 }) s)

/-- The state with a frame in sequence seen (R404). -/
def frameSeen (port : Nat) (f : GlFrame) (s : State) : State :=
  modPort port (fun p => { p with rxSeq := p.rxSeq.put f.cls ((f.lseq + 1) % 2 ^ 24) }) (errorsCounted port f s)

theorem errorsCounted_port (port : Nat) (f : GlFrame) (s : State) : getPort (errorsCounted port f s) port =
    { getPort s port with uncorr := satAt 0x3FFF ((getPort s port).uncorr + f.uncorr) } := by
  rw [errorsCounted, getPort_modPort, getPort_modPort]
  rfl

variable {f : GlFrame}

/-- A frame with an error or out of its hop sequence is discarded (R400, R404). -/
theorem exec_glFrameReceive_discards (hport : port < 18) (hup : (getPort s port).isUp = true) (hcorr : f.corrected = 0)
    (hbad : f.crcOk = false ∨ f.uncorr ≠ 0 ∨ f.lseq ≠ (getPort s port).rxSeq.getD f.cls 0) :
    exec (.glFrameReceive port f) s = .next (errorsCounted port f s) := by
  rw [exec_glFrameReceive, execGlFrameReceive, if_neg (Nat.not_le.mpr hport)]
  simp only [hup, Bool.not_true, Bool.false_eq_true, if_false, hcorr]
  by_cases herr : (!f.crcOk || f.uncorr != 0) = true
  · exact if_pos herr
  · rw [if_neg herr]
    refine if_pos ?_
    rcases hbad with h | h | h
    · simp [h] at herr
    · simp [h] at herr
    · simp [h]

theorem GlFrame.as_received {f : GlFrame} (hcorr : f.corrected = 0) (hsent : f.sent = 0) (hopened : f.opened = false) :
    { f with corrected := 0, sent := 0, opened := false } = f := by
  cases f
  simp_all

/-- A whole frame in sequence goes on, or is taken where it is for this device (R405, R409). -/
theorem exec_glFrameReceive_sequence (hport : port < 18) (hup : (getPort s port).isUp = true) (hsent : f.sent = 0)
    (hopened : f.opened = false) (hcorr : f.corrected = 0) (hcls : f.cls ≤ 6) (hcrc : f.crcOk = true) (hunc : f.uncorr = 0)
    (hseq : f.lseq = (getPort s port).rxSeq.getD f.cls 0) :
    exec (.glFrameReceive port f) s = .next (if f.dstDev = s.setup.deviceId then frameHere port f (frameSeen port f s)
      else returnUnits (f.cls == 6) [(port, frameUnits f)] (linkEnqueue f (frameSeen port f s))) := by
  have hwhole : (!f.crcOk || f.uncorr != 0) = false := by rw [hcrc, hunc]; rfl
  have hin : (decide (6 < f.cls) || f.lseq != (getPort s port).rxSeq.getD f.cls 0) = false := by
    rw [decide_eq_false (Nat.not_lt.mpr hcls), ← hseq]
    simp
  have hsame := GlFrame.as_received hcorr hsent hopened
  rw [exec_glFrameReceive, execGlFrameReceive, if_neg (Nat.not_le.mpr hport)]
  simp only [hup, Bool.not_true, Bool.false_eq_true, if_false, hwhole, hin]
  rw [hsame]
  by_cases hdev : f.dstDev = s.setup.deviceId
  · rw [if_pos hdev]
    refine (if_pos hdev).trans ?_
    rw [hcorr]
    rfl
  · rw [if_neg hdev]
    refine (if_neg hdev).trans ?_
    rw [hcorr]
    rfl

theorem frameSeen_slots (port : Nat) (f : GlFrame) (s : State) :
    slotOfJob (frameSeen port f s) f.job = slotOfJob s f.job ∧ ∀ slot, getJob (frameSeen port f s) slot = getJob s slot :=
  ⟨rfl, fun _ => rfl⟩

/-- A frame for a job that no slot holds is counted, and its credits go back (R409). -/
theorem frameHere_noJob (h : slotOfJob s f.job = none) : frameHere port f s =
    returnFrames [(port, f)] (modPort port (fun p => { p with discards := p.discards + 1 }) s) := by
  simp only [frameHere, h]

/-- A whole data or chain frame of a job of this device is delivered (R409). -/
theorem frameHere_job {slot : Nat} {j : Job} (h : slotOfJob s f.job = some slot) (hj : getJob s slot = some j)
    (hresv : f.resvOk = true) (hlen : f.payload.length ≤ 4096) (htype : f.ftype = 0 ∨ f.ftype = 2) :
    frameHere port f s = deliverFrame slot port f s := by
  have hok : (!f.resvOk || decide (2 < f.ftype) || decide (4096 < f.payload.length)) = false := by
    rw [hresv, decide_eq_false (Nat.not_lt.mpr hlen)]
    rcases htype with h | h <;> simp [h]
  have hdata : (f.ftype != 1) = true := by rcases htype with h | h <;> simp [h]
  simp only [frameHere, h, hj, hok, hdata, Bool.false_eq_true, if_false, if_true]

/-! ## Control frames (R400, R408, R410, R411) -/

variable {ctl : GlCtl}

/-- The state with a control frame's errors counted. -/
def ctlCounted (port : Nat) (f : GlCtl) (s : State) : State := modPort port (fun p => { p with
  corrected := p.corrected + f.corrected, uncorr := satAt 0x3FFF (p.uncorr + f.uncorr) }) s

theorem exec_glControlFrame_discards (hport : port < 18) (hup : (getPort s port).isUp = true)
    (hbad : ctl.crcOk = false ∨ ctl.uncorr ≠ 0) : exec (.glControlFrame port ctl) s = .next (ctlCounted port ctl s) := by
  rw [exec_glControlFrame, execGlControlFrame, if_neg (Nat.not_le.mpr hport), if_neg (by simp [hup])]
  refine if_pos ?_
  rcases hbad with h | h <;> simp [h]

/-- A step that leaves the state at every index of a list leaves it. -/
theorem foldl_same {α β : Type} {f : α → β → α} {l : List β} {a : α} (h : ∀ b ∈ l, f a b = a) : l.foldl f a = a := by
  induction l with
  | nil => rfl
  | cons b l ih =>
    rw [List.foldl_cons, h b List.mem_cons_self]
    exact ih fun c hc => h c (List.mem_cons_of_mem _ hc)

/-- A whole control frame without acknowledgements or records brings its credits (R408, R411). -/
theorem exec_glControlFrame_credits (hport : port < 18) (hup : (getPort s port).isUp = true) (hcrc : ctl.crcOk = true)
    (hunc : ctl.uncorr = 0) (hrecs : ctl.recs = []) (hacks : ∀ c, c < 7 → ctl.acks.getD c none = none) :
    exec (.glControlFrame port ctl) s = .next (modPort port (fun p =>
      let p := { p with dataCredits := satAt 3072 (p.dataCredits + ctl.dataCredits),
                        collCredits := satAt 1024 (p.collCredits + ctl.collCredits) }
      portPump s.ptp.now (p.load + 1) p) (ctlCounted port ctl s)) := by
  have hwhole : (!ctl.crcOk || ctl.uncorr != 0) = false := by rw [hcrc, hunc]; rfl
  have hquiet : (List.range 7).foldl (fun s c => match ctl.acks.getD c none with
      | some l => ackClass port c l s
      | none => s) (ctlCounted port ctl s) = ctlCounted port ctl s :=
    foldl_same fun c hc => by simp only [hacks c (List.mem_range.mp hc)]
  rw [exec_glControlFrame, execGlControlFrame, if_neg (Nat.not_le.mpr hport), if_neg (by simp [hup]), hrecs]
  simp only [hwhole, Bool.false_eq_true, if_false, List.take_nil, List.foldl_nil]
  exact (congrArg (fun y : State => Host.Outcome.next (φ := Fault) (ρ := Refusal) (modPort port (fun p =>
    let p := { p with dataCredits := satAt 3072 (p.dataCredits + ctl.dataCredits),
                      collCredits := satAt 1024 (p.collCredits + ctl.collCredits) }
    portPump y.ptp.now (p.load + 1) p) y)) hquiet :)

theorem exec_glControlSendTimer_up (hport : port < 18) (hup : (getPort s port).isUp = true) :
    exec (.glControlSendTimer port) s = .next (modPort port (fun p => { p with
      rxData := 0, rxColl := 0, ctlOwed := p.ctlOwed.drop 2, ctlSent := p.ctlSent + 1 }) s) := by
  rw [exec_glControlSendTimer, execGlControlSendTimer, if_neg (Nat.not_le.mpr hport), if_neg (by simp [hup])]

/-! ## Acknowledgements (R410) -/

theorem hostOnly_sampleTrips (port : Nat) (l : List GlFrame) (s : State) : HostOnly s (sampleTrips port l s) :=
  HostOnly.foldl _ (fun _ _ => hostOnly_monSample ..) l s

/-- The frames that an acknowledged `LSEQ` covers, counted modulo 2^24. -/
theorem acked_count {lseq n : Nat} (hpos : 0 < n) (hn : n < 2 ^ 24) (hlseq : lseq < 2 ^ 24) :
    ((lseq + n - 1) % 2 ^ 24 + 2 ^ 24 + 1 - lseq) % 2 ^ 24 = n := by
  omega

/-- An acknowledgement that covers some sent frames releases them (R410). -/
theorem ackClass_covers {c l n : Nat}
    (hcount : (l + 2 ^ 24 + 1 - ((getPort s port).classes.getD c {}).lseq) % 2 ^ 24 = n) (hpos : 0 < n)
    (hsent : n ≤ ((getPort s port).classes.getD c {}).sent) :
    let k := (getPort s port).classes.getD c {}
    ackClass port c l s = modPort port (fun p => { p with classes := p.classes.put c { k with
      frames := k.frames.drop n, read := k.read - n, sent := k.sent - n, lseq := (k.lseq + n) % 2 ^ 24, tries := 0 } })
      (sampleTrips port (k.frames.take n) s) := by
  have hsome : (decide (n = 0) || decide (((getPort s port).classes.getD c {}).sent < n)) = false := by
    rw [decide_eq_false (Nat.pos_iff_ne_zero.mp hpos), decide_eq_false (Nat.not_lt.mpr hsent)]
    rfl
  unfold ackClass
  simp only [hcount]
  exact if_neg (by rw [hsome]; exact Bool.false_ne_true)

/-- The classes of a port after an acknowledgement of one. -/
theorem ackClass_classes {c n : Nat} (hpos : 0 < n) (hsent : n ≤ ((getPort s port).classes.getD c {}).sent)
    (hn : n < 2 ^ 24) (hlseq : ((getPort s port).classes.getD c {}).lseq < 2 ^ 24) :
    let k := (getPort s port).classes.getD c {}
    (getPort (ackClass port c ((k.lseq + n - 1) % 2 ^ 24) s) port).classes = (getPort s port).classes.put c { k with
      frames := k.frames.drop n, read := k.read - n, sent := k.sent - n, lseq := (k.lseq + n) % 2 ^ 24, tries := 0 } := by
  intro k
  rw [ackClass_covers (acked_count hpos hn hlseq) hpos hsent, getPort_modPort, getPort_hostOnly (hostOnly_sampleTrips ..)]

end

/-! ## The obligations -/

/-- Settles O44: training by `trainPort_fails`, `trainPort_mismatch` and `getPort_portUp`; a rewind gives the credits of the frames
that it will resend back (log entry 43). -/
theorem portsTrainFallAndRewind : Obligations.PortsTrainFallAndRewind := by
  refine fun s port hport => ⟨fun lanes dev peer hused hpart hdown hclock hstopped hstarting hhand => ?_, fun hup => ?_,
    fun cls hcls hup hread => ?_⟩
  · refine ⟨_, exec_glPortTraining_ends hport hused hpart hdown hclock hstopped hstarting hhand, fun hlanes => ?_,
      fun hlanes hpeer => ?_, fun hlanes hdev hpeer => ?_⟩
    · rw [trainPort_fails hlanes]
      exact ⟨getPort_modPort .., rfl⟩
    · exact ⟨_, trainPort_mismatch hlanes hpeer, getPort_modPort .., rfl⟩
    · rw [trainPort_up hlanes hdev hpeer]
      obtain ⟨l, hl⟩ := getPort_portUp lanes dev peer (s := s) (port := port)
      rw [hl]
      exact ⟨rfl, rfl, rfl, rfl, rfl, rfl⟩
  · obtain ⟨l, hl⟩ := getPort_portFallen (s := s) (port := port)
    refine ⟨_, exec_glPortDown_up hport hup, ?_⟩
    rw [hl]
    exact ⟨rfl, rfl, rfl, rfl, rfl⟩
  · obtain ⟨hcounted, hclass, hcredits⟩ := rewound_port port cls s
    have hexec := exec_glClassRewind_due hport hcls hup hread
    exact ⟨_, hcounted, rfl, hclass, hcredits, fun hfew => hexec.trans (by rw [if_neg (by omega)]),
      fun hmany => hexec.trans (by rw [if_pos (by omega)])⟩

/-- Settles O45: a frame by `exec_glFrameReceive_discards` and `exec_glFrameReceive_sequence` (one that is discarded for its `LSEQ`
returns no credits, log entry 43), an acknowledgement by `ackClass_classes`. -/
theorem portsKeepTheHopSequence : Obligations.PortsKeepTheHopSequence := by
  refine ⟨fun s port hport hup => ⟨fun f hsent hopened hcorr hcls => ⟨fun hbad => ?_, fun hcrc hunc hseq => ?_⟩,
    fun f hbad => ?_, fun f hcrc hunc hrecs hacks => exec_glControlFrame_credits hport hup hcrc hunc hrecs hacks,
    ⟨_, exec_glControlSendTimer_up hport hup, fun p hp => getPort_modPort_other _ _ _ _ hp, getPort_modPort .., rfl⟩⟩,
    fun s port c n hpos hsent hn hlseq => ?_⟩
  · exact ⟨_, exec_glFrameReceive_discards hport hup hcorr hbad, rfl, errorsCounted_port ..⟩
  · have hexec := exec_glFrameReceive_sequence hport hup hsent hopened hcorr hcls hcrc hunc hseq
    obtain ⟨hslot, hjob⟩ := frameSeen_slots port f s
    refine ⟨fun hdev => hexec.trans (by rw [if_neg hdev]; rfl), fun hdev hnone => hexec.trans ?_,
      fun slot j hdev hsome hj hresv hlen htype => hexec.trans ?_⟩
    · rw [if_pos hdev, frameHere_noJob (hslot.trans hnone)]
      rfl
    · rw [if_pos hdev, frameHere_job (hslot.trans hsome) ((hjob slot).trans hj) hresv hlen htype]
      rfl
  · exact ⟨_, exec_glControlFrame_discards hport hup hbad, rfl, getPort_modPort ..⟩
  · rw [ackClass_classes hpos hsent hn hlseq]
    simp only [Table.getD_put_self, true_and]
    exact fun d hd => Table.getD_put_other _ _ _ _ _ hd

end Sys2Proof.Machine
end

section
/-! What ends the device's run (17 R518, 18 R520, R536, 20 R569, 21 R588, R589, R591; log entries 15 and 52): the runs of the change
log are written, and a restart keeps the setup, the anchor, the log and the queue alone. -/

namespace Sys2Proof.Machine

open Sys2Proof.Safety

/-! ## The runs that the hub still gathers (17 R507; log entry 15) -/

/-- `t` with the host's side of the device and the gathered runs as `s` has them. -/
def withRuns (s t : State) : State :=
  { withHostSide s t with verdictRuns := s.verdictRuns, refuseRuns := s.refuseRuns }

/-- Only the host's side of the device and the gathered runs may differ. -/
def RunsOnly (s t : State) : Prop := withRuns s t = s

namespace RunsOnly

variable {s t u : State}

theorem refl (s : State) : RunsOnly s s := rfl

theorem trans (h : RunsOnly s t) (k : RunsOnly t u) : RunsOnly s u := by
  have hsame : withRuns s u = withRuns s (withRuns t u) := rfl
  unfold RunsOnly at *
  rw [hsame, k, h]

theorem of_hostOnly (h : HostOnly s t) : RunsOnly s t :=
  (congrArg (fun x : State => { x with verdictRuns := s.verdictRuns, refuseRuns := s.refuseRuns }) h :)

end RunsOnly

theorem runsOnly_logCloseRun (slot : Nat) (s : State) : RunsOnly s (logCloseRun slot s) := by
  unfold logCloseRun
  split
  · exact RunsOnly.trans (t := { s with verdictRuns := s.verdictRuns.del slot }) rfl (.of_hostOnly (hostOnly_logAdd ..))
  · exact .refl s

/-- Every run of verdicts closed. -/
def runsClosed (s : State) : State := (s.verdictRuns.map (·.1)).foldl (fun s i => logCloseRun i s) s

theorem runsOnly_flushRuns (s : State) : RunsOnly s (flushRuns s) := by
  have hclosed : RunsOnly s (runsClosed s) := foldl_keeps .refl .trans (fun s i => runsOnly_logCloseRun i s) _ s
  have hwritten : RunsOnly { runsClosed s with refuseRuns := [] } (flushRuns s) :=
    foldl_keeps .refl .trans (fun s r => .of_hostOnly (hostOnly_logAdd (refusalEntry r) s)) (runsClosed s).refuseRuns _
  exact hclosed.trans (RunsOnly.trans (t := { runsClosed s with refuseRuns := [] }) rfl hwritten)

/-- Where nothing is gathered, nothing is written. -/
theorem flushRuns_none {s : State} (hverdict : s.verdictRuns = []) (hrefuse : s.refuseRuns = []) : (flushRuns s).log = s.log := by
  simp [flushRuns, hverdict, hrefuse]

/-! ## A restart (18 R520) -/

section

variable (reason : Nat) (keep : Bool) (s : State)

/-- Memory, jobs, tables, sessions and contexts are gone, and a start of this reason is to come. -/
theorem restart_volatile : let t := restart reason keep s
    t.mem = [] ∧ t.cores = [] ∧ t.parts = [] ∧ t.slots = [] ∧ t.regions = [] ∧ t.registry = [] ∧ t.tenants = [] ∧
      t.sessions = [] ∧ t.reqs = [] ∧ t.accepted = [] ∧ t.net = [] ∧ t.dev.state = .starting ∧ t.dev.starting = true ∧
      t.dev.startReason = reason :=
  ⟨rfl, rfl, rfl, rfl, rfl, rfl, rfl, rfl, rfl, rfl, rfl, rfl, rfl, rfl⟩

/-- The setup NOR, the anchor and the queue are kept, and the log is that of the flushed runs. -/
theorem restart_kept : let t := restart reason keep s
    t.nor = s.nor ∧ t.anchor = s.anchor ∧ t.pending = s.pending ∧ t.log = (flushRuns s).log ∧
      t.ptp.now = (if keep then s.ptp.now else 0) := by
  have hflush := runsOnly_flushRuns s
  refine ⟨(congrArg State.nor hflush :), (congrArg State.anchor hflush :), (congrArg State.pending hflush :), rfl, ?_⟩
  rw [show s.ptp = (flushRuns s).ptp from (congrArg State.ptp hflush :).symm]
  rfl

/-- What a restart keeps of the device's own state. -/
theorem restart_dev : (restart reason keep s).dev = {
    startReason := reason, pwrOk := s.dev.pwrOk, resetN := s.dev.resetN, faultN := reason == 2 && s.dev.faultN,
    thermN := s.dev.thermN, thermLatch := s.dev.thermLatch, refGl := s.dev.refGl, refEth := s.dev.refEth,
    sealCounter := s.dev.sealCounter, hubRestarts := if reason = 2 then s.dev.hubRestarts else [], ident := s.dev.ident,
    idKey := s.dev.idKey, agreeKey := s.dev.agreeKey, endorse := s.dev.endorse, fwMinVersion := s.dev.fwMinVersion,
    fusedMac := s.dev.fusedMac, fuses := s.dev.fuses } := by
  rw [show s.dev = (flushRuns s).dev from (congrArg State.dev (runsOnly_flushRuns s) :).symm]
  rfl

/-- A start of a reason is to come, and all that is volatile is gone. -/
theorem restart_begun : let t := restart reason keep s
    t.dev.state = .starting ∧ t.dev.starting = true ∧ t.dev.startReason = reason ∧ t.mem = [] ∧ t.slots = [] ∧
      t.sessions = [] ∧ t.nor = s.nor ∧ t.pending = s.pending := by
  obtain ⟨hnor, -, hpending, -⟩ := restart_kept reason keep s
  exact ⟨rfl, rfl, rfl, rfl, rfl, rfl, hnor, hpending⟩

end

/-! ## The events (R518, R569, R588, R589, R591) -/

section

variable {s : State}

/-- The state in which a comparator's trip is told, its latch set (21 R591). -/
def tripped (hand : Nat) (s : State) : State :=
  let worst := (getHand s hand).temps.foldl (fun (b : Nat × Nat) p => if b.2 < p.2 then p else b) (0, 0)
  let t := notice 0x84 0 0 0 (leBytes 1 hand ++ leBytes 1 worst.1 ++ leBytes 2 (worst.2 / 16)) s
  { t with dev := { t.dev with thermN := true, thermLatch := true } }

theorem tripped_kept (hand : Nat) (s : State) : (tripped hand s).nor = s.nor ∧ (tripped hand s).pending = s.pending := by
  have hhost := hostOnly_notice 0x84 0 0 0 (leBytes 1 hand ++ leBytes 1 ((getHand s hand).temps.foldl
    (fun (b : Nat × Nat) p => if b.2 < p.2 then p else b) (0, 0)).1 ++ leBytes 2 (((getHand s hand).temps.foldl
    (fun (b : Nat × Nat) p => if b.2 < p.2 then p else b) (0, 0)).2 / 16)) s
  exact ⟨(congrArg State.nor hhost :), (congrArg State.pending hhost :)⟩

theorem exec_thermalComparatorTrip_hand {hand : Nat} (hhand : hand < 2) :
    exec (.thermalComparatorTrip hand) s = .next (restart 0 false (tripped hand s)) := by
  rw [exec_thermalComparatorTrip, execThermalComparatorTrip, if_neg (Nat.not_le.mpr hhand)]
  rfl

/-- The state in which a sealed device is opened: the counter advances, with its entry in the log (17 R518; log entry 52). -/
def unsealed (s : State) : State :=
  logAdd { index := 0, time := 0, kind := 9, prev := [], detail := leBytes 1 (s.dev.sealCounter + 1) }
    { s with dev := { s.dev with sealCounter := s.dev.sealCounter + 1 } }

theorem exec_makerUnseal_right (hsealed : s.dev.state = .sealed) (hodd : s.dev.sealCounter % 2 = 1)
    (hroom : s.dev.sealCounter < 15) : exec (.makerUnseal true) s = .next (restart 0 false (unsealed s)) := by
  have hopen : (s.dev.state != .sealed || decide (s.dev.sealCounter % 2 = 0) || !true || decide (15 ≤ s.dev.sealCounter)) =
      false := by
    rw [hsealed, hodd, decide_eq_false (Nat.not_le.mpr hroom)]
    rfl
  rw [exec_makerUnseal, execMakerUnseal]
  exact if_neg (by rw [hopen]; exact Bool.false_ne_true)

theorem unsealed_frame (s : State) :
    HostOnly { s with dev := { s.dev with sealCounter := s.dev.sealCounter + 1 } } (unsealed s) := hostOnly_logAdd ..

/-- With nothing gathered, the log that a maker's start finds ends in the unseal entry. -/
theorem unsealed_log (hverdict : s.verdictRuns = []) (hrefuse : s.refuseRuns = []) :
    (restart 0 false (unsealed s)).log.getLast?.map (·.kind) = some 9 := by
  have hhost := unsealed_frame s
  obtain ⟨-, -, -, hlog, -⟩ := restart_kept 0 false (unsealed s)
  have hruns : (unsealed s).verdictRuns = [] := (congrArg State.verdictRuns hhost :).trans hverdict
  have hrefused : (unsealed s).refuseRuns = [] := (congrArg State.refuseRuns hhost :).trans hrefuse
  rw [hlog, flushRuns_none hruns hrefused]
  obtain ⟨x, hx, hkind⟩ := logAdd_last { index := 0, time := 0, kind := 9, prev := [], detail := leBytes 1 (s.dev.sealCounter + 1) }
    { s with dev := { s.dev with sealCounter := s.dev.sealCounter + 1 } }
  rw [unsealed, hx, hkind]
  rfl

/-- The hub's own restarts of the last day (20 R569). -/
def recentRestarts (now : Nat) (s : State) : List Nat :=
  s.dev.hubRestarts.filter fun x => decide (max s.ptp.now now < x + 86400000000000)

theorem recentRestarts_none {now : Nat} (h : ∀ x ∈ s.dev.hubRestarts, x + 86400000000000 ≤ max s.ptp.now now) :
    (recentRestarts now s).isEmpty = true := by
  rw [List.isEmpty_iff, recentRestarts, List.filter_eq_nil_iff]
  exact fun x hx => by rw [decide_eq_true_iff]; exact Nat.not_lt.mpr (h x hx)

theorem recentRestarts_some {now : Nat} (h : ∃ x ∈ s.dev.hubRestarts, max s.ptp.now now < x + 86400000000000) :
    (recentRestarts now s).isEmpty = false := by
  obtain ⟨x, hx, hrecent⟩ := h
  rw [← Bool.not_eq_true, List.isEmpty_iff, recentRestarts, List.filter_eq_nil_iff]
  exact fun hnone => hnone x hx (decide_eq_true hrecent)

/-- The state in which the hub restarts itself: logged, with `FAULT_N` asserted and the restart remembered (20 R569). -/
def hubFailed (now : Nat) (s : State) : State :=
  let t := logInternal 3 0 0xFF 0 0 (leBytes 1 7) (fltCount 2 7 (atTime now s))
  { t with dev := { t.dev with faultN := true, hubRestarts := recentRestarts now s ++ [t.ptp.now] } }

theorem hubFailed_kept (now : Nat) (s : State) : (hubFailed now s).nor = s.nor ∧ (hubFailed now s).pending = s.pending ∧
    (hubFailed now s).ptp.now = max s.ptp.now now := by
  have hhost := hostOnly_logInternal 3 0 0xFF 0 0 (leBytes 1 7) (fltCount 2 7 (atTime now s))
  exact ⟨(congrArg State.nor hhost :), (congrArg State.pending hhost :), congrArg Ptp.now (congrArg State.ptp hhost :)⟩

theorem exec_hubSelfRestart_running (now : Nat) (hstarting : s.dev.starting = false) (hstopped : s.dev.stopped = false) :
    exec (.hubSelfRestart now) s = .next (if (recentRestarts now s).isEmpty then restart 2 true (hubFailed now s)
      else { restart 2 true (hubFailed now s) with
        dev := { (restart 2 true (hubFailed now s)).dev with starting := false, stopped := true } }) := by
  have hon : ((atTime now s).dev.starting || (atTime now s).dev.stopped) = false := by
    change (s.dev.starting || s.dev.stopped) = false
    rw [hstarting, hstopped]
    rfl
  have hdev : (fltCount 2 7 (atTime now s)).ptp = (atTime now s).ptp := rfl
  rw [exec_hubSelfRestart, execHubSelfRestart]
  simp only [hon, Bool.false_eq_true, if_false]
  rfl

end

/-! ## The obligations -/

/-- Settles O46: what a restart keeps by `restart_kept` and `restart_dev`, the runs written before it by `runsOnly_flushRuns` (log
entry 15); a maker's unseal begins a start, and a counter of 15 is exhausted (log entry 52). -/
theorem restartsKeepTheLogAndTheSetup : Obligations.RestartsKeepTheLogAndTheSetup := by
  refine ⟨fun s reason keep => ?_, fun s o hlatched => ?_, fun s => ⟨rfl, rfl, rfl, fun hand hhand => ?_,
    fun hsealed hodd hroom => ?_, fun now hstarting hstopped => ?_⟩⟩
  · obtain ⟨hmem, hcores, hparts, hslots, hregions, hregistry, htenants, hsessions, hreqs, haccepted, hnet, hstate, hstarting,
      hreason⟩ := restart_volatile reason keep s
    obtain ⟨hnor, hanchor, hpending, hlog, hnow⟩ := restart_kept reason keep s
    refine ⟨hmem, hcores, hparts, hslots, hregions, hregistry, htenants, hsessions, hreqs, haccepted, hnet, hstate, hstarting,
      hreason, hnor, hanchor, hpending, ?_, ?_, ?_, hnow, hlog, fun hverdict hrefuse => hlog.trans (flushRuns_none hverdict hrefuse)⟩
    · rw [restart_dev]
    · rw [restart_dev]
    · rw [restart_dev]
  · rw [exec_powerUpStart, execPowerUpStart]
    refine if_pos ?_
    rcases hlatched with h | h <;> simp [h]
  · refine ⟨_, exec_thermalComparatorTrip_hand hhand, ?_, ?_, rfl, ?_, rfl⟩
    · rw [restart_dev]
      rfl
    · rw [restart_dev]
      rfl
    · exact (restart_kept 0 false (tripped hand s)).1.trans (tripped_kept hand s).1
  · refine ⟨_, exec_makerUnseal_right hsealed hodd hroom, ?_, rfl, rfl, unsealed_log⟩
    rw [restart_dev]
    exact congrArg Dev.sealCounter (congrArg State.dev (unsealed_frame s) :)
  · obtain ⟨-, -, hnow⟩ := hubFailed_kept now s
    have hfault : (restart 2 true (hubFailed now s)).dev.faultN = true := by rw [restart_dev]; rfl
    have hclock : (restart 2 true (hubFailed now s)).ptp.now = max s.ptp.now now :=
      (restart_kept 2 true (hubFailed now s)).2.2.2.2.trans hnow
    refine ⟨_, exec_hubSelfRestart_running now hstarting hstopped, ?_, ?_, ?_, fun hrecent => ?_, fun hold => ?_⟩
    · split
      · exact hfault
      · exact hfault
    · split <;> rfl
    · split
      · exact hclock
      · exact hclock
    · rw [recentRestarts_some hrecent]
      exact ⟨rfl, rfl⟩
    · rw [recentRestarts_none hold]
      exact ⟨rfl, rfl⟩

/-- Settles O54: each event ends in a restart, whose state `restart_begun` describes; the maker's unseal gives reason 0 (log entry
52). -/
theorem runsEndInAStart : Obligations.RunsEndInAStart := by
  refine fun s => ⟨⟨_, rfl, restart_begun .., ?_⟩, ⟨_, rfl, restart_begun .., ?_⟩, ⟨_, rfl, restart_begun .., ?_, ?_⟩,
    fun hand hhand => ?_, fun hsealed hodd hroom => ?_, fun now hstarting hstopped hold => ?_⟩
  · rw [restart_dev]
  · rw [restart_dev]
  · rw [restart_dev]
  · rw [restart_dev]
  · obtain ⟨hnor, hpending⟩ := tripped_kept hand s
    obtain ⟨hstate, hstarting, hreason, hmem, hslots, hsessions, hnor', hpending'⟩ := restart_begun 0 false (tripped hand s)
    refine ⟨_, exec_thermalComparatorTrip_hand hhand, ⟨hstate, hstarting, hreason, hmem, hslots, hsessions, hnor'.trans hnor,
      hpending'.trans hpending⟩, ?_⟩
    rw [restart_dev]
    rfl
  · have hhost := unsealed_frame s
    obtain ⟨hstate, hstarting, hreason, hmem, hslots, hsessions, hnor, hpending⟩ := restart_begun 0 false (unsealed s)
    refine ⟨_, exec_makerUnseal_right hsealed hodd hroom, ⟨hstate, hstarting, hreason, hmem, hslots, hsessions,
      hnor.trans (congrArg State.nor hhost :), hpending.trans (congrArg State.pending hhost :)⟩, ?_⟩
    rw [restart_dev, show (unsealed s).dev = _ from (congrArg State.dev hhost :)]
    change (s.dev.sealCounter + 1) % 2 = 0
    omega
  · obtain ⟨hnor, hpending, -⟩ := hubFailed_kept now s
    obtain ⟨hstate, hstart, hreason, hmem, hslots, hsessions, hnor', hpending'⟩ := restart_begun 2 true (hubFailed now s)
    refine ⟨restart 2 true (hubFailed now s), ?_, ⟨hstate, hstart, hreason, hmem, hslots, hsessions, hnor'.trans hnor,
      hpending'.trans hpending⟩, ?_⟩
    · rw [exec_hubSelfRestart_running now hstarting hstopped, if_pos (recentRestarts_none hold)]
    · rw [restart_dev]
      rfl

end Sys2Proof.Machine
end

section
/-! The hands (18 R531 to R534, 19 R540, R556 to R563, 20 R575; log entry 48): the baton, a hand's fault and its return, and retunes. -/

namespace Sys2Proof.Machine

open Sys2Proof.Safety

/-! ## What leaves a hand's run alone -/

@[simp] theorem getHand_modHand_self (s : State) (h : Nat) (f : Hand → Hand) : getHand (modHand h f s) h = f (getHand s h) := by
  rw [getHand_modHand, if_pos rfl]

theorem getHand_hostOnly {s t : State} (h : HostOnly s t) (hand : Nat) : getHand t hand = getHand s hand := by
  rw [getHand, getHand, show t.hands = s.hands from (congrArg State.hands h :)]

/-- A hand differs at most in its fault counters and in what of its margin has been told. -/
def Hand.Tells (x y : Hand) : Prop := { y with flt := x.flt, toldMargin := x.toldMargin, toldMap := x.toldMap } = x

theorem Hand.Tells.refl (x : Hand) : x.Tells x := rfl

theorem Hand.Tells.trans {x y z : Hand} (h : x.Tells y) (k : y.Tells z) : x.Tells z := by
  unfold Hand.Tells at *
  rw [← k] at h
  exact h

/-- Only the host's side of the device and the hands may differ. -/
def HandsOnly (s t : State) : Prop := { withHostSide s t with hands := s.hands } = s

namespace HandsOnly

variable {s t u : State}

theorem of_hostOnly (h : HostOnly s t) : HandsOnly s t :=
  (congrArg (fun x : State => { x with hands := s.hands }) h :)

theorem trans (h : HandsOnly s t) (k : HandsOnly t u) : HandsOnly s u := by
  have hsame : { withHostSide s u with hands := s.hands } =
      { withHostSide s { withHostSide t u with hands := t.hands } with hands := s.hands } := rfl
  unfold HandsOnly at *
  rw [hsame, k, h]

theorem of_modHand (h : Nat) (f : Hand → Hand) (s : State) : HandsOnly s (modHand h f s) := rfl

theorem dev (h : HandsOnly s t) : t.dev = s.dev := (congrArg State.dev h :)

theorem slots (h : HandsOnly s t) : t.slots = s.slots := (congrArg State.slots h :)

theorem mem (h : HandsOnly s t) : t.mem = s.mem := (congrArg State.mem h :)

theorem parts (h : HandsOnly s t) : t.parts = s.parts := (congrArg State.parts h :)

theorem ports (h : HandsOnly s t) : t.ports = s.ports := (congrArg State.ports h :)

theorem ptp (h : HandsOnly s t) : t.ptp = s.ptp := (congrArg State.ptp h :)

end HandsOnly

/-- Only the host's side of the device and what the hands count and tell may differ. -/
structure TellsHands (s t : State) : Prop where
  only : HandsOnly s t
  hand : ∀ h, (getHand s h).Tells (getHand t h)

namespace TellsHands

variable {s t u : State}

theorem of_hostOnly (h : HostOnly s t) : TellsHands s t :=
  ⟨.of_hostOnly h, fun k => by rw [getHand_hostOnly h]; exact .refl _⟩

theorem refl (s : State) : TellsHands s s := of_hostOnly (.refl s)

theorem trans (h : TellsHands s t) (k : TellsHands t u) : TellsHands s u :=
  ⟨h.only.trans k.only, fun j => (h.hand j).trans (k.hand j)⟩

theorem after (k : TellsHands t u) (h : TellsHands s t) : TellsHands s u := h.trans k

theorem of_modHand {h : Nat} {f : Hand → Hand} (hf : ∀ x : Hand, x.Tells (f x)) : TellsHands s (modHand h f s) := by
  refine ⟨.of_modHand h f s, fun j => ?_⟩
  rw [getHand_modHand]
  split
  · exact hf _
  · exact .refl _

/-- A hand runs on in its mode, at its tempo and pace. -/
theorem runs (h : TellsHands s t) (j : Nat) : (getHand t j).mode = (getHand s j).mode ∧
    (getHand t j).tempo = (getHand s j).tempo ∧ (getHand t j).pace = (getHand s j).pace :=
  have hj := h.hand j
  ⟨(congrArg Hand.mode hj :), (congrArg Hand.tempo hj :), (congrArg Hand.pace hj :)⟩

end TellsHands

/-- A cause of service at a hand is counted there, and told (20 R577). -/
theorem tellsHands_serviceDue {hand : Nat} (hhand : hand < 2) (cause detail : Nat) (s : State) :
    TellsHands s (serviceDue hand cause detail s) := by
  have hflt : ∀ f : Flt → Flt, TellsHands s (modFlt hand f s) := fun f => by
    rw [modFlt, if_pos hhand]
    exact .of_modHand fun _ => rfl
  unfold serviceDue
  simp only
  split
  · exact hflt _
  · exact (hflt _).trans (.of_hostOnly (hostOnly_notice ..))

theorem tellsHands_tellMargin (hand : Nat) (d : List Nat) (old : Nat) (s : State) : TellsHands s (tellMargin hand d old s) := by
  unfold tellMargin
  simp only
  split
  · split
    · exact (TellsHands.of_hostOnly (hostOnly_notice ..)).after (.of_modHand fun _ => rfl)
    · exact .refl s
  · split
    · exact (TellsHands.of_hostOnly (hostOnly_notice ..)).after (.of_modHand fun _ => rfl)
    · exact .refl s

/-! ## Retunes (R556 to R562) -/

/-- A hand with its new tables (R557, R558): `w` is its worst sensor, `tenths` that sensor's ageing, and `now` the time. -/
def retuned (d raw : List Nat) (service : Bool) (w tenths now : Nat) (x : Hand) : Hand :=
  let vs := (List.range 8).map fun t => retuneMv t (raw.getD t 0)
  let volts := vs.map (·.1)
  let m := marginOf volts
  { x with
    sensors := d, volts, derated := sumNat ((List.range 8).map fun t => if ((vs.map (·.2)).getD t false) then 2 ^ t else 0),
    margin := m, worst := satAt 0xFF tenths, worstSensor := w, low := decide (m < 25), retuning := false, lastRetune := now,
    retunes := if service then satAt 0xFFFF (x.retunes + 1) else x.retunes, railMv := volts.getD x.tempo 0 }

theorem hostOnly_sampleAgeing (h : Nat) (d : List Nat) (s : State) : HostOnly s (sampleAgeing h d s) :=
  HostOnly.foldl _ (fun _ _ => hostOnly_monSample ..) _ s

/-- The state with a hand's new tables in place. -/
def handRetuned (h : Nat) (d raw : List Nat) (service : Bool) (s : State) : State :=
  let v := sampleAgeing h d s
  modHand h (retuned d raw service (worstSensor s h d) (ageTenths v h (worstSensor s h d) d) v.ptp.now) v

/-- A retune gives the hand its new tables, and may tell that service is due. -/
theorem tellsHands_retuneHand {hand : Nat} (hhand : hand < 2) (d raw : List Nat) (service : Bool) (s : State) :
    TellsHands (handRetuned hand d raw service s) (retuneHand hand d raw service s) := by
  have hsame : retuneHand hand d raw service s =
      let m := marginOf (((List.range 8).map fun t => retuneMv t (raw.getD t 0)).map (·.1))
      let bits := sumNat ((List.range 8).map fun t =>
        if (((((List.range 8).map fun t => retuneMv t (raw.getD t 0)).map (·.2)).getD t false)) then 2 ^ t else 0)
      if m = 0 || bits % 32 != 0 then serviceDue hand 3 m (handRetuned hand d raw service s)
      else handRetuned hand d raw service s := rfl
  rw [hsame]
  simp only
  split
  · exact tellsHands_serviceDue hhand ..
  · exact .refl _

/-- A retuned hand, up to what it counts and tells. -/
theorem getHand_retuneHand {hand : Nat} (hhand : hand < 2) (d raw : List Nat) (service : Bool) (s : State) :
    ∃ w tenths, (retuned d raw service w tenths s.ptp.now (getHand s hand)).Tells
      (getHand (retuneHand hand d raw service s) hand) := by
  have hsample := hostOnly_sampleAgeing hand d s
  have htold := (tellsHands_retuneHand hhand d raw service s).hand hand
  rw [handRetuned, getHand_modHand_self, getHand_hostOnly hsample] at htold
  rw [show s.ptp = (sampleAgeing hand d s).ptp from (congrArg State.ptp hsample :).symm]
  exact ⟨_, _, htold⟩

/-- A retune changes the hands and the host's side of the device alone. -/
theorem handsOnly_retuneHand {hand : Nat} (hhand : hand < 2) (d raw : List Nat) (service : Bool) (s : State) :
    HandsOnly s (retuneHand hand d raw service s) :=
  ((HandsOnly.of_hostOnly (hostOnly_sampleAgeing hand d s)).trans (.of_modHand ..)).trans
    (tellsHands_retuneHand hhand d raw service s).only

theorem le_ceilDiv_five (raw : Nat) : raw ≤ ceilDiv raw 5 * 5 ∧ ceilDiv raw 5 * 5 < raw + 5 := by
  unfold ceilDiv
  omega

theorem mv_bounds {i : Nat} (hi : i < 8) : unagedMv i % 5 = 0 ∧ ceilMv i % 5 = 0 ∧ unagedMv i ≤ ceilMv i := by
  revert i
  decide

/-- A tempo's voltage lies in steps of 5 mV between the unaged voltage and the ceiling, no lower than the measurement asks and
less than a step above it (R557, R558). -/
theorem retuneMv_between {i : Nat} (hi : i < 8) (raw : Nat) : let v := (retuneMv i raw).1
    v % 5 = 0 ∧ unagedMv i ≤ v ∧ v ≤ ceilMv i ∧ (raw ≤ ceilMv i → raw ≤ v ∧ (v = unagedMv i ∨ v < raw + 5)) := by
  obtain ⟨hunaged, hceil, hle⟩ := mv_bounds hi
  obtain ⟨hlow, hhigh⟩ := le_ceilDiv_five raw
  simp only [retuneMv]
  omega

theorem retuned_volts (d raw : List Nat) (service : Bool) (w tenths now : Nat) (x : Hand) {i : Nat} (hi : i < 8) :
    (retuned d raw service w tenths now x).volts[i]? = some (retuneMv i (raw.getD i 0)).1 := by
  simp [retuned, hi]

/-! ## Tempo changes and measurements (R540, R559 to R561) -/

section

variable {s : State} {hand : Nat}

/-- The rail at the tempo's voltage (R540). -/
def railed (x : Hand) : Hand := match x.changing with
  | some _ => { x with changing := none, railMv := x.volts.getD x.tempo (unagedMv x.tempo) }
  | none => x

theorem exec_tempoChangeComplete_hand (hhand : hand < 2) (now : Nat) :
    exec (.tempoChangeComplete hand now) s = .next (modHand hand railed (atTime now s)) := by
  rw [exec_tempoChangeComplete, execTempoChangeComplete, if_neg (Nat.not_le.mpr hhand)]
  rfl

theorem railed_changing (x : Hand) : (railed x).changing = none ∧
    (∀ y, x.changing = some y → (railed x).railMv = x.volts.getD x.tempo (unagedMv x.tempo)) ∧
    (x.changing = none → railed x = x) := by
  unfold railed
  cases hx : x.changing with
  | none => exact ⟨hx, fun y hy => (nomatch hy), fun _ => rfl⟩
  | some y => exact ⟨rfl, fun z _ => rfl, fun h => (nomatch h)⟩

/-- A hand whose interval has passed (R559). -/
def retuneDue (s : State) (h : Nat) : Bool :=
  (getHand s h).mode == .running && !(getHand s h).retuning && decide ((getHand s h).lastRetune + retuneNs s ≤ s.ptp.now)

theorem exec_retuneInterval_due {now : Nat} (hhand : hand < 2) (hstarting : s.dev.starting = false)
    (hstopped : s.dev.stopped = false) (hdue : retuneDue (atTime now s) hand = true)
    (hother : (getHand s (1 - hand)).retuning = false) (hfirst : hand = 0 ∨ retuneDue (atTime now s) 0 = false) :
    exec (.retuneInterval hand now) s = .next (modHand hand (fun x => { x with retuning := true }) (atTime now s)) := by
  have hgoes : (s.dev.starting || s.dev.stopped || !retuneDue (atTime now s) hand || (getHand s (1 - hand)).retuning ||
      (decide (hand = 1) && retuneDue (atTime now s) 0)) = false := by
    rw [hstarting, hstopped, hdue, hother]
    rcases hfirst with h | h <;> simp [h]
  rw [exec_retuneInterval, execRetuneInterval, if_neg (Nat.not_le.mpr hhand)]
  exact if_neg (by rw [← Bool.not_eq_true] at hgoes; exact hgoes)

theorem retuneDue_not {h now : Nat} (hnot : max s.ptp.now now < (getHand s h).lastRetune + retuneNs s ∨
    (getHand s h).mode ≠ .running) : retuneDue (atTime now s) h = false := by
  have hsame : retuneDue (atTime now s) h = ((getHand s h).mode == .running && !(getHand s h).retuning &&
      decide ((getHand s h).lastRetune + retuneNs s ≤ max s.ptp.now now)) := rfl
  rw [hsame]
  rcases hnot with h | h
  · rw [decide_eq_false (Nat.not_le.mpr h), Bool.and_false]
  · rw [beq_eq_false_iff_ne.mpr h, Bool.false_and, Bool.false_and]

/-- What a hand's sensors and voltages read in an observation. -/
def sensorsOf (o : StartObs) (hand : Nat) : List Nat := if hand = 0 then o.sensors0 else o.sensors1

def voltsOf (o : StartObs) (hand : Nat) : List Nat := if hand = 0 then o.volts0 else o.volts1

/-- The state after a measurement in service: new tables, its log entry, and the margin told (R560, R561). -/
def measured (hand : Nat) (o : StartObs) (s : State) : State :=
  tellMargin hand (sensorsOf o hand) (getHand s hand).derated (logInternal 2 0 0xFF 0 0 (leBytes 1 hand)
    (retuneHand hand (sensorsOf o hand) (voltsOf o hand) true s))

theorem exec_ageingMeasurementDone_retuning (hhand : hand < 2) (hretuning : (getHand s hand).retuning = true) (o : StartObs) :
    exec (.ageingMeasurementDone hand o) s = .next (measured hand o s) := by
  rw [exec_ageingMeasurementDone, execAgeingMeasurementDone, if_neg (Nat.not_le.mpr hhand)]
  simp only [hretuning, Bool.not_true, Bool.false_eq_true, if_false]
  rfl

theorem getHand_measured (hhand : hand < 2) (o : StartObs) :
    ∃ w tenths, (retuned (sensorsOf o hand) (voltsOf o hand) true w tenths s.ptp.now (getHand s hand)).Tells
      (getHand (measured hand o s) hand) :=
  have ⟨w, tenths, htables⟩ := getHand_retuneHand hhand (sensorsOf o hand) (voltsOf o hand) true s
  ⟨w, tenths, htables.trans
    (((TellsHands.of_hostOnly (hostOnly_logInternal ..)).trans (tellsHands_tellMargin ..)).hand hand)⟩

/-! ## The baton (R531 to R534) -/

/-- Both copies of the baton are valid and equal (R532). -/
def batonAgrees (s : State) : Bool := s.dev.batonValid && s.dev.batonCopies.1 == s.dev.batonCopies.2

theorem batonAgrees_iff (s : State) : batonAgrees s = true ↔ s.dev.batonValid = true ∧ s.dev.batonCopies.1 = s.dev.batonCopies.2 := by
  rw [batonAgrees, Bool.and_eq_true, beq_iff_eq]

theorem confirmBaton_confirms {ok : Bool} (hok : ok = true) (hagree : batonAgrees s = true) :
    confirmBaton hand ok s = modHand hand (fun x => { x with confirmed := true }) s := by
  subst hok
  exact if_pos hagree

/-- A hand that misses the baton makes the device Held (R534). -/
theorem confirmBaton_misses {ok : Bool} (hmiss : (ok && batonAgrees s) = false) :
    confirmBaton hand ok s = enterHeld hand (if ok then 2 else 1) (modHand hand (fun x => { x with confirmed := false }) s) :=
  if_neg (by rw [← Bool.not_eq_true] at hmiss; exact hmiss)

/-- Entering Held changes the device state, and tells so. -/
theorem enterHeld_frame (hand cause : Nat) (s : State) :
    { withHostSide s (enterHeld hand cause s) with dev := { (enterHeld hand cause s).dev with state := s.dev.state } } = s := by
  unfold enterHeld
  split
  · exact (congrArg (fun x : State => { x with dev := { x.dev with state := s.dev.state } }) (hostOnly_notice 2 0 0 0
      (leBytes 1 hand ++ leBytes 1 cause) { s with dev := { s.dev with state := .held } }) :)
  · rfl

theorem enterHeld_held (hrun : s.dev.state = .ready ∨ s.dev.state = .baseLoading ∨ s.dev.state = .starting) (cause : Nat) :
    (enterHeld hand cause s).dev.state = .held := by
  have hon : (decide (s.dev.state = .ready) || decide (s.dev.state = .baseLoading) || decide (s.dev.state = .starting)) = true := by
    rcases hrun with h | h | h <;> simp [h]
  rw [enterHeld, if_pos hon, show (notice 2 0 0 0 _ _).dev = _ from (congrArg State.dev (hostOnly_notice 2 0 0 0
    (leBytes 1 hand ++ leBytes 1 cause) { s with dev := { s.dev with state := .held } }) :)]

theorem getHand_enterHeld (h cause k : Nat) (s : State) : getHand (enterHeld h cause s) k = getHand s k := by
  rw [getHand, getHand, show (enterHeld h cause s).hands = s.hands from (congrArg State.hands (enterHeld_frame h cause s) :)]

theorem exec_batonConfirm_running {ok : Bool} {now : Nat} (hhand : hand < 2)
    (hrun : s.dev.state = .ready ∨ s.dev.state = .baseLoading) (hmode : (getHand s hand).mode = .running) :
    exec (.batonConfirm hand ok now) s = .next (confirmBaton hand ok (atTime now s)) := by
  have hon : ((decide (s.dev.state = .ready) || decide (s.dev.state = .baseLoading)) &&
      decide ((getHand s hand).mode = .running)) = true := by
    rcases hrun with h | h <;> simp [h, hmode]
  rw [exec_batonConfirm, execBatonConfirm, if_neg (Nat.not_le.mpr hhand)]
  exact if_pos hon

theorem exec_timekeeperResetTimeout_late {now : Nat} (hrun : s.dev.state = .ready ∨ s.dev.state = .baseLoading)
    (hmode : (getHand s s.dev.baton).mode = .resetting)
    (hlate : (getHand s s.dev.baton).since + 10000000000 < max s.ptp.now now) :
    exec (.timekeeperResetTimeout now) s = .next (enterHeld s.dev.baton 3 (atTime now s)) := by
  have hon : ((decide (s.dev.state = .ready) || decide (s.dev.state = .baseLoading)) &&
      decide ((getHand s s.dev.baton).mode = .resetting) &&
      decide ((getHand s s.dev.baton).since + 10000000000 < max s.ptp.now now)) = true := by
    rw [decide_eq_true hlate]
    rcases hrun with h | h <;> simp [h, hmode]
  rw [exec_timekeeperResetTimeout, execTimekeeperResetTimeout]
  exact if_pos hon

/-! ## A hand's fault (R575) -/

/-- A second fault within an hour (R575). -/
def faultsAgain (s : State) (hand : Nat) : Bool := match (getHand s hand).lastFault with
  | some f => decide (s.ptp.now < f + 3600000000000)
  | none => false

theorem faultsAgain_iff (s : State) (hand : Nat) :
    faultsAgain s hand = true ↔ ∃ f ∈ (getHand s hand).lastFault, s.ptp.now < f + 3600000000000 := by
  unfold faultsAgain
  cases (getHand s hand).lastFault with
  | none => simp
  | some f => simp

/-- A hand in reset after its fault. -/
def resetting (cause now : Nat) (again : Bool) (x : Hand) : Hand :=
  { x with
    mode := .resetting, confirmed := false, since := now, lastFault := some now, faultCause := cause, stuck := again,
    retuning := false, changing := none,
    flt := { x.flt with resets := if again then x.flt.resets else satAt 0xF (x.flt.resets + 1) } }

/-- The state with a hand's fault counted, told and logged. -/
def faultTold (hand cause : Nat) (s : State) : State :=
  logInternal 3 cHandFault 0xFF 0 0 (leBytes 1 hand ++ leBytes 1 cause)
    (notice 0x82 0 0 0 (leBytes 1 hand ++ leBytes 1 cause) (fltCount hand 6 s))

/-- The state with a hand in reset, before its ports and partitions are seen to. -/
def handReset (hand cause : Nat) (s : State) : State :=
  modHand hand (resetting cause (faultTold hand cause s).ptp.now (faultsAgain s hand)) (faultTold hand cause s)

theorem tellsHands_faultTold (hhand : hand < 2) (cause : Nat) (s : State) : TellsHands s (faultTold hand cause s) := by
  have hcount : TellsHands s (fltCount hand 6 s) := by
    rw [fltCount, modFlt, if_pos hhand]
    exact .of_modHand fun _ => rfl
  exact hcount.trans ((TellsHands.of_hostOnly (hostOnly_notice ..)).trans (.of_hostOnly (hostOnly_logInternal ..)))

/-- The ports of a list of a hand's nine fall or, where they are down already, go idle. -/
def portsIdled (hand : Nat) (l : List Nat) (s : State) : State := l.foldl (fun s i =>
  if (getPort s (9 * hand + i)).isUp then portDown (9 * hand + i) s
  else modPort (9 * hand + i) (fun p => { p with state := 0, lanes := 0 }) s) s

/-- Ports that are down already change and nothing else. -/
theorem portsIdled_frame {l : List Nat} (hl : ∀ i ∈ l, i < 9) (hdown : ∀ i, i < 9 → (getPort s (9 * hand + i)).isUp = false) :
    { portsIdled hand l s with ports := s.ports } = s := by
  induction l generalizing s with
  | nil => rfl
  | cons i l ih =>
    have hstep : portsIdled hand (i :: l) s =
        portsIdled hand l (modPort (9 * hand + i) (fun p => { p with state := 0, lanes := 0 }) s) := by
      rw [portsIdled, List.foldl_cons, if_neg (by rw [hdown i (hl i List.mem_cons_self)]; exact Bool.false_ne_true)]
      rfl
    have hstill : ∀ k, k < 9 → (getPort (modPort (9 * hand + i) (fun p => { p with state := 0, lanes := 0 }) s)
        (9 * hand + k)).isUp = false := fun k hk => by
      by_cases hik : k = i
      · subst hik
        rw [getPort_modPort]
        rfl
      · rw [getPort_modPort_other _ _ _ _ (by omega)]
        exact hdown k hk
    rw [hstep]
    exact (congrArg (fun x : State => { x with ports := s.ports }) (ih (fun k hk => hl k (List.mem_cons_of_mem _ hk)) hstill) :)

section

variable {s t : State} (h : { t with ports := s.ports } = s)

include h

theorem parts_of_ports : t.parts = s.parts := (congrArg State.parts h :)

theorem hands_of_ports : t.hands = s.hands := (congrArg State.hands h :)

theorem slots_of_ports : t.slots = s.slots := (congrArg State.slots h :)

theorem mem_of_ports : t.mem = s.mem := (congrArg State.mem h :)

end

/-- The partitions on a hand fault with it. -/
def partsFaulted (hand : Nat) (s : State) : State :=
  (handParts s hand).foldl (fun s p => faultPart p false cHandFault (getPart s p).row (getPart s p).col s) s

/-- The state after a hand's fault, before a second fault within an hour is told. -/
def handFaulted (hand cause : Nat) (s : State) : State :=
  partsFaulted hand (portsIdled hand (List.range 9) (handReset hand cause s))

theorem faultHand_running {cause : Nat} (hstarting : s.dev.starting = false) (hstopped : s.dev.stopped = false)
    (hmode : (getHand s hand).mode = .running) :
    faultHand hand cause s = if faultsAgain s hand
      then serviceDue hand 4 0 { handFaulted hand cause s with dev := { (handFaulted hand cause s).dev with faultN := true } }
      else handFaulted hand cause s := by
  have hon : (s.dev.starting || s.dev.stopped || decide ((getHand s hand).mode = .resetting)) = false := by
    rw [hstarting, hstopped, hmode]
    rfl
  unfold faultHand
  simp only [hon, Bool.false_eq_true, if_false]
  unfold handFaulted partsFaulted portsIdled handReset faultTold faultsAgain resetting
  cases (getHand s hand).lastFault with
  | none => simp only
  | some f => simp only

theorem handsOnly_handReset (hhand : hand < 2) (cause : Nat) (s : State) : HandsOnly s (handReset hand cause s) :=
  (tellsHands_faultTold hhand cause s).only.trans (.of_modHand ..)

/-- Where the hand's ports are down and it holds no partition, the hands, the ports and the host's side alone change. -/
theorem handFaulted_quiet {cause : Nat} (hhand : hand < 2) (hdown : ∀ i, i < 9 → (getPort s (9 * hand + i)).isUp = false)
    (hparts : handParts s hand = []) :
    { handFaulted hand cause s with ports := (handReset hand cause s).ports } = handReset hand cause s := by
  have hreset := handsOnly_handReset hhand cause s
  have hidle := portsIdled_frame (s := handReset hand cause s) (hand := hand) (l := List.range 9)
    (fun i hi => List.mem_range.mp hi) fun i hi => by rw [getPort, hreset.ports]; exact hdown i hi
  have hfree : handParts (portsIdled hand (List.range 9) (handReset hand cause s)) hand = [] := by
    rw [handParts, parts_of_ports hidle, hreset.parts]
    exact hparts
  rw [handFaulted, partsFaulted, hfree, List.foldl_nil]
  exact hidle

theorem getHand_handReset (hhand : hand < 2) (cause : Nat) (s : State) :
    ∃ x, getHand (handReset hand cause s) hand = resetting cause s.ptp.now (faultsAgain s hand) x := by
  refine ⟨getHand (faultTold hand cause s) hand, ?_⟩
  rw [handReset, getHand_modHand_self, (tellsHands_faultTold hhand cause s).only.ptp]

theorem exec_handFault_hand {cause now : Nat} (hhand : hand < 2) :
    exec (.handFault hand cause now) s = .next (faultHand hand cause (atTime now s)) := by
  rw [exec_handFault, execHandFault, if_neg (Nat.not_le.mpr hhand)]

/-- A fault that leaves the hand in reset asserts `FAULT_N` and tells that service is due (R577). -/
theorem lastFault_told (hhand : hand < 2) (s : State) :
    let t := serviceDue hand 4 0 { s with dev := { s.dev with faultN := true } }
    (getHand s hand).Tells (getHand t hand) ∧ t.mem = s.mem ∧ t.slots = s.slots :=
  have htold := tellsHands_serviceDue hhand 4 0 { s with dev := { s.dev with faultN := true } }
  ⟨htold.hand hand, htold.only.mem, htold.only.slots⟩

/-- A hand that faults without partitions and with its ports down is in reset, and memory and slots stay. -/
theorem faultHand_quiet {cause : Nat} (hhand : hand < 2) (hstarting : s.dev.starting = false) (hstopped : s.dev.stopped = false)
    (hmode : (getHand s hand).mode = .running) (hdown : ∀ i, i < 9 → (getPort s (9 * hand + i)).isUp = false)
    (hparts : handParts s hand = []) :
    (∃ x, (resetting cause s.ptp.now (faultsAgain s hand) x).Tells (getHand (faultHand hand cause s) hand)) ∧
      (faultHand hand cause s).mem = s.mem ∧ (faultHand hand cause s).slots = s.slots := by
  have hquiet := handFaulted_quiet (cause := cause) hhand hdown hparts
  have hreset := handsOnly_handReset hhand cause s
  have hhands : getHand (handFaulted hand cause s) hand = getHand (handReset hand cause s) hand := by
    rw [getHand, getHand, hands_of_ports hquiet]
  have hmem : (handFaulted hand cause s).mem = s.mem := (mem_of_ports hquiet).trans hreset.mem
  have hslots : (handFaulted hand cause s).slots = s.slots := (slots_of_ports hquiet).trans hreset.slots
  obtain ⟨x, hx⟩ := getHand_handReset hhand cause s
  have hstood : resetting cause s.ptp.now (faultsAgain s hand) x = getHand (handFaulted hand cause s) hand := by
    rw [hhands, hx]
  rw [faultHand_running hstarting hstopped hmode]
  split
  · obtain ⟨htells, hmemTold, hslotsTold⟩ := lastFault_told hhand (handFaulted hand cause s)
    exact ⟨⟨x, by rw [hstood]; exact htells⟩, hmemTold.trans hmem, hslotsTold.trans hslots⟩
  · exact ⟨⟨x, by rw [hstood]; exact .refl _⟩, hmem, hslots⟩

/-! ## A hand's return (R575) -/

/-- A hand that has restarted, at T0 without pace, with its fuses applied (log entry 48). -/
def handRestarted (hand : Nat) (s : State) : State :=
  applyFuses hand (modHand hand (fun x => { x with mode := .running, tempo := 0, pace := 0 }) s)

/-- The state with a restarted hand retuned and its margin told. -/
def handTuned (hand : Nat) (o : StartObs) (s : State) : State :=
  tellMargin hand (sensorsOf o hand) (getHand s hand).derated
    (retuneHand hand (sensorsOf o hand) (voltsOf o hand) false (handRestarted hand s))

/-- Whether a hand gets its answer when it reads the baton. -/
def confirmOf (o : StartObs) (hand : Nat) : Bool := if hand = 0 then o.confirm0 else o.confirm1

/-- The state with a restarted hand's nine ports training, before what waited for its stacks goes on. -/
def handBack (hand : Nat) (o : StartObs) (s : State) : State :=
  (List.range 9).foldl (fun s i => beginTraining (9 * hand + i) s) (confirmBaton hand (confirmOf o hand) (handTuned hand o s))

theorem exec_handRestartDone_back (hhand : hand < 2) (hmode : (getHand s hand).mode = .resetting)
    (hstuck : (getHand s hand).stuck = false) (hcool : (getHand s hand).faultCause ≠ 3 ∨ (getHand s hand).hotC < 95)
    (o : StartObs) : exec (.handRestartDone hand o) s =
      .next (((handBack hand o s).slots.map (·.1)).foldl (fun s i => wakeJob i s) (handBack hand o s)) := by
  have hready : ((getHand s hand).mode != .resetting || (getHand s hand).stuck ||
      (decide ((getHand s hand).faultCause = 3) && decide (95 ≤ (getHand s hand).hotC))) = false := by
    rw [hmode, hstuck]
    rcases hcool with h | h
    · simp [h]
    · simp [Nat.not_le.mpr h]
  rw [exec_handRestartDone, execHandRestartDone, if_neg (Nat.not_le.mpr hhand)]
  simp only [hready, Bool.false_eq_true, if_false]
  rfl

theorem handTuned_only (hhand : hand < 2) (o : StartObs) (s : State) : HandsOnly s (handTuned hand o s) :=
  ((HandsOnly.of_modHand ..).trans (.of_modHand ..)).trans
    ((handsOnly_retuneHand hhand ..).trans (tellsHands_tellMargin ..).only)

/-- A restarted hand runs at T0 without pace. -/
theorem handTuned_runs (hhand : hand < 2) (o : StartObs) (s : State) : (getHand (handTuned hand o s) hand).mode = .running ∧
    (getHand (handTuned hand o s) hand).tempo = 0 ∧ (getHand (handTuned hand o s) hand).pace = 0 := by
  obtain ⟨w, tenths, htables⟩ := getHand_retuneHand hhand (sensorsOf o hand) (voltsOf o hand) false (handRestarted hand s)
  have htells := htables.trans ((tellsHands_tellMargin hand (sensorsOf o hand) (getHand s hand).derated
    (retuneHand hand (sensorsOf o hand) (voltsOf o hand) false (handRestarted hand s))).hand hand)
  have hstart : (getHand (handRestarted hand s) hand).mode = .running ∧ (getHand (handRestarted hand s) hand).tempo = 0 ∧
      (getHand (handRestarted hand s) hand).pace = 0 := by
    rw [handRestarted, applyFuses, getHand_modHand_self, getHand_modHand_self]
    exact ⟨rfl, rfl, rfl⟩
  obtain ⟨hmode, htempo, hpace⟩ := hstart
  exact ⟨(congrArg Hand.mode htells :).trans hmode, (congrArg Hand.tempo htells :).trans htempo,
    (congrArg Hand.pace htells :).trans hpace⟩

/-- A hand that reads the baton stays in its run, and has confirmed it exactly where it got its answer and the copies agree. -/
theorem confirmBaton_hand (hand : Nat) (ok : Bool) (s : State) :
    getHand (confirmBaton hand ok s) hand = { getHand s hand with confirmed := ok && batonAgrees s } := by
  cases h : ok && batonAgrees s with
  | true =>
    obtain ⟨hok, hagree⟩ := Bool.and_eq_true_iff.mp h
    rw [confirmBaton_confirms hok hagree, getHand_modHand_self]
  | false => rw [confirmBaton_misses h, getHand_enterHeld, getHand_modHand_self]

theorem confirmBaton_kept (hand : Nat) (ok : Bool) (s : State) :
    (confirmBaton hand ok s).mem = s.mem ∧ (confirmBaton hand ok s).slots = s.slots := by
  cases h : ok && batonAgrees s with
  | true =>
    obtain ⟨hok, hagree⟩ := Bool.and_eq_true_iff.mp h
    rw [confirmBaton_confirms hok hagree]
    exact ⟨rfl, rfl⟩
  | false =>
    rw [confirmBaton_misses h]
    have hframe := enterHeld_frame hand (if ok then 2 else 1) (modHand hand (fun x => { x with confirmed := false }) s)
    exact ⟨(congrArg State.mem hframe :), (congrArg State.slots hframe :)⟩

theorem beginTraining_frame (port : Nat) (s : State) : { beginTraining port s with ports := s.ports } = s := by
  unfold beginTraining
  simp only
  split <;> rfl

theorem beginTrainings_frame (f : Nat → Nat) (l : List Nat) (s : State) :
    { l.foldl (fun s i => beginTraining (f i) s) s with ports := s.ports } = s := by
  induction l generalizing s with
  | nil => rfl
  | cons i l ih =>
    exact (congrArg (fun x : State => { x with ports := s.ports }) (ih (beginTraining (f i) s)) :).trans (beginTraining_frame ..)

/-- What a hand's return leaves, and what it makes of the hand. -/
theorem handBack_hand (hhand : hand < 2) (o : StartObs) (s : State) :
    (handBack hand o s).slots = s.slots ∧ (handBack hand o s).mem = s.mem ∧ (getHand (handBack hand o s) hand).mode = .running ∧
      (getHand (handBack hand o s) hand).tempo = 0 ∧ (getHand (handBack hand o s) hand).pace = 0 ∧
      (getHand (handBack hand o s) hand).confirmed = (confirmOf o hand && batonAgrees s) := by
  have htuned := handTuned_only hhand o s
  obtain ⟨hmode, htempo, hpace⟩ := handTuned_runs hhand o s
  obtain ⟨hmem, hslots⟩ := confirmBaton_kept hand (confirmOf o hand) (handTuned hand o s)
  have hports := beginTrainings_frame (fun i => 9 * hand + i) (List.range 9)
    (confirmBaton hand (confirmOf o hand) (handTuned hand o s))
  have hback : getHand (handBack hand o s) hand =
      { getHand (handTuned hand o s) hand with confirmed := confirmOf o hand && batonAgrees s } := by
    have hsame : batonAgrees (handTuned hand o s) = batonAgrees s := by rw [batonAgrees, htuned.dev]; rfl
    rw [← hsame, ← confirmBaton_hand, getHand, getHand, handBack, hands_of_ports hports]
  rw [hback]
  refine ⟨?_, ?_, hmode, htempo, hpace, rfl⟩
  · rw [handBack, slots_of_ports hports, hslots, htuned.slots]
  · rw [handBack, mem_of_ports hports, hmem, htuned.mem]

end

/-! ## The obligations -/

/-- Settles O48: a hand confirms the baton by `confirmBaton_confirms`, or the device is Held by `enterHeld_held`. -/
theorem theBatonIsConfirmedOrHeld : Obligations.TheBatonIsConfirmedOrHeld := by
  refine fun s now hrun => ⟨fun hand ok hhand hmode => ?_, fun hmode hlate => ?_⟩
  · refine ⟨_, exec_batonConfirm_running hhand hrun hmode, fun hok hvalid hequal => ?_, fun hmiss => ?_⟩
    · rw [confirmBaton_confirms (s := atTime now s) hok ((batonAgrees_iff _).mpr ⟨hvalid, hequal⟩), getHand_modHand_self]
      exact ⟨rfl, rfl⟩
    · have hno : (ok && batonAgrees (atTime now s)) = false := by
        rw [← Bool.not_eq_true, Bool.and_eq_true, batonAgrees_iff]
        rintro ⟨hok, hvalid, hequal⟩
        rcases hmiss with h | h | h
        · exact Bool.false_ne_true (h.symm.trans hok)
        · exact Bool.false_ne_true (h.symm.trans hvalid)
        · exact h hequal
      refine ⟨by rw [confirmBaton_hand, hno], ?_⟩
      rw [confirmBaton_misses hno]
      exact enterHeld_held (by rcases hrun with h | h; exact .inl h; exact .inr (.inl h)) _
  · refine ⟨_, exec_timekeeperResetTimeout_late hrun hmode hlate, enterHeld_held ?_ 3, (congrArg State.mem (enterHeld_frame ..) :)⟩
    rcases hrun with h | h
    · exact .inl h
    · exact .inr (.inl h)

/-- Settles O49: a fault by `faultHand_quiet`, a return by `handBack_hand` (at T0 without pace, log entry 48), and a measurement by
`retuneMv_between`. -/
theorem handsFaultReturnAndRetune : Obligations.HandsFaultReturnAndRetune := by
  refine ⟨fun s hand hhand => ⟨fun cause now hstarting hstopped hmode hdown hparts => ?_, fun obs hmode hstuck hcool => ?_,
    fun now => ?_⟩, fun s hand hhand => ⟨fun now hstarting hstopped hmode hretuning hinterval hother hfirst => ?_,
    fun obs hretuning => ?_⟩⟩
  · obtain ⟨⟨x, hx⟩, hmem, hslots⟩ := faultHand_quiet (s := atTime now s) (cause := cause) hhand hstarting hstopped hmode hdown hparts
    refine ⟨_, exec_handFault_hand hhand, (congrArg Hand.mode hx :), (congrArg Hand.faultCause hx :),
      (congrArg Hand.confirmed hx :), (congrArg Hand.retuning hx :), (congrArg Hand.since hx :), hmem, hslots, ?_⟩
    rw [show (getHand (faultHand hand cause (atTime now s)) hand).stuck = _ from (congrArg Hand.stuck hx :)]
    exact faultsAgain_iff (atTime now s) hand
  · obtain ⟨hslots, hmem, hmode', htempo, hpace, hconfirmed⟩ := handBack_hand hhand obs s
    refine ⟨_, exec_handRestartDone_back hhand hmode hstuck hcool obs, hslots, hmem, hmode', htempo, hpace, ?_⟩
    rw [hconfirmed, Bool.and_eq_true, batonAgrees_iff]
    rfl
  · obtain ⟨hnone, hrail, hsame⟩ := railed_changing (getHand s hand)
    refine ⟨_, exec_tempoChangeComplete_hand hhand now, ?_⟩
    rw [getHand_modHand_self]
    exact ⟨hnone, hrail, hsame, rfl⟩
  · have hdue : retuneDue (atTime now s) hand = true := by
      have hnow : (getHand (atTime now s) hand).lastRetune + retuneNs (atTime now s) ≤ (atTime now s).ptp.now := hinterval
      have hrun : (getHand (atTime now s) hand).mode = .running ∧ (getHand (atTime now s) hand).retuning = false :=
        ⟨hmode, hretuning⟩
      rw [retuneDue, decide_eq_true hnow, hrun.1, hrun.2]
      rfl
    refine exec_retuneInterval_due hhand hstarting hstopped hdue hother ?_
    rcases hfirst with h | h
    · exact .inl h
    · exact .inr (retuneDue_not h)
  · obtain ⟨w, tenths, htables⟩ := getHand_measured hhand obs (s := s)
    refine ⟨_, exec_ageingMeasurementDone_retuning hhand hretuning obs, (congrArg Hand.retuning htables :),
      (congrArg Hand.retunes htables :), (congrArg Hand.lastRetune htables :), fun i hi => ?_⟩
    rw [show (getHand (measured hand obs s) hand).volts = _ from (congrArg Hand.volts htables :)]
    exact ⟨_, retuned_volts _ _ true w tenths _ _ hi, retuneMv_between hi _⟩

end Sys2Proof.Machine
end

section
/-! A start and the reference clocks (17 R517, 18 R519, R529 to R534, 21 R592; log entries 51 and 78). -/

namespace Sys2Proof.Machine

open Sys2Proof.Safety

/-! ## What the phases of a start keep (R530) -/

/-- The setup image, the anchor, the contexts and the power control stay. -/
structure StartKeeps (s t : State) : Prop where
  setup : t.setup = s.setup
  anchor : t.anchor = s.anchor
  tenants : t.tenants = s.tenants
  pwr : t.pwr = s.pwr

namespace StartKeeps

variable {s t u : State}

theorem refl (s : State) : StartKeeps s s := ⟨rfl, rfl, rfl, rfl⟩

theorem trans (h : StartKeeps s t) (k : StartKeeps t u) : StartKeeps s u :=
  ⟨k.setup.trans h.setup, k.anchor.trans h.anchor, k.tenants.trans h.tenants, k.pwr.trans h.pwr⟩

theorem after (k : StartKeeps t u) (h : StartKeeps s t) : StartKeeps s u := h.trans k

theorem of_handsOnly (h : HandsOnly s t) : StartKeeps s t :=
  ⟨(congrArg State.setup h :), (congrArg State.anchor h :), (congrArg State.tenants h :), (congrArg State.pwr h :)⟩

theorem of_hostOnly (h : HostOnly s t) : StartKeeps s t := of_handsOnly (.of_hostOnly h)

end StartKeeps

theorem startKeeps_modFlt (block : Nat) (f : Flt → Flt) (s : State) : StartKeeps s (modFlt block f s) := by
  unfold modFlt
  split <;> exact ⟨rfl, rfl, rfl, rfl⟩

theorem startKeeps_setPool (i : Nat) (p : Pool) (s : State) : StartKeeps s (setPool s i p) := by
  unfold setPool
  split
  · exact ⟨rfl, rfl, rfl, rfl⟩
  · split <;> exact ⟨rfl, rfl, rfl, rfl⟩

/-- A pool's size is abstracted before its definition is taken apart: the kernel would otherwise count it out. -/
theorem startKeeps_makePool (i tier gib : Nat) (s : State) : StartKeeps s (makePool i tier gib s) := by
  have hbody : ∀ pool, makePool = pool → StartKeeps s (pool i tier gib s) := by
    intro pool hpool
    delta makePool at hpool
    subst hpool
    beta_reduce
    extract_lets size
    clear_value size
    split
    · exact .refl s
    · exact (startKeeps_setPool ..).after ⟨rfl, rfl, rfl, rfl⟩
  exact hbody _ rfl

theorem startKeeps_trainPort (port lanes dev peer : Nat) (s : State) : StartKeeps s (trainPort port lanes dev peer s) := by
  unfold trainPort
  simp only
  split
  · exact ⟨rfl, rfl, rfl, rfl⟩
  · split
    · exact (StartKeeps.of_hostOnly (hostOnly_notice ..)).after ⟨rfl, rfl, rfl, rfl⟩
    · exact ⟨rfl, rfl, rfl, rfl⟩

theorem startKeeps_ethStarted (o : StartObs) (s : State) :
    StartKeeps s (if s.dev.refEth then { s with ethState := ethTrained s o.eth01 o.eth23 } else s) := by
  split <;> exact ⟨rfl, rfl, rfl, rfl⟩

theorem startKeeps_startPorts (o : StartObs) (s : State) : StartKeeps s (startPorts o s) := by
  have htrained : StartKeeps s ((List.range 18).foldl (fun s p =>
      if (topoOf s p).unused then modPort p (fun q => { q with unused := true }) s
      else if !s.dev.refGl then s
      else trainPort p (o.lanes.getD p 0) (o.peers.getD p (0, 0)).1 (o.peers.getD p (0, 0)).2 s) s) :=
    foldl_keeps .refl .trans (fun s p => by
      split
      · exact ⟨rfl, rfl, rfl, rfl⟩
      · split
        · exact .refl s
        · exact startKeeps_trainPort ..) _ s
  unfold startPorts
  simp only
  generalize List.foldl _ s (List.range 18) = v at htrained ⊢
  exact htrained.trans (startKeeps_ethStarted o v)

/-- The hands with their fuses applied and their first retunes (R530 phase 2). -/
def handsStarted (o : StartObs) (s : State) : State :=
  retuneHand 1 o.sensors1 o.volts1 false (retuneHand 0 o.sensors0 o.volts0 false (applyFuses 1 (applyFuses 0 s)))

theorem handsOnly_handsStarted (o : StartObs) (s : State) : HandsOnly s (handsStarted o s) :=
  (((HandsOnly.of_modHand ..).trans (.of_modHand ..)).trans (handsOnly_retuneHand (by decide) ..)).trans
    (handsOnly_retuneHand (by decide) ..)

/-- The tables as a start sets them: the cap, the levels and context 0 (R530, 12 R368; log entry 51). -/
def tablesSet (o : StartObs) (s : State) : State :=
  { handsStarted o s with
    pwr := { capW := orDefault s.setup.settings.capW (orDefault s.setup.settings.capMaxW 960) },
    inq := { levelKib := s.setup.settings.levelIn }, outq := { levelKib := s.setup.settings.levelOut },
    tenants := [(0, { state := .opened, quotas := openQuotas })] }

theorem tablesSet_kept (o : StartObs) (s : State) : (tablesSet o s).setup = s.setup ∧ (tablesSet o s).anchor = s.anchor :=
  have hhands := StartKeeps.of_handsOnly (handsOnly_handsStarted o s)
  have hset : (tablesSet o s).setup = (handsStarted o s).setup ∧ (tablesSet o s).anchor = (handsStarted o s).anchor := by
    simp only [tablesSet, and_self]
  ⟨hset.1.trans hhands.setup, hset.2.trans hhands.anchor⟩

theorem startKeeps_startTables (o : StartObs) (s : State) : StartKeeps (tablesSet o s) (startTables o s) := by
  have htold : StartKeeps (tablesSet o s) (tellMargin 1 o.sensors1 0 (tellMargin 0 o.sensors0 0 (tablesSet o s))) :=
    .of_handsOnly ((tellsHands_tellMargin ..).trans (tellsHands_tellMargin ..)).only
  have hpools := startKeeps_makePool
  unfold startTables
  refine htold.trans ?_
  exact ((startKeeps_modFlt 0 _ _).trans ((startKeeps_modFlt 1 _ _).trans (startKeeps_modFlt 2 _ _))).trans
    ((hpools ..).trans ((hpools ..).trans (hpools ..)))

theorem startKeeps_logSign (s : State) : StartKeeps s (logSign s) :=
  StartKeeps.trans (t := { s with free := s.free + 1 }) ⟨rfl, rfl, rfl, rfl⟩ (.of_hostOnly (hostOnly_logSign s))

theorem startKeeps_logStart (first : Bool) (s : State) : StartKeeps s (logStart first s) :=
  (startKeeps_logSign _).after (.of_hostOnly (hostOnly_logAdd ..))

/-! ## The phases in order (R519, R529, R530) -/

section

variable {s : State} {o : StartObs}

/-- A start as it begins: both inputs are high, and the outcomes of its images are open. -/
def startBegun (s : State) : State :=
  { s with dev := { s.dev with pwrOk := true, resetN := true, cfgOutcome := 0, fwOutcome := 0 } }

/-- The state with staged images taken (R529). -/
def imagesTaken (o : StartObs) (s : State) : State := takeSetup (takeFw o (startBegun s))

/-- The state with a setup image and its anchor in force (R527, R529). -/
def setupTaken (i : SetupImage) (s : State) : State :=
  { s with setup := i, anchor := some (i.setupKeys.filter fun k => !emptyKey k) }

/-- The state after phases 2 to 4, before the baton is granted. -/
def portsStarted (o : StartObs) (i : SetupImage) (s : State) : State :=
  startPorts o (startTables o (logStart s.anchor.isNone (setupTaken i s)))

/-- A failed self-test ends the start (R529). -/
theorem exec_powerUpStart_untested (hstarting : s.dev.starting = true) (hlatch : s.dev.thermLatch = false)
    (hself : o.selfTestOk = false) : exec (.powerUpStart o) s = .next (failStart (startBegun s)) := by
  rw [exec_powerUpStart, execPowerUpStart, if_neg (by simp [hstarting, hlatch])]
  simp only [hself, Bool.not_false, if_true]
  rfl

/-- So does firmware that fails, or a setup bank without an image (R529). -/
theorem exec_powerUpStart_unbooted (hstarting : s.dev.starting = true) (hlatch : s.dev.thermLatch = false)
    (hself : o.selfTestOk = true)
    (hbad : o.activeFwOk = false ∨ setupBank (imagesTaken o s) (bootNow (imagesTaken o s)).cfg = none) :
    exec (.powerUpStart o) s = .next (failStart (imagesTaken o s)) := by
  rw [exec_powerUpStart, execPowerUpStart, if_neg (by simp [hstarting, hlatch])]
  simp only [hself, Bool.not_true, Bool.false_eq_true, if_false]
  cases hfw : o.activeFwOk with
  | false => rfl
  | true =>
    have hnone := hbad.resolve_left (by rw [hfw]; decide)
    unfold imagesTaken startBegun at hnone
    simp only [hnone]
    rfl

/-- With a valid setup image every phase runs (R530). -/
theorem exec_powerUpStart_runs {i : SetupImage} {v : State} (hstarting : s.dev.starting = true)
    (hlatch : s.dev.thermLatch = false) (hself : o.selfTestOk = true) (hfw : o.activeFwOk = true)
    (htaken : imagesTaken o s = v) (hbank : setupBank v (bootNow v).cfg = some i) (hvalid : setupValid v i = true) :
    exec (.powerUpStart o) s = .next (startReady o (atTime ((portsStarted o i v).ptp.now + o.ms * 1000000)
      (portsStarted o i v))) := by
  unfold imagesTaken startBegun at htaken
  rw [exec_powerUpStart, execPowerUpStart, if_neg (by simp [hstarting, hlatch])]
  simp only [hself, hfw, htaken, hbank, hvalid, Bool.not_true, Bool.false_eq_true, if_false]
  rw [portsStarted, setupTaken]

/-- What the phases up to the ports make of the setup image. -/
theorem portsStarted_setup (o : StartObs) (i : SetupImage) (s : State) :
    (portsStarted o i s).setup = i ∧ (portsStarted o i s).anchor = some (i.setupKeys.filter fun k => !emptyKey k) ∧
      ((portsStarted o i s).tenants.getD 0 {}).state = .opened ∧
      (portsStarted o i s).pwr.capW = orDefault i.settings.capW (orDefault i.settings.capMaxW 960) := by
  rw [portsStarted]
  have hlog := startKeeps_logStart s.anchor.isNone (setupTaken i s)
  generalize logStart s.anchor.isNone (setupTaken i s) = v at hlog
  have hlater := (startKeeps_startTables o v).trans (startKeeps_startPorts o (startTables o v))
  obtain ⟨hsetup, hanchor⟩ := tablesSet_kept o v
  have hcap : (tablesSet o v).pwr.capW = orDefault v.setup.settings.capW (orDefault v.setup.settings.capMaxW 960) := rfl
  have htenants : (tablesSet o v).tenants = [(0, { state := .opened, quotas := openQuotas })] := rfl
  refine ⟨hlater.setup.trans (hsetup.trans hlog.setup), hlater.anchor.trans (hanchor.trans hlog.anchor), ?_, ?_⟩
  · rw [hlater.tenants, htenants]
    rfl
  · rw [hlater.pwr, hcap, hlog.setup]
    rfl

theorem startKeeps_atTime (t : Nat) (s : State) : StartKeeps s (atTime t s) := ⟨rfl, rfl, rfl, rfl⟩

/-! ## The baton at a start (R530 to R534, 17 R517) -/

/-- Reading the baton changes the device state at most. -/
theorem confirmBaton_dev (hand : Nat) (ok : Bool) (s : State) :
    { (confirmBaton hand ok s).dev with state := s.dev.state } = s.dev ∧ (confirmBaton hand ok s).setup = s.setup := by
  cases h : ok && batonAgrees s with
  | true =>
    obtain ⟨hok, hagree⟩ := Bool.and_eq_true_iff.mp h
    rw [confirmBaton_confirms hok hagree]
    exact ⟨rfl, rfl⟩
  | false =>
    rw [confirmBaton_misses h]
    have hframe := enterHeld_frame hand (if ok then 2 else 1) (modHand hand (fun x => { x with confirmed := false }) s)
    exact ⟨(congrArg State.dev hframe :), (congrArg State.setup hframe :)⟩

/-- Where the copies agree, a device that starts is Held where a hand gets no answer. -/
theorem confirmBaton_state (hand : Nat) {ok : Bool} {s : State} (hagree : batonAgrees s = true) :
    (ok = true → (confirmBaton hand ok s).dev = s.dev) ∧
      (ok = false → s.dev.state = .starting → (confirmBaton hand ok s).dev.state = .held) := by
  refine ⟨fun hok => by rw [confirmBaton_confirms hok hagree]; rfl, fun hok hstate => ?_⟩
  rw [confirmBaton_misses (by rw [hok]; rfl)]
  refine enterHeld_held ?_ _
  exact .inr (.inr hstate)

/-- A Held device stays Held. -/
theorem confirmBaton_held (hand : Nat) (ok : Bool) {s : State} (hheld : s.dev.state = .held) :
    (confirmBaton hand ok s).dev.state = .held := by
  cases h : ok && batonAgrees s with
  | true =>
    obtain ⟨hok, hagree⟩ := Bool.and_eq_true_iff.mp h
    rw [confirmBaton_confirms hok hagree]
    exact hheld
  | false =>
    rw [confirmBaton_misses h, enterHeld, if_neg (by simp [hheld])]
    exact hheld

/-- The state with the baton granted (R531). -/
def batonGranted (s : State) : State :=
  let b := s.setup.settings.batonPref
  { s with dev := { s.dev with baton := b, batonCopies := (b, b), batonValid := true, starting := false } }

/-- The state with the baton granted and read by both hands. -/
def batonRead (o : StartObs) (s : State) : State :=
  confirmBaton 1 o.confirm1 (confirmBaton 0 o.confirm0 (batonGranted s))

theorem batonGranted_agrees (s : State) : batonAgrees (batonGranted s) = true := by
  simp [batonAgrees, batonGranted]

theorem batonRead_dev (o : StartObs) (s : State) :
    { (batonRead o s).dev with state := s.dev.state } = (batonGranted s).dev ∧ (batonRead o s).setup = s.setup := by
  obtain ⟨hzero, hsetup0⟩ := confirmBaton_dev 0 o.confirm0 (batonGranted s)
  obtain ⟨hone, hsetup1⟩ := confirmBaton_dev 1 o.confirm1 (confirmBaton 0 o.confirm0 (batonGranted s))
  refine ⟨?_, hsetup1.trans hsetup0⟩
  rw [← hzero, ← hone]
  rfl

theorem batonRead_state (hstate : s.dev.state = .starting) :
    (o.confirm0 = true → o.confirm1 = true → (batonRead o s).dev.state = .starting) ∧
      (o.confirm0 = false ∨ o.confirm1 = false → (batonRead o s).dev.state = .held) := by
  have hagree := batonGranted_agrees s
  obtain ⟨hok0, hmiss0⟩ := confirmBaton_state 0 (ok := o.confirm0) hagree
  by_cases hzero : o.confirm0 = true
  · have hdev := hok0 hzero
    have hagree1 : batonAgrees (confirmBaton 0 o.confirm0 (batonGranted s)) = true := by
      rw [batonAgrees, hdev]
      exact hagree
    obtain ⟨hok1, hmiss1⟩ := confirmBaton_state 1 (ok := o.confirm1) hagree1
    refine ⟨fun _ hone => ?_, fun hmiss => ?_⟩
    · rw [batonRead, hok1 hone, hdev]
      exact hstate
    · refine hmiss1 (hmiss.resolve_left fun h => Bool.false_ne_true (h.symm.trans hzero)) ?_
      rw [hdev]
      exact hstate
  · refine ⟨fun h => absurd h hzero, fun _ => ?_⟩
    exact confirmBaton_held 1 o.confirm1 (hmiss0 (by simpa using hzero) hstate)

/-- `READY` leaves the device's own state as it set it. -/
theorem notice_dev (code scope subject bar : Nat) (detail : List Byte) (s : State) :
    (notice code scope subject bar detail s).dev = s.dev := (congrArg State.dev (hostOnly_notice code scope subject bar detail s) :)

/-- What phases 5 and 6 make of the device (R530, R531, R534, 17 R517). -/
theorem startReady_dev (o : StartObs) (s : State) : (startReady o s).dev =
    if (batonRead o s).dev.state = .held then (batonRead o s).dev
    else if (batonRead o s).dev.sealCounter % 2 = 1 then { (batonRead o s).dev with state := .sealed, faultN := false }
    else { (batonRead o s).dev with state := .ready, faultN := false } := by
  have hready : startReady o s = if (batonRead o s).dev.state = .held then batonRead o s
      else if (batonRead o s).dev.sealCounter % 2 = 1
        then { batonRead o s with dev := { (batonRead o s).dev with state := .sealed, faultN := false } }
      else notice 1 0 0 0 (leBytes 1 (batonRead o s).dev.startReason ++ leBytes 1 s.setup.settings.batonPref ++
          leBytes 1 (batonRead o s).dev.cfgOutcome ++ leBytes 1 (batonRead o s).dev.fwOutcome ++ leBytes 4 o.ms ++
          leBytes 4 (portsUp (batonRead o s)) ++ (fitTo 64 (batonRead o s).setup.digest).take 16)
        { batonRead o s with dev := { (batonRead o s).dev with state := .ready, faultN := false } } := rfl
  rw [hready]
  split
  · rfl
  · split
    · rfl
    · exact notice_dev ..

/-- A start grants the baton, and ends in Ready, Sealed or Held. -/
theorem startReady_ends (o : StartObs) {s : State} (hstate : s.dev.state = .starting) :
    (startReady o s).dev.starting = false ∧ (startReady o s).dev.baton = s.setup.settings.batonPref ∧
      (startReady o s).dev.batonValid = true ∧
      (o.confirm0 = true → o.confirm1 = true → s.dev.sealCounter % 2 = 0 →
        (startReady o s).dev.state = .ready ∧ (startReady o s).dev.faultN = false) ∧
      (o.confirm0 = true → o.confirm1 = true → s.dev.sealCounter % 2 = 1 → (startReady o s).dev.state = .sealed) ∧
      (o.confirm0 = false ∨ o.confirm1 = false → (startReady o s).dev.state = .held) := by
  obtain ⟨hread, -⟩ := batonRead_dev o s
  obtain ⟨hboth, hmiss⟩ := batonRead_state (o := o) hstate
  have hseal : (batonRead o s).dev.sealCounter = s.dev.sealCounter := (congrArg Dev.sealCounter hread :)
  have hkept : (startReady o s).dev.starting = (batonRead o s).dev.starting ∧
      (startReady o s).dev.baton = (batonRead o s).dev.baton ∧
      (startReady o s).dev.batonValid = (batonRead o s).dev.batonValid := by
    rw [startReady_dev]
    split
    · exact ⟨rfl, rfl, rfl⟩
    · split <;> exact ⟨rfl, rfl, rfl⟩
  obtain ⟨hstart, hbaton, hvalid⟩ := hkept
  refine ⟨hstart.trans (congrArg Dev.starting hread :), hbaton.trans (congrArg Dev.baton hread :),
    hvalid.trans (congrArg Dev.batonValid hread :), fun h0 h1 heven => ?_, fun h0 h1 hodd => ?_, fun h => ?_⟩
  · rw [startReady_dev, hboth h0 h1, hseal, heven]
    exact ⟨rfl, rfl⟩
  · rw [startReady_dev, hboth h0 h1, hseal, hodd]
    rfl
  · rw [startReady_dev, hmiss h]
    exact hmiss h

end

/-! ## Reference clocks (21 R592; log entry 78) -/

/-- A fold of steps that each change one port finds each port as its own step leaves it. -/
theorem getPort_foldl {f : State → Nat → State} {s : State} {p : Nat} {x : Port}
    (hframe : ∀ t q, { f t q with ports := t.ports } = t) (hother : ∀ t q, p ≠ q → getPort (f t q) p = getPort t p)
    (hhit : ∀ t, { t with ports := s.ports } = s → getPort t p = getPort s p → getPort (f t p) p = x) {l : List Nat}
    (hl : l.Nodup) (hp : p ∈ l) : getPort (l.foldl f s) p = x := by
  have hlate : ∀ (l : List Nat) (t : State), p ∉ l → getPort (l.foldl f t) p = getPort t p := fun l => by
    induction l with
    | nil => exact fun _ _ => rfl
    | cons q l ih =>
      intro t hq
      obtain ⟨hpq, hrest⟩ : p ≠ q ∧ p ∉ l := by simpa using hq
      exact (ih _ hrest).trans (hother t q hpq)
  have hgoes : ∀ (l : List Nat) (t : State), l.Nodup → p ∈ l → { t with ports := s.ports } = s → getPort t p = getPort s p →
      getPort (l.foldl f t) p = x := fun l => by
    induction l with
    | nil => exact fun _ _ h => absurd h List.not_mem_nil
    | cons q l ih =>
      intro t hnodup hmem hsame hport
      obtain ⟨hq, hrest⟩ := List.nodup_cons.mp hnodup
      rcases List.mem_cons.mp hmem with rfl | hmem
      · exact (hlate l _ hq).trans (hhit t hsame hport)
      · have hpq : p ≠ q := fun h => hq (h ▸ hmem)
        refine ih _ hrest hmem ?_ ((hother t q hpq).trans hport)
        rw [← hsame]
        exact (congrArg (fun y : State => { y with ports := s.ports }) (hframe t q) :)
  exact hgoes l s hl hp rfl rfl

section

variable {s : State}

theorem getPort_beginTraining_other {p q : Nat} (h : p ≠ q) (s : State) : getPort (beginTraining q s) p = getPort s p := by
  unfold beginTraining
  simp only
  split
  · rfl
  · exact getPort_modPort_other _ _ _ _ h

/-- The state with the clock of the Grerdo ports back or lost. -/
def glClock (on : Bool) (s : State) : State := { s with dev := { s.dev with refGl := on } }

/-- Ports train again where the clock is back. -/
def portsRetrain (s : State) : State := (List.range 18).foldl (fun s p => beginTraining p s) (glClock true s)

theorem getPort_portsRetrain {p : Nat} (hp : p < 18) (hused : (topoOf s p).unused = false) (hpart : (getPort s p).unused = false)
    (hdown : (getPort s p).isUp = false) (hhand : (getHand s (p / 9)).mode = .running) :
    getPort (portsRetrain s) p = { getPort s p with state := 1 } := by
  refine getPort_foldl (fun t q => beginTraining_frame q t) (fun t q h => getPort_beginTraining_other h t)
    (fun t hsame hport => ?_) List.nodup_range (List.mem_range.mpr hp)
  have htopo : topoOf t p = topoOf s p := congrArg (fun y : SetupImage => y.topology.getD p {}) (congrArg State.setup hsame :)
  have hclock : t.dev.refGl = true := congrArg Dev.refGl (congrArg State.dev hsame :)
  have hrun : getHand t (p / 9) = getHand s (p / 9) := by
    rw [getHand, getHand, show t.hands = s.hands from (congrArg State.hands hsame :)]
  have hsp : getPort t p = getPort s p := hport
  have hfree : ((topoOf t p).unused || (getPort t p).unused || (getPort t p).isUp || !t.dev.refGl ||
      (getHand t (p / 9)).mode != .running) = false := by
    rw [htopo, hsp, hclock, hrun, hused, hpart, hdown, hhand]
    rfl
  unfold beginTraining
  simp only [hfree, Bool.false_eq_true, if_false, getPort_modPort]
  rw [hsp]

/-- Without their clock the ports that are up go down, and the others are idle. -/
def portsUnclocked (l : List Nat) (s : State) : State := l.foldl (fun s p =>
  if (getPort s p).isUp then portDown p s else modPort p (fun q => { q with state := 0 }) s) s

theorem portsUnclocked_down {l : List Nat} (hdown : ∀ p ∈ l, (getPort s p).isUp = false) :
    portsUnclocked l s = l.foldl (fun s p => modPort p (fun q => { q with state := 0 }) s) s := by
  induction l generalizing s with
  | nil => rfl
  | cons p l ih =>
    rw [portsUnclocked, List.foldl_cons, if_neg (by rw [hdown p List.mem_cons_self]; exact Bool.false_ne_true), List.foldl_cons]
    refine ih fun q hq => ?_
    by_cases hqp : q = p
    · subst hqp
      rw [getPort_modPort]
      rfl
    · rw [getPort_modPort_other _ _ _ _ hqp]
      exact hdown q (List.mem_cons_of_mem _ hq)

theorem foldl_modPort_frame (f : Port → Port) (l : List Nat) (s : State) :
    { l.foldl (fun s p => modPort p f s) s with ports := s.ports } = s := by
  induction l generalizing s with
  | nil => rfl
  | cons p l ih => exact (congrArg (fun x : State => { x with ports := s.ports }) (ih (modPort p f s)) :)

/-- Without its clock the host port is down, and a locked timebase is in holdover. -/
theorem exec_refclkLoss_eth_lost : exec (.refclkLoss true true) s = .next { s with
    dev := { s.dev with refEth := false }, ethState := 0,
    ptp := { s.ptp with state := if s.ptp.state = 0 then 0 else 2,
                        holdFrom := if s.ptp.state = 1 then s.ptp.now else s.ptp.holdFrom } } := by
  rw [exec_refclkLoss]
  rfl

/-- The state of the host port as its clock comes back. -/
def ethBack (s : State) : Nat := if ethUp s || s.dev.stopped || s.dev.starting then s.ethState else 1

theorem exec_refclkLoss_eth_back : exec (.refclkLoss true false) s = .next { s with
    dev := { s.dev with refEth := true }, ethState := ethBack s } := by
  rw [exec_refclkLoss]
  rfl

theorem ethBack_training (hstarting : s.dev.starting = false) (hstopped : s.dev.stopped = false)
    (hdown : ¬(ethBack s = 2 ∨ ethBack s = 3)) : ethBack s = 1 := by
  unfold ethBack at *
  rw [hstarting, hstopped, Bool.or_false, Bool.or_false] at *
  split at hdown
  · next hup =>
    refine absurd ?_ hdown
    simpa [ethUp] using hup
  · next hup => rw [if_neg hup]

theorem exec_refclkLoss_gl_back : exec (.refclkLoss false false) s = .next (portsRetrain s) := rfl

theorem exec_refclkLoss_gl_lost :
    exec (.refclkLoss false true) s = .next (portsUnclocked (List.range 18) (glClock false s)) := rfl

/-- Two states that differ in the ports and the device's own state only. -/
theorem dev_of_frame {s t : State} {d : Dev} (h : { t with ports := s.ports } = { s with dev := d }) :
    t.dev = d ∧ { t with dev := s.dev, ports := s.ports } = s :=
  ⟨(congrArg State.dev h :), (congrArg (fun x : State => { x with dev := s.dev }) h :)⟩

theorem portsRetrain_frame (s : State) :
    { portsRetrain s with ports := s.ports } = { s with dev := { s.dev with refGl := true } } :=
  beginTrainings_frame (fun p => p) (List.range 18) (glClock true s)

/-- Where every port is down, a lost clock leaves them idle. -/
theorem portsUnclocked_idle (hdown : ∀ p, p < 18 → (getPort s p).isUp = false) :
    { portsUnclocked (List.range 18) (glClock false s) with ports := s.ports } = { s with dev := { s.dev with refGl := false } } ∧
      ∀ p, p < 18 → getPort (portsUnclocked (List.range 18) (glClock false s)) p = { getPort s p with state := 0 } := by
  rw [portsUnclocked_down (s := glClock false s) (l := List.range 18) fun p hp => hdown p (List.mem_range.mp hp)]
  refine ⟨foldl_modPort_frame (fun q => { q with state := 0 }) (List.range 18) (glClock false s), fun p hp => ?_⟩
  exact getPort_foldl (f := fun s p => modPort p (fun q => { q with state := 0 }) s) (fun _ _ => rfl)
    (fun t q h => getPort_modPort_other _ _ _ _ h) (fun t _ hport => by rw [getPort_modPort, hport]; rfl) List.nodup_range
    (List.mem_range.mpr hp)

end

/-! ## The obligation -/

/-- Settles O47: the phases up to the ports by `portsStarted_setup` (the anchor as a list of setup keys, and context 0 open, log
entry 51), the baton by `startReady_ends`, and a clock's return by `getPort_portsRetrain` (`STATE` 1, log entry 78). -/
theorem startsAndClocksComplete : Obligations.StartsAndClocksComplete := by
  refine ⟨fun s o hstarting hlatch => ⟨exec_powerUpStart_untested hstarting hlatch,
    exec_powerUpStart_unbooted hstarting hlatch, fun i hself hfw hbank hvalid => ?_,
    fun u hstate => startReady_ends o hstate⟩, fun s => ⟨?_, ?_, ?_, exec_refclkLoss_gl_lost,
    fun hdown => ⟨_, exec_refclkLoss_gl_lost, portsUnclocked_idle hdown⟩⟩⟩
  · refine ⟨_, exec_powerUpStart_runs hstarting hlatch hself hfw rfl hbank hvalid, ?_⟩
    obtain ⟨hsetup, hanchor, htenants, hcap⟩ := portsStarted_setup o i (imagesTaken o s)
    have hlater := startKeeps_atTime ((portsStarted o i (imagesTaken o s)).ptp.now + o.ms * 1000000)
      (portsStarted o i (imagesTaken o s))
    exact ⟨hlater.setup.trans hsetup, hlater.anchor.trans hanchor, by rw [hlater.tenants]; exact htenants,
      by rw [hlater.pwr]; exact hcap⟩
  · exact ⟨_, exec_refclkLoss_eth_lost, rfl, rfl, rfl, rfl⟩
  · refine ⟨_, exec_refclkLoss_eth_back, rfl, rfl, fun hstarting hstopped hdown => ethBack_training hstarting hstopped ?_⟩
    simpa [ethUp] using hdown
  · have hframe := portsRetrain_frame s
    obtain ⟨hdev, hrest⟩ := dev_of_frame hframe
    exact ⟨_, exec_refclkLoss_gl_back, hdev, hrest,
      fun p hp hused hpart hdown hhand => getPort_portsRetrain hp hused hpart hdown hhand⟩

end Sys2Proof.Machine
end

section
/-! The control window (19 R541 to R543, R547). -/

namespace Sys2Proof.Machine

open Sys2Proof.Safety

/-! ## The end of a window (R541, R542) -/

section

variable {s : State}

/-- A cap that waited takes effect, and its command completes (R541). -/
def capTaken (s : State) (c : Nat × Wait) : State :=
  complete c.2 cOk 0 [] (logChange c.2 0xFF 0 (leBytes 2 c.1) { s with pwr := { s.pwr with capW := c.1 } })

theorem pwr_of_hostOnly {s t : State} (h : HostOnly s t) : t.pwr = s.pwr := (congrArg State.pwr h :)

theorem capTaken_pwr (s : State) (c : Nat × Wait) : (capTaken s c).pwr = { s.pwr with capW := c.1 } :=
  (pwr_of_hostOnly (hostOnly_complete ..)).trans (pwr_of_hostOnly (hostOnly_logChange ..))

/-- The last cap that waited is in force. -/
theorem foldl_capTaken_pwr (l : List (Nat × Wait)) (s : State) :
    (l.foldl capTaken s).pwr = { s.pwr with capW := ((l.getLast?).map (·.1)).getD s.pwr.capW } := by
  induction l generalizing s with
  | nil => rfl
  | cons c l ih =>
    rw [List.foldl_cons, ih, capTaken_pwr, List.getLast?_cons]
    cases l.getLast? <;> rfl

theorem monSample_pwr (block inst x : Nat) (s : State) : (monSample block inst x s).pwr = s.pwr := by
  rw [monSample_frame]

/-- A running hand's power is sampled. -/
theorem handSampled_pwr (c : Prop) [Decidable c] (block inst x : Nat) (s : State) :
    (if c then monSample block inst x s else s).pwr = s.pwr := by
  split
  · exact monSample_pwr ..
  · rfl

/-- The readings of a window stand with those of the nine before it, and the cap in force is the last that waited. -/
theorem exec_powerControlWindow_reads (now mean hand0 hand1 volts : Nat) (hstarting : s.dev.starting = false)
    (hstopped : s.dev.stopped = false) : ∃ u, exec (.powerControlWindow now mean hand0 hand1 volts) s = .next (controlStep mean u) ∧
      u.pwr.wins = lastTen s.pwr.wins mean ∧ u.pwr.wins0 = lastTen s.pwr.wins0 hand0 ∧
      u.pwr.wins1 = lastTen s.pwr.wins1 hand1 ∧ u.pwr.inputDv = volts / 10 ∧ u.pwr.nextCaps = [] ∧
      u.pwr.capW = ((s.pwr.nextCaps.getLast?).map (·.1)).getD s.pwr.capW ∧
      u.pwr.overs = (if u.pwr.capW * 10 < mean then satAt 0xFF (s.pwr.overs + 1) else s.pwr.overs) := by
  have hcaps := foldl_capTaken_pwr s.pwr.nextCaps (atTime now s)
  have hrun : ¬((atTime now s).dev.starting || (atTime now s).dev.stopped) = true := by simp [hstarting, hstopped]
  unfold capTaken at hcaps
  rw [exec_powerControlWindow, execPowerControlWindow]
  refine ⟨_, if_neg hrun, ?_⟩
  simp only [handSampled_pwr, monSample_pwr, nextFree, hcaps, atTime_pwr, and_self]

end

/-! ## Tempo and pace (R540, R543) -/

section

variable (h tempo pace : Nat) (s : State)

/-- A hand at a tempo and pace differs from before in these, in its count of changes, and in what changes. -/
theorem getHand_setTempo : let x := getHand s h
    { getHand (setTempo h tempo pace s) h with changes := x.changes, changing := x.changing } = { x with tempo, pace } := by
  unfold setTempo
  simp only
  split
  · next hsame =>
    obtain ⟨htempo, hpace⟩ : (getHand s h).tempo = tempo ∧ (getHand s h).pace = pace := by simpa using hsame
    rw [← htempo, ← hpace]
  · rw [getHand_modHand_self]

theorem getHand_setTempo_other {k : Nat} (hk : ¬((h = 0) = (k = 0))) : getHand (setTempo h tempo pace s) k = getHand s k := by
  unfold setTempo
  simp only
  split
  · rfl
  · rw [getHand_modHand, if_neg hk]

theorem setTempo_frame : { setTempo h tempo pace s with hands := s.hands } = s := by
  unfold setTempo
  simp only
  split <;> rfl

end

section

variable {h : Nat} {s : State}

/-- A running hand goes one tempo down, and at T0 one pace up (R543). -/
def LowerStep (x y : Hand) : Prop :=
  (0 < x.tempo → y.tempo = x.tempo - 1 ∧ y.pace = x.pace) ∧ (x.tempo = 0 → y.tempo = 0 ∧ y.pace = min (x.pace + 1) 7)

theorem getHand_lowerHand (hmode : (getHand s h).mode = .running) : LowerStep (getHand s h) (getHand (lowerHand h s) h) := by
  unfold lowerHand
  simp only [hmode, bne_self_eq_false, Bool.false_eq_true, if_false]
  split
  · next hpos =>
    have hset := getHand_setTempo h ((getHand s h).tempo - 1) (getHand s h).pace { s with pwr := { s.pwr with last := s.ptp.now } }
    exact ⟨fun _ => ⟨(congrArg Hand.tempo hset :), (congrArg Hand.pace hset :)⟩, fun hzero => absurd hzero (Nat.ne_of_gt hpos)⟩
  · next hzero =>
    have hset := getHand_setTempo h 0 (min ((getHand s h).pace + 1) 7) { s with pwr := { s.pwr with last := s.ptp.now } }
    exact ⟨fun hpos => absurd hpos hzero, fun _ => ⟨(congrArg Hand.tempo hset :), (congrArg Hand.pace hset :)⟩⟩

theorem getHand_lowerHand_other {k : Nat} (hk : ¬((h = 0) = (k = 0))) : getHand (lowerHand h s) k = getHand s k := by
  unfold lowerHand
  simp only
  split
  · rfl
  · split <;> exact getHand_setTempo_other _ _ _ _ hk

/-- Both hands are lowered in one window. -/
theorem getHand_lowerBoth (hrun : ∀ h, h < 2 → (getHand s h).mode = .running) (hh : h < 2) :
    LowerStep (getHand s h) (getHand (lowerHand 1 (lowerHand 0 s)) h) := by
  have hone : getHand (lowerHand 0 s) 1 = getHand s 1 := getHand_lowerHand_other (by decide)
  obtain rfl | rfl : h = 0 ∨ h = 1 := by omega
  · rw [getHand_lowerHand_other (by decide)]
    exact getHand_lowerHand (hrun 0 hh)
  · have hlow := getHand_lowerHand (s := lowerHand 0 s) (h := 1) (by rw [hone]; exact hrun 1 hh)
    rwa [hone] at hlow

/-- Above 1.05 times the cap both hands are lowered, and the control step holds for 1 ms (R543). -/
theorem controlStep_over {mean : Nat} (hover : 21 * s.pwr.capW < 2 * mean) : controlStep mean s =
    { lowerHand 1 (lowerHand 0 s) with pwr := { (lowerHand 1 (lowerHand 0 s)).pwr with hold := s.ptp.now + 1000000 } } :=
  if_pos hover

/-- Within the cap, with isolation off, 10 ms after the last change, the first hand in order that may be raised is (R543). -/
theorem controlStep_raises {mean : Nat} (hiso : s.setup.settings.isoOff = true) (hcap : 2 * mean ≤ 21 * s.pwr.capW)
    (hmean : sumNat s.pwr.wins ≤ s.pwr.capW * 10 * s.pwr.wins.length) (hhold : s.pwr.hold ≤ s.ptp.now)
    (hlast : s.pwr.last + 10000000 ≤ s.ptp.now) (hfind : (if (getHand s 1).tempo < (getHand s 0).tempo then [1, 0] else [0, 1]).find?
      (fun h => mayRaise (getHand s h) (sumNat s.pwr.wins) (if h = 0 then sumNat s.pwr.wins0 else sumNat s.pwr.wins1)
        s.pwr.wins.length s.pwr.capW) = some h) : controlStep mean s = raiseHand h s := by
  have hbelow : ¬(decide (s.pwr.hold ≤ s.ptp.now) && decide (s.pwr.capW * 10 * s.pwr.wins.length < sumNat s.pwr.wins)) = true := by
    simp [Nat.not_lt.mpr hmean]
  have hdue : (decide (s.pwr.hold ≤ s.ptp.now) && decide (s.pwr.last + 10000000 ≤ s.ptp.now)) = true := by simp [hhold, hlast]
  unfold controlStep
  simp only [hiso, Bool.not_true, Bool.false_eq_true, if_false, if_neg (Nat.not_lt.mpr hcap), if_neg hbelow, if_pos hdue, hfind]

/-- The hand of the lower tempo comes first. -/
theorem raise_order {p : Nat → Bool} (hp : p h = true) (hh : h < 2)
    (hzero : h = 0 → (getHand s 1).tempo < (getHand s 0).tempo → p 1 = false)
    (hone : h = 1 → (getHand s 0).tempo ≤ (getHand s 1).tempo → p 0 = false) :
    (if (getHand s 1).tempo < (getHand s 0).tempo then [1, 0] else [0, 1]).find? p = some h := by
  obtain rfl | rfl : h = 0 ∨ h = 1 := by omega
  · split
    · next hlow => rw [List.find?_cons_of_neg (by rw [hzero rfl hlow]; decide), List.find?_cons_of_pos hp]
    · rw [List.find?_cons_of_pos hp]
  · split
    · rw [List.find?_cons_of_pos hp]
    · next hhigh => rw [List.find?_cons_of_neg (by rw [hone rfl (Nat.not_lt.mp hhigh)]; decide), List.find?_cons_of_pos hp]

end

/-! ## The obligation -/

/-- Settles O50: the window's readings by `exec_powerControlWindow_reads`, the lowering by `getHand_lowerBoth`, and the raising by
`raise_order`. -/
theorem controlWindowsHoldTheCap : Obligations.ControlWindowsHoldTheCap := by
  refine ⟨fun s now mean hand0 hand1 volts hstarting hstopped =>
    exec_powerControlWindow_reads now mean hand0 hand1 volts hstarting hstopped, fun s mean hover hrun => ?_,
    fun s mean h hraise hh hiso hcap hmean hhold hlast hzero hone => ?_⟩
  · rw [controlStep_over hover]
    exact ⟨rfl, fun h hh => getHand_lowerBoth hrun hh⟩
  · refine controlStep_raises hiso hcap hmean hhold hlast (raise_order ?_ hh ?_ ?_)
    · rw [← hraise]
      split <;> rfl
    · exact hzero
    · exact hone

end Sys2Proof.Machine
end

section
/-! Readings, samples and the timers of the change log (19 R546, R549, R550, 21 R590, 17 R507, R508, R516). -/

namespace Sys2Proof.Machine

open Sys2Proof.Safety

/-! ## A junction's reading (R546, R590) -/

section

variable {hand : Nat} {s : State}

/-- The hottest junction of a hand, in whole °C. -/
def hottestOf (temps : Table Nat) : Nat := (temps.map (·.2)).foldl max 0 / 16

/-- The highest tempo at a temperature (R546). -/
def tempoCeil (hot : Nat) : Nat := if hot < 95 then 7 else if hot < 100 then 2 else 0

/-- A hand with a junction's reading. -/
def Hand.reads (sensor temp : Nat) (x : Hand) : Hand :=
  let temps := x.temps.put sensor temp
  { x with temps, hotC := satAt 0x1FF (hottestOf temps), ceil := tempoCeil (hottestOf temps) }

/-- A hand above its ceiling or below its pace's floor is lowered at once (R546). -/
def heldBelow (hand : Nat) (s : State) : State :=
  let y := getHand s hand
  if y.ceil < y.tempo || y.pace < paceFloor y then
    setTempo hand (min y.tempo y.ceil) (max y.pace (paceFloor y)) { s with pwr := { s.pwr with last := s.ptp.now } }
  else s

/-- `THERM_N` follows the hottest junction of both hands (R590). -/
def thermLow (s : State) : Bool :=
  let hottest := max s.hands.1.hotC s.hands.2.hotC
  s.dev.thermLatch || decide (100 ≤ hottest) || (s.dev.thermN && decide (95 ≤ hottest))

def thermFollows (s : State) : State := { s with dev := { s.dev with thermN := thermLow s } }

/-- Below 105 °C a reading only lowers its hand. -/
theorem exec_junctionTemperatureSample_cool {sensor temp now : Nat} (hhand : hand < 2)
    (hcool : hottestOf ((getHand s hand).temps.put sensor temp) < 105) :
    exec (.junctionTemperatureSample hand sensor temp now) s =
      .next (thermFollows (heldBelow hand (modHand hand (Hand.reads sensor temp) (atTime now s)))) := by
  have hread : heldBelow hand (modHand hand (Hand.reads sensor temp) (atTime now s)) =
      heldBelow hand (modHand hand (fun x => { x with
        temps := (getHand (atTime now s) hand).temps.put sensor temp
        hotC := satAt 0x1FF (hottestOf ((getHand (atTime now s) hand).temps.put sensor temp))
        ceil := tempoCeil (hottestOf ((getHand (atTime now s) hand).temps.put sensor temp)) }) (atTime now s)) := by
    unfold modHand getHand Hand.reads
    split <;> rfl
  rw [hread, exec_junctionTemperatureSample, execJunctionTemperatureSample, if_neg (Nat.not_le.mpr hhand)]
  simp only [heldBelow, getHand_modHand_self]
  exact congrArg Host.Outcome.next (if_neg (Nat.not_le.mpr hcool))

/-- A hand held below its ceiling and above its pace's floor, with its temperatures as before. -/
theorem getHand_heldBelow (hand : Nat) (s : State) : let x := getHand s hand
    let y := getHand (heldBelow hand s) hand
    y.temps = x.temps ∧ y.hotC = x.hotC ∧ y.ceil = x.ceil ∧ y.tempo ≤ x.ceil ∧ paceFloor x ≤ y.pace := by
  unfold heldBelow
  simp only
  split
  · have hset := getHand_setTempo hand (min (getHand s hand).tempo (getHand s hand).ceil)
      (max (getHand s hand).pace (paceFloor (getHand s hand))) { s with pwr := { s.pwr with last := s.ptp.now } }
    exact ⟨(congrArg Hand.temps hset :), (congrArg Hand.hotC hset :), (congrArg Hand.ceil hset :),
      (congrArg Hand.tempo hset :).trans_le (Nat.min_le_right ..), (Nat.le_max_right ..).trans_eq (congrArg Hand.pace hset :).symm⟩
  · next hwithin =>
    obtain ⟨htempo, hpace⟩ : (getHand s hand).tempo ≤ (getHand s hand).ceil ∧
      paceFloor (getHand s hand) ≤ (getHand s hand).pace := by simpa using hwithin
    exact ⟨rfl, rfl, rfl, htempo, hpace⟩

theorem heldBelow_frame (hand : Nat) (s : State) : { heldBelow hand s with hands := s.hands, pwr := s.pwr } = s := by
  unfold heldBelow
  simp only
  split
  · have hset := setTempo_frame hand (min (getHand s hand).tempo (getHand s hand).ceil)
      (max (getHand s hand).pace (paceFloor (getHand s hand))) { s with pwr := { s.pwr with last := s.ptp.now } }
    exact (congrArg (fun x : State => { x with pwr := s.pwr }) hset :)
  · rfl

/-- What a reading below 105 °C makes of its hand (R546). -/
theorem getHand_read {sensor temp : Nat} (hcool : hottestOf ((getHand s hand).temps.put sensor temp) < 105) (now : Nat) :
    let temps := (getHand s hand).temps.put sensor temp
    let y := getHand (heldBelow hand (modHand hand (Hand.reads sensor temp) (atTime now s))) hand
    y.temps = temps ∧ y.hotC = hottestOf temps ∧ y.ceil = tempoCeil (hottestOf temps) ∧ y.tempo ≤ y.ceil ∧
      (100 ≤ hottestOf temps → 4 ≤ y.pace) := by
  have hheld := getHand_heldBelow hand (modHand hand (Hand.reads sensor temp) (atTime now s))
  rw [getHand_modHand_self] at hheld
  obtain ⟨htemps, hhot, hceil, htempo, hpace⟩ := hheld
  have hread : satAt 0x1FF (hottestOf ((getHand s hand).temps.put sensor temp)) = hottestOf ((getHand s hand).temps.put sensor temp) :=
    Nat.min_eq_right (by omega)
  have hotC : (Hand.reads sensor temp (getHand s hand)).hotC = hottestOf ((getHand s hand).temps.put sensor temp) := hread
  refine ⟨htemps, hhot.trans hread, hceil, htempo.trans_eq hceil.symm, fun hhigh => ?_⟩
  refine le_trans ?_ hpace
  rw [paceFloor, if_pos]
  exact hhigh.trans_eq hotC.symm

/-- A hand of 100 °C takes `THERM_N` low. -/
theorem thermLow_of_hot (hhand : hand < 2) (hhigh : 100 ≤ (getHand s hand).hotC) : thermLow s = true := by
  have hmax : 100 ≤ max s.hands.1.hotC s.hands.2.hotC := by
    obtain rfl | rfl : hand = 0 ∨ hand = 1 := by omega
    · exact hhigh.trans (Nat.le_max_left ..)
    · exact hhigh.trans (Nat.le_max_right ..)
  simp [thermLow, hmax]

/-- A reading changes the hands, the power control, the time and `THERM_N`. -/
theorem junctionRead_frame (f : Hand → Hand) (now : Nat) :
    { thermFollows (heldBelow hand (modHand hand f (atTime now s))) with
      hands := s.hands, dev := s.dev, pwr := s.pwr, ptp := s.ptp } = s := by
  have hheld := heldBelow_frame hand (modHand hand f (atTime now s))
  generalize heldBelow hand (modHand hand f (atTime now s)) = v at hheld ⊢
  exact (congrArg (fun x : State => { x with hands := s.hands, dev := s.dev, pwr := s.pwr, ptp := s.ptp }) hheld :)

end

/-! ## Periodic samples (R549, R550) -/

section

variable {s : State}

theorem exec_monitorPeriodicSample_takes {block inst value now : Nat} (hblock : block < 3) (hinst : inst < 256)
    (hlive : monLive s block inst = true)
    (hkind : monKind block inst = 5 ∨ monKind block inst = 6 ∨ monKind block inst = 7 ∨ monKind block inst = 8) :
    exec (.monitorPeriodicSample block inst value now) s = .next (monSample block inst value (atTime now s)) := by
  have hlate : monLive (atTime now s) block inst = true := hlive
  have hnot : monKind block inst ≠ 1 := by omega
  have hunits : (decide (3 ≤ block) || decide (256 ≤ inst)) = false := by simp [hblock, hinst]
  have htaken : (decide (monKind block inst = 5) || decide (monKind block inst = 6) || decide (monKind block inst = 7) ||
      decide (monKind block inst = 8)) = true := by
    rcases hkind with h | h | h | h <;> simp [h]
  rw [exec_monitorPeriodicSample, execMonitorPeriodicSample]
  simp only [hunits, hlate, if_neg hnot, htaken, Bool.not_true, Bool.false_eq_true, if_false, if_true]

/-! ## The timers of the change log (17 R507, R508, R516) -/

/-- Without a run of refusals nothing is written for one. -/
theorem logRefusals_none (h : s.refuseRuns = []) : logRefusals s = s := by
  rw [logRefusals, h]
  exact (congrArg (fun r => { s with refuseRuns := r }) h.symm :)

theorem exec_logStageFlush_writes (hrefuse : s.refuseRuns = []) (hwait : s.dev.sealWait = none) :
    exec .logStageFlush s = .next { s with logStaged := 0 } := by
  rw [exec_logStageFlush, execLogStageFlush, logRefusals_none hrefuse]
  simp only [hwait]
  split
  · next heq => exact absurd heq (by simp)
  · rfl

/-- A device that was sealing is Sealed, with its seal counter one higher (R516). -/
def sealedNow (s : State) : State :=
  { s with logStaged := 0, dev := { s.dev with state := .sealed, sealCounter := s.dev.sealCounter + 1, sealWait := none } }

theorem exec_logStageFlush_seals {w : Wait} (hrefuse : s.refuseRuns = []) (hstate : s.dev.state = .sealing)
    (hwait : s.dev.sealWait = some w) : exec .logStageFlush s = .next (complete w cOk 0 [] (sealedNow s)) := by
  rw [exec_logStageFlush, execLogStageFlush, logRefusals_none hrefuse]
  simp only [hwait, hstate]
  rfl

/-- The log is due for a signature: 4,096 unsigned entries, or ten seconds since the first (R508). -/
theorem exec_logSignatureTimer_due (hdue : 4096 ≤ s.logUnsigned ∨ ∃ t ∈ s.logSince, t + 10000000000 ≤ s.ptp.now) :
    exec .logSignatureTimer s = .next (logSign s) := by
  rw [exec_logSignatureTimer, execLogSignatureTimer]
  refine if_pos ?_
  rcases hdue with hmany | ⟨t, hsince, hlate⟩
  · simp [hmany]
  · rw [Option.mem_def] at hsince
    simp [hsince, hlate]

theorem logSign_signs (s : State) : ((logSign s).log.getLast?.map (·.kind)) = some 4 ∧ (logSign s).logUnsigned = 0 ∧
    (logSign s).logSince = none := by
  unfold logSign
  simp only [logAdd, logPush_log, List.getLast?_concat]
  exact ⟨rfl, rfl, rfl⟩

theorem exec_verdictRunEntryClose_due {slot : Nat} {v : VerdictRun} (hslot : slot < 128) (hrun : s.verdictRuns.get slot = some v)
    (hdue : 1024 ≤ v.count ∨ v.since + 1000000000 ≤ s.ptp.now) :
    exec (.verdictRunEntryClose slot) s = .next (logCloseRun slot s) := by
  rw [exec_verdictRunEntryClose, execVerdictRunEntryClose, if_neg (Nat.not_le.mpr hslot)]
  simp only [hrun]
  exact congrArg Host.Outcome.next (if_pos (by simpa using hdue))

theorem logAdd_verdictRuns (e : LogEntry) (s : State) : (logAdd e s).verdictRuns = s.verdictRuns :=
  (congrArg State.verdictRuns (hostOnly_logAdd e s) :)

theorem logAdd_last_named (e : LogEntry) (s : State) :
    (logAdd e s).log.getLast?.map (fun e => (e.kind, e.slot, e.bar, e.count)) = some (e.kind, e.slot, e.bar, e.count) := by
  obtain ⟨x, hlast, hkept⟩ := logAdd_last e s
  rw [hlast, hkept]
  rfl

/-- A run that is closed has its entry, and is gathered no more (R507). -/
theorem logCloseRun_closes {slot : Nat} {v : VerdictRun} (hrun : s.verdictRuns.get slot = some v) :
    (logCloseRun slot s).verdictRuns = s.verdictRuns.del slot ∧
      (logCloseRun slot s).log.getLast?.map (fun e => (e.kind, e.slot, e.bar, e.count)) = some (3, slot, v.first, v.count) := by
  unfold logCloseRun
  simp only [hrun]
  exact ⟨logAdd_verdictRuns .., logAdd_last_named ..⟩

end

/-! ## The obligation -/

/-- Settles O51: a junction's reading by `getHand_read`, the signature entry by `logSign_signs`, and the entry of a run of commits by
`logCloseRun_closes`. -/
theorem samplesAndLogTimersComplete : Obligations.SamplesAndLogTimersComplete := by
  refine ⟨⟨fun s hand sensor temp now hhand hcool => ?_, fun s block inst value now hblock hinst hlive hkind =>
    exec_monitorPeriodicSample_takes hblock hinst hlive hkind⟩, fun s => ⟨exec_logStageFlush_writes,
    fun w hrefuse hstate hwait => ⟨sealedNow s, exec_logStageFlush_seals hrefuse hstate hwait, rfl, rfl, rfl, rfl, rfl⟩,
    fun hdue => ⟨_, exec_logSignatureTimer_due hdue, logSign_signs s⟩,
    fun slot v hslot hrun hdue => ⟨_, exec_verdictRunEntryClose_due hslot hrun hdue, logCloseRun_closes hrun⟩⟩⟩
  obtain ⟨htemps, hhot, hceil, htempo, hpace⟩ := getHand_read (s := s) hcool now
  refine ⟨_, exec_junctionTemperatureSample_cool hhand hcool, htemps, hhot, hceil, htempo, hpace, fun hhigh => ?_,
    junctionRead_frame _ now⟩
  exact thermLow_of_hot hhand (hhigh.trans_eq hhot.symm)

end Sys2Proof.Machine
end

section
/-! A job's start, its stop, and its changes (02 R48, R56, 10 R296, 11 R336, R339 to R341, 12 R368, 16 R466, R473, R475, R485; log
entries 58 and 59). -/

namespace Sys2Proof.Machine

open Sys2Proof.Safety

/-! ## What keeps the job of a slot -/

/-- A job of the same start, owner, rank and command. -/
def Job.SameStart (j k : Job) : Prop := k.f = j.f ∧ k.owner = j.owner ∧ k.rank = j.rank ∧ k.w = j.w

/-- The job of a slot stays the one that was started, and the accepted commands stay. -/
structure JobStays (slot : Nat) (s t : State) : Prop where
  job : ∀ j, getJob s slot = some j → ∃ k, getJob t slot = some k ∧ j.SameStart k
  accepted : t.accepted = s.accepted

namespace JobStays

variable {slot : Nat} {s t u : State}

theorem of_same (hslots : t.slots = s.slots) (haccepted : t.accepted = s.accepted) : JobStays slot s t :=
  ⟨fun j hj => ⟨j, by rw [← hj, getJob, getJob, getSlot, getSlot, hslots], rfl, rfl, rfl, rfl⟩, haccepted⟩

theorem refl (s : State) : JobStays slot s s := of_same rfl rfl

theorem trans (h : JobStays slot s t) (k : JobStays slot t u) : JobStays slot s u := by
  refine ⟨fun j hj => ?_, k.accepted.trans h.accepted⟩
  obtain ⟨x, hx, hf, howner, hrank, hw⟩ := h.job j hj
  obtain ⟨y, hy, kf, kowner, krank, kw⟩ := k.job x hx
  exact ⟨y, hy, kf.trans hf, kowner.trans howner, krank.trans hrank, kw.trans hw⟩

theorem after (k : JobStays slot t u) (h : JobStays slot s t) : JobStays slot s u := h.trans k

/-- A change of any job that keeps its start. -/
theorem of_modJob (i : Nat) (f : Job → Job) (s : State)
    (hf : ∀ j : Job, j.SameStart (f j) := by exact fun _ => ⟨rfl, rfl, rfl, rfl⟩) : JobStays slot s (modJob i f s) := by
  refine ⟨fun j hj => ?_, rfl⟩
  by_cases hi : slot = i
  · subst hi
    exact ⟨f j, by rw [getJob_modJob, hj]; rfl, hf j⟩
  · exact ⟨j, by rw [getJob_modJob_other _ _ _ _ hi]; exact hj, rfl, rfl, rfl, rfl⟩

/-- A change of a slot that keeps its job. -/
theorem of_modSlot (f : Slot → Slot) (s : State) (hf : ∀ x : Slot, (f x).job = x.job := by exact fun _ => rfl) :
    JobStays slot s (modSlot slot f s) :=
  ⟨fun j hj => ⟨j, by rw [getJob, getSlot_modSlot, hf]; exact hj, rfl, rfl, rfl, rfl⟩, rfl⟩

theorem foldl {α : Type} {f : State → α → State} (hf : ∀ s a, JobStays slot s (f s a)) (l : List α) (s : State) :
    JobStays slot s (l.foldl f s) := foldl_keeps .refl .trans hf l s

theorem of_tiersOnly (h : TiersOnly s t) : JobStays slot s t := of_same (congrArg State.slots h :) (congrArg State.accepted h :)

theorem of_movesOnly (h : MovesOnly s t) : JobStays slot s t := of_same (congrArg State.slots h :) (congrArg State.accepted h :)

theorem of_hostOnly (h : HostOnly s t) (haccepted : t.accepted = s.accepted) : JobStays slot s t :=
  of_same (congrArg State.slots h :) haccepted

end JobStays

/-! ## What a start does to its slot (R296, R363, R473) -/

section

variable (slot : Nat) (s : State)

/-- A fold over steps that change the cores alone. -/
theorem foldl_coresOnly {α : Type} {f : State → α → State} (hf : ∀ s a, { f s a with cores := s.cores } = s) (l : List α) (s : State) :
    { l.foldl f s with cores := s.cores } = s :=
  foldl_keeps (R := fun s t : State => { t with cores := s.cores } = s) (fun _ => rfl) (fun {a b c} h k => by rw [← h, ← k]) hf l s

/-- Images change the cores alone (R69, R70). -/
theorem loadImages_frame : { loadImages slot s with cores := s.cores } = s := by
  unfold loadImages
  split
  · exact foldl_coresOnly (fun s k => by split <;> rfl) _ s
  · rfl

theorem jobStays_loadImages : JobStays slot s (loadImages slot s) :=
  .of_same (congrArg State.slots (loadImages_frame slot s) :) (congrArg State.accepted (loadImages_frame slot s) :)

theorem jobStays_allocPart (p owner : Nat) (sc : Score) (o : Nat × Nat) : JobStays slot s (allocPart p slot owner sc o s) := by
  unfold allocPart
  extract_lets q cleared placed
  have hcleared : JobStays slot s cleared := .of_same rfl rfl
  have hplaced : JobStays slot cleared placed := .of_modJob ..
  refine (jobStays_loadImages ..).after ?_
  exact (hcleared.trans hplaced).trans (.of_same rfl rfl)

theorem jobStays_layPieces (l : List ((Nat × Nat) × Bool)) (bs : List Byte) : JobStays slot s (layPieces l bs s) := by
  induction l generalizing s bs with
  | nil => exact .refl s
  | cons p l ih =>
    obtain ⟨r, held⟩ := p
    refine (ih ..).after ?_
    cases held with
    | true => exact .of_tiersOnly (storeAt_only ..)
    | false => exact .refl s

theorem jobStays_copyIn (sc : Score) (rank : Nat) (t : TrainEnt) : JobStays slot s (copyIn slot sc rank t s) := by
  unfold copyIn
  split
  · exact .refl s
  · exact jobStays_layPieces ..

theorem jobStays_takeTraining (t : TrainEnt) : JobStays slot s (takeTraining slot t s) := by
  unfold takeTraining
  extract_lets lost
  have hlost : JobStays slot s lost := .foldl (fun s i => .of_modJob ..) ..
  exact hlost.trans (.of_same rfl rfl)

theorem jobStays_startVersions (bar : Nat) (sc : Score) : JobStays slot s (startVersions slot bar sc s) := by
  unfold startVersions
  split
  · exact .refl s
  · exact .of_modJob ..

theorem jobStays_restoreCkpt (sc : Score) (c : Ckpt) : JobStays slot s (restoreCkpt slot sc c s) := by
  unfold restoreCkpt
  refine (JobStays.of_modJob ..).after ?_
  refine (JobStays.foldl (fun s r => ?_) ..).after (.foldl (fun s i => ?_) ..)
  · split
    · exact .of_tiersOnly (storeAt_only ..)
    · exact .refl s
  · split
    · exact .of_tiersOnly (writeTiers_only ..)
    · exact .refl s

theorem jobStays_startPromotions (bar : Nat) (sc : Score) : JobStays slot s (startPromotions slot bar sc s) :=
  .foldl (fun s p => .foldl (fun s d => by
    split
    · exact .refl s
    · exact .foldl (fun s i => .of_movesOnly (movesOnly_askPromotion _ s)) ..) ..) ..

theorem jobStays_logChange (w : Wait) (bar : Nat) (detail : List Byte) : JobStays slot s (logChange w slot bar detail s) :=
  .of_hostOnly (hostOnly_logChange ..) (logAdd_accepted ..)

theorem jobStays_sendEarly (w : Wait) (status kind : Nat) (result : List Byte) : JobStays slot s (sendEarly w status kind result s) :=
  .of_hostOnly (hostOnly_sendEarly ..) (sendCpl_accepted ..)

/-- A fold that may fail keeps what its steps keep, where it ends well. -/
theorem foldl_bind_keeps {R : State → State → Prop} (hrefl : ∀ s, R s s) (htrans : ∀ {s t u}, R s t → R t u → R s u)
    {f : State → Nat → Option State} (hf : ∀ s a t, f s a = some t → R s t) (l : List Nat) {s t : State}
    (h : l.foldl (fun o a => o.bind fun s => f s a) (some s) = some t) : R s t := by
  have hnone : ∀ l : List Nat, l.foldl (fun o a => o.bind fun s => f s a) none = none := fun l => by
    induction l with
    | nil => rfl
    | cons a l ih => exact ih
  induction l generalizing s with
  | nil => exact Option.some.inj h ▸ hrefl s
  | cons a l ih =>
    rw [List.foldl_cons, Option.bind_some] at h
    cases hstep : f s a with
    | none =>
      rw [hstep, hnone] at h
      cases h
    | some u =>
      rw [hstep] at h
      exact htrans (hf s a u hstep) (ih h)

theorem jobStays_addHolding {owner : Nat} {f : StartF} {t : State} (h : addHolding slot owner f s = some t) : JobStays slot s t := by
  unfold addHolding at h
  refine foldl_bind_keeps (R := JobStays slot) .refl .trans (fun s i t hstep => ?_) _ h
  obtain ⟨a, -, rfl⟩ := Option.map_eq_some_iff.mp hstep
  exact .of_same rfl rfl

theorem jobStays_finishStart : JobStays slot s (finishStart slot s) := by
  unfold finishStart
  split
  · next j sc hj hsc =>
    split
    · exact .refl s
    · extract_lets waited filled taken running now promoted drawn place logged
      have hwaited : JobStays slot s waited := .of_modJob ..
      have hfilled : JobStays slot waited filled := by
        simp only [filled]
        split
        · exact jobStays_restoreCkpt ..
        · exact (jobStays_startVersions ..).after (.foldl (fun s t => jobStays_copyIn ..) ..)
      have htaken : JobStays slot filled taken := .of_modJob ..
      have hrunning : JobStays slot taken running := .of_modSlot ..
      have hpromoted : JobStays slot running promoted := jobStays_startPromotions ..
      have hplace : JobStays slot promoted place.2 := by
        simp only [place]
        split <;> exact .of_same rfl rfl
      exact (((((hwaited.trans hfilled).trans htaken).trans hrunning).trans hpromoted).trans hplace).trans
        (JobStays.trans (t := logged) (jobStays_logChange ..) (jobStays_sendEarly ..))
  · exact .refl s

/-- A start leaves the job in its slot with what the command gave it (R296, R473). -/
theorem beginStart_stands (owner : Nat) (w : Wait) (f : StartF) (sc : Score) (place : Option (Nat × Nat × Nat)) (ck : Option Ckpt) :
    (∃ j, getJob (beginStart slot owner w f sc place ck s) slot = some j ∧ j.f = f ∧ j.owner = owner ∧ j.rank = f.rank ∧ j.w = w) ∧
      (beginStart slot owner w f sc place ck s).accepted = s.accepted := by
  unfold beginStart
  extract_lets draws key drawn members j mapped taken standing held placed
  have hdrawn : drawn.accepted = s.accepted := rfl
  have htaken : JobStays slot drawn taken := JobStays.trans (t := mapped) (.of_same rfl rfl) (.foldl (fun s t => jobStays_takeTraining ..) ..)
  have hstanding : getJob standing slot = some j := by
    rw [getJob, getSlot_modSlot]
  have hheld : JobStays slot standing held := by
    simp only [held]
    cases hhold : addHolding slot owner f standing with
    | none => exact .refl standing
    | some t => exact jobStays_addHolding slot standing hhold
  have hplaced : JobStays slot held placed := by
    simp only [placed]
    split
    · exact jobStays_allocPart ..
    · exact .refl held
  have hlater := (hheld.trans hplaced).trans (jobStays_finishStart slot placed)
  obtain ⟨k, hk, hf, howner, hrank, hw⟩ := hlater.job j hstanding
  exact ⟨⟨k, hk, hf, howner, hrank, hw⟩, hlater.accepted.trans (htaken.accepted.trans hdrawn)⟩

end

/-! ## `JOB.START` (R466, R473, R481) -/

section

variable {s : State} {h : Hdr} {snd : Sender} {f : StartF} {sc : Score} {place : Option (Nat × Nat × Nat)}

/-- What a start names suits it: nothing is restored, or a sound checkpoint that suits it (R477). -/
structure RestoreSuits (b : State) (f : StartF) (sc : Score) (digest : List Byte) : Prop where
  named : f.restore = .none ∨ ∃ c, restoreOf b f = some c ∧ c.digestOk = true ∧ ckptSuits b f sc digest c = true
  window : ∀ r ∈ restoreWin f, 0 < r.len

/-- The checks of a start behind its authority (R481). -/
structure StartSuits (b : State) (snd : Sender) (f : StartF) (sc : Score) (place : Option (Nat × Nat × Nat)) : Prop where
  loaded : (getSlot b f.slot).state = .loaded
  extents : startExtentsOk f sc.shards.length = true
  inTier : (startRegions b f.slot (getSlot b f.slot).owner f.rank f sc).all regionInTier = true
  inWindow : (startWins f).all (rangeOk snd) = true
  fed : entriesFed sc f.rank = true
  flags : b.setup.settings.isoOff = true ∨ readsFlags sc = false
  restore : RestoreSuits b f sc (getSlot b f.slot).digest
  ready : trainReady b (getSlot b f.slot).owner f = true
  readable : trainReadable b f = true
  found : PlaceFound f.slot (getSlot b f.slot).owner f.rank f sc place b

theorem RestoreSuits.checks {b : State} {digest : List Byte} (hsuits : RestoreSuits b f sc digest) :
    ((restoreWin f).any fun r => r.len == 0) = false ∧ (!restores f || (restoreOf b f).isSome) = true ∧
      ((restoreOf b f).map (ckptSuits b f sc digest)).getD true = true := by
  obtain ⟨hnamed, hwindow⟩ := hsuits
  have hempty : ((restoreWin f).any fun r => r.len == 0) = false := by
    rw [List.any_eq_false]
    intro r hr
    simp [Nat.ne_of_gt (hwindow r hr)]
  rcases hnamed with hnone | ⟨c, hc, hdigest, hsuit⟩
  · have hck : restoreOf b f = none := by rw [restoreOf, hnone]
    rw [hck, restores, hnone]
    exact ⟨hempty, rfl, rfl⟩
  · rw [hc, Option.isSome_some, Bool.or_true]
    exact ⟨hempty, rfl, hsuit⟩

/-- A start whose checks pass begins, and its key material goes round. -/
theorem startBody_begins {b u : State} {w : Wait} {j : Job} (hsuits : StartSuits b snd f sc place)
    (hu : beginStart f.slot (getSlot b f.slot).owner w f sc place (restoreOf b f) (accept w b) = u)
    (hj : getJob u f.slot = some j) : startBody w snd f sc b =
      .ok (takeHeldColl f.slot (if drawsKey sc j && sc.replicas != 1 then sendKeys f.slot u else u)) := by
  obtain ⟨hwindow, hpresent, hsuit⟩ := hsuits.restore.checks
  have hflags : (b.setup.settings.isoOff || !readsFlags sc) = true := by
    rcases hsuits.flags with h | h <;> simp [h]
  unfold startBody
  simp only [hsuits.extents, hsuits.inTier, hsuits.inWindow, hwindow, hsuits.fed, hflags, hsuits.loaded, hpresent,
    hsuits.ready, hsuit, hsuits.readable, withPlace_found hsuits.found, hu, hj, Bool.and_self, BEq.rfl, require_true, content_true,
    Bool.false_eq_true, if_false]
  rcases hsuits.restore.named with hnone | ⟨c, hc, hdigest, -⟩
  · have hck : restoreOf b f = none := by rw [restoreOf, hnone]
    simp only [hnone, hck, content_true]
  · cases hr : f.restore with
    | none => simp only [hc, hdigest, content_true]
    | store id => simp only [hc, hdigest, content_true]
    | window r x =>
      obtain rfl : x = some c := by rwa [restoreOf, hr] at hc
      simp only [hc, hdigest, content_true]

/-- What a start that goes through leaves (R466, R473). -/
def StartLeaves (s u : State) (h : Hdr) (w : Wait) (f : StartF) (sc : Score) : Prop :=
  ∃ j, getJob u f.slot = some j ∧ j.f = f ∧ j.owner = (getSlot s f.slot).owner ∧ j.rank = f.rank ∧ j.w = w ∧ w ∈ u.accepted ∧
    exec (.jobStart h f) s = .next (takeHeldColl f.slot (if drawsKey sc j && sc.replicas != 1 then sendKeys f.slot u else u))

theorem exec_jobStart_begins (hacc : Accepts s h 0x0203 .holder false (.jobStart { h with win := 2 } f) snd)
    (hsc : (getSlot s f.slot).score = some sc) (hauth : slotAuth snd (takeCmd h s) f.slot = true)
    (htrain : trainAuth (takeCmd h s) snd f = true) (hrestore : restoreAuth (takeCmd h s) snd f = true)
    (hfields : startFieldsOk f (some sc.replicas) = true) (hlen : (startWins f).all rangeLen = true)
    (hsuits : StartSuits (takeCmd h s) snd f sc place) :
    StartLeaves s (beginStart f.slot (getSlot s f.slot).owner (waitOf s h 0x0203 snd) f sc place (restoreOf (takeCmd h s) f)
      (admitted (waitOf s h 0x0203 snd) (takeCmd h s))) h (waitOf s h 0x0203 snd) f sc := by
  obtain ⟨⟨j, hj, hf, howner, hrank, hw⟩, haccepted⟩ := beginStart_stands f.slot
    (admitted (waitOf s h 0x0203 snd) (takeCmd h s)) (getSlot s f.slot).owner (waitOf s h 0x0203 snd) f sc place
    (restoreOf (takeCmd h s) f)
  refine ⟨j, hj, hf, howner, hrank, hw, ?_, ?_⟩
  · rw [haccepted]
    exact List.mem_append_right _ (List.mem_singleton_self _)
  · rw [exec_jobStart, execJobStart]
    refine command_ok hacc ?_
    simp only [getSlot_takeCmd, hsc, hauth, htrain, hrestore, hlen, Option.map_some, hfields, Bool.and_self, require_true]
    refine startBody_begins hsuits ?_ hj
    rw [accept_taken hacc, getSlot_takeCmd]

end

/-! ## `JOB.STOP`, `JOB.RESHARD` and `JOB.ADMIT` (R336, R339 to R341, R475, R485) -/

section

variable {s : State} {h : Hdr} {snd : Sender} {slot : Nat} {j : Job} {sc : Score}

/-- Changes that agree on the job of a slot are one. -/
theorem modJob_agree {f g : Job → Job} (hj : getJob s slot = some j) (hfg : f j = g j) : modJob slot f s = modJob slot g s := by
  have hjob : (getSlot s slot).job = some j := hj
  simp only [modJob, modSlot, hjob, Option.map_some, hfg]

/-- A stop is recorded and applied by the slot's state (R475, R485). -/
theorem exec_jobStop_applies {mode after : Nat} {ckpt : Bool}
    (hacc : Accepts s h 0x0204 .holderOrControl false (.jobStop h slot mode after ckpt) snd) (hslot : slot < 128)
    (hj : getJob s slot = some j) (hmode : mode ≤ 2) (hauth : (snd.control || slotAuth snd (takeCmd h s) slot) = true)
    (hlate : mode = 1 → ∀ n, newestOpened j = some n → n ≤ after)
    (hkeyed : (getSlot s slot).state ≠ .starting ∨ j.keyed = false) :
    exec (.jobStop h slot mode after ckpt) s = .next (applyStop slot mode (modJob slot (fun j => { j with
      stops := j.stops ++ [⟨waitOf s h 0x0204 snd, mode, stopAfter j mode after, ckpt⟩] })
      (admitted (waitOf s h 0x0204 snd) (takeCmd h s)))) := by
  have hstate : ((getSlot s slot).state != .starting || !j.keyed) = true := by
    rcases hkeyed with h | h <;> simp [h]
  rw [exec_jobStop, execJobStop]
  refine command_ok hacc ?_
  simp only [hauth, hmode, hslot, getJob_takeCmd, hj, getSlot_takeCmd, hstate, accept_taken hacc, decide_true, require_true, Bool.and_true]
  have hstands : getJob (admitted (waitOf s h 0x0204 snd) (takeCmd h s)) slot = some j := (getJob_takeCmd ..).trans hj
  cases hn : newestOpened j with
  | none =>
    simp only [Bool.and_false, Bool.not_false, require_true]
    exact congrArg (fun u => Except.ok (applyStop slot mode u)) (modJob_agree hstands rfl)
  | some n =>
    have hdue : (mode == 1 && decide (after < n)) = false := by
      rw [Bool.and_eq_false_iff]
      by_cases hone : mode = 1
      · exact .inr (decide_eq_false (Nat.not_lt.mpr (hlate hone n hn)))
      · exact .inl (beq_false_of_ne hone)
    simp only [hdue, Bool.not_false, require_true]
    exact congrArg (fun u => Except.ok (applyStop slot mode u)) (modJob_agree hstands rfl)

/-- A job that is re-sharding (R340). -/
theorem getJob_resharding {w : Wait} {x : Reshard} {t : State} (hj : getJob t slot = some j) :
    getJob (modSlot slot (fun sl => { sl with state := .resharding }) (modJob slot (fun j => { j with reshard := some x })
      (admitted w t))) slot = some { j with reshard := some x } := by
  have hstands : getJob (admitted w t) slot = some j := hj
  rw [getJob, getSlot_modSlot]
  exact (getJob_modJob ..).trans (by rw [hstands]; rfl)

/-- A member of the old layout begins the re-sharding, now, or with the bar that is open (R340, R341). -/
theorem exec_jobReshard_member {new : Nat} {sc' : Score} {forced : Bool} {map : List (Nat × Nat × List Byte)} {tables : Option JobTables}
    (hacc : Accepts s h 0x0207 .control false (.jobReshard h slot new forced map tables) snd) (hslot : slot < 128)
    (hj : getJob s slot = some j) (hsc : (getSlot s slot).score = some sc) (hnew : new < 128)
    (hsc' : (getSlot s new).score = some sc') (hcompatible : compatible sc sc' = true)
    (hstate : (getSlot s slot).state = .running) (hloaded : (getSlot s new).state = .loaded)
    (hfits : ∀ r, newRank (takeCmd h s) j.rank map sc' = some r → reshardFits (takeCmd h s) slot j r new sc' = true) :
    let v := modSlot slot (fun sl => { sl with state := .resharding })
      (modJob slot (fun j => { j with reshard := some { w := waitOf s h 0x0207 snd, new, map } })
        (admitted (waitOf s h 0x0207 snd) (takeCmd h s)))
    exec (.jobReshard h slot new forced map tables) s = .next (
      if forced then beginReshard slot (dropRuns slot (abortForced slot v))
      else if j.cur = none ∧ j.runs = 0 then beginReshard slot v else v) := by
  rw [exec_jobReshard, execJobReshard]
  refine command_ok hacc ?_
  have hj' : (getSlot s slot).job = some j := hj
  have hroom : (((newRank (takeCmd h s) j.rank map sc').map fun r => reshardFits (takeCmd h s) slot j r new sc').getD true) = true := by
    cases hrank : newRank (takeCmd h s) j.rank map sc' with
    | none => rfl
    | some r => exact hfits r hrank
  have hidle : (j.cur.isNone && j.runs == 0) = decide (j.cur = none ∧ j.runs = 0) := by
    rw [Bool.eq_iff_iff]
    simp
  simp only [getSlot_takeCmd, getJob_takeCmd, hsc, hsc', hj, hj', hslot, hnew, hcompatible, reshardMember, hstate, hloaded, hroom,
    decide_true, Bool.and_self, BEq.rfl, require_true, content_true, accept_taken hacc]
  simp only [getJob_resharding ((getJob_takeCmd ..).trans hj), hidle, decide_eq_true_eq]

/-- The lowest member left draws the link key of an admission. -/
def memberDraws (sc : Score) (j : Job) (rank : Nat) : Bool :=
  match (List.range sc.replicas).find? fun r => r != rank && !j.lost.contains r with
  | some r => r == j.rank
  | none => false

/-- A member begins the admission (R336). -/
theorem exec_jobAdmit_member {rank epoch device : Nat} {ident : List Byte} {tables : Option JobTables}
    (hacc : Accepts s h 0x0206 .control false (.jobAdmit h slot rank epoch device ident tables) snd) (hslot : slot < 128)
    (hj : getJob s slot = some j) (hsc : (getSlot s slot).score = some sc)
    (hother : device ≠ s.setup.deviceId ∨ ident ≠ shake256 16 s.dev.idKey)
    (hstate : (getSlot s slot).state = .running ∨ (getSlot s slot).state = .awaiting) (hcur : j.cur = none)
    (hahead : j.ahead = none) (hlost : rank ∈ j.lost) (hepoch : epoch = j.epoch + 1) (hadmission : j.admission = none) :
    exec (.jobAdmit h slot rank epoch device ident tables) s = .next (keysAround slot (memberDraws sc j rank)
      (beginMember slot rank epoch device ident (waitOf s h 0x0206 snd) sc (admitted (waitOf s h 0x0206 snd) (takeCmd h s)))) := by
  have hnot : (device == s.setup.deviceId && ident == shake256 16 s.dev.idKey) = false := by
    rw [Bool.and_eq_false_iff]
    exact hother.imp beq_false_of_ne beq_false_of_ne
  have hj' : (getSlot s slot).job = some j := hj
  have hrun : ((getSlot s slot).state == .running || (getSlot s slot).state == .awaiting) = true := by
    rcases hstate with h | h <;> rw [h] <;> rfl
  have hmay : (j.cur.isNone && j.ahead.isNone && j.lost.contains rank && epoch == j.epoch + 1 && j.admission.isNone) = true := by
    simp [hcur, hahead, hlost, hepoch, hadmission]
  rw [exec_jobAdmit, execJobAdmit]
  refine command_ok hacc ?_
  simp only [hslot, takeCmd_setup, takeCmd_dev, hnot, admitMember, getSlot_takeCmd, hsc, hj', hrun, Bool.true_and, hmay, decide_true,
    require_true, Bool.false_eq_true, if_false, accept_taken hacc]
  rfl

end

/-! ## `JOB.BIND` (02 R56) -/

section

variable {s : State} {h : Hdr} {snd : Sender} {slot part : Nat} {j : Job} {sc : Score}

theorem slots_of_cores {t : State} (h : { t with cores := s.cores } = s) : t.slots = s.slots ∧ t.parts = s.parts :=
  ⟨(congrArg State.slots h :), (congrArg State.parts h :)⟩

/-- A ghost that is bound stands on its partition, and its job runs, or stops where a stop waited (R56, R473). -/
theorem bindGhost_binds (hj : getJob s slot = some j) (part : Nat) (sc : Score) : let u := bindGhost slot part sc s
    (getPart u part).ghost = some slot ∧ (getJob u slot).bind (·.part) = some part ∧
      (getSlot u slot).state = if j.stops.isEmpty then .running else .stopping := by
  unfold bindGhost
  extract_lets marked placed cleared next
  have hplaced : getJob placed slot = some { j with part := some part } := by
    have hmarked : getJob marked slot = some j := hj
    exact (getJob_modJob ..).trans (by rw [hmarked]; rfl)
  obtain ⟨hslots, hparts⟩ := slots_of_cores (t := cleared) (foldl_coresOnly (by exact fun _ _ => rfl) _ placed)
  obtain ⟨hslots', hparts'⟩ := slots_of_cores (loadImages_frame slot (modSlot slot (fun sl => { sl with state := next }) cleared))
  have hcleared : getJob cleared slot = some { j with part := some part } := by
    rw [getJob, getSlot, hslots]
    exact hplaced
  have hnext : next = if j.stops.isEmpty then .running else .stopping := by
    simp only [next, hcleared]
  refine ⟨?_, ?_, ?_⟩
  · rw [getPart, hparts', show (modSlot slot (fun sl => { sl with state := next }) cleared).parts = cleared.parts from rfl, hparts,
      show placed.parts = marked.parts from rfl]
    exact congrArg Part.ghost (getPart_modPart ..)
  · rw [getJob, getSlot, hslots']
    refine (congrArg (fun x : Slot => x.job.bind (·.part)) (getSlot_modSlot ..)).trans ?_
    exact congrArg (fun x : Option Job => x.bind (·.part)) hcleared
  · rw [getSlot, hslots', ← hnext]
    exact congrArg Slot.state (getSlot_modSlot ..)

theorem exec_jobBind_binds (hacc : Accepts s h 0x0205 .holder false (.jobBind h slot part) snd) (hslot : slot < 128)
    (hpart : part < 64) (hauth : slotAuth snd (takeCmd h s) slot = true) (hfree : (getPart s part).state ≠ .free)
    (hholds : snd.holds (getPart s part).owner = true) (hsc : (getSlot s slot).score = some sc) (hj : getJob s slot = some j)
    (hghost : sc.ghost = true) (hstate : (getSlot s slot).state = .unbound ∨ (getSlot s slot).state = .running)
    (hnone : slotPart s slot = none) (hmay : mayBind (takeCmd h s) sc j.owner (getPart s part) = true) :
    exec (.jobBind h slot part) s = .next (finished (waitOf s h 0x0205 snd) slot (leBytes 1 part) []
      (bindGhost slot part sc (takeCmd h s))) := by
  have hj' : (getSlot s slot).job = some j := hj
  have hparts : getPart (takeCmd h s) part = getPart s part := by rw [takeCmd_frame]; rfl
  have hplace : slotPart (takeCmd h s) slot = none := by rw [takeCmd_frame]; exact hnone
  have hbusy : ((getPart s part).state != .free) = true := by simp [hfree]
  have hready : ((getSlot s slot).state == .unbound || (getSlot s slot).state == .running) = true := by
    rcases hstate with h | h <;> rw [h] <;> rfl
  rw [exec_jobBind, execJobBind]
  refine command_ok hacc ?_
  simp only [hauth, hparts, hbusy, hholds, hslot, hpart, getSlot_takeCmd, hsc, hj', hghost, hready, hplace, hmay, changed, finished,
    Option.isNone_none, decide_true, Bool.and_self, if_true, require_true]

end

/-! ## The obligation -/

/-- Settles O15: a start by `exec_jobStart_begins`, which leaves the job standing by `beginStart_stands`, and a binding by
`bindGhost_binds`; a job's owner is the context of its slot (log entry 58), and a job with a stop that waited goes from its
binding to Stopping (log entry 59). -/
theorem jobsStartAndChange : Obligations.JobsStartAndChange := by
  refine ⟨?_, ?_⟩
  · intro s h snd f sc place b w owner regs ck hacc hslot hsc hloaded hholds htrain hrestore hfields hwins hwindow hextents htier hfed
      hflags hnamed hready hreadable hapart hholding hplace hroom
    have howner : (getSlot (takeCmd h s) f.slot).owner = owner := by rw [getSlot_takeCmd]
    refine exec_jobStart_begins hacc hsc (slotAuth_takeCmd hslot (by simp [hloaded]) hholds) htrain hrestore hfields
      (List.all_eq_true.mpr fun r hr => decide_eq_true (hwins r hr).1) ?_
    exact {
      loaded := by rw [getSlot_takeCmd]; exact hloaded
      extents := hextents
      inTier := by rw [howner]; exact htier
      inWindow := List.all_eq_true.mpr fun r hr => decide_eq_true (hwins r hr).2
      fed := hfed
      flags := by rw [takeCmd_setup]; exact hflags
      restore := ⟨by rw [getSlot_takeCmd]; exact hnamed, hwindow⟩
      ready := by rw [howner]; exact hready
      readable := hreadable
      found := by
        rw [howner]
        exact ⟨hapart, hholding, by rw [takeCmd_tenants]; exact hplace, by rw [takeCmd_regions]; exact hroom⟩ }
  · intro s h snd slot j sc b hslot hj hsc hstate
    refine ⟨fun mode after ckpt hacc hmode hsender hlate hkeyed => ?_, fun part hacc hpart hholds hfree howner hghost hstands hnone
      hmay => ?_, fun new sc' forced map tables hacc hnew hsc' hcompatible hrunning hloaded hfits => ?_,
      fun rank epoch device ident tables hacc hother hrunning hcur hahead hlost hepoch hadmission => ?_⟩
    · exact exec_jobStop_applies hacc hslot hj hmode
        (Bool.or_eq_true_iff.mpr (hsender.imp_right fun hholds => slotAuth_takeCmd hslot hstate hholds)) hlate hkeyed
    · exact ⟨_, exec_jobBind_binds hacc hslot hpart (slotAuth_takeCmd hslot hstate hholds) hfree howner hsc hj hghost hstands hnone hmay,
        bindGhost_binds ((getJob_takeCmd h s slot).trans hj) part sc⟩
    · exact exec_jobReshard_member hacc hslot hj hsc hnew hsc' hcompatible hrunning hloaded hfits
    · exact exec_jobAdmit_member hacc hslot hj hsc hother hrunning hcur hahead hlost hepoch hadmission

end Sys2Proof.Machine
end
